-- ==== Sys2Proof/Word.lean ====
section
/-! DEFINITION. The word types of the machine (R2). -/

namespace Sys2Proof

/-- A byte. -/
abbrev Byte := BitVec 8

/-- A 32-bit word (R2): an instruction word, a lane of a vector register, an S or K register. -/
abbrev Word := BitVec 32

/-- A 64-bit doubleword: an even-odd register pair. -/
abbrev DWord := BitVec 64

/-- A 48-bit virtual address of a space (R59, R76). -/
abbrev Va := BitVec 48

/-- A die (R1). -/
abbrev Die := Fin 2

end Sys2Proof
end

