-- ==== Sys2Proof/Config.lean ====
section
/-! DEFINITION. What the spec leaves open and no run may fix: free values, as constants without a body. -/

namespace Sys2Proof.Config

/-- A fresh free bit: which of the values a rule names an undefined result takes (R5, R104, R100). Applied to
the counter `State.fresh`. Log entry 2. -/
opaque freeBit : Nat → Bool

/-- A fresh free word, where a rule calls a value undefined and names no alternatives (R5). Applied to the counter
`State.fresh`. Log entry 2. -/
opaque freeWord : Nat → Word

/-- Which neighbour a faithful transcendental returns (R155): a fixed function of the member (its fn code) and the input
bits alone; `true` names the neighbour of larger magnitude. Log entry 5. -/
opaque faithfulUp : Nat → Word → Bool

/-- The kind code and the 20 bytes of detail of a black-box event (R391), which no rule gives. Applied to the sort of the event and
to the counter `State.fresh`. Log entry 23. -/
opaque eventKind : Nat → BitVec 16
opaque eventDetail : Nat → BitVec 160

/-- Where the preserved-state table lies in local HBM (R388): its reserved region has no address in the spec. Log entry 46. -/
opaque tableBase : Nat

/-- A byte that the device reads for itself where its read is refused or its line fails, which no rule gives an outcome. Applied to the
address. Log entry 144. -/
opaque unreadByte : Nat → BitVec 8

/-- Whether a system-scope atomic through a TIER 0 leaf has the device point, as R232 and R240 say of the location, or the system point, as R257
says of the atomic. Log entry 149. -/
opaque sysAtomDevice : Bool

end Sys2Proof.Config
end

