-- ==== Sys2Proof/Syntax.lean ====
section
/-! DEFINITION. The instructions: one constructor of `Instr` per row of the opcode table (R108, R107, and chapter 95 for
the rows of the device's own indivisible steps, which have no encoding). Encoded rows carry their encoded fields as one
operand structure (R106). A device step has no operand fields: the data that the spec leaves to it (which queue, which block, what a
host wrote) stands in `Machine.State.input`. -/

namespace Sys2Proof

/-- Operands of format A with three registers (R106); `st` is the stall field STL (R102). -/
structure A3 where
  st : BitVec 2
  vd : BitVec 6
  va : BitVec 6
  vb : BitVec 6
  pk : BitVec 3
  deriving DecidableEq, Repr

/-- Operands of format A whose vb bits are zero (R106); `st` is the stall field STL (R102). -/
structure A2 where
  st : BitVec 2
  vd : BitVec 6
  va : BitVec 6
  pk : BitVec 3
  deriving DecidableEq, Repr

/-- Operands of format B (R106); `st` is the stall field STL (R102). -/
structure B4 where
  st : BitVec 2
  vd : BitVec 6
  va : BitVec 6
  vb : BitVec 6
  vc : BitVec 6
  deriving DecidableEq, Repr

/-- Operands of format A with a destination only (R106); `st` is the stall field STL (R102). -/
structure A1 where
  st : BitVec 2
  vd : BitVec 6
  pk : BitVec 3
  deriving DecidableEq, Repr

/-- Operands of format A whose vb names a format tag (R106); `st` is the stall field STL (R102). -/
structure AT where
  st : BitVec 2
  vd : BitVec 6
  va : BitVec 6
  tag : BitVec 5
  pk : BitVec 3
  deriving DecidableEq, Repr

/-- Operands of format I (R106); `st` is the stall field STL (R102). -/
structure I12 where
  st : BitVec 2
  vd : BitVec 6
  va : BitVec 6
  imm : BitVec 12
  deriving DecidableEq, Repr

/-- Operands of format I holding a shift amount (R106); `st` is the stall field STL (R102). -/
structure Sh5 where
  st : BitVec 2
  vd : BitVec 6
  va : BitVec 6
  amt : BitVec 5
  deriving DecidableEq, Repr

/-- Operands of format I holding a condition and a signed 9-bit value (R106); `st` is the stall field STL (R102). -/
structure I9 where
  st : BitVec 2
  vd : BitVec 6
  va : BitVec 6
  imm : BitVec 9
  deriving DecidableEq, Repr

/-- Operands of format U (R106); `st` is the stall field STL (R102). -/
structure U18 where
  st : BitVec 2
  vd : BitVec 6
  imm : BitVec 18
  deriving DecidableEq, Repr

/-- Operands of format A of CVT: destination tag and rounding mode (R106); `st` is the stall field STL (R102). -/
structure Cvt where
  st : BitVec 2
  vd : BitVec 6
  va : BitVec 6
  tag : BitVec 5
  pk : BitVec 3
  rm : BitVec 3
  deriving DecidableEq, Repr

/-- Operands of format A naming S registers, pk zero (R106); `st` is the stall field STL (R102). -/
structure S3 where
  st : BitVec 2
  vd : BitVec 6
  va : BitVec 6
  vb : BitVec 6
  deriving DecidableEq, Repr

/-- Operands of the SMOVI and SLUI variant of format U (R107); `st` is the stall field STL (R102). -/
structure SU where
  st : BitVec 2
  sd : BitVec 5
  imm : BitVec 18
  deriving DecidableEq, Repr

/-- Operands of format M (R106); `st` is the stall field STL (R102). -/
structure Mem where
  st : BitVec 2
  vd : BitVec 6
  va : BitVec 6
  sp : BitVec 2
  wf : BitVec 4
  off : BitVec 6
  deriving DecidableEq, Repr

/-- Operands of format W with three registers (R106); `st` is the stall field STL (R102). -/
structure AtomF where
  st : BitVec 2
  vd : BitVec 6
  va : BitVec 6
  vb : BitVec 6
  sc : BitVec 2
  deriving DecidableEq, Repr

/-- Operands of format W of a word without vb (R106); `st` is the stall field STL (R102). -/
structure AtomLd where
  st : BitVec 2
  vd : BitVec 6
  va : BitVec 6
  sc : BitVec 2
  deriving DecidableEq, Repr

/-- Operands of format W of a word without a destination (R106); `st` is the stall field STL (R102). -/
structure AtomSt where
  st : BitVec 2
  va : BitVec 6
  vb : BitVec 6
  sc : BitVec 2
  deriving DecidableEq, Repr

/-- Operands of FENCE without an object (R107); `st` is the stall field STL (R102). -/
structure FenceN where
  st : BitVec 2
  pre : BitVec 4
  suc : BitVec 4
  sc : BitVec 2
  deriving DecidableEq, Repr

/-- Operands of FENCE with an object pair (R107); `st` is the stall field STL (R102). -/
structure FenceO where
  st : BitVec 2
  pre : BitVec 4
  suc : BitVec 4
  sc : BitVec 2
  obj : BitVec 5
  deriving DecidableEq, Repr

/-- Operands of format X, fields a b c d (R106); `st` is the stall field STL (R102). -/
structure X4 where
  st : BitVec 2
  a : BitVec 5
  b : BitVec 5
  c : BitVec 5
  d : BitVec 5
  deriving DecidableEq, Repr

/-- Operands of format X, fields a b d (R106); `st` is the stall field STL (R102). -/
structure XABD where
  st : BitVec 2
  a : BitVec 5
  b : BitVec 5
  d : BitVec 5
  deriving DecidableEq, Repr

/-- Operands of format X, fields a b (R106); `st` is the stall field STL (R102). -/
structure XAB where
  st : BitVec 2
  a : BitVec 5
  b : BitVec 5
  deriving DecidableEq, Repr

/-- Operands of format X, fields a d (R106); `st` is the stall field STL (R102). -/
structure XAD where
  st : BitVec 2
  a : BitVec 5
  d : BitVec 5
  deriving DecidableEq, Repr

/-- Operands of format X of TBINIT (R106); `st` is the stall field STL (R102). -/
structure TbInit where
  st : BitVec 2
  a : BitVec 5
  b : BitVec 5
  r : BitVec 1
  deriving DecidableEq, Repr

/-- Operands of format X of TBARV and TBEXP (R106); `st` is the stall field STL (R102). -/
structure TbArv where
  st : BitVec 2
  a : BitVec 5
  b : BitVec 5
  w : BitVec 1
  deriving DecidableEq, Repr

/-- Operands of format X of TBRD (R106); `st` is the stall field STL (R102). -/
structure TbRd where
  st : BitVec 2
  a : BitVec 5
  h : BitVec 1
  d : BitVec 5
  deriving DecidableEq, Repr

/-- Operands of format X, field c (R106); `st` is the stall field STL (R102). -/
structure XC where
  st : BitVec 2
  c : BitVec 5
  deriving DecidableEq, Repr

/-- Operands of no operand fields (R106); `st` is the stall field STL (R102). -/
structure X0 where
  st : BitVec 2
  deriving DecidableEq, Repr

/-- Operands of format X, field a (R106); `st` is the stall field STL (R102). -/
structure XA where
  st : BitVec 2
  a : BitVec 5
  deriving DecidableEq, Repr

/-- Operands of format M of AQPOP (R107); `st` is the stall field STL (R102). -/
structure Aqp where
  st : BitVec 2
  vd : BitVec 6
  wf : BitVec 4
  queue : BitVec 2
  deriving DecidableEq, Repr

/-- Operands of format T (R106); `st` is the stall field STL (R102). -/
structure MmaF where
  st : BitVec 2
  zd : BitVec 5
  gn : BitVec 4
  va : BitVec 6
  r : BitVec 1
  sb : BitVec 5
  bfmt : BitVec 3
  deriving DecidableEq, Repr

/-- Operands of format J (R106); `st` is the stall field STL (R102). -/
structure Jf where
  st : BitVec 2
  u : BitVec 1
  k : BitVec 4
  neg : BitVec 1
  off : BitVec 18
  deriving DecidableEq, Repr

/-- Operands of format A of BRX and CALLX (R106); `st` is the stall field STL (R102). -/
structure Jxr where
  st : BitVec 2
  va : BitVec 6
  pk : BitVec 3
  deriving DecidableEq, Repr

/-- Operands of format A of RET (R106); `st` is the stall field STL (R102). -/
structure JxRet where
  st : BitVec 2
  pk : BitVec 3
  deriving DecidableEq, Repr

/-- Operands of format X, fields b c (R106); `st` is the stall field STL (R102). -/
structure XBC where
  st : BitVec 2
  b : BitVec 5
  c : BitVec 5
  deriving DecidableEq, Repr

/-- Operands of format X, fields a c (R106); `st` is the stall field STL (R102). -/
structure XAC where
  st : BitVec 2
  a : BitVec 5
  c : BitVec 5
  deriving DecidableEq, Repr

/-- Operands of format X, fields a b c (R106); `st` is the stall field STL (R102). -/
structure XABC where
  st : BitVec 2
  a : BitVec 5
  b : BitVec 5
  c : BitVec 5
  deriving DecidableEq, Repr

/-- Operands of format X, fields b d (R106); `st` is the stall field STL (R102). -/
structure XBD where
  st : BitVec 2
  b : BitVec 5
  d : BitVec 5
  deriving DecidableEq, Repr


/-- Every row of the opcode table: the encoded words of Mernyx code, then the device's own steps. -/
inductive Instr where
  /-- R149: Adds va and vb per active lane, wrapping, in word or packed integer class. -/
  | iadd (o : A3)
  /-- R149: Subtracts vb from va per active lane, wrapping. -/
  | isub (o : A3)
  /-- R149: Writes the low 32 bits of va times vb per active lane. -/
  | imul (o : A3)
  /-- R149: Writes the high 32 bits of the signed product per active lane. -/
  | imulh (o : A3)
  /-- R149: Writes the high 32 bits of the unsigned product per active lane. -/
  | imulhu (o : A3)
  /-- R149: Writes the signed minimum of va and vb per active lane. -/
  | imin (o : A3)
  /-- R149: Writes the signed maximum of va and vb per active lane. -/
  | imax (o : A3)
  /-- R149: Writes the unsigned minimum of va and vb per active lane. -/
  | umin (o : A3)
  /-- R149: Writes the unsigned maximum of va and vb per active lane. -/
  | umax (o : A3)
  /-- R149: Writes the absolute value of va per active lane, wrapping. -/
  | iabs (o : A2)
  /-- R149: Writes the negation of va per active lane, wrapping. -/
  | ineg (o : A2)
  /-- R149: Writes va AND vb per active lane. -/
  | and (o : A3)
  /-- R149: Writes va OR vb per active lane. -/
  | or (o : A3)
  /-- R149: Writes va XOR vb per active lane. -/
  | xor (o : A3)
  /-- R149: Writes va AND NOT vb per active lane. -/
  | andn (o : A3)
  /-- R149: Writes va OR NOT vb per active lane. -/
  | orn (o : A3)
  /-- R150: Shifts va left by vb[4:0] per active lane. -/
  | shl (o : A3)
  /-- R150: Shifts va right with zero fill per active lane. -/
  | shr (o : A3)
  /-- R150: Shifts va right with sign fill per active lane. -/
  | sar (o : A3)
  /-- R150: Rotates va left per active lane. -/
  | rol (o : A3)
  /-- R150: Rotates va right per active lane. -/
  | ror (o : A3)
  /-- R150: Extracts an unsigned bit field of va per active lane. -/
  | bfe (o : A3)
  /-- R150: Inserts a bit field of va into vd per active lane. -/
  | bfi (o : A3)
  /-- R150: Extracts a sign-extended bit field of va per active lane. -/
  | bfs (o : A3)
  /-- R151: Counts the one bits of va per active lane. -/
  | popc (o : A2)
  /-- R151: Counts leading zeros of va per active lane. -/
  | clz (o : A2)
  /-- R151: Counts trailing zeros of va per active lane. -/
  | ctz (o : A2)
  /-- R151: Reverses the bits of va per active lane. -/
  | brev (o : A2)
  /-- R151: Reverses the bytes of va per active lane. -/
  | bswap (o : A2)
  /-- R151: Permutes bytes of va and old vd by selectors in vb per active lane. -/
  | prmt (o : A3)
  /-- R151: Adds two 64-bit register pairs per active lane. -/
  | iadd64 (o : A3)
  /-- R151: Subtracts two 64-bit register pairs per active lane. -/
  | isub64 (o : A3)
  /-- R152: Sets Kd lanes where va equals vb. -/
  | icmpEq (o : A3)
  /-- R152: Sets Kd lanes where va differs from vb. -/
  | icmpNe (o : A3)
  /-- R152: Sets Kd lanes where va is signed less than vb. -/
  | icmpLt (o : A3)
  /-- R152: Sets Kd lanes where va is signed at most vb. -/
  | icmpLe (o : A3)
  /-- R152: Sets Kd lanes where va is unsigned less than vb. -/
  | icmpUlt (o : A3)
  /-- R152: Sets Kd lanes where va is unsigned at most vb. -/
  | icmpUle (o : A3)
  /-- R152: Sets Kd lanes where va AND vb is non-zero. -/
  | icmpTst (o : A3)
  /-- R152: Sets Kd lanes where va AND vb is zero. -/
  | icmpNtst (o : A3)
  /-- R153: Writes va times vb plus vc, wrapping, per lane. -/
  | imad (o : B4)
  /-- R162: Selects va or vb per lane by the mask named in pk. -/
  | sel (o : A3)
  /-- R162: Reads va from lane vb[4:0] into each active lane. -/
  | shfl (o : A3)
  /-- R162: Reads va from lane l XOR n into each active lane. -/
  | shflx (o : A3)
  /-- R162: Reads va from lane l minus n, keeping own value below lane 0. -/
  | shflup (o : A3)
  /-- R162: Reads va from lane l plus n, keeping own value above lane 31. -/
  | shfldn (o : A3)
  /-- R162: Broadcasts va of the lowest active lane to all active lanes. -/
  | bcst (o : A2)
  /-- R162: Writes each active lane's number into vd. -/
  | laneid (o : A1)
  /-- R163: Copies va with its tag into vd per active lane. -/
  | mov (o : A2)
  /-- R163: Copies an S register into vd per active lane, tag RAW. -/
  | movs (o : A2)
  /-- R163: Copies va of the lowest active lane into an S register. -/
  | smov (o : A2)
  /-- R163: Reads the VPC of a named lane into a register pair. -/
  | vpcr (o : A2)
  /-- R163: Writes the format tag of va as a value per active lane. -/
  | tagr (o : A2)
  /-- R163: Copies va bits into vd with the tag set to the code. -/
  | retag (o : AT)
  /-- R153: Adds a signed 12-bit immediate to va per lane. -/
  | iaddi (o : I12)
  /-- R153: ANDs va with a sign-extended immediate per lane. -/
  | andi (o : I12)
  /-- R153: ORs va with a sign-extended immediate per lane. -/
  | ori (o : I12)
  /-- R153: XORs va with a sign-extended immediate per lane. -/
  | xori (o : I12)
  /-- R153: Shifts va left by an immediate amount per lane. -/
  | shli (o : Sh5)
  /-- R153: Shifts va right with zero fill by an immediate per lane. -/
  | shri (o : Sh5)
  /-- R153: Shifts va right with sign fill by an immediate per lane. -/
  | sari (o : Sh5)
  /-- R153: Rotates va left by an immediate per lane. -/
  | roli (o : Sh5)
  /-- R152: Sets Kd lanes where va equals the immediate. -/
  | icmpiEq (o : I9)
  /-- R152: Sets Kd lanes where va differs from the immediate. -/
  | icmpiNe (o : I9)
  /-- R152: Sets Kd lanes where va is signed less than the immediate. -/
  | icmpiLt (o : I9)
  /-- R152: Sets Kd lanes where va is signed at most the immediate. -/
  | icmpiLe (o : I9)
  /-- R152: Sets Kd lanes where va is unsigned less than the immediate. -/
  | icmpiUlt (o : I9)
  /-- R152: Sets Kd lanes where va is unsigned at most the immediate. -/
  | icmpiUle (o : I9)
  /-- R152: Sets Kd lanes where va AND the immediate is non-zero. -/
  | icmpiTst (o : I9)
  /-- R152: Sets Kd lanes where va AND the immediate is zero. -/
  | icmpiNtst (o : I9)
  /-- R153: Writes imm18 into bits [31:14] of vd, keeping the low bits. -/
  | lui (o : U18)
  /-- R153: Writes the sign-extended 18-bit immediate into vd, tag I32. -/
  | movi (o : U18)
  /-- R154: Adds floating operands elementwise, rounded by FRM. -/
  | fadd (o : A3)
  /-- R154: Subtracts floating operands elementwise, rounded by FRM. -/
  | fsub (o : A3)
  /-- R154: Multiplies floating operands elementwise, rounded by FRM. -/
  | fmul (o : A3)
  /-- R154: Writes the lesser floating operand elementwise. -/
  | fmin (o : A3)
  /-- R154: Writes the greater floating operand elementwise. -/
  | fmax (o : A3)
  /-- R154: Clears the sign of each floating element of va. -/
  | fabs (o : A2)
  /-- R154: Inverts the sign of each floating element of va. -/
  | fneg (o : A2)
  /-- R154: Writes va's magnitude with vb's sign elementwise. -/
  | fcps (o : A3)
  /-- R155: Computes the F32 reciprocal per lane, variable latency. -/
  | frcp (o : A2)
  /-- R155: Computes the faithful reciprocal square root per lane. -/
  | frsq (o : A2)
  /-- R155: Computes the square root per lane, rounded by FRM. -/
  | fsqrt (o : A2)
  /-- R155: Computes 2 to the power x per lane. -/
  | fexp2 (o : A2)
  /-- R155: Computes the faithful base-2 logarithm per lane. -/
  | flog2 (o : A2)
  /-- R155: Computes the faithful sine per lane. -/
  | fsin (o : A2)
  /-- R155: Computes the faithful cosine per lane. -/
  | fcos (o : A2)
  /-- R155: Computes the faithful hyperbolic tangent per lane. -/
  | ftanh (o : A2)
  /-- R156: Sets Kd lanes where the F32 operands are equal. -/
  | fcmpEq (o : A3)
  /-- R156: Sets Kd lanes where the F32 operands differ or are unordered. -/
  | fcmpNe (o : A3)
  /-- R156: Sets Kd lanes where va is less than vb, ordered. -/
  | fcmpLt (o : A3)
  /-- R156: Sets Kd lanes where va is at most vb, ordered. -/
  | fcmpLe (o : A3)
  /-- R156: Sets Kd lanes where either operand is NaN. -/
  | fcmpUn (o : A3)
  /-- R156: Sets Kd lanes where neither operand is NaN. -/
  | fcmpOrd (o : A3)
  /-- R156: Writes a class mask of each F32 value of va. -/
  | fcmpCls (o : A2)
  /-- R157: Computes a times b plus c with one rounding. -/
  | ffma (o : B4)
  /-- R157: Computes a times b minus c with one rounding. -/
  | ffms (o : B4)
  /-- R158: Computes an exact packed dot product plus c, rounded once to F32. -/
  | fdot (o : B4)
  /-- R159: Converts each lane to the destination tag format with the given rounding mode. -/
  | cvt (o : Cvt)
  /-- R160: Packs the low halves of va and vb into vd. -/
  | pack2 (o : A3)
  /-- R160: Packs low bytes of va and vb below the old low half of vd. -/
  | pack4 (o : A3)
  /-- R160: Zero-extends the low half of va into vd. -/
  | unpkl (o : A2)
  /-- R160: Zero-extends the high half of va into vd. -/
  | unpkh (o : A2)
  /-- R160: Inserts element 0 of va into element j of vd. -/
  | packn (o : A3)
  /-- R160: Moves element j of va into element 0 of vd, zeroing the rest. -/
  | unpkn (o : A3)
  /-- R160: Packs four 6-bit codes into the memory bit-stream form. -/
  | pk6 (o : A2)
  /-- R160: Unpacks a 6-bit code stream into the register form. -/
  | upk6 (o : AT)
  /-- R161: Quantises the active lanes as one MX block with a shared scale. -/
  | mxq (o : AT)
  /-- R161: Dequantises a scaled single element to F32 per lane. -/
  | mxdq (o : A2)
  /-- R161: Computes the MX block scale of the active lanes. -/
  | mxsc (o : AT)
  /-- R164: Sets Kd lanes to K[va] AND K[vb]. -/
  | kand (o : A3)
  /-- R164: Sets Kd lanes to K[va] OR K[vb]. -/
  | kor (o : A3)
  /-- R164: Sets Kd lanes to K[va] XOR K[vb]. -/
  | kxor (o : A3)
  /-- R164: Sets Kd lanes to K[va] AND NOT K[vb]. -/
  | kandn (o : A3)
  /-- R164: Sets Kd lanes to NOT K[va]. -/
  | knot (o : A2)
  /-- R164: Copies K[va] lanes into Kd. -/
  | kmov (o : A2)
  /-- R164: Writes the population count of K[va] into vd. -/
  | kpop (o : A2)
  /-- R164: Writes the index of K[va]'s lowest set bit into vd. -/
  | kffs (o : A2)
  /-- R165: Writes the whole of Kd with the active lanes whose va is non-zero. -/
  | bal (o : A2)
  /-- R165: Writes all 32 bits of K[va] into vd per active lane. -/
  | ktov (o : A3)
  /-- R165: Writes Kd from an S register. -/
  | kfroms (o : A2)
  /-- R165: Writes an S register from K[va]. -/
  | ktos (o : A2)
  /-- R166: Adds two S registers. -/
  | sadd (o : S3)
  /-- R166: Subtracts two S registers. -/
  | ssub (o : S3)
  /-- R166: Multiplies two S registers. -/
  | smul (o : S3)
  /-- R166: ANDs two S registers. -/
  | sand (o : S3)
  /-- R166: ORs two S registers. -/
  | sor (o : S3)
  /-- R166: XORs two S registers. -/
  | sxor (o : S3)
  /-- R166: Shifts an S register left. -/
  | sshl (o : S3)
  /-- R166: Shifts an S register right with zero fill. -/
  | sshr (o : S3)
  /-- R166: Adds a signed 12-bit immediate to an S register. -/
  | saddi (o : I12)
  /-- R166: Writes a sign-extended 18-bit immediate to an S register. -/
  | smovi (o : SU)
  /-- R166: Writes imm18 into bits [31:14] of an S register. -/
  | slui (o : SU)
  /-- R166: Writes a whole-gang Kd from S equality. -/
  | scmpEq (o : S3)
  /-- R166: Writes a whole-gang Kd from S inequality. -/
  | scmpNe (o : S3)
  /-- R166: Writes a whole-gang Kd from signed S less-than. -/
  | scmpLt (o : S3)
  /-- R166: Writes a whole-gang Kd from signed S less-or-equal. -/
  | scmpLe (o : S3)
  /-- R166: Writes a whole-gang Kd from unsigned S less-than. -/
  | scmpUlt (o : S3)
  /-- R166: Writes a whole-gang Kd from unsigned S less-or-equal. -/
  | scmpUle (o : S3)
  /-- R166: Writes a whole-gang Kd where S AND S is non-zero. -/
  | scmpTst (o : S3)
  /-- R166: Writes a whole-gang Kd where S AND S is zero. -/
  | scmpNtst (o : S3)
  /-- R195: Loads a value per lane from an L, W, T or SP space with the tag of wf. -/
  | ld (o : Mem)
  /-- R195: Stores a value per lane into an L, W, T or SP space. -/
  | st (o : Mem)
  /-- R196: Loads one element and the scale of an MX unit per lane as one event. -/
  | mxld (o : Mem)
  /-- R197: Writes MX unit elements and scale from the lanes as one event. -/
  | mxst (o : Mem)
  /-- R259: Atomically adds to a word and returns the old value. -/
  | atomAdd (o : AtomF)
  /-- R259: Atomically subtracts from a word. -/
  | atomSub (o : AtomF)
  /-- R259: Atomic signed minimum on a word. -/
  | atomMin (o : AtomF)
  /-- R259: Atomic signed maximum on a word. -/
  | atomMax (o : AtomF)
  /-- R259: Atomic unsigned minimum on a word. -/
  | atomUmin (o : AtomF)
  /-- R259: Atomic unsigned maximum on a word. -/
  | atomUmax (o : AtomF)
  /-- R259: Atomic AND on a word. -/
  | atomAnd (o : AtomF)
  /-- R259: Atomic OR on a word. -/
  | atomOr (o : AtomF)
  /-- R259: Atomic XOR on a word. -/
  | atomXor (o : AtomF)
  /-- R259: Atomic exchange on a word. -/
  | atomXchg (o : AtomF)
  /-- R259: Atomic compare-and-swap on a word. -/
  | atomCas (o : AtomF)
  /-- R259: Atomic wrapping increment on a word. -/
  | atomIncw (o : AtomF)
  /-- R259: Atomic wrapping decrement on a word. -/
  | atomDecw (o : AtomF)
  /-- R259: Atomic FP32 add on a word, RNE. -/
  | atomFadd (o : AtomF)
  /-- R259: Atomic load of a word at its site. -/
  | atomAld (o : AtomLd)
  /-- R259: Atomic store of a word at its site. -/
  | atomAst (o : AtomSt)
  /-- R259: Atomically adds to a dword. -/
  | atom64Add (o : AtomF)
  /-- R259: Atomically subtracts from a dword. -/
  | atom64Sub (o : AtomF)
  /-- R259: Atomic signed minimum on a dword. -/
  | atom64Min (o : AtomF)
  /-- R259: Atomic signed maximum on a dword. -/
  | atom64Max (o : AtomF)
  /-- R259: Atomic unsigned minimum on a dword. -/
  | atom64Umin (o : AtomF)
  /-- R259: Atomic unsigned maximum on a dword. -/
  | atom64Umax (o : AtomF)
  /-- R259: Atomic AND on a dword. -/
  | atom64And (o : AtomF)
  /-- R259: Atomic OR on a dword. -/
  | atom64Or (o : AtomF)
  /-- R259: Atomic XOR on a dword. -/
  | atom64Xor (o : AtomF)
  /-- R259: Atomic exchange on a dword. -/
  | atom64Xchg (o : AtomF)
  /-- R259: Atomic compare-and-swap on a dword. -/
  | atom64Cas (o : AtomF)
  /-- R259: Atomic wrapping increment on a dword. -/
  | atom64Incw (o : AtomF)
  /-- R259: Atomic wrapping decrement on a dword. -/
  | atom64Decw (o : AtomF)
  /-- R259: Atomic FP32 add on each half of a dword. -/
  | atom64Fadd (o : AtomF)
  /-- R259: Atomic load of a dword. -/
  | atom64Ald (o : AtomLd)
  /-- R259: Atomic store of a dword. -/
  | atom64Ast (o : AtomSt)
  /-- R241: Holds later covered accesses of Q until earlier covered accesses of P perform. -/
  | fenceOrd (o : FenceN)
  /-- R242: Holds later writes to the object until earlier accesses to bytes bound to it perform. -/
  | fenceRel (o : FenceO)
  /-- R243: Holds later accesses behind the latest read of the object and drops bound tun cache lines. -/
  | fenceAcq (o : FenceO)
  /-- R243: Performs a release then an acquire on the object as one fence. -/
  | fenceBoth (o : FenceO)
  /-- R244: Releases and acquires the default objects of every scope up to s. -/
  | fenceFull (o : FenceN)
  /-- R265: Installs a binding of a region to a sync object in the context's table. -/
  | bind (o : X4)
  /-- R266: Removes a binding owned by the issuing entry. -/
  | unbind (o : XABD)
  /-- R270: Attempts a read lock, waiting at the site until granted or the hint expires. -/
  | lkr (o : AtomF)
  /-- R270: Attempts a write lock, waiting at the site until granted or the hint expires. -/
  | lkw (o : AtomF)
  /-- R271: Releases a read lock. -/
  | ulr (o : AtomLd)
  /-- R271: Releases a write lock held by the issuing block. -/
  | ulw (o : AtomLd)
  /-- R271: Initialises a lock word with the given preference. -/
  | lkinit (o : AtomSt)
  /-- R282: Subscribes a gill or ring in local memory to a word. -/
  | sld (o : X4)
  /-- R287: Waits until a gill or ring progresses past a value, closes, or the hint expires. -/
  | slwait (o : X4)
  /-- R288: Returns credits of an EVERY subscription and advances CI. -/
  | slack (o : XAB)
  /-- R289: Closes a subscription. -/
  | usub (o : XAD)
  /-- R202: Starts an asynchronous copy of LEN bytes. -/
  | cpy (o : X4)
  /-- R203: Starts a two-dimensional copy from a descriptor, with swizzle and MX layouts. -/
  | cpy2d (o : XAD)
  /-- R205: Starts a gather of elements from an index list. -/
  | gth (o : X4)
  /-- R205: Starts a scatter of elements to an index list. -/
  | sct (o : X4)
  /-- R206: Starts a main-to-main tier copy or prefetch. -/
  | cpyt (o : X4)
  /-- R328: Starts a paged key-value lookup through the inverted table. -/
  | kvl (o : XAD)
  /-- R384: Starts a collective over the process group. -/
  | coll (o : XAD)
  /-- R218: Waits until any tag of the mask is done. -/
  | wtany (o : X4)
  /-- R218: Waits until every tag of the mask is done. -/
  | wtall (o : X4)
  /-- R218: Writes the lowest done tag of the mask. -/
  | ffrdy (o : X4)
  /-- R218: Clears DONE and STATUS of non-busy tags of the mask. -/
  | tagclr (o : X4)
  /-- R218: Reads a tag's status record into an S pair. -/
  | tagrd (o : X4)
  /-- R222: Initialises a transaction barrier. -/
  | tbinit (o : TbInit)
  /-- R223: Adds expected bytes and arrives on a transaction barrier. -/
  | tbarv (o : TbArv)
  /-- R223: Adds expected bytes to a transaction barrier. -/
  | tbexp (o : TbArv)
  /-- R224: Waits while a barrier's phase equals the given phase. -/
  | tbwait (o : XAB)
  /-- R224: Waits on a barrier phase for at most a hint and writes Kd. -/
  | tbtry (o : X4)
  /-- R224: Reads half of a transaction barrier into a V pair. -/
  | tbrd (o : TbRd)
  /-- R275: Arrives on a block barrier and waits for its phase. -/
  | bar (o : XC)
  /-- R276: Arrives on the cluster barrier and waits for its phase. -/
  | cbar (o : X0)
  /-- R275: Arrives on a block barrier without waiting. -/
  | bararv (o : XC)
  /-- R276: Arrives on the cluster barrier without waiting. -/
  | bararvC (o : X0)
  /-- R277: Waits for a D counter, lock or gill condition for at most a hint. -/
  | tryw (o : X4)
  /-- R176: Sets the issue set's bits in Kn. -/
  | join (o : XA)
  /-- R176: Clears the issue set's bits in Kn. -/
  | leave (o : XA)
  /-- R66: Suspends the issue set until every live lane of Kn waits. -/
  | waitk (o : XA)
  /-- R212: Starts an address program on an access-processor queue. -/
  | aprun (o : XABD)
  /-- R214: Inside an address program, fetches bytes into the next queue entry. -/
  | aqe (o : XAB)
  /-- R214: Ends the address program. -/
  | aqend (o : X0)
  /-- R215: Stops the address program on a queue and releases it. -/
  | apstop (o : XA)
  /-- R216: Pops the oldest entry of an access-processor queue into a V register. -/
  | aqpop (o : Aqp)
  /-- R310: Signs one A row of a local-B matrix operation; the last signature issues it. -/
  | mma (o : MmaF)
  /-- R310: Signs one A row of a matrix operation with B read through the quire window. -/
  | mmac (o : MmaF)
  /-- R313: Accumulates A times B tiles from a descriptor into a Z tile. -/
  | mtile (o : XAD)
  /-- R313: As MTILE with B read through the quire window. -/
  | mtilex (o : XAD)
  /-- R313: Clears a Z tile and sets its tag. -/
  | mzclr (o : XAD)
  /-- R313: Loads a Z tile from local memory. -/
  | mzld (o : XAD)
  /-- R313: Stores Z tile rows converted to a format into local memory. -/
  | mzst (o : XAD)
  /-- R313: Scales each row of a Z tile by a factor. -/
  | mzscl (o : XAD)
  /-- R321: Performs one online-softmax attention step against one page. -/
  | att (o : XAD)
  /-- R322: Writes the normalised attention output rows in BF16. -/
  | attfin (o : XAD)
  /-- R325: Compares a query signature with 64 key signatures and writes a mask. -/
  | sigf (o : X4)
  /-- R324: Writes the sign-bit signature of each row of a tile. -/
  | sigmk (o : XABD)
  /-- R308: Prepares a convergence register for signatures by one or two gangs. -/
  | cvset (o : XAB)
  /-- R308: Empties a convergence register. -/
  | cvclr (o : XA)
  /-- R169: Branches the lanes whose condition holds to a relative target. -/
  | bra (o : Jf)
  /-- R169: Pushes the return point and branches the taken lanes. -/
  | call (o : Jf)
  /-- R170: Branches each lane to the address in its register pair. -/
  | brx (o : Jxr)
  /-- R170: Pushes the return point and branches each lane through its pair. -/
  | callx (o : Jxr)
  /-- R171: Pops each lane's call stack and moves the lane there. -/
  | ret (o : JxRet)
  /-- R177: Makes the issue set's lanes stop being live. -/
  | exit (o : X0)
  /-- R178: Ends the fragment's claim on the gang for the fairness timer. -/
  | yield (o : X0)
  /-- R179: Raises BRK for the fragment. -/
  | brk (o : XBC)
  /-- R179: Raises TRAPN for the fragment on the user route. -/
  | trap (o : XBC)
  /-- R180: Does nothing and is charged. -/
  | nop (o : X0)
  /-- R181: Refreshes the block's pinned root slot and reports it. -/
  | rref (o : XA)
  /-- R182: Reads a remaining budget or the remaining deadline into an S pair. -/
  | bget (o : XAC)
  /-- R183: Sends a record from local memory to a work-graph node. -/
  | enqr (o : X4)
  /-- R184: Ends the handler and re-executes the trapped region from TREG. -/
  | tretRetry (o : X0)
  /-- R184: Ends the handler and continues after the trapping word. -/
  | tretCont (o : X0)
  /-- R184: Ends the handler and issues the trapping word again. -/
  | tretResume (o : X0)
  /-- R351: Reads a CSR into an S register or pair. -/
  | csrr (o : XABC)
  /-- R351: Writes a CSR from an S register. -/
  | csrw (o : XABC)
  /-- R351: Sets CSR bits from an S register. -/
  | csrs (o : XABC)
  /-- R351: Clears CSR bits from an S register. -/
  | csrc (o : XABC)
  /-- R82: Compares and swaps a space's current root slot at the registry home. -/
  | rcas (o : XABC)
  /-- R83: Gives a retired space a new current root slot. -/
  | rsnap (o : XABC)
  /-- R91: Removes a node from the node caches of both dies. -/
  | ndrop (o : XBD)
  /-- R353: Reads a slot's or space's registry state. -/
  | rpinq (o : XAB)
  /-- R291: Closes subscriptions of a frame and sets, or clears, its moved mark. -/
  | smove (o : XABC)
  /-- R90: Frees a retired, unpinned root slot. -/
  | rfree (o : XAB)
  /-- R31: The front end fetches a queue entry ahead of admission. -/
  | entryFetch
  /-- R30: A pushed write index reaches the front end, which acquires and updates its latest index. -/
  | writeIndexPush
  /-- R25: A presented NOP entry retires at once. -/
  | entryNop
  /-- R38: A presented LAUNCH entry is checked and admitted or rejected. -/
  | entryLaunch
  /-- R26: A presented NODE entry is admitted and arms a node. -/
  | entryNode
  /-- R31: A FETCHFENCE, once earlier entries retired, acquires, discards fetched entries and refetches. -/
  | entryFetchfence
  /-- R25: A presented SIGNAL is admitted to wait for earlier entries. -/
  | entrySignal
  /-- R396: Once earlier entries retired, a SIGNAL releases their writes and stores its word. -/
  | signalStore
  /-- R33: A presented WAITV holds its queue and subscribes to the word. -/
  | entryWaitv
  /-- R33: A push to a WAITV's word is tested against its condition. -/
  | waitvPush
  /-- R39: The peer front end receives and tests the other half of a split launch. -/
  | splitHalfRequest
  /-- R39: The peer reports a finished half and its slack to the home front end. -/
  | splitHalfFinish
  /-- R29: Dziyx maps a queue descriptor into a queue slot. -/
  | queueMap
  /-- R34: After draining presentations, the queue is written back and its subscriptions redirected. -/
  | queueUnmap
  /-- R32: Dziyx clears FAULT and the front end rewrites the read index. -/
  | queueFaultClear
  /-- R28: Dziyx writes HOLD or RSV of the front end's configuration. -/
  | fecfgWrite
  /-- R46: Tests and adds a budget grant for an entry held under TRAP. -/
  | fepcmdGrant
  /-- R46: Demotes an admitted entry to background. -/
  | fepcmdDemote
  /-- R46: Aborts an admitted entry. -/
  | fepcmdAbort
  /-- R55: The front end places a block or co-resident instance, pins its root and sets start state. -/
  | blockPlacement
  /-- R42: The front end pre-empts victim blocks by eviction or region abort. -/
  | preemptDecision
  /-- R51: The save image is written and the core's resources are released. -/
  | saveImageDone
  /-- R348: A block is restored in order, logs applied and operations replayed. -/
  | blockRestore
  /-- R58: A block whose lanes exited and operations completed releases resources and pin. -/
  | blockEnd
  /-- R358: A finished entry leaves the set, drops bindings and settles consumption. -/
  | entryFinish
  /-- R360: After the entry's writes perform, the completion word is written and pushed. -/
  | completionWrite
  /-- R41: A lock-wait report updates a holder block's effective deadline. -/
  | deadlineInheritUpdate
  /-- R43: The front end reports an entry's remaining budgets to the core. -/
  | budgetReport
  /-- R183: The front end answers an ENQR's node state and RECSZ. -/
  | enqrNodeAnswer
  /-- R183: The front end accepts a held record into the gather buffer and completes its tag. -/
  | enqrAccept
  /-- R26: A node with G records held, or closed with records, launches a block. -/
  | nodeBlockLaunch
  /-- R26: TIMEOUT cycles after the oldest held record, the node launches a block. -/
  | nodeTimeout
  /-- R26: The earliest record deadline less MARGIN is reached and a block launches. -/
  | nodeMarginReached
  /-- R63: FCNT reaching FAIR starts a sweep of turns. -/
  | fairnessSweep
  /-- R63: A turn ends after FAIR issues and the next fragment is served. -/
  | fairnessTurnEnd
  /-- R100: A variable-latency word completes and decrements its D counter. -/
  | variableLatencyComplete
  /-- R103: A fixed-latency result is written its latency after issue. -/
  | fixedLatencyWrite
  /-- R234: A buffered store is performed at its site. -/
  | storePerform
  /-- R234: A pending read is performed at its site or from the tun read cache. -/
  | readPerform
  /-- R234: A pending atomic or lock operation is performed at its site. -/
  | atomicPerform
  /-- R234: A copy sector is read or lands, subtracting from its barrier. -/
  | sectorPerform
  /-- R234: A tun read-cache line is removed. -/
  | lineDrop
  /-- R285: A push is written into the subscriber's gill or ring. -/
  | pushDelivery
  /-- R209: A translation failure stops a copy, returns landed bytes and posts a record. -/
  | copyFault
  /-- R213: The access processor executes one address-program word. -/
  | addressProgramStep
  /-- R270: A lock waiter's hint expires and it is removed with Kd 0. -/
  | lockHintExpiry
  /-- R277: A TRYW hint expires and writes Kd 0. -/
  | trywHintExpiry
  /-- R224: A TBTRY hint expires and writes Kd 0. -/
  | tbtryHintExpiry
  /-- R287: An SLWAIT hint expires and writes Kd 0. -/
  | slwaitHintExpiry
  /-- R282: A subscription request reaches the home, which adds the subscriber and snapshots. -/
  | sldHomeRequest
  /-- R286: Returned credits reach the home, which delivers a held push. -/
  | creditReturn
  /-- R289: The home removes a subscriber and creates its closing push. -/
  | usubHome
  /-- R291: A home that cannot read the word closes the subscription with POISON. -/
  | subscriptionPoison
  /-- R315: The engine has read an operation's operands and releases its leases. -/
  | operandsConsumed
  /-- R305: A matrix or attention operation writes its tiles in one step. -/
  | matrixOpComplete
  /-- R339: A system-route event posts a record to the context's trap ring. -/
  | systemTrapRecord
  /-- R340: A TRRIDX push makes the front end apply resolved trap records. -/
  | trapResolution
  /-- R345: An unrecoverable error discards every entry of the context. -/
  | contextDiscard
  /-- R345: A device-fatal error discards every context and holds both front ends. -/
  | deviceFatal
  /-- R75: The registry pins the space's current slot or returns null. -/
  | pinCurrent
  /-- R75: The registry pins a named slot. -/
  | pin
  /-- R75: The registry unpins a slot. -/
  | unpin
  /-- R89: A notice held for a full ring is posted when space frees. -/
  | noticeRingPost
  /-- R78: A walker reads the tree for a VA and checks each entry. -/
  | translationWalk
  /-- R91: Both dies have dropped the node and NDROP's tag completes. -/
  | ndropComplete
  /-- R385: A configuration-window register without a row of its own is written. -/
  | registerWrite
  /-- R380: A host request through BAR2 is translated and performed whole or not at all. -/
  | hostBar2Request
  /-- R95: An ATS invalidation request is completed after requests using it. -/
  | atsInvalidation
  /-- R381: An SPDM request over DOE is answered. -/
  | spdmRequest
  /-- R381: A wrapped key is loaded into a key slot inside a secured session. -/
  | keyload
  /-- R248: A peer request arriving over UALink is performed at its site. -/
  | peerRequest
  /-- R375: A received REVOKE sets the lease REVOKING and posts a lease notice. -/
  | leaseRevoke
  /-- R375: At grace end the lease becomes REVOKED and RELEASE is sent. -/
  | leaseGraceEnd
  /-- R372: Dziyx writes a lease-table entry, possibly revoking it early. -/
  | leaseTableWrite
  /-- R375: A lender receiving RELEASE fences the range. -/
  | leaseRelease
  /-- R375: The lender's grace expires and it fences the range. -/
  | lenderGraceEnd
  /-- R382: A port loses its link, ending collectives and lease accesses on it. -/
  | portLinkLoss
  /-- R384: A matched collective finishes and every member's tag completes. -/
  | collComplete
  /-- R387: Cold reset runs the full boot sequence. -/
  | coldReset
  /-- R387: Warm reset repeats boot steps 2 to 6. -/
  | warmReset
  /-- R390: The mailbox returns a RESYNC snapshot. -/
  | mbResync
  /-- R389: The mailbox returns black-box events from a cursor. -/
  | mbBbread
  /-- R393: The mailbox returns, and optionally clears, a die's error log. -/
  | mbErrlog
  /-- R389: The mailbox command requests a warm reset. -/
  | mbWarmreset
  /-- R388: A verified successor Dziyx image takes over with admissions held. -/
  | firmwareReplacement
  /-- R387: Dziyx quarantines a failed quire so no block is placed on it. -/
  | quireQuarantine
  /-- R387: Once empty, the spare quire takes the quarantined logical number. -/
  | quireSpareTakeover
  /-- R392: A detected error is counted and logged. -/
  | hardwareError
  /-- R394: Reaching the hold threshold sets HOLD and posts a level-1 notice. -/
  | thermalHold
  /-- R394: Falling below the threshold by the margin clears HOLD. -/
  | thermalRelease
  /-- R394: Reaching the critical threshold raises a device-fatal error. -/
  | thermalCritical
  /-- R380: A DMA write arriving from a local NVMe drive on a storage root port is performed and takes a sequence at any subscribed word it changes. -/
  | nvmePortDmaWrite
  deriving DecidableEq, Repr

end Sys2Proof
end

