-- ==== Sys2Proof/WellFormed.lean ====
section
/-! DEFINITION. Well-formed instructions: the enumerated fields hold no reserved value (R111 row 2). The register numbers,
pairs, classes and reservations are not checked here: R111 tests them after other conditions, when the word issues. -/

namespace Sys2Proof

/-- The listed format-tag codes of R109; 0x0F, 0x17 and 0x1A to 0x1F are reserved. -/
def tagListed (t : BitVec 5) : Bool :=
  t.toNat ≤ 0x0E || (0x10 ≤ t.toNat && t.toNat ≤ 0x16) || t.toNat = 0x18 || t.toNat = 0x19

/-- CVT names a listed tag code and a rounding mode 0 to 5 (R111 row 2). -/
def Cvt.wellFormed (o : Cvt) : Bool := tagListed o.tag && o.rm.toNat ≤ 5

/-- The k field of format J is 0 to 12 (R105, R111 row 2); with k = 12, neg must be zero (R169). -/
def Jf.wellFormed (o : Jf) : Bool := o.k.toNat < 12 || (o.k.toNat = 12 && o.neg = 0#1)

/-- The bfmt field of format T is not 7 (R106, R111 row 2). -/
def MmaF.wellFormed (o : MmaF) : Bool := o.bfmt.toNat ≤ 6

/-- The object pair of a FENCE is even and 2 to 30 (R107, R111 row 2). -/
def FenceO.wellFormed (o : FenceO) : Bool := o.obj.toNat % 2 = 0 && 2 ≤ o.obj.toNat

/-- An instruction whose enumerated fields hold no reserved value (R111 row 2). -/
def Instr.wellFormed (i : Instr) : Bool :=
  match i with
  | .cvt o => o.wellFormed
  | .bra o | .call o => o.wellFormed
  | .mma o | .mmac o => o.wellFormed
  | .fenceRel o | .fenceAcq o | .fenceBoth o => o.wellFormed
  | _ => true

end Sys2Proof
end

