-- ==== Sys2Proof/Decode.lean ====
section
/-! DEFINITION. Decoding (R106 to R108): a total function from an instruction word to an instruction or a named refusal,
covering rows 1 and 2 of the fates of R111 (a reserved major or code, a non-zero must-be-zero bit, a reserved value of an
enumerated field). After it the encoder, written from the same formats. -/

namespace Sys2Proof

/-- Why a word is no instruction (R111 rows 1 and 2, and R240 for FENCE). -/
inductive Reject where
  /-- A reserved major opcode. -/
  | reservedMajor
  /-- A reserved fn, sub or op code, or a FENCE combination that R240 does not list. -/
  | reservedCode
  /-- A must-be-zero bit is set. -/
  | nonZeroBits
  /-- A reserved value of an enumerated field (R111 row 2). -/
  | reservedValue
  deriving DecidableEq, Repr

/-- The `n` bits of `w` from bit `lo` up. -/
def fld (w : Word) (lo n : Nat) : BitVec n := w.extractLsb' lo n

/-- `i` if the field `b`, which a format marks zero, is zero (R106, R107, R111 row 1). -/
def ifZero {n : Nat} (b : BitVec n) (i : Except Reject Instr) : Except Reject Instr :=
  if b = 0#n then i else .error .nonZeroBits

/-- The operand fields of format A with three registers (R106). -/
def A3.of (w : Word) : A3 := ⟨fld w 30 2, fld w 18 6, fld w 12 6, fld w 6 6, fld w 3 3⟩

/-- The operand fields of format A whose vb bits are zero (R106). -/
def A2.of (w : Word) : A2 := ⟨fld w 30 2, fld w 18 6, fld w 12 6, fld w 3 3⟩

/-- The operand fields of format B (R106). -/
def B4.of (w : Word) : B4 := ⟨fld w 30 2, fld w 18 6, fld w 12 6, fld w 6 6, fld w 0 6⟩

/-- The operand fields of format A with a destination only (R106). -/
def A1.of (w : Word) : A1 := ⟨fld w 30 2, fld w 18 6, fld w 3 3⟩

/-- The operand fields of format A whose vb names a format tag (R106). -/
def AT.of (w : Word) : AT := ⟨fld w 30 2, fld w 18 6, fld w 12 6, fld w 6 5, fld w 3 3⟩

/-- The operand fields of format I (R106). -/
def I12.of (w : Word) : I12 := ⟨fld w 30 2, fld w 18 6, fld w 12 6, fld w 0 12⟩

/-- The operand fields of format I holding a shift amount (R106). -/
def Sh5.of (w : Word) : Sh5 := ⟨fld w 30 2, fld w 18 6, fld w 12 6, fld w 0 5⟩

/-- The operand fields of format I holding a condition and a signed 9-bit value (R106). -/
def I9.of (w : Word) : I9 := ⟨fld w 30 2, fld w 18 6, fld w 12 6, fld w 0 9⟩

/-- The operand fields of format U (R106). -/
def U18.of (w : Word) : U18 := ⟨fld w 30 2, fld w 18 6, fld w 0 18⟩

/-- The operand fields of format A of CVT: destination tag and rounding mode (R106). -/
def Cvt.of (w : Word) : Cvt := ⟨fld w 30 2, fld w 18 6, fld w 12 6, fld w 6 5, fld w 3 3, fld w 0 3⟩

/-- The operand fields of format A naming S registers, pk zero (R106). -/
def S3.of (w : Word) : S3 := ⟨fld w 30 2, fld w 18 6, fld w 12 6, fld w 6 6⟩

/-- The operand fields of the SMOVI and SLUI variant of format U (R106). -/
def SU.of (w : Word) : SU := ⟨fld w 30 2, fld w 18 5, fld w 0 18⟩

/-- The operand fields of format M (R106). -/
def Mem.of (w : Word) : Mem := ⟨fld w 30 2, fld w 18 6, fld w 12 6, fld w 10 2, fld w 6 4, fld w 0 6⟩

/-- The operand fields of format W with three registers (R106). -/
def AtomF.of (w : Word) : AtomF := ⟨fld w 30 2, fld w 18 6, fld w 12 6, fld w 6 6, fld w 4 2⟩

/-- The operand fields of format W of a word without vb (R106). -/
def AtomLd.of (w : Word) : AtomLd := ⟨fld w 30 2, fld w 18 6, fld w 12 6, fld w 4 2⟩

/-- The operand fields of format W of a word without a destination (R106). -/
def AtomSt.of (w : Word) : AtomSt := ⟨fld w 30 2, fld w 12 6, fld w 6 6, fld w 4 2⟩

/-- The operand fields of FENCE without an object (R106). -/
def FenceN.of (w : Word) : FenceN := ⟨fld w 30 2, fld w 20 4, fld w 16 4, fld w 14 2⟩

/-- The operand fields of FENCE with an object pair (R106). -/
def FenceO.of (w : Word) : FenceO := ⟨fld w 30 2, fld w 20 4, fld w 16 4, fld w 14 2, fld w 9 5⟩

/-- The operand fields of format X, fields a b c d (R106). -/
def X4.of (w : Word) : X4 := ⟨fld w 30 2, fld w 19 5, fld w 14 5, fld w 9 5, fld w 4 5⟩

/-- The operand fields of format X, fields a b d (R106). -/
def XABD.of (w : Word) : XABD := ⟨fld w 30 2, fld w 19 5, fld w 14 5, fld w 4 5⟩

/-- The operand fields of format X, fields a b (R106). -/
def XAB.of (w : Word) : XAB := ⟨fld w 30 2, fld w 19 5, fld w 14 5⟩

/-- The operand fields of format X, fields a d (R106). -/
def XAD.of (w : Word) : XAD := ⟨fld w 30 2, fld w 19 5, fld w 4 5⟩

/-- The operand fields of format X of TBINIT (R106). -/
def TbInit.of (w : Word) : TbInit := ⟨fld w 30 2, fld w 19 5, fld w 14 5, fld w 9 1⟩

/-- The operand fields of format X of TBARV and TBEXP (R106). -/
def TbArv.of (w : Word) : TbArv := ⟨fld w 30 2, fld w 19 5, fld w 14 5, fld w 9 1⟩

/-- The operand fields of format X of TBRD (R106). -/
def TbRd.of (w : Word) : TbRd := ⟨fld w 30 2, fld w 19 5, fld w 9 1, fld w 4 5⟩

/-- The operand fields of format X, field c (R106). -/
def XC.of (w : Word) : XC := ⟨fld w 30 2, fld w 9 5⟩

/-- The operand fields of no operand fields (R106). -/
def X0.of (w : Word) : X0 := ⟨fld w 30 2⟩

/-- The operand fields of format X, field a (R106). -/
def XA.of (w : Word) : XA := ⟨fld w 30 2, fld w 19 5⟩

/-- The operand fields of format M of AQPOP (R106). -/
def Aqp.of (w : Word) : Aqp := ⟨fld w 30 2, fld w 18 6, fld w 6 4, fld w 0 2⟩

/-- The operand fields of format T (R106). -/
def MmaF.of (w : Word) : MmaF := ⟨fld w 30 2, fld w 19 5, fld w 15 4, fld w 9 6, fld w 8 1, fld w 3 5, fld w 0 3⟩

/-- The operand fields of format J (R106). -/
def Jf.of (w : Word) : Jf := ⟨fld w 30 2, fld w 23 1, fld w 19 4, fld w 18 1, fld w 0 18⟩

/-- The operand fields of format A of BRX and CALLX (R106). -/
def Jxr.of (w : Word) : Jxr := ⟨fld w 30 2, fld w 12 6, fld w 3 3⟩

/-- The operand fields of format A of RET (R106). -/
def JxRet.of (w : Word) : JxRet := ⟨fld w 30 2, fld w 3 3⟩

/-- The operand fields of format X, fields b c (R106). -/
def XBC.of (w : Word) : XBC := ⟨fld w 30 2, fld w 14 5, fld w 9 5⟩

/-- The operand fields of format X, fields a c (R106). -/
def XAC.of (w : Word) : XAC := ⟨fld w 30 2, fld w 19 5, fld w 9 5⟩

/-- The operand fields of format X, fields a b c (R106). -/
def XABC.of (w : Word) : XABC := ⟨fld w 30 2, fld w 19 5, fld w 14 5, fld w 9 5⟩

/-- The operand fields of format X, fields b d (R106). -/
def XBD.of (w : Word) : XBD := ⟨fld w 30 2, fld w 14 5, fld w 4 5⟩

/-- Major 0x00 (R108): IADD, ISUB, IMUL, IMULH, IMULHU, IMIN, IMAX, UMIN. -/
def decode00 (w : Word) : Except Reject Instr :=
  match (fld w 0 3).toNat with
  | 0 => (.ok (.iadd (.of w)))
  | 1 => (.ok (.isub (.of w)))
  | 2 => (.ok (.imul (.of w)))
  | 3 => (.ok (.imulh (.of w)))
  | 4 => (.ok (.imulhu (.of w)))
  | 5 => (.ok (.imin (.of w)))
  | 6 => (.ok (.imax (.of w)))
  | 7 => (.ok (.umin (.of w)))
  | _ => .error .reservedCode

/-- Major 0x01 (R108): UMAX, IABS, INEG, AND, OR, XOR, ANDN, ORN. -/
def decode01 (w : Word) : Except Reject Instr :=
  match (fld w 0 3).toNat with
  | 0 => (.ok (.umax (.of w)))
  | 1 => (ifZero (fld w 6 6) (.ok (.iabs (.of w))))
  | 2 => (ifZero (fld w 6 6) (.ok (.ineg (.of w))))
  | 3 => (.ok (.and (.of w)))
  | 4 => (.ok (.or (.of w)))
  | 5 => (.ok (.xor (.of w)))
  | 6 => (.ok (.andn (.of w)))
  | 7 => (.ok (.orn (.of w)))
  | _ => .error .reservedCode

/-- Major 0x02 (R108): SHL, SHR, SAR, ROL, ROR, BFE, BFI, BFS. -/
def decode02 (w : Word) : Except Reject Instr :=
  match (fld w 0 3).toNat with
  | 0 => (.ok (.shl (.of w)))
  | 1 => (.ok (.shr (.of w)))
  | 2 => (.ok (.sar (.of w)))
  | 3 => (.ok (.rol (.of w)))
  | 4 => (.ok (.ror (.of w)))
  | 5 => (.ok (.bfe (.of w)))
  | 6 => (.ok (.bfi (.of w)))
  | 7 => (.ok (.bfs (.of w)))
  | _ => .error .reservedCode

/-- Major 0x03 (R108): POPC, CLZ, CTZ, BREV, BSWAP, PRMT, IADD64, ISUB64. -/
def decode03 (w : Word) : Except Reject Instr :=
  match (fld w 0 3).toNat with
  | 0 => (ifZero (fld w 6 6) (.ok (.popc (.of w))))
  | 1 => (ifZero (fld w 6 6) (.ok (.clz (.of w))))
  | 2 => (ifZero (fld w 6 6) (.ok (.ctz (.of w))))
  | 3 => (ifZero (fld w 6 6) (.ok (.brev (.of w))))
  | 4 => (ifZero (fld w 6 6) (.ok (.bswap (.of w))))
  | 5 => (.ok (.prmt (.of w)))
  | 6 => (.ok (.iadd64 (.of w)))
  | 7 => (.ok (.isub64 (.of w)))
  | _ => .error .reservedCode

/-- Major 0x04 (R108): ICMP_EQ, ICMP_NE, ICMP_LT, ICMP_LE, ICMP_ULT, ICMP_ULE, ICMP_TST, ICMP_NTST. -/
def decode04 (w : Word) : Except Reject Instr :=
  match (fld w 0 3).toNat with
  | 0 => (.ok (.icmpEq (.of w)))
  | 1 => (.ok (.icmpNe (.of w)))
  | 2 => (.ok (.icmpLt (.of w)))
  | 3 => (.ok (.icmpLe (.of w)))
  | 4 => (.ok (.icmpUlt (.of w)))
  | 5 => (.ok (.icmpUle (.of w)))
  | 6 => (.ok (.icmpTst (.of w)))
  | 7 => (.ok (.icmpNtst (.of w)))
  | _ => .error .reservedCode

/-- Major 0x05 (R108): IMAD. -/
def decode05 (w : Word) : Except Reject Instr :=
  (.ok (.imad (.of w)))

/-- Major 0x06 (R108): SEL, SHFL, SHFLX, SHFLUP, SHFLDN, BCST, LANEID. -/
def decode06 (w : Word) : Except Reject Instr :=
  match (fld w 0 3).toNat with
  | 0 => (.ok (.sel (.of w)))
  | 1 => (.ok (.shfl (.of w)))
  | 2 => (.ok (.shflx (.of w)))
  | 3 => (.ok (.shflup (.of w)))
  | 4 => (.ok (.shfldn (.of w)))
  | 5 => (ifZero (fld w 6 6) (.ok (.bcst (.of w))))
  | 6 => (ifZero (fld w 6 12) (.ok (.laneid (.of w))))
  | _ => .error .reservedCode

/-- Major 0x07 (R108): MOV, MOVS, SMOV, VPCR, TAGR, RETAG. -/
def decode07 (w : Word) : Except Reject Instr :=
  match (fld w 0 3).toNat with
  | 0 => (ifZero (fld w 6 6) (.ok (.mov (.of w))))
  | 1 => (ifZero (fld w 6 6) (.ok (.movs (.of w))))
  | 2 => (ifZero (fld w 6 6) (.ok (.smov (.of w))))
  | 3 => (ifZero (fld w 6 6) (.ok (.vpcr (.of w))))
  | 4 => (ifZero (fld w 6 6) (.ok (.tagr (.of w))))
  | 5 => (ifZero (fld w 11 1) (.ok (.retag (.of w))))
  | _ => .error .reservedCode

/-- Major 0x08 (R108): IADDI. -/
def decode08 (w : Word) : Except Reject Instr :=
  (.ok (.iaddi (.of w)))

/-- Major 0x09 (R108): ANDI. -/
def decode09 (w : Word) : Except Reject Instr :=
  (.ok (.andi (.of w)))

/-- Major 0x0A (R108): ORI. -/
def decode0A (w : Word) : Except Reject Instr :=
  (.ok (.ori (.of w)))

/-- Major 0x0B (R108): XORI. -/
def decode0B (w : Word) : Except Reject Instr :=
  (.ok (.xori (.of w)))

/-- Major 0x0C (R108): SHLI, SHRI, SARI, ROLI. -/
def decode0C (w : Word) : Except Reject Instr :=
  match (fld w 10 2).toNat with
  | 0 => (ifZero (fld w 5 5) (.ok (.shli (.of w))))
  | 1 => (ifZero (fld w 5 5) (.ok (.shri (.of w))))
  | 2 => (ifZero (fld w 5 5) (.ok (.sari (.of w))))
  | 3 => (ifZero (fld w 5 5) (.ok (.roli (.of w))))
  | _ => .error .reservedCode

/-- Major 0x0D (R108): ICMPI_EQ, ICMPI_NE, ICMPI_LT, ICMPI_LE, ICMPI_ULT, ICMPI_ULE, ICMPI_TST, ICMPI_NTST. -/
def decode0D (w : Word) : Except Reject Instr :=
  match (fld w 9 3).toNat with
  | 0 => (.ok (.icmpiEq (.of w)))
  | 1 => (.ok (.icmpiNe (.of w)))
  | 2 => (.ok (.icmpiLt (.of w)))
  | 3 => (.ok (.icmpiLe (.of w)))
  | 4 => (.ok (.icmpiUlt (.of w)))
  | 5 => (.ok (.icmpiUle (.of w)))
  | 6 => (.ok (.icmpiTst (.of w)))
  | 7 => (.ok (.icmpiNtst (.of w)))
  | _ => .error .reservedCode

/-- Major 0x0E (R108): LUI. -/
def decode0E (w : Word) : Except Reject Instr :=
  (.ok (.lui (.of w)))

/-- Major 0x0F (R108): MOVI. -/
def decode0F (w : Word) : Except Reject Instr :=
  (.ok (.movi (.of w)))

/-- Major 0x10 (R108): FADD, FSUB, FMUL, FMIN, FMAX, FABS, FNEG, FCPS. -/
def decode10 (w : Word) : Except Reject Instr :=
  match (fld w 0 3).toNat with
  | 0 => (.ok (.fadd (.of w)))
  | 1 => (.ok (.fsub (.of w)))
  | 2 => (.ok (.fmul (.of w)))
  | 3 => (.ok (.fmin (.of w)))
  | 4 => (.ok (.fmax (.of w)))
  | 5 => (ifZero (fld w 6 6) (.ok (.fabs (.of w))))
  | 6 => (ifZero (fld w 6 6) (.ok (.fneg (.of w))))
  | 7 => (.ok (.fcps (.of w)))
  | _ => .error .reservedCode

/-- Major 0x11 (R108): FRCP, FRSQ, FSQRT, FEXP2, FLOG2, FSIN, FCOS, FTANH. -/
def decode11 (w : Word) : Except Reject Instr :=
  match (fld w 0 3).toNat with
  | 0 => (ifZero (fld w 6 6) (.ok (.frcp (.of w))))
  | 1 => (ifZero (fld w 6 6) (.ok (.frsq (.of w))))
  | 2 => (ifZero (fld w 6 6) (.ok (.fsqrt (.of w))))
  | 3 => (ifZero (fld w 6 6) (.ok (.fexp2 (.of w))))
  | 4 => (ifZero (fld w 6 6) (.ok (.flog2 (.of w))))
  | 5 => (ifZero (fld w 6 6) (.ok (.fsin (.of w))))
  | 6 => (ifZero (fld w 6 6) (.ok (.fcos (.of w))))
  | 7 => (ifZero (fld w 6 6) (.ok (.ftanh (.of w))))
  | _ => .error .reservedCode

/-- Major 0x12 (R108): FCMP_EQ, FCMP_NE, FCMP_LT, FCMP_LE, FCMP_UN, FCMP_ORD, FCMP_CLS. -/
def decode12 (w : Word) : Except Reject Instr :=
  match (fld w 0 3).toNat with
  | 0 => (.ok (.fcmpEq (.of w)))
  | 1 => (.ok (.fcmpNe (.of w)))
  | 2 => (.ok (.fcmpLt (.of w)))
  | 3 => (.ok (.fcmpLe (.of w)))
  | 4 => (.ok (.fcmpUn (.of w)))
  | 5 => (.ok (.fcmpOrd (.of w)))
  | 6 => (ifZero (fld w 6 6) (.ok (.fcmpCls (.of w))))
  | _ => .error .reservedCode

/-- Major 0x13 (R108): FFMA. -/
def decode13 (w : Word) : Except Reject Instr :=
  (.ok (.ffma (.of w)))

/-- Major 0x14 (R108): FFMS. -/
def decode14 (w : Word) : Except Reject Instr :=
  (.ok (.ffms (.of w)))

/-- Major 0x15 (R108): FDOT. -/
def decode15 (w : Word) : Except Reject Instr :=
  (.ok (.fdot (.of w)))

/-- Major 0x16 (R108): CVT. -/
def decode16 (w : Word) : Except Reject Instr :=
  (ifZero (fld w 11 1) (.ok (.cvt (.of w))))

/-- Major 0x17 (R108): PACK2, PACK4, UNPKL, UNPKH, PACKN, UNPKN, PK6, UPK6. -/
def decode17 (w : Word) : Except Reject Instr :=
  match (fld w 0 3).toNat with
  | 0 => (.ok (.pack2 (.of w)))
  | 1 => (.ok (.pack4 (.of w)))
  | 2 => (ifZero (fld w 6 6) (.ok (.unpkl (.of w))))
  | 3 => (ifZero (fld w 6 6) (.ok (.unpkh (.of w))))
  | 4 => (.ok (.packn (.of w)))
  | 5 => (.ok (.unpkn (.of w)))
  | 6 => (ifZero (fld w 6 6) (.ok (.pk6 (.of w))))
  | 7 => (ifZero (fld w 11 1) (.ok (.upk6 (.of w))))
  | _ => .error .reservedCode

/-- Major 0x18 (R108): MXQ, MXDQ, MXSC. -/
def decode18 (w : Word) : Except Reject Instr :=
  match (fld w 0 3).toNat with
  | 0 => (ifZero (fld w 11 1) (.ok (.mxq (.of w))))
  | 1 => (ifZero (fld w 6 6) (.ok (.mxdq (.of w))))
  | 2 => (ifZero (fld w 11 1) (.ok (.mxsc (.of w))))
  | _ => .error .reservedCode

/-- Major 0x1A (R108): KAND, KOR, KXOR, KANDN, KNOT, KMOV, KPOP, KFFS. -/
def decode1A (w : Word) : Except Reject Instr :=
  match (fld w 0 3).toNat with
  | 0 => (.ok (.kand (.of w)))
  | 1 => (.ok (.kor (.of w)))
  | 2 => (.ok (.kxor (.of w)))
  | 3 => (.ok (.kandn (.of w)))
  | 4 => (ifZero (fld w 6 6) (.ok (.knot (.of w))))
  | 5 => (ifZero (fld w 6 6) (.ok (.kmov (.of w))))
  | 6 => (ifZero (fld w 6 6) (.ok (.kpop (.of w))))
  | 7 => (ifZero (fld w 6 6) (.ok (.kffs (.of w))))
  | _ => .error .reservedCode

/-- Major 0x1B (R108): BAL, KTOV, KFROMS, KTOS. -/
def decode1B (w : Word) : Except Reject Instr :=
  match (fld w 0 3).toNat with
  | 0 => (ifZero (fld w 6 6) (.ok (.bal (.of w))))
  | 1 => (.ok (.ktov (.of w)))
  | 2 => (ifZero (fld w 6 6) (.ok (.kfroms (.of w))))
  | 3 => (ifZero (fld w 6 6) (.ok (.ktos (.of w))))
  | _ => .error .reservedCode

/-- Major 0x1C (R108): SADD, SSUB, SMUL, SAND, SOR, SXOR, SSHL, SSHR. -/
def decode1C (w : Word) : Except Reject Instr :=
  match (fld w 0 3).toNat with
  | 0 => (ifZero (fld w 3 3) (.ok (.sadd (.of w))))
  | 1 => (ifZero (fld w 3 3) (.ok (.ssub (.of w))))
  | 2 => (ifZero (fld w 3 3) (.ok (.smul (.of w))))
  | 3 => (ifZero (fld w 3 3) (.ok (.sand (.of w))))
  | 4 => (ifZero (fld w 3 3) (.ok (.sor (.of w))))
  | 5 => (ifZero (fld w 3 3) (.ok (.sxor (.of w))))
  | 6 => (ifZero (fld w 3 3) (.ok (.sshl (.of w))))
  | 7 => (ifZero (fld w 3 3) (.ok (.sshr (.of w))))
  | _ => .error .reservedCode

/-- Major 0x1D (R108): SADDI. -/
def decode1D (w : Word) : Except Reject Instr :=
  (.ok (.saddi (.of w)))

/-- Major 0x1E (R108): SMOVI, SLUI. -/
def decode1E (w : Word) : Except Reject Instr :=
  match (fld w 23 1).toNat with
  | 0 => (.ok (.smovi (.of w)))
  | 1 => (.ok (.slui (.of w)))
  | _ => .error .reservedCode

/-- Major 0x1F (R108): SCMP_EQ, SCMP_NE, SCMP_LT, SCMP_LE, SCMP_ULT, SCMP_ULE, SCMP_TST, SCMP_NTST. -/
def decode1F (w : Word) : Except Reject Instr :=
  match (fld w 0 3).toNat with
  | 0 => (ifZero (fld w 3 3) (.ok (.scmpEq (.of w))))
  | 1 => (ifZero (fld w 3 3) (.ok (.scmpNe (.of w))))
  | 2 => (ifZero (fld w 3 3) (.ok (.scmpLt (.of w))))
  | 3 => (ifZero (fld w 3 3) (.ok (.scmpLe (.of w))))
  | 4 => (ifZero (fld w 3 3) (.ok (.scmpUlt (.of w))))
  | 5 => (ifZero (fld w 3 3) (.ok (.scmpUle (.of w))))
  | 6 => (ifZero (fld w 3 3) (.ok (.scmpTst (.of w))))
  | 7 => (ifZero (fld w 3 3) (.ok (.scmpNtst (.of w))))
  | _ => .error .reservedCode

/-- Major 0x20 (R108): LD. -/
def decode20 (w : Word) : Except Reject Instr :=
  (.ok (.ld (.of w)))

/-- Major 0x21 (R108): ST. -/
def decode21 (w : Word) : Except Reject Instr :=
  (.ok (.st (.of w)))

/-- Major 0x22 (R108): MXLD. -/
def decode22 (w : Word) : Except Reject Instr :=
  (.ok (.mxld (.of w)))

/-- Major 0x23 (R108): MXST. -/
def decode23 (w : Word) : Except Reject Instr :=
  (.ok (.mxst (.of w)))

/-- Major 0x24 (R108): ATOM_ADD, ATOM_SUB, ATOM_MIN, ATOM_MAX, ATOM_UMIN, ATOM_UMAX, ATOM_AND, ATOM_OR, ATOM_XOR, ATOM_XCHG, ATOM_CAS, ATOM_INCW, ATOM_DECW, ATOM_FADD, ATOM_ALD, ATOM_AST. -/
def decode24 (w : Word) : Except Reject Instr :=
  match (fld w 0 4).toNat with
  | 0 => (.ok (.atomAdd (.of w)))
  | 1 => (.ok (.atomSub (.of w)))
  | 2 => (.ok (.atomMin (.of w)))
  | 3 => (.ok (.atomMax (.of w)))
  | 4 => (.ok (.atomUmin (.of w)))
  | 5 => (.ok (.atomUmax (.of w)))
  | 6 => (.ok (.atomAnd (.of w)))
  | 7 => (.ok (.atomOr (.of w)))
  | 8 => (.ok (.atomXor (.of w)))
  | 9 => (.ok (.atomXchg (.of w)))
  | 10 => (.ok (.atomCas (.of w)))
  | 11 => (.ok (.atomIncw (.of w)))
  | 12 => (.ok (.atomDecw (.of w)))
  | 13 => (.ok (.atomFadd (.of w)))
  | 14 => (ifZero (fld w 6 6) (.ok (.atomAld (.of w))))
  | 15 => (ifZero (fld w 18 6) (.ok (.atomAst (.of w))))
  | _ => .error .reservedCode

/-- Major 0x25 (R108): ATOM64_ADD, ATOM64_SUB, ATOM64_MIN, ATOM64_MAX, ATOM64_UMIN, ATOM64_UMAX, ATOM64_AND, ATOM64_OR, ATOM64_XOR, ATOM64_XCHG, ATOM64_CAS, ATOM64_INCW, ATOM64_DECW, ATOM64_FADD, ATOM64_ALD, ATOM64_AST. -/
def decode25 (w : Word) : Except Reject Instr :=
  match (fld w 0 4).toNat with
  | 0 => (.ok (.atom64Add (.of w)))
  | 1 => (.ok (.atom64Sub (.of w)))
  | 2 => (.ok (.atom64Min (.of w)))
  | 3 => (.ok (.atom64Max (.of w)))
  | 4 => (.ok (.atom64Umin (.of w)))
  | 5 => (.ok (.atom64Umax (.of w)))
  | 6 => (.ok (.atom64And (.of w)))
  | 7 => (.ok (.atom64Or (.of w)))
  | 8 => (.ok (.atom64Xor (.of w)))
  | 9 => (.ok (.atom64Xchg (.of w)))
  | 10 => (.ok (.atom64Cas (.of w)))
  | 11 => (.ok (.atom64Incw (.of w)))
  | 12 => (.ok (.atom64Decw (.of w)))
  | 13 => (.ok (.atom64Fadd (.of w)))
  | 14 => (ifZero (fld w 6 6) (.ok (.atom64Ald (.of w))))
  | 15 => (ifZero (fld w 18 6) (.ok (.atom64Ast (.of w))))
  | _ => .error .reservedCode

/-- Major 0x26 (R108): FENCE_ORD, FENCE_REL, FENCE_ACQ, FENCE_BOTH, FENCE_FULL. -/
def decode26 (w : Word) : Except Reject Instr :=
  match (fld w 6 3).toNat with
  | 0 => (ifZero (fld w 9 5) (ifZero (fld w 0 6) (.ok (.fenceOrd (.of w)))))
  | 5 => (ifZero (fld w 0 6) (.ok (.fenceRel (.of w))))
  | 6 => (ifZero (fld w 0 6) (.ok (.fenceAcq (.of w))))
  | 7 => (ifZero (fld w 0 6) (.ok (.fenceBoth (.of w))))
  | 3 => (ifZero (fld w 9 5) (ifZero (fld w 0 6) (.ok (.fenceFull (.of w)))))
  | _ => .error .reservedCode

/-- Major 0x27 (R108): BIND, UNBIND. -/
def decode27 (w : Word) : Except Reject Instr :=
  match (fld w 0 4).toNat with
  | 0 => (.ok (.bind (.of w)))
  | 1 => (ifZero (fld w 9 5) (.ok (.unbind (.of w))))
  | _ => .error .reservedCode

/-- Major 0x28 (R108): LKR, LKW, ULR, ULW, LKINIT. -/
def decode28 (w : Word) : Except Reject Instr :=
  match (fld w 0 4).toNat with
  | 0 => (.ok (.lkr (.of w)))
  | 1 => (.ok (.lkw (.of w)))
  | 2 => (ifZero (fld w 6 6) (.ok (.ulr (.of w))))
  | 3 => (ifZero (fld w 6 6) (.ok (.ulw (.of w))))
  | 4 => (ifZero (fld w 18 6) (.ok (.lkinit (.of w))))
  | _ => .error .reservedCode

/-- Major 0x29 (R108): SLD, SLWAIT, SLACK, USUB. -/
def decode29 (w : Word) : Except Reject Instr :=
  match (fld w 0 4).toNat with
  | 0 => (.ok (.sld (.of w)))
  | 1 => (.ok (.slwait (.of w)))
  | 2 => (ifZero (fld w 4 10) (.ok (.slack (.of w))))
  | 3 => (ifZero (fld w 9 10) (.ok (.usub (.of w))))
  | _ => .error .reservedCode

/-- Major 0x2A (R108): CPY, CPY2D, GTH, SCT, CPYT, KVL, COLL. -/
def decode2A (w : Word) : Except Reject Instr :=
  match (fld w 0 4).toNat with
  | 0 => (.ok (.cpy (.of w)))
  | 1 => (ifZero (fld w 9 10) (.ok (.cpy2d (.of w))))
  | 2 => (.ok (.gth (.of w)))
  | 3 => (.ok (.sct (.of w)))
  | 4 => (.ok (.cpyt (.of w)))
  | 5 => (ifZero (fld w 9 10) (.ok (.kvl (.of w))))
  | 6 => (ifZero (fld w 9 10) (.ok (.coll (.of w))))
  | _ => .error .reservedCode

/-- Major 0x2B (R108): WTANY, WTALL, FFRDY, TAGCLR, TAGRD. -/
def decode2B (w : Word) : Except Reject Instr :=
  match (fld w 0 4).toNat with
  | 0 => (.ok (.wtany (.of w)))
  | 1 => (.ok (.wtall (.of w)))
  | 2 => (.ok (.ffrdy (.of w)))
  | 3 => (.ok (.tagclr (.of w)))
  | 4 => (.ok (.tagrd (.of w)))
  | _ => .error .reservedCode

/-- Major 0x2C (R108): TBINIT, TBARV, TBEXP, TBWAIT, TBTRY, TBRD. -/
def decode2C (w : Word) : Except Reject Instr :=
  match (fld w 0 4).toNat with
  | 0 => (ifZero (fld w 10 4) (ifZero (fld w 4 5) (.ok (.tbinit (.of w)))))
  | 1 => (ifZero (fld w 10 4) (ifZero (fld w 4 5) (.ok (.tbarv (.of w)))))
  | 2 => (ifZero (fld w 10 4) (ifZero (fld w 4 5) (.ok (.tbexp (.of w)))))
  | 3 => (ifZero (fld w 4 10) (.ok (.tbwait (.of w))))
  | 4 => (.ok (.tbtry (.of w)))
  | 5 => (ifZero (fld w 10 9) (.ok (.tbrd (.of w))))
  | _ => .error .reservedCode

/-- Major 0x2D (R108): BAR, CBAR, BARARV, BARARV_C, TRYW, JOIN, LEAVE, WAITK. -/
def decode2D (w : Word) : Except Reject Instr :=
  match (fld w 0 4).toNat with
  | 0 => (ifZero (fld w 14 10) (ifZero (fld w 4 5) (.ok (.bar (.of w)))))
  | 1 => (ifZero (fld w 4 20) (.ok (.cbar (.of w))))
  | 2 => ifZero (fld w 19 5) (ifZero (fld w 4 5) (match (fld w 14 5).toNat with
    | 0 => .ok (.bararv (.of w))
    | 1 => ifZero (fld w 9 5) (.ok (.bararvC (.of w)))
    | _ => .error .nonZeroBits))
  | 3 => (.ok (.tryw (.of w)))
  | 4 => (ifZero (fld w 4 15) (.ok (.join (.of w))))
  | 5 => (ifZero (fld w 4 15) (.ok (.leave (.of w))))
  | 6 => (ifZero (fld w 4 15) (.ok (.waitk (.of w))))
  | _ => .error .reservedCode

/-- Major 0x2E (R108): APRUN, AQE, AQEND, APSTOP. -/
def decode2E (w : Word) : Except Reject Instr :=
  match (fld w 0 4).toNat with
  | 0 => (ifZero (fld w 9 5) (.ok (.aprun (.of w))))
  | 1 => (ifZero (fld w 4 10) (.ok (.aqe (.of w))))
  | 2 => (ifZero (fld w 4 20) (.ok (.aqend (.of w))))
  | 3 => (ifZero (fld w 4 15) (.ok (.apstop (.of w))))
  | _ => .error .reservedCode

/-- Major 0x2F (R108): AQPOP. -/
def decode2F (w : Word) : Except Reject Instr :=
  (ifZero (fld w 10 8) (ifZero (fld w 2 4) (.ok (.aqpop (.of w)))))

/-- Major 0x30 (R108): MMA. -/
def decode30 (w : Word) : Except Reject Instr :=
  (.ok (.mma (.of w)))

/-- Major 0x31 (R108): MMAC. -/
def decode31 (w : Word) : Except Reject Instr :=
  (.ok (.mmac (.of w)))

/-- Major 0x32 (R108): MTILE, MTILEX, MZCLR, MZLD, MZST, MZSCL. -/
def decode32 (w : Word) : Except Reject Instr :=
  match (fld w 0 4).toNat with
  | 0 => (ifZero (fld w 9 10) (.ok (.mtile (.of w))))
  | 1 => (ifZero (fld w 9 10) (.ok (.mtilex (.of w))))
  | 2 => (ifZero (fld w 9 10) (.ok (.mzclr (.of w))))
  | 3 => (ifZero (fld w 9 10) (.ok (.mzld (.of w))))
  | 4 => (ifZero (fld w 9 10) (.ok (.mzst (.of w))))
  | 5 => (ifZero (fld w 9 10) (.ok (.mzscl (.of w))))
  | _ => .error .reservedCode

/-- Major 0x33 (R108): ATT, ATTFIN, SIGF, SIGMK. -/
def decode33 (w : Word) : Except Reject Instr :=
  match (fld w 0 4).toNat with
  | 0 => (ifZero (fld w 9 10) (.ok (.att (.of w))))
  | 1 => (ifZero (fld w 9 10) (.ok (.attfin (.of w))))
  | 2 => (.ok (.sigf (.of w)))
  | 3 => (ifZero (fld w 9 5) (.ok (.sigmk (.of w))))
  | _ => .error .reservedCode

/-- Major 0x34 (R108): CVSET, CVCLR. -/
def decode34 (w : Word) : Except Reject Instr :=
  match (fld w 0 4).toNat with
  | 0 => (ifZero (fld w 4 10) (.ok (.cvset (.of w))))
  | 1 => (ifZero (fld w 4 15) (.ok (.cvclr (.of w))))
  | _ => .error .reservedCode

/-- Major 0x38 (R108): BRA. -/
def decode38 (w : Word) : Except Reject Instr :=
  (.ok (.bra (.of w)))

/-- Major 0x39 (R108): CALL. -/
def decode39 (w : Word) : Except Reject Instr :=
  (.ok (.call (.of w)))

/-- Major 0x3A (R108): BRX, CALLX, RET. -/
def decode3A (w : Word) : Except Reject Instr :=
  match (fld w 0 3).toNat with
  | 0 => (ifZero (fld w 18 6) (ifZero (fld w 6 6) (.ok (.brx (.of w)))))
  | 1 => (ifZero (fld w 18 6) (ifZero (fld w 6 6) (.ok (.callx (.of w)))))
  | 2 => (ifZero (fld w 6 18) (.ok (.ret (.of w))))
  | _ => .error .reservedCode

/-- Major 0x3B (R108): EXIT, YIELD, BRK, TRAP, NOP, RREF, BGET, ENQR, TRET_RETRY, TRET_CONT, TRET_RESUME. -/
noncomputable def decode3B (w : Word) : Except Reject Instr :=
  match (fld w 0 4).toNat with
  | 0 => (ifZero (fld w 4 20) (.ok (.exit (.of w))))
  | 1 => (ifZero (fld w 4 20) (.ok (.yield (.of w))))
  | 2 => (ifZero (fld w 19 5) (ifZero (fld w 4 5) (.ok (.brk (.of w)))))
  | 3 => (ifZero (fld w 19 5) (ifZero (fld w 4 5) (.ok (.trap (.of w)))))
  | 4 => (ifZero (fld w 4 20) (.ok (.nop (.of w))))
  | 5 => (ifZero (fld w 4 15) (.ok (.rref (.of w))))
  | 6 => (ifZero (fld w 14 5) (ifZero (fld w 4 5) (.ok (.bget (.of w)))))
  | 7 => (.ok (.enqr (.of w)))
  | 8 => ifZero (fld w 4 15) (match (fld w 19 5).toNat with
    | 0 => .ok (.tretRetry (.of w))
    | 1 => .ok (.tretCont (.of w))
    | 2 => .ok (.tretResume (.of w))
    | _ => .error .nonZeroBits)
  | _ => .error .reservedCode

/-- Major 0x3C (R108): CSRR, CSRW, CSRS, CSRC. -/
noncomputable def decode3C (w : Word) : Except Reject Instr :=
  match (fld w 0 4).toNat with
  | 0 => (ifZero (fld w 4 5) (.ok (.csrr (.of w))))
  | 1 => (ifZero (fld w 4 5) (.ok (.csrw (.of w))))
  | 2 => (ifZero (fld w 4 5) (.ok (.csrs (.of w))))
  | 3 => (ifZero (fld w 4 5) (.ok (.csrc (.of w))))
  | _ => .error .reservedCode

/-- Major 0x3D (R108): RCAS, RSNAP, NDROP, RPINQ, SMOVE, RFREE. -/
noncomputable def decode3D (w : Word) : Except Reject Instr :=
  match (fld w 0 4).toNat with
  | 0 => (ifZero (fld w 4 5) (.ok (.rcas (.of w))))
  | 1 => (ifZero (fld w 4 5) (.ok (.rsnap (.of w))))
  | 2 => (ifZero (fld w 19 5) (ifZero (fld w 9 5) (.ok (.ndrop (.of w)))))
  | 3 => (ifZero (fld w 4 10) (.ok (.rpinq (.of w))))
  | 4 => (ifZero (fld w 4 5) (.ok (.smove (.of w))))
  | 5 => (ifZero (fld w 4 10) (.ok (.rfree (.of w))))
  | _ => .error .reservedCode

/-- The majors below 0x3B (R108). -/
def decodeLow (w : Word) : Except Reject Instr :=
  match (fld w 24 6).toNat with
  | 0x00 => decode00 w
  | 0x01 => decode01 w
  | 0x02 => decode02 w
  | 0x03 => decode03 w
  | 0x04 => decode04 w
  | 0x05 => decode05 w
  | 0x06 => decode06 w
  | 0x07 => decode07 w
  | 0x08 => decode08 w
  | 0x09 => decode09 w
  | 0x0A => decode0A w
  | 0x0B => decode0B w
  | 0x0C => decode0C w
  | 0x0D => decode0D w
  | 0x0E => decode0E w
  | 0x0F => decode0F w
  | 0x10 => decode10 w
  | 0x11 => decode11 w
  | 0x12 => decode12 w
  | 0x13 => decode13 w
  | 0x14 => decode14 w
  | 0x15 => decode15 w
  | 0x16 => decode16 w
  | 0x17 => decode17 w
  | 0x18 => decode18 w
  | 0x1A => decode1A w
  | 0x1B => decode1B w
  | 0x1C => decode1C w
  | 0x1D => decode1D w
  | 0x1E => decode1E w
  | 0x1F => decode1F w
  | 0x20 => decode20 w
  | 0x21 => decode21 w
  | 0x22 => decode22 w
  | 0x23 => decode23 w
  | 0x24 => decode24 w
  | 0x25 => decode25 w
  | 0x26 => decode26 w
  | 0x27 => decode27 w
  | 0x28 => decode28 w
  | 0x29 => decode29 w
  | 0x2A => decode2A w
  | 0x2B => decode2B w
  | 0x2C => decode2C w
  | 0x2D => decode2D w
  | 0x2E => decode2E w
  | 0x2F => decode2F w
  | 0x30 => decode30 w
  | 0x31 => decode31 w
  | 0x32 => decode32 w
  | 0x33 => decode33 w
  | 0x34 => decode34 w
  | 0x38 => decode38 w
  | 0x39 => decode39 w
  | 0x3A => decode3A w
  | _ => .error .reservedMajor

/-- The instruction that a word's major and code name (R108), before the reserved values of R111 row 2 are tested.
(Lean's compiled code cannot build a constructor numbered above 244 that has fields, so this definition, which the kernel
evaluates, is marked noncomputable; `Machine.runWord` has a compiled form proved equal to it.) -/
noncomputable def decodeRow (w : Word) : Except Reject Instr :=
  match (fld w 24 6).toNat with
  | 0x3B => decode3B w
  | 0x3C => decode3C w
  | 0x3D => decode3D w
  | _ => decodeLow w

/-- Decoding of an instruction word: R111 rows 1 and 2. -/
noncomputable def decode (w : Word) : Except Reject Instr :=
  match decodeRow w with
  | .error e => .error e
  | .ok i => if i.wellFormed then .ok i else .error .reservedValue

/-- The 32-bit word at the front of a byte list, least significant byte first (R2), with the rest. -/
def wordOfBytes : List Byte → Option (Word × List Byte)
  | b0 :: b1 :: b2 :: b3 :: r => some (b3 ++ b2 ++ b1 ++ b0, r)
  | _ => none

/-- Decoding of a byte list: an instruction is one 32-bit word (R96). -/
noncomputable def decodeBytes (bs : List Byte) : Option (Except Reject Instr × List Byte) :=
  (wordOfBytes bs).map fun p => (decode p.1, p.2)

/-- The bytes of a word, the least significant at the lowest address (R2). -/
def bytesOfWord (w : Word) : List Byte := [fld w 0 8, fld w 8 8, fld w 16 8, fld w 24 8]

/-- The instruction the decoder reads from the low `nbits` bits of `w`, the bits above being zero. -/
noncomputable def decodeTableWord (nbits w : Nat) : Option Instr :=
  match decodeBytes (bytesOfWord (BitVec.ofNat 32 (w % 2 ^ nbits))) with
  | some (.ok i, _) => some i
  | _ => none

/-- The encoding of an instruction (R106 to R108): its word, or none for the rows that have no encoding. -/
def encodeWord (i : Instr) : Option Word :=
  match i with
  | .iadd o => some (o.st ++ 0#6 ++ o.vd ++ o.va ++ o.vb ++ o.pk ++ 0#3)
  | .isub o => some (o.st ++ 0#6 ++ o.vd ++ o.va ++ o.vb ++ o.pk ++ 1#3)
  | .imul o => some (o.st ++ 0#6 ++ o.vd ++ o.va ++ o.vb ++ o.pk ++ 2#3)
  | .imulh o => some (o.st ++ 0#6 ++ o.vd ++ o.va ++ o.vb ++ o.pk ++ 3#3)
  | .imulhu o => some (o.st ++ 0#6 ++ o.vd ++ o.va ++ o.vb ++ o.pk ++ 4#3)
  | .imin o => some (o.st ++ 0#6 ++ o.vd ++ o.va ++ o.vb ++ o.pk ++ 5#3)
  | .imax o => some (o.st ++ 0#6 ++ o.vd ++ o.va ++ o.vb ++ o.pk ++ 6#3)
  | .umin o => some (o.st ++ 0#6 ++ o.vd ++ o.va ++ o.vb ++ o.pk ++ 7#3)
  | .umax o => some (o.st ++ 1#6 ++ o.vd ++ o.va ++ o.vb ++ o.pk ++ 0#3)
  | .iabs o => some (o.st ++ 1#6 ++ o.vd ++ o.va ++ 0#6 ++ o.pk ++ 1#3)
  | .ineg o => some (o.st ++ 1#6 ++ o.vd ++ o.va ++ 0#6 ++ o.pk ++ 2#3)
  | .and o => some (o.st ++ 1#6 ++ o.vd ++ o.va ++ o.vb ++ o.pk ++ 3#3)
  | .or o => some (o.st ++ 1#6 ++ o.vd ++ o.va ++ o.vb ++ o.pk ++ 4#3)
  | .xor o => some (o.st ++ 1#6 ++ o.vd ++ o.va ++ o.vb ++ o.pk ++ 5#3)
  | .andn o => some (o.st ++ 1#6 ++ o.vd ++ o.va ++ o.vb ++ o.pk ++ 6#3)
  | .orn o => some (o.st ++ 1#6 ++ o.vd ++ o.va ++ o.vb ++ o.pk ++ 7#3)
  | .shl o => some (o.st ++ 2#6 ++ o.vd ++ o.va ++ o.vb ++ o.pk ++ 0#3)
  | .shr o => some (o.st ++ 2#6 ++ o.vd ++ o.va ++ o.vb ++ o.pk ++ 1#3)
  | .sar o => some (o.st ++ 2#6 ++ o.vd ++ o.va ++ o.vb ++ o.pk ++ 2#3)
  | .rol o => some (o.st ++ 2#6 ++ o.vd ++ o.va ++ o.vb ++ o.pk ++ 3#3)
  | .ror o => some (o.st ++ 2#6 ++ o.vd ++ o.va ++ o.vb ++ o.pk ++ 4#3)
  | .bfe o => some (o.st ++ 2#6 ++ o.vd ++ o.va ++ o.vb ++ o.pk ++ 5#3)
  | .bfi o => some (o.st ++ 2#6 ++ o.vd ++ o.va ++ o.vb ++ o.pk ++ 6#3)
  | .bfs o => some (o.st ++ 2#6 ++ o.vd ++ o.va ++ o.vb ++ o.pk ++ 7#3)
  | .popc o => some (o.st ++ 3#6 ++ o.vd ++ o.va ++ 0#6 ++ o.pk ++ 0#3)
  | .clz o => some (o.st ++ 3#6 ++ o.vd ++ o.va ++ 0#6 ++ o.pk ++ 1#3)
  | .ctz o => some (o.st ++ 3#6 ++ o.vd ++ o.va ++ 0#6 ++ o.pk ++ 2#3)
  | .brev o => some (o.st ++ 3#6 ++ o.vd ++ o.va ++ 0#6 ++ o.pk ++ 3#3)
  | .bswap o => some (o.st ++ 3#6 ++ o.vd ++ o.va ++ 0#6 ++ o.pk ++ 4#3)
  | .prmt o => some (o.st ++ 3#6 ++ o.vd ++ o.va ++ o.vb ++ o.pk ++ 5#3)
  | .iadd64 o => some (o.st ++ 3#6 ++ o.vd ++ o.va ++ o.vb ++ o.pk ++ 6#3)
  | .isub64 o => some (o.st ++ 3#6 ++ o.vd ++ o.va ++ o.vb ++ o.pk ++ 7#3)
  | .icmpEq o => some (o.st ++ 4#6 ++ o.vd ++ o.va ++ o.vb ++ o.pk ++ 0#3)
  | .icmpNe o => some (o.st ++ 4#6 ++ o.vd ++ o.va ++ o.vb ++ o.pk ++ 1#3)
  | .icmpLt o => some (o.st ++ 4#6 ++ o.vd ++ o.va ++ o.vb ++ o.pk ++ 2#3)
  | .icmpLe o => some (o.st ++ 4#6 ++ o.vd ++ o.va ++ o.vb ++ o.pk ++ 3#3)
  | .icmpUlt o => some (o.st ++ 4#6 ++ o.vd ++ o.va ++ o.vb ++ o.pk ++ 4#3)
  | .icmpUle o => some (o.st ++ 4#6 ++ o.vd ++ o.va ++ o.vb ++ o.pk ++ 5#3)
  | .icmpTst o => some (o.st ++ 4#6 ++ o.vd ++ o.va ++ o.vb ++ o.pk ++ 6#3)
  | .icmpNtst o => some (o.st ++ 4#6 ++ o.vd ++ o.va ++ o.vb ++ o.pk ++ 7#3)
  | .imad o => some (o.st ++ 5#6 ++ o.vd ++ o.va ++ o.vb ++ o.vc)
  | .sel o => some (o.st ++ 6#6 ++ o.vd ++ o.va ++ o.vb ++ o.pk ++ 0#3)
  | .shfl o => some (o.st ++ 6#6 ++ o.vd ++ o.va ++ o.vb ++ o.pk ++ 1#3)
  | .shflx o => some (o.st ++ 6#6 ++ o.vd ++ o.va ++ o.vb ++ o.pk ++ 2#3)
  | .shflup o => some (o.st ++ 6#6 ++ o.vd ++ o.va ++ o.vb ++ o.pk ++ 3#3)
  | .shfldn o => some (o.st ++ 6#6 ++ o.vd ++ o.va ++ o.vb ++ o.pk ++ 4#3)
  | .bcst o => some (o.st ++ 6#6 ++ o.vd ++ o.va ++ 0#6 ++ o.pk ++ 5#3)
  | .laneid o => some (o.st ++ 6#6 ++ o.vd ++ 0#12 ++ o.pk ++ 6#3)
  | .mov o => some (o.st ++ 7#6 ++ o.vd ++ o.va ++ 0#6 ++ o.pk ++ 0#3)
  | .movs o => some (o.st ++ 7#6 ++ o.vd ++ o.va ++ 0#6 ++ o.pk ++ 1#3)
  | .smov o => some (o.st ++ 7#6 ++ o.vd ++ o.va ++ 0#6 ++ o.pk ++ 2#3)
  | .vpcr o => some (o.st ++ 7#6 ++ o.vd ++ o.va ++ 0#6 ++ o.pk ++ 3#3)
  | .tagr o => some (o.st ++ 7#6 ++ o.vd ++ o.va ++ 0#6 ++ o.pk ++ 4#3)
  | .retag o => some (o.st ++ 7#6 ++ o.vd ++ o.va ++ 0#1 ++ o.tag ++ o.pk ++ 5#3)
  | .iaddi o => some (o.st ++ 8#6 ++ o.vd ++ o.va ++ o.imm)
  | .andi o => some (o.st ++ 9#6 ++ o.vd ++ o.va ++ o.imm)
  | .ori o => some (o.st ++ 10#6 ++ o.vd ++ o.va ++ o.imm)
  | .xori o => some (o.st ++ 11#6 ++ o.vd ++ o.va ++ o.imm)
  | .shli o => some (o.st ++ 12#6 ++ o.vd ++ o.va ++ 0#2 ++ 0#5 ++ o.amt)
  | .shri o => some (o.st ++ 12#6 ++ o.vd ++ o.va ++ 1#2 ++ 0#5 ++ o.amt)
  | .sari o => some (o.st ++ 12#6 ++ o.vd ++ o.va ++ 2#2 ++ 0#5 ++ o.amt)
  | .roli o => some (o.st ++ 12#6 ++ o.vd ++ o.va ++ 3#2 ++ 0#5 ++ o.amt)
  | .icmpiEq o => some (o.st ++ 13#6 ++ o.vd ++ o.va ++ 0#3 ++ o.imm)
  | .icmpiNe o => some (o.st ++ 13#6 ++ o.vd ++ o.va ++ 1#3 ++ o.imm)
  | .icmpiLt o => some (o.st ++ 13#6 ++ o.vd ++ o.va ++ 2#3 ++ o.imm)
  | .icmpiLe o => some (o.st ++ 13#6 ++ o.vd ++ o.va ++ 3#3 ++ o.imm)
  | .icmpiUlt o => some (o.st ++ 13#6 ++ o.vd ++ o.va ++ 4#3 ++ o.imm)
  | .icmpiUle o => some (o.st ++ 13#6 ++ o.vd ++ o.va ++ 5#3 ++ o.imm)
  | .icmpiTst o => some (o.st ++ 13#6 ++ o.vd ++ o.va ++ 6#3 ++ o.imm)
  | .icmpiNtst o => some (o.st ++ 13#6 ++ o.vd ++ o.va ++ 7#3 ++ o.imm)
  | .lui o => some (o.st ++ 14#6 ++ o.vd ++ o.imm)
  | .movi o => some (o.st ++ 15#6 ++ o.vd ++ o.imm)
  | .fadd o => some (o.st ++ 16#6 ++ o.vd ++ o.va ++ o.vb ++ o.pk ++ 0#3)
  | .fsub o => some (o.st ++ 16#6 ++ o.vd ++ o.va ++ o.vb ++ o.pk ++ 1#3)
  | .fmul o => some (o.st ++ 16#6 ++ o.vd ++ o.va ++ o.vb ++ o.pk ++ 2#3)
  | .fmin o => some (o.st ++ 16#6 ++ o.vd ++ o.va ++ o.vb ++ o.pk ++ 3#3)
  | .fmax o => some (o.st ++ 16#6 ++ o.vd ++ o.va ++ o.vb ++ o.pk ++ 4#3)
  | .fabs o => some (o.st ++ 16#6 ++ o.vd ++ o.va ++ 0#6 ++ o.pk ++ 5#3)
  | .fneg o => some (o.st ++ 16#6 ++ o.vd ++ o.va ++ 0#6 ++ o.pk ++ 6#3)
  | .fcps o => some (o.st ++ 16#6 ++ o.vd ++ o.va ++ o.vb ++ o.pk ++ 7#3)
  | .frcp o => some (o.st ++ 17#6 ++ o.vd ++ o.va ++ 0#6 ++ o.pk ++ 0#3)
  | .frsq o => some (o.st ++ 17#6 ++ o.vd ++ o.va ++ 0#6 ++ o.pk ++ 1#3)
  | .fsqrt o => some (o.st ++ 17#6 ++ o.vd ++ o.va ++ 0#6 ++ o.pk ++ 2#3)
  | .fexp2 o => some (o.st ++ 17#6 ++ o.vd ++ o.va ++ 0#6 ++ o.pk ++ 3#3)
  | .flog2 o => some (o.st ++ 17#6 ++ o.vd ++ o.va ++ 0#6 ++ o.pk ++ 4#3)
  | .fsin o => some (o.st ++ 17#6 ++ o.vd ++ o.va ++ 0#6 ++ o.pk ++ 5#3)
  | .fcos o => some (o.st ++ 17#6 ++ o.vd ++ o.va ++ 0#6 ++ o.pk ++ 6#3)
  | .ftanh o => some (o.st ++ 17#6 ++ o.vd ++ o.va ++ 0#6 ++ o.pk ++ 7#3)
  | .fcmpEq o => some (o.st ++ 18#6 ++ o.vd ++ o.va ++ o.vb ++ o.pk ++ 0#3)
  | .fcmpNe o => some (o.st ++ 18#6 ++ o.vd ++ o.va ++ o.vb ++ o.pk ++ 1#3)
  | .fcmpLt o => some (o.st ++ 18#6 ++ o.vd ++ o.va ++ o.vb ++ o.pk ++ 2#3)
  | .fcmpLe o => some (o.st ++ 18#6 ++ o.vd ++ o.va ++ o.vb ++ o.pk ++ 3#3)
  | .fcmpUn o => some (o.st ++ 18#6 ++ o.vd ++ o.va ++ o.vb ++ o.pk ++ 4#3)
  | .fcmpOrd o => some (o.st ++ 18#6 ++ o.vd ++ o.va ++ o.vb ++ o.pk ++ 5#3)
  | .fcmpCls o => some (o.st ++ 18#6 ++ o.vd ++ o.va ++ 0#6 ++ o.pk ++ 6#3)
  | .ffma o => some (o.st ++ 19#6 ++ o.vd ++ o.va ++ o.vb ++ o.vc)
  | .ffms o => some (o.st ++ 20#6 ++ o.vd ++ o.va ++ o.vb ++ o.vc)
  | .fdot o => some (o.st ++ 21#6 ++ o.vd ++ o.va ++ o.vb ++ o.vc)
  | .cvt o => some (o.st ++ 22#6 ++ o.vd ++ o.va ++ 0#1 ++ o.tag ++ o.pk ++ o.rm)
  | .pack2 o => some (o.st ++ 23#6 ++ o.vd ++ o.va ++ o.vb ++ o.pk ++ 0#3)
  | .pack4 o => some (o.st ++ 23#6 ++ o.vd ++ o.va ++ o.vb ++ o.pk ++ 1#3)
  | .unpkl o => some (o.st ++ 23#6 ++ o.vd ++ o.va ++ 0#6 ++ o.pk ++ 2#3)
  | .unpkh o => some (o.st ++ 23#6 ++ o.vd ++ o.va ++ 0#6 ++ o.pk ++ 3#3)
  | .packn o => some (o.st ++ 23#6 ++ o.vd ++ o.va ++ o.vb ++ o.pk ++ 4#3)
  | .unpkn o => some (o.st ++ 23#6 ++ o.vd ++ o.va ++ o.vb ++ o.pk ++ 5#3)
  | .pk6 o => some (o.st ++ 23#6 ++ o.vd ++ o.va ++ 0#6 ++ o.pk ++ 6#3)
  | .upk6 o => some (o.st ++ 23#6 ++ o.vd ++ o.va ++ 0#1 ++ o.tag ++ o.pk ++ 7#3)
  | .mxq o => some (o.st ++ 24#6 ++ o.vd ++ o.va ++ 0#1 ++ o.tag ++ o.pk ++ 0#3)
  | .mxdq o => some (o.st ++ 24#6 ++ o.vd ++ o.va ++ 0#6 ++ o.pk ++ 1#3)
  | .mxsc o => some (o.st ++ 24#6 ++ o.vd ++ o.va ++ 0#1 ++ o.tag ++ o.pk ++ 2#3)
  | .kand o => some (o.st ++ 26#6 ++ o.vd ++ o.va ++ o.vb ++ o.pk ++ 0#3)
  | .kor o => some (o.st ++ 26#6 ++ o.vd ++ o.va ++ o.vb ++ o.pk ++ 1#3)
  | .kxor o => some (o.st ++ 26#6 ++ o.vd ++ o.va ++ o.vb ++ o.pk ++ 2#3)
  | .kandn o => some (o.st ++ 26#6 ++ o.vd ++ o.va ++ o.vb ++ o.pk ++ 3#3)
  | .knot o => some (o.st ++ 26#6 ++ o.vd ++ o.va ++ 0#6 ++ o.pk ++ 4#3)
  | .kmov o => some (o.st ++ 26#6 ++ o.vd ++ o.va ++ 0#6 ++ o.pk ++ 5#3)
  | .kpop o => some (o.st ++ 26#6 ++ o.vd ++ o.va ++ 0#6 ++ o.pk ++ 6#3)
  | .kffs o => some (o.st ++ 26#6 ++ o.vd ++ o.va ++ 0#6 ++ o.pk ++ 7#3)
  | .bal o => some (o.st ++ 27#6 ++ o.vd ++ o.va ++ 0#6 ++ o.pk ++ 0#3)
  | .ktov o => some (o.st ++ 27#6 ++ o.vd ++ o.va ++ o.vb ++ o.pk ++ 1#3)
  | .kfroms o => some (o.st ++ 27#6 ++ o.vd ++ o.va ++ 0#6 ++ o.pk ++ 2#3)
  | .ktos o => some (o.st ++ 27#6 ++ o.vd ++ o.va ++ 0#6 ++ o.pk ++ 3#3)
  | .sadd o => some (o.st ++ 28#6 ++ o.vd ++ o.va ++ o.vb ++ 0#3 ++ 0#3)
  | .ssub o => some (o.st ++ 28#6 ++ o.vd ++ o.va ++ o.vb ++ 0#3 ++ 1#3)
  | .smul o => some (o.st ++ 28#6 ++ o.vd ++ o.va ++ o.vb ++ 0#3 ++ 2#3)
  | .sand o => some (o.st ++ 28#6 ++ o.vd ++ o.va ++ o.vb ++ 0#3 ++ 3#3)
  | .sor o => some (o.st ++ 28#6 ++ o.vd ++ o.va ++ o.vb ++ 0#3 ++ 4#3)
  | .sxor o => some (o.st ++ 28#6 ++ o.vd ++ o.va ++ o.vb ++ 0#3 ++ 5#3)
  | .sshl o => some (o.st ++ 28#6 ++ o.vd ++ o.va ++ o.vb ++ 0#3 ++ 6#3)
  | .sshr o => some (o.st ++ 28#6 ++ o.vd ++ o.va ++ o.vb ++ 0#3 ++ 7#3)
  | .saddi o => some (o.st ++ 29#6 ++ o.vd ++ o.va ++ o.imm)
  | .smovi o => some (o.st ++ 30#6 ++ 0#1 ++ o.sd ++ o.imm)
  | .slui o => some (o.st ++ 30#6 ++ 1#1 ++ o.sd ++ o.imm)
  | .scmpEq o => some (o.st ++ 31#6 ++ o.vd ++ o.va ++ o.vb ++ 0#3 ++ 0#3)
  | .scmpNe o => some (o.st ++ 31#6 ++ o.vd ++ o.va ++ o.vb ++ 0#3 ++ 1#3)
  | .scmpLt o => some (o.st ++ 31#6 ++ o.vd ++ o.va ++ o.vb ++ 0#3 ++ 2#3)
  | .scmpLe o => some (o.st ++ 31#6 ++ o.vd ++ o.va ++ o.vb ++ 0#3 ++ 3#3)
  | .scmpUlt o => some (o.st ++ 31#6 ++ o.vd ++ o.va ++ o.vb ++ 0#3 ++ 4#3)
  | .scmpUle o => some (o.st ++ 31#6 ++ o.vd ++ o.va ++ o.vb ++ 0#3 ++ 5#3)
  | .scmpTst o => some (o.st ++ 31#6 ++ o.vd ++ o.va ++ o.vb ++ 0#3 ++ 6#3)
  | .scmpNtst o => some (o.st ++ 31#6 ++ o.vd ++ o.va ++ o.vb ++ 0#3 ++ 7#3)
  | .ld o => some (o.st ++ 32#6 ++ o.vd ++ o.va ++ o.sp ++ o.wf ++ o.off)
  | .st o => some (o.st ++ 33#6 ++ o.vd ++ o.va ++ o.sp ++ o.wf ++ o.off)
  | .mxld o => some (o.st ++ 34#6 ++ o.vd ++ o.va ++ o.sp ++ o.wf ++ o.off)
  | .mxst o => some (o.st ++ 35#6 ++ o.vd ++ o.va ++ o.sp ++ o.wf ++ o.off)
  | .atomAdd o => some (o.st ++ 36#6 ++ o.vd ++ o.va ++ o.vb ++ o.sc ++ 0#4)
  | .atomSub o => some (o.st ++ 36#6 ++ o.vd ++ o.va ++ o.vb ++ o.sc ++ 1#4)
  | .atomMin o => some (o.st ++ 36#6 ++ o.vd ++ o.va ++ o.vb ++ o.sc ++ 2#4)
  | .atomMax o => some (o.st ++ 36#6 ++ o.vd ++ o.va ++ o.vb ++ o.sc ++ 3#4)
  | .atomUmin o => some (o.st ++ 36#6 ++ o.vd ++ o.va ++ o.vb ++ o.sc ++ 4#4)
  | .atomUmax o => some (o.st ++ 36#6 ++ o.vd ++ o.va ++ o.vb ++ o.sc ++ 5#4)
  | .atomAnd o => some (o.st ++ 36#6 ++ o.vd ++ o.va ++ o.vb ++ o.sc ++ 6#4)
  | .atomOr o => some (o.st ++ 36#6 ++ o.vd ++ o.va ++ o.vb ++ o.sc ++ 7#4)
  | .atomXor o => some (o.st ++ 36#6 ++ o.vd ++ o.va ++ o.vb ++ o.sc ++ 8#4)
  | .atomXchg o => some (o.st ++ 36#6 ++ o.vd ++ o.va ++ o.vb ++ o.sc ++ 9#4)
  | .atomCas o => some (o.st ++ 36#6 ++ o.vd ++ o.va ++ o.vb ++ o.sc ++ 10#4)
  | .atomIncw o => some (o.st ++ 36#6 ++ o.vd ++ o.va ++ o.vb ++ o.sc ++ 11#4)
  | .atomDecw o => some (o.st ++ 36#6 ++ o.vd ++ o.va ++ o.vb ++ o.sc ++ 12#4)
  | .atomFadd o => some (o.st ++ 36#6 ++ o.vd ++ o.va ++ o.vb ++ o.sc ++ 13#4)
  | .atomAld o => some (o.st ++ 36#6 ++ o.vd ++ o.va ++ 0#6 ++ o.sc ++ 14#4)
  | .atomAst o => some (o.st ++ 36#6 ++ 0#6 ++ o.va ++ o.vb ++ o.sc ++ 15#4)
  | .atom64Add o => some (o.st ++ 37#6 ++ o.vd ++ o.va ++ o.vb ++ o.sc ++ 0#4)
  | .atom64Sub o => some (o.st ++ 37#6 ++ o.vd ++ o.va ++ o.vb ++ o.sc ++ 1#4)
  | .atom64Min o => some (o.st ++ 37#6 ++ o.vd ++ o.va ++ o.vb ++ o.sc ++ 2#4)
  | .atom64Max o => some (o.st ++ 37#6 ++ o.vd ++ o.va ++ o.vb ++ o.sc ++ 3#4)
  | .atom64Umin o => some (o.st ++ 37#6 ++ o.vd ++ o.va ++ o.vb ++ o.sc ++ 4#4)
  | .atom64Umax o => some (o.st ++ 37#6 ++ o.vd ++ o.va ++ o.vb ++ o.sc ++ 5#4)
  | .atom64And o => some (o.st ++ 37#6 ++ o.vd ++ o.va ++ o.vb ++ o.sc ++ 6#4)
  | .atom64Or o => some (o.st ++ 37#6 ++ o.vd ++ o.va ++ o.vb ++ o.sc ++ 7#4)
  | .atom64Xor o => some (o.st ++ 37#6 ++ o.vd ++ o.va ++ o.vb ++ o.sc ++ 8#4)
  | .atom64Xchg o => some (o.st ++ 37#6 ++ o.vd ++ o.va ++ o.vb ++ o.sc ++ 9#4)
  | .atom64Cas o => some (o.st ++ 37#6 ++ o.vd ++ o.va ++ o.vb ++ o.sc ++ 10#4)
  | .atom64Incw o => some (o.st ++ 37#6 ++ o.vd ++ o.va ++ o.vb ++ o.sc ++ 11#4)
  | .atom64Decw o => some (o.st ++ 37#6 ++ o.vd ++ o.va ++ o.vb ++ o.sc ++ 12#4)
  | .atom64Fadd o => some (o.st ++ 37#6 ++ o.vd ++ o.va ++ o.vb ++ o.sc ++ 13#4)
  | .atom64Ald o => some (o.st ++ 37#6 ++ o.vd ++ o.va ++ 0#6 ++ o.sc ++ 14#4)
  | .atom64Ast o => some (o.st ++ 37#6 ++ 0#6 ++ o.va ++ o.vb ++ o.sc ++ 15#4)
  | .fenceOrd o => some (o.st ++ 38#6 ++ o.pre ++ o.suc ++ o.sc ++ 0#5 ++ 0#3 ++ 0#6)
  | .fenceRel o => some (o.st ++ 38#6 ++ o.pre ++ o.suc ++ o.sc ++ o.obj ++ 5#3 ++ 0#6)
  | .fenceAcq o => some (o.st ++ 38#6 ++ o.pre ++ o.suc ++ o.sc ++ o.obj ++ 6#3 ++ 0#6)
  | .fenceBoth o => some (o.st ++ 38#6 ++ o.pre ++ o.suc ++ o.sc ++ o.obj ++ 7#3 ++ 0#6)
  | .fenceFull o => some (o.st ++ 38#6 ++ o.pre ++ o.suc ++ o.sc ++ 0#5 ++ 3#3 ++ 0#6)
  | .bind o => some (o.st ++ 39#6 ++ o.a ++ o.b ++ o.c ++ o.d ++ 0#4)
  | .unbind o => some (o.st ++ 39#6 ++ o.a ++ o.b ++ 0#5 ++ o.d ++ 1#4)
  | .lkr o => some (o.st ++ 40#6 ++ o.vd ++ o.va ++ o.vb ++ o.sc ++ 0#4)
  | .lkw o => some (o.st ++ 40#6 ++ o.vd ++ o.va ++ o.vb ++ o.sc ++ 1#4)
  | .ulr o => some (o.st ++ 40#6 ++ o.vd ++ o.va ++ 0#6 ++ o.sc ++ 2#4)
  | .ulw o => some (o.st ++ 40#6 ++ o.vd ++ o.va ++ 0#6 ++ o.sc ++ 3#4)
  | .lkinit o => some (o.st ++ 40#6 ++ 0#6 ++ o.va ++ o.vb ++ o.sc ++ 4#4)
  | .sld o => some (o.st ++ 41#6 ++ o.a ++ o.b ++ o.c ++ o.d ++ 0#4)
  | .slwait o => some (o.st ++ 41#6 ++ o.a ++ o.b ++ o.c ++ o.d ++ 1#4)
  | .slack o => some (o.st ++ 41#6 ++ o.a ++ o.b ++ 0#10 ++ 2#4)
  | .usub o => some (o.st ++ 41#6 ++ o.a ++ 0#10 ++ o.d ++ 3#4)
  | .cpy o => some (o.st ++ 42#6 ++ o.a ++ o.b ++ o.c ++ o.d ++ 0#4)
  | .cpy2d o => some (o.st ++ 42#6 ++ o.a ++ 0#10 ++ o.d ++ 1#4)
  | .gth o => some (o.st ++ 42#6 ++ o.a ++ o.b ++ o.c ++ o.d ++ 2#4)
  | .sct o => some (o.st ++ 42#6 ++ o.a ++ o.b ++ o.c ++ o.d ++ 3#4)
  | .cpyt o => some (o.st ++ 42#6 ++ o.a ++ o.b ++ o.c ++ o.d ++ 4#4)
  | .kvl o => some (o.st ++ 42#6 ++ o.a ++ 0#10 ++ o.d ++ 5#4)
  | .coll o => some (o.st ++ 42#6 ++ o.a ++ 0#10 ++ o.d ++ 6#4)
  | .wtany o => some (o.st ++ 43#6 ++ o.a ++ o.b ++ o.c ++ o.d ++ 0#4)
  | .wtall o => some (o.st ++ 43#6 ++ o.a ++ o.b ++ o.c ++ o.d ++ 1#4)
  | .ffrdy o => some (o.st ++ 43#6 ++ o.a ++ o.b ++ o.c ++ o.d ++ 2#4)
  | .tagclr o => some (o.st ++ 43#6 ++ o.a ++ o.b ++ o.c ++ o.d ++ 3#4)
  | .tagrd o => some (o.st ++ 43#6 ++ o.a ++ o.b ++ o.c ++ o.d ++ 4#4)
  | .tbinit o => some (o.st ++ 44#6 ++ o.a ++ o.b ++ 0#4 ++ o.r ++ 0#5 ++ 0#4)
  | .tbarv o => some (o.st ++ 44#6 ++ o.a ++ o.b ++ 0#4 ++ o.w ++ 0#5 ++ 1#4)
  | .tbexp o => some (o.st ++ 44#6 ++ o.a ++ o.b ++ 0#4 ++ o.w ++ 0#5 ++ 2#4)
  | .tbwait o => some (o.st ++ 44#6 ++ o.a ++ o.b ++ 0#10 ++ 3#4)
  | .tbtry o => some (o.st ++ 44#6 ++ o.a ++ o.b ++ o.c ++ o.d ++ 4#4)
  | .tbrd o => some (o.st ++ 44#6 ++ o.a ++ 0#9 ++ o.h ++ o.d ++ 5#4)
  | .bar o => some (o.st ++ 45#6 ++ 0#10 ++ o.c ++ 0#5 ++ 0#4)
  | .cbar o => some (o.st ++ 45#6 ++ 0#20 ++ 1#4)
  | .bararv o => some (o.st ++ 45#6 ++ 0#5 ++ 0#5 ++ o.c ++ 0#5 ++ 2#4)
  | .bararvC o => some (o.st ++ 45#6 ++ 0#5 ++ 1#5 ++ 0#5 ++ 0#5 ++ 2#4)
  | .tryw o => some (o.st ++ 45#6 ++ o.a ++ o.b ++ o.c ++ o.d ++ 3#4)
  | .join o => some (o.st ++ 45#6 ++ o.a ++ 0#15 ++ 4#4)
  | .leave o => some (o.st ++ 45#6 ++ o.a ++ 0#15 ++ 5#4)
  | .waitk o => some (o.st ++ 45#6 ++ o.a ++ 0#15 ++ 6#4)
  | .aprun o => some (o.st ++ 46#6 ++ o.a ++ o.b ++ 0#5 ++ o.d ++ 0#4)
  | .aqe o => some (o.st ++ 46#6 ++ o.a ++ o.b ++ 0#10 ++ 1#4)
  | .aqend o => some (o.st ++ 46#6 ++ 0#20 ++ 2#4)
  | .apstop o => some (o.st ++ 46#6 ++ o.a ++ 0#15 ++ 3#4)
  | .aqpop o => some (o.st ++ 47#6 ++ o.vd ++ 0#8 ++ o.wf ++ 0#4 ++ o.queue)
  | .mma o => some (o.st ++ 48#6 ++ o.zd ++ o.gn ++ o.va ++ o.r ++ o.sb ++ o.bfmt)
  | .mmac o => some (o.st ++ 49#6 ++ o.zd ++ o.gn ++ o.va ++ o.r ++ o.sb ++ o.bfmt)
  | .mtile o => some (o.st ++ 50#6 ++ o.a ++ 0#10 ++ o.d ++ 0#4)
  | .mtilex o => some (o.st ++ 50#6 ++ o.a ++ 0#10 ++ o.d ++ 1#4)
  | .mzclr o => some (o.st ++ 50#6 ++ o.a ++ 0#10 ++ o.d ++ 2#4)
  | .mzld o => some (o.st ++ 50#6 ++ o.a ++ 0#10 ++ o.d ++ 3#4)
  | .mzst o => some (o.st ++ 50#6 ++ o.a ++ 0#10 ++ o.d ++ 4#4)
  | .mzscl o => some (o.st ++ 50#6 ++ o.a ++ 0#10 ++ o.d ++ 5#4)
  | .att o => some (o.st ++ 51#6 ++ o.a ++ 0#10 ++ o.d ++ 0#4)
  | .attfin o => some (o.st ++ 51#6 ++ o.a ++ 0#10 ++ o.d ++ 1#4)
  | .sigf o => some (o.st ++ 51#6 ++ o.a ++ o.b ++ o.c ++ o.d ++ 2#4)
  | .sigmk o => some (o.st ++ 51#6 ++ o.a ++ o.b ++ 0#5 ++ o.d ++ 3#4)
  | .cvset o => some (o.st ++ 52#6 ++ o.a ++ o.b ++ 0#10 ++ 0#4)
  | .cvclr o => some (o.st ++ 52#6 ++ o.a ++ 0#15 ++ 1#4)
  | .bra o => some (o.st ++ 56#6 ++ o.u ++ o.k ++ o.neg ++ o.off)
  | .call o => some (o.st ++ 57#6 ++ o.u ++ o.k ++ o.neg ++ o.off)
  | .brx o => some (o.st ++ 58#6 ++ 0#6 ++ o.va ++ 0#6 ++ o.pk ++ 0#3)
  | .callx o => some (o.st ++ 58#6 ++ 0#6 ++ o.va ++ 0#6 ++ o.pk ++ 1#3)
  | .ret o => some (o.st ++ 58#6 ++ 0#18 ++ o.pk ++ 2#3)
  | .exit o => some (o.st ++ 59#6 ++ 0#20 ++ 0#4)
  | .yield o => some (o.st ++ 59#6 ++ 0#20 ++ 1#4)
  | .brk o => some (o.st ++ 59#6 ++ 0#5 ++ o.b ++ o.c ++ 0#5 ++ 2#4)
  | .trap o => some (o.st ++ 59#6 ++ 0#5 ++ o.b ++ o.c ++ 0#5 ++ 3#4)
  | .nop o => some (o.st ++ 59#6 ++ 0#20 ++ 4#4)
  | .rref o => some (o.st ++ 59#6 ++ o.a ++ 0#15 ++ 5#4)
  | .bget o => some (o.st ++ 59#6 ++ o.a ++ 0#5 ++ o.c ++ 0#5 ++ 6#4)
  | .enqr o => some (o.st ++ 59#6 ++ o.a ++ o.b ++ o.c ++ o.d ++ 7#4)
  | .tretRetry o => some (o.st ++ 59#6 ++ 0#5 ++ 0#15 ++ 8#4)
  | .tretCont o => some (o.st ++ 59#6 ++ 1#5 ++ 0#15 ++ 8#4)
  | .tretResume o => some (o.st ++ 59#6 ++ 2#5 ++ 0#15 ++ 8#4)
  | .csrr o => some (o.st ++ 60#6 ++ o.a ++ o.b ++ o.c ++ 0#5 ++ 0#4)
  | .csrw o => some (o.st ++ 60#6 ++ o.a ++ o.b ++ o.c ++ 0#5 ++ 1#4)
  | .csrs o => some (o.st ++ 60#6 ++ o.a ++ o.b ++ o.c ++ 0#5 ++ 2#4)
  | .csrc o => some (o.st ++ 60#6 ++ o.a ++ o.b ++ o.c ++ 0#5 ++ 3#4)
  | .rcas o => some (o.st ++ 61#6 ++ o.a ++ o.b ++ o.c ++ 0#5 ++ 0#4)
  | .rsnap o => some (o.st ++ 61#6 ++ o.a ++ o.b ++ o.c ++ 0#5 ++ 1#4)
  | .ndrop o => some (o.st ++ 61#6 ++ 0#5 ++ o.b ++ 0#5 ++ o.d ++ 2#4)
  | .rpinq o => some (o.st ++ 61#6 ++ o.a ++ o.b ++ 0#10 ++ 3#4)
  | .smove o => some (o.st ++ 61#6 ++ o.a ++ o.b ++ o.c ++ 0#5 ++ 4#4)
  | .rfree o => some (o.st ++ 61#6 ++ o.a ++ o.b ++ 0#10 ++ 5#4)
  | .entryFetch => none
  | .writeIndexPush => none
  | .entryNop => none
  | .entryLaunch => none
  | .entryNode => none
  | .entryFetchfence => none
  | .entrySignal => none
  | .signalStore => none
  | .entryWaitv => none
  | .waitvPush => none
  | .splitHalfRequest => none
  | .splitHalfFinish => none
  | .queueMap => none
  | .queueUnmap => none
  | .queueFaultClear => none
  | .fecfgWrite => none
  | .fepcmdGrant => none
  | .fepcmdDemote => none
  | .fepcmdAbort => none
  | .blockPlacement => none
  | .preemptDecision => none
  | .saveImageDone => none
  | .blockRestore => none
  | .blockEnd => none
  | .entryFinish => none
  | .completionWrite => none
  | .deadlineInheritUpdate => none
  | .budgetReport => none
  | .enqrNodeAnswer => none
  | .enqrAccept => none
  | .nodeBlockLaunch => none
  | .nodeTimeout => none
  | .nodeMarginReached => none
  | .fairnessSweep => none
  | .fairnessTurnEnd => none
  | .variableLatencyComplete => none
  | .fixedLatencyWrite => none
  | .storePerform => none
  | .readPerform => none
  | .atomicPerform => none
  | .sectorPerform => none
  | .lineDrop => none
  | .pushDelivery => none
  | .copyFault => none
  | .addressProgramStep => none
  | .lockHintExpiry => none
  | .trywHintExpiry => none
  | .tbtryHintExpiry => none
  | .slwaitHintExpiry => none
  | .sldHomeRequest => none
  | .creditReturn => none
  | .usubHome => none
  | .subscriptionPoison => none
  | .operandsConsumed => none
  | .matrixOpComplete => none
  | .systemTrapRecord => none
  | .trapResolution => none
  | .contextDiscard => none
  | .deviceFatal => none
  | .pinCurrent => none
  | .pin => none
  | .unpin => none
  | .noticeRingPost => none
  | .translationWalk => none
  | .ndropComplete => none
  | .registerWrite => none
  | .hostBar2Request => none
  | .atsInvalidation => none
  | .spdmRequest => none
  | .keyload => none
  | .peerRequest => none
  | .leaseRevoke => none
  | .leaseGraceEnd => none
  | .leaseTableWrite => none
  | .leaseRelease => none
  | .lenderGraceEnd => none
  | .portLinkLoss => none
  | .collComplete => none
  | .coldReset => none
  | .warmReset => none
  | .mbResync => none
  | .mbBbread => none
  | .mbErrlog => none
  | .mbWarmreset => none
  | .firmwareReplacement => none
  | .quireQuarantine => none
  | .quireSpareTakeover => none
  | .hardwareError => none
  | .thermalHold => none
  | .thermalRelease => none
  | .thermalCritical => none
  | .nvmePortDmaWrite => none

/-- The words of an instruction, in address order: one for an encoded row, none for a row without an encoding. -/
def encode (i : Instr) : List Word := (encodeWord i).toList

end Sys2Proof
end

