-- ==== Sys2Proof/Machine/State.lean ====
section
/-! DEFINITION. The state of the machine: everything the spec gives the device, as plain data. -/

namespace Sys2Proof.Machine

/-! ### Stops -/

/-- The named stops of the model. None of them is a cause of R337: every cause the spec describes is taken, as a next state. -/
inductive Fault where
  /-- Raised by the meaning of an encoded word when no fragment or address program is its issuer: words issue only for an
  issuer (R60, R213). Safe: no step of the machine does this. -/
  | noIssuer
  deriving DecidableEq, Repr

/-- A word without a meaning. -/
inductive Refusal where
  /-- Raised by the dispatch for an instruction whose meaning is not written; safe. -/
  | notModelled (mnemonic : String)
  deriving DecidableEq, Repr

/-! ### Memory -/

/-- A memory: cells by rising address, none holding the zero that an unlisted byte reads as (log 10). -/
abbrev Memory := List Host.Cell

/-- A place in storage: local memory of a block, tun of a die, local HBM, and the lender's and the host's memory that TIER 1
and TIER 2 leaves reach (R95, R186, R232). -/
inductive Loc where
  | loc (b : Nat) (off : Nat)
  | tun (d : Die) (off : Nat)
  | hbm (pa : Nat)
  | lender (lease : Nat) (pa : Nat)
  /-- A place of the host as a PASID names it, or as requests without one do (R95). -/
  | host (pasid : Option (BitVec 20)) (pa : Nat)
  deriving DecidableEq, Repr

/-! ### Lanes and gangs -/

/-- A lane's 32 values of one register. -/
abbrev Lanes := Vector Word 32

/-- A lane's 32 tags of one register (R109). -/
abbrev Tags := Vector (BitVec 5) 32

/-- How a lane reached a header (R99). -/
inductive Reach where
  /-- By falling through the end of a clause. -/
  | fell
  /-- As a target, ENTRY, HANDLER or a resumption. -/
  | transferred
  deriving DecidableEq, Repr

/-- Where a lane stands (R59): at a header it has still to fetch, or in a clause whose header it has read, with the number of
variable-latency words met (R100). -/
inductive LanePos where
  | header (how : Reach)
  | clause (hpc : Va) (hdr : Word) (nvl : Nat)
  deriving DecidableEq, Repr

/-- The object of a TRYW (R277); a lock word with the address that names it. -/
inductive TryObj where
  | dcount (n : Nat)
  | lock (a : Loc) (write : Bool) (ua : DWord)
  | gill (off : Nat) (seq : Word)
  deriving DecidableEq, Repr

/-- What a suspended lane waits for: the wake conditions of R69 and the other suspensions of R59. -/
inductive Wait where
  | none
  /-- BAR n: the phase it waits to end. -/
  | bar (n : Nat) (phase : BitVec 4)
  /-- CBAR: the phase it waits to end. -/
  | cbar (phase : BitVec 4)
  /-- WAITK Kn at an address. -/
  | waitk (k : Nat) (at_ : Va)
  /-- TBWAIT and TBTRY: the barrier's local offset and the awaited phase; for TBTRY its Kd. -/
  | tb (off : Nat) (phase : BitVec 4) (kd : Option Nat)
  /-- TRYW: the object and its Kd. -/
  | tryw (o : TryObj) (kd : Nat)
  /-- LKR and LKW: the lock word, the mode and Kd. -/
  | lock (a : Loc) (write : Bool) (kd : Nat)
  /-- SLWAIT: the watch offset, whether it is a ring control, the value and Kd. -/
  | slwait (off : Nat) (ring : Bool) (v : Word) (kd : Nat)
  /-- WTANY, WTALL: the tag mask, and whether all are awaited. -/
  | tags (mask : DWord) (all : Bool)
  /-- AQPOP on an empty queue; the pending word's number. -/
  | aqpop (q : Nat) (id : Nat)
  /-- A header's WAIT field over outstanding quire-window or tun loads: the field (R69, R101). -/
  | header (f : BitVec 7)
  /-- A system trap: the number of the gang's record. -/
  | sysTrap (n : Nat)
  /-- A user trap that waits for the handler (R338). -/
  | userTrap (n : Nat)
  /-- An exhausted budget class (R44). -/
  | budget (cls : Nat)
  /-- A repeated signature of a matrix operation not yet issued (R310). -/
  | signed (g : Nat)
  deriving DecidableEq, Repr

/-- The region a lane is in and the state to restore at its re-execution (R136, R174, R332). -/
structure Region where
  /-- The entry: the RE header, ENTRY or HANDLER. -/
  pc : Va
  /-- REC at that entry. -/
  recN : Word
  dep : Nat
  stack : List DWord
  /-- The copy of the stochastic state X. -/
  x : Word
  /-- Its first word has not been taken up: a fault struck the fetch of its header (R334). -/
  fresh : Bool
  deriving DecidableEq, Repr

/-- One lane's own state. -/
structure Lane where
  pc : Va
  pos : LanePos
  wait : Wait
  /-- The remaining hint of the wait, in cycles, if it has one (R69). -/
  hint : Option Nat
  /-- Depth of the call stack (R172). -/
  dep : Nat
  /-- The newest entries of the call stack, at most four, newest first. -/
  stack : List DWord
  region : Region
  /-- The lane has entered the region of the RE clause it stands in. -/
  entered : Bool
  /-- WAITK releases since the region was entered (R176). -/
  relCount : Nat
  /-- WAITKs met in this pass through the region (R176). -/
  relSeen : Nat
  /-- The address that last split the lane's fragment; 0 if none (R336). -/
  tpar : DWord
  /-- The next entry of the region re-executes it (R332). -/
  replay : Bool
  /-- The region's side-effecting last word has issued (R333). -/
  complete : Bool
  /-- A breakpoint is passed once (R342). -/
  bpPass : Bool
  /-- The word at which the lane last trapped is a variable-latency word: CONT passes it (R100, R335). -/
  vlHere : Bool
  deriving DecidableEq, Repr

/-- A register named for the scoreboard (R103, R104). -/
inductive RegRef where
  | v (n : Nat)
  | s (n : Nat)
  | k (n : Nat)
  deriving DecidableEq, Repr

/-- The value a fixed-latency write replaced, for a word that reads too early (R104). -/
inductive OldReg where
  | v (n : Nat) (vals : Lanes) (tags : Tags)
  | s (n : Nat) (w : Word)
  | k (n : Nat) (w : Word)
  deriving DecidableEq, Repr

/-- A fixed-latency result whose latency has not passed (R103). -/
structure Flight where
  old : OldReg
  producer : Va
  /-- The issue clock at the producer. -/
  clock : Nat
  lat : Nat
  /-- Its latency has passed in time, though no issue of the gang counted it (R103). -/
  landed : Bool
  /-- The lanes written. -/
  m : Word
  deriving DecidableEq, Repr

/-- The kinds of a pending variable-latency word (R100). -/
inductive PendKind where
  | load | store | mxload | mxstore | atomic | transc | tbrd | aqpop | lockop
  deriving DecidableEq, Repr

/-- One lane's access of a pending word. -/
structure LaneAcc where
  lane : Nat
  loc : Loc
  /-- Its unified address (R193); an SP offset has none and stands here as it is. -/
  ua : DWord
  /-- Bytes of the access; an MX unit's scale byte is the last (R129). -/
  size : Nat
  /-- Of a load, the bytes already there: those that a write in the gang's own store buffer supplied (R234), and those read one by
  one. Of a store, the bytes that are no longer to be written: written one by one, or another lane's to write (R192). -/
  fwd : List (Option Byte)
  /-- Bytes to store, or the operand of an atomic; for a lock operation, its hint. -/
  data : List Byte
  /-- Second operand of a compare-and-swap; of an MX access, the mask of the lanes that share the unit; of a lock operation, one byte
  once it waits at its site (R270). -/
  data2 : List Byte
  /-- Bytes returned. -/
  ret : List Byte
  performed : Bool
  /-- Its site has refused it (R376, R382): it is performed nowhere until the record that tells of it is resolved (log 145). -/
  refused : Bool := false
  deriving DecidableEq, Repr

/-- A variable-latency word that has issued and is not complete: the store buffers, pending reads and pending atomics of R231
and R234. -/
structure Pend where
  id : Nat
  kind : PendKind
  /-- Position in the gang's issue order (R240). -/
  seq : Nat
  pc : Va
  /-- Its clause's header address and header, and the variable-latency words met before it there. -/
  hpc : Va
  hdr : Word
  nvl : Nat
  /-- Member code: the width and format code, or the atomic's op. -/
  code : Nat
  /-- Destination registers, with the tags they take. -/
  dst : List (Nat × Tags)
  mask : Word
  accs : List LaneAcc
  /-- Results of words that read no storage, per destination. -/
  vals : List Lanes
  /-- Dependency counter, if the header names one (R100). -/
  dc : Option Nat
  /-- The lanes, by destination register, in which another write to it was outstanding with this one (R104). -/
  clobbered : List (Nat × Word)
  /-- Scope of an atomic (R106). -/
  scope : Nat
  /-- The space: 0 L, 1 W, 2 T, 3 SP, 4 unified (R186), 5 unified at system scope (R257). -/
  space : Nat
  /-- The K register a lock operation answers in, if it names one (R269). -/
  kd : Option Nat
  /-- The record that tells of its refusal by a lender, where lanes of it had gone on (R376). -/
  refused : Option Nat
  /-- Of a lock operation, which names no counter: its clause's header and the words met before it. -/
  clause : Option (Word × Nat)
  deriving DecidableEq, Repr

/-- The trap CSRs' contents (R110, R336). -/
structure TrapRec where
  tcause : Word
  tpc : DWord
  treg : DWord
  trec : Word
  tmask : Word
  tsib : Word
  tpar : DWord
  tval : DWord
  deriving DecidableEq, Repr

/-- A system-route record of a gang (R339), until its resolution is applied. -/
structure SysRec where
  /-- The model's number for it. -/
  n : Nat
  kind : Nat
  tr : TrapRec
  /-- SEQ, once posted. -/
  seq : Option Nat
  /-- Raised with GHALT set: the gang's siblings stop until it is resolved (R342). -/
  halts : Bool
  deriving DecidableEq, Repr

/-- The lanes in the user handler (R338), what each was when it trapped (its noted depth and its region among it), and the
record that entered it. -/
structure Handler where
  lanes : Word
  saved : List (Nat × Lane)
  tr : TrapRec
  deriving DecidableEq, Repr

/-- A fence in force (R240 to R245). -/
structure Fence where
  seq : Nat
  pre : BitVec 4
  suc : BitVec 4
  scope : Nat
  /-- 0 order only, 1 release, 2 acquire, 3 both. -/
  dir : Nat
  /-- The object's unified address, where it orders through one. -/
  obj : Option DWord
  /-- Waits for these earlier accesses of the gang: pending words and asynchronous operations by number. -/
  awaits : List Nat
  awaitsOps : List Nat
  deriving DecidableEq, Repr

/-- One gang. -/
structure Gang where
  v : Vector Lanes 64
  vt : Vector Tags 64
  s : Vector Word 32
  k : Vector Word 12
  d : Vector Nat 6
  /-- Decrements of the D counters made in the present cycle: waits see them from the next one (R101). -/
  dNow : Vector Nat 6
  lanes : Vector Lane 32
  /-- REC (R332). -/
  recN : Word
  frm : Word
  fflags : Word
  fexc : Word
  seed : Word
  x : Word
  fair : Word
  fcnt : Nat
  srvd : Word
  /-- The turn in progress: the lanes it follows, the lanes it issued for and its issues (R63). -/
  turn : Option (Word × Word × Nat)
  sweep : Bool
  check : Word
  ssp : Word
  cspb : Word
  cspl : Word
  trap : TrapRec
  bpc : Vector DWord 4
  dbgctl : Word
  handler : Option Handler
  pendingUser : List (Nat × TrapRec)
  sys : List SysRec
  /-- Issue clock: 1 plus the stall of every issued word (R103). -/
  clock : Nat
  flights : List Flight
  pends : List Pend
  /-- Next number of the gang's issue order of accesses. -/
  seq : Nat
  fences : List Fence
  /-- Reads already performed that are later than one still outstanding (R243): their place in issue order, class (0 R, 2 A) and
  the bytes read, by unified address, length and place. -/
  doneReads : List (Nat × Nat × List (DWord × Nat × Loc))
  /-- An ENQR's question to the front end (R183): the node asked for, and the answer: whether it is armed and open, and its
  RECSZ. -/
  enqr : Option (Nat × Option (Bool × Nat))
  /-- Partition slot of the gang: the partition and its slot there (R55). -/
  part : Nat
  slot : Nat
  /-- The machine's count of issues at the gang's last issue in its partition; 0 if none (R68). -/
  lastIssue : Nat
  /-- Cycles in which the gang still issues nothing after its last word (R68, R98, R102). -/
  stall : Nat
  /-- Words charged in the regions that its lanes are in, by REC, by whether it is a region of the user handler, and by the lanes that
  issued them: what a region abort refunds (R43, R346). -/
  spent : List (((Word × Bool) × Word) × Nat)
  /-- Answers of lock sites that came while the block was away (R270): lane, Kd, the answer, and whether the lane waits for it. -/
  parked : List (Nat × Nat × Bool × Bool)
  /-- The lanes whose lock wait or TRYW wait saw a release of its word while the block was away (R70). -/
  released : Word
  deriving DecidableEq, Repr

/-! ### Blocks -/

/-- The fields of a launch record (R9, R10). -/
structure LaunchRec where
  nlev : Nat
  flags : BitVec 8
  entry : DWord
  handler : DWord
  param : DWord
  bindtab : DWord
  pgtab : DWord
  deadline : Nat
  budi : Nat
  budm : Nat
  buda : Nat
  policy : Nat
  nbind : Nat
  gangs : Nat
  ztiles : Nat
  tags : Nat
  gregs : Nat
  localB : Nat
  spill : Nat
  seedb : Word
  recsz : Nat
  gather : Nat
  timeout : Nat
  margin : Nat
  gbuf : Nat
  gcap : Nat
  /-- The level dwords, level 0 first (R13). -/
  levels : List DWord
  deriving DecidableEq, Repr

/-- A completion tag of the window TG (R217), with the deferred cause of its operation (R344). -/
structure Tag where
  busy : Bool
  done : Bool
  status : Nat
  detail : DWord
  /-- A deferred cause still to be raised, with its TVAL. -/
  cause : Option (BitVec 8 × DWord)
  deriving DecidableEq, Repr

/-- An accumulator tile: 64 rows of 64 elements, and whether it holds I32 (R305). -/
structure Tile where
  elems : List Word
  isInt : Bool
  deriving DecidableEq, Repr

/-- The latch of a convergence register (R311): the Va and ASC of the operation that filled it, and its rows. -/
structure Latch where
  va : Nat
  asc : Bool
  rows : List (Nat × List Byte)
  deriving DecidableEq, Repr

/-- A convergence register (R308 to R311). -/
structure CvReg where
  /-- The set: one or two gangs; empty where the register is empty. -/
  set : List Nat
  /-- Signatures made: gang, lanes. -/
  signed : List (Nat × Word)
  /-- The rows captured at the signatures: the row's number and its bytes, then its scales. -/
  rows : List (Nat × List Byte)
  /-- Fields fixed by the first signature: the word without Gn and Sb, S[b], and the tag of Va. -/
  fixed : Option (Word × Word × Nat)
  latch : Option Latch
  deriving DecidableEq, Repr

/-- What an operation of the matrix engine does (R305 to R326). -/
inductive MatKind where
  /-- MMA, or MMAC through the window: its tile, the codes of A and B, the rows signed, OFF, ASC and BSC. -/
  | mma (window : Bool) (zd afmt bfmt : Nat) (rows : List (Nat × List Byte)) (off : Nat) (asc bsc : Bool)
  /-- A member of MT by its sub, with its descriptor. -/
  | tile (sub : Nat) (desc : List Byte)
  | att (desc : List Byte)
  | attfin (desc : List Byte)
  | sigmk (z off : Nat)
  deriving DecidableEq, Repr

/-- An accepted operation of the matrix engine (R305, R315, R317). -/
structure MatOp where
  /-- Its number among the operations. -/
  id : Nat
  kind : MatKind
  /-- The operands as they stood when it was accepted, range by range: a byte stored to since is read old or new (R211). -/
  before : List (List Byte)
  /-- The operands as they were read; none before the operands-consumed event, while its read leases hold (R315). -/
  data : Option (List (List Byte))
  /-- The tag CONS names, until it has been signalled. -/
  cons : Option Nat
  charge : Nat
  /-- Abandoned by a pre-emption, to be accepted again at restore (R317). -/
  away : Bool
  /-- Whether its first tile held I32 when it was accepted (R305, R313). -/
  isInt : Bool
  deriving DecidableEq, Repr

/-- A block barrier (R275): its phase, the lanes arrived and those arrived early, by gang. -/
structure Bar where
  phase : BitVec 4
  arrived : List Word
  early : List Word
  deriving DecidableEq, Repr

/-- An entry of the swizzle-failure list: a deferred cause, its barrier's offset and its TVAL (R219, R344). -/
structure Deferred where
  cause : BitVec 8
  bar : Nat
  tval : DWord
  deriving DecidableEq, Repr

/-- A gill or ring whose subscription has ended, with the word it was for: reading it is still a read of the word (R246). -/
structure OldGill where
  base : Nat
  size : Nat
  word : Loc
  deriving DecidableEq, Repr

/-- Where a block stands. -/
inductive Residence where
  /-- On a core, its gangs issue. -/
  | resident
  /-- Pre-empted: it no longer issues; its save image is being written (R51). -/
  | draining
  /-- Saved in the tun (R349). -/
  | evicted
  /-- Placed, its parameter block unread (R395). -/
  | paramWait
  deriving DecidableEq, Repr

/-- An entry of an address-program queue: the number of the fetch that fills it, its 128 bytes, and whether they have landed
(R214). -/
structure ApEntry where
  op : Nat
  data : List Byte
  landed : Bool
  deriving DecidableEq, Repr

/-- A claimed address-program queue of a core (R212 to R216). -/
structure ApQueue where
  /-- The block it is claimed for, and the number of its APRUN operation. -/
  b : Nat
  op : Nat
  s : Vector Word 32
  k : Vector Word 12
  pc : Va
  /-- The clause the PC is in: its header's address and the header; none at a header. -/
  clause : Option (Va × Word)
  /-- Emitted entries not yet popped, oldest first. -/
  entries : List ApEntry
  /-- The status the program ended with, if it has ended. -/
  ended : Option Nat
  /-- Held by an exhausted access budget (R44). -/
  held : Bool
  /-- A translation fault of its fetch waits for its resolution (R209). -/
  fault : Bool
  /-- The pin of its program, once the APRUN has completed before its fetches have (R199). -/
  pin : Option Nat
  deriving DecidableEq, Repr

/-- A logged landing or completion of an operation of an evicted block (R210): its completion operand, the bytes landed, and,
when it completed, its status, DETAIL and deferred cause. -/
structure Arrival where
  compl : Word
  bytes : Int
  done : Option (Nat × DWord × Option (BitVec 8 × DWord))
  deriving DecidableEq, Repr

/-- A push (R279, R284, R285): the subscription it is for, its value, sequence and flags. -/
structure Push where
  sub : Nat
  value : DWord
  seq : Word
  valid : Bool
  closed : Bool
  moved : Bool
  poison : Bool
  overrun : Bool
  deriving DecidableEq, Repr

/-- One placed or evicted block. -/
structure Block where
  /-- Device block id, 24 bits (R268). -/
  id : Nat
  die : Die
  core : Nat
  p0 : Nat
  /-- Where its run of the core's local memory begins (R53). -/
  lbase : Nat
  entry : Nat
  /-- The index in the queue table of its entry's queue, and the admitted entry: for the peer half of a split launch, the home's. What the
  block has issued and not performed when it ends is still that entry's (R25, R360). -/
  tab : Nat
  owner : Nat
  ctx : Nat
  space : Nat
  /-- The pinned root slot (R84). -/
  rootSlot : Nat
  sys : Bool
  /-- Block index in its level-3 instance, the flat index of that instance and the global block index (R18). -/
  s2 : Nat
  s3 : Nat
  gix : Nat
  /-- Whether the record has a quire-domain level, its scope, and the member number (R14, R15). -/
  quire : Option Nat
  /-- The cluster-level unit it belongs to, by the number its placement gave the instance (R187). -/
  unit : Option Nat
  member : Nat
  residence : Residence
  rank : Word
  lrec : LaunchRec
  mem : Memory
  /-- While it is away, the swizzle tags of the KiB of its core that its local memory touched (R204). -/
  swz : List (BitVec 3)
  tiles : List Tile
  tags : List Tag
  cv : List CvReg
  bars : List Bar
  defer : List Deferred
  /-- Failures that found the list full: the next barrier wait of the block raises one (R219). -/
  deferOvf : List Deferred
  /-- The last budget report: the three remainders and D less FCYC; with CYC at the report (R43, R182). -/
  rep : List (Option Nat)
  repD : Option Int
  repCyc : Nat
  /-- The deadline it inherits, as its own die counts it (R41). -/
  inherit : Option Int
  deadline : Option Nat
  /-- Its last restoration after a region abort (R52). -/
  restoredAt : Option Nat
  /-- Its gills whose subscriptions have ended (R246). -/
  oldGills : List OldGill
  pushLog : List Push
  arrivalLog : List Arrival
  /-- Resolutions that arrived while the block was away (R340): record, RES and the record's cause. -/
  resLog : List (Nat × Nat × BitVec 8)
  /-- Operations of the matrix engine, in acceptance order (R305). -/
  mops : List MatOp
  /-- Its address programs while it is away, by queue (R213). -/
  aps : List (Nat × ApQueue)
  /-- Where the save area that it is pointed at lies in the context's save pool, if the pool had room (R55, R349), and, while it is away,
  the room of its logs there. -/
  saved : Option Nat
  logRoom : Option (Nat × Nat)
  /-- Its last eviction aborted a region (R52). -/
  rabort : Bool
  /-- The record of a parameter block that cannot be read (R395), by its number, and a resolution of RETRY that came while the
  block was evicted. -/
  param : Option (Nat × Bool)
  gangs : List Gang
  deriving DecidableEq, Repr

/-! ### Translation and registry -/

/-- An entry of the space table (R73). -/
structure SpaceEnt where
  sgen : Word
  pasid : BitVec 20
  pasv : Bool
  ctx : Nat
  key : Nat
  nullr : Bool
  cur : Nat
  deriving DecidableEq, Repr

/-- A root slot (R74): STATE is 0 FREE, 1 CURRENT, 2 RETIRED. -/
structure RootSlot where
  pins : Nat
  gen : BitVec 12
  state : Nat
  space : Nat
  root : Nat
  deriving DecidableEq, Repr

/-- A TLB entry (R87): its tag and the leaf. -/
structure TlbEnt where
  slot : Nat
  gen : BitVec 12
  page : Nat
  size : Nat
  leaf : DWord
  deriving DecidableEq, Repr

/-- A lease-table entry (R372), with grace end once it is REVOKING (R375). -/
structure Lease where
  grace : Nat
  key : Nat
  state : Nat
  port : Nat
  lender : Nat
  size : Nat
  base : Nat
  graceEnd : Option Nat
  /-- The lender has fenced the range: it answers every access with an error (R374 to R376). -/
  fenced : Bool
  deriving DecidableEq, Repr

/-- A range lent to a borrower (R374), with the FCYC at which the lender fences it (R375). -/
structure Lend where
  base : Nat
  size : Nat
  borrower : Nat
  fenceAt : Option Nat
  deriving DecidableEq, Repr

/-! ### Asynchronous operations -/

/-- What an asynchronous operation does (R202 to R206, R214, R282, R289). Addresses are unified (R193). -/
inductive OpKind where
  /-- CPY: destination, source, length, and the bytes of a unit in MX mode, else 0. -/
  | cpy (dst src : DWord) (len unit : Nat)
  /-- CPY2D: its descriptor, read at issue. -/
  | cpy2d (desc : List Byte)
  /-- GTH: destination, local offset of the list, count, element bytes. -/
  | gth (dst : DWord) (list n e : Nat)
  /-- SCT: source, local offset of the list, count, element bytes. -/
  | sct (src : DWord) (list n e : Nat)
  /-- CPYT; with no destination, a prefetch. -/
  | cpyt (dst : Option DWord) (src : DWord) (len : Nat)
  /-- APRUN on a queue. -/
  | aprun (q : Nat)
  /-- A fetch of AQE: queue, source, bytes. -/
  | apfetch (q : Nat) (src : DWord) (n : Nat)
  /-- SLD: the word, its size, EVERY, r, and the base. -/
  | sld (word : DWord) (size : Nat) (every : Bool) (r base : Nat)
  /-- USUB of a subscription. -/
  | usub (sub : Nat)
  /-- KVL (R327): its descriptor's fields, the entries matched so far and whether an overflow list was too long. -/
  | kvl (table buckets : DWord) (seq lp0 : Word) (count k dest : Nat) (ovf : Word) (found : List Nat) (long : Bool)
  /-- COLL (R383): OP, DTYPE, RED, ROOT, SRC, DST and COUNT, with the group's size, this chip's rank, the operation's number among this
  member's collectives (R384) and the word's VA (R217). -/
  | coll (op dtype red root : Nat) (src dst : DWord) (count n rank k : Nat) (va : DWord)
  /-- An operation of the matrix engine, by its number in its block. -/
  | mat
  /-- NDROP of a node (R91). -/
  | ndrop (pa : Nat)
  /-- ENQR (R183): node entry, close mark, relative deadline and the record's bytes. -/
  | enqr (node : Nat) (close : Bool) (rel : Nat) (data : List Byte)
  deriving DecidableEq, Repr

/-- An asynchronous operation in progress (R199 to R210). -/
structure Op where
  id : Nat
  kind : OpKind
  b : Nat
  g : Nat
  /-- Its place in the gang's issue order. -/
  seq : Nat
  /-- Its completion operand (R200). -/
  compl : Word
  /-- The slot it pins, while it does (R199). -/
  slot : Option Nat
  /-- Sectors read and not yet landed, with their bytes. -/
  reads : List (Nat × List Byte)
  /-- Sectors landed. -/
  landed : List Nat
  /-- A copy fault waits for its resolution (R209): its cause and VA, and whether its record has been posted. -/
  fault : Option (BitVec 8 × DWord)
  /-- The ranges it reads and writes, and the widest point of them (R240). -/
  reads_ : List (DWord × Nat)
  writes_ : List (DWord × Nat)
  point : Nat
  /-- Cancelled by a pre-emption, to be replayed at restore (R210). -/
  away : Bool
  /-- REC of the issuing gang when it issued (R354). -/
  recN : Word
  /-- Bytes of a plain copy's sectors that were read or written one by one (R237): the sector, whether it is the write half, the byte's
  place in it, and the byte. -/
  parts : List (((Nat × Bool) × Nat) × Byte) := []
  deriving DecidableEq, Repr

/-! ### Standing loads (R279 to R292) -/

/-- Who holds a subscription. -/
inductive SubWho where
  /-- A block's gill or ring, by its base offset. -/
  | gill (b base : Nat)
  /-- The front end, for a mapped queue's write index (R30). -/
  | queue (d : Die) (q : Nat)
  /-- The front end, for a holding WAITV (R33). -/
  | waitv (d : Die) (q : Nat)
  /-- The front end, for a context's TRRIDX (R340). -/
  | ring (d : Die) (ctx : Nat)
  /-- An unmapped queue's descriptor (R34): context, index in its queue table, and whether the word is a WAITV's. -/
  | desc (d : Die) (ctx tab : Nat) (waitv : Bool)
  deriving DecidableEq, Repr

/-- How far a subscription has come. -/
inductive SubState where
  | live
  /-- The closing push is created. -/
  | closing
  deriving DecidableEq, Repr

/-- A subscription (R282, R283, R286). -/
structure Sub where
  id : Nat
  who : SubWho
  ctx : Nat
  die : Die
  word : Loc
  size : Nat
  /-- The key slot its home reads the word under (R369). -/
  key : Nat
  every : Bool
  r : Nat
  state : SubState
  credits : Nat
  /-- Credits that SLACK has sent and the home has not received (R288). -/
  due : Nat
  /-- The push held for want of credit. -/
  held : Option Push
  /-- Pushes created and not delivered, oldest first. -/
  pend : List Push
  /-- Deliveries made (R280). -/
  count : Nat
  slot : Option Nat
  deriving DecidableEq, Repr

/-! ### Locks, bindings, cluster barriers -/

/-- A waiter at a lock site (R270). -/
structure LockWait where
  loc : Loc
  b : Nat
  g : Nat
  lane : Nat
  kd : Nat
  write : Bool
  /-- It is counted in WWAIT. -/
  counted : Bool
  deriving DecidableEq, Repr

/-- An entry of a context's binding table (R239, R265, R266). -/
structure Binding where
  base : DWord
  len : Nat
  scope : Nat
  obj : DWord
  owner : Nat
  deriving DecidableEq, Repr

/-- The barrier of a cluster-level unit (R276): its phase, and the lanes arrived and arrived early, by member and gang. -/
structure CBar where
  unit : Nat
  phase : BitVec 4
  arrived : List ((Nat × Nat) × Word)
  early : List ((Nat × Nat) × Word)
  deriving DecidableEq, Repr

/-! ### The machine -/

/-- Who issues the word that `exec` is given. -/
inductive Focus where
  | idle
  /-- A fragment: block id, gang, issue set, the word's address, its clause's header address and header, the word itself and
  the variable-latency words met before it. -/
  | gang (b g : Nat) (mask : Word) (pc hpc : Va) (hdr w : Word) (nvl : Nat)
  /-- An address program: die, core, queue and the word (R213). -/
  | ap (d : Die) (core q : Nat) (w : Word)
  deriving DecidableEq, Repr

/-- The data of a device step: what its rule leaves to the outside or to the implementation. -/
inductive Input where
  | none
  | nat (a : Nat)
  | nat2 (a b : Nat)
  | nat3 (a b c : Nat)
  | nat4 (a b c d : Nat)
  | nat5 (a b c d e : Nat)
  | bytes (a b : Nat) (data : List Byte)
  deriving DecidableEq, Repr

/-- A record on its way to a system trap ring (R339). -/
structure TrapPost where
  die : Die
  ctx : Nat
  kind : Nat
  /-- Block id and gang. -/
  block : Nat
  gang : Nat
  /-- The gang's own number of the record; the operation's for KIND 2. -/
  n : Nat
  tr : TrapRec
  compl : Word
  deriving DecidableEq, Repr

/-- The kinds of a queue entry (R24, R25). -/
inductive EntKind where
  | nop | launch | node | fetchfence | signal | waitv
  deriving DecidableEq, Repr

/-- A chip's place in a process group (R20 to R23). -/
structure Group where
  n : Nat
  fanout : Nat
  ident : Nat
  rank : Nat
  sbase : Nat
  scount : Nat
  /-- NEXT, PREV, PARENT and CHILD0 to CHILD7. -/
  routes : List Word
  deriving DecidableEq, Repr

/-- A record held in a node's gather buffer (R26, R183): its place there, the cycle of its acceptance and its absolute deadline. -/
structure Held where
  place : Nat
  at_ : Nat
  deadline : Option Nat
  deriving DecidableEq, Repr

/-- An armed node (R26): its id, the producers left, the records held, oldest first, the place after the last taken, and the blocks
launched and not placed, with their records. -/
structure Node where
  nid : Nat
  producers : Nat
  held : List Held
  next : Nat
  launched : List (Nat × List Held)
  deriving DecidableEq, Repr

/-- How an entry stands with the other half of a split launch (R39). -/
inductive Half where
  /-- It is no split launch. -/
  | whole
  /-- The home's half waits for the answer to its request: the code of its own test, the budgets of the other half and the binding
  descriptors to install (R19). -/
  | asking (code : Nat) (rem : List (Option Nat)) (rows : List (List Byte))
  /-- The home's half, with the peer's entry, and the peer's slack and end once reported. -/
  | home (peer : Nat) (slack : Option (Option Int))
  /-- The peer's half, with the home's entry. -/
  | peer (home : Nat)
  deriving DecidableEq, Repr

/-- An entry from its presentation until it is retired (R35 to R48, R357 to R360). -/
structure Entry where
  id : Nat
  /-- Its place in the order of admission (R40). -/
  adm : Nat
  die : Die
  /-- Its queue's slot, and the queue's index in the queue table of its context. -/
  q : Nat
  tab : Nat
  idx : Word
  ctx : Nat
  space : Nat
  kind : EntKind
  lrec : LaunchRec
  group : Option Group
  /-- The absolute deadline; none for background and demoted entries (R11, R45). -/
  deadline : Option Nat
  demoted : Bool
  granted : Bool
  /-- Remaining budgets, issue, matrix and access; none without a limit (R11, R43). -/
  rem : List (Option Nat)
  used : List Nat
  policy : Nat
  /-- The class held under an overrun, with the shortfall, and the front-end cycle in which it was raised (R44). -/
  overrun : Option (Nat × Nat)
  overAt : Nat
  /-- Further classes exhausted meanwhile, with their shortfalls: raised when the first is resolved (R44). -/
  overNext : List (Nat × Nat)
  target : DWord
  arg0 : Word
  arg1 : DWord
  done : DWord
  /-- The global block index of its first block (R18), the blocks it runs on this die, and those placed. -/
  first : Nat
  count : Nat
  placed : Nat
  half : Half
  /-- The cycle in which its last block finished. -/
  lastEnd : Option Nat
  /-- SRC and CODE of an ABORT that is being applied (R45, R359). -/
  ending : Option (Nat × Nat)
  /-- The completion word, once it has finished (R358, R359). -/
  fin : Option DWord
  node : Option Node
  /-- COLLs numbered so far (R384). -/
  colls : Nat
  /-- The save areas that its admission reserved, by their offsets in the context's save pool (R55, R349). -/
  areas : List Nat
  deriving DecidableEq, Repr

/-! ### The front end (R27 to R34, R46, R386) -/

/-- A mapped queue (R29): its descriptor, and what the front end holds with it. -/
structure Queue where
  ring : Nat
  widxa : Nat
  ridxa : Nat
  ctx : Nat
  space : Nat
  log2n : Nat
  priv : Bool
  wake : Bool
  fault : Bool
  sgen : Word
  fidx : Word
  pidx : Word
  ridx : Word
  wopnd : DWord
  waddr : DWord
  /-- Its index in the context's queue table. -/
  tab : Nat
  /-- The latest write index received (R30); none before the first push. -/
  widx : Option Word
  /-- Entries fetched and not presented, from PIDX up, with their 64 bytes. -/
  fetched : List (List Byte)
  /-- The entry of the WAITV that holds the queue (WAITING). -/
  waiting : Option Nat
  /-- The write index is still to be subscribed to: no pin could be taken (R30, R86). -/
  resub : Bool
  /-- Its unmapping has begun, and whether a push or firing has come since (R34). -/
  leaving : Bool
  woken : Bool
  deriving DecidableEq, Repr

/-- The registers of a notice or overrun ring (R386). -/
structure Ring where
  ridx : Word
  widx : Word
  log2n : Nat
  base : Nat
  deriving DecidableEq, Repr

/-- The front end of a die. -/
structure FrontEnd where
  /-- FECFG (R28). -/
  hold : Bool
  rsv : Nat
  /-- FEPCMD (R46). -/
  cmd : BitVec 128
  /-- The queue slots whose entries were presented in the present cycle (R33, R35). -/
  shown : List Nat
  queues : List (Nat × Queue)
  notices : Ring
  overruns : Ring
  deriving DecidableEq, Repr

/-- An overrun record that waits to be written (R45, R386): queue slot, index, class, shortfall, context. -/
structure OverrunRec where
  die : Die
  q : Nat
  idx : Word
  cls : Nat
  short : Nat
  ctx : Nat
  deriving DecidableEq, Repr

/-- A system trap ring of a context and die (R339, R340): the records posted, the records handled, and what each posted and
unhandled record was. -/
structure TrapRing where
  written : Word
  handled : Word
  recs : List (Word × TrapPost)
  deriving DecidableEq, Repr

/-! ### The control complex (R380 to R394) -/

/-- What the last request from outside was answered. -/
inductive Reply where
  | none
  /-- Completed, with the bytes returned. -/
  | ok (data : List Byte)
  /-- Unsupported Request (R380). -/
  | unsupported
  /-- Completer Abort (R380). -/
  | abort
  /-- An error on the fabric (R374). -/
  | error
  /-- Refused (R381, R388, R389). -/
  | refused
  deriving DecidableEq, Repr

/-- The mailbox (R389): MBCMD, MBOFF, the fields of MBSTAT, the response, and the command in progress with its two arguments. -/
structure Mailbox where
  cmd : Word
  running : Option (Nat × Nat × Nat)
  off : Word
  state : Nat
  fatal : Bool
  bootfail : Bool
  resp : List Byte
  deriving DecidableEq, Repr

/-- A die's black box (R391): its cursor, whether it is frozen, and the events it holds with their numbers, newest first. -/
structure BlackBox where
  cursor : Nat
  frozen : Bool
  events : List (Nat × List Byte)
  deriving DecidableEq, Repr

/-- A die's error log (R392, R393): the counters by kind, the entries, oldest first, and OVF; and the highest HBM
channel logged in the present cycle. -/
structure ErrLog where
  counts : List (Nat × Nat)
  entries : List (List Byte)
  ovf : Bool
  last : Nat
  deriving DecidableEq, Repr

/-- A firmware handover (R388): the answer that RESYNC takes from the preserved-state table, and the table's bytes as its digests were
made: each section's contents and its digest. The table itself stands in local HBM. -/
structure Handover where
  resync : List Byte
  table : List Byte
  deriving DecidableEq, Repr

/-- One entry of the agenda: which turn comes next. -/
inductive Turn where
  /-- A device step, with its data. -/
  | event (i : Instr) (x : Input)
  /-- An issue of a partition (R68). -/
  | issue (d : Die) (core part : Nat)
  /-- Cycles pass on each die (R27, R110). -/
  | time (n0 n1 : Nat)
  deriving DecidableEq, Repr

/-- The state of the machine. -/
structure State where
  /-- Which turns come next; the default policy of `step` applies when it is empty (log 1). -/
  agenda : List Turn
  focus : Focus
  input : Input
  /-- The counter that free values are taken at (log 2). -/
  fresh : Nat
  nextId : Nat
  /-- Whether the last attempt of a gang to issue made progress: a gang that is not ready gives way to the next (R68). -/
  progress : Bool
  /-- Issues made, which orders the issues of a partition (R68). -/
  issues : Nat
  /-- The partitions that have issued in the present cycle of their die: each issues one word a cycle (R68). -/
  issuedIn : List (Die × Nat × Nat)
  entries : List Entry
  /-- Records that wait to be posted (R339), oldest first. -/
  trapQ : List TrapPost
  /-- Contexts struck by an unrecoverable error, not yet discarded (R345): context, cause and TVAL. -/
  discards : List (Nat × BitVec 8 × DWord)
  /-- Entries to be ended by the overrun policy ABORT or a resolution (R45, R340): entry, SRC and CAUSE (R359). -/
  aborts : List (Nat × Nat × Nat)
  /-- Overrun records on their way to Dziyx (R45), oldest first. -/
  overruns : List OverrunRec
  blocks : List Block
  /-- Blocks that have ended, of which stores or atomics are still on their way (R58, R234). -/
  ended : List Block
  /-- Asynchronous operations in progress, oldest first. -/
  ops : List Op
  subs : List Sub
  /-- The sequence of each subscription record, by word and size (R283, R284). -/
  recs : List ((Loc × Nat) × Word)
  /-- Moved marks (R291): the first byte of the frame and its size. -/
  moved : List (Nat × Nat)
  /-- Waiters at lock sites, oldest first. -/
  lockWaits : List LockWait
  /-- The reports of lock waits in force (R41): the holder's block, the waiter's, the waiter's effective deadline at the report, and
  that deadline as the holder's die counts it. -/
  inherits : List (Nat × Nat × Int × Int)
  /-- The contexts' binding tables: context, index, binding; from index 256 up, the rings of the mapped queues (R30). -/
  binds : List (Nat × Nat × Binding)
  cbars : List CBar
  /-- Lines of the tun read caches (R190, R235): device-wide core number, line number, bytes. -/
  tunCache : List (Nat × Nat × List Byte)
  /-- Swizzle tags that are not 0, by device-wide core number and KiB of its local memory (R204). -/
  swz : List ((Nat × Nat) × BitVec 3)
  /-- Cores that are quarantined (R387), device-wide. -/
  quarantined : List Nat
  /-- CTXBASE (R72). -/
  ctxbase : Nat
  /-- The address-program queues in use, by device-wide core number and queue (R212). -/
  apq : List ((Nat × Nat) × ApQueue)
  hbm : Memory
  tun : Vector Memory 2
  /-- Lenders' memory as TIER 1 leaves name it, by lease entry and address; the host's memory. -/
  lender : Memory
  host : Memory
  spaces : List (Nat × SpaceEnt)
  roots : List (Nat × RootSlot)
  /-- Translations held: by a core's TLB, or by the die's second-level TLB where no core is named (R87). -/
  tlb : List (Die × Option Nat × TlbEnt)
  /-- Entries of cached nodes, by their physical address (R88). -/
  nodeCache : List (Die × Nat × DWord)
  /-- MEMCFG.MEMSZ and MEMCFG.PROT (R367). -/
  memsz : Nat
  prot : Bool
  /-- 64-byte lines that fail, by the first byte of each 32-byte half that has not been rewritten since, and INTEGRITY or ECC_UNCORR
  (R345, R368, R369; log 58). -/
  faults : List (Loc × BitVec 8)
  /-- The key each line was last written under, where one is recorded (R369, R371). -/
  lineKeys : List (Loc × Nat)
  /-- The write counter of each line written (R369). -/
  lineCtrs : List (Loc × Nat)
  /-- The lease table's entries that are not at reset (R372). -/
  leases : List (Nat × Lease)
  /-- Lent ranges (R374). -/
  lends : List Lend
  /-- The poison list: lender and frame (R378). -/
  poison : List (Nat × Nat)
  /-- Notices that wait for room in the system notice ring of their die (R89, R386), oldest first. -/
  noticeQ : List (Die × List Byte)
  fe : Vector FrontEnd 2
  /-- The system trap rings in use, by die and context. -/
  trapRings : List ((Die × Nat) × TrapRing)
  /-- The space bound to each function of the host link (R380): 0 the PF, 1 to 32 the VFs. -/
  bar2 : List (Nat × Nat)
  /-- The keys loaded (R371, R381), by slot. -/
  keys : List (Nat × List Byte)
  /-- The measurements (R381), by index. -/
  measures : List (Nat × List Byte)
  /-- The device identity that a process-group table names (R21). -/
  devid : DWord
  /-- The public key of the identity in fuses (R381): 96 bytes. -/
  identity : List Byte
  /-- Dziyx has been verified and started (R387). -/
  booted : Bool
  /-- The failed quires of each die that the repair tables name (R387). -/
  repair : Vector Nat 2
  /-- The messages sent to peers about leases: 0 REVOKE or 1 RELEASE, the port, the peer and the base (R375). -/
  sent : List (Nat × Nat × Nat × Nat)
  /-- UALink ports that have lost their link (R382). -/
  downPorts : List Nat
  /-- Host translations held (R95): PASID, if valid, and page. -/
  ats : List (Option (BitVec 20) × Nat)
  /-- A die is above its hold threshold (R394). -/
  hot : Bool
  /-- A device-fatal error has occurred (R345). -/
  fatal : Bool
  /-- The spare quires left on each die (R387). -/
  spares : Vector Nat 2
  handover : Option Handover
  mbox : Mailbox
  bbox : Vector BlackBox 2
  elog : Vector ErrLog 2
  reply : Reply
  cyc : Vector Nat 2
  fcyc : Vector Nat 2
  deriving DecidableEq, Repr

/-- The registers of a ring at reset (R386). -/
def Ring.reset : Ring := { ridx := 0, widx := 0, log2n := 0, base := 0 }

/-- A front end at reset (R28, R46, R387): HOLD set, RSV 0x10, no queue mapped. -/
def FrontEnd.reset : FrontEnd :=
  { hold := true, rsv := 16, cmd := 0, shown := [], queues := [], notices := Ring.reset, overruns := Ring.reset }

/-- The mailbox at reset (R389). -/
def Mailbox.reset : Mailbox := { cmd := 0, running := none, off := 0, state := 0, fatal := false, bootfail := false, resp := [] }

/-- Measurements 1 to 5 (R381), all of one digest (log 11). -/
def measuresAt (m : List Byte) : List (Nat × List Byte) := (List.range 5).map fun i => (i + 1, m)

/-- The machine right after reset: no block, nothing mapped, every space table entry and root slot at reset, MEMCFG as log 11
says (R28, R73, R74, R367). -/
def State.reset : State :=
  { agenda := [], focus := .idle, input := .none, fresh := 0, nextId := 0, progress := false, issues := 0, issuedIn := [], entries := [],
    trapQ := [], discards := [], aborts := [], overruns := [], blocks := [], ended := [], ops := [], subs := [], recs := [], moved := [],
    lockWaits := [], inherits := [], binds := [], cbars := [], tunCache := [], swz := [], quarantined := [], ctxbase := 0, apq := [], hbm := [],
    tun := Vector.replicate 2 [], lender := [], host := [], spaces := [], roots := [], tlb := [], nodeCache := [], memsz := 894,
    prot := false, faults := [], lineKeys := [], lineCtrs := [], leases := [], lends := [], poison := [], noticeQ := [],
    fe := Vector.replicate 2 FrontEnd.reset, trapRings := [], bar2 := [], keys := [(0, List.replicate 32 0)],
    measures := measuresAt (List.replicate 48 0), devid := 0, identity := List.replicate 96 0, booted := true,
    repair := Vector.replicate 2 0, sent := [], downPorts := [],
    ats := [], hot := false, fatal := false, spares := Vector.replicate 2 1, handover := none, mbox := Mailbox.reset,
    bbox := Vector.replicate 2 { cursor := 0, frozen := false, events := [] },
    elog := Vector.replicate 2 { counts := [], entries := [], ovf := false, last := 0 }, reply := .none,
    cyc := Vector.replicate 2 0, fcyc := Vector.replicate 2 0 }

end Sys2Proof.Machine
end

