-- ==== Sys2Proof/Machine/Mem.lean ====
section
/-! DEFINITION. The operations over memory: one byte, then runs of bytes, little-endian (R2), then the storage a location names. -/

namespace Sys2Proof.Machine

/-- The value of a byte that no cell lists (log 10). -/
def unlistedByte : Byte := 0#8

/-- The byte at an address. -/
def Memory.get (m : Memory) (a : Nat) : Byte :=
  match m with
  | [] => unlistedByte
  | c :: r => if c.1 = a then c.2 else Memory.get r a

/-- A cell put where its address belongs. -/
def Memory.insert (m : Memory) (c : Host.Cell) : Memory :=
  match m with
  | [] => [c]
  | x :: r => if c.1 < x.1 then c :: x :: r else x :: Memory.insert r c

/-- The memory with one byte changed; the canonical form is kept. -/
def Memory.set (m : Memory) (a : Nat) (v : Byte) : Memory :=
  let m' := m.filter fun c => c.1 ≠ a
  if v = unlistedByte then m' else Memory.insert m' (a, v)

/-- The canonical form: addresses strictly rising, and no cell equal to what an unlisted address reads as. -/
def Memory.wf (m : Memory) : Bool :=
  match m with
  | [] => true
  | c :: r => c.2 ≠ unlistedByte && (match r with | [] => true | x :: _ => decide (c.1 < x.1)) && Memory.wf r

/-- `n` bytes from an address up. -/
def Memory.read (m : Memory) (a n : Nat) : List Byte := (List.range n).map fun i => m.get (a + i)

/-- Bytes written from an address up. -/
def Memory.write (m : Memory) (a : Nat) (bs : List Byte) : Memory :=
  match bs with
  | [] => m
  | b :: r => Memory.write (m.set a b) (a + 1) r

/-- The number that little-endian bytes hold (R2). -/
def leNat (bs : List Byte) : Nat :=
  match bs with
  | [] => 0
  | b :: r => b.toNat + 256 * leNat r

/-- The low `n` bytes of a number, least significant first (R2). -/
def natLe (n v : Nat) : List Byte := (List.range n).map fun i => BitVec.ofNat 8 (v / 256 ^ i)

/-- The block with an id. -/
def State.block? (s : State) (b : Nat) : Option Block := s.blocks.find? fun x => x.id = b

/-- The state with a block replaced under its id. -/
def State.setBlock (s : State) (x : Block) : State :=
  { s with blocks := s.blocks.map fun y => if y.id = x.id then x else y }

/-- The key of a byte of lent memory: each lease entry names memory of its own. -/
def lenderKey (e a : Nat) : Nat := e * 2 ^ 52 + a

/-- The key of a byte of the host's memory: each PASID, and none, names memory of its own (DESIGN CHOICE, log 143). -/
def hostKey (pasid : Option (BitVec 20)) (a : Nat) : Nat := (match pasid with | some p => p.toNat + 1 | none => 0) * 2 ^ 52 + a

/-- One byte of the storage a location names. -/
def State.readByte (s : State) (l : Loc) : Byte :=
  match l with
  | .loc b o => match s.block? b with
    | some x => x.mem.get o
    | none => unlistedByte
  | .tun d o => (s.tun[d]).get o
  | .hbm a => s.hbm.get a
  | .lender e a => s.lender.get (lenderKey e a)
  | .host p a => s.host.get (hostKey p a)

/-- The location `i` bytes on. -/
def Loc.add (l : Loc) (i : Nat) : Loc :=
  match l with
  | .loc b o => .loc b (o + i)
  | .tun d o => .tun d (o + i)
  | .hbm a => .hbm (a + i)
  | .lender e a => .lender e (a + i)
  | .host p a => .host p (a + i)

/-- One byte of storage changed. -/
def State.writeByte (s : State) (l : Loc) (v : Byte) : State :=
  match l with
  | .loc b o => match s.block? b with
    | some x => s.setBlock { x with mem := x.mem.set o v }
    | none => s
  | .tun d o => { s with tun := s.tun.set d ((s.tun[d]).set o v) }
  | .hbm a => { s with hbm := s.hbm.set a v }
  | .lender e a => { s with lender := s.lender.set (lenderKey e a) v }
  | .host p a => { s with host := s.host.set (hostKey p a) v }

/-- The bytes at a location, one by one. -/
def Loc.run (l : Loc) (n : Nat) : List Loc := (List.range n).map l.add

/-- `n` bytes of storage. -/
def State.readLoc (s : State) (l : Loc) (n : Nat) : List Byte := (List.range n).map fun i => s.readByte (l.add i)

/-- Bytes of storage changed, with no other effect. -/
def State.writeRaw (s : State) (l : Loc) (bs : List Byte) : State :=
  match bs with
  | [] => s
  | b :: r => State.writeRaw (s.writeByte l b) (l.add 1) r

end Sys2Proof.Machine
end

