-- ==== Sys2Proof/Machine/Errors.lean ====
section
/-! DEFINITION. The black boxes and the error logs of the dies (R391 to R393). -/

namespace Sys2Proof.Machine

/-- An association list with a key set. -/
def assocSet {α β : Type} [DecidableEq α] (l : List (α × β)) (a : α) (b : β) : List (α × β) :=
  (a, b) :: l.filter fun p => p.1 ≠ a

/-- A lookup in an association list. -/
def assocGet {α β : Type} [DecidableEq α] (l : List (α × β)) (a : α) : Option β := (l.find? fun p => p.1 = a).map Prod.snd

/-- An event of a black box (R391): FCYC, kind, context and detail. `sort` numbers what happened: 0 a context discarded, 1 a
device-fatal error, 2 a promotion that failed its MAC, 3 a poisoned subscription, 4 a hardware error. -/
def State.blackBox (s : State) (d : Die) (sort ctx : Nat) : State :=
  let b := s.bbox[d]
  let ev := natLe 8 s.fcyc[d] ++ natLe 2 (Config.eventKind sort).toNat ++ natLe 2 ctx ++ natLe 20 (Config.eventDetail s.fresh).toNat
  let b1 : BlackBox := { b with
    cursor := (b.cursor + 1) % 2 ^ 64
    events := if b.frozen then b.events else (b.cursor, ev) :: b.events.filter fun e => e.1 % 4096 ≠ b.cursor % 4096 }
  { s with bbox := s.bbox.set d b1, fresh := s.fresh + 1 }

/-- The error count of a die: the sum of its counters (R392). -/
def ErrLog.count (e : ErrLog) : Nat := (e.counts.map Prod.snd).foldl (· + ·) 0

/-- An error counted and logged (R392, R393). Once 16 entries are held, OVF is set, and a later event is only counted. -/
def ErrLog.record (e : ErrLog) (kind chan pa syn : Nat) : ErrLog :=
  let n := (assocGet e.counts kind).getD 0
  let hbm := kind ≤ 5
  let e1 := { e with counts := assocSet e.counts kind ((n + 1) % 2 ^ 64), last := if hbm then max e.last chan else e.last }
  if 16 ≤ e.entries.length then { e1 with ovf := true }
  else
    { e1 with ovf := e1.ovf || e.entries.length = 15, entries := e.entries ++
        [natLe 8 e1.count ++ natLe 2 kind ++ natLe 2 (if hbm then chan else 0) ++ natLe 4 0 ++ natLe 8 (if hbm then pa else 0)
          ++ natLe 8 syn] }

/-- The 544 bytes of a die's error log (R393). -/
def ErrLog.bytes (e : ErrLog) : List Byte :=
  let body := e.entries.flatten
  natLe 1 e.entries.length ++ natLe 1 (if e.ovf then 1 else 0) ++ natLe 6 0 ++ natLe 8 e.count ++ natLe 16 0
    ++ body ++ List.replicate (512 - body.length) 0

/-- The physical address of a main-memory location. -/
def Loc.pa (l : Loc) : Nat :=
  match l with
  | .loc _ o => o
  | .tun _ o => o
  | .hbm a => a
  | .lender _ a => a
  | .host _ a => a

/-- An error of a die counted and logged, with its event in the black box (R391, R392). -/
def State.logError (s : State) (d : Die) (kind chan pa syn : Nat) : State :=
  { s with elog := s.elog.set d (s.elog[d].record kind chan pa syn) }.blackBox d 4 0

/-- An error that an access found: where it lies and under which kind it is counted (R392, R393, R368). Channel and syndrome are free
values, since which channel holds a line is not architectural; the channel is none below one that this cycle has logged (DEDUCED, log
127). -/
def State.logFound (s : State) (d : Die) (kind : Nat) (at_ : Option Loc) : State :=
  let e : Die := (match at_ with | some (.tun e _) => e | some (.hbm a) => Fin.ofNat 2 (a / 4096 % 128 / 64) | _ => d)
  let chan := max s.elog[e].last ((Config.freeWord s.fresh).toNat % 2 ^ 16)
  { s with fresh := s.fresh + 2 }.logError e kind chan ((at_.map Loc.pa).getD 0) (Config.freeWord (s.fresh + 1)).toNat

end Sys2Proof.Machine
end

