-- ==== Sys2Proof/Machine/Ops.lean ====
section
/-! DEFINITION. The named operations over registers, lanes and gangs; taking a trap (R336 to R339) and returning from one
(R335, R338), each once. -/

namespace Sys2Proof.Machine

/-! ### Lane masks -/

/-- The lanes of a mask, in ascending order. -/
def lanesOf (m : Word) : List Nat := (List.range 32).filter fun l => m.getLsbD l

/-- The lowest lane of a mask. -/
def lowest (m : Word) : Option Nat := (lanesOf m).head?

/-- The mask of the lanes for which a test holds. -/
def maskOf (p : Nat → Bool) : Word := BitVec.ofNat 32 ((List.range 32).foldl (fun a l => if p l then a + 2 ^ l else a) 0)

/-- A vector whose lanes in `m` are new and whose other lanes are kept. -/
def blend {α : Type} (m : Word) (new old : Vector α 32) : Vector α 32 :=
  Vector.ofFn fun i => if m.getLsbD i.val then new[i] else old[i]

/-! ### Registers of a gang -/

/-- V[n] (R105). -/
def Gang.getV (g : Gang) (n : Nat) : Lanes := if h : n < 64 then g.v[n] else Vector.ofFn fun _ => 0

/-- The tags of V[n] (R109). -/
def Gang.getT (g : Gang) (n : Nat) : Tags := if h : n < 64 then g.vt[n] else Vector.ofFn fun _ => 0

/-- V[n] and its tags written in the lanes of a mask. -/
def Gang.setV (g : Gang) (n : Nat) (m : Word) (val : Lanes) (tag : Tags) : Gang :=
  if h : n < 64 then { g with v := g.v.set n (blend m val g.v[n]), vt := g.vt.set n (blend m tag g.vt[n]) } else g

/-- S[n]; S0 reads zero (R105). -/
def Gang.getS (g : Gang) (n : Nat) : Word := if h : 0 < n ∧ n < 32 then g.s[n] else 0

/-- S[n] written; a write to S0 is discarded (R105). -/
def Gang.setS (g : Gang) (n : Nat) (w : Word) : Gang := if h : 0 < n ∧ n < 32 then { g with s := g.s.set n w } else g

/-- The pair S[n]:S[n+1], the even register low (R2, R105). -/
def Gang.getS2 (g : Gang) (n : Nat) : DWord := g.getS (n + 1) ++ g.getS n

/-- The pair S[n]:S[n+1] written. -/
def Gang.setS2 (g : Gang) (n : Nat) (w : DWord) : Gang := (g.setS n (w.extractLsb' 0 32)).setS (n + 1) (w.extractLsb' 32 32)

/-- K[n]; K0 is the live mask (R65). -/
def Gang.getK (g : Gang) (n : Nat) : Word := if h : n < 12 then g.k[n] else 0

/-- K[n] written, K1 to K11; K0 is read-only (R65). -/
def Gang.setK (g : Gang) (n : Nat) (w : Word) : Gang := if h : 0 < n ∧ n < 12 then { g with k := g.k.set n w } else g

/-- The live mask K0 (R65). -/
def Gang.live (g : Gang) : Word := g.getK 0

/-- Lanes changed, in a mask. -/
def Gang.mapLanes (g : Gang) (m : Word) (f : Nat → Lane → Lane) : Gang :=
  { g with lanes := Vector.ofFn fun i => if m.getLsbD i.val then f i.val g.lanes[i] else g.lanes[i] }

/-- A lane, by number. -/
def Gang.lane (g : Gang) (l : Nat) : Lane := if h : l < 32 then g.lanes[l] else g.lanes[0]

/-- The lanes that are live and not suspended (R59). -/
def Gang.awake (g : Gang) : Word := maskOf fun l => g.live.getLsbD l && (g.lane l).wait = .none

/-! ### Blocks and gangs in the state -/

/-- A gang of a block. -/
def State.gang? (s : State) (b g : Nat) : Option (Block × Gang) :=
  match s.block? b with
  | some x => (x.gangs[g]?).map fun y => (x, y)
  | none => none

/-- REC of a gang. -/
def State.recOf (s : State) (b g : Nat) : Word := match s.gang? b g with | some (_, y) => y.recN | none => 0

/-- The state with a gang of a block replaced. -/
def State.setGang (s : State) (b g : Nat) (y : Gang) : State :=
  match s.block? b with
  | some x => s.setBlock { x with gangs := x.gangs.set g y }
  | none => s

/-- A gang of a block changed. -/
def State.modGang (s : State) (b g : Nat) (f : Gang → Gang) : State :=
  match s.gang? b g with
  | some (_, y) => s.setGang b g (f y)
  | none => s

/-- A block changed. -/
def State.modBlock (s : State) (b : Nat) (f : Block → Block) : State :=
  match s.block? b with
  | some x => s.setBlock (f x)
  | none => s

/-! ### Regions (R332 to R335) -/

/-- The region-entry state of a lane as it stands (R136, R174). -/
def Lane.regionAt (l : Lane) (pc : Va) (recN x : Word) : Region :=
  { pc := pc, recN := recN, dep := l.dep, stack := l.stack, x := x, fresh := false }

/-- A lane entering a region other than by re-execution. -/
def Lane.enter (l : Lane) (pc : Va) (recN x : Word) : Lane :=
  { l with region := l.regionAt pc recN x, relCount := 0, relSeen := 0, replay := false, complete := false,
           entered := true }

/-- A lane that re-executes its region passes its entry: REC and the region-entry state are kept (R332). -/
def Lane.reenter (l : Lane) : Lane := { l with relSeen := 0, replay := false, complete := false, entered := true }

/-- The first word of an RE clause is taken up by the lanes of `m` (R332): REC counts the entry unless every lane of the
fragment re-executes its region. The stochastic state is then the copy of the fragment's lowest lane (R136). -/
def Gang.enterRegion (g : Gang) (m : Word) (hpc : Va) : Gang :=
  let again : Lane → Bool := fun l => l.entered || (l.replay && l.region.pc = hpc)
  let fresh := (lanesOf m).any fun l => !(again (g.lane l))
  let r := if fresh then g.recN + 1 else g.recN
  let x := if !fresh && ((lanesOf m).any fun l => !(g.lane l).entered) then ((lowest m).map fun l => (g.lane l).region.x).getD g.x else g.x
  { g.mapLanes m (fun _ l =>
    if l.entered then l else if again l then l.reenter else l.enter hpc r g.x) with recN := r, x := x }

/-- The first word of the clause at a region's entry that has no RE (ENTRY or HANDLER, R332): where every lane of the fragment re-executes
that region, the stochastic state is the copy of its lowest lane (R136). -/
def Gang.reexecute (g : Gang) (m : Word) (hpc : Va) : Gang :=
  let again : Lane → Bool := fun l => l.replay && l.region.pc = hpc
  let x := if (lanesOf m).all fun l => again (g.lane l) then ((lowest m).map fun l => (g.lane l).region.x).getD g.x else g.x
  { g.mapLanes m (fun _ l => if again l then { l with relSeen := 0, replay := false } else l) with x := x }

/-- A dependency counter lowered by one; waits see it from the next cycle on (R101). -/
def Gang.decD (g : Gang) (d : Option Nat) : Gang :=
  match d with
  | some n => if h : n < 6 then { g with d := g.d.set n (g.d[n] - 1), dNow := g.dNow.set n (g.dNow[n] + 1) } else g
  | none => g

/-- A dependency counter as waits see it in this cycle (R101). -/
def Gang.dSeen (g : Gang) (n : Nat) : Nat := g.d.toArray.getD n 0 + g.dNow.toArray.getD n 0

/-- The effective deadline of a block (R40). -/
def Block.effDeadline (x : Block) : Option Int :=
  match x.deadline, x.inherit with
  | some a, some b => some (min (a : Int) b)
  | some a, none => some (a : Int)
  | none, some b => some b
  | none, none => none

/-- A lane is in the user handler, whose words form a region of their own (R332, R338). -/
def Gang.handling (g : Gang) (l : Nat) : Bool := match g.handler with | some h => h.lanes.getLsbD l | none => false

/-- What lanes have spent in their regions, in the handler or outside it, without the lanes of `m`. -/
def notSpent (inH : Bool) (m : Word) (l : List (((Word × Bool) × Word) × Nat)) : List (((Word × Bool) × Word) × Nat) :=
  (l.map fun p => if p.1.1.2 = inH then ((p.1.1, p.1.2 &&& ~~~m), p.2) else p).filter fun p => p.1.2 ≠ 0

/-- RETRY (R335): the lanes of `m` go to their region's entry with the region-entry state, and the gang's stochastic state
takes the copy of the lowest lane (R136). What they have issued there is charged again when it re-executes, and no region abort gives it
back (R43). -/
def Gang.retry (g : Gang) (m : Word) (treg : Va) : Gang :=
  let g' := { g with spent := notSpent (g.handling ((lowest m).getD 0)) m g.spent }.mapLanes m fun _ l =>
    { l with pc := treg, pos := .header .transferred, wait := .none, hint := none, dep := l.region.dep, stack := l.region.stack,
             relSeen := 0, replay := !l.region.fresh, complete := false, bpPass := false, vlHere := false }
  match lowest m with
  | some l => { g' with x := (g.lane l).region.x }
  | none => g'

/-! ### Traps -/

/-- The routes of R336. -/
inductive Route where
  | user | system | debugger | unrecoverable
  deriving DecidableEq, Repr

/-- ROUTE, TCAUSE[11:10]. -/
def Route.code (r : Route) : Nat :=
  match r with
  | .user => 0
  | .system => 1
  | .debugger => 2
  | .unrecoverable => 3

/-- A trap to be raised: its cause and TVAL. -/
structure Trap where
  cause : BitVec 8
  tval : DWord
  /-- A deferred cause, raised at a wait (R344). -/
  defer : Bool := false
  /-- Of an integrity cause, the place of the error (R393). -/
  at_ : Option Loc := none
  deriving DecidableEq, Repr

namespace Cause
def illegal : BitVec 8 := 0x01
def priv : BitVec 8 := 0x02
def fmt : BitVec 8 := 0x03
def unif : BitVec 8 := 0x04
def align : BitVec 8 := 0x05
def localBounds : BitVec 8 := 0x06
def window : BitVec 8 := 0x07
def address : BitVec 8 := 0x08
def xlateNp : BitVec 8 := 0x09
def xlatePerm : BitVec 8 := 0x0A
def cow : BitVec 8 := 0x0B
def leaseRevoked : BitVec 8 := 0x0C
def integrity : BitVec 8 := 0x0D
def eccUncorr : BitVec 8 := 0x0E
def stallShort : BitVec 8 := 0x0F
def region : BitVec 8 := 0x10
def brk : BitVec 8 := 0x11
def trapn : BitVec 8 := 0x12
def swz : BitVec 8 := 0x13
def overrun : BitVec 8 := 0x14
def stack : BitVec 8 := 0x15
def target : BitVec 8 := 0x16
def tbUnderflow : BitVec 8 := 0x17
def subQuota : BitVec 8 := 0x18
def pagePoison : BitVec 8 := 0x19
def windowPeer : BitVec 8 := 0x1A
def fpx : BitVec 8 := 0x1B
def xlateFormat : BitVec 8 := 0x1D
def tagbusy : BitVec 8 := 0x1E
end Cause

/-- The route of a cause (R337); BRK goes to the debugger when one is attached (R342). -/
def causeRoute (c : BitVec 8) (attached : Bool) : Route :=
  if c = Cause.brk then (if attached then .debugger else .user)
  else if c = Cause.integrity || c = Cause.eccUncorr || c = Cause.pagePoison then .unrecoverable
  else if c = Cause.xlateNp || c = Cause.xlatePerm || c = Cause.cow || c = Cause.leaseRevoked || c = Cause.swz
    || c = Cause.stack || c = Cause.tbUnderflow || c = Cause.xlateFormat then .system
  else .user

/-- The kind under which an error that an access finds is counted (R393). -/
def Trap.errorKind (t : Trap) : Option Nat :=
  if t.cause = Cause.eccUncorr then some (match t.at_ with | some (.tun _ _) => 7 | _ => 2)
  else if t.cause = Cause.integrity then some 3
  else if t.cause = Cause.pagePoison then some 4
  else none

/-- An error that an access finds is counted and logged (R392). -/
def State.noteError (s : State) (d : Die) (t : Trap) : State :=
  match t.errorKind with
  | some k => s.logFound d k t.at_
  | none => s

/-- TCAUSE (R336). -/
def tcauseOf (nested : Bool) (r : Nat) (defer hwbp : Bool) (c : BitVec 8) : Word :=
  BitVec.ofNat 32 ((if nested then 2 ^ 15 else 0) + r * 2 ^ 10 + (if defer then 2 ^ 9 else 0) + (if hwbp then 2 ^ 8 else 0)
    + c.toNat)

/-- The record of a trap of the lanes `m` at `pc` (R334, R336): the region and the splitting branch are the lowest lane's. -/
def Gang.trapRec (g : Gang) (m : Word) (pc : Va) (tcause : Word) (tval : DWord) : TrapRec :=
  let l := g.lane ((lowest m).getD 0)
  { tcause := tcause, tpc := pc.setWidth 64, treg := l.region.pc.setWidth 64,
    trec := l.region.recN, tmask := m, tsib := g.live &&& ~~~m,
    tpar := l.tpar, tval := tval }

/-- The bits of DBGCTL, BPCn, FRM, FFLAGS, FEXC and CHECK that are not reserved (R110, R341). -/
def maskDbgctl : Word := 3
def maskBpc : DWord := 0x0000FFFFFFFFFFFD

/-- The DBGCTL bits (R341). -/
def Gang.attached (g : Gang) : Bool := g.dbgctl.getLsbD 0
def Gang.ghalt (g : Gang) : Bool := g.dbgctl.getLsbD 1

/-- Handler entry on the user route (R338): the trap CSRs take the record, the lanes' state is noted, and the lanes go to
HANDLER. The handler's words form a region of their own (R332). -/
def Gang.enterHandler (g : Gang) (m : Word) (tr : TrapRec) (handler : Va) : Gang :=
  let saved := (lanesOf m).map fun l => (l, { g.lane l with wait := .none })
  { g.mapLanes m (fun _ l =>
      let l' : Lane := { l with pc := handler, pos := .header .transferred, wait := .none, hint := none, bpPass := false }
      { l'.enter handler g.recN g.x with entered := false }) with
    trap := tr, handler := some { lanes := m, saved := saved, tr := tr } }

/-- The fragment is suspended with a system-route record (R339), numbered `n`. -/
def Gang.suspendSys (g : Gang) (m : Word) (n kind : Nat) (tr : TrapRec) (halts : Bool) : Gang :=
  { g.mapLanes m (fun _ l => { l with wait := .sysTrap n, hint := none }) with
    sys := g.sys ++ [{ n := n, kind := kind, tr := tr, seq := none, halts := halts }] }

/-- A context struck by an unrecoverable error and not yet discarded: one record tells of it (R345). -/
def State.struck (s : State) (ctx : Nat) : Bool := s.discards.any fun c => c.1 = ctx

/-- A fragment stops and records its trap (R336), on the route of R337 and R338: the user handler if it is free, a pending
record if a sibling holds it, the system ring for a nested trap, for no handler, and for system causes; the debugger; or, for
an unrecoverable cause, the discard of the context (R345). -/
def State.takeTrap (s : State) (b g : Nat) (m : Word) (pc : Va) (t : Trap) (hwbp : Bool) : State :=
  match s.gang? b g with
  | none => s
  | some (x, y) =>
    let nested := (match y.handler with | some h => (h.lanes &&& m) ≠ 0 | none => false)
    let r := causeRoute t.cause y.attached
    let mk : Route → TrapRec := fun rt => y.trapRec m pc (tcauseOf nested rt.code t.defer hwbp t.cause) t.tval
    let n := s.nextId
    let post : Nat → TrapRec → State := fun kind tr =>
      { s.setGang b g (y.suspendSys m n kind tr y.ghalt) with
        nextId := n + 1
        trapQ := s.trapQ ++ [{ die := x.die, ctx := x.ctx, kind := kind, block := b, gang := g, n := n, tr := tr, compl := 0 }] }
    if r = .unrecoverable then
      if s.struck x.ctx then { s.setGang b g (y.suspendSys m n 1 (mk .unrecoverable) false) with nextId := n + 1 }.noteError x.die t else
      let s' := (post 1 (mk .unrecoverable)).noteError x.die t
      { s' with discards := s'.discards ++ [(x.ctx, t.cause, t.tval)] }
    else if nested then post 1 (mk .system)
    else match r with
    | .system | .unrecoverable => post 1 (mk .system)
    | .debugger => post 3 (mk .debugger)
    | .user =>
      let tr := mk .user
      if x.lrec.handler = 0 then post 1 tr
      else if y.handler.isNone then s.setGang b g (y.enterHandler m tr (x.lrec.handler.setWidth 48))
      else
        { s.setGang b g { y.mapLanes m (fun _ l => { l with wait := .userTrap n, hint := none }) with
            pendingUser := y.pendingUser ++ [(n, tr)] } with nextId := n + 1 }

/-- A context struck by an unrecoverable error outside any fragment (R345): the discard is due, and a KIND 1 record with ROUTE 3
is posted. -/
def State.strike (s0 : State) (x : Block) (g : Nat) (t : Trap) : State :=
  let s := s0.noteError x.die t
  let tr : TrapRec := { tcause := tcauseOf false 3 false false t.cause, tpc := 0, treg := 0, trec := 0, tmask := 0, tsib := 0, tpar := 0,
                        tval := t.tval }
  if s.struck x.ctx then s else { s with
    discards := s.discards ++ [(x.ctx, t.cause, t.tval)]
    trapQ := s.trapQ ++ [{ die := x.die, ctx := x.ctx, kind := 1, block := x.id, gang := g, n := s.nextId, tr := tr, compl := 0 }]
    nextId := s.nextId + 1 }

/-! ### The call stack (R172) -/

/-- Where entry `j` of lane `l` is spilled: B + 256 j + 8 l in the gang's SP space. -/
def Gang.spillOff (g : Gang) (j l : Nat) : Nat := (g.cspb.toNat / 8) * 8 + 256 * j + 8 * l

/-- The local offset of a gang's SP space (R17). -/
def Block.spBase (x : Block) (g : Nat) : Nat := x.lrec.localB - (x.lrec.gangs - g) * x.lrec.spill

/-- The spill limit E (R172). -/
def Gang.spillEnd (g : Gang) (x : Block) : Nat := min g.cspl.toNat x.lrec.spill

/-- Whether a push of lane `l` overflows, and at which offset. -/
def Gang.pushOverflow (g : Gang) (x : Block) (l : Nat) : Option Nat :=
  let d := (g.lane l).dep
  if d < 4 then none
  else
    let a := g.spillOff (d - 4) l
    if g.spillEnd x < a + 8 then some a else none

/-- A push (R172), its overflow already checked: the new lane and the spill write, at an SP offset. -/
def Lane.push (y : Lane) (ret : DWord) : Lane × Option DWord :=
  if y.dep < 4 then ({ y with stack := ret :: y.stack, dep := y.dep + 1 }, none)
  else ({ y with stack := ret :: y.stack.take 3, dep := y.dep + 1 }, (y.stack.take 4).getLast?)

/-- A pop (R172): the popped address and the lane, with `refill` the bytes of the entry that moves back on chip. -/
def Lane.pop (y : Lane) (refill : DWord) : DWord × Lane :=
  let d := y.dep - 1
  (y.stack.headD 0, { y with dep := d, stack := y.stack.tail ++ (if 4 ≤ d then [refill] else []) })

/-- The bytes of SP storage of a gang as a doubleword: for a refill whose offset lies beyond it, what local memory holds there (DESIGN CHOICE,
log 161). -/
def Block.spDword (x : Block) (g off : Nat) : DWord := BitVec.ofNat 64 (leNat (x.mem.read (x.spBase g + off) 8))

/-- Pops of a lane until its depth is `d` (R338, TRET). -/
def Gang.popTo (g : Gang) (x : Block) (gi l d : Nat) (fuel : Nat) (y : Lane) : Lane :=
  match fuel with
  | 0 => y
  | n + 1 => if y.dep ≤ d then y else g.popTo x gi l d n (y.pop (x.spDword gi (g.spillOff (y.dep - 5) l))).2

/-! ### Resumption at the trapping word (R335) -/

/-- RESUME: the trapping word issues again. A fault reported at a header after the word resumes at that header. `bp` says
that a breakpoint stopped the word, which is then passed once (R342). -/
def Lane.resumeAt (y : Lane) (tpc : Va) (bp : Bool) : Lane :=
  if y.pc = tpc then
    { y with wait := .none, hint := none, bpPass := bp
             pos := match y.pos with | .header _ => .header .transferred | p => p }
  else { y with pc := tpc, pos := .header .transferred, wait := .none, hint := none, bpPass := bp }

/-- CONT: the trapping word is skipped; a skipped variable-latency word still counts in its clause's word order (R100). -/
def Lane.contAt (y : Lane) (tpc : Va) : Lane :=
  let pos := (match y.pos with
    | .clause hpc hdr nvl =>
      if y.pc = tpc && tpc + 4 ≠ hpc + 4 * ((hdr.extractLsb' 28 4).setWidth 48 + 1) then
        .clause hpc hdr (if y.vlHere then nvl + 1 else nvl)
      else .header .transferred
    | .header _ => .header .transferred)
  { y with pc := tpc + 4, pos := pos, wait := .none, hint := none, bpPass := false, vlHere := false }

/-! ### Return from the user handler (R184, R338) -/

/-- The oldest pending user record enters the handler (R338). -/
def Gang.nextPending (g : Gang) (handler : Va) : Gang :=
  match g.pendingUser with
  | [] => g
  | (n, tr) :: r =>
    let m := maskOf fun l => (g.lane l).wait = .userTrap n && g.live.getLsbD l
    if m = 0 then { g with pendingUser := r } else { g.enterHandler m tr handler with pendingUser := r }

/-- TRET: the handler ends, its leftover call-stack entries are discarded, the region its lanes were in is theirs again, and the live
lanes of the CSR TMASK resume by the mode: 0 RETRY at the CSR TREG, 1 CONT and 2 RESUME by the CSR TPC (R110, R184, R335). Lanes of
the handler that a rewritten TMASK leaves out go on after the TRET (log 20). -/
def Gang.tret (g : Gang) (x : Block) (gi mode : Nat) : Gang :=
  match g.handler with
  | none => g
  | some h =>
    let hl := h.lanes &&& g.live
    let m := g.trap.tmask &&& g.live
    let old : Nat → Lane → Lane := fun l y => ((h.saved.find? fun p => p.1 = l).map Prod.snd).getD y
    let g1 := g.mapLanes hl fun l y =>
      let o := old l y
      let c := g.popTo x gi l o.dep y.dep y
      if m.getLsbD l then { o with dep := c.dep, stack := c.stack, wait := .none }
      else { o with pc := y.pc, pos := y.pos, dep := c.dep, stack := c.stack, wait := y.wait, hint := y.hint }
    let g2 := { g1 with handler := none, spent := g1.spent.filter fun p => !p.1.1.2 }
    let tpc : Va := g.trap.tpc.setWidth 48
    let g3 :=
      if mode = 0 then g2.retry m (g.trap.treg.setWidth 48)
      else if mode = 1 then g2.mapLanes m fun _ y => y.contAt tpc
      else g2.mapLanes m fun _ y => y.resumeAt tpc (h.tr.tcause.getLsbD 8)
    g3.nextPending (x.lrec.handler.setWidth 48)

end Sys2Proof.Machine
end

