-- ==== Sys2Proof/Machine/Xlate.lean ====
section
/-! DEFINITION. Translation (R76 to R79, R87, R88): the walk, its checks in the order of R78, and what a leaf names. -/

namespace Sys2Proof.Machine

/-- The kinds of access that R78 tells apart. -/
inductive Access where
  | fetch | read | write
  deriving DecidableEq, Repr

/-- The entry of a space (R73); unlisted entries are at reset. -/
def State.space (s : State) (n : Nat) : SpaceEnt :=
  ((s.spaces.find? fun p => p.1 = n).map Prod.snd).getD
    { sgen := 0, pasid := 0, pasv := false, ctx := 0, key := 0, nullr := true, cur := 0 }

/-- A root slot (R74); unlisted slots are at reset. -/
def State.root (s : State) (n : Nat) : RootSlot :=
  ((s.roots.find? fun p => p.1 = n).map Prod.snd).getD { pins := 0, gen := 0, state := 0, space := 0, root := 0 }

/-- The space table with an entry set. -/
def State.setSpace (s : State) (n : Nat) (e : SpaceEnt) : State := { s with spaces := assocSet s.spaces n e }

/-- The root registry with a slot set. -/
def State.setRoot (s : State) (n : Nat) (r : RootSlot) : State := { s with roots := assocSet s.roots n r }

/-- A lease-table entry (R372); unlisted entries are at reset. -/
def State.lease (s : State) (n : Nat) : Lease :=
  (assocGet s.leases n).getD
    { grace := 1953125, key := 0, state := 0, port := 0, lender := 0, size := 0, base := 0, graceEnd := none, fenced := false }

/-- The bound of local HBM (R367). -/
def State.hbmEnd (s : State) : Nat := s.memsz * 2 ^ 30

/-- Bits `hi` to `lo` of a number. -/
def nbits (v hi lo : Nat) : Nat := v / 2 ^ lo % 2 ^ (hi + 1 - lo)

/-- The fields of a translation entry (R77). -/
def teV (e : DWord) : Bool := e.getLsbD 0
def teL (e : DWord) : Bool := e.getLsbD 1
def teW (e : DWord) : Bool := e.getLsbD 2
def teX (e : DWord) : Bool := e.getLsbD 3
def teS (e : DWord) : Bool := e.getLsbD 4
def teP (e : DWord) : Bool := e.getLsbD 5
def teTier (e : DWord) : Nat := nbits e.toNat 7 6
def tePa (e : DWord) : Nat := nbits e.toNat 51 11 * 2 ^ 11
def teLease (e : DWord) : Nat := nbits e.toNat 59 52

/-- log2 of the bytes a leaf of a level maps (R76). -/
def pageBits (level : Nat) : Nat := 40 - 8 * level

/-- Row 2 of R78. -/
def State.teBad (s : State) (level : Nat) (e : DWord) : Bool :=
  let n := e.toNat
  nbits n 63 60 ≠ 0 || nbits n 10 8 ≠ 0 ||
  if teL e then
    level = 0 || teTier e = 3 || (teLease e ≠ 0 && teTier e ≠ 1) || tePa e % 2 ^ pageBits level ≠ 0
      || (teTier e = 0 && s.hbmEnd < tePa e + 2 ^ pageBits level)
  else
    level = 3 || nbits n 7 2 ≠ 0 || teLease e ≠ 0 || s.hbmEnd ≤ tePa e

/-- The first byte of the 64-byte line of a location. -/
def lineOf (l : Loc) : Loc :=
  match l with
  | .loc b o => .loc b (o / 64 * 64)
  | .tun d o => .tun d (o / 64 * 64)
  | .hbm a => .hbm (a / 64 * 64)
  | .lender e a => .lender e (a / 64 * 64)
  | .host p a => .host p (a / 64 * 64)

/-- A frame of the poison list (R378). -/
def State.poisoned (s : State) (l : Loc) : Bool :=
  match l with
  | .lender e a => s.poison.contains ((s.lease e).lender, a / 2 ^ 16)
  | _ => false

/-- A line that fails with a cause: a half of it is listed. -/
def State.badLine (s : State) (ln : Loc) (c : BitVec 8) : Bool := s.faults.contains (ln, c) || s.faults.contains (ln.add 32, c)

/-- The entries of the list of failing lines for one line. -/
def badHalves (ln : Loc) (c : BitVec 8) : List (Loc × BitVec 8) := [(ln, c), (ln.add 32, c)]

/-- What tells a key apart: the bytes of the key that a slot holds; a slot that holds none has one of its own. -/
def State.keyLabel (s : State) (slot : Nat) : Nat := match assocGet s.keys slot with | some k => leNat k | none => 2 ^ 256 + slot

/-- What a read of a main-memory line reports (R345, R368 to R371, R378): ECC_UNCORR with the physical address, or, with
protection on, INTEGRITY with the VA. Host lines are not protected. -/
def State.lineCheck (s : State) (key : Nat) (l : Loc) (va : DWord) : Option Trap :=
  let ln := lineOf l
  if s.badLine ln Cause.eccUncorr then some { cause := Cause.eccUncorr, tval := BitVec.ofNat 64 l.pa, at_ := some l }
  else
    let own := (match l with | .lender e _ => (s.lease e).key | _ => key)
    let tier2 := (match l with | .host _ _ => true | _ => false)
    if s.prot && !tier2 && (s.badLine ln Cause.integrity || s.poisoned l
        || (match assocGet s.lineKeys ln with | some k => k ≠ s.keyLabel own | none => false)) then
      some { cause := Cause.integrity, tval := va, at_ := some l }
    else none

/-- An 8-byte entry of a node, from the die's node cache if it holds it (R88). -/
def State.nodeEntry (s : State) (d : Die) (pa : Nat) : DWord :=
  match s.nodeCache.find? fun p => p.1 = d && p.2.1 = pa with
  | some p => p.2.2
  | none => BitVec.ofNat 64 (leNat (s.hbm.read pa 8))

/-- The index of a level (R76). -/
def vaIndex (va level : Nat) : Nat := nbits va (47 - 8 * level) (40 - 8 * level)

/-- A local address in a range lent to a peer: it is refused to every other requester, and the counter tree does not cover it (R374). -/
def State.lent (s : State) (pa : Nat) : Bool := s.lends.any fun l => l.base ≤ pa && pa < l.base + l.size * 2 ^ 30

/-- What the read of an entry of a node that the node cache does not hold reports: LEASE_REVOKED in a range that is lent (R374, log 47), or
what its line fails with (R368, R369). -/
def State.nodeFails (s : State) (d : Die) (key va pa : Nat) : Option Trap :=
  if s.nodeCache.any fun p => p.1 = d && p.2.1 = pa then none
  else if s.lent pa then some { cause := Cause.leaseRevoked, tval := BitVec.ofNat 64 va }
  else s.lineCheck key (.hbm pa) (BitVec.ofNat 64 va)

/-- A walk from a node of a level (R76, R78 rows 1 and 2), under a protection key: the leaf and its level. -/
def State.walkFrom (s : State) (d : Die) (key va fuel level node : Nat) : Except Trap (DWord × Nat) :=
  match fuel with
  | 0 => .error { cause := Cause.xlateFormat, tval := BitVec.ofNat 64 va }
  | n + 1 =>
    let pa := node + 8 * vaIndex va level
    match s.nodeFails d key va pa with
    | some t => .error t
    | none =>
      let e := s.nodeEntry d pa
      if !teV e then .error { cause := Cause.xlateNp, tval := BitVec.ofNat 64 va }
      else if s.teBad level e then .error { cause := Cause.xlateFormat, tval := BitVec.ofNat 64 va }
      else if teL e then .ok (e, level)
      else s.walkFrom d key va n (level + 1) (tePa e)

/-- The walk of a VA under a root slot (R76, R78): a ROOT outside local HBM raises XLATE_FORMAT. -/
def State.walk (s : State) (d : Die) (key slot va : Nat) : Except Trap (DWord × Nat) :=
  let r := (s.root slot).root
  if s.hbmEnd ≤ r then .error { cause := Cause.xlateFormat, tval := BitVec.ofNat 64 va }
  else s.walkFrom d key va 4 0 r

/-- A TLB entry that hits (R87): the pinned slot and its current GEN. -/
def State.tlbHit (s : State) (d : Die) (core : Option Nat) (slot va : Nat) : Option TlbEnt :=
  (s.tlb.find? fun p => p.1 = d && (p.2.1 = core || p.2.1 = none) && p.2.2.slot = slot && p.2.2.gen = (s.root slot).gen
    && p.2.2.page ≤ va && va < p.2.2.page + p.2.2.size).map fun p => p.2.2

/-- Whether a lease still allows an access at a lender's address (R373): a lost port (R382) and a lender that has fenced the range (R374)
refuse it, whatever the entry says. -/
def State.leaseOk (s : State) (i pa : Nat) : Bool :=
  let e := s.lease i
  (e.state = 1 || e.state = 2) && !e.fenced && !s.downPorts.contains e.port && e.base ≤ pa && pa < e.base + e.size * 2 ^ 30

/-- The PASID that a space's host accesses carry (R95). -/
def SpaceEnt.hostPasid (e : SpaceEnt) : Option (BitVec 20) := if e.pasv then some e.pasid else none

/-- The place that a leaf's tier gives a physical address (R77). -/
def tierLoc (ps : Option (BitVec 20)) (leaf : DWord) (pa : Nat) : Loc :=
  match teTier leaf with | 1 => .lender (teLease leaf) pa | 2 => .host ps pa | _ => .hbm pa

/-- Rows 3 to 7 of R78, at a leaf, and what the leaf names: `page` is the VA the leaf's page begins at, `ps` the space's PASID. An access of the
device's own to a range it has lent is refused with LEASE_REVOKED (R374; the cause is a DESIGN CHOICE, log 47). -/
def State.leafLoc (s : State) (ps : Option (BitVec 20)) (leaf : DWord) (page va : Nat) (acc : Access) : Except Trap Loc :=
  let pa := tePa leaf + (va - page)
  let err : BitVec 8 → Except Trap Loc := fun c => .error { cause := c, tval := BitVec.ofNat 64 va }
  if teP leaf then .error { cause := Cause.pagePoison, tval := BitVec.ofNat 64 va, at_ := some (tierLoc ps leaf pa) }
  else if acc = .fetch && !teX leaf then err Cause.xlatePerm
  else if acc = .write && !teW leaf then err Cause.xlatePerm
  else if acc = .write && teS leaf then err Cause.cow
  else if teTier leaf = 1 then
    if s.leaseOk (teLease leaf) pa then .ok (.lender (teLease leaf) pa) else err Cause.leaseRevoked
  else if teTier leaf = 2 then .ok (.host ps pa)
  else if s.lent pa then err Cause.leaseRevoked
  else .ok (.hbm pa)

/-- Translation of a VA for a requester that pins `slot` (R79, R84, R87): a TLB hit, or the walk. -/
def State.translate (s : State) (d : Die) (core : Option Nat) (key slot va : Nat) (acc : Access) : Except Trap Loc :=
  let ps := (s.space (s.root slot).space).hostPasid
  match s.tlbHit d core slot va with
  | some e => s.leafLoc ps e.leaf e.page va acc
  | none =>
    match s.walk d key slot va with
    | .error t => .error t
    | .ok (leaf, level) => s.leafLoc ps leaf (va / 2 ^ pageBits level * 2 ^ pageBits level) va acc

/-- Translation for a block, with its die, core, space key and pinned slot (R84). -/
def State.translateFor (s : State) (x : Block) (va : Nat) (acc : Access) : Except Trap Loc :=
  s.translate x.die (some (x.die.val * 96 + x.core)) (s.space x.space).key x.rootSlot va acc

/-- Bytes of main memory read through a translated location: the lines' checks (R368, R369), then the bytes. -/
def State.readMain (s : State) (key : Nat) (l : Loc) (n : Nat) (va : DWord) : Except Trap (List Byte) :=
  match s.lineCheck key l va with
  | some t => .error t
  | none =>
    match s.lineCheck key (l.add (n - 1)) va with
    | some t => .error t
    | none => .ok (s.readLoc l n)

/-- The fetch of an instruction word or a header for a block (R79, R78 row 4). -/
def State.fetchWord (s : State) (x : Block) (va : Va) : Except Trap Word :=
  match s.translateFor x va.toNat .fetch with
  | .error t => .error t
  | .ok l =>
    match s.readMain (s.space x.space).key l 4 (va.setWidth 64) with
    | .error t => .error t
    | .ok bs => .ok (BitVec.ofNat 32 (leNat bs))

end Sys2Proof.Machine
end

