-- ==== Sys2Proof/Machine/Result.lean ====
section
/-! DEFINITION. What a pending variable-latency word returns: the words that the bytes of its accesses make (R194, R196, R259). -/

namespace Sys2Proof.Machine

/-- The words that LD's bytes make: one, extended by wf, or the pair (R194). -/
def wfWords (wf : BitVec 4) (bs : List Byte) : List Word :=
  let n := leNat bs
  match wf.toNat with
  | 1 => [(BitVec.ofNat 8 n).signExtend 32]
  | 3 => [(BitVec.ofNat 16 n).signExtend 32]
  | 15 => [BitVec.ofNat 32 n, BitVec.ofNat 32 (n / 2 ^ 32)]
  | _ => [BitVec.ofNat 32 n]

/-- Element `l` of a unit's bytes (R126, R128). -/
def mxElem (bs : List Byte) (l : Nat) : Nat :=
  let n := leNat (bs.take (bs.length - 1))
  match bs.length with
  | 33 => nbits n (8 * l + 7) (8 * l)
  | 25 => nbits n (6 * l + 5) (6 * l)
  | _ => nbits n (4 * l + 3) (4 * l)

/-- The scale byte of a unit. -/
def unitScale (bs : List Byte) : Nat := (bs.getLastD 0).toNat

/-- The access of a lane, by the lane or by the unit that its lane shares. -/
def Pend.accOfLane (p : Pend) (l : Nat) : Option LaneAcc :=
  match p.kind with
  | .mxload => p.accs.find? fun a => nbits (leNat a.data2) l l = 1
  | .tbrd => p.accs.head?
  | _ => p.accs.find? fun a => a.lane = l

/-- The words of a pending word's destination `j`, lane by lane. -/
def Pend.result (p : Pend) (j l : Nat) : Word :=
  match p.kind, p.accOfLane l with
  | .load, some a => (wfWords (BitVec.ofNat 4 p.code) a.ret).getD j 0
  | .mxload, some a => BitVec.ofNat 32 (unitScale a.ret * 2 ^ 24 + mxElem a.ret l)
  | .atomic, some a => BitVec.ofNat 32 (leNat a.ret / 2 ^ (32 * j))
  | .tbrd, some a => BitVec.ofNat 32 (leNat a.ret / 2 ^ (32 * j))
  | _, _ => match p.vals[j]? with
    | some v => v.toArray.getD l 0
    | none => 0

/-- Whether a lane's result of a pending word is there, though its completion event is still to come. -/
def Pend.known (p : Pend) (l : Nat) : Bool :=
  match p.kind with
  | .transc | .aqpop => !p.vals.isEmpty
  | _ => (match p.accOfLane l with | some a => a.performed | none => false)

/-- A pending word's destinations, numbered. -/
def Pend.dests (p : Pend) : List (Nat × Nat × Tags) := p.dst.mapIdx fun j d => (j, d.1, d.2)

/-- Another write lands in lanes of a register, for which a variable-latency result is outstanding (R104). -/
def Pend.clobber (p : Pend) (n : Nat) (m : Word) : Pend :=
  if p.dst.any fun r => r.1 = n then { p with clobbered := p.clobbered ++ [(n, m)] } else p

/-- The lanes of a destination that another write outstanding with the word names. -/
def Pend.contested (p : Pend) (n : Nat) : Word := ((p.clobbered.filter fun q => q.1 = n).map Prod.snd).foldl (· ||| ·) 0

/-! ### Performing (R231, R233, R239, R243) -/

/-- The classes of R231. -/
inductive AccClass where
  | load | store | atom | copy
  deriving DecidableEq, Repr

/-- The bit of a class in a predecessor or successor set (R107). -/
def AccClass.bit (c : AccClass) : Nat := match c with | .load => 0 | .store => 1 | .atom => 2 | .copy => 3

/-- The class of a pending word, if the machine orders it. -/
def PendKind.cls (k : PendKind) : Option AccClass :=
  match k with
  | .load | .mxload | .tbrd => some .load
  | .store | .mxstore => some .store
  | .atomic | .lockop => some .atom
  | .transc | .aqpop => none

/-- The record that tells of a word's refusal (R376) is not resolved yet. -/
def Gang.told (y : Gang) (p : Pend) : Bool := (match p.refused with | some n => y.sys.any (fun r => r.n = n) | none => false)

/-- An access that has been refused and is not to be sent again, as things stand. -/
def Gang.halted (y : Gang) (p : Pend) (a : LaneAcc) : Bool := a.refused && y.told p

/-- A pending word without the accesses of some lanes. -/
def Pend.without (p : Pend) (m : Word) : Pend := { p with mask := p.mask &&& ~~~m, accs := p.accs.filter fun a => !m.getLsbD a.lane }

/-- A pending word is performed when all its lanes are. -/
def Pend.performed (p : Pend) : Bool := p.accs.all (·.performed)

/-- The same with the places they name. -/
def Pend.places (p : Pend) : List (DWord × Nat × Loc) := if p.space = 3 then [] else p.accs.map fun a => (a.ua, a.size, a.loc)

/-- Whether a pending word is a read in the sense of R239: a load, or an atomic that returns a value. -/
def Pend.isRead (p : Pend) : Bool :=
  match p.kind with
  | .load | .mxload => true
  | .atomic => !p.dst.isEmpty
  | .lockop => p.code < 2
  | _ => false

/-- The pending word with a number. -/
def Gang.pend? (y : Gang) (id : Nat) : Option Pend := y.pends.find? fun p => p.id = id

/-- A pending word replaced. -/
def Gang.setPend (y : Gang) (p : Pend) : Gang := { y with pends := y.pends.map fun q => if q.id = p.id then p else q }

/-- A lane's access marked performed, with the bytes returned. -/
def Pend.perform (p : Pend) (lane : Nat) (ret : List Byte) : Pend :=
  { p with accs := p.accs.map fun a => if a.lane = lane then { a with performed := true, ret := ret } else a }

/-- A lane of LKR or LKW waits at its site (R270). -/
def Pend.queue (p : Pend) (lane : Nat) : Pend :=
  { p with accs := p.accs.map fun a => if a.lane = lane then { a with data2 := [1] } else a }

/-- A lane's lock access waits at its site. -/
def LaneAcc.queued (a : LaneAcc) : Bool := !a.data2.isEmpty

/-- A lane of LKR or LKW has not acquired: it is no access of its word (R264). -/
def Pend.refuse (p : Pend) (lane : Nat) : Pend := { p with accs := p.accs.filter fun a => a.lane ≠ lane }

/-- Reads that have been performed are noted while an earlier one is outstanding (R243). -/
def Gang.noteReads (y : Gang) (d : List (Nat × Nat × List (DWord × Nat × Loc))) : Gang :=
  let least := (y.pends.filter fun q => q.isRead && !q.performed).map (·.seq)
  { y with doneReads := (y.doneReads ++ d).filter fun e => least.any fun m => m < e.1 }

/-- A pending read has been performed. -/
def Gang.noteRead (y : Gang) (p : Pend) : Gang :=
  y.noteReads (match p.kind.cls with
    | some c => if p.isRead && p.performed then [(p.seq, c.bit, p.places)] else []
    | none => [])

/-- SLWAIT returns: a read of the word that the watched gill is for (R246), in class R. -/
def Gang.noteSlwait (y : Gang) (b off : Nat) : Gang :=
  { y.noteReads [(y.seq, 0, [(BitVec.ofNat 64 (off + 0x7F00 * 2 ^ 48), 16, .loc b off)])] with seq := y.seq + 1 }

/-- A pending word removed, its counter lowered. -/
def Gang.dropPend (y : Gang) (id : Nat) : Gang :=
  match y.pends.find? fun p => p.id = id with
  | none => y
  | some p => ({ y with pends := y.pends.filter fun q => q.id ≠ id } : Gang).decD p.dc

/-- A lane's LKR or LKW ends, acquired or not (R264, R270). -/
def Gang.lockEnd (y : Gang) (lane : Nat) (v : Bool) : Gang :=
  match y.pends.find? fun p => p.kind = .lockop && p.code < 2 && p.accs.any fun a => a.lane = lane && !a.performed with
  | none => y
  | some p =>
    let p' := if v then p.perform lane [] else p.refuse lane
    let y1 := (y.setPend p').noteRead p'
    if p'.performed then y1.dropPend p.id else y1

/-- Whether a pending word's result is there. -/
def Pend.ready (p : Pend) : Bool := p.performed && (p.kind ≠ .aqpop || !p.vals.isEmpty)

/-- A pending word that returns nothing leaves when its last lane is performed (R100); in an evicted block, at its restore (R346). -/
def State.finishPend (s : State) (b g id : Nat) : State :=
  match s.gang? b g with
  | none => s
  | some (x, y) =>
    match y.pend? id with
    | some p => if x.residence ≠ .evicted && p.performed && p.dst.isEmpty && (p.kind = .store || p.kind = .mxstore || p.kind = .lockop || p.kind = .atomic) then
        s.setGang b g (y.dropPend id) else s
    | none => s

end Sys2Proof.Machine
end

