-- ==== Sys2Proof/Machine/Issue.lean ====
section
/-! DEFINITION. Issue of one word (R60 to R68, R98 to R104, R111): which lanes issue, the fates in their order, the scoreboard,
the issue charge, the region entry, the word's effect, and where its lanes go next. Every meaning of an encoded word is
`issueWord` of its attributes and its effect. -/

namespace Sys2Proof.Machine

/-! ### Fragments and the fairness timer -/

/-- Whether two lanes at one VPC stand alike: both at a header, however reached, or in one clause (log 21). -/
def samePos (a b : LanePos) : Bool :=
  match a, b with
  | .header _, .header _ => true
  | .clause p h n, .clause p' h' n' => p = p' && h = h' && n = n'
  | _, _ => false

/-- The fragment of least VPC among candidate lanes (R60): the lanes that share it and stand in the same clause. -/
def Gang.leastFragment (y : Gang) (cand : Word) : Word :=
  match lanesOf cand with
  | [] => 0
  | l0 :: r =>
    let b := r.foldl (fun a l => if (y.lane l).pc < (y.lane a).pc then l else a) l0
    maskOf fun l => cand.getLsbD l && (y.lane l).pc = (y.lane b).pc && samePos (y.lane l).pos (y.lane b).pos

/-- Lanes whose fragments have a lane in a mask: those that stand where one of the mask's lanes stands. -/
def Gang.fragmentsOf (y : Gang) (m : Word) : Word :=
  maskOf fun l => y.awake.getLsbD l && (lanesOf m).any fun k => (y.lane k).pc = (y.lane l).pc

/-- The next turn of a sweep, or the sweep's end (R63). -/
def Gang.nextTurn (y : Gang) : Gang :=
  let f := y.leastFragment (y.awake &&& ~~~ y.fragmentsOf (y.srvd &&& y.live))
  if f = 0 then { y with sweep := false, turn := none, fcnt := 0, srvd := 0 } else { y with turn := some (f, 0, 0) }

/-- FCNT has reached FAIR: a sweep starts, with SRVD holding the lanes of the last issue set (R63). -/
def Gang.sweepDue (y : Gang) : Bool := !y.sweep && y.fair.toNat ≤ y.fcnt

/-- Live lanes, suspended ones included, that stand where one of a mask's lanes stands. -/
def Gang.standing (y : Gang) (m : Word) : Word :=
  maskOf fun l => y.live.getLsbD l && (lanesOf m).any fun k => (y.lane k).pc = (y.lane l).pc

/-- The turn in progress has ended (R63): FAIR issues, or no followed lane awake, or a merge with another fragment. Before its first
issue, suspended lanes at the same place belong to the turn's own fragment. -/
def Gang.turnDone (y : Gang) : Bool :=
  match y.turn with
  | none => y.sweep
  | some (t, _, n) =>
    let a := t &&& y.awake
    let f := y.leastFragment a
    y.fair.toNat ≤ n || a = 0 || ((if n = 0 then y.fragmentsOf f else y.standing f) &&& ~~~t) ≠ 0

/-- A sweep starts (FAIRNESS_SWEEP). -/
def Gang.startSweep (y : Gang) : Gang := { y with sweep := true, turn := none }.nextTurn

/-- A turn ends: the lanes it issued for are served, and the next turn or the sweep's end follows (FAIRNESS_TURN_END). -/
def Gang.endTurn (y : Gang) : Gang :=
  match y.turn with
  | none => y.nextTurn
  | some (_, iss, _) => { y with srvd := y.srvd ||| iss, turn := none }.nextTurn

/-- The fairness timer brought up to date before an issue. -/
def Gang.fairUpdate (y : Gang) : Gang := if y.sweepDue then y.startSweep else if y.turnDone then y.endTurn else y

/-- The issue set (R60, R63). -/
def Gang.issueSet (y : Gang) : Word :=
  match y.turn with
  | some (t, _, _) => y.leastFragment (t &&& y.awake)
  | none => y.leastFragment y.awake

/-- The fairness count of an issue by `m`, judged on the gang as it stood before the issue (`old`, R63). In a turn, the part that is
followed counts as issued for; a part split off is still unserved. -/
def Gang.fairCount (y old : Gang) (m : Word) : Gang :=
  match y.turn with
  | some (_, iss, n) =>
    let awake := m &&& y.awake
    let f := y.leastFragment awake
    if f = 0 then { y with srvd := y.srvd ||| iss ||| m, turn := none }
    else { y with turn := some (f, (iss ||| m) &&& ~~~(awake &&& ~~~f), n + 1) }
  | none =>
    if (old.awake &&& ~~~m) ≠ 0 then
      let n := y.fcnt + 1
      if y.fair.toNat ≤ n then { y with fcnt := n, srvd := m } else { y with fcnt := n }
    else { y with fcnt := 0 }

/-- Between two turns, and before its first, a sweep ends as soon as no fragment without served lanes is awake (R63). -/
def Gang.sweepOver (y : Gang) : Gang :=
  if (y.sweep || y.sweepDue) && y.turn.isNone && y.leastFragment (y.awake &&& ~~~ y.fragmentsOf (y.srvd &&& y.live)) = 0 then
    { y with sweep := false, fcnt := 0, srvd := 0 }
  else y

/-- A turn whose followed lanes have all become suspended, without an issue, has ended (R63). -/
def Gang.settleTurn (y : Gang) : Gang :=
  match y.turn with
  | some (t, iss, _) => if t &&& y.awake = 0 then { y with srvd := y.srvd ||| iss, turn := none }.sweepOver else y
  | none => y

/-! ### Clause positions -/

/-- N of a header (R97). -/
def hdrN (h : Word) : Nat := (h.extractLsb' 28 4).toNat
/-- CLASS of a header. -/
def hdrClass (h : Word) : Nat := (h.extractLsb' 25 3).toNat
/-- RE of a header. -/
def hdrRE (h : Word) : Bool := h.getLsbD 24
/-- WAIT of a header. -/
def hdrWait (h : Word) : BitVec 7 := h.extractLsb' 16 7
/-- DCi of a header, i from 0 to 4. -/
def hdrDc (h : Word) (i : Nat) : Nat := (h.extractLsb' (3 * i) 3).toNat
/-- A malformed header (R99). -/
def hdrBad (h : Word) : Bool :=
  hdrN h = 0 || h.getLsbD 23 || h.getLsbD 15 || (List.range 5).any fun i => hdrDc h i = 7

/-- The address of the header after a clause. -/
def nextHeader (hpc : Va) (h : Word) : Va := hpc + BitVec.ofNat 48 (4 * (hdrN h + 1))

/-- A lane past the word it stands at (R96): the next word of the clause, or the next header. -/
def Lane.advance (l : Lane) (varLat : Bool) : Lane :=
  match l.pos with
  | .clause hpc h nvl =>
    let pc := l.pc + 4
    let n := if varLat then nvl + 1 else nvl
    { l with pc := pc, pos := if pc = nextHeader hpc h then .header .fell else .clause hpc h n,
             bpPass := false, vlHere := false }
  | .header _ => l

/-- A lane moved to a header by a transfer (R99). -/
def Lane.goto (l : Lane) (pc : Va) : Lane :=
  { l with pc := pc, pos := .header .transferred, bpPass := false, vlHere := false }

/-! ### WAITK (R66, R176) -/

/-- The lanes that wait on Kn. -/
def Gang.waitersK (y : Gang) (n : Nat) : Word :=
  maskOf fun l => y.live.getLsbD l && (match (y.lane l).wait with | .waitk k _ => k = n | _ => false)

/-- The release of the lanes that wait on Kn, if the release condition holds (R66): they go past the lowest-addressed WAITK
among theirs, as one fragment, and each counts a release (R176). -/
def Gang.releaseK (y : Gang) (n : Nat) : Gang :=
  let w := y.waitersK n
  if w = 0 || (y.getK n &&& y.live &&& ~~~w) ≠ 0 then y
  else
    match lanesOf w with
    | [] => y
    | l0 :: r =>
      let b := r.foldl (fun a l => if (y.lane l).pc < (y.lane a).pc then l else a) l0
      let t := (y.lane b).advance false
      y.mapLanes w fun _ l =>
        { l with pc := t.pc, pos := t.pos, wait := .none, relCount := l.relCount + 1, relSeen := l.relSeen + 1,
                 bpPass := false, vlHere := false }

/-- The release test of every mask (R66). -/
def Gang.settleK (y : Gang) : Gang := (List.range 12).foldl (fun g n => g.releaseK n) y

/-! ### Budgets (R43 to R45) -/

/-- The entry with a number. -/
def State.entry? (s : State) (e : Nat) : Option Entry := s.entries.find? fun x => x.id = e

/-- An entry replaced under its number. -/
def State.setEntry (s : State) (e : Entry) : State :=
  { s with entries := s.entries.map fun x => if x.id = e.id then e else x }

/-- A class is exhausted, and its overrun is not resolved (R44). -/
def Entry.exhausted (e : Entry) (cls : Nat) : Bool :=
  (match e.overrun with | some (c, _) => c = cls | none => false) || e.overNext.any fun p => p.1 = cls

/-- The shortfall of a charge in a class, if it exceeds the entry's remaining budget, or if the class is exhausted: until its overrun is
resolved every charge in it is held (R44). -/
def Entry.shortfall (e : Entry) (cls n : Nat) : Option Nat :=
  match e.rem[cls]? with
  | some (some r) => if r < n || e.exhausted cls then some (n - r) else none
  | _ => none

/-- A charge (R43). -/
def Entry.charge (e : Entry) (cls n : Nat) : Entry :=
  { e with rem := e.rem.modify cls (fun r => r.map (· - n)), used := e.used.modify cls (· + n) }

/-- A charge to the entry of a block. -/
def State.charge (s : State) (ent cls n : Nat) : State :=
  match s.entry? ent with
  | some e => s.setEntry (e.charge cls n)
  | none => s

/-- The shortfall of a charge to the entry of a block. -/
def State.shortfall (s : State) (ent cls n : Nat) : Option Nat :=
  match s.entry? ent with
  | some e => e.shortfall cls n
  | none => none

/-- The lanes of an entry's blocks that are held in a class go on (R45). -/
def State.releaseHeld (s : State) (ent : Nat) (p : Nat → Bool) : State :=
  { s with blocks := s.blocks.map fun x =>
      if x.entry = ent then
        { x with gangs := x.gangs.map fun y =>
            y.mapLanes y.live fun _ l => match l.wait with | .budget c => if p c then { l with wait := .none } else l | _ => l }
      else x }

/-- DEMOTE (R45): the entry leaves the admission set and runs as background, with no limit in any class. -/
def State.demote (s : State) (ent : Nat) : State :=
  match s.entry? ent with
  | some e =>
    let s1 := (s.setEntry { e with deadline := none, demoted := true, rem := [none, none, none], overrun := none, overNext := [] }).releaseHeld
      ent fun _ => true
    { s1 with blocks := s1.blocks.map fun x =>
        if x.entry = ent then { x with deadline := none, rep := [none, none, none], repD := none } else x }
  | none => s

/-- The other half of a split launch (R39). -/
def Entry.twin (e : Entry) : Option Nat := match e.half with | .home p _ => some p | .peer h => some h | _ => none

/-- A budget report reaches a block (R43, R182): its entry's remainders, and D less FCYC. -/
def Block.report (x : Block) (e : Entry) (fcyc cyc : Nat) : Block :=
  { x with rep := e.rem, repD := e.deadline.map fun d => (d : Int) - fcyc, repCyc := cyc }

/-- The admitted entry that a half belongs to (R39): the home's. -/
def State.owner (s : State) (ent : Nat) : Nat :=
  match s.entry? ent with
  | some e => (match e.half with | .peer h => h | _ => ent)
  | none => ent

/-- The overrun record of an entry (R45). -/
def Entry.overRec (e : Entry) (cls short : Nat) : OverrunRec :=
  { die := e.die, q := e.q, idx := e.idx, cls := cls, short := short, ctx := e.ctx }

/-- OVERRUN of an entry is raised in a class, and the resolved policy applies (R45): TRAP posts an overrun record; ABORT ends the
entry. -/
def State.raiseOverrun (s : State) (e : Entry) (cls short : Nat) : State :=
  let s1 := s.setEntry { e with overrun := some (cls, short), overAt := s.fcyc[e.die] }
  if e.policy = 2 then (match e.twin with | some o => (s1.demote e.id).demote o | none => s1.demote e.id)
  else if e.policy = 3 then { s1 with aborts := s1.aborts ++ [(e.id, 2, Cause.overrun.toNat)] }
  else { s1 with overruns := s1.overruns ++ [e.overRec cls short] }

/-- A class of an entry is exhausted (R44): OVERRUN is raised once for it. A second class waits until the first is resolved; of two
exhausted in one cycle, the earlier in the order issue, matrix, access is named first. -/
def State.overrun (s : State) (ent cls short : Nat) : State :=
  match s.entry? ent with
  | none => s
  | some e =>
    match e.overrun with
    | none => s.raiseOverrun e cls short
    | some (c, n) =>
      if c = cls || e.overNext.any (fun p => p.1 = cls) then s
      else if cls < c && e.overAt = s.fcyc[e.die] && s.overruns.contains (e.overRec c n) then
        { s.setEntry { e with overrun := some (cls, short), overNext := (c, n) :: e.overNext } with
          overruns := s.overruns.map fun r => if r = e.overRec c n then e.overRec cls short else r }
      else s.setEntry { e with overNext := (e.overNext ++ [(cls, short)]).mergeSort fun a b => a.1 ≤ b.1 }

/-- The overrun of an entry is resolved (R44): the next exhausted class is raised. -/
def State.nextOverrun (s : State) (ent : Nat) : State :=
  match s.entry? ent with
  | none => s
  | some e => match e.overNext with
    | [] => s
    | (c, n) :: r => s.raiseOverrun { e with overNext := r } c n

/-! ### Attributes, effects and the issue itself -/

/-- The attributes of a word that the issue needs. -/
structure Info where
  /-- The class code of R97: 0 ALU, 1 matrix, 2 memory, 3 async, 4 control, 5 sync, 6 system. -/
  cls : Nat
  stall : BitVec 2
  nop : Bool := false
  transfer : Bool := false
  sideEff : Bool := false
  varLat : Bool := false
  apOnly : Bool := false
  sysWord : Bool := false
  /-- Row 7 of R111: register numbers (R105) and encoded indices against the block's reservation (R54). -/
  regsOk : Block → Bool := fun _ => true
  /-- Rows 6 and 8 of R111 for a CSR word: the number, and whether it writes. -/
  csr : Option (Nat × Bool) := none
  reads : List RegRef := []
  writes : List RegRef := []

/-- What the effect of a word is given: its block, its gang as the word reads it, and the issue set. -/
structure Ctx where
  b : Nat
  g : Nat
  m : Word
  pc : Va
  hpc : Va
  hdr : Word
  nvl : Nat
  x : Block
  y : Gang

/-- What a word's effect comes to. -/
inductive Eff where
  /-- It traps in its execution, and no state of its lanes changes (R7). -/
  | trap (t : Trap)
  /-- Its gang is not ready. -/
  | hold
  /-- Its gang is not ready, and has asked for what it waits for. -/
  | asked (s : State)
  /-- A charge in a class exceeds the remaining budget (R44). -/
  | exhausted (cls short : Nat)
  /-- Done: the state, and whether its lanes go on to the next word (otherwise the effect has placed them). -/
  | done (s : State) (next : Bool)

/-- The dependency counter of the clause's next variable-latency word (R100): 6 is none. -/
def Ctx.dc (c : Ctx) : Option Nat := let d := hdrDc c.hdr c.nvl; if d < 6 then some d else none

/-- Whether a word of this clause is its last. -/
def isLast (pc hpc : Va) (hdr : Word) : Bool := pc + 4 = nextHeader hpc hdr

/-- CSR numbers of R110, with whether user mode may write and whether system mode may. -/
def csrKnown (n : Nat) : Option (Bool × Bool) :=
  if n ≤ 3 || n = 0x10 || n = 0x11 || n = 0x30 then some (true, true)
  else if n = 0x12 || n = 0x13 || n = 0x14 || n = 0x15 || n = 0x16 || n = 0x20 then some (false, false)
  else if (0x21 ≤ n && n ≤ 0x28) || n = 0x31 || n = 0x32 then some (false, true)
  else if (0x200 ≤ n && n ≤ 0x203) || n = 0x208 then some (false, true)
  else none

/-- The word an ILLEGAL raised at issue reports (R337). -/
def State.focusWord (s : State) : DWord := match s.focus with | .gang _ _ _ _ _ _ w _ => w.setWidth 64 | _ => 0

/-- An ILLEGAL of an issue check carries the word (R337). -/
def State.illTrap (s : State) : Trap := { cause := Cause.illegal, tval := s.focusWord }

/-- Rows 3 to 10 of R111, in order: the trap, with the address it is reported at. -/
def fate (s : State) (i : Info) (x : Block) (pc hpc : Va) (hdr w : Word) (nvl : Nat) : Option (Trap × Va) :=
  let ill : Option (Trap × Va) := some ({ cause := Cause.illegal, tval := w.setWidth 64 }, pc)
  let c := hdrClass hdr
  let last := isLast pc hpc hdr
  if !(c = 7 || i.cls = c || i.nop || (i.cls = 4 && last)) then ill
  else if i.transfer && !last then ill
  else if i.apOnly then ill
  else if !x.sys && (i.sysWord || (match i.csr with | some (n, _) => 0x200 ≤ n && n ≤ 0x3FF | none => false)) then
    some ({ cause := Cause.priv, tval := w.setWidth 64 }, pc)
  else if !i.regsOk x then ill
  else if (match i.csr with
      | some (n, wr) => (match csrKnown n with
        | none => true
        | some (u, sy) => wr && !(if x.sys then sy else u))
      | none => false) then ill
  else if i.varLat && 5 ≤ nvl then ill
  else if i.sideEff then
    let reg : Option (Trap × Va) := some ({ cause := Cause.region, tval := w.setWidth 64 }, pc)
    if !last then reg
    else match s.fetchWord x (pc + 4) with
      | .error t => some (t, pc + 4)
      | .ok h => if hdrRE h then none else reg
  else none

/-- A word is taken up by the lanes of `m`: the first word of an RE clause enters its region (R332), once; that of the clause at ENTRY or
HANDLER, without RE, may re-execute the region there. -/
def Gang.takeUp (y : Gang) (m : Word) (pc hpc : Va) (hdr : Word) : Gang :=
  if pc = hpc + 4 && hdrRE hdr then y.enterRegion m hpc
  else if pc = hpc + 4 then y.reexecute m hpc
  else y

/-- The register an in-flight result is for. -/
def OldReg.ref (o : OldReg) : RegRef :=
  match o with
  | .v n _ _ => .v n
  | .s n _ => .s n
  | .k n _ => .k n

/-- The fixed-latency results still in flight at the gang's issue clock (R103). -/
def Gang.inFlight (y : Gang) : List Flight := y.flights.filter fun f => y.clock - f.clock < f.lat

/-- STALL_SHORT (R104): the producer's address, if a register is not correctly spaced or has a variable-latency result
outstanding. Of several producers the latest is reported. -/
def Gang.short (y : Gang) (regs : List RegRef) : Option Va :=
  match (y.inFlight.filter fun f => regs.contains f.old.ref).getLast? with
  | some f => some f.producer
  | none => ((y.pends.filter fun p => p.dst.any fun r => regs.contains (.v r.1)).getLast?).map (·.pc)

/-- A K register that an issued ULR or ULW still has to write: a word that names it waits (R271). -/
def Gang.kBusy (y : Gang) (regs : List RegRef) : Bool :=
  y.pends.any fun p => p.kind = .lockop && 2 ≤ p.code && (match p.kd with | some n => regs.contains (.k n) | none => false)

/-- A destination of a pending word, in lanes that a free bit picks among those whose result is there (R104). -/
def Gang.setResult (y : Gang) (p : Pend) (d : Nat × Nat × Tags) (m : Word) : Gang :=
  y.setV d.2.1 m (Vector.ofFn fun l => p.result d.1 l.val) d.2.2

/-- The gang as a word with CHECK = 0 reads it (R104): each lane of each register read too early holds the old or the new value,
by a free bit; the new value of a variable-latency result is there once its lane's result is. -/
def Gang.early (y : Gang) (regs : List RegRef) (fresh : Nat) : Gang :=
  let pick : Nat → Word := fun n => maskOf fun l => Config.freeBit (n + l)
  let a := (y.inFlight.filter fun f => regs.contains f.old.ref && !f.landed).reverse.foldl (fun (p : Gang × Nat) f =>
    (match f.old with
      | .v n vals tags => p.1.setV n (pick p.2) vals tags
      | .s n w => if Config.freeBit p.2 then p.1.setS n w else p.1
      | .k n w => p.1.setK n ((p.1.getK n &&& ~~~pick p.2) ||| (w &&& pick p.2)), p.2 + 32)) (y, fresh)
  (y.pends.foldl (fun (q : Gang × Nat) p => p.dests.foldl (fun (r : Gang × Nat) d =>
    (if regs.contains (.v d.2.1) then r.1.setResult p d (p.mask &&& (maskOf p.known &&& pick r.2)) else r.1, r.2 + 32)) q) a).1

/-- The free bits that `early` may take. -/
def Gang.earlyBits (y : Gang) : Nat := 32 * (y.flights.length + (y.pends.flatMap Pend.dests).length)

/-- The cycles a word takes in the sum of R103: 1, or 2 in a mixed clause, and its stall (R102). -/
def wordWeight (hdr : Word) (stall : BitVec 2) : Nat :=
  (if hdrClass hdr = 7 then 2 else 1) + (match stall.toNat with | 3 => 4 | n => n)

/-- The cycles from a word's issue to the gang's next (R68, R98, R102): the word's stall cycles lie between them, and after a word of a
mixed clause the next issues two cycles later at the earliest. -/
def wordGap (hdr : Word) (stall : BitVec 2) : Nat :=
  max (1 + (match stall.toNat with | 3 => 4 | n => n)) (if hdrClass hdr = 7 then 2 else 1)

/-- A queue of a core's access processor (R212), by device-wide core number and queue. -/
def State.apq? (s : State) (d : Die) (core q : Nat) : Option ApQueue :=
  (s.apq.find? fun p => p.1 = (d.val * 96 + core, q)).map Prod.snd

/-- A claimed queue replaced. -/
def State.setApq (s : State) (d : Die) (core q : Nat) (a : ApQueue) : State :=
  { s with apq := s.apq.map fun p => if p.1 = (d.val * 96 + core, q) then (p.1, a) else p }

/-- A program ends with a status (R213, R217). -/
def ApQueue.finish (a : ApQueue) (status : Nat) : ApQueue := { a with ended := some status }

/-- The status MALFORMED of R217. -/
def stMalformed : Nat := 7

/-- A word that an address program may not hold ends the program with status MALFORMED (R111, R213). -/
def State.apMalformed (s : State) (d : Die) (core q : Nat) : State :=
  match s.apq? d core q with
  | some a => s.setApq d core q (a.finish stMalformed)
  | none => s

/-- The state after an attempt that did not make progress: the gang is not ready (R68). -/
def notReady (s : State) : Host.Outcome State Fault Refusal := .next { s with focus := .idle, progress := false }

/-- The state after an attempt that made progress. -/
def progressed (s : State) : Host.Outcome State Fault Refusal := .next { s with focus := .idle, progress := true }

/-- After a word's effect (R63, R66, R96, R103): the lanes go on, the issue clock runs, the region of a side-effecting word is
complete (R333), the meeting points are brought up to date, and the issue counts for fairness: lanes that a WAITK suspends and its own
release sets free again are followed further. -/
def Gang.retire (y old : Gang) (i : Info) (m : Word) (hdr : Word) (next : Bool) : Gang :=
  let y1 := if next then y.mapLanes m fun _ l => l.advance i.varLat else y
  let y2 := if i.sideEff then y1.mapLanes m fun _ l => (match l.wait with
    | .signed _ => l
    | _ => { l with complete := true }) else y1
  let y3 := { y2 with clock := y2.clock + wordWeight hdr i.stall, stall := wordGap hdr i.stall }
  let y4 := { y3 with flights := y3.inFlight }
  (y4.settleK.fairCount old m).sweepOver

/-- The issue of a word that trapped: it counts for the issue clock, the stall and fairness like any issue (R63, R102, R103). -/
def Gang.trapIssued (y old : Gang) (i : Info) (m hdr : Word) : Gang :=
  ({ y with clock := y.clock + wordWeight hdr i.stall, stall := wordGap hdr i.stall } : Gang).fairCount old m |>.sweepOver

/-- A word of the lanes `m` charged in a region; the regions that no lane is in any more, nor will be again when the handler ends, are
dropped. -/
def Gang.spend (y : Gang) (rg : Word × Bool) (m : Word) : Gang :=
  let n := (assocGet y.spent (rg, m)).getD 0
  let left : List (Nat × Lane) := match y.handler with | some h => h.saved | none => []
  { y with spent := (assocSet y.spent (rg, m) (n + 1)).filter fun p =>
      p.1.1 = rg || ((lanesOf y.live).any fun l => (y.lane l).region.recN = p.1.1.1) || left.any fun k => k.2.region.recN = p.1.1.1 }

/-- The REC of the region that an issue set's lowest lane is in, and whether that is a region of the handler. -/
def Gang.regionRec (y : Gang) (m : Word) : Word × Bool :=
  let l := (lowest m).getD 0
  ((y.lane l).region.recN, y.handling l)

/-- The word is held by an exhausted budget: its lanes are suspended there and OVERRUN is raised (R44). -/
def holdBudget (s : State) (b g : Nat) (m : Word) (ent cls short : Nat) : State :=
  (s.modGang b g fun y => (y.mapLanes m fun _ l => { l with wait := .budget cls }).settleTurn).overrun ent cls short

/-- The lanes of a word trap at it: they keep their places, noting whether the word is a variable-latency one. -/
def trapLanes (s : State) (i : Info) (b g : Nat) (m : Word) (pc : Va) (t : Trap) : State :=
  (s.modGang b g fun y => { y.mapLanes m fun _ l => { l with vlHere := i.varLat } with enqr := none }).takeTrap b g m pc t false

/-- A trap before the word issues: a turn that has no lane left to follow ends without counting it (R63). -/
def trapWord (s : State) (i : Info) (b g : Nat) (m : Word) (pc : Va) (t : Trap) : State :=
  (trapLanes s i b g m pc t).modGang b g Gang.settleTurn

/-- The issue of a word with attributes `i` and effect `eff` for the fragment that has the focus. In order: the fates of R111
rows 3 to 10; STALL_SHORT; a full dependency counter (R101); the issue budget (R44); the effect, which may trap, be held or be
exhausted; the charge (R43). The first word of an RE clause enters the region (R332). STALL_SHORT tests the destination of a
variable-latency word even where its DC is none, so that nothing is written (DESIGN CHOICE, log 157). -/
def issueWord (i : Info) (eff : Ctx → State → Eff) (s : State) : Host.Outcome State Fault Refusal :=
  match s.focus with
  | .idle => .fault .noIssuer
  | .ap d core q _ => progressed (s.apMalformed d core q)
  | .gang b g m pc hpc hdr w nvl =>
    match s.gang? b g with
    | none => .fault .noIssuer
    | some (x, y) =>
      let y1 := y.takeUp m pc hpc hdr
      let s1 := s.setGang b g y1
      match fate s i x pc hpc hdr w nvl with
      | some (t, at_) => progressed (trapWord s1 i b g m at_ t)
      | none =>
        let regs := i.reads ++ i.writes
        match (if y.check.getLsbD 0 then y.short regs else none) with
        | some p => progressed (trapWord s1 i b g m pc { cause := Cause.stallShort, tval := p.setWidth 64 })
        | none =>
          let yv := if y.check.getLsbD 0 then y1 else y1.early i.reads s.fresh
          let c : Ctx := { b := b, g := g, m := m, pc := pc, hpc := hpc, hdr := hdr, nvl := nvl, x := x, y := yv }
          if y.kBusy regs then notReady s
          else if i.varLat && (match c.dc with | some d => if h : d < 6 then y.d[d] = 63 else false | none => false) then notReady s
          else
            match s.shortfall x.entry 0 1 with
            | some n => progressed (holdBudget s b g m x.entry 0 n)
            | none =>
              match eff c { s1 with fresh := s.fresh + y.earlyBits } with
              | .hold => notReady s
              | .asked s2 => progressed s2
              | .exhausted cls n => progressed (holdBudget s b g m x.entry cls n)
              | .trap t =>
                progressed { (trapLanes ((s1.charge x.entry 0 1).modGang b g fun z => { z.spend (y1.regionRec m) m with lastIssue := s.issues + 1 })
                  i b g m pc t).modGang b g fun z => z.trapIssued y i m hdr with
                  issues := s.issues + 1 }
              | .done s2 next =>
                progressed ({ (s2.charge x.entry 0 1).modGang b g (fun y2 => { (y2.retire y i m hdr next).spend (y1.regionRec m) m with
                  lastIssue := s.issues + 1 }) with issues := s.issues + 1 })

end Sys2Proof.Machine
end

