-- ==== Sys2Proof/Machine/Flags.lean ====
section
/-! DEFINITION. Exception flags (R138, R140): what a lane raises, how FFLAGS takes it, and when FPX is raised instead. -/

namespace Sys2Proof.Machine

/-- The flags of one result, in FFLAGS order: NX, UF, OF, DZ, NV from bit 0 up (R138). -/
abbrev FlagSet := BitVec 5

def flagNX : FlagSet := 1#5
def flagUF : FlagSet := 2#5
def flagOF : FlagSet := 4#5
def flagDZ : FlagSet := 8#5
def flagNV : FlagSet := 16#5

/-- A flag set under a condition. -/
def flagIf (c : Bool) (f : FlagSet) : FlagSet := if c then f else 0#5

/-- The flags that any lane of a mask raises. -/
def flagsOr (m : Word) (fl : Nat → FlagSet) : FlagSet := (lanesOf m).foldl (fun a l => a ||| fl l) 0#5

/-- FPX (R140): the lowest lane that raises a flag enabled in FEXC, with TVAL its raised flags and its number. -/
def fpxTrap (m : Word) (fl : Nat → FlagSet) (fexc : Word) : Option Trap :=
  ((lanesOf m).find? fun l => (fl l &&& fexc.extractLsb' 0 5) ≠ 0#5).map fun l =>
    { cause := Cause.fpx, tval := BitVec.ofNat 64 ((fl l).toNat + 256 * l) }

end Sys2Proof.Machine
end

