-- ==== Sys2Proof/Machine/Operands.lean ====
section
/-! DEFINITION. Operand forms: active lanes (R144), predicates, register writes with their latency (R103), and the tag
checking classes (R133, R149). -/

namespace Sys2Proof.Machine

/-! ### Format tags (R109) -/

def tRAW : BitVec 5 := 0x00
def tI32 : BitVec 5 := 0x01
def tU32 : BitVec 5 := 0x02
def tI16X2 : BitVec 5 := 0x03
def tI8X4 : BitVec 5 := 0x04
def tF32 : BitVec 5 := 0x05
def tF16X2 : BitVec 5 := 0x06
def tBF16X2 : BitVec 5 := 0x07
def tE4M3X4 : BitVec 5 := 0x08
def tE5M2X4 : BitVec 5 := 0x09
def tMK8X4 : BitVec 5 := 0x0A
def tINT8X4 : BitVec 5 := 0x0B
def tE2M1X8 : BitVec 5 := 0x0C
def tE2M3X4 : BitVec 5 := 0x0D
def tE3M2X4 : BitVec 5 := 0x0E
def tI64LO : BitVec 5 := 0x18
def tI64HI : BitVec 5 := 0x19

/-- A packed tag: X2, X4 or X8 (R160). -/
def tagPacked (t : BitVec 5) : Bool := 3 ≤ t.toNat && t.toNat ≤ 0x0E && t ≠ tF32

/-- A scaled single, 0x10 to 0x16. -/
def tagScaled (t : BitVec 5) : Bool := 0x10 ≤ t.toNat && t.toNat ≤ 0x16

/-- Elements of a tag (R159). -/
def tagCount (t : BitVec 5) : Nat :=
  if t = tI16X2 || t = tF16X2 || t = tBF16X2 then 2
  else if t = tE2M1X8 then 8
  else if tagPacked t then 4
  else 1

/-! ### Active lanes -/

/-- The register a predicate field reads. -/
def pkReads (pk : BitVec 3) : List RegRef := if pk = 0 then [] else [.k pk.toNat]

/-- The active lanes (R144). -/
def Ctx.active (c : Ctx) (pk : BitVec 3) : Word := if pk = 0 then c.m else c.m &&& c.y.getK pk.toNat

/-- Per-lane values from a function of the lane. -/
def lanes (f : Nat → Word) : Lanes := Vector.ofFn fun i => f i.val

/-- Per-lane tags from a function of the lane. -/
def tags (f : Nat → BitVec 5) : Tags := Vector.ofFn fun i => f i.val

/-- V[n][l]. -/
def Ctx.v (c : Ctx) (n : BitVec 6) (l : Nat) : Word := (c.y.getV n.toNat).toArray.getD l 0

/-- tag(V[n][l]). -/
def Ctx.t (c : Ctx) (n : BitVec 6) (l : Nat) : BitVec 5 := (c.y.getT n.toNat).toArray.getD l 0

/-! ### Results -/

/-- A register write of a fixed-latency word. -/
inductive RegWrite where
  | v (n : Nat) (m : Word) (val : Lanes) (tag : Tags)
  | s (n : Nat) (w : Word)
  | k (n : Nat) (w : Word)
  /-- The bits of some lanes of a K register. -/
  | kl (n : Nat) (m w : Word)

/-- What a fixed-latency word comes to: its writes, the flags of each lane and the stochastic state after its draws. -/
structure RegOut where
  writes : List RegWrite
  flags : Nat → FlagSet := fun _ => 0#5
  x : Option Word := none

/-- A write lands, and its old value stays readable for its latency (R103, R104). -/
def RegWrite.apply (w : RegWrite) (lat : Nat) (pc : Va) (y : Gang) : Gang :=
  let fl (o : OldReg) (m : Word) (z : Gang) : Gang :=
    { z with flights := z.flights ++ [{ old := o, producer := pc, clock := z.clock, lat := lat, landed := false, m := m }] }
  match w with
  | .v n m val tag =>
    let z := fl (.v n (y.getV n) (y.getT n)) m (y.setV n m val tag)
    { z with pends := z.pends.map fun p => p.clobber n m }
  | .s n a => fl (.s n (y.getS n)) (BitVec.allOnes 32) (y.setS n a)
  | .k n a => fl (.k n (y.getK n)) (BitVec.allOnes 32) (y.setK n a)
  | .kl n m a => fl (.k n (y.getK n)) m (y.setK n ((y.getK n &&& ~~~m) ||| (a &&& m)))

/-- All writes of a word land. -/
def Gang.writeAll (y : Gang) (ws : List RegWrite) (lat : Nat) (pc : Va) : Gang := ws.foldl (fun z w => w.apply lat pc z) y

/-- The gang after a fixed-latency word: its writes, FFLAGS (R138) and the stochastic state (R136). -/
def Gang.regOut (y : Gang) (o : RegOut) (lat : Nat) (pc : Va) (m : Word) : Gang :=
  let z := y.writeAll o.writes lat pc
  { z with fflags := z.fflags ||| (flagsOr m o.flags).setWidth 32, x := o.x.getD z.x }

/-- The effect of a fixed-latency register word: a trap, FPX (R140), or its results. FMT of any lane comes before FPX of any lane
(DESIGN CHOICE, log 158). -/
def regEff (lat : Nat) (f : Ctx → Except Trap RegOut) (c : Ctx) (s : State) : Eff :=
  match f c with
  | .error t => .trap t
  | .ok o =>
    match fpxTrap c.m o.flags c.y.fexc with
    | some t => .trap t
    | none => .done (s.modGang c.b c.g fun y => y.regOut o lat c.pc c.m) true

/-! ### Tag checks (R133) -/

/-- FMT with its TVAL: the tags in [4:0] and [12:8], the selector in [18:16]. -/
def fmtTrap (a b : Nat) (sel : Nat) : Trap := { cause := Cause.fmt, tval := BitVec.ofNat 64 (a + 256 * b + 65536 * sel) }

/-- The first failing lane's trap, lanes in ascending order (R124). -/
def firstLane (m : Word) (chk : Nat → Option Trap) : Except Trap Unit :=
  match (lanesOf m).findSome? chk with
  | some t => .error t
  | none => .ok ()

/-- I32, U32 or RAW. -/
def isWordTag (t : BitVec 5) : Bool := t = tI32 || t = tU32 || t = tRAW

/-- I16X2 or I8X4. -/
def isPackInt (t : BitVec 5) : Bool := t = tI16X2 || t = tI8X4

/-- F32, F16X2 or BF16X2. -/
def isFloatTag (t : BitVec 5) : Bool := t = tF32 || t = tF16X2 || t = tBF16X2

/-- The result tag of the word-integer class. -/
def wordTag (a b : BitVec 5) : BitVec 5 := if a ≠ tRAW then a else if b ≠ tRAW then b else tI32

/-- The packed tag of an arith member (R149): the first among the active lanes' operands, va before vb (where both packed tags occur, R149 does
not say which is the instruction's; DESIGN CHOICE, log 175). -/
def packTag (m : Word) (ta tb : Nat → BitVec 5) : Option (BitVec 5) :=
  (lanesOf m).findSome? fun l => if isPackInt (ta l) then some (ta l) else if isPackInt (tb l) then some (tb l) else none

/-- A word operation done on each of the two 16-bit or four 8-bit elements. -/
def elementwise (t : BitVec 5) (op : (w : Nat) → BitVec w → BitVec w → BitVec w) (a b : Word) : Word :=
  if t = tI16X2 then
    op 16 (a.extractLsb' 16 16) (b.extractLsb' 16 16) ++ op 16 (a.extractLsb' 0 16) (b.extractLsb' 0 16)
  else
    op 8 (a.extractLsb' 24 8) (b.extractLsb' 24 8) ++ op 8 (a.extractLsb' 16 8) (b.extractLsb' 16 8)
      ++ op 8 (a.extractLsb' 8 8) (b.extractLsb' 8 8) ++ op 8 (a.extractLsb' 0 8) (b.extractLsb' 0 8)

/-- A result in every active lane. -/
def vout (vd : BitVec 6) (m : Word) (val : Nat → Word) (tag : Nat → BitVec 5) : Except Trap RegOut :=
  .ok { writes := [.v vd.toNat m (lanes val) (tags tag)] }

/-- An arith member (R149), with both operands or with va alone (`un`). -/
def arithOp (vd va vb : BitVec 6) (un : Bool) (pk : BitVec 3) (op : (w : Nat) → BitVec w → BitVec w → BitVec w) (c : Ctx) :
    Except Trap RegOut := do
  let m := c.active pk
  let ta := c.t va
  let tb : Nat → BitVec 5 := fun l => if un then tRAW else c.t vb l
  match packTag m ta tb with
  | some p =>
    firstLane m fun l => if (ta l = p || ta l = tRAW) && (tb l = p || tb l = tRAW) then none
      else some (fmtTrap (ta l).toNat (tb l).toNat 0)
    vout vd m (fun l => elementwise p op (c.v va l) (c.v vb l)) fun _ => p
  | none =>
    firstLane m fun l => if isWordTag (ta l) && isWordTag (tb l) then none else some (fmtTrap (ta l).toNat (tb l).toNat 0)
    vout vd m (fun l => op 32 (c.v va l) (c.v vb l)) fun l => wordTag (ta l) (tb l)

/-- A word-integer member (R149). -/
def wordOp (vd va vb : BitVec 6) (pk : BitVec 3) (op : Word → Word → Word) (c : Ctx) : Except Trap RegOut := do
  let m := c.active pk
  firstLane m fun l => if isWordTag (c.t va l) && isWordTag (c.t vb l) then none
    else some (fmtTrap (c.t va l).toNat (c.t vb l).toNat 0)
  vout vd m (fun l => op (c.v va l) (c.v vb l)) fun l => wordTag (c.t va l) (c.t vb l)

/-- A bit member with two operands (R149): any tag, the result takes va's. -/
def bitOp (vd va vb : BitVec 6) (pk : BitVec 3) (op : Word → Word → Word) (c : Ctx) : Except Trap RegOut :=
  vout vd (c.active pk) (fun l => op (c.v va l) (c.v vb l)) fun l => c.t va l

/-- A bit member with one operand and a stated result tag. -/
def bitOp1 (vd va : BitVec 6) (pk : BitVec 3) (op : Word → Word) (tag : Nat → BitVec 5) (c : Ctx) : Except Trap RegOut :=
  vout vd (c.active pk) (fun l => op (c.v va l)) tag

/-- The pair rule (R133): I64LO or RAW in the even register, I64HI or RAW in the odd one. `b` is the even tag of a second
pair, where one is read. Both even registers are tested before the odd ones, va's before vb's (DESIGN CHOICE, log 159). -/
def pairChk (c : Ctx) (va vb : BitVec 6) (two : Bool) (l : Nat) : Option Trap :=
  let lo : BitVec 6 → Bool := fun r => c.t r l = tI64LO || c.t r l = tRAW
  let hi : BitVec 6 → Bool := fun r => c.t (r + 1) l = tI64HI || c.t (r + 1) l = tRAW
  if !lo va || (two && !lo vb) then some (fmtTrap (c.t va l).toNat (if two then (c.t vb l).toNat else 0) 0)
  else if !hi va then some (fmtTrap (c.t (va + 1) l).toNat 0 1)
  else if two && !hi vb then some (fmtTrap (c.t (vb + 1) l).toNat 0 1)
  else none

/-- The pair V[n]:V[n+1] of a lane. -/
def Ctx.pair (c : Ctx) (n : BitVec 6) (l : Nat) : DWord := c.v (n + 1) l ++ c.v n l

/-- An even register number (R105). -/
def evenV (n : BitVec 6) : Bool := !n.getLsbD 0

/-- An S register in a 6-bit field (R105). -/
def sField (n : BitVec 6) : Bool := n.toNat < 32

/-- A K register read through a 6-bit field (R105). -/
def kRead (n : BitVec 6) : Bool := n.toNat < 12

/-- A K register as a destination (R65, R105). -/
def kWrite (n : BitVec 6) : Bool := 1 ≤ n.toNat && n.toNat < 12

/-- An even pair of S registers (R105). -/
def sEven (n : BitVec 5) : Bool := !n.getLsbD 0

/-- An even pair 2 to 30 of S registers. -/
def sPair (n : BitVec 5) : Bool := !n.getLsbD 0 && n.toNat ≠ 0

/-- Attributes of a vector word of class ALU. -/
def aluInfo (st : BitVec 2) (pk : BitVec 3) (reads : List (BitVec 6)) (writes : List (BitVec 6)) : Info :=
  { cls := 0, stall := st, reads := pkReads pk ++ reads.map (fun r => .v r.toNat), writes := writes.map (fun r => .v r.toNat) }

/-- A fixed-latency vector word of class ALU. -/
def aluWord (i : Info) (lat : Nat) (f : Ctx → Except Trap RegOut) (s : State) : Host.Outcome State Fault Refusal :=
  issueWord i (regEff lat f) s

end Sys2Proof.Machine
end

