-- ==== Sys2Proof/Machine/Pending.lean ====
section
/-! DEFINITION. Variable-latency words on their way: how one goes pending (R100). -/

namespace Sys2Proof.Machine

/-- The fixed-latency writes to some registers that are still in flight: the register and the lanes (R103, R104). -/
def Gang.writesInFlight (y : Gang) (regs : List (Nat × Tags)) : List (Nat × Word) :=
  regs.flatMap fun r => (y.inFlight.filter fun f => !f.landed && f.old.ref = .v r.1).map fun f => (r.1, f.m)

/-- A variable-latency word goes pending: its counter rises, and its register destinations count only if it has a counter. -/
def State.addPend (s : State) (c : Ctx) (p : Pend) : State :=
  let q : Pend := { p with id := s.nextId, pc := c.pc, hpc := c.hpc, hdr := c.hdr, nvl := c.nvl, dc := c.dc, dst := if c.dc.isSome then p.dst else [] }
  { s.modGang c.b c.g (fun y =>
      { y with pends := y.pends ++ [{ q with seq := y.seq, clobbered := y.writesInFlight q.dst }], seq := y.seq + 1,
               d := match c.dc with | some d => if h : d < 6 then y.d.set d (y.d[d] + 1) else y.d | none => y.d })
    with nextId := s.nextId + 1 }

/-- A pending word with nothing in it yet. -/
def Pend.blank (kind : PendKind) : Pend :=
  { id := 0, kind := kind, seq := 0, pc := 0, hpc := 0, hdr := 0, nvl := 0, code := 0, dst := [], mask := 0, accs := [], vals := [], dc := none,
    clobbered := [], scope := 0, space := 0, kd := none, refused := none, clause := none }

/-- Whether an access of the gang that has not been performed overlaps bytes of its block's local memory. -/
def Gang.localBusy (y : Gang) (b off n : Nat) : Bool :=
  y.pends.any fun p => p.accs.any fun a => !a.performed && (match a.loc with
    | .loc b' o => b' = b && o < off + n && off < o + a.size
    | _ => false)

end Sys2Proof.Machine
end

