-- ==== Sys2Proof/Machine/Registry.lean ====
section
/-! DEFINITION. The registry home (R73 to R75, R82 to R90): pins, refresh, allocation, the root operations and notices. -/

namespace Sys2Proof.Machine

/-- The retirement notice of a slot (R89). -/
def retireNotice (slot : Nat) (r : RootSlot) : List Byte :=
  [0x01#8, 0#8] ++ natLe 2 slot ++ natLe 2 r.space ++ natLe 2 r.gen.toNat ++ natLe 8 r.root

/-- A notice for the system notice ring of a die, behind those that wait (R89, R386). -/
def State.noticeOn (s : State) (d : Die) (bs : List Byte) : State := { s with noticeQ := s.noticeQ ++ [(d, bs)] }

/-- A notice of the registry home, on die 0. -/
def State.notice (s : State) (bs : List Byte) : State := s.noticeOn 0 bs

/-- The notice of a slot that is RETIRED without pins (R89). -/
def State.postIfUnpinned (s : State) (slot : Nat) : State :=
  let r := s.root slot
  if r.state = 2 && r.pins = 0 then s.notice (retireNotice slot r) else s

/-- The greatest pin count (R74). -/
def maxPins : Nat := 1048575

/-- A pin of a named slot (R75, R86); none if the count is full. -/
def State.pin (s : State) (slot : Nat) : Option State :=
  let r := s.root slot
  if r.pins < maxPins then some (s.setRoot slot { r with pins := r.pins + 1 }) else none

/-- An unpin (R75): the last pin of a RETIRED slot produces its notice (R89). -/
def State.unpin (s : State) (slot : Nat) : State :=
  let r := s.root slot
  if r.pins = 0 then s else (s.setRoot slot { r with pins := r.pins - 1 }).postIfUnpinned slot

/-- What pin-current answers. -/
inductive PinAns where
  | null
  | full
  | slot (n : Nat) (s : State)

/-- pin-current of a space (R75). -/
def State.pinCurrent (s : State) (sp : Nat) : PinAns :=
  let e := s.space sp
  if e.nullr then .null
  else match s.pin e.cur with
    | some s' => .slot e.cur s'
    | none => .full

/-- A refresh of a block (R85): pin-current, then the previous slot is unpinned; nothing where the root is null, the slot is
the same, or the pin cannot be taken. -/
def State.refresh (s : State) (b : Nat) : State :=
  match s.block? b with
  | none => s
  | some x =>
    let e := s.space x.space
    if e.nullr || e.cur = x.rootSlot then s
    else match s.pin e.cur with
      | some s' => (s'.setBlock { x with rootSlot := e.cur }).unpin x.rootSlot
      | none => s

/-- The lowest-numbered FREE slot (R75). -/
def State.freeSlot (s : State) : Option Nat := (List.range 4096).find? fun n => (s.root n).state = 0

/-- Allocation of a slot over a root (R75, R87): GEN + 1, PINS 0, CURRENT. When GEN wraps to 0, every TLB entry of the slot
is removed first. -/
def State.allocSlot (s : State) (n sp rootPa : Nat) : State :=
  let r := s.root n
  let s1 := if r.gen = 4095#12 then { s with tlb := s.tlb.filter fun p => p.2.2.slot ≠ n } else s
  s1.setRoot n { pins := 0, gen := r.gen + 1, state := 1, space := sp, root := rootPa }

/-- The PA of a root or node pair: [10:0] and [63:52] zero (R352). -/
def nodePa (p : DWord) : Option Nat := if nbits p.toNat 10 0 = 0 && nbits p.toNat 63 52 = 0 then some p.toNat else none

/-- The root that RCAS installs: null, or a PA. -/
def rcasRoot (p : DWord) : Option (Option Nat) :=
  if p = 0x8000000000000000 then some none else (nodePa p).map some

/-- A result word of the SYS members (R351): status and slot. -/
def resultWord (status slot : Nat) : Word := BitVec.ofNat 32 (status * 2 ^ 28 + slot)

/-- RCAS (R82): the state and the result word. -/
def State.rcas (s : State) (sp expected : Nat) (newroot : Option Nat) : State × Word :=
  let e := s.space sp
  if e.nullr || e.cur ≠ expected then (s, resultWord 1 e.cur)
  else
    match newroot with
    | none =>
      let s1 := s.setRoot expected { s.root expected with state := 2 }
      let s2 := s1.setSpace sp { e with nullr := true, sgen := e.sgen + 1 }
      (s2.postIfUnpinned expected, resultWord 0 0xFFF)
    | some pa =>
      match s.freeSlot with
      | none => (s, resultWord 2 e.cur)
      | some n =>
        let s1 := s.allocSlot n sp pa
        let s2 := s1.setRoot expected { s1.root expected with state := 2 }
        let s3 := s2.setSpace sp { e with cur := n }
        (s3.postIfUnpinned expected, resultWord 0 n)

/-- RSNAP (R83). -/
def State.rsnap (s : State) (sp rootPa : Nat) : State × Word :=
  let e := s.space sp
  if !e.nullr then (s, resultWord 1 0xFFF)
  else
    match s.freeSlot with
    | none => (s, resultWord 2 0xFFF)
    | some n => ((s.allocSlot n sp rootPa).setSpace sp { e with cur := n, nullr := false }, resultWord 0 n)

/-- RFREE (R90). -/
def State.rfree (s : State) (slot : Nat) : State × Word :=
  let r := s.root slot
  if r.state = 2 && r.pins = 0 then (s.setRoot slot { r with state := 0 }, resultWord 0 0xFFF)
  else (s, resultWord 1 0xFFF)

end Sys2Proof.Machine
end

