-- ==== Sys2Proof/Machine/Integer.lean ====
section
/-! DEFINITION. Integer instructions: IA0, IA1, ISH, IBT, ICMP, ICMPI, IMAD and the immediate forms (R149 to R153). -/

namespace Sys2Proof.Machine

/-! ### IA0 and IA1 (R149) -/

/-- An arith member with two operands. -/
def arith2 (o : A3) (op : (w : Nat) → BitVec w → BitVec w → BitVec w) (s : State) : Host.Outcome State Fault Refusal :=
  aluWord (aluInfo o.st o.pk [o.va, o.vb] [o.vd]) 2 (arithOp o.vd o.va o.vb false o.pk op) s

/-- An arith member with one operand. -/
def arith1 (o : A2) (op : (w : Nat) → BitVec w → BitVec w) (s : State) : Host.Outcome State Fault Refusal :=
  aluWord (aluInfo o.st o.pk [o.va] [o.vd]) 2 (arithOp o.vd o.va 0 true o.pk fun w a _ => op w a) s

/-- A word member, of latency 4. -/
def mul2 (o : A3) (op : Word → Word → Word) (s : State) : Host.Outcome State Fault Refusal :=
  aluWord (aluInfo o.st o.pk [o.va, o.vb] [o.vd]) 4 (wordOp o.vd o.va o.vb o.pk op) s

/-- A bit member with two operands. -/
def bit2 (o : A3) (op : Word → Word → Word) (s : State) : Host.Outcome State Fault Refusal :=
  aluWord (aluInfo o.st o.pk [o.va, o.vb] [o.vd]) 2 (bitOp o.vd o.va o.vb o.pk op) s

/-- Bits [63:32] of a signed product. -/
def mulh (a b : Word) : Word := ((a.signExtend 64) * (b.signExtend 64)).extractLsb' 32 32

/-- Bits [63:32] of an unsigned product. -/
def mulhu (a b : Word) : Word := ((a.setWidth 64) * (b.setWidth 64)).extractLsb' 32 32

def execIadd (o : A3) (s : State) := arith2 o (fun _ a b => a + b) s
def execIsub (o : A3) (s : State) := arith2 o (fun _ a b => a - b) s
def execImul (o : A3) (s : State) := mul2 o (fun a b => a * b) s
def execImulh (o : A3) (s : State) := mul2 o mulh s
def execImulhu (o : A3) (s : State) := mul2 o mulhu s
def execImin (o : A3) (s : State) := arith2 o (fun _ a b => if a.sle b then a else b) s
def execImax (o : A3) (s : State) := arith2 o (fun _ a b => if a.sle b then b else a) s
def execUmin (o : A3) (s : State) := arith2 o (fun _ a b => if a.ule b then a else b) s
def execUmax (o : A3) (s : State) := arith2 o (fun _ a b => if a.ule b then b else a) s
def execIabs (o : A2) (s : State) := arith1 o (fun _ a => if a.msb then -a else a) s
def execIneg (o : A2) (s : State) := arith1 o (fun _ a => -a) s
def execAnd (o : A3) (s : State) := bit2 o (fun a b => a &&& b) s
def execOr (o : A3) (s : State) := bit2 o (fun a b => a ||| b) s
def execXor (o : A3) (s : State) := bit2 o (fun a b => a ^^^ b) s
def execAndn (o : A3) (s : State) := bit2 o (fun a b => a &&& ~~~b) s
def execOrn (o : A3) (s : State) := bit2 o (fun a b => a ||| ~~~b) s

/-! ### ISH (R150) -/

/-- The amount or position n := b[4:0]. -/
def shAmt (b : Word) : Nat := (b.extractLsb' 0 5).toNat

/-- The width of a bit field, min(w, 32 - p) with w := min(b[13:8], 32). -/
def fieldWidth (b : Word) : Nat := min (min (b.extractLsb' 8 6).toNat 32) (32 - shAmt b)

/-- 2^n - 1. -/
def onesMask (n : Nat) : Word := BitVec.ofNat 32 (2 ^ n - 1)

/-- BFE's field. -/
def bfe (a b : Word) : Word := (a >>> shAmt b) &&& onesMask (fieldWidth b)

/-- BFS: the field, sign-extended from its width; 0 if the width is 0. -/
def bfs (a b : Word) : Word :=
  let w := fieldWidth b
  let f := bfe a b
  if w = 0 then 0 else if f.getLsbD (w - 1) then f ||| ~~~onesMask w else f

/-- BFI, into the old destination. -/
def bfi (old a b : Word) : Word :=
  let m := onesMask (fieldWidth b) <<< shAmt b
  (old &&& ~~~m) ||| ((a <<< shAmt b) &&& m)

def execShl (o : A3) (s : State) := bit2 o (fun a b => a <<< shAmt b) s
def execShr (o : A3) (s : State) := bit2 o (fun a b => a >>> shAmt b) s
def execSar (o : A3) (s : State) := bit2 o (fun a b => a.sshiftRight (shAmt b)) s
def execRol (o : A3) (s : State) := bit2 o (fun a b => a.rotateLeft (shAmt b)) s
def execRor (o : A3) (s : State) := bit2 o (fun a b => a.rotateRight (shAmt b)) s

/-- BFE: the result is tagged U32. -/
def execBfe (o : A3) (s : State) :=
  aluWord (aluInfo o.st o.pk [o.va, o.vb] [o.vd]) 2
    (fun c => vout o.vd (c.active o.pk) (fun l => bfe (c.v o.va l) (c.v o.vb l)) fun _ => tU32) s

/-- BFI: reads vd, whose tag is kept unless it is RAW. -/
def execBfi (o : A3) (s : State) :=
  aluWord (aluInfo o.st o.pk [o.va, o.vb, o.vd] [o.vd]) 2
    (fun c => vout o.vd (c.active o.pk) (fun l => bfi (c.v o.vd l) (c.v o.va l) (c.v o.vb l))
      fun l => if c.t o.vd l = tRAW then c.t o.va l else c.t o.vd l) s

/-- BFS: the result is tagged I32. -/
def execBfs (o : A3) (s : State) :=
  aluWord (aluInfo o.st o.pk [o.va, o.vb] [o.vd]) 2
    (fun c => vout o.vd (c.active o.pk) (fun l => bfs (c.v o.va l) (c.v o.vb l)) fun _ => tI32) s

/-! ### IBT (R151) -/

/-- The number of 1 bits. -/
def popcount (a : Word) : Nat := ((List.range 32).filter fun i => a.getLsbD i).length

/-- The number of leading zeros; 32 for zero. -/
def clz (a : Word) : Nat := ((List.range 32).find? fun i => a.getLsbD (31 - i)).getD 32

/-- The number of trailing zeros; 32 for zero. -/
def ctz (a : Word) : Nat := ((List.range 32).find? fun i => a.getLsbD i).getD 32

/-- The bytes in reverse order. -/
def bswap (a : Word) : Word := a.extractLsb' 0 8 ++ a.extractLsb' 8 8 ++ a.extractLsb' 16 8 ++ a.extractLsb' 24 8

/-- One byte of PRMT: selector nibble `k` of b over the eight bytes of a and the old destination. -/
def prmtByte (old a b : Word) (k : Nat) : Byte :=
  let sel := b.extractLsb' (4 * k) 4
  let x : Byte := (old ++ a).extractLsb' (8 * (sel.extractLsb' 0 3).toNat) 8
  if sel.getLsbD 3 then (if x.getLsbD 7 then 0xFF#8 else 0#8) else x

/-- PRMT. -/
def prmt (old a b : Word) : Word := prmtByte old a b 3 ++ prmtByte old a b 2 ++ prmtByte old a b 1 ++ prmtByte old a b 0

/-- A one-operand bit word with a constant result tag. -/
def count1 (o : A2) (op : Word → Nat) (s : State) : Host.Outcome State Fault Refusal :=
  aluWord (aluInfo o.st o.pk [o.va] [o.vd]) 2 (bitOp1 o.vd o.va o.pk (fun a => BitVec.ofNat 32 (op a)) fun _ => tU32) s

/-- A one-operand bit word that keeps va's tag. -/
def bit1 (o : A2) (op : Word → Word) (s : State) : Host.Outcome State Fault Refusal :=
  aluWord (aluInfo o.st o.pk [o.va] [o.vd]) 2 (fun c => bitOp1 o.vd o.va o.pk op (c.t o.va) c) s

def execPopc (o : A2) (s : State) := count1 o popcount s
def execClz (o : A2) (s : State) := count1 o clz s
def execCtz (o : A2) (s : State) := count1 o ctz s
def execBrev (o : A2) (s : State) := bit1 o BitVec.reverse s
def execBswap (o : A2) (s : State) := bit1 o bswap s

/-- PRMT reads the old destination; the result takes va's tag. -/
def execPrmt (o : A3) (s : State) :=
  aluWord (aluInfo o.st o.pk [o.va, o.vb, o.vd] [o.vd]) 2
    (fun c => vout o.vd (c.active o.pk) (fun l => prmt (c.v o.vd l) (c.v o.va l) (c.v o.vb l)) fun l => c.t o.va l) s

/-- A 64-bit operation on pairs (R151, R133). -/
def pair2 (o : A3) (op : DWord → DWord → DWord) (s : State) : Host.Outcome State Fault Refusal :=
  aluWord { aluInfo o.st o.pk [o.va, o.va + 1, o.vb, o.vb + 1] [o.vd, o.vd + 1] with
      regsOk := fun _ => evenV o.vd && evenV o.va && evenV o.vb } 2
    (fun c => do
      let m := c.active o.pk
      firstLane m fun l => pairChk c o.va o.vb true l
      let r : Nat → DWord := fun l => op (c.pair o.va l) (c.pair o.vb l)
      .ok { writes := [.v o.vd.toNat m (lanes fun l => (r l).extractLsb' 0 32) (tags fun _ => tI64LO),
                       .v (o.vd.toNat + 1) m (lanes fun l => (r l).extractLsb' 32 32) (tags fun _ => tI64HI)] }) s

def execIadd64 (o : A3) (s : State) := pair2 o (fun a b => a + b) s
def execIsub64 (o : A3) (s : State) := pair2 o (fun a b => a - b) s

/-! ### Compares (R152) -/

/-- The conditions in code order (R152). -/
inductive Cond where
  | eq | ne | lt | le | ult | ule | tst | ntst
  deriving DecidableEq, Repr

/-- cond(a, b). -/
def Cond.holds (cc : Cond) (a b : Word) : Bool :=
  match cc with
  | .eq => a = b
  | .ne => a ≠ b
  | .lt => a.slt b
  | .le => a.sle b
  | .ult => a.ult b
  | .ule => a.ule b
  | .tst => (a &&& b) ≠ 0
  | .ntst => (a &&& b) = 0

/-- ICMP.cc. -/
def icmp (cc : Cond) (o : A3) (s : State) : Host.Outcome State Fault Refusal :=
  aluWord { aluInfo o.st o.pk [o.va, o.vb] [] with regsOk := fun _ => kWrite o.vd, writes := [.k o.vd.toNat] } 2
    (fun c => do
      let m := c.active o.pk
      firstLane m fun l => if isWordTag (c.t o.va l) && isWordTag (c.t o.vb l) then none
        else some (fmtTrap (c.t o.va l).toNat (c.t o.vb l).toNat 0)
      .ok { writes := [.kl o.vd.toNat m (maskOf fun l => cc.holds (c.v o.va l) (c.v o.vb l))] }) s

/-- ICMPI.cc. -/
def icmpi (cc : Cond) (o : I9) (s : State) : Host.Outcome State Fault Refusal :=
  aluWord { aluInfo o.st 0 [o.va] [] with regsOk := fun _ => kWrite o.vd, writes := [.k o.vd.toNat] } 2
    (fun c => do
      firstLane c.m fun l => if isWordTag (c.t o.va l) then none else some (fmtTrap (c.t o.va l).toNat 0 0)
      .ok { writes := [.kl o.vd.toNat c.m (maskOf fun l => cc.holds (c.v o.va l) (o.imm.signExtend 32))] }) s

def execIcmpEq (o : A3) (s : State) := icmp .eq o s
def execIcmpNe (o : A3) (s : State) := icmp .ne o s
def execIcmpLt (o : A3) (s : State) := icmp .lt o s
def execIcmpLe (o : A3) (s : State) := icmp .le o s
def execIcmpUlt (o : A3) (s : State) := icmp .ult o s
def execIcmpUle (o : A3) (s : State) := icmp .ule o s
def execIcmpTst (o : A3) (s : State) := icmp .tst o s
def execIcmpNtst (o : A3) (s : State) := icmp .ntst o s
def execIcmpiEq (o : I9) (s : State) := icmpi .eq o s
def execIcmpiNe (o : I9) (s : State) := icmpi .ne o s
def execIcmpiLt (o : I9) (s : State) := icmpi .lt o s
def execIcmpiLe (o : I9) (s : State) := icmpi .le o s
def execIcmpiUlt (o : I9) (s : State) := icmpi .ult o s
def execIcmpiUle (o : I9) (s : State) := icmpi .ule o s
def execIcmpiTst (o : I9) (s : State) := icmpi .tst o s
def execIcmpiNtst (o : I9) (s : State) := icmpi .ntst o s

/-! ### IMAD and the immediate forms (R153) -/

/-- IMAD: va and vb are checked first, then vc, lane by lane. -/
def execImad (o : B4) (s : State) : Host.Outcome State Fault Refusal :=
  aluWord (aluInfo o.st 0 [o.va, o.vb, o.vc] [o.vd]) 4
    (fun c => do
      firstLane c.m fun l =>
        if !(isWordTag (c.t o.va l) && isWordTag (c.t o.vb l)) then some (fmtTrap (c.t o.va l).toNat (c.t o.vb l).toNat 0)
        else if !isWordTag (c.t o.vc l) then some (fmtTrap (c.t o.vc l).toNat 0 1) else none
      vout o.vd c.m (fun l => c.v o.va l * c.v o.vb l + c.v o.vc l)
        fun l => wordTag (c.t o.va l) (wordTag (c.t o.vb l) (c.t o.vc l))) s

/-- A word-integer form with an immediate, which counts as RAW. -/
def imm12 (o : I12) (op : Word → Word → Word) (s : State) : Host.Outcome State Fault Refusal :=
  aluWord (aluInfo o.st 0 [o.va] [o.vd]) 2
    (fun c => do
      firstLane c.m fun l => if isWordTag (c.t o.va l) then none else some (fmtTrap (c.t o.va l).toNat 0 0)
      vout o.vd c.m (fun l => op (c.v o.va l) (o.imm.signExtend 32)) fun l => wordTag (c.t o.va l) tRAW) s

/-- A SHI member: va is in the bit class and keeps its tag. -/
def shi (o : Sh5) (op : Word → Nat → Word) (s : State) : Host.Outcome State Fault Refusal :=
  aluWord (aluInfo o.st 0 [o.va] [o.vd]) 2
    (fun c => vout o.vd c.m (fun l => op (c.v o.va l) o.amt.toNat) fun l => c.t o.va l) s

def execIaddi (o : I12) (s : State) := imm12 o (fun a i => a + i) s
def execAndi (o : I12) (s : State) := imm12 o (fun a i => a &&& i) s
def execOri (o : I12) (s : State) := imm12 o (fun a i => a ||| i) s
def execXori (o : I12) (s : State) := imm12 o (fun a i => a ^^^ i) s
def execShli (o : Sh5) (s : State) := shi o (fun a n => a <<< n) s
def execShri (o : Sh5) (s : State) := shi o (fun a n => a >>> n) s
def execSari (o : Sh5) (s : State) := shi o (fun a n => a.sshiftRight n) s
def execRoli (o : Sh5) (s : State) := shi o (fun a n => a.rotateLeft n) s

/-- LUI keeps bits [13:0] and the tag of the old vd if that is I32 or U32. The old vd is an operand, in the word-integer class
(R153); its report is that of a register other than va and vb (R133, log 25). -/
def execLui (o : U18) (s : State) : Host.Outcome State Fault Refusal :=
  aluWord (aluInfo o.st 0 [o.vd] [o.vd]) 2
    (fun c => do
      firstLane c.m fun l => if isWordTag (c.t o.vd l) then none else some (fmtTrap (c.t o.vd l).toNat 0 1)
      vout o.vd c.m (fun l => o.imm ++ (c.v o.vd l).extractLsb' 0 14) fun l => if c.t o.vd l = tU32 then tU32 else tI32) s

def execMovi (o : U18) (s : State) : Host.Outcome State Fault Refusal :=
  aluWord (aluInfo o.st 0 [] [o.vd]) 2 (fun c => vout o.vd c.m (fun _ => o.imm.signExtend 32) fun _ => tI32) s

end Sys2Proof.Machine
end

