-- ==== Sys2Proof/Machine/Lane.lean ====
section
/-! DEFINITION. Lane operations, register moves, and mask operations: LANE, MOVE, KOP and VOTE (R162 to R165). -/

namespace Sys2Proof.Machine

/-! ### LANE (R162) -/

/-- A lane operation: the source lane of each active lane, of va's register as it stands at issue (R147, R124). -/
def laneWord (o : A3) (src : Nat → Nat → Nat) (s : State) : Host.Outcome State Fault Refusal :=
  aluWord (aluInfo o.st o.pk [o.va, o.vb] [o.vd]) 4
    (fun c =>
      let from_ : Nat → Nat := fun l => src l (shAmt (c.v o.vb l))
      vout o.vd (c.active o.pk) (fun l => c.v o.va (from_ l)) fun l => c.t o.va (from_ l)) s

/-- SEL: pk selects between va and vb; every lane of the issue set is active (R167). -/
def execSel (o : A3) (s : State) : Host.Outcome State Fault Refusal :=
  aluWord { aluInfo o.st o.pk [o.va, o.vb] [o.vd] with regsOk := fun _ => o.pk ≠ 0 } 4
    (fun c =>
      let pick : Nat → BitVec 6 := fun l => if (c.y.getK o.pk.toNat).getLsbD l then o.va else o.vb
      vout o.vd c.m (fun l => c.v (pick l) l) fun l => c.t (pick l) l) s

def execShfl (o : A3) (s : State) := laneWord o (fun _ n => n) s
def execShflx (o : A3) (s : State) := laneWord o (fun l n => l ^^^ n) s
def execShflup (o : A3) (s : State) := laneWord o (fun l n => if n ≤ l then l - n else l) s
def execShfldn (o : A3) (s : State) := laneWord o (fun l n => if l + n ≤ 31 then l + n else l) s

def execBcst (o : A2) (s : State) : Host.Outcome State Fault Refusal :=
  aluWord (aluInfo o.st o.pk [o.va] [o.vd]) 4
    (fun c =>
      let m := c.active o.pk
      let k := (lowest m).getD 0
      vout o.vd m (fun _ => c.v o.va k) fun _ => c.t o.va k) s

def execLaneid (o : A1) (s : State) : Host.Outcome State Fault Refusal :=
  aluWord (aluInfo o.st o.pk [] [o.vd]) 4
    (fun c => vout o.vd (c.active o.pk) (fun l => BitVec.ofNat 32 l) fun _ => tU32) s

/-! ### MOVE (R163) -/

def execMov (o : A2) (s : State) : Host.Outcome State Fault Refusal :=
  aluWord (aluInfo o.st o.pk [o.va] [o.vd]) 2
    (fun c => vout o.vd (c.active o.pk) (fun l => c.v o.va l) fun l => c.t o.va l) s

def execMovs (o : A2) (s : State) : Host.Outcome State Fault Refusal :=
  aluWord { aluInfo o.st o.pk [] [o.vd] with
      regsOk := fun _ => sField o.va, reads := pkReads o.pk ++ [.s o.va.toNat] } 2
    (fun c => vout o.vd (c.active o.pk) (fun _ => c.y.getS o.va.toNat) fun _ => tRAW) s

/-- SMOV: with no active lane, S[vd] keeps its value, and the word still counts as its producer (R103, R104). -/
def execSmov (o : A2) (s : State) : Host.Outcome State Fault Refusal :=
  aluWord { aluInfo o.st o.pk [o.va] [] with regsOk := fun _ => sField o.vd, writes := [.s o.vd.toNat] } 2
    (fun c => match lowest (c.active o.pk) with
      | none => .ok { writes := [.s o.vd.toNat (c.y.getS o.vd.toNat)] }
      | some k => .ok { writes := [.s o.vd.toNat (c.v o.va k)] }) s

/-- VPCR: the VPC of the lane that va names; 0 for a lane that is not live. -/
def execVpcr (o : A2) (s : State) : Host.Outcome State Fault Refusal :=
  aluWord { aluInfo o.st o.pk [o.va] [o.vd, o.vd + 1] with regsOk := fun _ => evenV o.vd } 2
    (fun c =>
      let m := c.active o.pk
      let vpc : Nat → DWord := fun l =>
        let k := shAmt (c.v o.va l)
        if c.y.live.getLsbD k then (c.y.lane k).pc.setWidth 64 else 0
      .ok { writes := [.v o.vd.toNat m (lanes fun l => (vpc l).extractLsb' 0 32) (tags fun _ => tI64LO),
                       .v (o.vd.toNat + 1) m (lanes fun l => (vpc l).extractLsb' 32 32) (tags fun _ => tI64HI)] }) s

def execTagr (o : A2) (s : State) : Host.Outcome State Fault Refusal :=
  aluWord (aluInfo o.st o.pk [o.va] [o.vd]) 2
    (fun c => vout o.vd (c.active o.pk) (fun l => (c.t o.va l).setWidth 32) fun _ => tU32) s

/-- RETAG: any code that is not reserved (R109). -/
def execRetag (o : AT) (s : State) : Host.Outcome State Fault Refusal :=
  aluWord { aluInfo o.st o.pk [o.va] [o.vd] with regsOk := fun _ => tagListed o.tag } 2
    (fun c => vout o.vd (c.active o.pk) (fun l => c.v o.va l) fun _ => o.tag) s

/-! ### KOP (R164) -/

/-- A mask operation on the active lanes' bits of Kd. -/
def kop (st : BitVec 2) (vd va vb : BitVec 6) (pk : BitVec 3) (two : Bool) (op : Word → Word → Word) (s : State) :
    Host.Outcome State Fault Refusal :=
  aluWord { cls := 0, stall := st, regsOk := fun _ => kWrite vd && kRead va && (!two || kRead vb),
            reads := pkReads pk ++ [.k va.toNat] ++ (if two then [.k vb.toNat] else []), writes := [.k vd.toNat] } 2
    (fun c =>
      let m := c.active pk
      let r := op (c.y.getK va.toNat) (c.y.getK vb.toNat)
      .ok { writes := [.kl vd.toNat m r] }) s

/-- A number taken from the whole of a mask, in each active lane. -/
def kcount (o : A2) (op : Word → Word) (s : State) : Host.Outcome State Fault Refusal :=
  aluWord { aluInfo o.st o.pk [] [o.vd] with
      regsOk := fun _ => kRead o.va, reads := pkReads o.pk ++ [.k o.va.toNat] } 2
    (fun c => vout o.vd (c.active o.pk) (fun _ => op (c.y.getK o.va.toNat)) fun _ => tU32) s

def execKand (o : A3) (s : State) := kop o.st o.vd o.va o.vb o.pk true (fun a b => a &&& b) s
def execKor (o : A3) (s : State) := kop o.st o.vd o.va o.vb o.pk true (fun a b => a ||| b) s
def execKxor (o : A3) (s : State) := kop o.st o.vd o.va o.vb o.pk true (fun a b => a ^^^ b) s
def execKandn (o : A3) (s : State) := kop o.st o.vd o.va o.vb o.pk true (fun a b => a &&& ~~~b) s
def execKnot (o : A2) (s : State) := kop o.st o.vd o.va 0 o.pk false (fun a _ => ~~~a) s
def execKmov (o : A2) (s : State) := kop o.st o.vd o.va 0 o.pk false (fun a _ => a) s
def execKpop (o : A2) (s : State) := kcount o (fun a => BitVec.ofNat 32 (popcount a)) s
def execKffs (o : A2) (s : State) := kcount o (fun a => BitVec.ofNat 32 (ctz a)) s

/-! ### VOTE (R165) -/

/-- BAL writes the whole of Kd. -/
def execBal (o : A2) (s : State) : Host.Outcome State Fault Refusal :=
  aluWord { aluInfo o.st o.pk [o.va] [] with regsOk := fun _ => kWrite o.vd, writes := [.k o.vd.toNat] } 2
    (fun c => .ok { writes := [.k o.vd.toNat (maskOf fun l => (c.active o.pk).getLsbD l && c.v o.va l ≠ 0)] }) s

/-- KTOV takes no vb: R146 makes the field must-be-zero, where the opcode table leaves its bits free. -/
def execKtov (o : A3) (s : State) : Host.Outcome State Fault Refusal :=
  aluWord { aluInfo o.st o.pk [] [o.vd] with
      regsOk := fun _ => kRead o.va && o.vb = 0, reads := pkReads o.pk ++ [.k o.va.toNat] } 2
    (fun c => vout o.vd (c.active o.pk) (fun _ => c.y.getK o.va.toNat) fun _ => tU32) s

/-- KFROMS ignores pk. -/
def execKfroms (o : A2) (s : State) : Host.Outcome State Fault Refusal :=
  aluWord { cls := 0, stall := o.st, regsOk := fun _ => kWrite o.vd && sField o.va,
            reads := [.s o.va.toNat], writes := [.k o.vd.toNat] } 2
    (fun c => .ok { writes := [.k o.vd.toNat (c.y.getS o.va.toNat)] }) s

/-- KTOS ignores pk. -/
def execKtos (o : A2) (s : State) : Host.Outcome State Fault Refusal :=
  aluWord { cls := 0, stall := o.st, regsOk := fun _ => sField o.vd && kRead o.va,
            reads := [.k o.va.toNat], writes := [.s o.vd.toNat] } 2
    (fun c => .ok { writes := [.s o.vd.toNat (c.y.getK o.va.toNat)] }) s

end Sys2Proof.Machine
end

