-- ==== Sys2Proof/Machine/Uniform.lean ====
section
/-! DEFINITION. Uniform integer instructions (R166), in a gang and in an address program (R213). -/

namespace Sys2Proof.Machine

/-! ### Words of an address program (R213) -/

/-- S[n] of an address program; S0 reads zero. -/
def ApQueue.getS (a : ApQueue) (n : Nat) : Word := if h : 0 < n ∧ n < 32 then a.s[n] else 0
/-- S[n] written. -/
def ApQueue.setS (a : ApQueue) (n : Nat) (w : Word) : ApQueue := if h : 0 < n ∧ n < 32 then { a with s := a.s.set n w } else a
/-- K[n] of an address program, which has K1 to K11. -/
def ApQueue.getK (a : ApQueue) (n : Nat) : Word := if h : 0 < n ∧ n < 12 then a.k[n] else 0
/-- K[n] written. -/
def ApQueue.setK (a : ApQueue) (n : Nat) (w : Word) : ApQueue := if h : 0 < n ∧ n < 12 then { a with k := a.k.set n w } else a

/-- The program goes on to the next word of its clause, or to the next header. -/
def ApQueue.advance (a : ApQueue) : ApQueue :=
  match a.clause with
  | some (hpc, h) => let pc := a.pc + 4; { a with pc := pc, clause := if pc = nextHeader hpc h then none else some (hpc, h) }
  | none => a

/-- What a word of an address program comes to. -/
inductive ApEff where
  /-- The program ends with status MALFORMED. -/
  | malformed
  /-- The word waits. -/
  | hold
  /-- Done: the state and the queue, already past the word. -/
  | done (s : State) (a : ApQueue)

/-- A word of an address program executes: one access unit is charged, and an exhausted class holds the program (R213, R44). A malformed
word is not executed, and not charged (R43, R111). -/
def apWord (d : Die) (core q : Nat) (eff : ApQueue → State → ApEff) (s : State) : Host.Outcome State Fault Refusal :=
  match s.apq? d core q with
  | none => .fault .noIssuer
  | some a =>
    let ent := ((s.block? a.b).map (·.entry)).getD 0
    match eff a s with
    | .malformed => progressed (s.apMalformed d core q)
    | .hold => notReady s
    | .done s' a' =>
      match s.shortfall ent 2 1 with
      | some n => progressed ((s.setApq d core q { a with held := true }).overrun ent 2 n)
      | none => progressed ((s'.charge ent 2 1).setApq d core q a')

/-- A uniform result: an S or a K register. -/
inductive UOut where
  | s (n : Nat) (w : Word)
  | k (n : Nat) (w : Word)

/-- A uniform word (R166): once for each issue, from S registers; in an address program it runs on the program's scalar
state. `ok` is its register legality. -/
def uniformWord (i : Info) (ok : Bool) (f : (Nat → Word) → UOut) (s : State) : Host.Outcome State Fault Refusal :=
  match s.focus with
  | .ap d core q _ =>
    apWord d core q (fun a s' => if ok then .done s' (match f a.getS with
      | .s n w => (a.setS n w).advance
      | .k n w => (a.setK n w).advance) else .malformed) s
  | _ => aluWord { i with regsOk := fun _ => ok } 2 (fun c => .ok { writes := [match f c.y.getS with
      | .s n w => .s n w
      | .k n w => .k n w] }) s

/-- A SALU member. -/
def salu (o : S3) (op : Word → Word → Word) (s : State) : Host.Outcome State Fault Refusal :=
  uniformWord { cls := 0, stall := o.st, reads := [.s o.va.toNat, .s o.vb.toNat], writes := [.s o.vd.toNat] }
    (sField o.vd && sField o.va && sField o.vb) (fun r => .s o.vd.toNat (op (r o.va.toNat) (r o.vb.toNat))) s

/-- SCMP.cc: every bit of Kd, whatever the issue set. -/
def scmp (cc : Cond) (o : S3) (s : State) : Host.Outcome State Fault Refusal :=
  uniformWord { cls := 0, stall := o.st, reads := [.s o.va.toNat, .s o.vb.toNat], writes := [.k o.vd.toNat] }
    (kWrite o.vd && sField o.va && sField o.vb)
    (fun r => .k o.vd.toNat (if cc.holds (r o.va.toNat) (r o.vb.toNat) then 0xFFFFFFFF else 0)) s

def execSadd (o : S3) (s : State) := salu o (fun a b => a + b) s
def execSsub (o : S3) (s : State) := salu o (fun a b => a - b) s
def execSmul (o : S3) (s : State) := salu o (fun a b => a * b) s
def execSand (o : S3) (s : State) := salu o (fun a b => a &&& b) s
def execSor (o : S3) (s : State) := salu o (fun a b => a ||| b) s
def execSxor (o : S3) (s : State) := salu o (fun a b => a ^^^ b) s
def execSshl (o : S3) (s : State) := salu o (fun a b => a <<< shAmt b) s
def execSshr (o : S3) (s : State) := salu o (fun a b => a >>> shAmt b) s
def execScmpEq (o : S3) (s : State) := scmp .eq o s
def execScmpNe (o : S3) (s : State) := scmp .ne o s
def execScmpLt (o : S3) (s : State) := scmp .lt o s
def execScmpLe (o : S3) (s : State) := scmp .le o s
def execScmpUlt (o : S3) (s : State) := scmp .ult o s
def execScmpUle (o : S3) (s : State) := scmp .ule o s
def execScmpTst (o : S3) (s : State) := scmp .tst o s
def execScmpNtst (o : S3) (s : State) := scmp .ntst o s

def execSaddi (o : I12) (s : State) : Host.Outcome State Fault Refusal :=
  uniformWord { cls := 0, stall := o.st, reads := [.s o.va.toNat], writes := [.s o.vd.toNat] }
    (sField o.vd && sField o.va) (fun r => .s o.vd.toNat (r o.va.toNat + o.imm.signExtend 32)) s

def execSmovi (o : SU) (s : State) : Host.Outcome State Fault Refusal :=
  uniformWord { cls := 0, stall := o.st, writes := [.s o.sd.toNat] } true
    (fun _ => .s o.sd.toNat (o.imm.signExtend 32)) s

/-- SLUI keeps bits [13:0] of Sd. -/
def execSlui (o : SU) (s : State) : Host.Outcome State Fault Refusal :=
  uniformWord { cls := 0, stall := o.st, reads := [.s o.sd.toNat], writes := [.s o.sd.toNat] } true
    (fun r => .s o.sd.toNat (o.imm ++ (r o.sd.toNat).extractLsb' 0 14)) s

end Sys2Proof.Machine
end

