-- ==== Sys2Proof/Machine/Control.lean ====
section
/-! DEFINITION. Control flow: branches, calls, returns, meeting points and the CTL words (R168 to R184), ENQR apart. -/

namespace Sys2Proof.Machine

/-! ### Moving lanes -/

/-- The next clause's header for a lane that does not transfer: it falls through (R96, R99). -/
def Lane.fall (l : Lane) (hpc : Va) (hdr : Word) : Lane :=
  { l with pc := nextHeader hpc hdr, pos := .header .fell, bpPass := false, vlHere := false }

/-- The lanes of `m` moved to their places; where they part, the word's address becomes their TPAR (R168, R336). -/
def Gang.place (y : Gang) (m : Word) (pc : Va) (f : Nat → Lane → Lane) : Gang :=
  let z := y.mapLanes m f
  let split := match lanesOf m with
    | [] => false
    | l0 :: r => r.any fun l => (z.lane l).pc ≠ (z.lane l0).pc
  if split then z.mapLanes m fun _ l => { l with tpar := pc.setWidth 64 } else z

/-- The spill slots that pushes or pops of the lanes of `m` touch must have no access of the gang outstanding: spills and
refills are performed in the gang's order (R172). -/
def Ctx.spillBusy (c : Ctx) (m : Word) (pop : Bool) : Bool :=
  (lanesOf m).any fun l =>
    let d := (c.y.lane l).dep
    let j := if pop then (if 5 ≤ d then some (d - 5) else none) else (if 4 ≤ d then some (d - 4) else none)
    match j with
    | some k => c.y.localBusy c.b (c.x.spBase c.g + c.y.spillOff k l) 8
    | none => false

/-- STACK for overflow: the spill offset of the lowest lane that overflows (R173). -/
def Ctx.overflow (c : Ctx) (m : Word) : Option Trap :=
  ((lanesOf m).findSome? fun l => c.y.pushOverflow c.x l).map fun a =>
    { cause := Cause.stack, tval := BitVec.ofNat 64 (a % 2 ^ 32) }

/-- The spill writes of the lanes' pushes (R172). -/
def spillWrites (x : Block) (gi : Nat) (y : Gang) (m : Word) (ret : DWord) : Memory :=
  (lanesOf m).foldl (fun mem l =>
    match ((y.lane l).push ret).2 with
    | some old => mem.write (x.spBase gi + y.spillOff ((y.lane l).dep - 4) l) (natLe 8 old.toNat)
    | none => mem) x.mem

/-- The block with its spill writes made and its gang's acting lanes pushed and moved. -/
def pushAll (s : State) (c : Ctx) (act : Word) (ret : DWord) (f : Nat → Lane → Lane) : State :=
  s.modBlock c.b fun x =>
    match x.gangs[c.g]? with
    | none => x
    | some y =>
      let y' := y.place c.m c.pc fun n l => if act.getLsbD n then f n (l.push ret).1 else f n l
      { x with mem := spillWrites x c.g y act ret, gangs := x.gangs.set c.g y' }

/-! ### BRA and CALL (R169) -/

/-- The condition of a direct branch in a lane: the mask bit, inverted by neg; true for k = 12. -/
def jfCond (o : Jf) (k : Word) (l : Nat) : Bool := o.k.toNat = 12 || (k.getLsbD l != o.neg.getLsbD 0)

/-- The target of format J: the clause's own header plus 4 sext(off18), modulo 2^48 (DESIGN CHOICE, log 163). -/
def jfTarget (o : Jf) (hpc : Va) : Va := hpc + 4 * o.off.signExtend 48

/-- A direct branch or call. -/
def direct (isCall : Bool) (o : Jf) (s : State) : Host.Outcome State Fault Refusal :=
  issueWord { cls := 4, stall := o.st, transfer := true, reads := if o.k.toNat < 12 then [.k o.k.toNat] else [] }
    (fun c s =>
      let t := maskOf fun l => c.m.getLsbD l && jfCond o (c.y.getK o.k.toNat) l
      if o.u = 1#1 && t ≠ 0 && t ≠ c.m then .trap { cause := Cause.unif, tval := 0 }
      else
        let move : Nat → Lane → Lane := fun n l =>
          if t.getLsbD n then l.goto (jfTarget o c.hpc) else l.fall c.hpc c.hdr
        if isCall then
          match c.overflow t with
          | some tr => .trap tr
          | none => if c.spillBusy t false then .hold
            else .done (pushAll s c t ((nextHeader c.hpc c.hdr).setWidth 64) move) false
        else .done (s.modGang c.b c.g fun y => y.place c.m c.pc move) false) s

/-- BRA; in an address program, with U set, on bit 0 of its mask or with k = 12 (R213). The program has no K0. Row 4 of R111 is not applied
there: one that is not the last word of its clause transfers too (DESIGN CHOICE, log 171). -/
def execBra (o : Jf) (s : State) : Host.Outcome State Fault Refusal :=
  match s.focus with
  | .ap d core q _ =>
    apWord d core q (fun a s' =>
      match a.clause with
      | none => .malformed
      | some (hpc, h) =>
        if o.u = 0#1 || o.k.toNat = 0 then .malformed
        else if jfCond o (a.getK o.k.toNat) 0 then .done s' { a with pc := jfTarget o hpc, clause := none }
        else .done s' { a with pc := nextHeader hpc h, clause := none }) s
  | _ => direct false o s

def execCall (o : Jf) (s : State) := direct true o s

/-! ### BRX, CALLX and RET (R170, R171) -/

/-- A target that is no header address (R99). -/
def badTarget (a : DWord) : Bool := a.extractLsb' 48 16 ≠ 0 || a.extractLsb' 0 2 ≠ 0

/-- BRX and CALLX, lane by lane (R124): the pair check, the target check, and for CALLX the push (R170, R172). -/
def indirect (isCall : Bool) (o : Jxr) (s : State) : Host.Outcome State Fault Refusal :=
  issueWord { cls := 4, stall := o.st, transfer := true, regsOk := fun _ => evenV o.va,
              reads := pkReads o.pk ++ [.v o.va.toNat, .v (o.va.toNat + 1)] }
    (fun c s =>
      let m := c.active o.pk
      let chk : Nat → Option Trap := fun l => match pairChk c o.va 0 false l with
        | some t => some t
        | none => if badTarget (c.pair o.va l) then some { cause := Cause.target, tval := c.pair o.va l }
          else if isCall then c.overflow (1#32 <<< l) else none
      match firstLane m chk with
      | .error t => .trap t
      | .ok _ =>
        let move : Nat → Lane → Lane := fun n l =>
          if m.getLsbD n then l.goto ((c.pair o.va n).setWidth 48) else l.fall c.hpc c.hdr
        if isCall then
          if c.spillBusy m false then .hold
          else .done (pushAll s c m ((nextHeader c.hpc c.hdr).setWidth 64) move) false
        else .done (s.modGang c.b c.g fun y => y.place c.m c.pc move) false) s

def execBrx (o : Jxr) (s : State) := indirect false o s
def execCallx (o : Jxr) (s : State) := indirect true o s

/-- RET, lane by lane (R124): STACK for an empty stack, TARGET for a popped address that is no header address. -/
def execRet (o : JxRet) (s : State) : Host.Outcome State Fault Refusal :=
  issueWord { cls := 4, stall := o.st, transfer := true, reads := pkReads o.pk }
    (fun c s =>
      let m := c.active o.pk
      let top : Nat → DWord := fun l => (c.y.lane l).stack.headD 0
      match firstLane m fun l =>
          if (c.y.lane l).dep = 0 then some { cause := Cause.stack, tval := BitVec.ofNat 64 (2 ^ 63) }
          else if badTarget (top l) then some { cause := Cause.target, tval := top l }
          else none with
      | .error t => .trap t
      | .ok _ =>
        if c.spillBusy m true then .hold
        else .done (s.modGang c.b c.g fun y => y.mapLanes c.m fun n l =>
          if m.getLsbD n then
            let (a, l') := l.pop (c.x.spDword c.g (y.spillOff (l.dep - 5) n))
            l'.goto (a.setWidth 48)
          else l.fall c.hpc c.hdr) false) s

/-! ### JOIN, LEAVE and WAITK (R65, R66, R176) -/

/-- A K register as destination of JOIN and LEAVE, in field a. -/
def joinReg (a : BitVec 5) : Bool := 1 ≤ a.toNat && a.toNat < 12

/-- JOIN and LEAVE. -/
def meetSet (o : XA) (op : Word → Word → Word) (s : State) : Host.Outcome State Fault Refusal :=
  issueWord { cls := 5, stall := o.st, sideEff := true, regsOk := fun _ => joinReg o.a, reads := [.k o.a.toNat] }
    (fun c s => .done (s.modGang c.b c.g fun y => y.setK o.a.toNat (op (y.getK o.a.toNat) c.m)) true) s

def execJoin (o : XA) (s : State) := meetSet o (fun k m => k ||| m) s
def execLeave (o : XA) (s : State) := meetSet o (fun k m => k &&& ~~~m) s

/-- WAITK: a lane that re-executes its region goes through each WAITK that already released it there; the others wait, until
the release condition holds, which is tested at once (`Gang.retire`). -/
def execWaitk (o : XA) (s : State) : Host.Outcome State Fault Refusal :=
  issueWord { cls := 5, stall := o.st, regsOk := fun _ => o.a.toNat < 12, reads := [.k o.a.toNat] }
    (fun c s => .done (s.modGang c.b c.g fun y => y.mapLanes c.m fun _ l =>
      if l.relSeen < l.relCount then { l.advance false with relSeen := l.relSeen + 1 }
      else { l with wait := .waitk o.a.toNat c.pc }) false) s

/-! ### CTL (R177 to R185) -/

/-- A pending word that returns nothing: a store or an AST (R100). -/
def Pend.silent (p : Pend) : Bool :=
  match p.kind with
  | .store | .mxstore => true
  | .atomic => p.code % 16 = 15
  | _ => false

/-- The lanes that a read access of a pending word serves: those of its unit, all of a TBRD's word, or its own. -/
def Pend.serves (p : Pend) (a : LaneAcc) : Word :=
  match p.kind with
  | .mxload => BitVec.ofNat 32 (leNat a.data2) &&& p.mask
  | .tbrd => p.mask
  | _ => maskOf (· = a.lane)

/-- A pending word after lanes exit (R177): their register results are dropped, and the reads that serve no other lane. -/
def Pend.dropLanes (p : Pend) (m : Word) : Pend :=
  if p.silent then p else
  match p.kind with
  | .store | .mxstore => p
  | .atomic | .lockop => if p.mask &&& ~~~m = 0 then { p with dst := [], mask := 0 } else { p with mask := p.mask &&& ~~~m }
  | _ => { p with mask := p.mask &&& ~~~m, accs := p.accs.filter fun a => p.serves a &&& ~~~m ≠ 0 }

/-- A pending word whose register results have all been dropped: it releases its counter. An atomic still performs. -/
def Pend.released (p : Pend) (m : Word) : Bool := !p.silent && p.mask ≠ 0 && p.mask &&& ~~~m = 0

/-- What is left of a pending word after lanes exit: nothing, if its results are dropped and it has performed. -/
def Pend.atExit (p : Pend) (m : Word) : Option Pend :=
  let q := p.dropLanes m
  if p.released m then (if q.accs.all fun a => a.performed then none else some { q with dc := none }) else some q

/-- The lanes of `m` stop being live (R65, R177): their call stacks are discarded and their outstanding register results
dropped. When no lane of the user handler is left, the handler ends (log 20). -/
def Gang.exitLanes (y : Gang) (m : Word) (handler : Va) : Gang :=
  let y1 := y.mapLanes m fun _ l => { l with dep := 0, stack := [], wait := .none, hint := none }
  let y2 := { y1 with k := y1.k.set 0 (y1.live &&& ~~~m) }
  let y3 : Gang := (y2.pends.filter fun p => p.released m).foldl (fun z p => z.decD p.dc) y2
  let y4 := { y3 with pends := y3.pends.filterMap (Pend.atExit · m) }
  match y4.handler with
  | some h => if h.lanes &&& y4.live = 0 then ({ y4 with handler := none }).nextPending handler else y4
  | none => y4

/-- YIELD: FCNT := FAIR with another non-blocked fragment, so that the sweep begins at the next issue; during a sweep, the turn
ends; with no other non-blocked fragment it is a NOP. -/
def Gang.yieldNow (y : Gang) (m : Word) : Gang :=
  match y.turn with
  | some (t, iss, _) => if (y.awake &&& ~~~m) ≠ 0 then { y with turn := some (t, iss, y.fair.toNat) } else y
  | none => if (y.awake &&& ~~~m) ≠ 0 then { y with fcnt := y.fair.toNat, srvd := m } else y

def execYield (o : X0) (s : State) : Host.Outcome State Fault Refusal :=
  issueWord { cls := 4, stall := o.st } (fun c s => .done (s.modGang c.b c.g fun y => y.yieldNow c.m) true) s

/-- The code of BRK and TRAP, b x 32 + c. -/
def xbcCode (o : XBC) : DWord := (o.b ++ o.c).setWidth 64

def execBrk (o : XBC) (s : State) : Host.Outcome State Fault Refusal :=
  issueWord { cls := 4, stall := o.st } (fun _ _ => .trap { cause := Cause.brk, tval := xbcCode o }) s

def execTrap (o : XBC) (s : State) : Host.Outcome State Fault Refusal :=
  issueWord { cls := 4, stall := o.st } (fun _ _ => .trap { cause := Cause.trapn, tval := xbcCode o }) s

def execNop (o : X0) (s : State) : Host.Outcome State Fault Refusal :=
  issueWord { cls := 4, stall := o.st, nop := true } (fun _ s => .done s true) s

/-- RREF (R181): the refresh, then S[a] with the slot, its GEN, and bit 31 if the block moved. -/
def execRref (o : XA) (s : State) : Host.Outcome State Fault Refusal :=
  issueWord { cls := 4, stall := o.st, writes := [.s o.a.toNat] }
    (fun c s =>
      let s1 := s.refresh c.b
      let n := ((s1.block? c.b).map (·.rootSlot)).getD c.x.rootSlot
      let w : Word := BitVec.ofNat 32 (n + (s1.root n).gen.toNat * 2 ^ 12 + (if n = c.x.rootSlot then 0 else 2 ^ 31))
      .done (s1.modGang c.b c.g fun y => y.setS o.a.toNat w) true) s

/-- A remaining budget as the BUDI, BUDM and BUDA CSRs read it (R43): all ones without a limit, and where it does not fit (DESIGN CHOICE,
log 162). -/
def Block.budgetCsr (x : Block) (cls : Nat) : Word :=
  match x.rep[cls]? with
  | some (some n) => BitVec.ofNat 32 (min n (2 ^ 32 - 1))
  | _ => 0xFFFFFFFF

/-- CYC of a block's core. -/
def State.cycOf (s : State) (x : Block) : Nat := s.cyc[x.die]

/-- BGET's value (R182). -/
def bgetValue (s : State) (x : Block) (c : Nat) : DWord :=
  if c = 3 then
    match x.repD with
    | some d => BitVec.ofInt 64 (d - (s.cycOf x - x.repCyc : Nat))
    | none => BitVec.allOnes 64
  else (x.budgetCsr c).setWidth 64

def execBget (o : XAC) (s : State) : Host.Outcome State Fault Refusal :=
  aluWord { cls := 4, stall := o.st, regsOk := fun _ => sPair o.a && o.c.toNat ≤ 3,
            writes := [.s o.a.toNat, .s (o.a.toNat + 1)] } 2
    (fun c =>
      let v := bgetValue s c.x o.c.toNat
      .ok { writes := [.s o.a.toNat (v.extractLsb' 0 32), .s (o.a.toNat + 1) (v.extractLsb' 32 32)] }) s

/-- TRET (R184): legal only for lanes in the user handler. -/
def tretWord (mode : Nat) (o : X0) (s : State) : Host.Outcome State Fault Refusal :=
  issueWord { cls := 4, stall := o.st, transfer := true }
    (fun c s =>
      let ok : Bool := match c.y.handler with | some h => c.m &&& ~~~h.lanes = 0 | none => false
      if ok then .done (s.modGang c.b c.g fun y => (y.mapLanes c.m fun _ l => l.fall c.hpc c.hdr).tret c.x c.g mode) false
      else .trap s.illTrap) s

def execTretRetry (o : X0) (s : State) := tretWord 0 o s
def execTretCont (o : X0) (s : State) := tretWord 1 o s
def execTretResume (o : X0) (s : State) := tretWord 2 o s

end Sys2Proof.Machine
end

