-- ==== Sys2Proof/Machine/Numeric.lean ====
section
/-! DEFINITION. Number formats and rounding (R125 to R137): every value is an exact dyadic, rounded once at the end. -/

namespace Sys2Proof.Machine

/-! ### Exact values -/

/-- A value: NaN, an infinity, or a finite `(-1)^neg * m * 2^e` (a zero keeps its sign). -/
inductive Num where
  | nan
  | inf (neg : Bool)
  | fin (neg : Bool) (m : Nat) (e : Int)
  deriving DecidableEq, Repr

/-- A magnitude `m * 2^e`, or, where `sticky`, a value strictly between it and `(m + 1) * 2^e`. -/
structure Mag where
  m : Nat
  e : Int
  sticky : Bool
  deriving DecidableEq, Repr

/-- The kinds of special codes of a floating format (R125). -/
inductive FmtKind where
  | ieee | e4m3 | none
  deriving DecidableEq, Repr

/-- A floating format: exponent bits, fraction bits, bias. -/
structure Fmt where
  eb : Nat
  mb : Nat
  bias : Int
  kind : FmtKind
  /-- Finite overflow saturates (R137). -/
  sat : Bool
  deriving DecidableEq, Repr

def fmtF32 : Fmt := ⟨8, 23, 127, .ieee, false⟩
def fmtF16 : Fmt := ⟨5, 10, 15, .ieee, false⟩
def fmtBF16 : Fmt := ⟨8, 7, 127, .ieee, false⟩
def fmtE4M3 : Fmt := ⟨4, 3, 7, .e4m3, true⟩
def fmtE5M2 : Fmt := ⟨5, 2, 15, .ieee, true⟩
def fmtE2M3 : Fmt := ⟨2, 3, 1, .none, true⟩
def fmtE3M2 : Fmt := ⟨3, 2, 3, .none, true⟩
def fmtE2M1 : Fmt := ⟨2, 1, 1, .none, true⟩

/-- The value of a floating code (R125). -/
def Fmt.value (f : Fmt) (code : Nat) : Num :=
  let man := code % 2 ^ f.mb
  let ex := code / 2 ^ f.mb % 2 ^ f.eb
  let neg := code / 2 ^ (f.mb + f.eb) % 2 = 1
  if f.kind = .ieee && ex = 2 ^ f.eb - 1 then (if man = 0 then .inf neg else .nan)
  else if f.kind = .e4m3 && ex = 2 ^ f.eb - 1 && man = 2 ^ f.mb - 1 then .nan
  else if ex = 0 then .fin neg man (1 - f.bias - f.mb)
  else .fin neg (2 ^ f.mb + man) (ex - f.bias - f.mb)

/-- The code of the largest finite magnitude. -/
def Fmt.maxCode (f : Fmt) : Nat :=
  match f.kind with
  | .ieee => (2 ^ f.eb - 1) * 2 ^ f.mb - 1
  | .e4m3 => 2 ^ (f.eb + f.mb) - 2
  | .none => 2 ^ (f.eb + f.mb) - 1

/-- The MK8 magnitude of a code without its sign, in units of 2^-11 (R130); 0 for code 0, none for NaN. -/
def mk8Units (c : Nat) : Option Nat :=
  let t := c % 64
  let d := c / 64 % 2
  if t = 0 then (if d = 0 then some 0 else none)
  else
    let m := Nat.log2 t
    let big := 5 - m
    let e := if 1 ≤ m then t / 2 ^ (m - 1) % 2 else 0
    let f := if 1 ≤ m then t % 2 ^ (m - 1) else 0
    let fb := m - 1
    let k := 2 * big + e
    let num := 2 ^ fb + f
    if d = 1 then some (num * 2 ^ (11 + k) / 2 ^ fb) else some (num * 2 ^ (10 - k) / 2 ^ fb)

/-- The value of an MK8 byte (R130). -/
def mk8Value (c : Nat) : Num :=
  match mk8Units (c % 128) with
  | none => .nan
  | some u => .fin (c / 128 = 1) u (-11)

/-! ### Rounding modes (R135) -/

inductive Rm where
  | rne | rtz | rdn | rup | rna | sr
  deriving DecidableEq, Repr

/-- The mode of a code; 6 and 7 are never held. -/
def Rm.ofCode (n : Nat) : Rm :=
  match n with
  | 0 => .rne
  | 1 => .rtz
  | 2 => .rdn
  | 3 => .rup
  | 4 => .rna
  | _ => .sr

/-- Whether an inexact magnitude moves up from its lower candidate: `cmp` compares the remainder with a half (0 below, 1 equal,
2 above), `odd` is the parity of the lower candidate, `phi` the fraction in 2^-16 rounded down and `r` the draw of R136. -/
def Rm.up (rm : Rm) (neg : Bool) (cmp : Nat) (odd : Bool) (phi r : Nat) : Bool :=
  match rm with
  | .rne => cmp = 2 || (cmp = 1 && odd)
  | .rna => 1 ≤ cmp
  | .rtz => false
  | .rdn => neg
  | .rup => !neg
  | .sr => r < phi

/-- A magnitude over a unit `2^q`: the whole units below it, the comparison of the rest with a half unit, the rest in 2^-16
rounded down, and whether there is a rest. -/
def Mag.units (x : Mag) (q : Int) : Nat × Nat × Nat × Bool :=
  if q ≤ x.e then (x.m * 2 ^ (x.e - q).toNat, 0, 0, x.sticky)
  else
    let d := (q - x.e).toNat
    let lo := x.m / 2 ^ d
    let r := x.m % 2 ^ d
    let h := 2 ^ (d - 1)
    let c := if r < h then 0 else if r = h && !x.sticky then 1 else 2
    (lo, c, r * 65536 / 2 ^ d, r ≠ 0 || x.sticky)

/-- A rounded result: its code and its flags. -/
structure Rounded where
  code : Nat
  fl : FlagSet
  deriving DecidableEq, Repr

/-- log2 of a magnitude, rounded down, for a non-zero one. -/
def Mag.floorLog (x : Mag) : Int := (Nat.log2 x.m : Int) + x.e

/-- A non-zero magnitude rounded to a floating format, with its sign (R136, R137). -/
def Fmt.roundMag (f : Fmt) (rm : Rm) (r : Nat) (neg : Bool) (x : Mag) : Rounded :=
  let sgn := if neg then 2 ^ (f.eb + f.mb) else 0
  if x.m = 0 && !x.sticky then ⟨sgn, 0⟩
  else
    let qmin : Int := 1 - f.bias - f.mb
    let q := max (x.floorLog - f.mb) qmin
    let (lo, c, phi, inex) := x.units q
    let base := (q - qmin).toNat * 2 ^ f.mb + lo
    let beyond := f.maxCode < base || (base = f.maxCode && inex)
    let rm' := if rm = .sr && beyond then .rne else rm
    let code := if inex && rm'.up neg c (lo % 2 = 1) phi r then base + 1 else base
    if f.maxCode < code then
      let toInf := !f.sat && (match rm' with | .rtz => false | .rdn => neg | .rup => !neg | _ => true)
      ⟨sgn + (if toInf then f.maxCode + 1 else f.maxCode), flagOF ||| flagNX⟩
    else
      let tiny := x.floorLog < 1 - f.bias
      ⟨sgn + code, flagIf inex flagNX ||| flagIf (inex && tiny) flagUF⟩

/-- Rounding of a signed magnitude to an integer magnitude (for INT8 codes and integer tags). -/
def Mag.roundInt (x : Mag) (rm : Rm) (r : Nat) (neg : Bool) : Nat × Bool :=
  let (lo, c, phi, inex) := x.units 0
  (if inex && rm.up neg c (lo % 2 = 1) phi r then lo + 1 else lo, inex)

/-- A magnitude beyond an integer. -/
def Mag.beyond (x : Mag) (n : Nat) : Bool := n < (x.units 0).1 || ((x.units 0).1 = n && (x.units 0).2.2.2)

/-- The mode in which a magnitude rounds to an integer whose largest is `n`: SR rounds one beyond it as RNE (R136). -/
def Mag.overMode (x : Mag) (rm : Rm) (n : Nat) : Rm := if rm = .sr && x.beyond n then .rne else rm

/-- Comparison of a magnitude with `u * 2^-11`: whether the magnitude is below it. -/
def Mag.ltUnits (x : Mag) (u : Nat) : Bool :=
  if -11 ≤ x.e then x.m * 2 ^ (x.e + 11).toNat < u else x.m < u * 2 ^ (-11 - x.e).toNat

/-- The MK8 codes without sign, with their magnitudes in 2^-11: 0 and the 126 finite magnitudes. -/
def mk8Table : List (Nat × Nat) :=
  (List.range 128).filterMap fun c => (mk8Units c).map fun u => (u, c)

/-- A magnitude rounded to MK8 (R132). -/
def mk8Round (rm : Rm) (r : Nat) (neg : Bool) (x : Mag) : Rounded :=
  let sgn := if neg then 128 else 0
  if x.m = 0 && !x.sticky then ⟨sgn, 0⟩
  else
    let top := 2 ^ 21
    let past := !x.ltUnits top && (x.sticky || !((if -11 ≤ x.e then x.m * 2 ^ (x.e + 11).toNat else x.m / 2 ^ (-11 - x.e).toNat) = top
      && (-11 ≤ x.e || x.m % 2 ^ (-11 - x.e).toNat = 0)))
    if past then ⟨sgn + 0x41, flagOF ||| flagNX⟩
    else
      -- the candidates: the greatest magnitude not above x and the least magnitude above it
      let a := mk8Table.foldl (fun (b : Nat × Nat) p => if !x.ltUnits p.1 && b.1 ≤ p.1 then p else b) (0, 0)
      let b := mk8Table.foldl (fun (b : Nat × Nat) p => if x.ltUnits p.1 && p.1 < b.1 then p else b) (top + 1, 0x41)
      -- the rest over the gap, both in a common unit
      let s := (max 0 (-11 - x.e)).toNat
      let xm := if -11 ≤ x.e then x.m * 2 ^ (x.e + 11).toNat else x.m
      let rest := xm - a.1 * 2 ^ s
      let gap := (b.1 - a.1) * 2 ^ s
      if rest = 0 && !x.sticky then ⟨sgn + a.2, 0⟩
      else
        let c := if 2 * rest < gap then 0 else if 2 * rest = gap && !x.sticky then 1 else 2
        let aEven := a.2 % 2 = 0
        let bEven := b.2 % 2 = 0
        let tieUp := if aEven && !bEven then false else true
        let up := (match rm with
          | .rne => c = 2 || (c = 1 && tieUp)
          | m => m.up neg c false (rest * 65536 / gap) r)
        let code := if up then b.2 else a.2
        ⟨sgn + code, flagNX ||| flagIf (code = 0) flagUF⟩

/-! ### Element formats (R125, R126) -/

/-- What one element of a tag is. -/
inductive Elem where
  | float (f : Fmt)
  | int8
  | mk8
  /-- An integer of a width. -/
  | int (signed : Bool) (w : Nat)
  deriving DecidableEq, Repr

/-- The element of a tag, with its width in bits in the register; none for RAW, I64LO, I64HI and reserved codes. -/
def tagElem (t : BitVec 5) : Option (Elem × Nat) :=
  match t.toNat with
  | 0x01 => some (.int true 32, 32)
  | 0x02 => some (.int false 32, 32)
  | 0x03 => some (.int true 16, 16)
  | 0x04 => some (.int true 8, 8)
  | 0x05 => some (.float fmtF32, 32)
  | 0x06 => some (.float fmtF16, 16)
  | 0x07 => some (.float fmtBF16, 16)
  | 0x08 => some (.float fmtE4M3, 8)
  | 0x09 => some (.float fmtE5M2, 8)
  | 0x0A => some (.mk8, 8)
  | 0x0B => some (.int8, 8)
  | 0x0C => some (.float fmtE2M1, 4)
  | 0x0D => some (.float fmtE2M3, 8)
  | 0x0E => some (.float fmtE3M2, 8)
  | 0x10 => some (.float fmtE4M3, 8)
  | 0x11 => some (.float fmtE5M2, 8)
  | 0x12 => some (.float fmtE2M3, 8)
  | 0x13 => some (.float fmtE3M2, 8)
  | 0x14 => some (.float fmtE2M1, 8)
  | 0x15 => some (.int8, 8)
  | 0x16 => some (.mk8, 8)
  | _ => none

/-- The value of an element code (R125, R130). Codes of formats shorter than their field are read by their low bits (R126). -/
def Elem.value (k : Elem) (code : Nat) : Num :=
  match k with
  | .float f => f.value (code % 2 ^ (1 + f.eb + f.mb))
  | .int8 => let c := code % 256; if 128 ≤ c then .fin true (256 - c) (-6) else .fin false c (-6)
  | .mk8 => mk8Value (code % 256)
  | .int sg w => let c := code % 2 ^ w; if sg && 2 ^ (w - 1) ≤ c then .fin true (2 ^ w - c) 0 else .fin false c 0

/-- A value scaled by `2^k`. -/
def Num.scale (x : Num) (k : Int) : Num :=
  match x with
  | .fin n m e => .fin n m (e + k)
  | y => y

/-- The value of an element under an E8M0 scale (R127). -/
def scaledValue (k : Elem) (code scale : Nat) : Num :=
  if scale = 255 then .nan else (k.value code).scale ((scale : Int) - 127)

/-- The canonical code of NaN, or of what a format without NaN takes instead, with its flag (R137, R139). -/
def Elem.nan (k : Elem) : Rounded :=
  match k with
  | .float f => match f.kind with
    | .ieee => if f.sat then ⟨0x7F, 0⟩ else ⟨(2 ^ f.eb - 1) * 2 ^ f.mb + 2 ^ (f.mb - 1), 0⟩
    | .e4m3 => ⟨0x7F, 0⟩
    | .none => ⟨0, flagNV⟩
  | .int8 => ⟨0, flagNV⟩
  | .mk8 => ⟨0x40, 0⟩
  | .int _ _ => ⟨0, flagNV⟩

/-- A rounded integer kept in its range (R137): the code, with NV when out of range and NX when inexact in range. -/
def intCode (sg : Bool) (w : Nat) (neg : Bool) (n : Nat) (inex : Bool) : Rounded :=
  if sg then
    if neg then
      if 2 ^ (w - 1) < n then ⟨2 ^ (w - 1), flagNV⟩ else ⟨(2 ^ w - n) % 2 ^ w, flagIf inex flagNX⟩
    else if 2 ^ (w - 1) ≤ n then ⟨2 ^ (w - 1) - 1, flagNV⟩ else ⟨n, flagIf inex flagNX⟩
  else if neg && n ≠ 0 then ⟨0, flagNV⟩
  else if 2 ^ w ≤ n then ⟨2 ^ w - 1, flagNV⟩ else ⟨n, flagIf inex flagNX⟩

/-- The largest magnitude of an integer tag's numbers of a sign, as R136 takes it under SR: -0.3 to an unsigned tag is not beyond its numbers'
magnitudes, and takes its draw (DEDUCED, log 154). -/
def intLimit (sg : Bool) (w : Nat) (neg : Bool) : Nat := if sg then (if neg then 2 ^ (w - 1) else 2 ^ (w - 1) - 1) else 2 ^ w - 1

/-- A value rounded into an element format (R132, R135, R136, R137), with `r` the draw of R136. -/
def Elem.round (k : Elem) (rm : Rm) (r : Nat) (neg : Bool) (x : Mag) : Rounded :=
  match k with
  | .float f => f.roundMag rm r neg x
  | .int8 =>
    let y : Mag := { x with e := x.e + 6 }
    let (n, inex) := y.roundInt (y.overMode rm 127) r neg
    if 127 < n then ⟨if neg then 129 else 127, flagOF ||| flagNX⟩
    else ⟨if neg then (256 - n) % 256 else n, flagIf inex flagNX ||| flagIf (inex && decide (x.floorLog < -6)) flagUF⟩
  | .mk8 => mk8Round rm r neg x
  | .int sg w => let (n, inex) := x.roundInt (x.overMode rm (intLimit sg w neg)) r neg; intCode sg w neg n inex

/-- An infinity into an element format (R137). -/
def Elem.inf (k : Elem) (neg : Bool) : Rounded :=
  match k with
  | .float f =>
    let sgn := if neg then 2 ^ (f.eb + f.mb) else 0
    if f.kind = .ieee then ⟨sgn + (2 ^ f.eb - 1) * 2 ^ f.mb, 0⟩ else ⟨sgn + f.maxCode, flagOF⟩
  | .int8 => ⟨if neg then 129 else 127, flagOF⟩
  | .mk8 => ⟨(if neg then 128 else 0) + 0x41, flagOF ||| flagNX⟩
  | .int sg w => ⟨if neg then (if sg then 2 ^ (w - 1) else 0) else (if sg then 2 ^ (w - 1) - 1 else 2 ^ w - 1), flagNV⟩

/-- A value converted into an element format. -/
def Elem.ofNum (k : Elem) (rm : Rm) (r : Nat) (x : Num) : Rounded :=
  match x with
  | .nan => k.nan
  | .inf neg => k.inf neg
  | .fin neg m e => k.round rm r neg ⟨m, e, false⟩

/-! ### Stochastic draws (R136) -/

/-- The state after one draw. -/
def srNext (x : Word) : Word :=
  let a := x ^^^ (x <<< 13)
  let b := a ^^^ (a >>> 17)
  b ^^^ (b <<< 5)

/-- The state after `n` draws. -/
def srAfter (x : Word) (n : Nat) : Word := (List.range n).foldl (fun a _ => srNext a) x

/-- r of draw number `n`, from 0. -/
def srDraw (x : Word) (n : Nat) : Nat := ((srAfter x (n + 1)).extractLsb' 16 16).toNat

/-- The position of a lane among the active lanes, in ascending order. -/
def lanePos (m : Word) (l : Nat) : Nat := ((List.range l).filter fun k => m.getLsbD k).length

/-- The number of lanes of a mask. -/
def laneCount (m : Word) : Nat := (lanesOf m).length

/-! ### Exact arithmetic -/

/-- A finite value over a unit `2^e`, as an integer; `e` is at most its exponent. -/
def toUnits (neg : Bool) (m : Nat) (e u : Int) : Int :=
  let v : Int := (m * 2 ^ (e - u).toNat : Nat)
  if neg then -v else v

/-- The exact product; 0 times an infinity is invalid. -/
def Num.mul (a b : Num) : Num × Bool :=
  match a, b with
  | .nan, _ => (.nan, false)
  | _, .nan => (.nan, false)
  | .inf n, .inf k => (.inf (n != k), false)
  | .inf n, .fin k m _ => if m = 0 then (.nan, true) else (.inf (n != k), false)
  | .fin k m _, .inf n => if m = 0 then (.nan, true) else (.inf (n != k), false)
  | .fin n m e, .fin k m' e' => (.fin (n != k) (m * m') (e + e'), false)

/-- The value with its sign inverted. -/
def Num.neg (a : Num) : Num :=
  match a with
  | .nan => .nan
  | .inf n => .inf (!n)
  | .fin n m e => .fin (!n) m e

def Num.isNan (a : Num) : Bool := match a with | .nan => true | _ => false
def Num.isInf (a : Num) (neg : Bool) : Bool := match a with | .inf n => n = neg | _ => false
def Num.isZero (a : Num) : Bool := match a with | .fin _ m _ => m = 0 | _ => false
def Num.sign (a : Num) : Bool := match a with | .nan => false | .inf n => n | .fin n _ _ => n

/-- The exact sum of a list of values: NaN if one is, or if infinities of both signs meet (invalid). An exact zero sum of
values that are not all of one sign is +0, or -0 under RDN (IEEE 754). -/
def sumNum (l : List Num) (rm : Rm) : Num × Bool :=
  let p := l.any fun x => x.isInf false
  let n := l.any fun x => x.isInf true
  if p && n then (.nan, true)
  else if l.any Num.isNan then (.nan, false)
  else if p then (.inf false, false)
  else if n then (.inf true, false)
  else
    let u : Int := l.foldl (fun a x => match x with | .fin _ m e => if m = 0 then a else min a e | _ => a) 0
    let t : Int := l.foldl (fun a x => match x with | .fin s m e => if m = 0 then a else a + toUnits s m e u | _ => a) 0
    if t = 0 then
      let allNeg := l.all Num.sign
      let allPos := l.all fun x => !x.sign
      let zeros := l.all Num.isZero
      (.fin (if zeros && allNeg then true else if zeros && allPos then false else rm = .rdn) 0 0, false)
    else (.fin (t < 0) t.natAbs u, false)

/-- A comparison key of two finite or infinite values: whether `a < b`, with -0 equal to +0. -/
def Num.lt (a b : Num) : Bool :=
  match a, b with
  | .inf n, .inf k => n && !k
  | .inf n, .fin _ _ _ => n
  | .fin _ _ _, .inf k => !k
  | .fin n m e, .fin k m' e' => toUnits n m e (min e e') < toUnits k m' e' (min e e')
  | _, _ => false

/-- Equality of value, with -0 equal to +0; false with a NaN. -/
def Num.eqv (a b : Num) : Bool := !a.isNan && !b.isNan && !a.lt b && !b.lt a

/-! ### Roots and transcendentals, as exact brackets -/

/-- Newton's step for the integer square root, from above. -/
def isqrtGo (n fuel x : Nat) : Nat :=
  match fuel with
  | 0 => x
  | k + 1 => let y := (x + n / x) / 2; if y < x then isqrtGo n k y else x

/-- The integer square root. -/
def isqrt (n : Nat) : Nat := if n = 0 then 0 else isqrtGo n 128 (2 ^ (Nat.log2 n / 2 + 1))

/-- 1 / (m 2^e), with 96 bits of quotient. -/
def magRecip (m : Nat) (e : Int) : Mag :=
  let p := Nat.log2 m + 96
  ⟨2 ^ p / m, -e - p, 2 ^ p % m ≠ 0⟩

/-- The square root of m 2^e. -/
def magSqrt (m : Nat) (e : Int) : Mag :=
  let e' := if e % 2 = 0 then e - 160 else e - 161
  let n := m * 2 ^ (e - e').toNat
  let r := isqrt n
  ⟨r, e' / 2, r * r ≠ n⟩

/-- 1 / sqrt(m 2^e): the root of the reciprocal, exact where both are. -/
def magRsqrt (m : Nat) (e : Int) : Mag :=
  let e' := if e % 2 = 0 then e else e - 1
  let m' := m * 2 ^ (e - e').toNat
  let p := 2 * (Nat.log2 m' + 100)
  let q := 2 ^ p / m'
  let r := isqrt q
  ⟨r, -(p / 2 : Nat) - e' / 2, !(r * r * m' = 2 ^ p)⟩

/-- Fraction bits of the fixed-point work below. -/
def fxBits : Nat := 840

/-- The bits dropped from a fixed-point result, whose error is far below them. -/
def fxGuard : Nat := 60

/-- A fixed-point number as a bracketed magnitude: an irrational value lies strictly inside. -/
def fxMag (v : Nat) : Mag := ⟨v / 2 ^ fxGuard, -(fxBits - fxGuard : Nat), true⟩

/-- Σ t^(2k+1) / (2k+1), the series of atanh, or of atan where `alt`: `t` and the sum in fixed point, `p` the running power. -/
def atSeries (alt : Bool) (t2 fuel k : Nat) (p acc : Int) : Int :=
  match fuel with
  | 0 => acc
  | n + 1 =>
    let term := p / (2 * k + 1 : Nat)
    let p' := p * t2 / 2 ^ fxBits
    atSeries alt t2 n (k + 1) p' (if alt && k % 2 = 1 then acc - term else acc + term)

/-- atanh or atan of a fixed-point number below 1. -/
def fxAt (alt : Bool) (t fuel : Nat) : Nat := (atSeries alt (t * t / 2 ^ fxBits) fuel 0 t 0).toNat

/-- ln 2 = 2 atanh (1/3). -/
def fxLn2 : Nat := 2 * fxAt false (2 ^ fxBits / 3) 280

/-- pi / 2 = 2 (4 atan (1/5) - atan (1/239)). -/
def fxHalfPi : Nat := 2 * (4 * fxAt true (2 ^ fxBits / 5) 190 - fxAt true (2 ^ fxBits / 239) 60)

/-- Σ r^k / k! from `k`: `term` is r^(k-1)/(k-1)!. -/
def expSeries (r fuel k term acc : Nat) : Nat :=
  match fuel with
  | 0 => acc
  | n + 1 => let t := term * r / 2 ^ fxBits / k; expSeries r n (k + 1) t (acc + t)

/-- e^r for 0 <= r < 1 in fixed point. -/
def fxExp (r : Nat) : Nat := expSeries r 190 1 (2 ^ fxBits) (2 ^ fxBits)

/-- Sum of the series of sin (from r) or cos (from 1): alternating terms r^2 / (k (k+1)) apart. -/
def sinSeries (r2 fuel k : Nat) (term acc : Int) : Int :=
  match fuel with
  | 0 => acc
  | n + 1 => let t := -(term * r2 / 2 ^ fxBits / (k * (k + 1) : Nat)); sinSeries r2 n (k + 2) t (acc + t)

def fxSin (r : Nat) : Nat := (sinSeries (r * r / 2 ^ fxBits) 100 2 r r).toNat
def fxCos (r : Nat) : Nat := (sinSeries (r * r / 2 ^ fxBits) 100 1 (2 ^ fxBits) (2 ^ fxBits)).toNat

/-- A finite value in fixed point, rounded down; its exponent is above -fxBits for every FP32 value. -/
def fxOf (m : Nat) (e : Int) : Nat := m * 2 ^ (e + fxBits).toNat

/-- 2^x for a finite non-zero x, as a bracketed magnitude: exact for an integer x. -/
def magExp2 (neg : Bool) (m : Nat) (e : Int) : Mag :=
  let v := fxOf m e
  let n : Int := if neg then -(((v + 2 ^ fxBits - 1) / 2 ^ fxBits : Nat) : Int) else ((v / 2 ^ fxBits : Nat) : Int)
  let f := (if neg then (2 ^ fxBits - v % 2 ^ fxBits) % 2 ^ fxBits else v % 2 ^ fxBits)
  if f = 0 then ⟨1, n, false⟩
  else
    let y := fxMag (fxExp (f * fxLn2 / 2 ^ fxBits))
    ⟨y.m, y.e + n, true⟩

/-- log2 of a positive finite value: sign and bracketed magnitude; exact for a power of two. -/
def magLog2 (m : Nat) (e : Int) : Bool × Mag :=
  let b := Nat.log2 m
  let n : Int := e + b
  if m = 2 ^ b then (n < 0, ⟨n.natAbs, 0, false⟩)
  else
    let y := m * 2 ^ fxBits / 2 ^ b
    let t := (y - 2 ^ fxBits) * 2 ^ fxBits / (y + 2 ^ fxBits)
    let l : Int := (2 * fxAt false t 280 * 2 ^ fxBits / fxLn2 : Nat)
    let v : Int := n * (2 ^ fxBits : Nat) + l
    (v < 0, fxMag v.natAbs)

/-- sin or cos of a finite non-zero x, with exact argument reduction: sign and bracketed magnitude. -/
def magSinCos (isCos neg : Bool) (m : Nat) (e : Int) : Bool × Mag :=
  let v := fxOf m e
  let k := v / fxHalfPi
  let r := v % fxHalfPi
  let q := (if isCos then k + 1 else k) % 4
  let y := if q % 2 = 0 then fxSin r else fxCos r
  ((if isCos then false else neg) != (2 ≤ q), fxMag y)

/-- tanh of a finite non-zero magnitude. -/
def magTanh (m : Nat) (e : Int) : Mag :=
  let v := 2 * fxOf m e
  if 200 * 2 ^ fxBits ≤ v then ⟨2 ^ 400 - 1, -400, true⟩
  else
    let n := v / fxLn2
    let t := 2 ^ (2 * fxBits) / (fxExp (v % fxLn2)) / 2 ^ n
    fxMag ((2 ^ fxBits - t) * 2 ^ fxBits / (2 ^ fxBits + t))

/-- A faithful FP32 result (R155): one of the two neighbours of an inexact value, by the open choice of the member. -/
def faithful (member : Nat) (input : Word) (neg : Bool) (x : Mag) : Rounded :=
  let lo := fmtF32.roundMag .rtz 0 neg x
  if x.sticky || lo.fl ≠ 0 then
    if lo.fl &&& flagNX ≠ 0 && Config.faithfulUp member input then { lo with code := lo.code + 1 } else lo
  else lo

end Sys2Proof.Machine
end

