-- ==== Sys2Proof/Machine/Float.lean ====
section
/-! DEFINITION. Floating arithmetic: FA0, FA1, FCMP, FFMA, FFMS and FDOT (R154 to R158). -/

namespace Sys2Proof.Machine

/-! ### Elements of a lane -/

/-- Element `i`, of `w` bits, of a register lane. -/
def elemCode (w i : Nat) (a : Word) : Nat := a.toNat / 2 ^ (w * i) % 2 ^ w

/-- A register lane from its element codes. -/
def packElems (w n : Nat) (code : Nat → Nat) : Word :=
  BitVec.ofNat 32 ((List.range n).foldl (fun a i => a + code i * 2 ^ (w * i)) 0)

/-- The element format of a float-class tag. -/
def floatElem (t : BitVec 5) : Elem := if t = tF16X2 then .float fmtF16 else if t = tBF16X2 then .float fmtBF16 else .float fmtF32

/-- Bits of an element of a tag. -/
def elemWidth (t : BitVec 5) : Nat := 32 / tagCount t

/-- FRM's mode (R135). -/
def Gang.mode (y : Gang) : Rm := Rm.ofCode (y.frm.toNat % 8)

/-- A draw number: the draws of the lower active lanes, then the element (R136). -/
def drawIndex (m : Word) (cnt : Nat → Nat) (l i : Nat) : Nat :=
  ((lanesOf m).filter fun k => k < l).foldl (fun a k => a + cnt k) 0 + i

/-- The result of a word that rounds `cnt l` elements in each lane of `m`: element `i` of lane `l` is `f l i r`, with `r` its
draw in SR mode. -/
def roundOut (c : Ctx) (vd : BitVec 6) (m : Word) (rm : Rm) (cnt : Nat → Nat) (f : Nat → Nat → Nat → Rounded)
    (val : Nat → (Nat → Nat) → Word) (tag : Nat → BitVec 5) : Except Trap RegOut :=
  let res : Nat → Nat → Rounded := fun l i => f l i (if rm = .sr then srDraw c.y.x (drawIndex m cnt l i) else 0)
  .ok { writes := [.v vd.toNat m (lanes fun l => val l fun i => (res l i).code) (tags tag)],
        flags := fun l => if m.getLsbD l then (List.range (cnt l)).foldl (fun a i => a ||| (res l i).fl) 0#5 else 0#5,
        x := if rm = .sr then some (srAfter c.y.x (drawIndex m cnt 32 0)) else none }

/-! ### FA0 (R154) -/

/-- The float-class check: equal F32, F16X2 or BF16X2 tags. -/
def floatChk (c : Ctx) (va vb : BitVec 6) (two : Bool) (l : Nat) : Option Trap :=
  if isFloatTag (c.t va l) && (!two || c.t vb l = c.t va l) then none
  else some (fmtTrap (c.t va l).toNat (if two then (c.t vb l).toNat else 0) 0)

/-- Element `i` of lane `l` of a register, by va's tag. -/
def Ctx.elem (c : Ctx) (va r : BitVec 6) (l i : Nat) : Num :=
  (floatElem (c.t va l)).value (elemCode (elemWidth (c.t va l)) i (c.v r l))

/-- A rounding member of FA0. -/
def fa0 (o : A3) (op : Num → Num → Rm → Num × Bool) (s : State) : Host.Outcome State Fault Refusal :=
  aluWord (aluInfo o.st o.pk [o.va, o.vb] [o.vd]) 4
    (fun c => do
      let m := c.active o.pk
      firstLane m fun l => floatChk c o.va o.vb true l
      let rm := c.y.mode
      roundOut c o.vd m rm (fun l => tagCount (c.t o.va l))
        (fun l i r =>
          let (x, inv) := op (c.elem o.va o.va l i) (c.elem o.va o.vb l i) rm
          let q := (floatElem (c.t o.va l)).ofNum rm r x
          { q with fl := q.fl ||| flagIf inv flagNV })
        (fun l code => packElems (elemWidth (c.t o.va l)) (tagCount (c.t o.va l)) code) fun l => c.t o.va l) s

/-- A member of FA0 that chooses or changes a code without rounding; it raises no flag. -/
def fa0Code (st : BitVec 2) (vd va vb : BitVec 6) (pk : BitVec 3) (two : Bool) (op : Elem → Nat → Nat → Nat → Nat) (s : State) :
    Host.Outcome State Fault Refusal :=
  aluWord (aluInfo st pk (if two then [va, vb] else [va]) [vd]) 4
    (fun c => do
      let m := c.active pk
      firstLane m fun l => floatChk c va vb two l
      vout vd m (fun l =>
        let t := c.t va l
        let w := elemWidth t
        packElems w (tagCount t) fun i => op (floatElem t) w (elemCode w i (c.v va l)) (elemCode w i (c.v vb l)))
        fun l => c.t va l) s

/-- FMIN and FMAX of two codes: -0 below +0; the other operand of a NaN. -/
def minMaxCode (isMin : Bool) (k : Elem) (a b : Nat) : Nat :=
  let x := k.value a
  let y := k.value b
  if x.isNan && y.isNan then k.nan.code
  else if x.isNan then b
  else if y.isNan then a
  else
    let below := x.lt y || (!y.lt x && x.sign && !y.sign)
    if below = isMin then a else b

/-- A code with its sign replaced; a NaN becomes canonical. -/
def signCode (k : Elem) (w a : Nat) (neg : Bool) : Nat :=
  if (k.value a).isNan then k.nan.code else a % 2 ^ (w - 1) + (if neg then 2 ^ (w - 1) else 0)

def execFadd (o : A3) (s : State) := fa0 o (fun a b rm => sumNum [a, b] rm) s
def execFsub (o : A3) (s : State) := fa0 o (fun a b rm => sumNum [a, b.neg] rm) s
def execFmul (o : A3) (s : State) := fa0 o (fun a b _ => a.mul b) s
def execFmin (o : A3) (s : State) := fa0Code o.st o.vd o.va o.vb o.pk true (fun k _ a b => minMaxCode true k a b) s
def execFmax (o : A3) (s : State) := fa0Code o.st o.vd o.va o.vb o.pk true (fun k _ a b => minMaxCode false k a b) s
def execFabs (o : A2) (s : State) := fa0Code o.st o.vd o.va 0 o.pk false (fun k w a _ => signCode k w a false) s
def execFneg (o : A2) (s : State) :=
  fa0Code o.st o.vd o.va 0 o.pk false (fun k w a _ => signCode k w a (a / 2 ^ (w - 1) % 2 = 0)) s
def execFcps (o : A3) (s : State) :=
  fa0Code o.st o.vd o.va o.vb o.pk true (fun k w a b => signCode k w a (b / 2 ^ (w - 1) % 2 = 1)) s

/-! ### Variable-latency words (R100) -/

/-! ### FA1 (R155) -/

def f32Nan : Rounded := ⟨0x7FC00000, 0⟩
def f32Inf (neg : Bool) : Nat := (if neg then 2 ^ 31 else 0) + 0x7F800000
def f32Zero (neg : Bool) : Nat := if neg then 2 ^ 31 else 0
def f32One (neg : Bool) : Nat := (if neg then 2 ^ 31 else 0) + 0x3F800000

/-- One lane of an FA1 member: fn code, input word, mode and draw. -/
def fa1Value (fn : Nat) (a : Word) (rm : Rm) (r : Nat) : Rounded :=
  let neg := a.msb
  match fmtF32.value a.toNat, fn with
  | .nan, _ => f32Nan
  | .inf n, 0 => ⟨f32Zero n, 0⟩
  | .inf n, 1 => if n then { f32Nan with fl := flagNV } else ⟨f32Zero false, 0⟩
  | .inf n, 2 => if n then { f32Nan with fl := flagNV } else ⟨f32Inf false, 0⟩
  | .inf n, 3 => if n then ⟨f32Zero false, 0⟩ else ⟨f32Inf false, 0⟩
  | .inf n, 4 => if n then { f32Nan with fl := flagNV } else ⟨f32Inf false, 0⟩
  | .inf _, 5 => { f32Nan with fl := flagNV }
  | .inf _, 6 => { f32Nan with fl := flagNV }
  | .inf n, _ => ⟨f32One n, 0⟩
  | .fin _ m e, k =>
    if m = 0 then
      match k with
      | 0 => ⟨f32Inf neg, flagDZ⟩
      | 1 => ⟨f32Inf neg, flagDZ⟩
      | 2 => ⟨f32Zero neg, 0⟩
      | 3 => ⟨f32One false, 0⟩
      | 4 => ⟨f32Inf true, flagDZ⟩
      | 5 => ⟨f32Zero neg, 0⟩
      | 6 => ⟨f32One false, 0⟩
      | _ => ⟨f32Zero neg, 0⟩
    else
      match k with
      | 0 => fmtF32.roundMag rm r neg (magRecip m e)
      | 1 => if neg then { f32Nan with fl := flagNV } else faithful 1 a false (magRsqrt m e)
      | 2 => if neg then { f32Nan with fl := flagNV } else fmtF32.roundMag rm r false (magSqrt m e)
      | 3 =>
        -- beyond 2^9 in magnitude the result is past every FP32 value, or below half the least one
        if 9 ≤ (Nat.log2 m : Int) + e then
          (if neg then fmtF32.roundMag rm r false ⟨1, -400, true⟩ else fmtF32.roundMag rm r false ⟨1, 400, true⟩)
        else fmtF32.roundMag rm r false (magExp2 neg m e)
      | 4 => if neg then { f32Nan with fl := flagNV } else (let (n, x) := magLog2 m e; faithful 4 a n x)
      | 5 => let (n, x) := magSinCos false neg m e; faithful 5 a n x
      | 6 => let (n, x) := magSinCos true neg m e; faithful 6 a n x
      | _ => faithful 7 a neg (magTanh m e)

/-- An FA1 member: F32 only; in SR mode the members that FRM rounds take one draw for each active lane. -/
def fa1 (fn : Nat) (o : A2) (s : State) : Host.Outcome State Fault Refusal :=
  issueWord { aluInfo o.st o.pk [o.va] [o.vd] with varLat := true }
    (fun c s =>
      let m := c.active o.pk
      match firstLane m (fun l => if c.t o.va l = tF32 then none else some (fmtTrap (c.t o.va l).toNat 0 0)) with
      | .error t => .trap t
      | .ok _ =>
        let rm := c.y.mode
        let draws := rm = .sr && (fn = 0 || fn = 2 || fn = 3)
        let res : Nat → Rounded := fun l => fa1Value fn (c.v o.va l) rm (if draws then srDraw c.y.x (lanePos m l) else 0)
        let fl : Nat → FlagSet := fun l => if m.getLsbD l then (res l).fl else 0#5
        match fpxTrap c.m fl c.y.fexc with
        | some t => .trap t
        | none =>
          let s1 := s.modGang c.b c.g fun y =>
            { y with fflags := y.fflags ||| (flagsOr c.m fl).setWidth 32, x := if draws then srAfter y.x (laneCount m) else y.x }
          .done (s1.addPend c { Pend.blank .transc with
            code := fn, dst := [(o.vd.toNat, Vector.replicate 32 tF32)], mask := m, vals := [lanes fun l => BitVec.ofNat 32 (res l).code] }) true) s

def execFrcp (o : A2) (s : State) := fa1 0 o s
def execFrsq (o : A2) (s : State) := fa1 1 o s
def execFsqrt (o : A2) (s : State) := fa1 2 o s
def execFexp2 (o : A2) (s : State) := fa1 3 o s
def execFlog2 (o : A2) (s : State) := fa1 4 o s
def execFsin (o : A2) (s : State) := fa1 5 o s
def execFcos (o : A2) (s : State) := fa1 6 o s
def execFtanh (o : A2) (s : State) := fa1 7 o s

/-! ### FCMP (R156) -/

/-- FCMP.cc: F32 only; the ordered comparisons raise NV for a NaN. -/
def fcmp (o : A3) (ordered : Bool) (cond : Num → Num → Bool) (s : State) : Host.Outcome State Fault Refusal :=
  aluWord { aluInfo o.st o.pk [o.va, o.vb] [] with regsOk := fun _ => kWrite o.vd, writes := [.k o.vd.toNat] } 4
    (fun c => do
      let m := c.active o.pk
      firstLane m fun l => if c.t o.va l = tF32 && c.t o.vb l = tF32 then none
        else some (fmtTrap (c.t o.va l).toNat (c.t o.vb l).toNat 0)
      let a : Nat → Num := fun l => fmtF32.value (c.v o.va l).toNat
      let b : Nat → Num := fun l => fmtF32.value (c.v o.vb l).toNat
      .ok { writes := [.kl o.vd.toNat m (maskOf fun l => cond (a l) (b l))],
            flags := fun l => flagIf (ordered && m.getLsbD l && ((a l).isNan || (b l).isNan)) flagNV }) s

def execFcmpEq (o : A3) (s : State) := fcmp o false (fun a b => a.eqv b) s
def execFcmpNe (o : A3) (s : State) := fcmp o false (fun a b => !a.eqv b) s
def execFcmpLt (o : A3) (s : State) := fcmp o true (fun a b => a.lt b) s
def execFcmpLe (o : A3) (s : State) := fcmp o true (fun a b => !a.isNan && !b.isNan && !b.lt a) s
def execFcmpUn (o : A3) (s : State) := fcmp o false (fun a b => a.isNan || b.isNan) s
def execFcmpOrd (o : A3) (s : State) := fcmp o false (fun a b => !a.isNan && !b.isNan) s

/-- The class bit of an FP32 word. -/
def classBit (a : Word) : Nat :=
  let ex := a.toNat / 2 ^ 23 % 256
  let man := a.toNat % 2 ^ 23
  if ex = 255 then (if man = 0 then (if a.msb then 0 else 7) else 8)
  else if ex = 0 then (if man = 0 then (if a.msb then 3 else 4) else if a.msb then 2 else 5)
  else if a.msb then 1 else 6

def execFcmpCls (o : A2) (s : State) : Host.Outcome State Fault Refusal :=
  aluWord (aluInfo o.st o.pk [o.va] [o.vd]) 4
    (fun c => do
      let m := c.active o.pk
      firstLane m fun l => if c.t o.va l = tF32 then none else some (fmtTrap (c.t o.va l).toNat 0 0)
      vout o.vd m (fun l => BitVec.ofNat 32 (2 ^ classBit (c.v o.va l))) fun _ => tU32) s

/-! ### Fused forms (R157, R158) -/

/-- FFMA and FFMS: va and vb are checked first, then vc, lane by lane. -/
def fused (o : B4) (sub : Bool) (s : State) : Host.Outcome State Fault Refusal :=
  aluWord (aluInfo o.st 0 [o.va, o.vb, o.vc] [o.vd]) 4
    (fun c => do
      firstLane c.m fun l => match floatChk c o.va o.vb true l with
        | some t => some t
        | none => if c.t o.vc l = c.t o.va l then none else some (fmtTrap (c.t o.vc l).toNat 0 1)
      let rm := c.y.mode
      roundOut c o.vd c.m rm (fun l => tagCount (c.t o.va l))
        (fun l i r =>
          let (p, inv) := (c.elem o.va o.va l i).mul (c.elem o.va o.vb l i)
          let z := c.elem o.va o.vc l i
          let (x, inv2) := if inv then (Num.nan, true) else sumNum [p, if sub then z.neg else z] rm
          let q := (floatElem (c.t o.va l)).ofNum rm r x
          { q with fl := q.fl ||| flagIf inv2 flagNV })
        (fun l code => packElems (elemWidth (c.t o.va l)) (tagCount (c.t o.va l)) code) fun l => c.t o.va l) s

def execFfma (o : B4) (s : State) := fused o false s
def execFfms (o : B4) (s : State) := fused o true s

/-- The tags FDOT takes in va and vb. -/
def isDotTag (t : BitVec 5) : Bool :=
  t = tF16X2 || t = tBF16X2 || t = tE4M3X4 || t = tE5M2X4 || t = tMK8X4 || t = tINT8X4

/-- The values of all elements of a register lane by its tag (R125, R130). -/
def elemValues (t : BitVec 5) (a : Word) : List Num :=
  match tagElem t with
  | none => []
  | some (k, w) => (List.range (tagCount t)).map fun i => k.value (elemCode w i a)

/-- FDOT: the products and the addend summed exactly, rounded once into F32. -/
def execFdot (o : B4) (s : State) : Host.Outcome State Fault Refusal :=
  aluWord (aluInfo o.st 0 [o.va, o.vb, o.vc] [o.vd]) 6
    (fun c => do
      firstLane c.m fun l =>
        if !(isDotTag (c.t o.va l) && c.t o.vb l = c.t o.va l) then some (fmtTrap (c.t o.va l).toNat (c.t o.vb l).toNat 0)
        else if c.t o.vc l = tF32 then none else some (fmtTrap (c.t o.vc l).toNat 0 1)
      let rm := c.y.mode
      roundOut c o.vd c.m rm (fun _ => 1)
        (fun l _ r =>
          let ps := ((elemValues (c.t o.va l) (c.v o.va l)).zip (elemValues (c.t o.va l) (c.v o.vb l))).map fun p => p.1.mul p.2
          let z := fmtF32.value (c.v o.vc l).toNat
          let (x, inv) := if ps.any Prod.snd then (Num.nan, true) else sumNum (ps.map Prod.fst ++ [z]) rm
          let q := (Elem.float fmtF32).ofNum rm r x
          { q with fl := q.fl ||| flagIf inv flagNV })
        (fun _ code => BitVec.ofNat 32 (code 0)) fun _ => tF32) s

end Sys2Proof.Machine
end

