-- ==== Sys2Proof/Machine/Conv.lean ====
section
/-! DEFINITION. Conversion, packing and MX quantisation: CVT, PKX, MXQ, MXDQ and MXSC (R159 to R161). -/

namespace Sys2Proof.Machine

/-! ### CVT (R159) -/

/-- The value of element `i` of a register lane by its tag, a scaled single under its scale (R127). -/
def tagValue (t : BitVec 5) (a : Word) (i : Nat) : Num :=
  match tagElem t with
  | none => .nan
  | some (k, w) => if tagScaled t then scaledValue k (elemCode 8 0 a) (elemCode 8 3 a) else k.value (elemCode w i a)

/-- A destination code that CVT takes: not RAW, I64LO or I64HI. -/
def cvtDest (t : BitVec 5) : Bool := t ≠ tRAW && t ≠ tI64LO && t ≠ tI64HI

/-- The elements CVT converts in a lane: all where the counts agree, else the first. -/
def cvtCount (s d : BitVec 5) : Nat := if tagCount s = tagCount d then tagCount d else 1

/-- The source check of CVT. -/
def cvtChk (s d : BitVec 5) : Option Trap :=
  if (tagElem s).isNone || (1 < tagCount d && 1 < tagCount s && tagCount d ≠ tagCount s) then some (fmtTrap s.toNat d.toNat 0)
  else none

def execCvt (o : Cvt) (s : State) : Host.Outcome State Fault Refusal :=
  aluWord { aluInfo o.st o.pk (if tagScaled o.tag then [o.va, o.vd] else [o.va]) [o.vd] with
      regsOk := fun _ => cvtDest o.tag } 6
    (fun c => do
      let m := c.active o.pk
      let d := o.tag
      firstLane m fun l => cvtChk (c.t o.va l) d
      let rm := Rm.ofCode o.rm.toNat
      let ew := (tagElem d).getD (.int false 32, 32)
      roundOut c o.vd m rm (fun l => cvtCount (c.t o.va l) d)
        (fun l i r =>
          let x := tagValue (c.t o.va l) (c.v o.va l) i
          if tagScaled d then
            let sc := elemCode 8 3 (c.v o.vd l)
            if sc = 255 then ⟨0, 0⟩ else ew.1.ofNum rm r (x.scale (127 - (sc : Int)))
          else ew.1.ofNum rm r x)
        (fun l code =>
          if tagScaled d then BitVec.ofNat 32 (elemCode 8 3 (c.v o.vd l) * 2 ^ 24 + code 0)
          else packElems ew.2 (cvtCount (c.t o.va l) d) code) fun _ => d) s

/-! ### PKX (R160) -/

/-- Two packed operands: equal tags, or one of them RAW. -/
def packChk (a b : BitVec 5) : Option Trap :=
  let ok : BitVec 5 → Bool := fun t => tagPacked t || t = tRAW
  if ok a && ok b && (a = b || a = tRAW || b = tRAW) then none else some (fmtTrap a.toNat b.toNat 0)

/-- The tag that is not RAW. -/
def packResTag (a b : BitVec 5) : BitVec 5 := if a = tRAW then b else a

/-- PACK2 and PACK4. -/
def pack (o : A3) (old : Bool) (op : Word → Word → Word → Word) (s : State) : Host.Outcome State Fault Refusal :=
  aluWord (aluInfo o.st o.pk (if old then [o.va, o.vb, o.vd] else [o.va, o.vb]) [o.vd]) 6
    (fun c => do
      let m := c.active o.pk
      firstLane m fun l => packChk (c.t o.va l) (c.t o.vb l)
      vout o.vd m (fun l => op (c.v o.vd l) (c.v o.va l) (c.v o.vb l)) fun l => packResTag (c.t o.va l) (c.t o.vb l)) s

/-- UNPKL and UNPKH: the tag is kept. -/
def unpack (o : A2) (hi : Bool) (s : State) : Host.Outcome State Fault Refusal :=
  aluWord (aluInfo o.st o.pk [o.va] [o.vd]) 6
    (fun c => do
      let m := c.active o.pk
      firstLane m fun l => if tagPacked (c.t o.va l) then none else some (fmtTrap (c.t o.va l).toNat 0 0)
      vout o.vd m (fun l => if hi then c.v o.va l >>> 16 else c.v o.va l &&& 0xFFFF) fun l => c.t o.va l) s

def execPack2 (o : A3) (s : State) := pack o false (fun _ a b => (b.extractLsb' 0 16) ++ (a.extractLsb' 0 16)) s
def execPack4 (o : A3) (s : State) :=
  pack o true (fun old a b => (old.extractLsb' 0 16) ++ (b.extractLsb' 0 8) ++ (a.extractLsb' 0 8)) s
def execUnpkl (o : A2) (s : State) := unpack o false s
def execUnpkh (o : A2) (s : State) := unpack o true s

/-- PACKN: vd must carry a's tag or RAW. Of a malformed 6-bit register the whole byte moves (DESIGN CHOICE, log 160). -/
def execPackn (o : A3) (s : State) : Host.Outcome State Fault Refusal :=
  aluWord (aluInfo o.st o.pk [o.va, o.vb, o.vd] [o.vd]) 6
    (fun c => do
      let m := c.active o.pk
      firstLane m fun l =>
        let t := c.t o.va l
        if !tagPacked t then some (fmtTrap t.toNat (c.t o.vb l).toNat 0)
        else if c.t o.vd l = t || c.t o.vd l = tRAW then none else some (fmtTrap (c.t o.vd l).toNat 0 1)
      vout o.vd m (fun l =>
        let n := tagCount (c.t o.va l)
        let w := 32 / n
        let j := (c.v o.vb l).toNat % 8 % n
        packElems w n fun i => if i = j then elemCode w 0 (c.v o.va l) else elemCode w i (c.v o.vd l)) fun l => c.t o.va l) s

/-- UNPKN: element j of a in element 0, as PACKN moves it (log 160). -/
def execUnpkn (o : A3) (s : State) : Host.Outcome State Fault Refusal :=
  aluWord (aluInfo o.st o.pk [o.va, o.vb] [o.vd]) 6
    (fun c => do
      let m := c.active o.pk
      firstLane m fun l => if tagPacked (c.t o.va l) then none
        else some (fmtTrap (c.t o.va l).toNat (c.t o.vb l).toNat 0)
      vout o.vd m (fun l =>
        let n := tagCount (c.t o.va l)
        let w := 32 / n
        BitVec.ofNat 32 (elemCode w ((c.v o.vb l).toNat % 8 % n) (c.v o.va l))) fun l => c.t o.va l) s

/-- PK6: the 6-bit stream of R126. -/
def execPk6 (o : A2) (s : State) : Host.Outcome State Fault Refusal :=
  aluWord (aluInfo o.st o.pk [o.va] [o.vd]) 6
    (fun c => do
      let m := c.active o.pk
      firstLane m fun l => if c.t o.va l = tE2M3X4 || c.t o.va l = tE3M2X4 then none
        else some (fmtTrap (c.t o.va l).toNat 0 0)
      vout o.vd m (fun l => packElems 6 4 fun i => elemCode 8 i (c.v o.va l) % 64) fun _ => tRAW) s

/-- UPK6: the codes back in the bytes of a register. -/
def execUpk6 (o : AT) (s : State) : Host.Outcome State Fault Refusal :=
  aluWord { aluInfo o.st o.pk [o.va] [o.vd] with regsOk := fun _ => o.tag = tE2M3X4 || o.tag = tE3M2X4 } 6
    (fun c => vout o.vd (c.active o.pk) (fun l => packElems 8 4 fun i => elemCode 6 i (c.v o.va l)) fun _ => o.tag) s

/-! ### MXQ, MXDQ and MXSC (R161) -/

/-- emax of a scaled single's element format. -/
def mxEmax (t : BitVec 5) : Int :=
  match t.toNat with
  | 0x10 => 8
  | 0x11 => 15
  | 0x12 => 2
  | 0x13 => 4
  | 0x14 => 2
  | 0x15 => 0
  | _ => 10

/-- Whether a lane's FP32 value is a NaN or an infinity. -/
def f32Special (a : Word) : Bool := a.toNat / 2 ^ 23 % 256 = 255

/-- The shared scale X of the active lanes. -/
def mxScale (m : Word) (v : Nat → Word) (t : BitVec 5) : Nat :=
  if (lanesOf m).any fun l => f32Special (v l) then 255
  else
    let amax := (lanesOf m).foldl (fun a l => max a ((v l).toNat % 2 ^ 31)) 0
    match fmtF32.value amax with
    | .fin _ k e => if k = 0 then 127 else (min (max ((Nat.log2 k : Int) + e - mxEmax t + 127) 0) 254).toNat
    | _ => 255

/-- The check of MXQ and MXSC: F32 in every active lane. -/
def mxChk (c : Ctx) (va : BitVec 6) (m : Word) (t : BitVec 5) : Except Trap Unit :=
  firstLane m fun l => if c.t va l = tF32 then none else some (fmtTrap (c.t va l).toNat t.toNat 0)

def execMxq (o : AT) (s : State) : Host.Outcome State Fault Refusal :=
  aluWord { aluInfo o.st o.pk [o.va] [o.vd] with regsOk := fun _ => tagScaled o.tag } 6
    (fun c => do
      let m := c.active o.pk
      mxChk c o.va m o.tag
      let x := mxScale m (c.v o.va) o.tag
      let rm := c.y.mode
      let k := ((tagElem o.tag).getD (.mk8, 8)).1
      roundOut c o.vd m rm (fun _ => 1)
        (fun l _ r =>
          if x = 255 then ⟨0, flagIf (f32Special (c.v o.va l)) flagNV⟩
          else k.ofNum rm r ((fmtF32.value (c.v o.va l).toNat).scale (127 - (x : Int))))
        (fun _ code => BitVec.ofNat 32 (x * 2 ^ 24 + code 0)) fun _ => o.tag) s

def execMxsc (o : AT) (s : State) : Host.Outcome State Fault Refusal :=
  aluWord { aluInfo o.st o.pk [o.va] [o.vd] with regsOk := fun _ => tagScaled o.tag } 6
    (fun c => do
      let m := c.active o.pk
      mxChk c o.va m o.tag
      let x := mxScale m (c.v o.va) o.tag
      .ok { writes := [.v o.vd.toNat m (lanes fun _ => BitVec.ofNat 32 (x * 2 ^ 24)) (tags fun _ => tU32)],
            flags := fun l => flagIf (m.getLsbD l && f32Special (c.v o.va l)) flagNV }) s

/-- MXDQ: the F32 value of a scaled single. -/
def execMxdq (o : A2) (s : State) : Host.Outcome State Fault Refusal :=
  aluWord (aluInfo o.st o.pk [o.va] [o.vd]) 6
    (fun c => do
      let m := c.active o.pk
      firstLane m fun l => if tagScaled (c.t o.va l) then none else some (fmtTrap (c.t o.va l).toNat 0 0)
      let rm := c.y.mode
      roundOut c o.vd m rm (fun _ => 1)
        (fun l _ r => (Elem.float fmtF32).ofNum rm r (tagValue (c.t o.va l) (c.v o.va l) 0))
        (fun _ code => BitVec.ofNat 32 (code 0)) fun _ => tF32) s

end Sys2Proof.Machine
end

