-- ==== Sys2Proof/Machine/Logs.lean ====
section
/-! DEFINITION. The poison list (R378). -/

namespace Sys2Proof.Machine

/-- A frame of a lender enters the poison list of 1,024 frames, with an event in the black box (R378). If the list is full, the lease
goes to REVOKED and Dziyx is notified by a lease notice. -/
def State.poisonFrame (s : State) (d : Die) (ctx : Nat) (l : Loc) : State :=
  match l with
  | .lender e a =>
    let f := ((s.lease e).lender, a / 2 ^ 16)
    let s1 := s.blackBox d 2 ctx
    if s1.poison.contains f then s1
    else if s1.poison.length < 1024 then { s1 with poison := s1.poison ++ [f] }
    else
      let ls := { s1.lease e with state := 3 }
      ({ s1 with leases := assocSet s1.leases e ls }).notice
        (natLe 1 3 ++ natLe 1 0 ++ natLe 2 e ++ natLe 4 0 ++ natLe 8 (ls.graceEnd.getD 0))
  | _ => s

end Sys2Proof.Machine
end

