-- ==== Sys2Proof/Machine/Storage.lean ====
section
/-! DEFINITION. Where an address leads: context descriptors (R72), unified addresses (R193), the per-lane spaces (R186, R187), and
a write performed at its site, with its sequence and pushes (R233, R284 to R286). -/

namespace Sys2Proof.Machine

/-! ### Context descriptors (R72) -/

/-- Bytes of one line of local HBM as the device reads them for itself, under its own key (R371). A read that the slices refuse, in a range
that is lent (R374), and one of a line that fails bring free bytes: the spec gives such a read no outcome (DESIGN CHOICE, log 144). -/
def State.deviceRead (s : State) (pa n : Nat) : List Byte :=
  if s.lent pa || (s.lineCheck 0 (.hbm pa) 0).isSome then (List.range n).map fun i => Config.unreadByte (pa + i) else s.hbm.read pa n

/-- A field of a context's descriptor: its offset and size in bytes. Of a descriptor whose reserved bits R4 makes malformed the spec says
nothing more: its fields are used as they stand (DESIGN CHOICE, log 137). -/
def State.ctxField (s : State) (ctx off n : Nat) : Nat := leNat (s.deviceRead (s.ctxbase + 512 * ctx + off) n)

/-- The bytes of a die's tun (R1). -/
def tunBytes : Nat := 192 * 2 ^ 20

/-- TSIZE: the bytes of the context's tun allocation on each die (R186); no more of it exists than the tun holds from TBASE up (R1, log 26). -/
def State.tsize (s : State) (ctx : Nat) : Nat :=
  min (s.ctxField ctx 0x14 4) (tunBytes - max (s.ctxField ctx 0x20 4) (s.ctxField ctx 0x40 4))

/-- TBASE: where the allocation begins on a die. -/
def State.tbase (s : State) (ctx : Nat) (d : Die) : Nat := s.ctxField ctx (0x20 + 32 * d.val) 4

/-! ### Unified addresses (R193) -/

/-- The forms of a unified address. -/
inductive UForm where
  | main | tun | loc | win
  deriving DecidableEq, Repr

/-- The form of an address; none where bits [63:48] are unlisted or a zero bit is set. -/
def uform (a : DWord) : Option UForm :=
  let top := nbits a.toNat 63 48
  let mid := nbits a.toNat 47 32
  if top = 0 then some .main
  else if mid ≠ 0 then none
  else if top = 0x7E00 then some .tun
  else if top = 0x7F00 then some .loc
  else if top = 0x7F01 then some .win
  else none

/-- The offset of a tun, local or window address; the VA of a main one. -/
def uoff (a : DWord) : Nat := if nbits a.toNat 63 48 = 0 then a.toNat else nbits a.toNat 31 0

/-- The unified form of an offset of a space: L, W, T; an SP offset stays as it is (R239). -/
def uaOf (space off : Nat) : DWord :=
  BitVec.ofNat 64 (off + match space with | 0 => 0x7F00 * 2 ^ 48 | 1 => 0x7F01 * 2 ^ 48 | 2 => 0x7E00 * 2 ^ 48 | _ => 0)

/-- Bytes on from an address. -/
def uadd (a : DWord) (n : Nat) : DWord := a + BitVec.ofNat 64 n

/-! ### The quire window (R187, R189) -/

/-- The block on a member of the cluster-level unit of a block. -/
def State.memberOf (s : State) (x : Block) (m : Nat) : Option Block :=
  match x.unit with
  | none => none
  | some u => s.blocks.find? fun y => y.unit = some u && y.member = m

/-- A member that has ended, or whose core is quarantined; or one that the unit never had, its level-2 count below 4, of which R187 does not
speak (DESIGN CHOICE, log 176). -/
def State.memberGone (s : State) (x : Block) (m : Nat) : Bool :=
  match s.memberOf x m with
  | none => true
  | some y => s.quarantined.contains (y.die.val * 96 + y.core)

/-- Rows 1, 3 and 4 of R187 for a window address `a` and `n` bytes: the cause. -/
def State.winCheck (s : State) (x : Block) (a n : Nat) : Option (BitVec 8) :=
  if x.unit.isNone || a / 2 ^ 21 ≠ 0 then some Cause.window
  else if x.lrec.localB < nbits a 18 0 + n then some Cause.localBounds
  else if s.memberGone x (nbits a 20 19) then some Cause.windowPeer
  else none

/-- The bounds of `n` bytes at a unified address whose form is known (R193). -/
def State.boundsCheck (s : State) (x : Block) (f : UForm) (a : DWord) (n : Nat) : Option Trap :=
  let o := uoff a
  match f with
  | .main => none
  | .tun => if s.tsize x.ctx < o + n then some { cause := Cause.address, tval := a } else none
  | .loc => if x.lrec.localB < o + n then some { cause := Cause.localBounds, tval := a } else none
  | .win => (s.winCheck x o n).map fun c => { cause := c, tval := a }

/-- The storage of one byte at a unified address, for a block whose operation pins `slot` (R79, R84, R193). -/
def State.locate (s : State) (x : Block) (slot : Nat) (a : DWord) (acc : Access) : Except Trap Loc :=
  let o := uoff a
  match uform a with
  | some .main => s.translate x.die (some (x.die.val * 96 + x.core)) (s.space x.space).key slot o acc
  | some .tun => .ok (.tun x.die (s.tbase x.ctx x.die + o))
  | some .loc => .ok (.loc x.id o)
  | some .win => match s.memberOf x (nbits o 20 19) with
    | some y => .ok (.loc y.id (nbits o 18 0))
    | none => .error { cause := Cause.windowPeer, tval := a }
  | none => .error { cause := Cause.address, tval := a }

/-- The point of a location that a main VA names (R232): 2 device, 3 system. -/
def Loc.mainPoint (l : Loc) : Nat := match l with | .lender _ _ => 3 | .host _ _ => 3 | _ => 2

/-- The widest point of `n` bytes at a unified address (R232, R240); a main byte that cannot be translated counts as TIER 0. -/
def State.pointOf (s : State) (x : Block) (a : DWord) (n : Nat) : Nat :=
  match uform a with
  | some .loc => 0
  | some .win => 1
  | some .tun => 2
  | _ =>
    let at_ : Nat → Nat := fun o => match s.locate x x.rootSlot (uadd a o) .read with | .ok l => l.mainPoint | .error _ => 2
    ((List.range ((n - 1) / 65536 + 1)).map fun i => at_ (65536 * i)).foldl max (at_ (n - 1))

/-! ### Local storage -/

/-- The device-wide number of a block's core (R6). -/
def Block.devCore (x : Block) : Nat := x.die.val * 96 + x.core

/-- The KiB of its core in which an offset of a block's local memory lies. -/
def Block.kib (x : Block) (off : Nat) : Nat × Nat := (x.devCore, (x.lbase + off) / 1024)

/-- The swizzle tag of a KiB of a core (R204). -/
def State.swzAt (s : State) (k : Nat × Nat) : BitVec 3 := (assocGet s.swz k).getD 0

/-- The swizzle tag of a KiB of a core set. -/
def State.setSwz (s : State) (k : Nat × Nat) (code : BitVec 3) : State :=
  if s.swzAt k = code then s
  else { s with swz := if code = 0 then s.swz.filter (fun p => p.1 ≠ k) else assocSet s.swz k code }

/-- The KiB of its core that a block's local memory touches, by the first offset in each. -/
def Block.kibs (x : Block) : List Nat :=
  (List.range ((x.lbase + x.lrec.localB + 1023) / 1024 - x.lbase / 1024)).map fun i => 1024 * (x.lbase / 1024 + i) - x.lbase

/-- The swizzle tags of the KiB of a block, saved with its local memory (R204). -/
def State.tagsOf (s : State) (x : Block) : List (BitVec 3) := x.kibs.map fun o => s.swzAt (x.kib o)

/-- The swizzle tags of the KiB of a block set, each from the first offset in it. -/
def State.setTags (s : State) (x : Block) (f : Nat → BitVec 3) : State := x.kibs.foldl (fun z o => z.setSwz (x.kib o) (f o)) s

/-- The tag that a saved block's offset had (R204). -/
def Block.savedTag (x : Block) (off : Nat) : BitVec 3 := (x.swz[(x.lbase + off) / 1024 - x.lbase / 1024]?).getD 0

/-- A dword of a block's local memory. -/
def Block.dword (x : Block) (off : Nat) : DWord := BitVec.ofNat 64 (leNat (x.mem.read off 8))

/-! ### Subscribed words (R283 to R286) -/

/-- The word of a record as it stands at its home, zero-extended. -/
def State.homeWord (s : State) (l : Loc) (size : Nat) : DWord := BitVec.ofNat 64 (leNat (s.readLoc l size))

/-- A push of a write, for one subscription (R285, R286): under LATEST it replaces an undelivered one; under EVERY it uses a
credit, or is held. -/
def Sub.push (u : Sub) (p : Push) : Sub :=
  if u.state ≠ .live then u
  else if !u.every then { u with pend := [p] }
  else if 0 < u.credits then { u with credits := u.credits - 1, pend := u.pend ++ [p] }
  else { u with held := some p }

/-- The subscription with a number. -/
def State.sub? (s : State) (id : Nat) : Option Sub := s.subs.find? fun u => u.id = id

/-- A subscription replaced under its number. -/
def State.setSub (s : State) (u : Sub) : State := { s with subs := s.subs.map fun v => if v.id = u.id then u else v }

/-- The subscribers of a word. -/
def State.subscribers (s : State) (l : Loc) (size : Nat) : Nat :=
  (s.subs.filter fun u => u.word = l && u.size = size && u.state = .live).length

/-- Local HBM in a range that is lent: the slices refuse it to the device's own requesters (R374). -/
def State.lentLoc (s : State) (l : Loc) : Bool := match l with | .hbm a => s.lent a | _ => false

/-- A word that its home cannot read (R291), or that it refuses to the device's own requesters, its range being lent (R374; that the
subscription then closes as one that cannot be read is a DESIGN CHOICE, log 47). -/
def State.unreadable (s : State) (key : Nat) (l : Loc) : Bool := (s.lineCheck key l 0).isSome || s.lentLoc l

/-- The sequence of a word's record. -/
def State.seqOf (s : State) (l : Loc) (size : Nat) : Word := (assocGet s.recs (l, size)).getD 1

/-- A plain push of a subscription: the word as it stands. -/
def State.pushNow (s : State) (u : Sub) : Push :=
  { sub := u.id, value := s.homeWord u.word u.size, seq := s.seqOf u.word u.size, valid := true, closed := false, moved := false,
    poison := false, overrun := false }

/-- A record without subscribers is freed (R283). -/
def State.freeRecord (s : State) (l : Loc) (size : Nat) : State :=
  if s.subscribers l size = 0 then { s with recs := s.recs.filter fun r => r.1 ≠ (l, size) } else s

/-- A subscriber leaves its home with a closing push (R285, R289, R291): under LATEST it replaces an undelivered one; a held push is
discarded. -/
def State.closeSub (s : State) (u : Sub) (p : Push) : State :=
  let u1 := { u with state := .closing, held := none, pend := if u.every then u.pend ++ [p] else [p] }
  (s.setSub u1).freeRecord u.word u.size

/-- A close of a subscription whose word its home cannot read (R291): POISON is set, with MOVED if the frame moves, VALUE is zero, and the
event is logged. -/
def State.closeUnread (s : State) (u : Sub) (moved : Bool) : State :=
  let s1 := (match s.lineCheck u.key u.word 0 with | some t => s.noteError u.die t | none => s)
  (s1.closeSub u { s.pushNow u with closed := true, poison := true, moved := moved, value := 0 }).blackBox u.die 3 u.ctx

/-- A close with POISON (R291). -/
def State.closePoison (s : State) (u : Sub) : State := s.closeUnread u false

/-- The word as it stands pushed again to a subscription that now reads for its queue, or its close where it cannot be read (R291). -/
def State.pushAgain (s : State) (u : Sub) : State :=
  if s.unreadable u.key u.word then s.closePoison u else s.setSub { u with pend := [s.pushNow u] }

/-- A write that covers bytes of a record's word: the sequence and the pushes (R284, R285). A subscription whose reader can no longer
read the word is closed with POISON (R291). -/
def State.sequence (s : State) (l : Loc) (size : Nat) : State :=
  match assocGet s.recs (l, size) with
  | none => s
  | some q =>
    let q' := q + 1
    let v := s.homeWord l size
    let mine : Sub → Bool := fun u => u.word = l && u.size = size && u.state = .live
    let s1 := { s with
      recs := s.recs.map fun r => if r.1 = (l, size) then (r.1, q') else r
      subs := s.subs.map fun u =>
        if mine u && !s.unreadable u.key l then
          u.push { sub := u.id, value := v, seq := q', valid := true, closed := false, moved := false, poison := false,
                   overrun := false }
        else u }
    (s.subs.filter fun u => mine u && s.unreadable u.key l).foldl (fun z u => z.closePoison u) s1

/-- Whether a byte lies in the `n` bytes at a location. -/
def Loc.covers (l : Loc) (n : Nat) (b : Loc) : Bool := (List.range n).any fun i => l.add i = b

/-- Each record that a write of the given bytes touches takes one sequence, whatever it wrote (R284). -/
def State.pushes (s : State) (ls : List Loc) : State :=
  (s.recs.map Prod.fst).foldl (fun z r => if ls.any (r.1.covers r.2) then z.sequence r.1 r.2 else z) s

/-- The key and the write counter of each line written (R369, R371). What a line last written under another key keeps of it fails, half by
half (DESIGN CHOICE, log 147). -/
def State.stampLine (s : State) (key : Nat) (l : Loc) : State :=
  let ln := lineOf l
  let k := s.keyLabel (match l with | .lender e _ => (s.lease e).key | _ => key)
  let foreign : Bool := (match assocGet s.lineKeys ln with | some j => j ≠ k | none => false)
  { s with
    lineKeys := assocSet s.lineKeys ln k, lineCtrs := assocSet s.lineCtrs ln ((assocGet s.lineCtrs ln).getD 0 + 1)
    faults := if foreign then s.faults ++ (badHalves ln Cause.integrity).filter (fun f => !s.faults.contains f) else s.faults }

/-- The lines of main memory written are stamped, while protection is on. -/
def State.stampLines (s : State) (key : Nat) (ls : List Loc) : State :=
  if !s.prot then s
  else
    let lines := (ls.filter fun l => match l with | .hbm _ => true | .lender _ _ => true | _ => false).map lineOf
    (lines.foldl (fun a l => if a.contains l then a else a ++ [l]) []).foldl (fun z l => z.stampLine key l) s

/-- The bytes written, one to each location. -/
def State.writeBytes (s : State) (ls : List Loc) (bs : List Byte) : State :=
  match ls, bs with
  | l :: r, b :: q => State.writeBytes (s.writeByte l b) r q
  | _, _ => s

/-- The swizzle tags of the local bytes written set to a code. -/
def State.swizzleTags (s : State) (ls : List Loc) (code : BitVec 3) : State :=
  ls.foldl (fun z l => match l with
    | .loc b o => (match z.block? b with | some x => z.setSwz (x.kib o) code | none => z)
    | _ => z) s

/-- A location in a line whose write counter would wrap (R369). -/
def State.wrapped (s : State) (l : Loc) : Bool :=
  s.prot && (match assocGet s.lineCtrs (lineOf l) with | some n => 2 ^ 56 - 1 ≤ n | none => false)

/-- A write that covers a whole half of a failing line leaves nothing of it that fails (log 58). -/
def State.mend (s : State) (ls : List Loc) : State :=
  if s.faults.isEmpty then s else { s with faults := s.faults.filter fun f => !(f.1.run 32).all ls.contains }

/-- One write event performed at its site (R233, R284): the bytes, the lines' stamps, the swizzle tags where the writer sets
them (R204), and the pushes. A line whose counter would wrap is not written (R369), nor is one that is lent (R374): its writer reports the
failure. -/
def State.performWrite (s : State) (key : Nat) (ls : List Loc) (bs : List Byte) (swz : Option (BitVec 3)) : State :=
  if ls.any s.wrapped || ls.any s.lentLoc then s
  else
  let s1 := ((s.writeBytes ls bs).stampLines key ls).mend ls
  let s2 := (match swz with | some c => s1.swizzleTags ls c | none => s1)
  s2.pushes ls

/-- A write of the device itself to local HBM, under the device's own key (R371). -/
def State.deviceWrite (s : State) (pa : Nat) (bs : List Byte) : State := s.performWrite 0 ((Loc.hbm pa).run bs.length) bs none

/-- A HW field of a context descriptor written by the device (R72). -/
def State.setCtxField (s : State) (ctx off n v : Nat) : State := s.deviceWrite (s.ctxbase + 512 * ctx + off) (natLe n v)

/-! ### The tun read cache (R190, R235) -/

/-- The line of a core's tun read cache that holds a tun byte. -/
def State.cachedLine (s : State) (core off : Nat) : Option (List Byte) :=
  (s.tunCache.find? fun p => p.1 = core && p.2.1 = off / 128).map fun p => p.2.2

/-- A core's cached line written through (R190). -/
def State.updateLine (s : State) (core off : Nat) (b : Byte) : State :=
  { s with tunCache := s.tunCache.map fun p =>
      if p.1 = core && p.2.1 = off / 128 then (p.1, p.2.1, p.2.2.set (off % 128) b) else p }

/-- Lines of a core's tun read cache dropped. -/
def State.dropLines (s : State) (core : Nat) (p : Nat → Bool) : State :=
  { s with tunCache := s.tunCache.filter fun q => !(q.1 = core && p q.2.1) }

/-- The lines that a core's copies or atomics write are invalidated in its own cache (R190). -/
def State.dropWritten (s : State) (core : Nat) (ls : List Loc) : State :=
  s.dropLines core fun n => ls.any fun l => match l with | .tun _ o => o / 128 = n | _ => false

/-- The lines of a core's 64 KiB tun read cache (R190). -/
def tunLines : Nat := 512

/-- A T read of a byte (R235): the line is filled from the slice if it is absent, and serves the read. A full cache gives up its oldest
line first; LINE_DROP reaches every other choice (log 27). -/
def State.fillLine (s : State) (core : Nat) (d : Die) (off : Nat) : State :=
  match s.cachedLine core off with
  | some _ => s
  | none =>
    let mine := s.tunCache.filter fun p => p.1 = core
    let kept := (match mine with | m :: _ => if tunLines ≤ mine.length then s.tunCache.erase m else s.tunCache | [] => s.tunCache)
    { s with tunCache := kept ++ [(core, off / 128, (s.tun[d]).read (off / 128 * 128) 128)] }

/-! ### Save areas (R349) -/

/-- A field of a context's save pool on a die. -/
def State.poolField (s : State) (ctx : Nat) (d : Die) (off n : Nat) : Nat := s.ctxField ctx (0x20 + 32 * d.val + off) n

/-- A byte of a save pool: the tun's part, then the memory behind it. A pool whose tun part passes the end of the die's tun has no outcome
in the spec; its bytes there are taken to exist (DESIGN CHOICE, log 136). -/
def State.poolLoc (s : State) (ctx : Nat) (d : Die) (off : Nat) : Loc :=
  let n := s.poolField ctx d 8 4
  if off < n then .tun d (s.poolField ctx d 4 4 + off) else .hbm (s.poolField ctx d 16 8 + (off - n))

/-- Where the parts of a block's image lie: its gang records, local memory and tiles. -/
def Block.gangAt (base g : Nat) : Nat := base + 256 + 12288 * g
def Block.localAt (x : Block) (base : Nat) : Nat := base + 256 + 12288 * x.lrec.gangs
def Block.tileAt (x : Block) (base z : Nat) : Nat := x.localAt base + x.lrec.localB + 16384 * z

/-- The places of `n` bytes of a pool. -/
def State.poolRun (s : State) (x : Block) (off n : Nat) : List Loc := (List.range n).map fun i => s.poolLoc x.ctx x.die (off + i)

/-- The key slot of a block's space (R73, R369). -/
def State.keyOf (s : State) (b : Nat) : Nat := ((s.block? b).map fun x => (s.space x.space).key).getD 0

end Sys2Proof.Machine
end

