-- ==== Sys2Proof/Machine/Sectors.lean ====
section
/-! DEFINITION. The access processor's operations as lists of sectors (R202 to R207), the lookups of KVL (R327, R328), and the bytes
that an operation reads and writes, those that its list or its probes name among them (R205, R239, R242). -/

namespace Sys2Proof.Machine

/-! ### Sectors -/

/-- Consecutive unified addresses. -/
def urun (a : DWord) (n : Nat) : List DWord := (List.range n).map (uadd a)

/-- One sector: the bytes it reads, those it writes, and how many it counts. -/
structure Sector where
  src : List DWord
  dst : List DWord
  land : Nat

/-- A field of a descriptor held as bytes. -/
def dfield (d : List Byte) (off n : Nat) : Nat := leNat ((d.drop off).take n)

/-- SWZ, MXM and EFMT of a CPY2D descriptor (R203). -/
def c2Swz (d : List Byte) : Nat := nbits (dfield d 0x20 1) 2 0
def c2Mxm (d : List Byte) : Nat := nbits (dfield d 0x20 1) 4 3
def c2Efmt (d : List Byte) : Nat := nbits (dfield d 0x20 1) 6 5

/-- Element bytes of a block by EFMT (R128, R202). -/
def efmtBytes (e : Nat) : Nat := match e with | 0 => 32 | 1 => 24 | _ => 16

/-- Where a CPY2D puts a byte of local memory (R204): the swizzle permutes 16-byte chunks inside spans of 2^(w+4) bytes. -/
def swizzle (w : Nat) (a : DWord) : DWord :=
  if w = 0 || !(uform a = some .loc || uform a = some .win) then a
  else
    let o := nbits a.toNat 18 0
    a ^^^ BitVec.ofNat 64 (o / 2 ^ (w + 4) % 2 ^ w * 16)

/-- The runs that `n` bytes at an address come to under a swizzle, one for each chunk that it moves. -/
def swzRuns (w : Nat) (a : DWord) (n : Nat) : List (DWord × Nat) :=
  if w = 0 then [(a, n)]
  else
    let o := a.toNat % 16
    (List.range ((o + n + 15) / 16)).map fun i =>
      let lo := max o (16 * i)
      (swizzle w (uadd a (lo - o)), min (o + n) (16 * i + 16) - lo)

/-- The rows of a CPY2D: addresses of row `r`. -/
def c2Src (d : List Byte) (r : Nat) : DWord := uadd (BitVec.ofNat 64 (dfield d 0 8)) (r * dfield d 0x18 4)
def c2Dst (d : List Byte) (r : Nat) : DWord := uadd (BitVec.ofNat 64 (dfield d 8 8)) (r * dfield d 0x1C 4)

/-- Sectors of an operation. -/
def OpKind.count (k : OpKind) : Nat :=
  match k with
  | .cpy _ _ len unit => if unit = 0 then (len + 31) / 32 else len / unit
  | .cpy2d d =>
    let rowb := dfield d 0x10 4
    if c2Mxm d = 0 then (rowb + 31) / 32 * dfield d 0x14 4 else rowb / efmtBytes (c2Efmt d) * dfield d 0x14 4
  | .gth _ _ n e | .sct _ _ n e => n * ((e + 31) / 32)
  | .cpyt _ _ len => (len + 31) / 32
  | .apfetch _ _ n => (n + 31) / 32
  | .kvl _ _ _ _ count .. => count
  | _ => 0

/-- The bytes of an operation (R207). -/
def OpKind.total (k : OpKind) : Nat :=
  match k with
  | .cpy _ _ len _ => len
  | .cpy2d d =>
    let rowb := dfield d 0x10 4
    let rows := dfield d 0x14 4
    rowb * rows + if c2Mxm d = 0 then 0 else rows * (rowb / efmtBytes (c2Efmt d))
  | .gth _ _ n e | .sct _ _ n e => n * e
  | .cpyt _ _ len => len
  | .apfetch _ _ n => n
  | .kvl _ _ _ _ count .. => 4 * count
  | _ => 0

/-- Sector `i` of a CPY2D (R203). -/
def c2Sector (d : List Byte) (i : Nat) : Sector :=
  let rowb := dfield d 0x10 4
  let w := c2Swz d
  let mxm := c2Mxm d
  if mxm = 0 then
    let per := (rowb + 31) / 32
    let r := i / per
    let j := 32 * (i % per)
    let n := min 32 (rowb - j)
    { src := urun (uadd (c2Src d r) j) n, dst := (urun (uadd (c2Dst d r) j) n).map (swizzle w), land := n }
  else
    let e := efmtBytes (c2Efmt d)
    let per := rowb / e
    let r := i / per
    let b := i % per
    let ss := uadd (BitVec.ofNat 64 (dfield d 0x28 8)) (r * per + b)
    let ds := uadd (BitVec.ofNat 64 (dfield d 0x30 8)) (r * per + b)
    let src := if mxm = 2 then urun (uadd (c2Src d r) (b * (e + 1))) (e + 1) else urun (uadd (c2Src d r) (b * e)) e ++ [ss]
    let dst := if mxm = 1 then urun (uadd (c2Dst d r) (b * (e + 1))) (e + 1) else urun (uadd (c2Dst d r) (b * e)) e ++ [ds]
    { src := src, dst := dst.map (swizzle w), land := e + 1 }

/-- The dword of an index list, as the list stands (R205). -/
def listEntry (x : Block) (list i : Nat) : DWord := x.dword (list + 8 * i)

/-- Sector `i` of an operation, for its block. -/
def OpKind.sector (k : OpKind) (x : Block) (i : Nat) : Sector :=
  let piece : DWord → DWord → Nat → Nat → Sector := fun s d len j =>
    let n := min 32 (len - 32 * j)
    { src := urun (uadd s (32 * j)) n, dst := urun (uadd d (32 * j)) n, land := n }
  match k with
  | .cpy d s len unit =>
    if unit = 0 then piece s d len i
    else { src := urun (uadd s (unit * i)) unit, dst := urun (uadd d (unit * i)) unit, land := unit }
  | .cpy2d d => c2Sector d i
  | .gth d list _ e =>
    let per := (e + 31) / 32
    piece (listEntry x list (i / per)) (uadd d (i / per * e)) e (i % per)
  | .sct s list _ e =>
    let per := (e + 31) / 32
    piece (uadd s (i / per * e)) (listEntry x list (i / per)) e (i % per)
  | .cpyt d s len => let p := piece s (d.getD 0) len i; if d.isNone then { p with dst := [] } else p
  | .apfetch _ s n => { piece s 0 n i with dst := [] }
  | .kvl _ _ _ _ _ _ dest .. => { src := [], dst := urun (uaOf 0 (dest + 4 * i)) 4, land := 4 }
  | _ => { src := [], dst := [], land := 0 }

/-- The swizzle tag a write of the operation sets (R204). -/
def OpKind.swz (k : OpKind) : BitVec 3 := match k with | .cpy2d d => BitVec.ofNat 3 (c2Swz d) | _ => 0

/-- A copy that moves no MX units: in an MX unit its sectors are sets of byte accesses (R237). -/
def OpKind.plain (k : OpKind) : Bool :=
  match k with
  | .cpy _ _ _ unit => unit = 0
  | .cpy2d d => c2Mxm d = 0
  | .gth .. | .sct .. | .cpyt .. | .apfetch .. => true
  | _ => false

/-- A byte of a half of a sector that has been read or written by itself. -/
def Op.part (o : Op) (i : Nat) (wr : Bool) (j : Nat) : Option Byte := assocGet o.parts ((i, wr), j)

/-- A byte of a half of a sector noted as read or written by itself. -/
def Op.addPart (o : Op) (i : Nat) (wr : Bool) (j : Nat) (v : Byte) : Op := { o with parts := o.parts ++ [(((i, wr), j), v)] }

/-- A sector read: its bytes, those that were read one by one as they were then. -/
def Op.withRead (o : Op) (i : Nat) (bs : List Byte) : Op :=
  { o with reads := o.reads ++ [(i, bs.mapIdx fun j v => (o.part i false j).getD v)], parts := o.parts.filter fun p => p.1.1 ≠ (i, false) }

/-- The index-list entry that a sector uses, with the bytes it names. -/
def OpKind.listUse (k : OpKind) (x : Block) (i : Nat) (writing : Bool) : Option (DWord × Nat) :=
  match k with
  | .gth _ list _ e => if writing then none else some (listEntry x list (i / ((e + 31) / 32)), e)
  | .sct _ list _ e => if writing then some (listEntry x list (i / ((e + 31) / 32)), e) else none
  | _ => none

/-- The check of a list entry (R205): form, alignment to 16, bounds. -/
def State.entryCheck (s : State) (x : Block) (a : DWord) (n : Nat) : Option (BitVec 8) :=
  match uform a with
  | none => some Cause.address
  | some f => if a.toNat % 16 ≠ 0 then some Cause.align else (s.boundsCheck x f a n).map (·.cause)

/-! ### The operation's state -/

/-- The operation with a number. -/
def State.op? (s : State) (id : Nat) : Option Op := s.ops.find? fun o => o.id = id

/-- The queue of an address program of a block. -/
def State.queueOfBlock (s : State) (b q : Nat) : Option ((Nat × Nat) × ApQueue) := s.apq.find? fun p => p.2.b = b && p.1.2 = q

/-- The slot an operation translates under (R199): its own, or for a fetch of an address program the program's, which the queue keeps
once the APRUN has completed. -/
def State.opSlot (s : State) (o : Op) : Nat :=
  match o.slot, o.kind with
  | some n, _ => n
  | none, .apfetch q .. =>
    match (s.queueOfBlock o.b q).bind (·.2.pin) with
    | some n => n
    | none => ((s.ops.find? fun p => p.b = o.b && p.kind = .aprun q).bind (·.slot)).getD 0
  | none, _ => 0

/-- Bytes landed so far. -/
def Op.landedBytes (o : Op) (x : Block) : Nat := (o.landed.map fun i => (o.kind.sector x i).land).foldl (· + ·) 0

/-! ### KVL (R327, R328) -/

/-- fold16 (R328). -/
def fold16 (x : Word) : Word := (x ^^^ (x >>> 16)) &&& 0xFFFF

/-- The bucket of a logical page (R328). -/
def kvlHash (seq lp : Word) (k : Nat) : Nat := (fold16 seq ^^^ fold16 (lp * 0x9E37)).toNat % 2 ^ k

/-- What a lookup does next: a probe of `n` bytes, or its result, with whether the overflow list was too long. -/
inductive KvlStep where
  | probe (a : DWord) (n : Nat)
  | result (w : Word) (long : Bool)

/-- The lookup over the entries of a list of candidates, then the overflow list of at most 64 entries, given the bytes its probes
have read; `fuel` counts both. An entry matches by VALID, SEQ and LP alone: of one whose reserved bits R4 makes malformed the spec says
nothing more (DESIGN CHOICE, log 138). -/
def kvlEntries (table : DWord) (seq lp : Word) (cands : List Word) (ovf : Word) (fuel : Nat) (bs : List Byte) : KvlStep :=
  let entry : Word → Nat → DWord := fun p o => uadd table (16 * p.toNat + o)
  let st := leNat (bs.take 8)
  let hit : Bool := st % 2 = 1 && leNat ((bs.drop 8).take 8) = seq.toNat + 2 ^ 32 * lp.toNat
  match fuel with
  | 0 => .result 0xFFFFFFFF (ovf ≠ 0xFFFFFFFF)
  | n + 1 =>
    match cands with
    | p :: r =>
      if bs.length < 8 then .probe (entry p 0) 8
      else if bs.length < 16 then .probe (entry p 8) 8
      else if hit then .result p false
      else kvlEntries table seq lp r ovf n (bs.drop 16)
    | [] =>
      if ovf = 0xFFFFFFFF then .result 0xFFFFFFFF false
      else if bs.length < 8 then .probe (entry ovf 0) 8
      else if bs.length < 16 then .probe (entry ovf 8) 8
      else if hit then .result ovf false
      else kvlEntries table seq lp [] (BitVec.ofNat 32 (st / 2 ^ 32)) n (bs.drop 16)

/-- The lookup of a page, given the bytes its probes have read: the slots of its two buckets first. -/
def kvlStep (table buckets : DWord) (seq lp : Word) (k : Nat) (ovf : Word) (bs : List Byte) : KvlStep :=
  let h := kvlHash seq lp k
  let n := bs.length
  if n < 32 then
    let b := if n < 16 then h else (h + 1) % 2 ^ k
    .probe (uadd buckets (16 * b + n % 16)) 4
  else
    let slot : Nat → Word := fun j => BitVec.ofNat 32 (leNat ((bs.drop (4 * j)).take 4))
    let cands := ((List.range 8).map slot).filter fun p => p ≠ 0xFFFFFFFF
    kvlEntries table seq lp cands ovf (cands.length + 64) (bs.drop 32)

/-- The bytes that a sector's read half has brought so far. -/
def Op.got (o : Op) (i : Nat) : List Byte := ((o.reads.find? fun p => p.1 = i).map Prod.snd).getD []

/-- The bytes a sector writes, once its read half is done; for KVL, the result of its lookup. -/
def Op.sectorData (o : Op) (i : Nat) : Option (List Byte) :=
  match o.reads.find? fun p => p.1 = i with
  | none => none
  | some p =>
    match o.kind with
    | .kvl table buckets seq lp0 _ k _ ovf _ _ =>
      match kvlStep table buckets seq (lp0 + BitVec.ofNat 32 i) k ovf p.2 with
      | .result w _ => some (natLe 4 w.toNat)
      | .probe .. => none
    | _ => some p.2

/-! ### What an operation reads and writes (R205, R239, R242) -/

/-- A byte at a unified address as it stands; zero where it cannot be reached. -/
def State.peek (s : State) (x : Block) (slot : Nat) (a : DWord) : Byte :=
  match s.locate x slot a .read with | .ok l => s.readByte l | .error _ => 0

/-- The probes of a lookup: by the bytes they have brought, and from there on by memory as it stands. -/
def State.kvlProbes (s : State) (x : Block) (slot : Nat) (step : List Byte → KvlStep) (got bs : List Byte) (fuel : Nat) :
    List (DWord × Nat) :=
  match fuel with
  | 0 => []
  | n + 1 =>
    match step bs with
    | .result .. => []
    | .probe a m =>
      let next := if bs.length + m ≤ got.length then (got.drop bs.length).take m else (urun a m).map (s.peek x slot)
      (a, m) :: s.kvlProbes x slot step got (bs ++ next) n

/-- The bytes that an index list or the probes of a KVL name, beside those that the operation's own operands name. -/
def State.namedBytes (s : State) (o : Op) (x : Block) : List (DWord × Nat) :=
  match o.kind with
  | .gth _ list n e | .sct _ list n e => (List.range n).map fun i => (listEntry x list i, e)
  | .kvl table buckets seq lp0 count k _ ovf _ _ =>
    (List.range count).flatMap fun i =>
      s.kvlProbes x (s.opSlot o) (kvlStep table buckets seq (lp0 + BitVec.ofNat 32 i) k ovf) (o.got i) [] 256
  | _ => []

/-- Every byte that an operation reads or writes. -/
def State.opBytes (s : State) (o : Op) : List (DWord × Nat) :=
  o.reads_ ++ o.writes_ ++ (match s.block? o.b with | some x => s.namedBytes o x | none => [])

end Sys2Proof.Machine
end

