-- ==== Sys2Proof/Machine/Wake.lean ====
section
/-! DEFINITION. Objects that lanes wait on, and waking them: transaction barriers (R220, R221), tags (R217), gills (R279), lock
words (R268, R270), address-program queues (R216), block and cluster barriers (R275, R276), and the completion of an asynchronous
operation (R207, R219, R344). -/

namespace Sys2Proof.Machine

/-! ### Transaction barriers (R220, R221) -/

/-- A transaction barrier's fields (R220). -/
structure Tb where
  owner : BitVec 24
  parked : Bool
  underflow : Bool
  remote : Bool
  bytes : BitVec 56
  expected : BitVec 20
  pending : BitVec 20
  phase : BitVec 4
  deriving DecidableEq, Repr

/-- The barrier in 128 bits. -/
def Tb.of (w : BitVec 128) : Tb :=
  { owner := w.extractLsb' 104 24, parked := w.getLsbD 102, underflow := w.getLsbD 101, remote := w.getLsbD 100,
    bytes := w.extractLsb' 44 56, expected := w.extractLsb' 24 20, pending := w.extractLsb' 4 20, phase := w.extractLsb' 0 4 }

/-- A barrier as 128 bits. -/
def Tb.bits (t : Tb) : BitVec 128 :=
  t.owner ++ 0#1 ++ BitVec.ofBool t.parked ++ BitVec.ofBool t.underflow ++ BitVec.ofBool t.remote ++ t.bytes ++ t.expected
    ++ t.pending ++ t.phase

/-- Rows 2 and 3 of R221, after a change. -/
def Tb.settle (t : Tb) : Tb :=
  if t.pending = 0 && t.bytes.msb then { t with underflow := true }
  else if t.pending = 0 && t.bytes = 0 && !t.underflow then { t with phase := t.phase + 1, pending := t.expected }
  else t

/-- BYTES changed by a number of bytes (R221, TBEXP and landings). -/
def Tb.add (t : Tb) (n : Int) : Tb := { t with bytes := t.bytes + BitVec.ofInt 56 n }.settle

/-- An arrival that expects `n` bytes (R221, R223). -/
def Tb.arrive (t : Tb) (n : Nat) : Tb :=
  if t.pending = 0 then { t with underflow := true }
  else { t with bytes := t.bytes + BitVec.ofNat 56 n, pending := t.pending - 1 }.settle

/-- A barrier of a block's local memory. One whose bytes a store has written while it was in use is acted on as the bytes stand, though R220 calls
what it then does undefined until the next TBINIT (DESIGN CHOICE, log 166). -/
def Block.tb (x : Block) (off : Nat) : Tb := Tb.of (BitVec.ofNat 128 (leNat (x.mem.read off 16)))

/-- A barrier written. -/
def Block.setTb (x : Block) (off : Nat) (t : Tb) : Block := { x with mem := x.mem.write off (natLe 16 t.bits.toNat) }

/-! ### Predicates and lanes -/

/-- Kd of the lanes of `m` written (R103: before they wake), and the release condition of the masks tested (R66). -/
def Gang.answer (y : Gang) (kd : Nat) (m : Word) (v : Bool) : Gang :=
  (y.setK kd (if v then y.getK kd ||| m else y.getK kd &&& ~~~m)).settleK

/-- The lanes of `m` wake and go on after their blocking word. -/
def Gang.wake (y : Gang) (m : Word) (varLat : Bool) : Gang :=
  y.mapLanes m fun _ l => { l with wait := .none, hint := none }.advance varLat

/-- A wait with an answer ends: Kd, then the lanes wake. -/
def Gang.answerWake (y : Gang) (kd : Nat) (m : Word) (v : Bool) : Gang := ((y.answer kd m v).wake m false).settleK

/-! ### Tags (R217 to R219, R344) -/

/-- A tag of a block. -/
def Block.tag (x : Block) (n : Nat) : Tag :=
  (x.tags[n]?).getD { busy := false, done := false, status := 0, detail := 0, cause := none }

/-- A tag replaced. -/
def Block.setTag (x : Block) (n : Nat) (t : Tag) : Block := { x with tags := x.tags.set n t }

/-- The tags of a mask. -/
def maskTags (m : DWord) : List Nat := (List.range 64).filter fun i => m.getLsbD i

/-- The condition of WTANY and WTALL (R218). -/
def Block.tagsHold (x : Block) (m : DWord) (all : Bool) : Bool :=
  if all then (maskTags m).all fun i => (x.tag i).done else (maskTags m).any fun i => (x.tag i).done

/-- The deferred cause that a tag wait whose condition holds raises (R219): of the lowest done tag that carries one. -/
def Block.tagCause (x : Block) (m : DWord) : Option (Trap × Block) :=
  ((maskTags m).find? fun i => (x.tag i).done && (x.tag i).cause.isSome).bind fun i =>
    (x.tag i).cause.map fun c =>
      ({ cause := c.1, tval := c.2, defer := true }, x.setTag i { x.tag i with cause := none })

/-- The deferred cause that a barrier wait whose condition holds raises (R219). -/
def Block.barCause (x : Block) (off : Nat) : Option (Trap × Block) :=
  match x.defer.find? fun e => e.bar = off with
  | some e => some ({ cause := e.cause, tval := e.tval, defer := true }, { x with defer := x.defer.erase e })
  | none =>
    match x.deferOvf with
    | e :: r => some ({ cause := e.cause, tval := e.tval, defer := true }, { x with deferOvf := r })
    | [] => none

/-! ### Gills and ring controls (R279, R280, R287) -/

/-- Whether p has passed v (R287). -/
def passed (p v : Word) : Bool := 1 ≤ (p - v).toNat && (p - v).toNat ≤ 2 ^ 31 - 1

/-- The condition of SLWAIT at a watch offset (R287). -/
def Block.slHolds (x : Block) (off : Nat) (ring : Bool) (v : Word) : Bool :=
  let w : BitVec 128 := BitVec.ofNat 128 (leNat (x.mem.read off 16))
  if ring then w.getLsbD 64 || passed (w.extractLsb' 0 32) v
  else w.getLsbD 97 || (w.getLsbD 96 && passed (w.extractLsb' 64 32) v)

/-- SEQ and CLOSED of a gill. -/
def Block.gill (x : Block) (off : Nat) : Word × Bool :=
  let w : BitVec 128 := BitVec.ofNat 128 (leNat (x.mem.read off 16))
  (w.extractLsb' 64 32, w.getLsbD 97)

/-! ### Lock words (R268, R270) -/

def lkReaders (w : DWord) : Nat := nbits w.toNat 15 0
def lkWwait (w : DWord) : Nat := nbits w.toNat 29 16
def lkHeld (w : DWord) : Bool := w.getLsbD 30
def lkPref (w : DWord) : Bool := w.getLsbD 31
def lkWriter (w : DWord) : Nat := nbits w.toNat 55 32

/-- The word with WWAIT set. -/
def lkSetWwait (w : DWord) (n : Nat) : DWord := w.extractLsb' 30 34 ++ BitVec.ofNat 14 n ++ w.extractLsb' 0 16

/-- An attempt to acquire (R270): the word after a success. -/
def lkTry (w : DWord) (write : Bool) (id : Nat) : Option DWord :=
  if write then
    if !lkHeld w && lkReaders w = 0 then
      some (w.extractLsb' 56 8 ++ BitVec.ofNat 24 id ++ BitVec.ofBool (lkPref w) ++ 1#1 ++ w.extractLsb' 0 30)
    else none
  else if !lkHeld w && lkReaders w < 65535 && (!lkPref w || lkWwait w = 0) then
    some (w.extractLsb' 16 48 ++ BitVec.ofNat 16 (lkReaders w + 1))
  else none

/-- The eight bytes at a location. -/
def Loc.eight (l : Loc) : List Loc := (List.range 8).map l.add

/-- A dword of storage. -/
def State.dwordAt (s : State) (l : Loc) : DWord := BitVec.ofNat 64 (leNat (s.readLoc l 8))

/-- The site of a place refuses an access that has issued: the port to its lender is lost (R382), the lender has fenced the range (R374,
R376), or the range is lent (R374, log 47). -/
def State.siteRefuses (s : State) (l : Loc) : Bool :=
  match l with
  | .lender e _ => (s.lease e).fenced || s.downPorts.contains (s.lease e).port
  | _ => s.lentLoc l

/-- A dword written at its site, as one write, under the key slot of its writer's space. -/
def State.putDword (s : State) (key : Nat) (l : Loc) (w : DWord) : State :=
  if s.siteRefuses l then s else s.performWrite key l.eight (natLe 8 w.toNat) none

/-- Whether a block is away: its image is in the tun. -/
def State.evicted (s : State) (b : Nat) : Bool := (s.block? b).map (·.residence) = some .evicted

/-- A place in the local memory of a block that is away. -/
def State.locAway (s : State) (l : Loc) : Bool := match l with | .loc b _ => s.evicted b | _ => false

/-- A lock waiter's answer: Kd, and the lane wakes. An answer to a block that is away is parked (R270). -/
def State.lockAnswer (s : State) (w : LockWait) (v : Bool) : State :=
  s.modGang w.b w.g fun y =>
    let z := y.lockEnd w.lane v
    match (z.lane w.lane).wait with
    | .lock _ _ _ =>
      if s.evicted w.b then { z with parked := z.parked ++ [(w.lane, w.kd, v, true)] }
      else z.answerWake w.kd (maskOf fun l => l = w.lane) v
    | _ => z

/-- A waiter whose hint ran out while its block was not on its core: its operation answers 0, whatever is released since (R70). -/
def State.waitOver (s : State) (w : LockWait) : Bool :=
  match s.gang? w.b w.g with
  | some (x, y) => x.residence ≠ .resident && (y.lane w.lane).hint = some 0
  | none => false

/-- The address that a lock waiter names. -/
def State.waiterUa (s : State) (w : LockWait) : DWord :=
  ((s.gang? w.b w.g).bind fun p => p.2.pends.findSome? fun q => if q.kind = .lockop then
    (q.accs.find? fun a => a.lane = w.lane && a.loc = w.loc && !a.performed).map (·.ua) else none).getD 0

/-- What the word of a lock waiter fails with when its site reads it again (R368, R369). -/
def State.waiterFails (s : State) (w : LockWait) : Option Trap := s.lineCheck (s.keyOf w.b) w.loc (s.waiterUa w)

/-- What its write fails with: the line's counter would wrap (R369). -/
def State.waiterWraps (s : State) (w : LockWait) : Option Trap :=
  if s.wrapped w.loc then some { cause := Cause.integrity, tval := s.waiterUa w, at_ := some w.loc } else none

/-- The context of a block is struck, once, by what was found at a site (R345). -/
def State.strikeOnce (s : State) (b g : Nat) (t : Trap) : State :=
  match s.block? b with
  | some x => if s.struck x.ctx then s else s.strike x g t
  | none => s

/-- A waiter tried again: granted, it leaves; a granted LKW first removes its own count (R270). A word that cannot be read, or a grant that
cannot be written, strikes the waiter's context (R345, R369; DEDUCED, log 49). -/
def State.tryWaiter (s : State) (w : LockWait) : State :=
  if s.locAway w.loc || s.siteRefuses w.loc || s.waitOver w then s else
  match s.waiterFails w with
  | some t => s.strikeOnce w.b w.g t
  | none =>
  let cur := s.dwordAt w.loc
  let un := if w.write && w.counted then lkSetWwait cur (lkWwait cur - 1) else cur
  match lkTry un w.write w.b with
  | none => s
  | some new =>
    match s.waiterWraps w with
    | some t => s.strikeOnce w.b w.g t
    | none => ({ s.putDword (s.keyOf w.b) w.loc new with lockWaits := s.lockWaits.erase w }).lockAnswer w true

/-- Every site with waiters tries them, oldest first, each success applied before the next is tried (R270). -/
def State.retryLocks (s : State) : State := s.lockWaits.foldl (fun z w => z.tryWaiter w) s

/-- A waiter leaves without a grant: its WWAIT count is undone, unless its site refuses it, and its lane answers 0 (R270). A word that cannot be
read or written for that strikes its context (R345, R369; DEDUCED, log 49). -/
def State.dropWaiter (s : State) (w : LockWait) : State :=
  let s1 := { s with lockWaits := s.lockWaits.erase w }
  if w.write && w.counted && !s.siteRefuses w.loc then
    match (s.waiterFails w).or (s.waiterWraps w) with
    | some t => s.strikeOnce w.b w.g t
    | none =>
      let cur := s.dwordAt w.loc
      (s1.putDword (s.keyOf w.b) w.loc (lkSetWwait cur (lkWwait cur - 1))).lockAnswer w false
  else s1.lockAnswer w false

/-- The block that holds a lock for writing, as its word says. A word that its site cannot read, or refuses, names none (R368, R374; DESIGN
CHOICE, log 178). -/
def State.lockHolder (s : State) (key : Nat) (l : Loc) : Option Nat :=
  if s.siteRefuses l || (s.lineCheck key l 0).isSome then none
  else let v := s.dwordAt l; if lkHeld v then some (lkWriter v) else none

/-! ### Address-program queues (R216) -/

/-- The queue of a block, if it has claimed it. -/
def State.claimed? (s : State) (x : Block) (q : Nat) : Option ApQueue :=
  match s.apq? x.die x.core q with
  | some a => if a.b = x.id then some a else none
  | none => none

/-- A pin that may be held is released. -/
def State.unpinOpt (s : State) (n : Option Nat) : State := match n with | some n => s.unpin n | none => s

/-- A queue released, with the pin that it keeps for its fetches. -/
def State.dropApq (s : State) (d : Die) (core q : Nat) : State :=
  ({ s with apq := s.apq.filter fun p => p.1 ≠ (d.val * 96 + core, q) } : State).unpinOpt ((s.apq? d core q).bind (·.pin))

/-- The queue is released when its program has ended and nothing is left in it (R214). -/
def State.releaseApq (s : State) (d : Die) (core q : Nat) : State :=
  match s.apq? d core q with
  | some a => if a.ended.isSome && a.entries.isEmpty then s.dropApq d core q else s
  | none => s

/-- The words of an entry, lane by lane (R216). -/
def entryLanes (bs : List Byte) : Lanes := Vector.ofFn fun l => BitVec.ofNat 32 (leNat ((bs.drop (4 * l.val)).take 4))

/-- The oldest entry popped, if it is visible. -/
def ApQueue.pop (a : ApQueue) : Option (Lanes × ApQueue) :=
  match a.entries with
  | e :: r => if e.landed then some (entryLanes e.data, { a with entries := r }) else none
  | [] => none

/-! ### Waking (R69, R219, R221, R224, R270, R275, R277, R287) -/

/-- What a lane's wait comes to when its condition is tested. -/
inductive Woken where
  /-- It goes on waiting. -/
  | no
  /-- Its lanes go on, with an answer in Kd if it has one. -/
  | go (kd : Option Nat)
  /-- Its lanes trap at the waiting word; the block is as given. -/
  | trap (t : Trap) (x : Block)
  /-- Its lanes test again by issuing. -/
  | again
  /-- An AQPOP's entry has come: the words and the queue left. -/
  | popped (id : Nat) (v : Lanes) (a : ApQueue) (q : Nat)

/-- A barrier wait (R221, R224): underflow, then the phase, then deferred causes. -/
def Block.tbWait (x : Block) (off : Nat) (phase : BitVec 4) (kd : Option Nat) : Woken :=
  let t := x.tb off
  if t.underflow then .trap { cause := Cause.tbUnderflow, tval := BitVec.ofNat 64 off } x
  else if t.phase = phase then .no
  else match x.barCause off with
    | some (tr, x') => .trap tr x'
    | none => .go kd

/-- A tag wait (R218, R219). -/
def Block.tagWait (x : Block) (m : DWord) (all : Bool) : Woken :=
  if x.tagsHold m all then
    match x.tagCause m with
    | some (tr, x') => .trap tr x'
    | none => .go none
  else .no

/-- The condition of TRYW (R277). -/
def State.tryHolds (s : State) (x : Block) (y : Gang) (o : TryObj) : Bool :=
  match o with
  | .dcount n => y.dSeen n = 0
  | .lock a w _ => (lkTry (s.dwordAt a) w 0).isSome
  | .gill off q => let g := x.gill off; g.2 || g.1 ≠ q

/-- What the read of a TRYW's lock word fails with: its site refuses it (R374, R376, R382), or the line cannot be read (R368, R369). -/
def State.tryTrap (s : State) (x : Block) (o : TryObj) : Option Trap :=
  match o with
  | .lock a _ ua =>
    if s.siteRefuses a then some { cause := Cause.leaseRevoked, tval := ua } else s.lineCheck (s.space x.space).key a ua
  | _ => none

/-- The phase of the cluster barrier of a unit. -/
def State.cbarPhase (s : State) (u : Option Nat) : BitVec 4 :=
  match u with
  | some n => ((s.cbars.find? fun c => c.unit = n).map (·.phase)).getD 0
  | none => 0

/-- A lane's wait tested. -/
def State.testWait (s : State) (x : Block) (y : Gang) (l : Lane) : Woken :=
  match l.wait with
  | .tb off ph kd => x.tbWait off ph kd
  | .tags m all => x.tagWait m all
  | .tryw o kd => (match s.tryTrap x o with | some t => .trap t x | none => if s.tryHolds x y o then .go (some kd) else .no)
  | .slwait off ring v kd => if x.slHolds off ring v then .go (some kd) else .no
  | .bar n ph => if ((x.bars[n]?).map (·.phase)).getD 0 = ph + 1 then .go none else .no
  | .cbar ph => if s.cbarPhase x.unit = ph + 1 then .go none else .no
  | .header f => if (List.range 6).all fun i => !f.getLsbD i || y.dSeen i = 0 then .again else .no
  | .aqpop q id =>
    match s.claimed? x q with
    | none => .trap { cause := Cause.illegal, tval := BitVec.ofNat 64 (((y.pends.find? fun p => p.id = id).map (·.code)).getD 0) } x
    | some a => match a.pop with
      | some (v, a') => .popped id v a' q
      | none =>
        if a.ended.isSome && a.entries.isEmpty then
          .trap { cause := Cause.illegal, tval := BitVec.ofNat 64 (((y.pends.find? fun p => p.id = id).map (·.code)).getD 0) } x
        else .no
  | _ => .no

/-- The lane's wait is tested; if it ends, it ends for every lane that waits with it at one word. -/
def State.wakeLane (s : State) (b g l : Nat) : State :=
  match s.gang? b g with
  | none => s
  | some (x, y) =>
    let ln := y.lane l
    if !y.live.getLsbD l || ln.wait = .none then s
    else
      let m : Word := maskOf fun k => y.live.getLsbD k && (y.lane k).pc = ln.pc && (y.lane k).wait = ln.wait
      match s.testWait x y ln with
      | .no => s
      | .go none => s.setGang b g (y.wake m false)
      | .go (some kd) =>
        let y1 := (match ln.wait with | .slwait off _ _ _ => y.noteSlwait b off | _ => y)
        s.setGang b g (y1.answerWake kd m true)
      | .again => s.setGang b g (y.mapLanes m fun _ k => { k with wait := .none, hint := none })
      | .trap t x' =>
        let aq := (match ln.wait with | .aqpop _ _ => true | _ => false)
        let y1 := y.mapLanes m fun _ k => { k with wait := .none, hint := none, vlHere := false, complete := k.complete && !aq }
        let y2 := (match ln.wait with | .aqpop _ id => y1.dropPend id | _ => y1)
        ((s.setBlock x').setGang b g y2).takeTrap b g m ln.pc t false
      | .popped id v a q =>
        let y1 := { y with pends := y.pends.map fun (p : Pend) => if p.id = id then { p with vals := [v] } else p }
        ((s.setApq x.die x.core q a).setGang b g (y1.wake m true)).releaseApq x.die x.core q

/-- The waits of a gang tested, lane by lane. -/
def State.wakeGang (s : State) (b g : Nat) : State := (List.range 32).foldl (fun z l => z.wakeLane b g l) s

/-- Whether any live lane of a gang waits. -/
def Gang.anyWait (y : Gang) : Bool := (lanesOf y.live).any fun l => (y.lane l).wait ≠ .none

/-- Lock waiters are tried, and every wait of a resident block is tested. An evicted block's waits are tested at its restore
(R70, R71). -/
def State.settle (s : State) : State :=
  let s1 := s.retryLocks
  s1.blocks.foldl (fun z x =>
    if x.residence = .resident then
      (List.range x.gangs.length).foldl (fun w g =>
        if ((x.gangs[g]?).map Gang.anyWait).getD false then w.wakeGang x.id g else w) z
    else z) s1

/-! ### Completion of an operation (R200, R207, R219, R344) -/

/-- The barrier that a completion operand names, for a block: the block that holds it and its offset. -/
def State.complBar (s : State) (x : Block) (c : Word) : Option (Nat × Nat) :=
  if !c.getLsbD 31 then none
  else if c.getLsbD 30 then (s.memberOf x (nbits c.toNat 20 19)).map fun y => (y.id, nbits c.toNat 18 0)
  else some (x.id, nbits c.toNat 18 0)

/-- What bytes of a save pool fail with when they are read and written (R345, R368, R369): no rule gives them a VA, and INTEGRITY carries the
physical address (DESIGN CHOICE, log 151). -/
def State.poolFails (s : State) (z : Block) (ls : List Loc) : Option Trap :=
  ls.findSome? fun l => match s.lineCheck (s.space z.space).key l (BitVec.ofNat 64 l.pa) with
    | some t => some t
    | none => if s.wrapped l then some { cause := Cause.integrity, tval := BitVec.ofNat 64 l.pa, at_ := some l } else none

/-- A landing on a barrier of a block that is away: it is logged, and the barrier's PARKED bit is set in the save image, with the header's
mark of it (R210, R220). Bytes of the image that cannot be read or written strike the context. -/
def State.parkLanding (s : State) (z : Block) (off : Nat) (n : Int) : State :=
  let set : State → List Loc → Byte → State := fun t l m => t.performWrite (t.keyOf z.id) l (l.map fun a => t.readByte a ||| m) none
  let s1 := (match z.saved with
    | some base =>
      let bar := s.poolRun z (z.localAt base + off + 12) 1
      let head := s.poolRun z (base + 64) 1
      (match s.poolFails z (bar ++ head) with
        | some t => s.strikeOnce z.id 0 t
        | none => set (set s bar 64) head 1)
    | none => s)
  s1.modBlock z.id fun x => { x with arrivalLog := x.arrivalLog ++ [{ compl := BitVec.ofNat 32 (2 ^ 31 + off), bytes := n, done := none }] }

/-- Bytes subtracted from (or, negative, given back to) the barrier of an operation (R207, R209); for an evicted block they are
logged (R210). -/
def State.land (s : State) (x : Block) (c : Word) (n : Int) : State :=
  match s.complBar x c with
  | none => s
  | some (b, off) =>
    match s.block? b with
    | none => s
    | some z =>
      if z.residence = .evicted then s.parkLanding z off n
      else s.modBlock b fun z => z.setTb off ((z.tb off).add (-n))

/-- A deferred cause of a barrier enters the list of its block (R219). -/
def Block.addDeferred (x : Block) (e : Deferred) : Block :=
  if x.defer.length < 8 then { x with defer := x.defer ++ [e] } else { x with deferOvf := x.deferOvf ++ [e] }

/-- The completion record of a tag (R207, R217). -/
def Block.completeTag (x : Block) (n status : Nat) (detail : DWord) (cause : Option (BitVec 8 × DWord)) : Block :=
  x.setTag n { busy := false, done := true, status := status, detail := detail, cause := cause }

/-- An operation's completion is reported (R207, R217, R219, R344): the tag takes its record and a deferred cause; a barrier takes
the bytes that did not land, and the cause enters its block's list. -/
def State.complete (s : State) (x : Block) (c : Word) (remaining status : Nat) (detail : DWord)
    (cause : Option (BitVec 8 × DWord)) : State :=
  if c.getLsbD 31 then
    let s1 := if remaining = 0 then s else s.land x c remaining
    match cause, s1.complBar x c with
    | some (k, v), some (b, off) =>
      let tv := if k = Cause.swz then BitVec.ofNat 64 off else v
      s1.modBlock b fun z => z.addDeferred { cause := k, bar := off, tval := tv }
    | _, _ => s1
  else
    let n := nbits c.toNat 5 0
    let cz := cause.map fun p => (p.1, if p.1 = Cause.swz then BitVec.ofNat 64 n else p.2)
    s.modBlock x.id fun z =>
      if z.residence = .evicted then { z with arrivalLog := z.arrivalLog ++ [{ compl := c, bytes := 0, done := some (status, detail, cz) }] }
      else z.completeTag n status detail cz

/-- An operation leaves: its pin is released (R199). -/
def State.dropOp (s : State) (id : Nat) : State :=
  match s.ops.find? fun o => o.id = id with
  | none => s
  | some o =>
    let s1 := { s with ops := s.ops.filter fun p => p.id ≠ id }
    match o.slot with
    | some n => s1.unpin n
    | none => s1

/-- An operation replaced under its number. -/
def State.setOp (s : State) (o : Op) : State := { s with ops := s.ops.map fun p => if p.id = o.id then o else p }

/-- The status codes of R217. -/
def stOk : Nat := 0
def stFault : Nat := 1
def stIntegrity : Nat := 2
def stSwz : Nat := 3
def stCancelled : Nat := 4
def stOverflowLong : Nat := 5
def stSubQuota : Nat := 6

end Sys2Proof.Machine
end

