-- ==== Sys2Proof/Machine/Order.lean ====
section
/-! DEFINITION. Fences and what they hold (R231, R232, R239 to R245), and the order in which one gang's accesses are performed
(R233, R234). -/

namespace Sys2Proof.Machine

/-! ### Accesses -/

/-- An access about to issue: its class, its point, the bytes it names and whether it writes them. -/
structure Acc where
  cls : AccClass
  point : Nat
  ranges : List (DWord × Nat) := []
  writes : Bool := false

/-- Copies in the sense of class C (R231). -/
def OpKind.isCopy (k : OpKind) : Bool :=
  match k with
  | .cpy .. | .cpy2d .. | .gth .. | .sct .. | .cpyt .. | .kvl .. | .mat => true
  | _ => false

/-- The point of a lane's access (R232). -/
def pendPoint (space : Nat) (l : Loc) : Nat :=
  match space with
  | 0 => 0
  | 1 => 1
  | 2 => 2
  | 3 => 0
  | 5 => 3
  | _ => match l with | .tun _ _ => 2 | _ => l.mainPoint

/-- The point of a pending word: all lanes of a word have one (R232, R257). -/
def Pend.point (p : Pend) : Nat := (p.accs.map fun a => pendPoint p.space a.loc).foldl max 0

/-- Whether two runs of bytes share one. -/
def overlap (a : Nat) (n : Nat) (b : Nat) (m : Nat) : Bool := a < b + m && b < a + n

/-- Whether a range overlaps another, in one unified form (R239). -/
def rangeMeets (r : DWord × Nat) (a : DWord) (n : Nat) : Bool := overlap r.1.toNat r.2 a.toNat n

/-! ### Bindings (R239) -/

/-- A range shares a byte with a region other than the bytes of the word `o`, which are not bound to it. -/
def rangeMeetsBut (r : DWord × Nat) (a : DWord) (n : Nat) (o : DWord) : Bool :=
  let lo := max r.1.toNat a.toNat
  let hi := min (r.1.toNat + r.2) (a.toNat + n)
  lo < hi && (lo < o.toNat || o.toNat + 8 < hi)

/-- A range holds a byte bound to `o` at scope `sc`, in the context's table as it stands. -/
def State.bound (s : State) (ctx : Nat) (o : DWord) (sc : Nat) (r : DWord × Nat) : Bool :=
  s.binds.any fun e => e.1 = ctx && e.2.2.obj = o && e.2.2.scope ≤ sc && rangeMeetsBut r e.2.2.base e.2.2.len o

/-- The point of an object by its form (R232, R240). -/
def State.objPoint (s : State) (x : Block) (o : DWord) : Nat := s.pointOf x o 8

/-! ### What a fence holds (R241 to R245) -/

/-- A fence still waits for an access issued before it. -/
def State.fenceActive (s : State) (y : Gang) (f : Fence) : Bool :=
  (f.awaits.any fun i => y.pends.any fun p => p.id = i && !p.performed) || f.awaitsOps.any fun i => s.ops.any fun o => o.id = i

/-- A fence holds an access (R241 to R244): `dir` 1 is a release on its object, 2 an acquire, 0 an order on what it covers. -/
def Fence.holds (f : Fence) (a : Acc) : Bool :=
  f.suc.getLsbD a.cls.bit &&
  match f.dir, f.obj with
  | 1, some o => a.writes && a.ranges.any fun r => rangeMeets r o 8
  | 2, some _ => true
  | _, _ => a.point ≤ f.scope

/-- An access that a fence of its gang holds (R245). -/
def State.held (s : State) (y : Gang) (a : Acc) : Bool := y.fences.any fun f => s.fenceActive y f && f.holds a

/-- Earlier pending words of the gang in a class of `pre` for which a test holds. -/
def Gang.awaited (y : Gang) (pre : BitVec 4) (p : Pend → Bool) : List Nat :=
  (y.pends.filter fun q => !q.performed && (match q.kind.cls with | some c => pre.getLsbD c.bit | none => false) && p q).map (·.id)

/-- Earlier copies of the gang, if C is in `pre`, for which a test holds. -/
def State.awaitedOps (s : State) (b g : Nat) (pre : BitVec 4) (p : Op → Bool) : List Nat :=
  if pre.getLsbD 3 then (s.ops.filter fun o => o.b = b && o.g = g && o.kind.isCopy && p o).map (·.id) else []

/-- The bytes of a pending word, in unified form; SP bytes have none (R239). -/
def Pend.ranges (p : Pend) : List (DWord × Nat) := if p.space = 3 then [] else p.accs.map fun a => (a.ua, a.size)

/-- An order-only or full fence (R241, R244). -/
def State.orderFence (s : State) (b g : Nat) (y : Gang) (pre suc : BitVec 4) (sc : Nat) : Fence :=
  { seq := y.seq, pre := pre, suc := suc, scope := sc, dir := 0, obj := none,
    awaits := y.awaited pre fun p => p.point ≤ sc, awaitsOps := s.awaitedOps b g pre fun o => o.point ≤ sc }

/-- A release on `o` (R242). -/
def State.releaseFence (s : State) (ctx b g : Nat) (y : Gang) (pre suc : BitVec 4) (sc : Nat) (o : DWord) : Fence :=
  { seq := y.seq, pre := pre, suc := suc, scope := sc, dir := 1, obj := some o,
    awaits := y.awaited pre fun p => p.ranges.any (s.bound ctx o sc),
    awaitsOps := s.awaitedOps b g pre fun p => (s.opBytes p).any (s.bound ctx o sc) }

/-- The bytes of the gill or ring that a subscription delivers to (R279, R280). -/
def gillBytes (every : Bool) (r : Nat) : Nat := if every then 16 * (2 ^ r + 1) else 16

/-- Whether a place lies in a gill of the block `b`, by whatever form it was reached, that a subscription to the word `w` delivers to
or delivered to last (R246). -/
def State.gillOf (s : State) (w : Loc) (n : Nat) (l : Loc) : Bool :=
  match l with
  | .loc b off =>
    (s.subs.any fun u => match u.who with
      | .gill b' base => b' = b && (u.word = w || w.covers 8 u.word) && overlap off n base (gillBytes u.every u.r)
      | _ => false) ||
    (match s.block? b with
      | some x => x.oldGills.any fun g => (g.word = w || w.covers 8 g.word) && overlap off n g.base g.size
      | none => false)
  | _ => false

/-- Whether a read reads bytes of `o`, or of a gill subscribed to it (R239, R246). -/
def State.readsObj (s : State) (x : Block) (o : DWord) (r : DWord × Nat × Loc) : Bool :=
  rangeMeets (r.1, r.2.1) o 8 || (match s.locate x x.rootSlot o .read with
    | .ok w => s.gillOf w r.2.1 r.2.2
    | .error _ => false)

/-- The gang's latest read of `o` in a class of `pre`, if it is still outstanding (R243). -/
def State.latestRead (s : State) (x : Block) (y : Gang) (pre : BitVec 4) (o : DWord) : List Nat :=
  let outs := y.pends.filter fun p => p.isRead && !p.performed
    && (match p.kind.cls with | some c => pre.getLsbD c.bit | none => false) && p.places.any (s.readsObj x o)
  match outs.getLast? with
  | none => []
  | some p =>
    let later := (y.doneReads.any fun d => p.seq < d.1 && pre.getLsbD d.2.1 && d.2.2.any (s.readsObj x o))
      || y.pends.any fun q => p.seq < q.seq && q.isRead && q.performed
        && (match q.kind.cls with | some c => pre.getLsbD c.bit | none => false) && q.places.any (s.readsObj x o)
    if later then [] else [p.id]

/-- An acquire on `o` (R243). -/
def State.acquireFence (s : State) (x : Block) (y : Gang) (pre suc : BitVec 4) (sc : Nat) (o : DWord) : Fence :=
  { seq := y.seq, pre := pre, suc := suc, scope := sc, dir := 2, obj := some o, awaits := s.latestRead x y pre o, awaitsOps := [] }

/-- The lines an acquire on `o` drops (R243): those of the core that hold a byte bound to `o`. -/
def State.acquireDrop (s : State) (x : Block) (sc : Nat) (o : DWord) : State :=
  if sc < 2 then s
  else s.dropLines x.devCore fun n =>
    s.tbase x.ctx x.die ≤ 128 * n + 127 &&
    s.bound x.ctx o sc (uaOf 2 (128 * n - s.tbase x.ctx x.die), 128)

/-- The lines a full fence drops (R244): those that hold bytes of the context's tun allocation. -/
def State.fullDrop (s : State) (x : Block) (sc : Nat) : State :=
  if sc < 2 then s
  else s.dropLines x.devCore fun n => overlap (128 * n) 128 (s.tbase x.ctx x.die) (s.tsize x.ctx)

/-- Fences that no longer wait are dropped. -/
def State.pruneFences (s : State) (b g : Nat) : State :=
  s.modGang b g fun y => { y with fences := y.fences.filter (s.fenceActive y) }

/-! ### The gang's own order (R233, R234) -/

/-- Byte `i` of a lane's store, if the store alone determines it: an MX store merges with the unit's old elements (R197). -/
def LaneAcc.supplies (k : PendKind) (a : LaneAcc) (i : Nat) : Option Byte :=
  match k with
  | .store => a.data[i]?
  | .mxstore =>
    let has : Nat → Bool := fun l => nbits (leNat a.data2) l l = 1
    let code : Nat → Nat := fun l => ((a.data[l + 1]?).map BitVec.toNat).getD 0
    if i + 1 = a.size then a.data[0]?
    else if a.size = 33 then if has i then some (BitVec.ofNat 8 (code i)) else none
    else if a.size = 17 then
      if has (2 * i) && has (2 * i + 1) then some (BitVec.ofNat 8 (code (2 * i) % 16 + 16 * (code (2 * i + 1) % 16))) else none
    else
      let g := i / 3 * 4
      if (List.range 4).all fun j => has (g + j) then
        some (BitVec.ofNat 8 (((List.range 4).map fun j => code (g + j) % 64 * 2 ^ (6 * j)).foldl (· + ·) 0 / 256 ^ (i % 3)))
      else none
  | _ => none

/-- Byte `i` of an access is no longer to be read or written: supplied or read already, written already, or another lane's to write. -/
def LaneAcc.settled (a : LaneAcc) (i : Nat) : Bool := ((a.fwd[i]?).getD none).isSome

/-- The offset of byte `b` in the `n` bytes at a location, if it is one of them. -/
def Loc.offsetOf (l : Loc) (n : Nat) (b : Loc) : Option Nat := (List.range n).find? fun i => l.add i = b

/-- What the gang's store buffer supplies for a byte (R234): the newest write to it, where that is a
store that determines it. -/
def Gang.forward (y : Gang) (b : Loc) : Option Byte :=
  (y.pends.flatMap fun p => match p.kind with
    | .store | .mxstore | .atomic | .lockop => (p.accs.filter fun a => !a.performed).filterMap fun a =>
        ((a.loc.offsetOf a.size b).filter fun i => !a.settled i).map fun i => (p.kind, a, i)
    | _ => []).foldl (fun _ q => LaneAcc.supplies q.1 q.2.1 q.2.2) none

/-- What the gang's store buffer supplies for an MX unit (R129, R234): all of its bytes where the newest write to any of them is one
MXST of the whole unit, else none. -/
def Gang.forwardUnit (y : Gang) (l : Loc) (n : Nat) : List (Option Byte) :=
  let hits : List (PendKind × LaneAcc) := y.pends.flatMap fun p => match p.kind with
    | .store | .mxstore | .atomic | .lockop => ((p.accs.filter fun a => !a.performed &&
        (List.range n).any fun i => ((a.loc.offsetOf a.size (l.add i)).map fun j => !a.settled j).getD false).map fun a => (p.kind, a))
    | _ => []
  match hits.getLast? with
  | some (.mxstore, a) =>
    if a.loc = l && a.size = n && (List.range n).all (fun i => (LaneAcc.supplies .mxstore a i).isSome && !a.settled i) then
      (List.range n).map fun i => LaneAcc.supplies .mxstore a i
    else List.replicate n none
  | _ => List.replicate n none

/-- A byte that a lane's access still needs from the site, or writes there. -/
def LaneAcc.needs (k : PendKind) (a : LaneAcc) (b : Loc) : Bool :=
  match a.loc.offsetOf a.size b with
  | none => false
  | some i => match k with | .atomic => true | .lockop => !a.queued | _ => !a.settled i

/-- An earlier access of the gang to a byte the access needs, not performed: then the access waits (R233). The order holds where one
of the two writes, and between two reads, so that the gang never reads an older value after a newer one. Lanes of one word that
write the same byte are performed in ascending order (R192, R261). -/
def Gang.blocked (y : Gang) (p : Pend) (a : LaneAcc) : Bool :=
  let wr : Bool := match p.kind with | .load | .mxload | .tbrd => false | _ => true
  (List.range a.size).any fun i =>
    let b := a.loc.add i
    a.needs p.kind b && y.pends.any fun q =>
      (q.seq < p.seq && q.accs.any fun e => !e.performed && e.needs q.kind b)
        || (q.id = p.id && wr && q.accs.any fun e => !e.performed && e.lane < a.lane && e.needs q.kind b)

end Sys2Proof.Machine
end

