-- ==== Sys2Proof/Machine/Memory.lean ====
section
/-! DEFINITION. LD, ST, MXLD and MXST (R186 to R198), and the completion of variable-latency words (R100). -/

namespace Sys2Proof.Machine

/-! ### Addresses (R187) -/

/-- The address of a lane: (V[va] + sext(off6) x s) mod 2^32. -/
def laneAddr (base : Word) (off : BitVec 6) (size : Nat) : Nat := (base + off.signExtend 32 * BitVec.ofNat 32 size).toNat

/-- The bound of a space for a block (R186). -/
def State.spaceBound (s : State) (x : Block) (space : Nat) : Nat :=
  match space with
  | 2 => s.tsize x.ctx
  | 3 => x.lrec.spill
  | _ => x.lrec.localB

/-- The rows of R187 for one lane, in order. -/
def State.laneCheck (s : State) (x : Block) (space size : Nat) (align : Bool) (a : Nat) : Option Trap :=
  let tr : BitVec 8 → Option Trap := fun c => some { cause := c, tval := BitVec.ofNat 64 a }
  if space = 1 && (x.unit.isNone || a / 2 ^ 21 ≠ 0) then tr Cause.window
  else if align && a % size ≠ 0 then tr Cause.align
  else
    let lo := if space = 1 then nbits a 18 0 else a
    if s.spaceBound x space < lo + size then tr (if space = 2 then Cause.address else Cause.localBounds)
    else if space = 1 && s.memberGone x (nbits a 20 19) then tr Cause.windowPeer
    else none

/-- The storage that an offset of a space names (R189 to R191). -/
def State.spaceLoc (s : State) (x : Block) (g space a : Nat) : Loc :=
  match space with
  | 1 => match s.memberOf x (nbits a 20 19) with
    | some y => .loc y.id (nbits a 18 0)
    | none => .loc x.id a
  | 2 => .tun x.die (s.tbase x.ctx x.die + a)
  | 3 => .loc x.id (x.spBase g + a)
  | _ => .loc x.id a

/-- The access of one lane, not yet performed; a load's bytes that the gang's store buffer holds come with it (R234). -/
def mkAcc (y : Gang) (lane : Nat) (loc : Loc) (ua : DWord) (size : Nat) (rd : Bool) (data data2 : List Byte) : LaneAcc :=
  { lane := lane, loc := loc, ua := ua, size := size,
    fwd := if rd then (List.range size).map fun i => y.forward (loc.add i) else [],
    data := data, data2 := data2, ret := [], performed := false }

/-- The accesses of the lanes of `m`, their checks made. -/
def State.laneAccs (s : State) (c : Ctx) (o : Mem) (size : Nat) (rd : Bool) (data : Nat → List Byte) : List LaneAcc :=
  (lanesOf c.m).map fun l =>
    let a := laneAddr (c.v o.va l) o.off size
    mkAcc c.y l (s.spaceLoc c.x c.g o.sp.toNat a) (uaOf o.sp.toNat a) size rd (data l) []

/-- The access of a set of lane accesses, as a fence sees it. -/
def accOf (cls : AccClass) (space : Nat) (wr : Bool) (as : List LaneAcc) : Acc :=
  { cls := cls, point := (as.map fun a => pendPoint space a.loc).foldl max 0,
    ranges := if space = 3 then [] else as.map fun a => (a.ua, a.size), writes := wr }

/-! ### LD and ST (R194, R195) -/

/-- The access size of a wf code (R194). -/
def wfSize (wf : BitVec 4) : Nat := match wf.toNat with | 0 => 1 | 1 => 1 | 2 => 2 | 3 => 2 | 15 => 8 | _ => 4

/-- The tag that LD gives its destination (R194). -/
def wfTag (wf : BitVec 4) : BitVec 5 :=
  match wf.toNat with
  | 0 => tU32 | 1 => tI32 | 2 => tU32 | 3 => tI32 | 4 => tRAW | 5 => tI32 | 6 => tU32 | 7 => tF32 | 8 => tF16X2
  | 9 => tBF16X2 | 10 => tI16X2 | 11 => tI8X4 | 12 => tE4M3X4 | 13 => tE5M2X4 | 14 => tMK8X4 | _ => tI64LO

/-- The destination registers of LD, with their tags. -/
def ldDst (o : Mem) : List (Nat × Tags) :=
  if o.wf = 15#4 then [(o.vd.toNat, Vector.replicate 32 tI64LO), (o.vd.toNat + 1, Vector.replicate 32 tI64HI)]
  else [(o.vd.toNat, Vector.replicate 32 (wfTag o.wf))]

/-- The checks of R187 over the issue set (R124). -/
def State.memChecks (s : State) (c : Ctx) (o : Mem) (size : Nat) (align : Bool) : Except Trap Unit :=
  firstLane c.m fun l => s.laneCheck c.x o.sp.toNat size align (laneAddr (c.v o.va l) o.off size)

def execLd (o : Mem) (s : State) : Host.Outcome State Fault Refusal :=
  let size := wfSize o.wf
  let pair := o.wf = 15#4
  issueWord { cls := 2, stall := o.st, varLat := true, regsOk := fun _ => !pair || evenV o.vd, reads := [.v o.va.toNat],
              writes := .v o.vd.toNat :: if pair then [.v (o.vd.toNat + 1)] else [] }
    (fun c s =>
      match s.memChecks c o size true with
      | .error t => .trap t
      | .ok _ =>
        let as := s.laneAccs c o size true fun _ => []
        if s.held c.y (accOf .load o.sp.toNat false as) then .hold
        else .done (s.addPend c { Pend.blank .load with
          code := o.wf.toNat, dst := ldDst o, mask := c.m, accs := as, space := o.sp.toNat }) true) s

/-- The wf codes of ST (R194). -/
def stCode (wf : BitVec 4) : Bool := wf = 0#4 || wf = 2#4 || wf = 4#4 || wf = 15#4

def execSt (o : Mem) (s : State) : Host.Outcome State Fault Refusal :=
  let size := wfSize o.wf
  let pair := o.wf = 15#4
  issueWord { cls := 2, stall := o.st, varLat := true, regsOk := fun _ => stCode o.wf && (!pair || evenV o.vd),
              reads := .v o.va.toNat :: .v o.vd.toNat :: if pair then [.v (o.vd.toNat + 1)] else [] }
    (fun c s =>
      match s.memChecks c o size true with
      | .error t => .trap t
      | .ok _ =>
        let as := s.laneAccs c o size false fun l => natLe size (if pair then (c.pair o.vd l).toNat else (c.v o.vd l).toNat)
        if s.held c.y (accOf .store o.sp.toNat true as) then .hold
        else .done (s.addPend c { Pend.blank .store with mask := c.m, accs := as, space := o.sp.toNat }) true) s

/-! ### MXLD and MXST (R196, R197) -/

/-- The bytes of an MX unit, by wf (R196). -/
def mxSize (wf : BitVec 4) : Nat := match wf.toNat with | 2 => 25 | 3 => 25 | 4 => 17 | _ => 33

/-- The scaled-single tag of wf. -/
def mxTag (wf : BitVec 4) : BitVec 5 := BitVec.ofNat 5 (0x10 + wf.toNat)

/-- A unit from its scale and its 32 codes. -/
def mxUnit (size scale : Nat) (code : Nat → Nat) : List Byte :=
  let w := (match size with | 33 => 8 | 25 => 6 | _ => 4)
  natLe (size - 1) (((List.range 32).map fun l => code l % 2 ^ w * 2 ^ (w * l)).foldl (· + ·) 0) ++ [BitVec.ofNat 8 scale]

/-- The lanes of an issue set grouped by the unit they name: the lowest lane and all of them. -/
def unitGroups (m : Word) (a : Nat → Nat) : List (Nat × Word) :=
  (lanesOf m).filterMap fun l =>
    let grp : Word := maskOf fun k => m.getLsbD k && a k = a l
    if lowest grp = some l then some (l, grp) else none

/-- The highest lane of a unit's group that writes byte `i` of the unit (R192, R197): the scale byte is written by every lane, another
by the lanes whose element lies in it. -/
def unitWriter (size i : Nat) (grp : Word) : Option Nat :=
  ((lanesOf grp).filter fun l =>
    i + 1 = size || (match size with | 33 => l = i | 25 => 6 * l / 8 ≤ i && i ≤ (6 * l + 5) / 8 | _ => l / 2 = i)).getLast?

/-- The unit accesses of MXLD and MXST, one for each unit named. Of units that overlap, each writes the bytes that the highest lane
writes through it (R192). MXLD reads its unit as one event: the gang's store buffer supplies all of it or nothing (R129). -/
def State.unitAccs (s : State) (c : Ctx) (o : Mem) (size : Nat) (rd : Bool) (data : Word → List Byte) : List LaneAcc :=
  let a : Nat → Nat := fun l => laneAddr (c.v o.va l) o.off size
  let gs := unitGroups c.m a
  let won : Nat × Word → Nat → Bool := fun p i =>
    match unitWriter size i p.2 with
    | none => false
    | some l => gs.all fun q =>
      let at_ := a p.1 + i
      if q.1 = p.1 || at_ < a q.1 || a q.1 + size ≤ at_ then true
      else match unitWriter size (at_ - a q.1) q.2 with
        | some k => k < l
        | none => true
  gs.map fun p =>
    let e := mkAcc c.y p.1 (s.spaceLoc c.x c.g o.sp.toNat (a p.1)) (uaOf o.sp.toNat (a p.1)) size false (data p.2) (natLe 4 p.2.toNat)
    if rd then { e with fwd := c.y.forwardUnit e.loc size }
    else { e with fwd := (List.range size).map fun i => if won p i then none else some 0 }

def execMxld (o : Mem) (s : State) : Host.Outcome State Fault Refusal :=
  let size := mxSize o.wf
  issueWord { cls := 2, stall := o.st, varLat := true, regsOk := fun _ => o.wf.toNat ≤ 6, reads := [.v o.va.toNat],
              writes := [.v o.vd.toNat] }
    (fun c s =>
      match s.memChecks c o size false with
      | .error t => .trap t
      | .ok _ =>
        let as := s.unitAccs c o size true fun _ => []
        if s.held c.y (accOf .load o.sp.toNat false as) then .hold
        else .done (s.addPend c { Pend.blank .mxload with
          code := o.wf.toNat, dst := [(o.vd.toNat, Vector.replicate 32 (mxTag o.wf))], mask := c.m, accs := as,
          space := o.sp.toNat }) true) s

/-- The checks of MXST, lane by lane (R124): the tag (R197), the rows of R187, and the equal scales of the lanes of its unit. TVAL of
that last check is the lower unit address (R133, R197): the lowest of all the units whose lanes differ
(DEDUCED, log 177). -/
def State.mxstCheck (s : State) (c : Ctx) (o : Mem) (size : Nat) : Except Trap Unit :=
  let a : Nat → Nat := fun l => laneAddr (c.v o.va l) o.off size
  let bad := (lanesOf c.m).filter fun l =>
    (lanesOf c.m).any fun k => a k = a l && (c.v o.vd k).extractLsb' 24 8 ≠ (c.v o.vd l).extractLsb' 24 8
  firstLane c.m fun l =>
    if c.t o.vd l ≠ mxTag o.wf then some (fmtTrap (c.t o.vd l).toNat 0 1)
    else match s.laneCheck c.x o.sp.toNat size false (a l) with
      | some t => some t
      | none => if bad.contains l then some { cause := Cause.fmt, tval := BitVec.ofNat 64 ((bad.map a).foldl min (a l)) } else none

/-- What MXST hands to a unit: the scale and 32 codes, those of its lanes meaningful. -/
def mxstData (c : Ctx) (o : Mem) (m : Word) : List Byte :=
  let l0 := (lowest m).getD 0
  (c.v o.vd l0).extractLsb' 24 8 :: (List.range 32).map fun l => (c.v o.vd l).extractLsb' 0 8

def execMxst (o : Mem) (s : State) : Host.Outcome State Fault Refusal :=
  let size := mxSize o.wf
  issueWord { cls := 2, stall := o.st, varLat := true, regsOk := fun _ => o.wf.toNat ≤ 6,
              reads := [.v o.va.toNat, .v o.vd.toNat] }
    (fun c s =>
      match s.mxstCheck c o size with
      | .error t => .trap t
      | .ok _ =>
        let as := s.unitAccs c o size false (mxstData c o)
        if s.held c.y (accOf .store o.sp.toNat true as) then .hold
        else .done (s.addPend c { Pend.blank .mxstore with
          code := o.wf.toNat, mask := c.m, accs := as, space := o.sp.toNat }) true) s

/-! ### Completion (R100, R101) -/

/-- The destinations written in the lanes of the pending word. In a lane of a register where another write to it was outstanding with the
word, the register holds the one or the other, by a free bit (R104). -/
def Gang.writeResult (y : Gang) (p : Pend) (fresh : Nat) : Gang :=
  let m : Nat × Nat × Tags → Word := fun d =>
    p.mask &&& (~~~p.contested d.2.1 ||| maskOf fun l => Config.freeBit (fresh + 32 * d.1 + l))
  let z := p.dests.foldl (fun z d => z.setResult p d (m d)) y
  { z with pends := z.pends.map fun q => if q.id = p.id then q else p.dst.foldl (fun r d => r.clobber d.1 p.mask) q }

/-- The completion event (R100): the destination, then the counter; waits on the counter are tested. In an evicted block it is parked
until the restore (R346). -/
def State.completePend (s : State) (b g id : Nat) : State :=
  match s.gang? b g with
  | none => s
  | some (x, y) =>
    match y.pend? id with
    | none => s
    | some p =>
      if x.residence = .evicted || !p.ready then s
      else ({ s.setGang b g ((y.writeResult p s.fresh).dropPend id) with fresh := s.fresh + 32 * p.dst.length }).settle

/-- VARIABLE_LATENCY_COMPLETE: block, gang and the pending word's number. -/
def execVariableLatencyComplete (s : State) : Host.Outcome State Fault Refusal :=
  match s.input with
  | .nat3 b g id => .next (s.completePend b g id)
  | _ => .next s

/-- FIXED_LATENCY_WRITE: the oldest fixed-latency result of a gang has been written; an early reader no longer sees the old value
(R103, R104). -/
def execFixedLatencyWrite (s : State) : Host.Outcome State Fault Refusal :=
  match s.input with
  | .nat2 b g =>
    let rec land : List Flight → List Flight
      | [] => []
      | f :: r => if f.landed then f :: land r else { f with landed := true } :: r
    .next (s.modGang b g fun y => { y with flights := land y.flights })
  | _ => .next s

/-! ### The ordering machine's actions on loads and stores (R234, R235) -/

/-- No access of a block is still to be performed: one that its site has refused is not, while its record stands (log 145). -/
def Block.performed (x : Block) : Bool := x.gangs.all fun y => y.pends.all fun p => p.accs.all fun a => a.performed || y.halted p a

/-- A block has an access that a fence at a scope covers (R240) and that is still to be performed. -/
def Block.unperformed (x : Block) (scope : Nat) : Bool :=
  x.gangs.any fun y => y.pends.any fun p => p.point ≤ scope && p.accs.any fun a => !a.performed && !y.halted p a

/-- An ended block of an entry has an access that a release at a scope waits for (R15, R360). -/
def State.writesLeft (s : State) (id scope : Nat) : Bool := s.ended.any fun x => x.owner = id && x.unperformed scope

/-- An action on an access of a block: of one that has ended too, whose local memory is gone, until all its accesses are performed. -/
def State.onBlock (s : State) (b : Nat) (f : State → State) : State :=
  if (s.block? b).isSome then f s
  else match s.ended.find? fun x => x.id = b with
  | none => f s
  | some x =>
    let s1 := f { s with blocks := s.blocks ++ [{ x with mem := [] }], ended := s.ended.filter fun y => y.id ≠ b }
    match s1.block? b with
    | none => s1
    | some y =>
      let s2 := { s1 with blocks := s1.blocks.filter fun z => z.id ≠ b }
      if y.performed then s2 else { s2 with ended := s2.ended ++ [y] }

/-- The bytes of a store as they go to memory; an MX store is merged with the unit as it stands (R197). -/
def LaneAcc.stored (k : PendKind) (a : LaneAcc) (old : List Byte) : List Byte :=
  match k with
  | .mxstore =>
    mxUnit a.size ((a.data.headD 0).toNat) fun l =>
      if nbits (leNat a.data2) l l = 1 then ((a.data[l + 1]?).map BitVec.toNat).getD 0 else mxElem old l
  | _ => a.data

/-- An access with one byte of it settled: read, or written. -/
def LaneAcc.settle (a : LaneAcc) (i : Nat) (v : Byte) : LaneAcc :=
  { a with fwd := (List.range a.size).map fun j => if j = i then some v else (a.fwd[j]?).getD none }

/-- A pending word with one byte of a lane's access settled. -/
def Pend.settleByte (p : Pend) (lane i : Nat) (v : Byte) : Pend :=
  { p with accs := p.accs.map fun a => if a.lane = lane then a.settle i v else a }

/-- Bytes of a gang's store are performed at its site; for T the issuing core's cached line is updated in the same step (R190, R234). -/
def State.storeBytes (s : State) (x : Block) (a : LaneAcc) (bs : List (Nat × Byte)) : State :=
  let s1 := s.performWrite 0 (bs.map fun q => a.loc.add q.1) (bs.map (·.2)) (some 0)
  match a.loc with
  | .tun _ o => bs.foldl (fun (z : State) (q : Nat × Byte) => z.updateLine x.devCore (o + q.1) q.2) s1
  | _ => s1

/-- What the merge of an MX store finds (R197, R345, R368): it reads the unit, unless every lane writes an element of it. -/
def State.mergeFails (s : State) (p : Pend) (a : LaneAcc) : Option Trap :=
  if p.kind = .mxstore && leNat a.data2 ≠ 2 ^ 32 - 1 then
    (List.range a.size).findSome? fun i => s.lineCheck 0 (a.loc.add i) (a.ua + BitVec.ofNat 64 i)
  else none

/-- STORE_PERFORM of a lane (R190, R197, R204, R234): the bytes of it that are still to be written, or, of a plain store, the one byte
`only` (R237). -/
def State.storePerform (s : State) (b g id lane : Nat) (only : Option Nat) : State :=
  match s.gang? b g with
  | none => s
  | some (x, y) =>
    match y.pend? id with
    | none => s
    | some p =>
      match p.accs.find? fun a => a.lane = lane && !a.performed with
      | none => s
      | some a =>
        if !(p.kind = .store || p.kind = .mxstore) || y.blocked p a then s
        else match s.mergeFails p a with
        | some t => s.strike x g t
        | none =>
          let bs := ((a.stored p.kind (s.readLoc a.loc a.size)).mapIdx fun i v => (i, v)).filter fun q => !a.settled q.1
          match only with
          | none =>
            let s1 := (s.setGang b g (y.setPend (p.perform lane []))).storeBytes x a bs
            ((s1.finishPend b g id).pruneFences b g).settle
          | some i =>
            match if p.kind = .store then bs.find? (fun q => q.1 = i) else none with
            | some q => ((s.setGang b g (y.setPend (p.settleByte lane i q.2))).storeBytes x a [q]).settle
            | none => s

/-- The bytes a read returns: those its own store buffer supplied, the core's cached line for a T load, else the site's. -/
def State.readBytes (s : State) (core : Nat) (cached : Bool) (a : LaneAcc) : List Byte × State :=
  (List.range a.size).foldl (fun q i =>
    match (a.fwd[i]?).getD none with
    | some v => (q.1 ++ [v], q.2)
    | none =>
      match a.loc.add i, cached with
      | .tun d o, true =>
        let z := q.2.fillLine core d o
        (q.1 ++ [((z.cachedLine core o).bind fun ln => ln[o % 128]?).getD 0], z)
      | l, _ => (q.1 ++ [q.2.readByte l], q.2)) ([], s)

/-- What a lane's read finds (R345, R368): its first byte that comes from a line of the tun that cannot be read, neither forwarded nor, for a
plain load, held by the core's cache. -/
def State.readFails (s : State) (core : Nat) (cached : Bool) (a : LaneAcc) : Option Trap :=
  (List.range a.size).findSome? fun i =>
    match (a.fwd[i]?).getD none, a.loc.add i with
    | none, .tun d o =>
      if cached && (s.cachedLine core o).isSome then none else s.lineCheck 0 (.tun d o) (a.ua + BitVec.ofNat 64 i)
    | _, _ => none

/-- READ_PERFORM of a lane (R196, R234, R235): the bytes of it that are still to be read, or, of a plain load, the one byte `only` (R237). -/
def State.readPerform (s : State) (b g id lane : Nat) (only : Option Nat) : State :=
  match s.gang? b g with
  | none => s
  | some (x, y) =>
    match y.pend? id with
    | none => s
    | some p =>
      match p.accs.find? fun a => a.lane = lane && !a.performed with
      | none => s
      | some a =>
        if !(p.kind = .load || p.kind = .mxload || p.kind = .tbrd) || y.blocked p a then s
        else
          match s.readFails x.devCore (p.kind = .load) a, only with
          | some t, _ => s.strike x g t
          | none, none =>
            let (bs, s1) := s.readBytes x.devCore (p.kind = .load) a
            let p' := p.perform lane bs
            (s1.setGang b g ((y.setPend p').noteRead p')).pruneFences b g
          | none, some i =>
            if p.kind = .load && i < a.size && !a.settled i then
              let (bs, s1) := s.readBytes x.devCore true { a with loc := a.loc.add i, size := 1, fwd := [] }
              s1.setGang b g (y.setPend (p.settleByte lane i (bs.headD 0)))
            else s

/-- LINE_DROP: a line of a core's tun read cache is removed (R234): core and line. -/
def execLineDrop (s : State) : Host.Outcome State Fault Refusal :=
  match s.input with
  | .nat2 core n => .next (s.dropLines core fun k => k = n)
  | _ => .next s

end Sys2Proof.Machine
end

