-- ==== Sys2Proof/Machine/Atomics.lean ====
section
/-! DEFINITION. ATOM and ATOM64 (R257 to R262), FENCE (R240, R263), BIND and UNBIND (R265 to R267). -/

namespace Sys2Proof.Machine

/-! ### Where an atomic acts (R257, R258) -/

/-- The members of R259 by op code. -/
def opALD : Nat := 14
def opAST : Nat := 15
def opCAS : Nat := 10

/-- The address of a lane: one register at block and cluster scope, a pair above (R257). -/
def Ctx.atomAddr (c : Ctx) (va : BitVec 6) (sc l : Nat) : DWord :=
  if sc ≤ 1 then uaOf sc (c.v va l).toNat else c.pair va l

/-- The form and bounds of R257, alignment, and translation, in the order of R258 (steps 3 to 5): the location. `n` bytes;
`rd` for a read; `pcie` for an op that a TIER 2 leaf supports. -/
def State.atomLoc (s : State) (x : Block) (sc n : Nat) (a : DWord) (rd pcie : Bool) : Except Trap Loc :=
  let tr : BitVec 8 → Except Trap Loc := fun k => .error { cause := k, tval := if sc ≤ 1 then BitVec.ofNat 64 (uoff a) else a }
  let o := uoff a
  match sc with
  | 0 =>
    if x.lrec.localB < o + n then tr Cause.localBounds
    else if o % n ≠ 0 then tr Cause.align
    else .ok (.loc x.id o)
  | 1 =>
    match s.winCheck x o n with
    | some k => tr k
    | none => if o % n ≠ 0 then tr Cause.align else .ok (s.spaceLoc x 0 1 o)
  | _ =>
    match uform a with
    | some .tun =>
      if sc = 3 then tr Cause.address
      else if s.tsize x.ctx < o + n then tr Cause.address
      else if o % n ≠ 0 then tr Cause.align
      else .ok (.tun x.die (s.tbase x.ctx x.die + o))
    | some .main =>
      if o % n ≠ 0 then tr Cause.align
      else match s.translateFor x o (if rd then .read else .write) with
        | .error t => .error t
        | .ok l =>
          match l with
          | .lender _ _ => if sc = 2 then tr Cause.address else .ok l
          | .host _ _ => if sc = 2 || !pcie then tr Cause.address else .ok l
          | _ => .ok l
    | _ => tr Cause.address

/-- The space of a pending atomic by its scope. Through a TIER 0 leaf a system-scope one has the device point by R232 and the system point by
R257: the model takes neither (free, log 149). -/
def atomSpace (sc : Nat) (l : Loc) : Nat := if sc ≤ 1 then sc else if sc = 3 then (if Config.sysAtomDevice then 4 else 5) else match l with | .tun _ _ => 2 | _ => 4

/-! ### What an atomic computes (R259) -/

/-- FADD of two FP32 values, round to nearest even, no flags. -/
def fadd32 (a b : Word) : Word :=
  BitVec.ofNat 32 ((Elem.float fmtF32).ofNum .rne 0 (sumNum [fmtF32.value a.toNat, fmtF32.value b.toNat] .rne).1).code

/-- The value an op writes, if it writes; `w` bits wide. -/
def atomNew (w op : Nat) (old b c : BitVec w) : Option (BitVec w) :=
  match op with
  | 0 => some (old + b)
  | 1 => some (old - b)
  | 2 => some (if old.slt b then old else b)
  | 3 => some (if b.slt old then old else b)
  | 4 => some (if old.ult b then old else b)
  | 5 => some (if b.ult old then old else b)
  | 6 => some (old &&& b)
  | 7 => some (old ||| b)
  | 8 => some (old ^^^ b)
  | 9 => some b
  | 10 => if old = c then some b else none
  | 11 => some (if b.ule old then 0 else old + 1)
  | 12 => some (if old = 0 || b.ult old then b else old - 1)
  | 15 => some b
  | _ => none

/-- The bytes an op writes over the old ones (R259); FADD adds each 32-bit half. -/
def atomBytes (wide : Bool) (op : Nat) (old b c : List Byte) : Option (List Byte) :=
  if op = 13 then
    let f : Nat → List Byte := fun i =>
      natLe 4 (fadd32 (BitVec.ofNat 32 (leNat (old.drop i))) (BitVec.ofNat 32 (leNat (b.drop i)))).toNat
    some (if wide then natLe 4 (leNat (f 0)) ++ f 4 else f 0)
  else
    let n := if wide then 8 else 4
    let w := 8 * n
    (atomNew w op (BitVec.ofNat w (leNat old)) (BitVec.ofNat w (leNat b)) (BitVec.ofNat w (leNat c))).map fun v => natLe n v.toNat

/-! ### Tags (R260) -/

/-- The pair rule for a pair of an atomic or lock word (R133): the report names the tags of va and of vb, where vb is read, for an
even register, and that register's tag for an odd one. -/
def atomPair (c : Ctx) (n va : BitVec 6) (vb : Option (BitVec 6)) (l : Nat) : Option Trap :=
  if !(c.t n l = tI64LO || c.t n l = tRAW) then some (fmtTrap (c.t va l).toNat ((vb.map fun r => (c.t r l).toNat).getD 0) 0)
  else if !(c.t (n + 1) l = tI64HI || c.t (n + 1) l = tRAW) then some (fmtTrap (c.t (n + 1) l).toNat 0 1)
  else none

/-- The tag check of one lane: the pair rule of va at sc 2 and 3, then vb by the op. -/
def atomTags (c : Ctx) (wide : Bool) (op sc : Nat) (va vb : BitVec 6) (l : Nat) : Option Trap :=
  let vaChk := if 2 ≤ sc then atomPair c va va (if op = opALD then none else some vb) l else none
  match vaChk with
  | some t => some t
  | none =>
    let arith := op ≤ 5 || op = 11 || op = 12
    if op = 13 then
      if c.t vb l ≠ tF32 then some (fmtTrap (c.t va l).toNat (c.t vb l).toNat 0)
      else if wide && c.t (vb + 1) l ≠ tF32 then some (fmtTrap (c.t (vb + 1) l).toNat 0 1)
      else none
    else if !arith then none
    else if wide then
      atomPair c vb va (some vb) l
    else if isWordTag (c.t vb l) then none
    else some (fmtTrap (c.t va l).toNat (c.t vb l).toNat 0)

/-- The result tags. -/
def atomDst (c : Ctx) (wide : Bool) (op : Nat) (vd vb : BitVec 6) : List (Nat × Tags) :=
  if op = opAST then []
  else if wide then
    if op = 13 then [(vd.toNat, Vector.replicate 32 tF32), (vd.toNat + 1, Vector.replicate 32 tF32)]
    else [(vd.toNat, Vector.replicate 32 tI64LO), (vd.toNat + 1, Vector.replicate 32 tI64HI)]
  else if op = opALD then [(vd.toNat, Vector.replicate 32 tRAW)]
  else if op = 13 then [(vd.toNat, Vector.replicate 32 tF32)]
  else
    let arith := op ≤ 5 || op = 11 || op = 12
    [(vd.toNat, tags fun l => if arith && c.t vb l = tRAW then tI32 else c.t vb l)]

/-! ### The words (R257 to R262) -/

/-- The ops that a TIER 2 leaf supports (R257). -/
def atomPcie (op : Nat) : Bool := op = 0 || op = 9 || op = 10 || op = 14 || op = 15

/-- The checks of R258, lane by lane, each lane through all its steps (R124). -/
def atomChecks (s : State) (c : Ctx) (wide : Bool) (op sc : Nat) (va vb : BitVec 6) : Except Trap Unit :=
  firstLane c.m fun l =>
    match atomTags c wide op sc va vb l with
    | some t => some t
    | none =>
      match s.atomLoc c.x sc (if wide then 8 else 4) (c.atomAddr va sc l) (op = opALD)
          (atomPcie op) with
      | .error t => some t
      | .ok _ => none

/-- The registers of an atomic: va is a pair at sc 2 and 3, and ATOM64's vd and vb are pairs (R258 step 1). -/
def atomRegs (wide : Bool) (op sc : Nat) (vd va vb : BitVec 6) : Bool :=
  (sc ≤ 1 || evenV va) && (!wide || ((op = opAST || evenV vd) && (op = opALD || evenV vb)))

/-- The registers a pair or a single names. -/
def vRefs (wide : Bool) (r : BitVec 6) : List RegRef := .v r.toNat :: if wide then [.v (r.toNat + 1)] else []

/-- ATOM and ATOM64: `op` by R259. -/
def atomic (wide : Bool) (op : Nat) (st : BitVec 2) (sc : BitVec 2) (vd va vb : BitVec 6) (s : State) :
    Host.Outcome State Fault Refusal :=
  let n := sc.toNat
  issueWord { cls := 2, stall := st, varLat := true, sideEff := true, regsOk := fun _ => atomRegs wide op n vd va vb,
              reads := vRefs (2 ≤ n) va ++ (if op = opALD then [] else vRefs wide vb) ++ (if op = opCAS then vRefs wide vd else []),
              writes := if op = opAST then [] else vRefs wide vd }
    (fun c s =>
      match atomChecks s c wide op n va vb with
      | .error t => .trap t
      | .ok _ =>
        let size := if wide then 8 else 4
        let word : BitVec 6 → Nat → List Byte := fun r l => natLe size (if wide then (c.pair r l).toNat else (c.v r l).toNat)
        let as := (lanesOf c.m).filterMap fun l =>
          match s.atomLoc c.x n size (c.atomAddr va n l) (op = opALD) true with
          | .ok loc => some (mkAcc c.y l loc (c.atomAddr va n l) size false (word vb l) (word vd l))
          | .error _ => none
        let space := (as.head?.map fun a => atomSpace n a.loc).getD n
        if s.held c.y (accOf .atom space (op ≠ opALD) as) then .hold
        else .done (s.addPend c { Pend.blank .atomic with
          code := op + (if wide then 16 else 0), dst := atomDst c wide op vd vb, mask := c.m, accs := as, scope := n,
          space := space }) true) s

def execAtomAdd (o : AtomF) (s : State) := atomic false 0 o.st o.sc o.vd o.va o.vb s
def execAtomSub (o : AtomF) (s : State) := atomic false 1 o.st o.sc o.vd o.va o.vb s
def execAtomMin (o : AtomF) (s : State) := atomic false 2 o.st o.sc o.vd o.va o.vb s
def execAtomMax (o : AtomF) (s : State) := atomic false 3 o.st o.sc o.vd o.va o.vb s
def execAtomUmin (o : AtomF) (s : State) := atomic false 4 o.st o.sc o.vd o.va o.vb s
def execAtomUmax (o : AtomF) (s : State) := atomic false 5 o.st o.sc o.vd o.va o.vb s
def execAtomAnd (o : AtomF) (s : State) := atomic false 6 o.st o.sc o.vd o.va o.vb s
def execAtomOr (o : AtomF) (s : State) := atomic false 7 o.st o.sc o.vd o.va o.vb s
def execAtomXor (o : AtomF) (s : State) := atomic false 8 o.st o.sc o.vd o.va o.vb s
def execAtomXchg (o : AtomF) (s : State) := atomic false 9 o.st o.sc o.vd o.va o.vb s
def execAtomCas (o : AtomF) (s : State) := atomic false 10 o.st o.sc o.vd o.va o.vb s
def execAtomIncw (o : AtomF) (s : State) := atomic false 11 o.st o.sc o.vd o.va o.vb s
def execAtomDecw (o : AtomF) (s : State) := atomic false 12 o.st o.sc o.vd o.va o.vb s
def execAtomFadd (o : AtomF) (s : State) := atomic false 13 o.st o.sc o.vd o.va o.vb s
def execAtomAld (o : AtomLd) (s : State) := atomic false 14 o.st o.sc o.vd o.va 0 s
def execAtomAst (o : AtomSt) (s : State) := atomic false 15 o.st o.sc 0 o.va o.vb s
def execAtom64Add (o : AtomF) (s : State) := atomic true 0 o.st o.sc o.vd o.va o.vb s
def execAtom64Sub (o : AtomF) (s : State) := atomic true 1 o.st o.sc o.vd o.va o.vb s
def execAtom64Min (o : AtomF) (s : State) := atomic true 2 o.st o.sc o.vd o.va o.vb s
def execAtom64Max (o : AtomF) (s : State) := atomic true 3 o.st o.sc o.vd o.va o.vb s
def execAtom64Umin (o : AtomF) (s : State) := atomic true 4 o.st o.sc o.vd o.va o.vb s
def execAtom64Umax (o : AtomF) (s : State) := atomic true 5 o.st o.sc o.vd o.va o.vb s
def execAtom64And (o : AtomF) (s : State) := atomic true 6 o.st o.sc o.vd o.va o.vb s
def execAtom64Or (o : AtomF) (s : State) := atomic true 7 o.st o.sc o.vd o.va o.vb s
def execAtom64Xor (o : AtomF) (s : State) := atomic true 8 o.st o.sc o.vd o.va o.vb s
def execAtom64Xchg (o : AtomF) (s : State) := atomic true 9 o.st o.sc o.vd o.va o.vb s
def execAtom64Cas (o : AtomF) (s : State) := atomic true 10 o.st o.sc o.vd o.va o.vb s
def execAtom64Incw (o : AtomF) (s : State) := atomic true 11 o.st o.sc o.vd o.va o.vb s
def execAtom64Decw (o : AtomF) (s : State) := atomic true 12 o.st o.sc o.vd o.va o.vb s
def execAtom64Fadd (o : AtomF) (s : State) := atomic true 13 o.st o.sc o.vd o.va o.vb s
def execAtom64Ald (o : AtomLd) (s : State) := atomic true 14 o.st o.sc o.vd o.va 0 s
def execAtom64Ast (o : AtomSt) (s : State) := atomic true 15 o.st o.sc 0 o.va o.vb s

/-! ### FENCE (R240, R263) -/

/-- A FENCE word: its class is sync; `dir` by R107, `obj` the object pair. -/
def fence (st : BitVec 2) (pre suc : BitVec 4) (sc : BitVec 2) (dir : Nat) (obj : Option (BitVec 5)) (s : State) :
    Host.Outcome State Fault Refusal :=
  let n := sc.toNat
  issueWord { cls := 5, stall := st, sideEff := dir = 1 || dir = 3,
              regsOk := fun _ => pre ≠ 0 && suc ≠ 0,
              reads := match obj with | some r => [.s r.toNat, .s (r.toNat + 1)] | none => [] }
    (fun c s =>
      let add : State → List Fence → State := fun z fs => z.modGang c.b c.g fun y => { y with fences := y.fences ++ fs }
      match obj with
      | none =>
        let s1 := add s [s.orderFence c.b c.g c.y pre suc n]
        .done ((if dir = 3 then s1.fullDrop c.x n else s1).pruneFences c.b c.g) true
      | some r =>
        let o := c.y.getS2 r.toNat
        match uform o with
        | none => .trap { cause := Cause.address, tval := o }
        | some _ =>
          if o.toNat % 8 ≠ 0 then .trap { cause := Cause.align, tval := o }
          else if n < s.objPoint c.x o then .done ((add s [s.orderFence c.b c.g c.y pre suc n]).pruneFences c.b c.g) true
          else
            let rel := if dir = 1 || dir = 3 then [s.releaseFence c.x.ctx c.b c.g c.y pre suc n o] else []
            let acq := if dir = 2 || dir = 3 then [s.acquireFence c.x c.y pre suc n o] else []
            let s1 := add s (rel ++ acq)
            .done ((if dir = 1 then s1 else s1.acquireDrop c.x n o).pruneFences c.b c.g) true) s

def execFenceOrd (o : FenceN) (s : State) := fence o.st o.pre o.suc o.sc 0 none s
def execFenceRel (o : FenceO) (s : State) := fence o.st o.pre o.suc o.sc 1 (some o.obj) s
def execFenceAcq (o : FenceO) (s : State) := fence o.st o.pre o.suc o.sc 2 (some o.obj) s
def execFenceBoth (o : FenceO) (s : State) := fence o.st o.pre o.suc o.sc 3 (some o.obj) s
def execFenceFull (o : FenceN) (s : State) := fence o.st o.pre o.suc o.sc 3 none s

/-! ### BIND and UNBIND (R265 to R267) -/

/-- The checks of BIND, in operand order (R265). A window range in a block without a window, or in a member that is gone, leaves its bound
too: the model raises ADDRESS (DESIGN CHOICE, log 148). -/
def bindCheck (s : State) (x : Block) (base : DWord) (b : Word) (obj : DWord) : Option Trap :=
  let len := nbits b.toNat 29 0
  match uform base with
  | none => some { cause := Cause.address, tval := base }
  | some f =>
    if len = 0 then some { cause := Cause.illegal, tval := 0 }
    else match s.boundsCheck x f base len with
      | some t => some (if t.cause = Cause.window || t.cause = Cause.windowPeer then { t with cause := Cause.address } else t)
      | none =>
        if f = .main && 2 ^ 48 < base.toNat + len then some { cause := Cause.address, tval := base }
        else match uform obj with
          | none => some { cause := Cause.address, tval := obj }
          | some _ => if obj.toNat % 8 ≠ 0 then some { cause := Cause.align, tval := obj } else none

/-- The binding table's lowest free index of a context. -/
def State.freeBind (s : State) (ctx : Nat) : Option Nat :=
  (List.range 256).find? fun i => !(s.binds.any fun e => e.1 = ctx && e.2.1 = i)

/-- BIND's change of the table and its answer (R265). -/
def State.bind (s : State) (ctx : Nat) (e : Binding) : State × Word :=
  match s.binds.find? fun q => q.1 = ctx && q.2.2 = e with
  | some q => (s, BitVec.ofNat 32 q.2.1)
  | none => match s.freeBind ctx with
    | some i => ({ s with binds := s.binds ++ [(ctx, i, e)] }, BitVec.ofNat 32 i)
    | none => (s, 0xFFFFFFFF)

/-- An issue check's trap, an ILLEGAL completed with the word. -/
def State.fixTrap (s : State) (t : Trap) : Trap := if t.cause = Cause.illegal then s.illTrap else t

def execBind (o : X4) (s : State) : Host.Outcome State Fault Refusal :=
  issueWord { cls := 5, stall := o.st, regsOk := fun _ => sEven o.a && sEven o.c,
              reads := [.s o.a.toNat, .s (o.a.toNat + 1), .s o.b.toNat, .s o.c.toNat, .s (o.c.toNat + 1)],
              writes := [.s o.d.toNat] }
    (fun c s =>
      let base := c.y.getS2 o.a.toNat
      let b := c.y.getS o.b.toNat
      let obj := c.y.getS2 o.c.toNat
      match bindCheck s c.x base b obj with
      | some t => .trap (s.fixTrap t)
      | none =>
        let (s1, w) := s.bind c.x.ctx { base := base, len := nbits b.toNat 29 0, scope := nbits b.toNat 31 30, obj := obj,
                                        owner := s.owner c.x.entry }
        .done (s1.modGang c.b c.g fun y => y.setS o.d.toNat w) true) s

/-- UNBIND's change of the table and its answer (R266). -/
def State.unbind (s : State) (ctx owner : Nat) (a : Word) : State × Word :=
  match s.binds.find? fun q => q.1 = ctx && q.2.1 = a.toNat && q.2.2.owner = owner with
  | some q => ({ s with binds := s.binds.erase q }, 0)
  | none => (s, 0xFFFFFFFF)

def execUnbind (o : XABD) (s : State) : Host.Outcome State Fault Refusal :=
  issueWord { cls := 5, stall := o.st, regsOk := fun _ => o.b = 0, reads := [.s o.a.toNat], writes := [.s o.d.toNat] }
    (fun c s =>
      let (s1, w) := s.unbind c.x.ctx (s.owner c.x.entry) (c.y.getS o.a.toNat)
      .done (s1.modGang c.b c.g fun y => y.setS o.d.toNat w) true) s

end Sys2Proof.Machine
end

