-- ==== Sys2Proof/Machine/Sync.lean ====
section
/-! DEFINITION. Locks (R268 to R273), block and cluster barriers (R275, R276), TRYW (R277), the expiry of hints (R69, R70),
deadline inheritance (R41, R272), and atomics and lock operations performed at their sites (R234, R259 to R261). -/

namespace Sys2Proof.Machine

/-! ### LOCK (R269 to R271) -/

/-- The tag checks of a lane of a lock operation: va's pair at device scope (FMT), and the hint of LKR and LKW, which raises ILLEGAL with
any other tag (R269, R273). -/
def lockTags (s : State) (c : Ctx) (op sc : Nat) (va vb : BitVec 6) (l : Nat) : Option Trap :=
  match (if sc = 2 then atomPair c va va (if op < 2 || op = 4 then some vb else none) l else none) with
  | some t => some t
  | none => if op < 2 && !(c.t vb l = tU32 || c.t vb l = tRAW) then some s.illTrap else none

/-- A lock operation: LKR 0, LKW 1, ULR 2, ULW 3, LKINIT 4. The lanes of LKR and LKW are suspended until their answers. -/
def lockWord (op : Nat) (st sc : BitVec 2) (vd va vb : BitVec 6) (s : State) : Host.Outcome State Fault Refusal :=
  let n := sc.toNat
  issueWord { cls := 5, stall := st, sideEff := true,
              regsOk := fun _ => n ≤ 2 && (n ≤ 1 || evenV va) && vd.toNat ≤ 11 && (2 ≤ op || vd ≠ 0),
              reads := vRefs (n = 2) va ++ (if op < 2 || op = 4 then [.v vb.toNat] else []),
              writes := if vd = 0 then [] else [.k vd.toNat] }
    (fun c s =>
      match firstLane c.m fun l => (match lockTags s c op n va vb l with
          | some t => some t
          | none => match s.atomLoc c.x n 8 (c.atomAddr va n l) false true with | .error t => some t | .ok _ => none) with
      | .error t => .trap t
      | .ok _ =>
        let as := (lanesOf c.m).filterMap fun l =>
          match s.atomLoc c.x n 8 (c.atomAddr va n l) false true with
          | .ok loc => some (mkAcc c.y l loc (c.atomAddr va n l) 8 false (natLe 4 (c.v vb l).toNat) [])
          | .error _ => none
        let space := (as.head?.map fun a => atomSpace n a.loc).getD n
        if s.held c.y (accOf .atom space (2 ≤ op) as) then .hold
        else
          let s1 := s.addPend { c with hdr := 0x7FFF, nvl := 0 } { Pend.blank .lockop with
            code := op, mask := c.m, accs := as, scope := n, space := space, kd := if vd = 0 then none else some vd.toNat
            clause := some (c.hdr, c.nvl) }
          if op < 2 then
            .done (s1.modGang c.b c.g fun y => y.mapLanes c.m fun l k =>
              { k with wait := .lock (((as.find? fun a => a.lane = l).map (·.loc)).getD (.loc c.b 0)) (op = 1) vd.toNat,
                       hint := some (c.v vb l).toNat }) false
          else .done s1 true) s

def execLkr (o : AtomF) (s : State) := lockWord 0 o.st o.sc o.vd o.va o.vb s
def execLkw (o : AtomF) (s : State) := lockWord 1 o.st o.sc o.vd o.va o.vb s
def execUlr (o : AtomLd) (s : State) := lockWord 2 o.st o.sc o.vd o.va 0 s
def execUlw (o : AtomLd) (s : State) := lockWord 3 o.st o.sc o.vd o.va 0 s
def execLkinit (o : AtomSt) (s : State) := lockWord 4 o.st o.sc 0 o.va o.vb s

/-! ### At the site (R259, R261, R270, R271) -/

/-- A gang that is away notes a release of a word that its lanes wait on (R70). -/
def Gang.sawRelease (a : Loc) (y : Gang) : Gang :=
  { y with released := y.released ||| maskOf fun l => match (y.lane l).wait with
      | .lock b _ _ => b = a
      | .tryw (.lock b _ _) _ => b = a
      | _ => false }

/-- The lock unit reports a release: it fires the waits of blocks that are away or leaving (R70). -/
def State.reportRelease (s : State) (a : Loc) : State :=
  { s with blocks := s.blocks.map fun x =>
      if x.residence = .evicted || x.residence = .draining then { x with gangs := x.gangs.map (Gang.sawRelease a) } else x }

/-- A lane of ULR, ULW or LKINIT is over: its Kd, in a lane still live (R177); parked, where the block is away. -/
def State.releaseAnswer (s : State) (b g : Nat) (p : Pend) (lane : Nat) (v : Bool) : State :=
  s.modGang b g fun y =>
    let y1 := y.setPend (p.perform lane [])
    match p.kd with
    | some k =>
      if !y.live.getLsbD lane then y1
      else if s.evicted b then { y1 with parked := y1.parked ++ [(lane, k, v, false)] }
      else y1.answer k (maskOf fun l => l = lane) v
    | none => y1

/-- A lane of a lock operation reaches its site (R270, R271). -/
def State.lockAt (s : State) (b g : Nat) (p : Pend) (a : LaneAcc) : State :=
  let w := s.dwordAt a.loc
  let key := s.keyOf b
  let put : DWord → State := fun v => s.putDword key a.loc v
  let waiter : LockWait := { loc := a.loc, b := b, g := g, lane := a.lane, kd := p.kd.getD 0, write := p.code = 1, counted := false }
  match p.code with
  | 0 | 1 =>
    match lkTry w (p.code = 1) b with
    | some w' => (put w').lockAnswer waiter true
    | none =>
      if leNat a.data = 0 then s.lockAnswer waiter false
      else
        let counted : Bool := p.code = 1 && lkWwait w < 16383
        let s1 := (if counted then put (lkSetWwait w (lkWwait w + 1)) else s).modGang b g fun y => y.setPend (p.queue a.lane)
        { s1 with lockWaits := s1.lockWaits ++ [{ waiter with counted := counted }] }
  | 2 =>
    if 0 < lkReaders w then
      ((put (w.extractLsb' 16 48 ++ BitVec.ofNat 16 (lkReaders w - 1))).releaseAnswer b g p a.lane true).reportRelease a.loc
    else s.releaseAnswer b g p a.lane false
  | 3 =>
    if lkHeld w && lkWriter w = b then
      ((put (w.extractLsb' 56 8 ++ 0#24 ++ BitVec.ofBool (lkPref w) ++ 0#1 ++ w.extractLsb' 0 30)).releaseAnswer b g p a.lane true).reportRelease a.loc
    else s.releaseAnswer b g p a.lane false
  | _ => (put (0#32 ++ BitVec.ofNat 1 (leNat a.data) ++ 0#31)).releaseAnswer b g p a.lane true

/-- A lane of an atomic takes effect at its site, its read and its write in one step (R234, R261). -/
def State.atomAt (s : State) (x : Block) (p : Pend) (a : LaneAcc) : State × List Byte :=
  let old := s.readLoc a.loc a.size
  match atomBytes (16 ≤ p.code) (p.code % 16) old a.data a.data2 with
  | some bs =>
    let ls := a.loc.run a.size
    ((s.performWrite (s.space x.space).key ls bs none).dropWritten x.devCore ls, old)
  | none => (s, old)

/-- A lane of a lock operation writes its word (R270): an acquisition or the count of a writer that waits, a release of a lock that is held so,
LKINIT. -/
def State.lockWrites (s : State) (b : Nat) (p : Pend) (a : LaneAcc) : Bool :=
  let w := s.dwordAt a.loc
  match p.code with
  | 0 | 1 => (lkTry w (p.code = 1) b).isSome || (leNat a.data ≠ 0 && p.code = 1 && lkWwait w < 16383)
  | 2 => 0 < lkReaders w
  | 3 => lkHeld w && lkWriter w = b
  | _ => true

/-- A lane of an atomic or a lock operation writes its word. -/
def State.siteWrites (s : State) (b : Nat) (p : Pend) (a : LaneAcc) : Bool :=
  if p.kind = .lockop then s.lockWrites b p a
  else (atomBytes (16 ≤ p.code) (p.code % 16) (s.readLoc a.loc a.size) a.data a.data2).isSome

/-- What the line of an atomic's or a lock's word fails with: it cannot be read (R368, R369), or its counter would wrap (R369). -/
def State.siteCheck (s : State) (key b : Nat) (p : Pend) (a : LaneAcc) : Option Trap :=
  match s.lineCheck key a.loc a.ua with
  | some t => some t
  | none => if s.wrapped a.loc && s.siteWrites b p a then some { cause := Cause.integrity, tval := a.ua, at_ := some a.loc } else none

/-- A lane that stands behind a side-effecting word, and may go back to it. -/
def Gang.stands (y : Gang) (l : Nat) : Bool :=
  y.live.getLsbD l && (y.lane l).complete && (match (y.lane l).wait with | .sysTrap _ => false | .userTrap _ => false | _ => true)

/-- The far side refuses an atomic or lock word at some places (R374, R376, R382): LEASE_REVOKED at the word. Where nothing of it has been
performed, its lanes go back to it, else those refused. A lane that has exited or entered a later region cannot: it goes on, its access
stays pending as refused, and the record tells of it; so do further ones refused before that record is resolved (DESIGN CHOICE, log 145). -/
def State.refuseAt (s : State) (at_ : Loc → Bool) (b g id : Nat) : State :=
  match s.gang? b g with
  | none => s
  | some (_, y) =>
    match y.pend? id with
    | none => s
    | some p =>
      let bad : LaneAcc → Bool := fun a => !a.performed && (a.refused || at_ a.loc)
      let m1 := maskOf fun l => (p.accs.any fun q => q.lane = l && bad q && !q.refused) && y.stands l
      let mark : LaneAcc → LaneAcc := fun a => { a with refused := a.refused || bad a }
      match (p.accs.find? fun q => bad q && !q.refused).or (p.accs.find? bad) with
      | none => s
      | some a =>
        if !(p.kind = .atomic || p.kind = .lockop) then s
        else if y.told p && m1 = 0 then s.setGang b g (y.setPend { p with accs := p.accs.map mark })
        else
          let whole := p.accs.all fun q => !q.performed && (bad q || !(p.kind = .lockop && q.queued))
          let m := maskOf fun l => (if whole then p.mask.getLsbD l else p.accs.any fun q => q.lane = l && bad q) && y.stands l
          let q := { p.without m with refused := some s.nextId, accs := (p.without m).accs.map mark }
          let y1 := if q.accs.isEmpty then y.dropPend id else y.setPend q
          let at_ := p.clause.getD (p.hdr, p.nvl)
          let y2 := y1.mapLanes m fun _ l =>
            { l with pc := p.pc, pos := .clause p.hpc at_.1 at_.2, wait := .none, hint := none, complete := false, vlHere := p.kind = .atomic }
          let s1 := { s.setGang b g y2 with lockWaits := s.lockWaits.filter fun w => !(w.b = b && w.g = g && m.getLsbD w.lane) }
          (s1.takeTrap b g m p.pc { cause := Cause.leaseRevoked, tval := a.ua } false).finishPend b g id

/-- A refusal of an atomic or lock word by its lender, or by any site that refuses it. -/
def State.atomicRefused (s : State) (b g id : Nat) : State :=
  s.refuseAt (fun l => match l with | .lender _ _ => true | l => s.siteRefuses l) b g id

/-- The words still on their way to the lender of a lease are refused there, those of ended blocks too (R376). -/
def State.refuseLease (s : State) (i : Nat) : State :=
  (s.blocks ++ s.ended).foldl (fun z x => (x.gangs.mapIdx fun g y => (g, y)).foldl (fun w q =>
    (q.2.pends.filter fun p => p.kind = .atomic || p.kind = .lockop).foldl (fun v p =>
      v.onBlock x.id fun u => u.refuseAt (fun l => match l with | .lender e _ => e = i | _ => false) x.id q.1 p.id) w) z) s

/-- Where an access goes that its site refuses, or has refused: by the block's mapping as it is now, if that names a place (R376). -/
def State.resend (s : State) (x : Block) (p : Pend) (a : LaneAcc) : Option LaneAcc :=
  let op := p.code % 16
  match s.atomLoc x p.scope a.size a.ua (p.kind = .atomic && op = opALD) (p.kind = .lockop || atomPcie op) with
  | .ok l => some { a with loc := l, refused := false }
  | .error _ => none

/-- ATOMIC_PERFORM of a lane, at its site. An atomic or lock word in main memory whose line cannot be read strikes the context (R345, R368). -/
def State.performAtom (s : State) (x : Block) (b g : Nat) (y : Gang) (p : Pend) (a : LaneAcc) : State :=
  match s.siteCheck (s.space x.space).key b p a with
  | some t => (s.setGang b g (y.setPend (p.perform a.lane []))).strike x g t
  | none =>
    let fin : State → State := fun z => ((z.finishPend b g p.id).pruneFences b g).settle
    if p.kind = .atomic then
      let (s1, old) := s.atomAt x p a
      let p' := p.perform a.lane old
      fin (s1.modGang b g fun z => (z.setPend p').noteRead p')
    else fin (s.lockAt b g p a)

/-- ATOMIC_PERFORM of a lane. An access that its site refuses is sent where the mapping now says, or raises LEASE_REVOKED (R376, R382); a lock
waiter goes back to its word. One whose refusal is told of and not resolved is performed nowhere. -/
def State.atomicPerform (s : State) (b g id lane : Nat) : State :=
  match s.gang? b g with
  | none => s
  | some (x, y) =>
    match y.pend? id with
    | none => s
    | some p =>
      match p.accs.find? fun a => a.lane = lane && !a.performed with
      | none => s
      | some a =>
        if !(p.kind = .atomic || p.kind = .lockop) || y.blocked p a || y.halted p a then s
        else if a.refused || s.siteRefuses a.loc then
          match s.resend x p a with
          | none => s.atomicRefused b g id
          | some a1 =>
            if (p.kind = .lockop && a.queued) || s.siteRefuses a1.loc then s.atomicRefused b g id
            else
              let p1 := { p with accs := p.accs.map fun q => if q.lane = lane then a1 else q }
              s.performAtom x b g (y.setPend p1) p1 a1
        else if p.kind = .lockop && a.queued then s
        else s.performAtom x b g y p a

/-- ATOMIC_PERFORM: block, gang, word, lane; with a fifth number, the lender's refusal of the word. -/
def execAtomicPerform (s : State) : Host.Outcome State Fault Refusal :=
  match s.input with
  | .nat4 b g id lane => .next (s.onBlock b fun z => z.atomicPerform b g id lane)
  | .nat5 b g id _ _ => .next (s.onBlock b fun z => z.atomicRefused b g id)
  | _ => .next s

/-! ### Block barriers (R275) -/

/-- A block barrier; unlisted ones stand at phase 0 with no arrivals. -/
def Block.bar (x : Block) (n : Nat) : Bar :=
  (x.bars[n]?).getD { phase := 0, arrived := x.gangs.map fun _ => 0, early := x.gangs.map fun _ => 0 }

/-- Lanes of a gang added to a list of arrivals. -/
def addLanes (l : List Word) (g : Nat) (m : Word) : List Word := l.modify g (· ||| m)

/-- The phase completes when every live lane of the block is in the set; early arrivals then enter the new set, which is tested
in its turn. -/
def Bar.test (b : Bar) (live : List Word) (fuel : Nat) : Bar :=
  match fuel with
  | 0 => b
  | n + 1 =>
    if live.any (· ≠ 0) && (live.zip b.arrived).all fun p => p.1 &&& ~~~p.2 = 0 then
      Bar.test { phase := b.phase + 1, arrived := b.early, early := b.early.map fun _ => 0 } live n
    else b

/-- The live lanes of each gang. -/
def Block.lives (x : Block) : List Word := x.gangs.map Gang.live

/-- Every block barrier tested. -/
def Block.testBars (x : Block) : Block := { x with bars := x.bars.map fun b => b.test x.lives 2 }

/-- An arrival at barrier `n`: lanes already in the set arrive early for the next phase. Answers those lanes. -/
def Block.arrive (x : Block) (n g : Nat) (m : Word) : Block × Word :=
  let b := x.bar n
  let cur := (b.arrived[g]?).getD 0
  ({ x with bars := x.bars.set n { b with arrived := addLanes b.arrived g (m &&& ~~~cur),
                                          early := addLanes b.early g (m &&& cur) } }, m &&& cur)

/-- An arrival, with its access as fences see it (R236). -/
def arrivalAcc (point : Nat) : Acc := { cls := .atom, point := point, writes := true }

/-- BAR and BARARV. -/
def barWord (o : XC) (wait : Bool) (s : State) : Host.Outcome State Fault Refusal :=
  issueWord { cls := 5, stall := o.st, sideEff := true, regsOk := fun _ => o.c.toNat < 8 }
    (fun c s =>
      if s.held c.y (arrivalAcc 0) then .hold
      else
        let ph := (c.x.bar o.c.toNat).phase
        let s1 := s.modBlock c.b fun x =>
          let (x1, again) := x.arrive o.c.toNat c.g c.m
          if wait then
            { x1 with gangs := x1.gangs.modify c.g fun y => y.mapLanes c.m fun l k =>
                { k with wait := .bar o.c.toNat (if again.getLsbD l then ph + 1 else ph) } }
          else x1
        .done (s1.modBlock c.b Block.testBars).settle (!wait)) s

/-! ### Cluster barriers (R276) -/

/-- The cluster barrier of a unit. -/
def State.cbar (s : State) (u : Nat) : CBar :=
  (s.cbars.find? fun c => c.unit = u).getD { unit := u, phase := 0, arrived := [], early := [] }

/-- The cluster barrier of a unit replaced. -/
def State.setCbar (s : State) (c : CBar) : State := { s with cbars := c :: s.cbars.filter fun d => d.unit ≠ c.unit }

/-- The lanes of a member's gang in a list of arrivals. -/
def arrivedOf (l : List ((Nat × Nat) × Word)) (k : Nat × Nat) : Word := (assocGet l k).getD 0

/-- The live lanes of the unit's blocks, by member and gang. -/
def State.unitLives (s : State) (u : Nat) : List ((Nat × Nat) × Word) :=
  (s.blocks.filter fun x => x.unit = some u).flatMap fun x => x.gangs.mapIdx fun i y => ((x.member, i), y.live)

/-- The cluster barrier of a unit tested. -/
def State.testCbar (s : State) (u fuel : Nat) : State :=
  match fuel with
  | 0 => s
  | n + 1 =>
    let c := s.cbar u
    let lives := s.unitLives u
    if lives.any (fun p => p.2 ≠ 0) && lives.all fun p => p.2 &&& ~~~arrivedOf c.arrived p.1 = 0 then
      (s.setCbar { c with phase := c.phase + 1, arrived := c.early, early := [] }).testCbar u n
    else s

/-- The count of a level of a launch record (R13). -/
def LaunchRec.count (r : LaunchRec) (n : Nat) : Nat := ((r.levels[n]?).map fun d => nbits d.toNat 31 0).getD 1

/-- A member of the block's unit has ended. -/
def State.peerEnded (s : State) (x : Block) : Bool := (List.range (x.lrec.count 2)).any fun m => (s.memberOf x m).isNone

/-- CBAR and BARARV.C (R276). -/
def cbarWord (st : BitVec 2) (wait : Bool) (s : State) : Host.Outcome State Fault Refusal :=
  issueWord { cls := 5, stall := st, sideEff := true }
    (fun c s =>
      match c.x.unit with
      | none => .trap { cause := Cause.window, tval := 0 }
      | some u =>
        if s.held c.y (arrivalAcc 1) then .hold
        else if s.peerEnded c.x then .trap { cause := Cause.windowPeer, tval := 0 }
        else
          let cb := s.cbar u
          let key := (c.x.member, c.g)
          let cur := arrivedOf cb.arrived key
          let again := c.m &&& cur
          let s1 := s.setCbar { cb with arrived := assocSet cb.arrived key (cur ||| c.m),
                                        early := assocSet cb.early key (arrivedOf cb.early key ||| again) }
          let s2 := if wait then s1.modGang c.b c.g fun y => y.mapLanes c.m fun l k =>
              { k with wait := .cbar (if again.getLsbD l then cb.phase + 1 else cb.phase) } else s1
          .done (s2.testCbar u 2).settle (!wait)) s

def execBar (o : XC) (s : State) := barWord o true s
def execBararv (o : XC) (s : State) := barWord o false s
def execCbar (o : X0) (s : State) := cbarWord o.st true s
def execBararvC (o : X0) (s : State) := cbarWord o.st false s

/-! ### TRYW (R277) -/

/-- The lock word of a TRYW: its form (local, window, tun or main), alignment and translation (R258, R269). -/
def State.tryLock (s : State) (x : Block) (a : DWord) : Except Trap Loc :=
  match uform a with
  | some .loc => s.atomLoc x 0 8 a true true
  | some .win => s.atomLoc x 1 8 a true true
  | _ => s.atomLoc x 2 8 a true true

/-- The object of a TRYW, its checks made, with the access as fences see it. -/
def tryObj (s : State) (c : Ctx) (kind : Nat) (a : DWord) : Except Trap (TryObj × Acc) :=
  match kind with
  | 0 => if a.toNat ≤ 5 then .ok (.dcount a.toNat, { cls := .atom, point := 0 }) else .error s.illTrap
  | 3 =>
    if nbits a.toNat 63 32 ≠ 0 then .error s.illTrap
    else if a.toNat % 16 ≠ 0 then .error { cause := Cause.align, tval := a }
    else if c.x.lrec.localB < a.toNat + 16 then .error { cause := Cause.localBounds, tval := a }
    else .ok (.gill a.toNat (c.x.gill a.toNat).1, { cls := .atom, point := 0, ranges := [(uaOf 0 a.toNat, 16)] })
  | _ =>
    match s.tryLock c.x a with
    | .error t => .error t
    | .ok l =>
      let sp := (match uform a with | some .loc => 0 | some .win => 1 | some .tun => 2 | _ => 4)
      .ok (.lock l (kind = 2) a, { cls := .atom, point := pendPoint sp l, ranges := [(a, 8)] })

def execTryw (o : X4) (s : State) : Host.Outcome State Fault Refusal :=
  issueWord { cls := 5, stall := o.st,
              regsOk := fun _ => !o.a.getLsbD 0 && 1 ≤ o.d.toNat && o.d.toNat ≤ 11 && o.c.toNat ≤ 3,
              reads := [.s o.a.toNat, .s (o.a.toNat + 1), .s o.b.toNat], writes := [.k o.d.toNat] }
    (fun c s =>
      match tryObj s c o.c.toNat (c.y.getS2 o.a.toNat) with
      | .error t => .trap t
      | .ok (ob, acc) =>
        if s.held c.y acc then .hold
        else match s.tryTrap c.x ob with
        | some t => .trap t
        | none =>
        if s.tryHolds c.x c.y ob then .done (s.modGang c.b c.g fun y => y.answer o.d.toNat c.m true) true
        else .done (s.modGang c.b c.g fun y => y.mapLanes c.m fun _ k =>
          { k with wait := .tryw ob o.d.toNat, hint := some (c.y.getS o.b.toNat).toNat }) false) s

/-! ### Hints (R69, R70, R224, R270, R277, R287) -/

/-- A wait whose hint has run out: the lanes that wait with it at one word answer 0 and wake. -/
def State.expire (s : State) (b g l : Nat) (isKind : Wait → Option Nat) : State :=
  match s.gang? b g with
  | none => s
  | some (x, y) =>
    let ln := y.lane l
    match isKind ln.wait with
    | none => s
    | some kd =>
      if ln.hint ≠ some 0 || !y.live.getLsbD l || x.residence ≠ .resident then s
      else
        let m : Word := maskOf fun k => y.live.getLsbD k && (y.lane k).pc = ln.pc && (y.lane k).wait = ln.wait && (y.lane k).hint = some 0
        (s.setGang b g (y.answerWake kd m false)).settle

/-- TRYW_HINT_EXPIRY: block, gang, a lane. -/
def execTrywHintExpiry (s : State) : Host.Outcome State Fault Refusal :=
  match s.input with
  | .nat3 b g l => .next (s.expire b g l fun w => match w with | .tryw _ kd => some kd | _ => none)
  | _ => .next s

/-- TBTRY_HINT_EXPIRY: block, gang, a lane. -/
def execTbtryHintExpiry (s : State) : Host.Outcome State Fault Refusal :=
  match s.input with
  | .nat3 b g l => .next (s.expire b g l fun w => match w with | .tb _ _ kd => kd | _ => none)
  | _ => .next s

/-- SLWAIT_HINT_EXPIRY: block, gang, a lane. -/
def execSlwaitHintExpiry (s : State) : Host.Outcome State Fault Refusal :=
  match s.input with
  | .nat3 b g l => .next (s.expire b g l fun w => match w with | .slwait _ _ _ kd => some kd | _ => none)
  | _ => .next s

/-- LOCK_HINT_EXPIRY: block, gang, lane (R270). -/
def execLockHintExpiry (s : State) : Host.Outcome State Fault Refusal :=
  match s.input with
  | .nat3 b g l =>
    match s.gang? b g, s.lockWaits.find? fun w => w.b = b && w.g = g && w.lane = l with
    | some (_, y), some w =>
      if (y.lane l).hint = some 0 && !s.locAway w.loc then .next (s.dropWaiter w).settle else .next s
    | _, _ => .next s
  | _ => .next s

/-! ### Deadline inheritance (R41, R272) -/

/-- The lock words that a block waits on: at their sites, once refused there, or by TRYW (R272). -/
def State.lockWords (s : State) (x : Block) : List Loc :=
  (s.lockWaits.filter fun w => w.b = x.id).map (·.loc)
  ++ x.gangs.flatMap fun y => (lanesOf y.live).filterMap fun l => match (y.lane l).wait with
    | .tryw (.lock a _ _) _ => some a
    | _ => none

/-- A deadline as the holder's die counts it (R41): across dies, the remaining time less 256. -/
def State.crossDie (s : State) (src dst : Die) (dl : Int) : Int := if src = dst then dl else dl - s.fcyc[src] + s.fcyc[dst] - 256

/-- Whether a block waits on a word that another of its context holds for writing. -/
def State.waitsFor (s : State) (h w : Block) : Bool :=
  w.ctx = h.ctx && (s.lockWords w).any fun a => s.lockHolder (s.space w.space).key a = some h.id

/-- The report of a wait: as it was made, while the waiter's effective deadline stands (R41, R272). A background waiter passes nothing
on. -/
def State.report (s : State) (old : List (Nat × Nat × Int × Int)) (h w : Block) : Option (Nat × Nat × Int × Int) :=
  w.effDeadline.map fun d =>
    (old.find? fun r => r.1 = h.id && r.2.1 = w.id && r.2.2.1 = d).getD (h.id, w.id, d, s.crossDie w.die h.die d)

/-- The earliest of some deadlines. -/
def earliestDl (l : List Int) : Option Int := match l with | [] => none | a :: r => some (r.foldl min a)

/-- One link: the reports in force, given those made before, and what each block inherits by them. -/
def State.inheritLink (s : State) (old : List (Nat × Nat × Int × Int)) : State :=
  let rs := s.blocks.flatMap fun h => (s.blocks.filter (s.waitsFor h)).filterMap (s.report old h)
  { s with inherits := rs
           blocks := s.blocks.map fun x => { x with inherit := earliestDl ((rs.filter fun r => r.1 = x.id).map fun r => r.2.2.2) } }

/-- DEADLINE_INHERIT_UPDATE: the reports of all lock waits are applied, along chains of up to 8 links. -/
def execDeadlineInheritUpdate (s : State) : Host.Outcome State Fault Refusal :=
  let s0 := { s with blocks := s.blocks.map fun x => { x with inherit := none } }
  .next ((List.range 8).foldl (fun z _ => z.inheritLink s.inherits) s0)

end Sys2Proof.Machine
end

