-- ==== Sys2Proof/Machine/Tags.lean ====
section
/-! DEFINITION. Completion tags (R217 to R219) and transaction barriers (R220 to R225). -/

namespace Sys2Proof.Machine

/-- A block replaced, its gangs as they stand. -/
def State.putBlock (s : State) (x : Block) : State := s.modBlock x.id fun y => { x with gangs := y.gangs }

/-! ### TAG (R218) -/

/-- A tag mask with a bit at or beyond TAGS (R54). -/
def maskBad (x : Block) (m : DWord) : Bool := (maskTags m).any fun i => x.lrec.tags ≤ i

/-- A wait on an object as fences see it: an A-class read at the block point (R236). -/
def waitAcc : Acc := { cls := .atom, point := 0 }

/-- WTANY and WTALL: the condition, then deferred causes (R219); else the issue set waits. -/
def tagWaitWord (o : X4) (all : Bool) (s : State) : Host.Outcome State Fault Refusal :=
  issueWord { cls := 3, stall := o.st, regsOk := fun _ => sEven o.a && o.b = 0 && o.c = 0 && o.d = 0,
              reads := [.s o.a.toNat, .s (o.a.toNat + 1)] }
    (fun c s =>
      let m := c.y.getS2 o.a.toNat
      if maskBad c.x m || (!all && m = 0) then .trap s.illTrap
      else if s.held c.y waitAcc then .hold
      else match c.x.tagWait m all with
      | .trap t x' =>
        .done ((s.putBlock x').takeTrap c.b c.g c.m c.pc t false) false
      | .go _ => .done s true
      | _ => .done (s.modGang c.b c.g fun y => y.mapLanes c.m fun _ k => { k with wait := .tags m all }) false) s

def execWtany (o : X4) (s : State) := tagWaitWord o false s
def execWtall (o : X4) (s : State) := tagWaitWord o true s

/-- FFRDY: the lowest done tag of the mask, or 64. -/
def execFfrdy (o : X4) (s : State) : Host.Outcome State Fault Refusal :=
  issueWord { cls := 3, stall := o.st, regsOk := fun _ => sEven o.a && o.b = 0 && o.c = 0,
              reads := [.s o.a.toNat, .s (o.a.toNat + 1)], writes := [.s o.d.toNat] }
    (fun c s =>
      let m := c.y.getS2 o.a.toNat
      if maskBad c.x m then .trap s.illTrap
      else
        let n := ((maskTags m).find? fun i => (c.x.tag i).done).getD 64
        .done (s.modGang c.b c.g fun y => y.setS o.d.toNat (BitVec.ofNat 32 n)) true) s

/-- TAGCLR: DONE, STATUS and a deferred cause of every tag of the mask that is not busy; with no failure to tell of, DETAIL is 0 (R217). -/
def Block.clearTags (x : Block) (m : DWord) : Block :=
  { x with tags := x.tags.mapIdx fun i t =>
      if m.getLsbD i && !t.busy then { busy := false, done := false, status := 0, detail := 0, cause := none } else t }

def execTagclr (o : X4) (s : State) : Host.Outcome State Fault Refusal :=
  issueWord { cls := 3, stall := o.st, regsOk := fun _ => sEven o.a && o.b = 0 && o.c = 0 && o.d = 0,
              reads := [.s o.a.toNat, .s (o.a.toNat + 1)] }
    (fun c s =>
      if maskBad c.x (c.y.getS2 o.a.toNat) then .trap s.illTrap
      else .done (s.modBlock c.b fun x => x.clearTags (c.y.getS2 o.a.toNat)) true) s

/-- A tag's record (R217). -/
def Tag.record (t : Tag) : DWord :=
  t.detail.extractLsb' 0 48 ++ 0#6 ++ BitVec.ofBool t.done ++ BitVec.ofBool t.busy ++ BitVec.ofNat 8 t.status

def execTagrd (o : X4) (s : State) : Host.Outcome State Fault Refusal :=
  issueWord { cls := 3, stall := o.st, regsOk := fun _ => sEven o.a && o.c = 0 && o.d = 0, reads := [.s o.b.toNat],
              writes := [.s o.a.toNat, .s (o.a.toNat + 1)] }
    (fun c s =>
      let n := (c.y.getS o.b.toNat).toNat
      if 64 ≤ n || c.x.lrec.tags ≤ n then .trap s.illTrap
      else .done (s.modGang c.b c.g fun y => y.setS2 o.a.toNat (c.x.tag n).record) true) s

/-! ### TB (R221 to R224) -/

/-- The checks of a local barrier offset: alignment, then bounds. -/
def tbCheck (x : Block) (a : Word) : Option Trap :=
  if a.toNat % 16 ≠ 0 then some { cause := Cause.align, tval := a.setWidth 64 }
  else if x.lrec.localB < a.toNat + 16 then some { cause := Cause.localBounds, tval := a.setWidth 64 }
  else none

/-- The checks of a barrier's W address made at issue: alignment, then the bounds of its offset (R223). -/
def tbWinCheck (x : Block) (a : Word) : Option Trap :=
  if a.toNat % 16 ≠ 0 then some { cause := Cause.align, tval := a.setWidth 64 }
  else if x.lrec.localB < nbits a.toNat 18 0 + 16 then some { cause := Cause.localBounds, tval := a.setWidth 64 }
  else none

/-- TBINIT (R222). -/
def execTbinit (o : TbInit) (s : State) : Host.Outcome State Fault Refusal :=
  issueWord { cls := 5, stall := o.st, sideEff := true, reads := [.s o.a.toNat, .s o.b.toNat] }
    (fun c s =>
      let a := c.y.getS o.a.toNat
      let n := (c.y.getS o.b.toNat).toNat
      match tbCheck c.x a with
      | some t => .trap t
      | none =>
        if n = 0 || 1048575 < n then .trap s.illTrap
        else if s.held c.y { arrivalAcc 0 with ranges := [(uaOf 0 a.toNat, 16)] } then .hold
        else .done (s.modBlock c.b fun x => x.setTb a.toNat
          { owner := BitVec.ofNat 24 c.x.gix, parked := false, underflow := false, remote := o.r = 1#1, bytes := 0,
            expected := BitVec.ofNat 20 n, pending := BitVec.ofNat 20 n, phase := 0 }).settle true) s

/-- TBARV and TBEXP, on the block's own barrier or, with .W, a member's (R223). -/
def tbChange (o : TbArv) (f : Nat → Tb → Tb) (s : State) : Host.Outcome State Fault Refusal :=
  issueWord { cls := 5, stall := o.st, sideEff := true, reads := [.s o.a.toNat, .s o.b.toNat] }
    (fun c s =>
      let a := c.y.getS o.a.toNat
      let n := (c.y.getS o.b.toNat).toNat
      let remote := o.w = 1#1
      match (if remote then tbWinCheck c.x a else tbCheck c.x a) with
      | some t => .trap t
      | none =>
        if 2 ^ 31 ≤ n then .trap s.illTrap
        else
          let acc := { arrivalAcc (if remote then 1 else 0) with ranges := [(uaOf (if remote then 1 else 0) a.toNat, 16)] }
          if s.held c.y acc then .hold
          else if !remote then .done (s.modBlock c.b fun x => x.setTb a.toNat (f n (x.tb a.toNat))).settle true
          else
            let tr : BitVec 8 → Eff := fun k => .trap { cause := k, tval := a.setWidth 64 }
            if c.x.unit.isNone || a.toNat / 2 ^ 21 ≠ 0 then tr Cause.window
            else match s.memberOf c.x (nbits a.toNat 20 19) with
            | none => tr Cause.windowPeer
            | some y =>
              let off := nbits a.toNat 18 0
              if !(y.tb off).remote then tr Cause.window
              else .done (s.modBlock y.id fun x => x.setTb off (f n (x.tb off))).settle true) s

def execTbarv (o : TbArv) (s : State) := tbChange o (fun n t => t.arrive n) s
def execTbexp (o : TbArv) (s : State) := tbChange o (fun n t => t.add n) s

/-- TBWAIT and TBTRY (R219, R221, R224). -/
def tbWaitWord (st : BitVec 2) (ra rb : BitVec 5) (kd : Option (BitVec 5)) (rc : BitVec 5) (s : State) : Host.Outcome State Fault Refusal :=
  issueWord { cls := 5, stall := st, regsOk := fun _ => (match kd with | some k => 1 ≤ k.toNat && k.toNat ≤ 11 | none => true),
              reads := [.s ra.toNat, .s rb.toNat] ++ (match kd with | some _ => [.s rc.toNat] | none => []),
              writes := match kd with | some k => [.k k.toNat] | none => [] }
    (fun c s =>
      let a := c.y.getS ra.toNat
      match tbCheck c.x a with
      | some t => .trap t
      | none =>
        let ph : BitVec 4 := (c.y.getS rb.toNat).extractLsb' 0 4
        let k := kd.map (·.toNat)
        if s.held c.y { waitAcc with ranges := [(uaOf 0 a.toNat, 16)] } then .hold
        else match c.x.tbWait a.toNat ph k with
        | .trap t x' => .done ((s.putBlock x').takeTrap c.b c.g c.m c.pc t false) false
        | .go _ => .done (match k with | some n => s.modGang c.b c.g fun y => y.answer n c.m true | none => s) true
        | _ =>
          let h := (match kd with | some _ => some (c.y.getS rc.toNat).toNat | none => none)
          .done (s.modGang c.b c.g fun y => y.mapLanes c.m fun _ l => { l with wait := .tb a.toNat ph k, hint := h }) false) s

def execTbwait (o : XAB) (s : State) := tbWaitWord o.st o.a o.b none 0 s
def execTbtry (o : X4) (s : State) := tbWaitWord o.st o.a o.b (some o.d) o.c s

/-- TBRD (R224): the half h to V[2d]:V[2d+1] of every lane. -/
def execTbrd (o : TbRd) (s : State) : Host.Outcome State Fault Refusal :=
  let v := 2 * o.d.toNat
  issueWord { cls := 5, stall := o.st, varLat := true, reads := [.s o.a.toNat], writes := [.v v, .v (v + 1)] }
    (fun c s =>
      let a := c.y.getS o.a.toNat
      match tbCheck c.x a with
      | some t => .trap t
      | none =>
        let at_ := a.toNat + 8 * o.h.toNat
        let as := [mkAcc c.y ((lowest c.m).getD 0) (.loc c.b at_) (uaOf 0 at_) 8 false [] []]
        if s.held c.y (accOf .load 0 false as) then .hold
        else .done (s.addPend c { Pend.blank .tbrd with
          dst := [(v, Vector.replicate 32 tI64LO), (v + 1, Vector.replicate 32 tI64HI)], mask := c.m, accs := as, space := 0 }) true) s

end Sys2Proof.Machine
end

