-- ==== Sys2Proof/Machine/Copies.lean ====
section
/-! DEFINITION. The access processor's operations (R199 to R210, R327 to R329): their checks, their sectors, their faults and their
completion. -/

namespace Sys2Proof.Machine

/-! ### Completion operands (R200, R201) -/

/-- The checks of a completion operand: its form, then its tag. `tagOnly` where a barrier is not allowed. -/
def State.complCheck (s : State) (x : Block) (c : Word) (tagOnly : Bool) : Option Trap :=
  let v := c.setWidth 64
  let tr : BitVec 8 → Option Trap := fun k => some { cause := k, tval := v }
  let where_ := nbits c.toNat 18 0
  if nbits c.toNat 29 21 ≠ 0 then some s.illTrap
  else if !c.getLsbD 31 then
    if nbits c.toNat 30 19 ≠ 0 || nbits c.toNat 18 6 ≠ 0 || x.lrec.tags ≤ where_ then some s.illTrap
    else if (x.tag where_).busy then some { cause := Cause.tagbusy, tval := BitVec.ofNat 64 where_ }
    else none
  else if tagOnly || (!c.getLsbD 30 && nbits c.toNat 20 19 ≠ 0) then some s.illTrap
  else if where_ % 16 ≠ 0 then some { cause := Cause.align, tval := BitVec.ofNat 64 where_ }
  else if x.lrec.localB < where_ + 16 then some { cause := Cause.localBounds, tval := BitVec.ofNat 64 where_ }
  else if !c.getLsbD 30 then none
  else if x.unit.isNone then tr Cause.window
  else match s.memberOf x (nbits c.toNat 20 19) with
    | none => tr Cause.windowPeer
    | some y => if (y.tb where_).remote then none else tr Cause.window

/-- Issue clears the tag's bit, marks it busy and sets its status to OK; a barrier is left alone (R201). -/
def State.markTag (s : State) (x : Block) (c : Word) : State :=
  if c.getLsbD 31 then s
  else s.modBlock x.id fun y =>
    y.setTag (nbits c.toNat 5 0) { busy := true, done := false, status := 0, detail := 0, cause := none }

/-! ### Operations of a gang -/

/-- A new operation of a gang: its pin is taken, its tag marked, and it stands in the gang's issue order (R199, R201). -/
def State.openOp (s : State) (c : Ctx) (kind : OpKind) (compl : Word) (pin : Bool) (rd wr : List (DWord × Nat)) (point : Nat) :
    Option State :=
  match (if pin then s.pin c.x.rootSlot else some s) with
  | none => none
  | some s1 =>
    let o : Op := { id := s.nextId, kind := kind, b := c.b, g := c.g, seq := c.y.seq, compl := compl,
                    slot := if pin then some c.x.rootSlot else none, reads := [], landed := [], fault := none,
                    reads_ := rd, writes_ := wr, point := point, away := false, recN := c.y.recN }
    some { (s1.markTag c.x compl).modGang c.b c.g (fun y => { y with seq := y.seq + 1 }) with
      ops := s.ops ++ [o], nextId := s.nextId + 1 }

/-- An operation completes with a status (R207): its report, its pin, and the waits it ends. -/
def State.endOp (s : State) (o : Op) (status : Nat) (detail : DWord) (cause : Option (BitVec 8 × DWord)) : State :=
  match s.block? o.b with
  | none => s.dropOp o.id
  | some x =>
    let rem := o.kind.total - o.landedBytes x
    ((s.complete x o.compl (if status = 0 then 0 else rem) status detail cause).dropOp o.id).settle

/-! ### Fetches of address programs (R213, R214) -/

/-- Bytes of a fetch placed in its queue entry; `last` makes the entry visible. -/
def State.fillEntry (s : State) (x : Block) (q id off : Nat) (bs : List Byte) (last : Bool) : State :=
  match s.apq? x.die x.core q with
  | none => s
  | some a =>
    s.setApq x.die x.core q { a with entries := a.entries.map fun e =>
      if e.op = id then { e with data := e.data.take off ++ bs ++ e.data.drop (off + bs.length), landed := e.landed || last } else e }

/-- The program's pin passes from its APRUN to its queue, for the fetches that it leaves behind, until they have landed (R199, R214). -/
def State.passPin (s : State) (x : Block) (q : Nat) (a : ApQueue) (o : Op) : State :=
  if a.entries.any (fun e => !e.landed) then (s.setApq x.die x.core q { a with pin := o.slot }).setOp { o with slot := none } else s

/-- The queue's pin is released when its last fetch has landed. -/
def State.endPin (s : State) (x : Block) (q : Nat) (a : ApQueue) : State :=
  if a.entries.any (fun e => !e.landed) then s else (s.setApq x.die x.core q { a with pin := none }).unpinOpt a.pin

/-- A program that has ended with AQEND completes its APRUN with OK once every emitted entry has landed (R214); one that ended
otherwise completes at once with its status (R213, R217). -/
def State.endProgram (s : State) (x : Block) (q : Nat) : State :=
  match s.claimed? x q with
  | none => s
  | some a =>
    match a.ended with
    | none => s
    | some st =>
      if st = 0 && a.entries.any (fun e => !e.landed) then s
      else match s.op? a.op with
        | some o =>
          let s1 := s.passPin x q a o
          ((s1.endOp ((s1.op? o.id).getD o) st (if st = stMalformed then a.pc.setWidth 64 else 0) none).releaseApq x.die x.core q).settle
        | none => ((s.endPin x q a).releaseApq x.die x.core q).settle

/-! ### Performing sectors (R207, R234) -/

/-- The storage of a sector's bytes, or the trap its translation raises. -/
def State.locateAll (s : State) (x : Block) (slot : Nat) (as : List DWord) (acc : Access) : Except Trap (List Loc) :=
  as.mapM fun a => s.locate x slot a acc

/-- Causes that are copy faults: translation and lease causes of R78 (R209, R344). -/
def copyFaultCause (c : BitVec 8) : Bool :=
  c = Cause.xlateNp || c = Cause.xlatePerm || c = Cause.cow || c = Cause.leaseRevoked || c = Cause.xlateFormat

/-- The first line of a sector's bytes that cannot be read (R345, R368). -/
def State.readFault (s : State) (key : Nat) (as : List DWord) (ls : List Loc) : Option Trap :=
  (as.zip ls).findSome? fun p => s.lineCheck key p.2 p.1

/-- A failing list entry or probe ends its operation (R205, R328, R344). -/
def State.entryFault (s : State) (o : Op) (a : DWord) (c : BitVec 8) : State := s.endOp o stFault a (some (c, a))

/-- The read half of a sector: its checks, and what is read at the places that its bytes name. A fault that is no copy fault strikes the
context (log 164). -/
def State.sectorReadWith (s : State) (o : Op) (x : Block) (i : Nat) (f : List Loc → State) : State :=
  let key := (s.space x.space).key
  match (o.kind.listUse x i false).bind fun p => (s.entryCheck x p.1 p.2).map fun c => (p.1, c) with
  | some (a, c) => s.entryFault o a c
  | none =>
    let sec := o.kind.sector x i
    match s.locateAll x (s.opSlot o) sec.src .read with
    | .error t => if copyFaultCause t.cause then s else s.strike x o.g t
    | .ok ls =>
      match s.readFault key sec.src ls with
      | some t =>
        match o.kind with
        | .cpyt .. =>
          if t.cause = Cause.integrity then (match ls.find? fun l => (s.lineCheck key l t.tval).isSome with
            | some l => s.poisonFrame x.die x.ctx l
            | none => s).endOp o stIntegrity t.tval none |>.noteError x.die t
          else s.strike x o.g t
        | _ => s.strike x o.g t
      | none => f ls

/-- The read half of a sector. -/
def State.sectorRead (s : State) (o : Op) (x : Block) (i : Nat) : State :=
  s.sectorReadWith o x i fun ls => s.setOp (o.withRead i (ls.map s.readByte))

/-- One byte of the read half of a plain copy's sector (R237). -/
def State.byteRead (s : State) (o : Op) (x : Block) (i j : Nat) : State :=
  if !o.kind.plain || (o.part i false j).isSome then s
  else s.sectorReadWith o x i fun ls => match ls[j]? with
    | some l => s.setOp (o.addPart i false j (s.readByte l))
    | none => s

/-- At completion KVL has acted as an acquire at device scope on each matched entry's state dword (R328). -/
def State.kvlAcquire (s : State) (x : Block) (k : OpKind) : State :=
  match k with
  | .kvl table _ _ _ _ _ _ _ found _ => found.foldl (fun z p => z.acquireDrop x 2 (uadd table (16 * p))) s
  | _ => s

/-- A bad probe address ends the KVL, and with it its leases: results already written stay written, and the others read 0xFFFF_FFFF
(R328). Like every other landing, those wait while another operation holds a byte of them under a read lease (R211). -/
def State.probeFault (s : State) (leased : State → Option Nat → Loc → Bool) (o : Op) (x : Block) (a : DWord) (c : BitVec 8) : State :=
  let rest := (List.range o.kind.count).filter fun i => !o.landed.contains i
  let ls := (rest.flatMap fun i => (o.kind.sector x i).dst).filterMap fun u => (s.locate x (s.opSlot o) u .write).toOption
  if ls.any (leased s (some o.id)) then s
  else (((s.performWrite (s.space x.space).key ls (List.replicate ls.length 0xFF) (some o.kind.swz)).dropWritten x.devCore ls).kvlAcquire
    x o.kind).entryFault o a c

/-- One probe of a KVL lookup (R328). -/
def State.kvlRead (s : State) (leased : State → Option Nat → Loc → Bool) (o : Op) (x : Block) (i : Nat) : State :=
  match o.kind with
  | .kvl table buckets seq lp0 count k dest ovf found long =>
    let cur := ((o.reads.find? fun p => p.1 = i).map Prod.snd).getD []
    let lp := lp0 + BitVec.ofNat 32 i
    let put : List Byte → Op := fun bs => { o with reads := (i, bs) :: o.reads.filter fun p => p.1 ≠ i }
    match kvlStep table buckets seq lp k ovf cur with
    | .result .. => s
    | .probe a n =>
      match uform a with
      | none => s.probeFault leased o x a Cause.address
      | some f =>
        match s.boundsCheck x f a n with
        | some t => s.probeFault leased o x a t.cause
        | none =>
          match s.locateAll x (s.opSlot o) (urun a n) .read with
          | .error t => if copyFaultCause t.cause then s else s.strike x o.g t
          | .ok ls =>
            match s.readFault (s.space x.space).key (urun a n) ls with
            | some t => (s.endOp o stIntegrity t.tval none).strike x o.g t
            | none => s.setOp { put (cur ++ ls.map s.readByte) with kind := .kvl table buckets seq lp0 count k dest ovf found long }
  | _ => s

/-- A KVL notes the entry that a lookup matched, and an overflow list too long. -/
def OpKind.noteLookup (k : OpKind) (i : Nat) (bs : List Byte) : OpKind :=
  match k with
  | .kvl table buckets seq lp0 count kk dest ovf found long =>
    match kvlStep table buckets seq (lp0 + BitVec.ofNat 32 i) kk ovf bs with
    | .result w l =>
      .kvl table buckets seq lp0 count kk dest ovf (if w = 0xFFFFFFFF then found else found ++ [w.toNat]) (long || l)
    | .probe .. => k
  | _ => k

/-- The status of an operation whose last byte has landed. -/
def OpKind.finalStatus (k : OpKind) : Nat := match k with | .kvl _ _ _ _ _ _ _ _ _ true => stOverflowLong | _ => stOk

/-- A sector that has landed is counted; the last landing completes the operation (R207). -/
def State.sectorLanded (s : State) (o : Op) (x : Block) (i n : Nat) : State :=
  let raw := ((o.reads.find? fun p => p.1 = i).map Prod.snd).getD []
  let o1 := { o with
    reads := o.reads.filter (fun p => p.1 ≠ i), parts := o.parts.filter (fun p => p.1.1.1 ≠ i), landed := o.landed ++ [i]
    kind := o.kind.noteLookup i raw }
  let last := o1.landed.length = o1.kind.count
  match o.kind with
  | .apfetch q _ _ =>
    let s1 := (s.setOp o1).fillEntry x q o.id (32 * i) (raw.take n) last
    if last then ((s1.dropOp o.id).endProgram x q).settle else s1
  | _ =>
    let s1 := (s.setOp o1).land x o.compl n
    if last then (s1.kvlAcquire x o1.kind).endOp o1 o1.kind.finalStatus 0 none else s1.settle

/-- The write half of a sector: its checks, and what is written, given its bytes and their places. A fault that is no copy fault, as of a
window member that has ended, strikes the context (DESIGN CHOICE, log 164). A local byte under a read lease makes it
wait (R211). A line whose write counter would wrap fails the write as an integrity failure (R369). -/
def State.sectorWriteWith (s : State) (leased : State → Option Nat → Loc → Bool) (o : Op) (x : Block) (i : Nat)
    (f : List (Loc × Byte) → State) : State :=
  match o.sectorData i with
  | none => s
  | some bs =>
    match (o.kind.listUse x i true).bind fun p => (s.entryCheck x p.1 p.2).map fun c => (p.1, c) with
    | some (a, c) => s.entryFault o a c
    | none =>
      let sec := o.kind.sector x i
      match s.locateAll x (s.opSlot o) sec.dst .write with
      | .error t => if copyFaultCause t.cause then s else s.strike x o.g t
      | .ok ls =>
        if ls.any (leased s none) then s
        else match (sec.dst.zip ls).find? fun p => s.wrapped p.2 with
        | some p =>
          match o.kind with
          | .cpyt .. => (s.endOp o stIntegrity p.1 none).logFound x.die 3 (some p.2)
          | _ => s.strike x o.g { cause := Cause.integrity, tval := p.1, at_ := some p.2 }
        | none => f (ls.zip bs)

/-- Bytes of a copy written at their places, with the swizzle tags it sets (R204). -/
def State.copyBytes (s : State) (o : Op) (x : Block) (l : List (Loc × Byte)) : State :=
  (s.performWrite (s.space x.space).key (l.map Prod.fst) (l.map Prod.snd) (some o.kind.swz)).dropWritten x.devCore (l.map Prod.fst)

/-- The write half of a sector: the bytes that have not been written one by one; then it has landed. -/
def State.sectorWrite (s : State) (leased : State → Option Nat → Loc → Bool) (o : Op) (x : Block) (i : Nat) : State :=
  s.sectorWriteWith leased o x i fun l =>
    let left := ((l.mapIdx fun j p => (j, p)).filter fun p => (o.part i true p.1).isNone).map Prod.snd
    (s.copyBytes o x left).sectorLanded o x i (o.kind.sector x i).land

/-- One byte of the write half of a plain copy's sector (R237). -/
def State.byteWrite (s : State) (leased : State → Option Nat → Loc → Bool) (o : Op) (x : Block) (i j : Nat) : State :=
  if !o.kind.plain || (o.part i true j).isSome then s
  else s.sectorWriteWith leased o x i fun l => match l[j]? with
    | some p => ((s.copyBytes o x [p]).setOp (o.addPart i true j p.2)).settle
    | none => s

/-- The addresses of a half of a sector; for KVL's read half, those of its next probe. -/
def Op.halfAddrs (o : Op) (x : Block) (i : Nat) (writing : Bool) : List DWord :=
  match o.kind, writing with
  | .kvl table buckets seq lp0 _ k _ ovf _ _, false =>
    (match kvlStep table buckets seq (lp0 + BitVec.ofNat 32 i) k ovf (o.got i) with
      | .probe a n => urun a n
      | .result .. => [])
  | k, false => (k.sector x i).src
  | k, true => (k.sector x i).dst

/-- The trap that a half of a sector meets in its translation. -/
def State.sectorTrap (s : State) (o : Op) (x : Block) (i : Nat) (writing : Bool) : Option Trap :=
  match s.locateAll x (s.opSlot o) (o.halfAddrs x i writing) (if writing then .write else .read) with
  | .error t => some t
  | .ok _ => none

/-- A sector of an operation in flight, begun and not landed, whose remaining halves meet no fault: it still lands (R209). -/
def State.landable (s : State) (o : Op) (x : Block) (i : Nat) : Bool :=
  let begun : Bool := (o.reads.any fun p => p.1 = i) || o.parts.any fun p => p.1.1.1 = i
  begun && !o.landed.contains i && (s.sectorTrap o x i true).isNone && ((o.sectorData i).isSome || (s.sectorTrap o x i false).isNone)

/-- A sector in flight that is not among some has still to land. -/
def State.landing (s : State) (o : Op) (x : Block) (but : Nat → Bool) : Bool :=
  (List.range o.kind.count).any fun i => !but i && s.landable o x i

/-- COPY_FAULT (R209): no sector is started again, the landed bytes return to the barrier in the same step, the operation is
marked, and a KIND 2 record is on its way (R354). -/
def State.copyFault (s : State) (o : Op) (x : Block) (t : Trap) : State :=
  let back := o.landedBytes x
  let s1 := (match o.kind with
    | .apfetch .. => s
    | _ => if o.compl.getLsbD 31 && back ≠ 0 then s.land x o.compl (-(back : Int)) else s)
  let run : Op := (match o.kind with
    | .apfetch q .. => (s.ops.find? fun p => p.b = o.b && p.kind = .aprun q).getD o
    | _ => o)
  let tr : TrapRec := { tcause := tcauseOf false 1 false false t.cause, tpc := 0, treg := 0, trec := o.recN, tmask := 0, tsib := 0,
                        tpar := 0, tval := t.tval }
  { s1.setOp { o with reads := [], parts := [], landed := [], fault := some (t.cause, t.tval) } with
    trapQ := s1.trapQ ++ [{ die := x.die, ctx := x.ctx, kind := 2, block := x.id, gang := run.g, n := o.id, tr := tr, compl := run.compl }] }

/-! ### Checks of the members (R201 to R206) -/

/-- The first of a list of checks that fails. -/
def firstTrap (l : List (Option Trap)) : Option Trap := l.findSome? id

/-- A unified operand: its form, its alignment, then the bounds of `n` bytes. -/
def State.uCheck (s : State) (x : Block) (a : DWord) (al n : Nat) : Option Trap :=
  match uform a with
  | none => some { cause := Cause.address, tval := a }
  | some f => if a.toNat % al ≠ 0 then some { cause := Cause.align, tval := a } else s.boundsCheck x f a n

/-- A form alone. -/
def formCheck (a : DWord) : Option Trap := if (uform a).isNone then some { cause := Cause.address, tval := a } else none

/-- Alignment alone. -/
def alignCheck (a : DWord) (al : Nat) : Option Trap :=
  if al ≠ 0 && a.toNat % al ≠ 0 then some { cause := Cause.align, tval := a } else none

/-- The bounds of `n` bytes at an address whose form is good. -/
def State.rangeCheck (s : State) (x : Block) (a : DWord) (n : Nat) : Option Trap := (uform a).bind fun f => s.boundsCheck x f a n

/-- A test that raises ILLEGAL with the word. -/
def State.illIf (s : State) (b : Bool) : Option Trap := if b then some s.illTrap else none

/-- A test that raises ILLEGAL with a descriptor's offset. -/
def descIllIf (off : Nat) (b : Bool) : Option Trap := if b then some { cause := Cause.illegal, tval := BitVec.ofNat 64 off } else none

/-- A 64-byte descriptor's offset: alignment, then bounds. -/
def descCheck (x : Block) (a : Word) : Option Trap :=
  if a.toNat % 64 ≠ 0 then some { cause := Cause.align, tval := a.setWidth 64 }
  else if x.lrec.localB < a.toNat + 64 then some { cause := Cause.localBounds, tval := a.setWidth 64 }
  else none

/-- The issue of an operation of major 0x2A, its checks made: fences, the access charge (R43), the pin (R86), then the operation;
one of no bytes completes at issue. -/
def State.startCopy (s : State) (c : Ctx) (kind : OpKind) (compl : Word) (units : Nat) (rd wr : List (DWord × Nat)) (point : Nat) :
    Eff :=
  let acc : Acc := { cls := .copy, point := point, ranges := wr, writes := true }
  if s.held c.y acc then .hold
  else match s.shortfall c.x.entry 2 units with
  | some n => .exhausted 2 n
  | none =>
    match s.openOp c kind compl true rd wr point with
    | none => .hold
    | some s1 =>
      let s2 := s1.charge c.x.entry 2 units
      if kind.count = 0 then
        match s2.op? s.nextId with
        | some o => .done (s2.endOp o stOk 0 none) true
        | none => .done s2 true
      else .done s2 true

/-- Access units of a byte count (R43, R208). -/
def accessUnits (n : Nat) : Nat := (n + 255) / 256

/-- The attributes of a word of major 0x2A: pairs even, 2 to 30. -/
def copyInfo (st : BitVec 2) (pairs : List (BitVec 5)) (singles : List (BitVec 5)) (ok : Bool) : Info :=
  { cls := 3, stall := st, sideEff := true, regsOk := fun _ => ok && pairs.all sPair,
    reads := pairs.flatMap (fun r => [.s r.toNat, .s (r.toNat + 1)]) ++ singles.map fun r => .s r.toNat }

/-- CPY (R202). The alignment of its addresses, which MX in S[c] decides, is tested at each address's operand (DESIGN CHOICE, log 165). -/
def execCpy (o : X4) (s : State) : Host.Outcome State Fault Refusal :=
  issueWord (copyInfo o.st [o.a, o.b] [o.c, o.d] true)
    (fun c s =>
      let d := c.y.getS2 o.a.toNat
      let a := c.y.getS2 o.b.toNat
      let w := (c.y.getS o.c.toNat).toNat
      let compl := c.y.getS o.d.toNat
      let len := nbits w 24 0
      let mx := nbits w 25 25 = 1
      let unit := if mx then efmtBytes (nbits w 27 26) + 1 else 0
      let al := if mx then 1 else 16
      match firstTrap [formCheck d, alignCheck d al, formCheck a, alignCheck a al,
          s.illIf (nbits w 31 28 ≠ 0 || nbits w 27 26 = 3 || 16777216 < len),
          (if mx then s.illIf (len % unit ≠ 0) else alignCheck (BitVec.ofNat 64 len) 16),
          s.rangeCheck c.x d len, s.rangeCheck c.x a len, s.complCheck c.x compl false] with
      | some t => .trap t
      | none =>
        let point := max (s.pointOf c.x d len) (s.pointOf c.x a len)
        s.startCopy c (.cpy d a len unit) compl (accessUnits len) [(a, len)] [(d, len)] point) s

/-- The descriptor's fields of CPY2D, in its listed order (R203). -/
def c2Check (s : State) (x : Block) (off : Nat) (d : List Byte) : Option Trap :=
  let sa : DWord := BitVec.ofNat 64 (dfield d 0 8)
  let da : DWord := BitVec.ofNat 64 (dfield d 8 8)
  let rowb := dfield d 0x10 4
  let rows := dfield d 0x14 4
  let mode := dfield d 0x20 1
  let mxm := c2Mxm d
  let e := efmtBytes (c2Efmt d)
  let ss : DWord := BitVec.ofNat 64 (dfield d 0x28 8)
  let ds : DWord := BitVec.ofNat 64 (dfield d 0x30 8)
  let n := if mxm = 0 then 0 else rows * (rowb / e)
  let rowS := if mxm = 2 then rowb / e * (e + 1) else rowb
  let rowD := if mxm = 1 then rowb / e * (e + 1) else rowb
  let usesS := mxm = 1 || mxm = 3
  let usesD := mxm = 2 || mxm = 3
  firstTrap [formCheck sa, formCheck da,
    descIllIf off (rowb < 16 || 65536 < rowb || (if mxm = 0 then rowb % 16 ≠ 0 else rowb % e ≠ 0)),
    descIllIf off (rows < 1 || 65535 < rows),
    descIllIf off (mxm = 0 && dfield d 0x18 4 % 16 ≠ 0),
    s.rangeCheck x sa ((rows - 1) * dfield d 0x18 4 + rowS),
    descIllIf off (mxm = 0 && dfield d 0x1C 4 % 16 ≠ 0),
    s.rangeCheck x da ((rows - 1) * dfield d 0x1C 4 + rowD),
    descIllIf off (5 ≤ c2Swz d || c2Efmt d = 3 || nbits mode 7 7 = 1),
    descIllIf off (c2Swz d ≠ 0 && !(uform da = some .loc || uform da = some .win)),
    descIllIf off (dfield d 0x21 7 ≠ 0),
    (if usesS then firstTrap [formCheck ss, s.rangeCheck x ss n] else none),
    (if usesD then firstTrap [formCheck ds, s.rangeCheck x ds n] else none),
    descIllIf off (dfield d 0x38 8 ≠ 0)]

/-- The rows of a CPY2D as the runs of bytes that it reads or writes, those of a swizzle where it puts them (R204). -/
def c2Ranges (d : List Byte) (wr : Bool) : List (DWord × Nat) :=
  let rowb := dfield d 0x10 4
  let rows := dfield d 0x14 4
  let mxm := c2Mxm d
  let e := efmtBytes (c2Efmt d)
  let wide := rowb / e * (e + 1)
  let n := rows * (rowb / e)
  if wr then
    (List.range rows).flatMap (fun r => swzRuns (c2Swz d) (c2Dst d r) (if mxm = 1 then wide else rowb))
      ++ if mxm = 2 || mxm = 3 then swzRuns (c2Swz d) (BitVec.ofNat 64 (dfield d 0x30 8)) n else []
  else
    (List.range rows).map (fun r => (c2Src d r, if mxm = 2 then wide else rowb))
      ++ if mxm = 1 || mxm = 3 then [(BitVec.ofNat 64 (dfield d 0x28 8), n)] else []

def execCpy2d (o : XAD) (s : State) : Host.Outcome State Fault Refusal :=
  issueWord (copyInfo o.st [] [o.a, o.d] true)
    (fun c s =>
      let a := c.y.getS o.a.toNat
      let compl := c.y.getS o.d.toNat
      match descCheck c.x a with
      | some t => .trap t
      | none =>
        if c.y.localBusy c.b a.toNat 64 then .hold else
        let d := c.x.mem.read a.toNat 64
        match firstTrap [c2Check s c.x a.toNat d, s.complCheck c.x compl false] with
        | some t => .trap t
        | none =>
          let rd := c2Ranges d false
          let wr := c2Ranges d true
          let point := ((rd ++ wr).map fun r => s.pointOf c.x r.1 r.2).foldl max 0
          s.startCopy c (.cpy2d d) compl (accessUnits (OpKind.cpy2d d).total) rd wr point) s

/-- GTH and SCT (R205): `n` and `e` of S[c]. -/
def listCopy (isGth : Bool) (o : X4) (s : State) : Host.Outcome State Fault Refusal :=
  issueWord (copyInfo o.st [o.a] [o.b, o.c, o.d] true)
    (fun c s =>
      let a := c.y.getS2 o.a.toNat
      let list := c.y.getS o.b.toNat
      let w := (c.y.getS o.c.toNat).toNat
      let compl := c.y.getS o.d.toNat
      let n := nbits w 12 0
      let u := nbits w 27 16
      let e := 16 * u
      match firstTrap [formCheck a, alignCheck (list.setWidth 64) 8,
          s.illIf (n < 1 || 4096 < n || u < 1 || nbits w 15 13 ≠ 0 || nbits w 31 28 ≠ 0 || 16777216 < n * e),
          s.rangeCheck c.x a (n * e),
          (if c.x.lrec.localB < list.toNat + 8 * n then some { cause := Cause.localBounds, tval := list.setWidth 64 } else none),
          s.complCheck c.x compl false] with
      | some t => .trap t
      | none =>
        let k : OpKind := if isGth then .gth a list.toNat n e else .sct a list.toNat n e
        let r := [(a, n * e)]
        let l := [(uaOf 0 list.toNat, 8 * n)]
        let named := (List.range n).map fun i => (listEntry c.x list.toNat i, e)
        s.startCopy c k compl (accessUnits (n * e)) (if isGth then l else r ++ l) (if isGth then r else named)
          (s.pointOf c.x a (n * e))) s

def execGth (o : X4) (s : State) := listCopy true o s
def execSct (o : X4) (s : State) := listCopy false o s

/-- The main form alone (R206). -/
def mainCheck (a : DWord) : Option Trap := if uform a = some .main then none else some { cause := Cause.address, tval := a }

/-- CPYT (R206): with S0 as destination pair, a prefetch. -/
def execCpyt (o : X4) (s : State) : Host.Outcome State Fault Refusal :=
  issueWord (copyInfo o.st (if o.a = 0 then [o.b] else [o.a, o.b]) [o.c, o.d] true)
    (fun c s =>
      let pre := o.a = 0
      let d := c.y.getS2 o.a.toNat
      let a := c.y.getS2 o.b.toNat
      let w := (c.y.getS o.c.toNat).toNat
      let compl := c.y.getS o.d.toNat
      match firstTrap [if pre then none else mainCheck d, if pre then none else alignCheck d 16, mainCheck a, alignCheck a 16,
          s.illIf (nbits w 31 25 ≠ 0 || 16777216 < w), alignCheck (BitVec.ofNat 64 w) 16, s.complCheck c.x compl false] with
      | some t => .trap t
      | none =>
        let point := if pre then s.pointOf c.x a w else max (s.pointOf c.x d w) (s.pointOf c.x a w)
        s.startCopy c (.cpyt (if pre then none else some d) a w) compl (accessUnits w) [(a, w)] (if pre then [] else [(d, w)]) point) s

/-- The descriptor's fields of KVL in their listed order (R201, R327): an address of no form raises ADDRESS (R193), every other bad field
ILLEGAL. -/
def kvlCheck (x : Block) (off : Nat) (d : List Byte) : Option Trap :=
  let t : DWord := BitVec.ofNat 64 (dfield d 0 8)
  let b : DWord := BitVec.ofNat 64 (dfield d 8 8)
  let ck := dfield d 0x18 4
  let count := nbits ck 15 0
  let k := nbits ck 20 16
  let dest := dfield d 0x1C 4
  firstTrap [formCheck t, descIllIf off (t.toNat % 16 ≠ 0), formCheck b,
    descIllIf off (b.toNat % 16 ≠ 0 || count < 1 || 4096 < count || k < 1 || 16 < k || nbits ck 31 21 ≠ 0 ||
      dest % 4 ≠ 0 || x.lrec.localB < dest + 4 * count || dfield d 0x24 28 ≠ 0)]

def execKvl (o : XAD) (s : State) : Host.Outcome State Fault Refusal :=
  issueWord (copyInfo o.st [] [o.a, o.d] true)
    (fun c s =>
      let a := c.y.getS o.a.toNat
      let compl := c.y.getS o.d.toNat
      match descCheck c.x a with
      | some t => .trap t
      | none =>
        if c.y.localBusy c.b a.toNat 64 then .hold else
        let d := c.x.mem.read a.toNat 64
        match firstTrap [kvlCheck c.x a.toNat d, s.complCheck c.x compl false] with
        | some t => .trap t
        | none =>
          let tb : DWord := BitVec.ofNat 64 (dfield d 0 8)
          let bk : DWord := BitVec.ofNat 64 (dfield d 8 8)
          let count := nbits (dfield d 0x18 4) 15 0
          let k := nbits (dfield d 0x18 4) 20 16
          let dest := dfield d 0x1C 4
          let point := max (s.pointOf c.x tb 16) (s.pointOf c.x bk (16 * 2 ^ k))
          s.startCopy c (.kvl tb bk (BitVec.ofNat 32 (dfield d 0x10 4)) (BitVec.ofNat 32 (dfield d 0x14 4)) count k dest
              (BitVec.ofNat 32 (dfield d 0x20 4)) [] false) compl (accessUnits (64 * count))
            [(bk, 16 * 2 ^ k)] [(uaOf 0 dest, 4 * count)] point) s

end Sys2Proof.Machine
end

