-- ==== Sys2Proof/Machine/Matrix.lean ====
section
/-! DEFINITION. The matrix engine and attention (R141, R143, R305 to R326): convergence registers, signatures, tile and attention
operations, their acceptance, the reading of their operands and their completion. -/

namespace Sys2Proof.Machine

/-! ### Formats (R306) -/

/-- The elements of a format code. -/
def matElem (c : Nat) : Elem :=
  match c with
  | 0 => .float fmtBF16
  | 1 => .float fmtF16
  | 2 => .float fmtE4M3
  | 3 => .float fmtE5M2
  | 4 => .mk8
  | 5 => .int8
  | 6 => .float fmtE2M1
  | 7 => .float fmtE2M3
  | 8 => .float fmtE3M2
  | 9 => .int true 8
  | 10 => .float fmtF32
  | _ => .int true 32

/-- Bits of an element in memory (R126). -/
def matWidth (c : Nat) : Nat :=
  match c with
  | 0 | 1 => 16
  | 6 => 4
  | 7 | 8 => 6
  | 10 | 11 => 32
  | _ => 8

/-- Bytes, elements and scale blocks of a group. -/
def groupBytes (c : Nat) : Nat := if c = 7 || c = 8 then 24 else 32
def groupElems (c : Nat) : Nat := match c with | 0 | 1 => 16 | 6 => 64 | _ => 32
def groupScales (c : Nat) : Nat := match c with | 0 | 1 | 9 => 0 | 6 => 2 | _ => 1

/-- The code of a register tag as A of MMA. -/
def tagCode (t : BitVec 5) : Option Nat :=
  if t = tBF16X2 then some 0
  else if t = tF16X2 then some 1
  else if t = tE4M3X4 then some 2
  else if t = tE5M2X4 then some 3
  else if t = tMK8X4 then some 4
  else if t = tINT8X4 then some 5
  else if t = tE2M1X8 then some 6
  else if t = tI8X4 then some 9
  else none

/-- The code that bfmt gives B, A's code known. -/
def bfmtCode (bfmt a : Nat) : Nat := if bfmt = 5 && a = 9 then 9 else bfmt

/-- The allowed pairs (R307): whether the tile must hold I32. -/
def matPair (a b : Nat) : Option Bool :=
  let six : Nat → Bool := fun c => (2 ≤ c && c ≤ 5) || c = 7 || c = 8
  if a = 9 && b = 9 then some true
  else if (six a && six b) || (a = b && (a = 0 || a = 1 || a = 6)) then some false
  else none

/-! ### Sums (R141) -/

/-- The code of a value rounded to FP32 by RNE. -/
def toF32 (x : Num) : Word := BitVec.ofNat 32 ((Elem.float fmtF32).ofNum .rne 0 x).code

/-- The value of an FP32. -/
def ofF32 (w : Word) : Num := fmtF32.value w.toNat

/-- Element `i` of packed bytes (R126). -/
def elemOf (c : Nat) (bs : List Byte) (i : Nat) : Nat := leNat bs / 2 ^ (matWidth c * i) % 2 ^ matWidth c

/-- The values of a group: its bytes and its scales, 0x7F where it has none. -/
def groupValues (c : Nat) (bs sc : List Byte) : List Num :=
  (List.range (groupElems c)).map fun i =>
    scaledValue (matElem c) (elemOf c bs i) ((sc[i / 32]?).getD 0x7F#8).toNat

/-- A group accumulated in FP32: its products summed exactly, rounded once, then added with one rounding. -/
def groupAcc (acc : Word) (xs ys : List Num) : Word :=
  let p := (xs.zip ys).map fun q => (q.1.mul q.2).1
  toF32 (sumNum [ofF32 acc, ofF32 (toF32 (sumNum p .rne).1)] .rne).1

/-- The signed value of an I8 element. -/
def int8Of (n : Nat) : Int := if 128 ≤ n then (n : Int) - 256 else n

/-- A group of plain integers accumulated modulo 2^32. -/
def groupAccInt (acc : Word) (xs ys : List Byte) : Word :=
  acc + BitVec.ofInt 32 (((xs.zip ys).map fun q => int8Of q.1.toNat * int8Of q.2.toNat).foldl (· + ·) 0)

/-- A group of A and B accumulated. -/
def accumulate (a b : Nat) (acc : Word) (ab bb as bs : List Byte) : Word :=
  if a = 9 then groupAccInt acc ab bb else groupAcc acc (groupValues a ab as) (groupValues b bb bs)

/-! ### Descriptors -/

/-- Fields of a tile descriptor (R312). -/
def tZd (d : List Byte) : Nat := dfield d 0 1
def tAfmt (d : List Byte) : Nat := dfield d 1 1
def tBfmt (d : List Byte) : Nat := dfield d 2 1
def tSwz (d : List Byte) : Nat := dfield d 3 1
def tKg (d : List Byte) : Nat := dfield d 4 2
def tRows (d : List Byte) : Nat := dfield d 6 2
def tAoff (d : List Byte) : Nat := dfield d 8 4
def tApitch (d : List Byte) : Nat := dfield d 0xC 4
def tBoff (d : List Byte) : Nat := dfield d 0x10 4
def tBpitch (d : List Byte) : Nat := dfield d 0x14 4
def tAsoff (d : List Byte) : Nat := dfield d 0x18 4
def tBsoff (d : List Byte) : Nat := dfield d 0x1C 4

/-- Fields of an attention descriptor (R320). -/
def aZo (d : List Byte) : Nat := dfield d 0 1
def aZs (d : List Byte) : Nat := dfield d 1 1
def aKv (d : List Byte) : Nat := dfield d 2 1
def aFlags (d : List Byte) : Nat := dfield d 3 1
def aDim (d : List Byte) : Nat := if nbits (aFlags d) 0 0 = 1 then 128 else 64
def aSwz (d : List Byte) : Nat := dfield d 0x17 1
def aNtok (d : List Byte) : Nat := dfield d 0x16 1
def aTp (d : List Byte) : Nat := dfield d 0x14 2
def aRowv (d : List Byte) : Nat := dfield d 0x20 8
def aOoff (d : List Byte) : Nat := dfield d 0x2C 4

/-- Bytes of a token's key or value. -/
def aTokBytes (d : List Byte) : Nat := if aKv d = 0 then 2 * aDim d else aDim d / 32 * 33

/-- The output tiles. -/
def aOuts (d : List Byte) : List Nat := if aDim d = 128 then [aZo d, aZo d + 1] else [aZo d]

/-- A token of T (R321). -/
def aInT (d : List Byte) (t : Nat) : Bool :=
  t < aNtok d && (nbits (aFlags d) 1 1 = 0 || nbits (dfield d 0x18 8) t t = 1)
    && (nbits (aFlags d) 2 2 = 0 || dfield d 0x28 4 ≤ t)

/-! ### Operand ranges (R309, R312, R315, R320) -/

/-- A range an operation reads: its address, its bytes and the swizzle it is expected in. -/
structure MRange where
  a : DWord
  n : Nat
  swz : Nat

/-- The ranges an operation reads, in a fixed order: for a multiplication the rows of A, the columns of B, then the scales. -/
def MatKind.reads (k : MatKind) : List MRange :=
  match k with
  | .mma win _ _ b _ off _ bsc =>
    let sp := if win then 1 else 0
    [{ a := uaOf sp off, n := 2048, swz := 0 }] ++ if bsc then [{ a := uaOf sp (off + 2048), n := 64 * groupScales b, swz := 0 }] else []
  | .tile sub d =>
    let swa := nbits (tSwz d) 2 0
    let swb := nbits (tSwz d) 5 3
    match sub with
    | 0 | 1 =>
      let a := tAfmt d
      let b := tBfmt d
      let kg := tKg d
      (List.range (tRows d)).map (fun r => { a := uaOf 0 (tAoff d + r * tApitch d), n := groupBytes a * kg, swz := swa })
        ++ (List.range 64).map (fun n => { a := uaOf sub (tBoff d + n * tBpitch d), n := groupBytes b * kg, swz := swb })
        ++ [{ a := uaOf 0 (tAsoff d), n := tRows d * groupScales a * kg, swz := swa },
            { a := uaOf 0 (tBsoff d), n := 64 * groupScales b * kg, swz := swb }]
    | 3 => (List.range 64).map fun r => { a := uaOf 0 (tAoff d + r * tApitch d), n := 256, swz := swa }
    | 5 => [{ a := uaOf 0 (tAoff d), n := 4 * tRows d, swz := swa }]
    | _ => []
  | .att d =>
    let tok : Nat → Nat → MRange := fun off t => { a := uaOf 0 (dfield d off 4 + t * aTp d), n := aTokBytes d, swz := nbits (aSwz d) 5 3 }
    [{ a := uaOf 0 (dfield d 8 4), n := 128 * aDim d, swz := nbits (aSwz d) 2 0 }]
      ++ (List.range (aNtok d)).map (tok 0xC) ++ (List.range (aNtok d)).map (tok 0x10)
  | _ => []

/-- The tiles an operation names. -/
def MatKind.tiles (k : MatKind) : List Nat :=
  match k with
  | .mma _ z .. => [z]
  | .tile _ d => [tZd d]
  | .att d | .attfin d => aOuts d ++ [aZs d]
  | .sigmk z _ => [z]

/-- The ranges an operation writes. -/
def MatKind.writes (k : MatKind) : List (DWord × Nat) :=
  match k with
  | .tile 4 d =>
    (List.range (tRows d)).map (fun r => (uaOf 0 (tAoff d + r * tApitch d), 8 * matWidth (tBfmt d)))
      ++ if 2 ≤ tBfmt d && tBfmt d ≤ 8 then [(uaOf 0 (tAsoff d), 2 * tRows d)] else []
  | .attfin d => ((List.range 64).filter fun r => nbits (aRowv d) r r = 1).map fun r => (uaOf 0 (aOoff d + 2 * aDim d * r), 2 * aDim d)
  | .sigmk _ off => [(uaOf 0 off, 512)]
  | _ => []

/-- The bytes an operation lands (R313, R322, R324). -/
def MatKind.landed (k : MatKind) : Nat := (k.writes.map Prod.snd).foldl (· + ·) 0

/-- Where the bytes of a range are: an expected swizzle puts each byte where CPY2D put it (R204). -/
def MRange.bytes (r : MRange) : List DWord := (urun r.a r.n).map (swizzle r.swz)

/-- The storage of a local or window byte of a block. -/
def State.engineLoc (s : State) (x : Block) (a : DWord) : Option Loc :=
  match uform a with
  | some .loc => some (.loc x.id (uoff a))
  | some .win => (s.memberOf x (nbits (uoff a) 20 19)).map fun y => .loc y.id (nbits (uoff a) 18 0)
  | _ => none

/-- The bytes of a range as they stand. -/
def State.rangeBytes (s : State) (x : Block) (r : MRange) : List Byte :=
  r.bytes.map fun a => ((s.engineLoc x a).map s.readByte).getD 0

/-- A swizzle tag of a KiB of a read range differs from the expected code (R314). -/
def State.swzMiss (s : State) (x : Block) (r : MRange) : Bool :=
  r.bytes.any fun a => match s.engineLoc x a with
    | some (.loc b o) => (match s.block? b with | some y => s.swzAt (y.kib o) | none => 0) ≠ BitVec.ofNat 3 r.swz
    | _ => false

/-! ### Read leases (R211, R315) -/

/-- Whether an operation holds a read lease on a byte. -/
def State.holdsLease (s : State) (x : Block) (o : MatOp) (l : Loc) : Bool :=
  o.data.isNone && !o.away && o.kind.reads.any fun r => r.bytes.any fun a => s.engineLoc x a = some l

/-- The local bytes under the read leases of a KVL (R315): its buckets, and the entries that its probes name; it has read them once every
lookup has its result. -/
def State.kvlLease (s : State) (o : Op) (b off : Nat) : Bool :=
  match o.kind with
  | .kvl .. =>
    o.b = b && !o.away &&
    (List.range o.kind.count).any (fun i => !o.landed.contains i && (o.sectorData i).isNone) &&
    (o.reads_ ++ (match s.block? b with | some x => s.namedBytes o x | none => [])).any fun r =>
      uform r.1 = some .loc && uoff r.1 ≤ off && off < uoff r.1 + r.2
  | _ => false

/-- A byte of local memory under a read lease of any operation but `but`. -/
def State.leased (s : State) (but : Option Nat) (l : Loc) : Bool :=
  match l with
  | .loc b off => (s.blocks.any fun x => x.mops.any fun o => s.holdsLease x o l)
      || s.ops.any fun o => but ≠ some o.id && s.kvlLease o b off
  | _ => false

/-! ### Reading operands -/

/-- The number of a byte's unit in its operation (R129): bytes of one MX unit, its scale included, share one. -/
def MatKind.unitOf (k : MatKind) (i j : Nat) : Nat :=
  let plain := 2 ^ 40 + i * 2 ^ 20 + j
  let blocks : Nat → Nat → Nat → Nat := fun c kg row => row * groupScales c * kg
  let per : Nat → Nat := fun c => groupBytes c / groupScales c
  match k with
  | .mma _ _ _ b _ _ _ bsc => if bsc then (if i = 0 then j / per b else j) else plain
  | .tile 0 d | .tile 1 d =>
    let a := tAfmt d
    let b := tBfmt d
    let rows := tRows d
    let kg := tKg d
    if i < rows then (if groupScales a = 0 then plain else blocks a kg i + j / per a)
    else if i < rows + 64 then (if groupScales b = 0 then plain else 2 ^ 30 + blocks b kg (i - rows) + j / per b)
    else if i = rows + 64 then j
    else 2 ^ 30 + j
  | .att d => if i = 0 || aKv d = 0 then plain else i * 2 ^ 10 + j / 33
  | _ => plain

/-- The engine's reading of its operands (R211, R315): a byte that has changed since the operation was accepted reads old or new,
by a free bit for each unit. -/
def MatOp.readAt (o : MatOp) (now : List (List Byte)) (fresh : Nat) : List (List Byte) :=
  (o.before.zip now).mapIdx fun i p => (p.1.zip p.2).mapIdx fun j q =>
    if q.1 = q.2 then q.1 else if Config.freeBit (fresh + o.kind.unitOf i j) then q.2 else q.1

/-! ### Acceptance -/

/-- A tile of a block. -/
def Block.tile (x : Block) (z : Nat) : Tile := (x.tiles[z]?).getD { elems := List.replicate 4096 0, isInt := false }

/-- A tile replaced. -/
def Block.setTile (x : Block) (z : Nat) (t : Tile) : Block := { x with tiles := x.tiles.set z t }

/-- The tile tag an operation sets when it is accepted (R305, R313). -/
def MatKind.setsTag (k : MatKind) : Option (Nat × Bool) :=
  match k with
  | .tile 2 d | .tile 3 d => some (tZd d, tAfmt d = 11)
  | _ => none

/-- An operation is accepted (R305, R315): it stands behind those accepted before it, takes its read leases and sets its tile's
tag. -/
def State.accept (s : State) (b : Nat) (o : MatOp) : State :=
  s.modBlock b fun x =>
    let x1 := { x with mops := x.mops ++ [{ o with before := o.kind.reads.map (s.rangeBytes x), data := none, away := false }] }
    match o.kind.setsTag with
    | some (z, i) => x1.setTile z { x1.tile z with isInt := i }
    | none => x1

/-- A new operation of the matrix engine enters the operations and is accepted, holding the pin it has taken (R84), if it has one. -/
def State.openMat (s : State) (b g seq : Nat) (k : MatKind) (compl : Word) (slot cons : Option Nat) (charge point : Nat) : State :=
  let op : Op := { id := s.nextId, kind := .mat, b := b, g := g, seq := seq, compl := compl, slot := slot, reads := [], landed := [],
                   fault := none, reads_ := k.reads.flatMap (fun r => swzRuns r.swz r.a r.n), writes_ := k.writes, point := point, away := false,
                   recN := s.recOf b g }
  { (s.modGang b g fun y => { y with seq := y.seq + 1 }) with ops := s.ops ++ [op], nextId := s.nextId + 1 }.accept b
    { id := s.nextId, kind := k, before := [], data := none, cons := cons, charge := charge, away := false,
      isInt := (match s.block? b, k.tiles with | some x, z :: _ => (x.tile z).isInt | _, _ => false) }

/-! ### CVSET and CVCLR (R308) -/

/-- An empty convergence register. -/
def CvReg.empty : CvReg := { set := [], signed := [], rows := [], fixed := none, latch := none }

/-- A convergence register of a block. -/
def Block.cvReg (x : Block) (n : Nat) : CvReg := (x.cv[n]?).getD CvReg.empty

def execCvset (o : XAB) (s : State) : Host.Outcome State Fault Refusal :=
  issueWord { cls := 1, stall := o.st, sideEff := true, regsOk := fun x => o.a.toNat < x.lrec.gregs, reads := [.s o.b.toNat] }
    (fun c s =>
      let w := (c.y.getS o.b.toNat).toNat
      let g0 := nbits w 4 0
      let g1 := nbits w 12 8
      let two : Bool := nbits w 15 15 = 1
      let n := o.a.toNat
      if nbits w 7 5 ≠ 0 || nbits w 14 13 ≠ 0 || nbits w 31 16 ≠ 0 || c.x.lrec.gangs ≤ g0 || (two && (c.x.lrec.gangs ≤ g1 || g0 = g1)) then
        .trap s.illTrap
      else if (c.x.cvReg n).fixed.isSome then .trap { cause := Cause.illegal, tval := BitVec.ofNat 64 n }
      else .done (s.modBlock c.b fun x => { x with cv := x.cv.set n { CvReg.empty with set := if two then [g0, g1] else [g0] } }) true) s

def execCvclr (o : XA) (s : State) : Host.Outcome State Fault Refusal :=
  issueWord { cls := 1, stall := o.st, sideEff := true, regsOk := fun x => o.a.toNat < x.lrec.gregs }
    (fun c s =>
      let n := o.a.toNat
      let free : Gang → Gang := fun y => y.mapLanes y.live fun _ l => if l.wait = .signed n then { l with wait := .none } else l
      .done (s.modBlock c.b fun x => { x with cv := x.cv.set n CvReg.empty, gangs := x.gangs.map free }) true) s

/-! ### MMA and MMAC (R309 to R311) -/

/-- The lanes of a gang that have signed. -/
def CvReg.signedOf (v : CvReg) (g : Nat) : Word := ((v.signed.find? fun p => p.1 = g).map Prod.snd).getD 0

/-- Every row of the set is signed, or its lane is not live. -/
def CvReg.full (v : CvReg) (x : Block) : Bool :=
  v.fixed.isSome && v.set.all fun g => match x.gangs[g]? with
    | some y => y.live &&& ~~~(v.signedOf g) = 0
    | none => true

/-- The row of a lane of a gang of the set. -/
def CvReg.rowOf (v : CvReg) (g l : Nat) : Nat := if v.set.head? = some g then l else 32 + l

/-- The bytes of a lane's row as its registers hold them: 32 bytes of the group, then the two scale bytes. -/
def Gang.rowBytes (y : Gang) (va l : Nat) (asc : Bool) : List Byte :=
  let word : Nat → Word := fun n => (y.getV n).toArray.getD l 0
  let sc := (word (va + 8)).toNat
  (List.range 8).flatMap (fun i => natLe 4 (word (va + i)).toNat)
    ++ if asc then [BitVec.ofNat 8 (nbits sc 7 0), BitVec.ofNat 8 (nbits sc 15 8)] else [0x7F#8, 0x7F#8]

/-- Whether the lane of a row is live. -/
def CvReg.rowLive (v : CvReg) (x : Block) (r : Nat) : Bool :=
  match (v.set[r / 32]?).bind fun g => x.gangs[g]? with
  | some y => y.live.getLsbD (r % 32)
  | none => false

/-- The operation that a full register stands for: the fields its first signature fixed, and the rows of its set; a row whose lane
is not live, though it may have signed, has no bytes. -/
def CvReg.kind (v : CvReg) (x : Block) (w sb : Word) (tag : Nat) : MatKind :=
  let a := (tagCode (BitVec.ofNat 5 tag)).getD 0
  let rows := (List.range (32 * v.set.length)).map fun r =>
    (r, if v.rowLive x r then ((v.rows.find? fun p => p.1 = r).map Prod.snd).getD [] else [])
  .mma (nbits w.toNat 29 24 = 0x31) (nbits w.toNat 23 19) a (bfmtCode (nbits w.toNat 2 0) a) rows (nbits sb.toNat 20 0)
    (nbits sb.toNat 22 22 = 1) (nbits sb.toNat 21 21 = 1)

/-- The register issues its operation, if it is full (R310): the charge, for which the policy of an overrun may make room (R45), the
acceptance, the latch, and the held lanes, which issue the word again as signatures of the next operation. -/
def State.testCv (s : State) (b g n : Nat) : State :=
  match s.block? b with
  | none => s
  | some x =>
    let v := x.cvReg n
    match v.fixed, v.full x with
    | some (w, sb, tag), true =>
      let s0 := (match s.shortfall x.entry 1 2 with | some k => s.overrun x.entry 1 k | none => s)
      if (s0.shortfall x.entry 1 2).isSome then s0
      else
        let k := v.kind x w sb tag
        let sq := ((x.gangs[g]?).map (·.seq)).getD 0
        let latch : Option Latch := if nbits w.toNat 8 8 = 1 then
          some { va := nbits w.toNat 14 9, asc := nbits sb.toNat 22 22 = 1, rows := v.rows } else none
        let free : Gang → Gang := fun y => y.mapLanes y.live fun _ l => if l.wait = .signed n then { l with wait := .none } else l
        let s1 := (s0.charge x.entry 1 2).modBlock b fun z =>
          { z with cv := z.cv.set n { CvReg.empty with set := v.set, latch := latch }, gangs := z.gangs.map free }
        s1.openMat b g sq k 0xFFFFFFFF none none 2 (if nbits w.toNat 29 24 = 0x31 then 1 else 0)
    | _, _ => s

/-- Every register of a block is tried, after lanes of a gang have exited (R310). -/
def State.testCvs (s : State) (b g : Nat) : State :=
  (List.range (((s.block? b).map fun x => x.cv.length).getD 0)).foldl (fun z n => z.testCv b g n) s

/-- The registers of an entry's resident blocks are tried again, when its budget has changed: an operation whose last signature was that
of a lane's exit is accepted once its charge can be made (R44, R310). -/
def State.retestCvs (s : State) (ent : Nat) : State :=
  (s.blocks.filter fun x => x.entry = ent && x.residence = .resident).foldl (fun z x =>
    (List.range x.cv.length).foldl (fun w n => w.testCv x.id ((x.cvReg n).set.headD 0) n) z) s

/-- FMT of a tile (R133). -/
def tileTrap (have_ need : Nat) : Trap := fmtTrap have_ need 2

/-- The tag of a tile's contents. -/
def Tile.tag (t : Tile) : Nat := if t.isInt then 1 else 5

/-- The checks of R307 and R309 of one lane's signature, after that of the tile's and the register's number: the one tag of the registers
(R309) before the pair of formats and the tile's tag (R307), an order that R310 leaves open (DESIGN CHOICE, log 172). -/
def mmaLane (c : Ctx) (va bfmt zd l : Nat) : Option Trap :=
  let t : Nat → BitVec 5 := fun n => (c.y.getT n).toArray.getD l 0
  match tagCode (t va) with
  | none => some (fmtTrap (t va).toNat 0 0)
  | some a =>
    match (List.range 7).find? fun i => t (va + i + 1) ≠ t va with
    | some i => some (fmtTrap (t (va + i + 1)).toNat 0 1)
    | none =>
      let b := bfmtCode bfmt a
      match matPair a b with
      | none => some (fmtTrap a b 3)
      | some i =>
        let z := c.x.tile zd
        if z.isInt = i then none else some (tileTrap z.tag (if i then 1 else 5))

/-- The checks of S[b] (R309), given A's format code if its tag has one: ASC by A's format, BSC and B's range by B's (R306). Of MMAC's window
address, row 1 of R187 is tested before its alignment, rows 3 and 4 with the whole range at the end (DESIGN CHOICE, log 173). -/
def mmaOperand (s : State) (c : Ctx) (win : Bool) (w : Word) (va bfmt : Nat) (code : Option Nat) : Option Trap :=
  let off := nbits w.toNat 20 0
  let bsc : Bool := nbits w.toNat 21 21 = 1
  let asc : Bool := nbits w.toNat 22 22 = 1
  let b := bfmtCode bfmt (code.getD 15)
  let n := 2048 + if bsc then 64 * groupScales b else 0
  let plain : Nat → Bool := fun k => k = 0 || k = 1 || k = 9
  firstTrap [s.illIf (nbits w.toNat 31 23 ≠ 0 || (!win && nbits w.toNat 20 19 ≠ 0)),
    (if win && c.x.unit.isNone then some { cause := Cause.window, tval := BitVec.ofNat 64 off } else none),
    alignCheck (BitVec.ofNat 64 off) 16,
    s.illIf (asc && 55 < va), s.illIf ((asc && code.any plain) || (bsc && plain b)),
    (if win then (s.winCheck c.x off n).map fun k => { cause := k, tval := BitVec.ofNat 64 off }
     else if c.x.lrec.localB < off + n then some { cause := Cause.localBounds, tval := BitVec.ofNat 64 off } else none)]

/-- A signature of the lanes of an issue set (R310, R311): first what is not per lane, S[b] and the fields that the first signature has
fixed, then each lane through R309 and the tag of Va that is fixed (R124). -/
def sign (win : Bool) (o : MmaF) (c : Ctx) (s : State) : Eff :=
  let n := o.gn.toNat
  let v := c.x.cvReg n
  let va := o.va.toNat
  let sb := c.y.getS o.sb.toNat
  if !v.set.contains c.g then .trap s.illTrap
  else
    let l0 := (lowest c.m).getD 0
    let tag := ((c.y.getT va).toArray.getD l0 0)
    let asc : Bool := nbits sb.toNat 22 22 = 1
    match mmaOperand s c win sb va o.bfmt.toNat (tagCode tag) with
    | some t => .trap t
    | none =>
    let w : Word := s.focusWord.setWidth 32 &&& 0x3FF87F07
    if (match v.fixed with | some f => f.1 ≠ w || f.2.1 ≠ sb | none => false) then .trap s.illTrap
    else
      let want := (match v.fixed with | some f => f.2.2 | none => tag.toNat)
      let lane : Nat → Option Trap := fun l => match mmaLane c va o.bfmt.toNat o.zd.toNat l with
        | some t => some t
        | none => s.illIf (((c.y.getT va).toArray.getD l 0).toNat ≠ want)
      match firstLane c.m lane with
      | .error t => .trap t
      | .ok _ =>
        let heldL := c.m &&& v.signedOf c.g
        let m := c.m &&& ~~~heldL
        let latch := (match v.latch with | some q => if q.va = va && q.asc = asc then some q else none | none => none)
        let row : Nat → Nat × List Byte := fun l =>
          let r := v.rowOf c.g l
          (r, match latch with
            | some q => ((q.rows.find? fun p => p.1 = r).map Prod.snd).getD (List.replicate 34 0)
            | none => c.y.rowBytes va l asc)
        let v1 : CvReg := { v with
          fixed := some (w, sb, tag.toNat), latch := latch, rows := v.rows ++ (lanesOf m).map row,
          signed := (c.g, v.signedOf c.g ||| m) :: v.signed.filter fun p => p.1 ≠ c.g }
        let full := v1.full c.x
        match (if full then s.shortfall c.x.entry 1 2 else none) with
        | some k => .exhausted 1 k
        | none =>
          let acc : Acc := { cls := .copy, point := if win then 1 else 0 }
          if full && s.held c.y acc then .hold
          else
            let s1 := s.modBlock c.b fun x => { x with cv := x.cv.set n v1 }
            let s2 := s1.modGang c.b c.g fun y =>
              (y.mapLanes heldL fun _ l => { l with wait := .signed n }).mapLanes m fun _ l => l.advance false
            .done (s2.testCv c.b c.g n) false

/-- The attributes of MMA and MMAC. -/
def mmaInfo (o : MmaF) (s : State) : Info :=
  let asc : Bool := (match s.focus with
    | .gang b g _ _ _ _ _ _ => ((s.gang? b g).map fun p => decide (nbits (p.2.getS o.sb.toNat).toNat 22 22 = 1)).getD false
    | _ => false)
  { cls := 1, stall := o.st, sideEff := true,
    regsOk := fun x => o.va.toNat ≤ 56 && o.zd.toNat < x.lrec.ztiles && o.gn.toNat < x.lrec.gregs && o.bfmt.toNat ≠ 7
    reads := ((List.range (if asc then 9 else 8)).map fun i => .v (o.va.toNat + i)) ++ [.s o.sb.toNat] }

def execMma (o : MmaF) (s : State) : Host.Outcome State Fault Refusal := issueWord (mmaInfo o s) (sign false o) s
def execMmac (o : MmaF) (s : State) : Host.Outcome State Fault Refusal := issueWord (mmaInfo o s) (sign true o) s

/-! ### The asynchronous members: checks and issue (R312 to R318, R320 to R324) -/

/-- Descriptors and words of the engine name local offsets and W addresses of 32 bits, which TVAL gives as they are (R337). -/
def offsetTrap (t : Trap) : Trap := { t with tval := (t.tval.setWidth 32).setWidth 64 }

/-- A range within its bounds: LOCAL, or for the window rows 1, 3 and 4 of R187. An address that a pitch has carried to 2^32 or beyond is
outside both. -/
def State.mrangeCheck (s : State) (x : Block) (a : DWord) (n : Nat) : Option Trap :=
  if n = 0 then none
  else match uform a with
  | some f => (s.boundsCheck x f a n).map offsetTrap
  | none => some { cause := if nbits a.toNat 63 48 = 0x7F01 then Cause.window else Cause.localBounds,
                   tval := BitVec.ofNat 64 (nbits a.toNat 47 0) }

/-- CONS (R312). -/
def consOf (w : Nat) : Option Word := if w = 2 ^ 32 - 1 then none else some (BitVec.ofNat 32 w)

/-- The completion and CONS (R314): their forms, that they differ, then that neither tag is busy. -/
def State.matCompl (s : State) (x : Block) (compl : Word) (cons : Option Word) (tagOnly : Bool) : Option Trap :=
  let busyLast : Option Trap → Option Trap := fun t => match t with | some q => if q.cause = Cause.tagbusy then none else some q | none => none
  let c1 := s.complCheck x compl tagOnly
  match cons with
  | none => c1
  | some k =>
    let c2 := s.complCheck x k true
    firstTrap [busyLast c1, busyLast c2, s.illIf (!compl.getLsbD 31 && nbits compl.toNat 5 0 = nbits k.toNat 5 0), c1, c2]

/-- The end of the issue of an asynchronous member, its checks made: it pins its block's slot, or waits for the pin (R84, R86). -/
def State.issueMat (s : State) (c : Ctx) (k : MatKind) (compl : Word) (cons : Option Word) (units point : Nat) : Eff :=
  let acc : Acc := { cls := .copy, point := point, ranges := k.writes, writes := !k.writes.isEmpty }
  if s.held c.y acc then .hold
  else
    let s0 := (match cons with | some w => (s.markTag c.x compl).markTag c.x w | none => s.markTag c.x compl)
    if k.reads.any (s.swzMiss c.x) then
      let s1 := s0.complete c.x compl k.landed stSwz 0 (some (Cause.swz, 0))
      let s2 := (match cons with | some w => s1.complete c.x w 0 stSwz 0 (some (Cause.swz, 0)) | none => s1)
      .done s2.settle true
    else match s.shortfall c.x.entry 1 units with
    | some n => .exhausted 1 n
    | none => match s0.pin c.x.rootSlot with
      | none => .hold
      | some s1 => .done ((s1.charge c.x.entry 1 units).openMat c.b c.g c.y.seq k compl (some c.x.rootSlot)
          (cons.map fun w => nbits w.toNat 5 0) units point) true

/-- A tile index of a descriptor (R54). -/
def State.tileCheck (s : State) (x : Block) (zs : List Nat) : Option Trap := s.illIf (zs.any fun z => x.lrec.ztiles ≤ z)

/-- The reserved bytes and bits of a tile descriptor (R4, R312), and the out-of-range fields that a member uses (R313). -/
def tileBad (sub : Nat) (d : List Byte) : Bool :=
  let rowsBad := tRows d < 1 || 64 < tRows d
  let pitchBad := tApitch d % 16 ≠ 0
  let swa := 4 < nbits (tSwz d) 2 0
  dfield d 0x24 28 ≠ 0 || nbits (tSwz d) 7 6 ≠ 0 ||
  match sub with
  | 0 | 1 => 11 < tAfmt d || 11 < tBfmt d || tKg d < 1 || 256 < tKg d || rowsBad || pitchBad || tBpitch d % 16 ≠ 0 || swa
      || 4 < nbits (tSwz d) 5 3
  | 2 => tAfmt d ≠ 10 && tAfmt d ≠ 11
  | 3 => (tAfmt d ≠ 10 && tAfmt d ≠ 11) || pitchBad || swa
  | 4 => 11 < tBfmt d || rowsBad || pitchBad
  | _ => rowsBad || swa

/-- The tags of R307 and R313. Of MZSCL on an I32 tile the selector is 3, whose row of R133 names MZSCL (DEDUCED, log 80). -/
def tileTags (sub : Nat) (d : List Byte) (z : Tile) : Option Trap :=
  match sub with
  | 0 | 1 => match matPair (tAfmt d) (tBfmt d) with
    | none => some (fmtTrap (tAfmt d) (tBfmt d) 3)
    | some i => if z.isInt = i then none else some (tileTrap z.tag (if i then 1 else 5))
  | 4 =>
    let ok := if z.isInt then tBfmt d = 10 || tBfmt d = 11 else tBfmt d ≤ 8 || tBfmt d = 10
    if ok then none else some (fmtTrap (if z.isInt then 11 else 10) (tBfmt d) 3)
  | 5 => if z.isInt then some (fmtTrap 11 0 3) else none
  | _ => none

/-- The matrix charge of a tile member (R313). -/
def tileCharge (sub : Nat) (d : List Byte) : Nat :=
  match sub with
  | 0 | 1 => 2 * tKg d
  | 2 => 1
  | 5 => 4
  | _ => 16

/-- Attributes of MT and the asynchronous members of ATTN. -/
def matInfo (st : BitVec 2) (regs : List (BitVec 5)) : Info :=
  { cls := 1, stall := st, sideEff := true, reads := regs.map fun r => .s r.toNat }

/-- A member of MT (R314). -/
def tileWord (sub : Nat) (o : XAD) (s : State) : Host.Outcome State Fault Refusal :=
  issueWord (matInfo o.st [o.a, o.d])
    (fun c s =>
      let a := c.y.getS o.a.toNat
      let compl := c.y.getS o.d.toNat
      match descCheck c.x a with
      | some t => .trap t
      | none =>
        if c.y.localBusy c.b a.toNat 64 then .hold else
        let d := c.x.mem.read a.toNat 64
        let k : MatKind := .tile sub d
        let cons := consOf (dfield d 0x20 4)
        match firstTrap [descIllIf a.toNat (tileBad sub d), s.tileCheck c.x [tZd d],
            (k.reads.findSome? fun r => s.mrangeCheck c.x r.a r.n), (k.writes.findSome? fun r => s.mrangeCheck c.x r.1 r.2),
            tileTags sub d (c.x.tile (tZd d)), s.matCompl c.x compl cons (sub ≠ 4)] with
        | some t => .trap t
        | none => s.issueMat c k compl cons (tileCharge sub d) (if sub = 1 then 1 else 0)) s

def execMtile (o : XAD) (s : State) : Host.Outcome State Fault Refusal := tileWord 0 o s
def execMtilex (o : XAD) (s : State) : Host.Outcome State Fault Refusal := tileWord 1 o s
def execMzclr (o : XAD) (s : State) : Host.Outcome State Fault Refusal := tileWord 2 o s
def execMzld (o : XAD) (s : State) : Host.Outcome State Fault Refusal := tileWord 3 o s
def execMzst (o : XAD) (s : State) : Host.Outcome State Fault Refusal := tileWord 4 o s
def execMzscl (o : XAD) (s : State) : Host.Outcome State Fault Refusal := tileWord 5 o s

/-- The out-of-range fields of an attention descriptor (R320); `fin` for ATTFIN, which uses few of them (R322). -/
def attBad (fin : Bool) (d : List Byte) : Bool :=
  nbits (aFlags d) 7 4 ≠ 0 || nbits (aSwz d) 7 6 ≠ 0 || dfield d 0x34 12 ≠ 0 || (aOuts d).contains (aZs d) ||
  if fin then aOoff d % 16 ≠ 0
  else !([0, 2, 3, 4, 5].contains (aKv d)) || aNtok d < 1 || 64 < aNtok d || 64 < dfield d 0x28 4 || aTp d < aTokBytes d
    || dfield d 8 4 % 16 ≠ 0 || 4 < nbits (aSwz d) 2 0 || 4 < nbits (aSwz d) 5 3

/-- ATT and ATTFIN. -/
def attWord (fin : Bool) (o : XAD) (s : State) : Host.Outcome State Fault Refusal :=
  issueWord (matInfo o.st [o.a, o.d])
    (fun c s =>
      let a := c.y.getS o.a.toNat
      let compl := c.y.getS o.d.toNat
      match descCheck c.x a with
      | some t => .trap t
      | none =>
        if c.y.localBusy c.b a.toNat 64 then .hold else
        let d := c.x.mem.read a.toNat 64
        let k : MatKind := if fin then .attfin d else .att d
        let cons := consOf (dfield d 0x30 4)
        match firstTrap [descIllIf a.toNat (attBad fin d), s.tileCheck c.x k.tiles,
            (k.reads.findSome? fun r => s.mrangeCheck c.x r.a r.n), (k.writes.findSome? fun r => s.mrangeCheck c.x r.1 r.2),
            ((k.tiles.find? fun z => (c.x.tile z).isInt).map fun z => tileTrap (c.x.tile z).tag 5),
            s.matCompl c.x compl cons (!fin)] with
        | some t => .trap t
        | none => s.issueMat c k compl cons (if fin then aDim d / 8 else aDim d / 4 + 8) 0) s

def execAtt (o : XAD) (s : State) : Host.Outcome State Fault Refusal := attWord false o s
def execAttfin (o : XAD) (s : State) : Host.Outcome State Fault Refusal := attWord true o s

def execSigmk (o : XABD) (s : State) : Host.Outcome State Fault Refusal :=
  issueWord (matInfo o.st [o.a, o.b, o.d])
    (fun c s =>
      let a := (c.y.getS o.a.toNat).toNat
      let off := c.y.getS o.b.toNat
      let compl := c.y.getS o.d.toNat
      match firstTrap [s.illIf (nbits a 31 5 ≠ 0 || c.x.lrec.ztiles ≤ nbits a 4 0), alignCheck (off.setWidth 64) 8,
          (if c.x.lrec.localB < off.toNat + 512 then some { cause := Cause.localBounds, tval := off.setWidth 64 } else none),
          s.complCheck c.x compl false] with
      | some t => .trap t
      | none => s.issueMat c (.sigmk (nbits a 4 0) off.toNat) compl none 4 0) s

/-- SIGF (R325): the mask of the keys within the radius. -/
def sigMask (x : Block) (q : DWord) (off radius : Nat) : DWord :=
  BitVec.ofNat 64 ((List.range 64).foldl (fun a j =>
    let d := q ^^^ x.dword (off + 8 * j)
    if ((List.range 64).filter fun i => d.getLsbD i).length ≤ radius then a + 2 ^ j else a) 0)

def execSigf (o : X4) (s : State) : Host.Outcome State Fault Refusal :=
  issueWord { cls := 1, stall := o.st, regsOk := fun _ => sPair o.a && sPair o.b,
              reads := [.s o.b.toNat, .s (o.b.toNat + 1), .s o.c.toNat, .s o.d.toNat], writes := [.s o.a.toNat, .s (o.a.toNat + 1)] }
    (fun c s =>
      let off := c.y.getS o.c.toNat
      let r := (c.y.getS o.d.toNat).toNat
      let acc : Acc := { cls := .load, point := 0, ranges := [(uaOf 0 off.toNat, 512)] }
      match firstTrap [alignCheck (off.setWidth 64) 8,
          (if c.x.lrec.localB < off.toNat + 512 then some { cause := Cause.localBounds, tval := off.setWidth 64 } else none),
          s.illIf (64 < r)] with
      | some t => .trap t
      | none =>
        if s.held c.y acc || c.y.localBusy c.b off.toNat 512 then .hold
        else .done (s.modGang c.b c.g fun y => y.setS2 o.a.toNat (sigMask c.x (c.y.getS2 o.b.toNat) off.toNat r)) true) s

/-! ### The results (R313, R321, R322, R324) -/

/-- Element `n` of row `r` of a tile. -/
def Tile.at_ (t : Tile) (r n : Nat) : Word := (t.elems[64 * r + n]?).getD 0

/-- A tile whose elements are computed again. -/
def Tile.map (t : Tile) (f : Nat → Nat → Word → Word) : Tile := { t with elems := t.elems.mapIdx fun i w => f (i / 64) (i % 64) w }

/-- A run of a list. -/
def run {α : Type} (l : List α) (off n : Nat) : List α := (l.drop off).take n

/-- The result of MMA: row by row of the set; a row that no lane signed is all zero (R310). -/
def mmaResult (a b : Nat) (rows : List (Nat × List Byte)) (bsc : Bool) (data : List (List Byte)) (t : Tile) : Tile :=
  let bb := (data[0]?).getD []
  let sc := if bsc then (data[1]?).getD [] else []
  t.map fun r n w =>
    let nb := groupScales b
    let col := run bb (32 * n) 32
    let cs := if bsc then run sc (nb * n) nb else []
    match rows.find? fun p => p.1 = r with
    | none => w
    | some p =>
      if p.2.isEmpty then
        if a = 9 then w else groupAcc w (List.replicate (groupElems a) (.fin false 0 0)) (groupValues b col cs)
      else accumulate a b w (p.2.take 32) col (p.2.drop 32) cs

/-- The result of MTILE and MTILEX. -/
def tileResult (d : List Byte) (data : List (List Byte)) (t : Tile) : Tile :=
  let a := tAfmt d
  let b := tBfmt d
  let kg := tKg d
  let rows := tRows d
  let sa := (data[rows + 64]?).getD []
  let sb := (data[rows + 65]?).getD []
  t.map fun r n w =>
    if rows ≤ r then w
    else
      let ar := (data[r]?).getD []
      let bc := (data[rows + n]?).getD []
      (List.range kg).foldl (fun acc g =>
        accumulate a b acc (run ar (groupBytes a * g) (groupBytes a)) (run bc (groupBytes b * g) (groupBytes b))
          (run sa (groupScales a * (r * kg + g)) (groupScales a)) (run sb (groupScales b * (n * kg + g)) (groupScales b))) w

/-- The tag of a scaled single of a format code (R161). -/
def scaledTag (c : Nat) : BitVec 5 :=
  match c with
  | 2 => 0x10#5
  | 3 => 0x11#5
  | 4 => 0x16#5
  | 5 => 0x15#5
  | 6 => 0x14#5
  | 7 => 0x12#5
  | _ => 0x13#5

/-- Codes packed into bytes (R126). -/
def packBytes (w : Nat) (codes : List Nat) : List Byte :=
  natLe (w * codes.length / 8) ((codes.mapIdx fun i c => c % 2 ^ w * 2 ^ (w * i)).foldl (· + ·) 0)

/-- A row of a tile converted by MZST: its bytes and its two scales (R313). A NaN of an F32 row becomes the canonical one (R137). -/
def mzstRow (fmt : Nat) (isInt : Bool) (row : List Word) : List Byte × List Byte :=
  if fmt = 11 then (packBytes 32 (row.map BitVec.toNat), [])
  else if fmt = 10 then
    (packBytes 32 (row.map fun w => (toF32 (if isInt then (Elem.int true 32).value w.toNat else ofF32 w)).toNat), [])
  else if fmt ≤ 1 then (packBytes 16 (row.map fun w => ((matElem fmt).ofNum .rne 0 (ofF32 w)).code), [])
  else
    let half : Nat → Nat := fun h => mxScale 0xFFFFFFFF (fun l => (row[32 * h + l]?).getD 0) (scaledTag fmt)
    let code : Nat → Word → Nat := fun i w =>
      let x := half (i / 32)
      if x = 255 then 0 else ((matElem fmt).ofNum .rne 0 ((ofF32 w).scale (127 - (x : Int)))).code
    (packBytes (matWidth fmt) (row.mapIdx code), [BitVec.ofNat 8 (half 0), BitVec.ofNat 8 (half 1)])

/-- exp2 of ATT (R143): correctly rounded FP32. -/
def exp2F32 (w : Word) : Word := BitVec.ofNat 32 (fa1Value 3 w .rne 0).code

/-- A difference rounded to FP32. -/
def subF32 (a b : Word) : Word := toF32 (sumNum [ofF32 a, (ofF32 b).neg] .rne).1

/-- A product rounded to FP32. -/
def mulF32 (a b : Word) : Word := toF32 ((ofF32 a).mul (ofF32 b)).1

/-- The greater of two scores; a NaN stays (R321). -/
def maxScore (a b : Word) : Word :=
  if (ofF32 a).isNan || (ofF32 b).isNan then 0x7FC00000 else BitVec.ofNat 32 (minMaxCode false (.float fmtF32) a.toNat b.toNat)

/-- The values of a token's key or value (R128, R320). -/
def tokenValues (kv dim : Nat) (bs : List Byte) : List Num :=
  if kv = 0 then (List.range dim).map fun i => fmtBF16.value (leNat (run bs (2 * i) 2))
  else (List.range dim).map fun i =>
    let u := run bs (33 * (i / 32)) 33
    scaledValue (matElem kv) ((u[i % 32]?).getD 0).toNat ((u[32]?).getD 0).toNat

/-- The row state of ATT: m, l and the output row. -/
structure AttRow where
  m : Word
  l : Word
  o : List Word

/-- One step of online softmax for a row (R321). -/
def attRow (d : List Byte) (q : List Num) (ks vs : List (List Num)) (init : AttRow) : AttRow :=
  let toks := (List.range 64).filter (aInT d)
  let scale := BitVec.ofNat 32 (dfield d 4 4)
  let score : Nat → Word := fun t =>
    let k := (ks[t]?).getD []
    let dot := (List.range (aDim d / 16)).foldl (fun acc g => groupAcc acc (run q (16 * g) 16) (run k (16 * g) 16)) (0 : Word)
    mulF32 scale dot
  let st := toks.map fun t => (t, score t)
  let m2 := st.foldl (fun a p => maxScore a p.2) init.m
  let a : Word := if init.m = 0xFF800000 then 0 else exp2F32 (subF32 init.m m2)
  let ps : List (Nat × Num) := st.map fun p =>
    (p.1, fmtBF16.value ((Elem.float fmtBF16).ofNum .rne 0 (ofF32 (exp2F32 (subF32 p.2 m2)))).code)
  let l := ps.foldl (fun acc p => toF32 (sumNum [ofF32 acc, p.2] .rne).1) (mulF32 a init.l)
  let o := init.o.mapIdx fun c w =>
    (List.range 4).foldl (fun acc g =>
      let gs := ps.filter fun p => p.1 / 16 = g
      groupAcc acc (gs.map Prod.snd) (gs.map fun p => (((vs[p.1]?).getD [])[c]?).getD .nan)) (mulF32 a w)
  { m := m2, l := l, o := o }

/-- ATT at completion (R321): the block's tiles after it. -/
def attResult (d : List Byte) (data : List (List Byte)) (x : Block) : Block :=
  let dim := aDim d
  let n := aNtok d
  let q := (data[0]?).getD []
  let ks := ((run data 1 n)).map (tokenValues (aKv d) dim)
  let vs := ((run data (1 + n) n)).map (tokenValues (aKv d) dim)
  let any := (List.range 64).any (aInT d)
  (List.range 64).foldl (fun z r =>
    if !any || nbits (aRowv d) r r = 0 then z
    else
      let zs := z.tile (aZs d)
      let first := nbits (aFlags d) 3 3 = 1
      let cur : List Word := (aOuts d).flatMap fun t => (List.range 64).map fun c => (z.tile t).at_ r c
      let init : AttRow := if first then { m := 0xFF800000, l := 0, o := List.replicate dim 0 }
        else { m := zs.at_ r 0, l := zs.at_ r 1, o := cur }
      let qr := (List.range dim).map fun i => fmtBF16.value (leNat (run q (2 * (r * dim + i)) 2))
      let res := attRow d qr ks vs init
      let z1 := ((aOuts d).mapIdx fun i t => (i, t)).foldl (fun w p =>
        w.setTile p.2 ((w.tile p.2).map fun r' c old => if r' = r then (res.o[64 * p.1 + c]?).getD 0 else old)) z
      z1.setTile (aZs d) ((z1.tile (aZs d)).map fun r' c old =>
        if r' = r then (if c = 0 then res.m else if c = 1 then res.l else old) else old)) x

/-- An exact quotient, as a magnitude to be rounded once. -/
def magDiv (m : Nat) (e : Int) (m' : Nat) (e' : Int) : Mag :=
  let k := 64 + Nat.log2 m'
  ⟨m * 2 ^ k / m', e - e' - k, m * 2 ^ k % m' ≠ 0⟩

/-- The BF16 code of O / l (R322): one exact quotient rounded once; a row with l = +0 is +0. -/
def attQuot (o l : Word) : Nat :=
  let k : Elem := .float fmtBF16
  if l = 0 then 0
  else match ofF32 o, ofF32 l with
  | .nan, _ | _, .nan => k.nan.code
  | .inf _, .inf _ => k.nan.code
  | .inf n, .fin n' _ _ => (k.inf (n != n')).code
  | .fin n _ _, .inf n' => if n != n' then 0x8000 else 0
  | .fin n m e, .fin n' m' e' =>
    if m' = 0 then (if m = 0 then k.nan.code else (k.inf (n != n')).code)
    else if m = 0 then (if n != n' then 0x8000 else 0)
    else (k.round .rne 0 (n != n') (magDiv m e m' e')).code

/-- The bytes an operation writes, range by range, as its tiles stand at completion; MZST converts from the type that its tile's tag
gave when it was accepted (R305). -/
def MatOp.output (o : MatOp) (x : Block) : List (DWord × List Byte) :=
  match o.kind with
  | .tile 4 d =>
    let t := x.tile (tZd d)
    let rows := (List.range (tRows d)).map fun r => (r, mzstRow (tBfmt d) o.isInt ((List.range 64).map (t.at_ r)))
    rows.map (fun p => (uaOf 0 (tAoff d + p.1 * tApitch d), p.2.1)) ++ rows.map fun p => (uaOf 0 (tAsoff d + 2 * p.1), p.2.2)
  | .attfin d =>
    ((List.range 64).filter fun r => nbits (aRowv d) r r = 1).map fun r =>
      let l := (x.tile (aZs d)).at_ r 1
      (uaOf 0 (aOoff d + 2 * aDim d * r),
        (aOuts d).flatMap fun z => (List.range 64).flatMap fun c => natLe 2 (attQuot ((x.tile z).at_ r c) l))
  | .sigmk z off =>
    (List.range 64).map fun r =>
      (uaOf 0 (off + 8 * r), natLe 8 ((List.range 64).foldl (fun a c => if ((x.tile z).at_ r c).msb then a + 2 ^ c else a) 0))
  | _ => []

/-- The tiles after an operation's completion. -/
def MatOp.result (o : MatOp) (x : Block) : Block :=
  let data := o.data.getD []
  match o.kind with
  | .mma _ z a b rows _ _ bsc => x.setTile z (mmaResult a b rows bsc data (x.tile z))
  | .tile 0 d | .tile 1 d => x.setTile (tZd d) (tileResult d data (x.tile (tZd d)))
  | .tile 2 d => x.setTile (tZd d) ((x.tile (tZd d)).map fun _ _ _ => 0)
  | .tile 3 d => x.setTile (tZd d) ((x.tile (tZd d)).map fun r n _ => BitVec.ofNat 32 (leNat (run ((data[r]?).getD []) (4 * n) 4)))
  | .tile 5 d => x.setTile (tZd d) ((x.tile (tZd d)).map fun r _ w =>
      if r < tRows d then mulF32 w (BitVec.ofNat 32 (leNat (run ((data[0]?).getD []) (4 * r) 4))) else w)
  | .att d => attResult d data x
  | _ => x

/-! ### The engine's events (R305, R315) -/

/-- An operation of a block, if every earlier accepted one that names a common tile satisfies `p`. -/
def Block.matReady (x : Block) (id : Nat) (p : MatOp → Bool) : Option MatOp :=
  match x.mops.find? fun o => o.id = id with
  | none => none
  | some o =>
    let before := x.mops.takeWhile fun q => q.id ≠ id
    if o.away || (before.any fun q => !p q && q.kind.tiles.any o.kind.tiles.contains) then none else some o

/-- An operation replaced under its number. -/
def Block.setMat (x : Block) (o : MatOp) : Block := { x with mops := x.mops.map fun q => if q.id = o.id then o else q }

/-- OPERANDS_CONSUMED: block, operation (R305, R315). -/
def execOperandsConsumed (s : State) : Host.Outcome State Fault Refusal :=
  match s.input with
  | .nat2 b id =>
    match s.block? b with
    | none => .next s
    | some x =>
      match x.matReady id fun q => q.data.isSome with
      | none => .next s
      | some o =>
        if o.data.isSome then .next s
        else
          let now := o.kind.reads.map (s.rangeBytes x)
          let s1 := { s.modBlock b fun z => z.setMat { o with data := some (o.readAt now s.fresh), cons := none } with
            fresh := s.fresh + 2 ^ 61 }
          match o.cons with
          | some t => .next (s1.complete x (BitVec.ofNat 32 t) 0 stOk 0 none).settle
          | none => .next s1
  | _ => .next s

/-- The completion of an operation whose operands have been read: its writes, its tiles, its report. -/
def State.matComplete (s : State) (x : Block) (o : MatOp) : State :=
  let out := o.output x
  let s1 := out.foldl (fun z p => z.performWrite 0 ((List.range p.2.length).map fun i => .loc x.id (uoff p.1 + i)) p.2 (some 0)) s
  let s2 := s1.modBlock x.id fun z => { o.result z with mops := z.mops.filter fun q => q.id ≠ o.id }
  match s2.op? o.id, o.kind with
  | some _, .mma .. => (s2.dropOp o.id).settle
  | some p, k => (((s2.complete x p.compl k.landed stOk 0 none).dropOp o.id)).settle
  | none, _ => s2

/-- MATRIX_OP_COMPLETE: block, operation. A write to a byte under another operation's read lease waits, as a copy sector does. -/
def execMatrixOpComplete (s : State) : Host.Outcome State Fault Refusal :=
  match s.input with
  | .nat2 b id =>
    match s.block? b with
    | none => .next s
    | some x =>
      match x.matReady id fun _ => false with
      | none => .next s
      | some o =>
        if o.data.isNone || (o.kind.writes.any fun r => (List.range r.2).any fun i => s.leased none (.loc x.id (uoff r.1 + i))) then .next s
        else .next (s.matComplete x o)
  | _ => .next s

end Sys2Proof.Machine
end

