-- ==== Sys2Proof/Machine/Subs.lean ====
section
/-! DEFINITION. Standing loads (R279 to R293): SLD, SLWAIT, SLACK, USUB, and what happens at the homes and at delivery. -/

namespace Sys2Proof.Machine

/-! ### Gills and ring controls (R279, R280) -/

/-- The 16 bytes of a gill that a push writes. -/
def Push.gill (p : Push) : List Byte :=
  natLe 8 p.value.toNat ++ natLe 4 p.seq.toNat ++
    natLe 4 ((if p.valid then 1 else 0) + (if p.closed then 2 else 0) + (if p.overrun then 4 else 0) + (if p.moved then 8 else 0)
      + (if p.poison then 16 else 0))

/-- The bytes of a subscription's footprint. -/
def footprint (every : Bool) (r : Nat) : Nat := if every then 16 * (2 ^ r + 1) else 16

/-- The base of a block's subscription. -/
def Sub.base? (u : Sub) (b : Nat) : Option Nat := match u.who with | .gill b' base => if b' = b then some base else none | _ => none

/-- The open subscription of a block at a base (R281, R288, R289). -/
def State.openSub (s : State) (b base : Nat) : Option Sub := s.subs.find? fun u => u.base? b = some base && u.state = .live

/-- The SLD of a block at a base that has not reached its home (R289). -/
def State.openSld (s : State) (b base : Nat) : Option Op :=
  s.ops.find? fun o => o.b = b && (match o.kind with | .sld _ _ _ _ base' => base' = base && !(s.subs.any fun u => u.id = o.id) | _ => false)

/-- The footprints of the open subscriptions of a block: offset and bytes. -/
def State.footprints (s : State) (b : Nat) : List (Nat × Nat) :=
  (s.subs.filterMap fun u => if u.state = .live then (u.base? b).map fun a => (a, footprint u.every u.r) else none)
    ++ s.ops.filterMap fun o => match o.kind with
      | .sld _ _ ev r base => if o.b = b && !(s.subs.any fun u => u.id = o.id) then some (base, footprint ev r) else none
      | _ => none

/-- Directory entries in use on a core (R282). -/
def State.directory (s : State) (d : Die) (core : Nat) : Nat :=
  let here : Nat → Bool := fun b => match s.block? b with
    | some x => x.die = d && x.core = core && x.residence ≠ .evicted
    | none => false
  (s.subs.filter fun u => match u.who with | .gill b _ => here b | _ => false).length
    + (s.ops.filter fun o => match o.kind with | .sld .. => here o.b && !(s.subs.any fun u => u.id = o.id) | _ => false).length

/-- Local bytes written as one event at the block point, their swizzle tags unchanged (R280). -/
def State.putLocal (s : State) (b off : Nat) (bs : List Byte) : State :=
  s.performWrite 0 ((List.range bs.length).map fun i => .loc b (off + i)) bs none

/-! ### SLD (R281, R282) -/

/-- The checks of SLD, in operand order: with S[a], a tun offset at or beyond TSIZE; that the word's last byte is within, once the word's
alignment has been tested (DEDUCED, log 174). -/
def sldCheck (s : State) (x : Block) (a : DWord) (base ctl compl : Word) : Option Trap :=
  let size := if ctl.getLsbD 0 then 8 else 4
  let every := ctl.getLsbD 1
  let r := nbits ctl.toNat 4 2
  let n := footprint every r
  firstTrap [if uform a = some .main || uform a = some .tun then none else some { cause := Cause.address, tval := a },
    s.rangeCheck x a 1,
    alignCheck (base.setWidth 64) 16,
    s.illIf (nbits ctl.toNat 31 5 ≠ 0 || 5 ≤ r || (!every && r ≠ 0)),
    alignCheck a size,
    s.rangeCheck x a size,
    (if x.lrec.localB < base.toNat + n then some { cause := Cause.localBounds, tval := base.setWidth 64 } else none),
    (if (s.footprints x.id).any fun f => overlap f.1 f.2 base.toNat n then
      some { cause := Cause.illegal, tval := base.setWidth 64 } else none),
    s.complCheck x compl true]

def execSld (o : X4) (s : State) : Host.Outcome State Fault Refusal :=
  issueWord { cls := 3, stall := o.st, sideEff := true, regsOk := fun _ => sPair o.a,
              reads := [.s o.a.toNat, .s (o.a.toNat + 1), .s o.b.toNat, .s o.c.toNat, .s o.d.toNat] }
    (fun c s =>
      let a := c.y.getS2 o.a.toNat
      let base := c.y.getS o.b.toNat
      let ctl := c.y.getS o.c.toNat
      let compl := c.y.getS o.d.toNat
      match sldCheck s c.x a base ctl compl with
      | some t => .trap t
      | none =>
        let every := ctl.getLsbD 1
        let r := nbits ctl.toNat 4 2
        let n := footprint every r
        if c.y.localBusy c.b base.toNat n then .hold
        else
          let s0 := (s.putLocal c.b base.toNat (List.replicate n 0)).modBlock c.b fun x =>
            { x with oldGills := x.oldGills.filter fun g => !overlap g.base g.size base.toNat n }
          let size := if ctl.getLsbD 0 then 8 else 4
          let kind : OpKind := .sld a size every r base.toNat
          let refuse : State := (((s0.markTag c.x compl).complete c.x compl 0 stSubQuota 0 none)).settle
          if 512 ≤ s.directory c.x.die c.x.core then .done refuse true
          else match s0.openOp c kind compl true [(a, size)] [] 0 with
          | none => .done refuse true
          | some s1 => .done s1.settle true) s

/-! ### The homes (R282 to R286, R291) -/

/-- The home of a word (R283, R368): the die and its slice. -/
def homeOf (l : Loc) : Nat × Nat :=
  match l with
  | .tun d o => (d.val, 1000 + o / 4096 % 96)
  | _ => let h := l.pa / 4096 % 128; (h / 64, h)

/-- Records a word's subscribers occupy: one for each 8. -/
def records (n : Nat) : Nat := (n + 7) / 8

/-- Records in use at a home. -/
def State.recordsAt (s : State) (h : Nat × Nat) : Nat :=
  ((s.recs.filter fun r => homeOf r.1.1 = h).map fun r => records (s.subscribers r.1.1 r.1.2)).foldl (· + ·) 0

/-- Whether a further subscriber of a word finds a record (R283). -/
def State.recordFree (s : State) (l : Loc) (size : Nat) : Bool :=
  let cap := (match l with | .tun _ _ => 2048 | _ => 16384)
  let n := s.subscribers l size
  records (n + 1) = records n || s.recordsAt (homeOf l) < cap

/-- Subscribers of a context that count against SQUOTA at the homes of a die (R283). -/
def State.quotaUsed (s : State) (ctx die : Nat) : Nat :=
  (s.subs.filter fun u => u.ctx = ctx && u.state = .live && (homeOf u.word).1 = die
    && (match u.who with | .gill _ _ | .waitv _ _ | .desc _ _ _ true => true | _ => false)).length

/-- SQUOTA. -/
def State.squota (s : State) (ctx : Nat) : Nat := s.ctxField ctx 4 4

/-- A frame with a moved mark (R291). -/
def State.isMoved (s : State) (l : Loc) : Bool :=
  match l with
  | .hbm pa => s.moved.any fun m => m.1 ≤ pa && pa < m.1 + m.2
  | _ => false

/-- A subscriber joins a home (R282): the record, a new one at sequence 1, and the snapshot, which uses a credit under EVERY. -/
def State.subscribe (s : State) (u : Sub) : State :=
  let s1 := if (assocGet s.recs (u.word, u.size)).isSome then s else { s with recs := s.recs ++ [((u.word, u.size), 1)] }
  { s1 with subs := s1.subs ++ [{ u with pend := [s1.pushNow u], credits := 2 ^ u.r - 1 }] }

/-- The closing push of USUB (R289); of a word that its home cannot read it has POISON set (R291). -/
def State.closePlain (s : State) (u : Sub) : State :=
  if s.unreadable u.key u.word then s.closePoison u else s.closeSub u { s.pushNow u with closed := true }

/-- A close with MOVED (R291); of a word that its home cannot read it has POISON set as well. -/
def State.closeMoved (s : State) (u : Sub) : State :=
  if s.unreadable u.key u.word then s.closeUnread u true else s.closeSub u { s.pushNow u with closed := true, moved := true }

/-! ### Deliveries (R280, R285, R292) -/

/-- The bytes of a delivery and where they go: a gill, or a slot and the ring control; a closing push under EVERY writes the ring
control alone. -/
def Sub.writes (u : Sub) (p : Push) (base : Nat) (ctl : List Byte) : List (Nat × List Byte) :=
  if !u.every then [(base, p.gill)]
  else
    let c := base + 16 * 2 ^ u.r
    if p.closed then
      [(c, ctl.take 8 ++ natLe 8 (1 + (if p.moved then 2 else 0) + (if p.poison then 4 else 0)))]
    else
      [(base + 16 * (u.count % 2 ^ u.r), p.gill), (c, natLe 4 (u.count + 1) ++ ctl.drop 4)]

/-- The completion operand of an implicit USUB (R290), which reports nowhere; no explicit operand has it (R200). -/
def implicitCompl : Word := 0xFFFFFFFF

/-- An operation's completion is reported for the block as it stands; an implicit USUB only leaves. -/
def State.finishOp (s : State) (o : Op) (status : Nat) : State :=
  if o.compl = implicitCompl then (s.dropOp o.id).settle else s.endOp o status 0 none

/-- A subscription of a block has ended: reading its gill or ring is still a read of its word, until another takes its place (R246). -/
def State.noteOldGill (s : State) (u : Sub) : State :=
  match u.who with
  | .gill b base => s.modBlock b fun x =>
      { x with oldGills := { base := base, size := footprint u.every u.r, word := u.word } :: x.oldGills.filter fun g => g.base ≠ base }
  | _ => s

/-- After a delivery (R282, R289): an SLD whose snapshot has landed completes; the closing push ends the subscription, its pin and
the USUB that waits for it. -/
def State.delivered (s : State) (u : Sub) (p : Push) : State :=
  let s1 := (match s.op? u.id with
    | some o => (match o.kind with | .sld .. => s.finishOp o stOk | _ => s)
    | none => s)
  if !p.closed then s1
  else
    let s2 := { s1 with subs := s1.subs.filter fun v => v.id ≠ u.id }.noteOldGill u
    let s3 := (match u.slot with | some n => s2.unpin n | none => s2)
    match s3.ops.find? fun o => o.kind = .usub u.id with
    | some o => s3.finishOp o stOk
    | none => s3

/-- A push written into its block's local memory. -/
def State.deliverLocal (s : State) (u : Sub) (p : Push) (b base : Nat) : State :=
  match s.block? b with
  | none => s
  | some x =>
    let ctl := x.mem.read (base + 16 * 2 ^ u.r) 16
    let ws := u.writes p base ctl
    let s1 := ws.foldl (fun z w => z.putLocal b w.1 w.2) s
    let u1 := { u with pend := u.pend.filter fun q => q ≠ p, count := if p.closed then u.count else u.count + 1 }
    (s1.setSub u1).delivered u1 p

/-- Whether a delivery would write a byte under a read lease, which it waits for (R280). -/
def State.deliverLeased (s : State) (u : Sub) (p : Push) (b base : Nat) : Bool :=
  (u.writes p base (List.replicate 16 0)).any fun w => (List.range w.2.length).any fun i => s.leased none (.loc b (w.1 + i))

/-- A push for an evicted block goes to its log (R292). -/
def State.deliverLog (s : State) (u : Sub) (p : Push) (b : Nat) : State :=
  (s.setSub { u with pend := u.pend.filter fun q => q ≠ p }).modBlock b fun x => { x with pushLog := x.pushLog ++ [p] }

/-- A push that reaches an unmapped descriptor sets WAKE in it (R34); a change from clear posts a wake notice. The queue holds no slot
then, and the notice names slot 0 (DESIGN CHOICE, log 28). -/
def State.wakeDesc (s : State) (d : Die) (ctx tab : Nat) : State :=
  let at_ := s.ctxField ctx 8 8 + 64 * tab + 0x1D
  let f := ((s.deviceRead at_ 1).headD 0).toNat
  if f / 4 % 2 = 1 then s
  else (s.deviceWrite at_ [BitVec.ofNat 8 (f + 4)]).noticeOn d
    (natLe 1 5 ++ natLe 1 0 ++ natLe 2 0 ++ natLe 2 ctx ++ natLe 2 0 ++ natLe 8 0)

/-- PUSH_DELIVERY: subscription. The oldest push of a block's subscription is delivered; one for the write index of an unmapped queue
reaches its descriptor (R34). -/
def execPushDelivery (s : State) : Host.Outcome State Fault Refusal :=
  match s.input with
  | .nat id =>
    match s.sub? id with
    | none => .next s
    | some u =>
      match u.pend with
      | [] => .next s
      | p :: _ =>
        match u.who with
        | .gill b base =>
          match s.block? b with
          | none => .next s
          | some x =>
            if x.residence = .evicted then .next ((s.deliverLog u p b).settle)
            else if s.deliverLeased u p b base then .next s
            else .next ((s.deliverLocal u p b base).settle)
        | .desc d ctx tab false => .next ((s.setSub { u with pend := [] }).wakeDesc d ctx tab)
        | _ => .next s
  | _ => .next s

/-- SLD_HOME_REQUEST: operation. The request of an SLD reaches its home (R282). -/
def execSldHomeRequest (s : State) : Host.Outcome State Fault Refusal :=
  match s.input with
  | .nat id =>
    match s.op? id with
    | none => .next s
    | some o =>
      match o.kind, s.block? o.b, o.fault with
      | .sld a size every r base, some x, none =>
        if (s.sub? id).isSome || o.away then .next s
        else
          let key := (s.space x.space).key
          match s.locate x (s.opSlot o) a .read with
          | .error t => .next (if copyFaultCause t.cause then s else s.strike x o.g t)
          | .ok (.lender _ _) | .ok (.host _ _) => .next (s.endOp o stFault a none)
          | .ok l =>
            let u : Sub := { id := id, who := .gill o.b base, ctx := x.ctx, die := x.die, word := l, size := size, key := key, every := every, r := r,
                             state := .live, credits := 0, due := 0, held := none, pend := [], count := 0, slot := o.slot }
            if s.isMoved l then
              let p : Push := { sub := id, value := 0, seq := 0, valid := false, closed := true, moved := true, poison := false, overrun := false }
              let v := { u with state := .closing, pend := [p] }
              .next { s.setOp { o with slot := none } with subs := s.subs ++ [v] }
            else if s.squota x.ctx ≤ s.quotaUsed x.ctx (homeOf l).1 || !s.recordFree l size then .next (s.endOp o stSubQuota 0 none)
            else
              let s1 := (s.setOp { o with slot := none }).subscribe u
              match s1.sub? id with
              | some v => .next (if s1.unreadable key l then s1.closePoison { v with pend := [] } else s1)
              | none => .next s1
      | _, _, _ => .next s
  | _ => .next s

/-- CREDIT_RETURN: subscription. Credits that SLACK sent reach the home; a held push goes with OVERRUN and uses one (R286, R288). -/
def execCreditReturn (s : State) : Host.Outcome State Fault Refusal :=
  match s.input with
  | .nat id =>
    match s.sub? id with
    | none => .next s
    | some u =>
      let u1 := { u with credits := u.credits + u.due, due := 0 }
      if u.due = 0 || u.state ≠ .live then .next (s.setSub { u with due := 0 })
      else match u1.held with
      | some p => .next (s.setSub { u1 with held := none, credits := u1.credits - 1, pend := u1.pend ++ [{ p with overrun := true }] })
      | none => .next (s.setSub u1)
  | _ => .next s

/-- SUBSCRIPTION_POISON: subscription. A home that cannot read the word closes the subscription (R291). -/
def execSubscriptionPoison (s : State) : Host.Outcome State Fault Refusal :=
  match s.input with
  | .nat id =>
    match s.sub? id with
    | some u => .next (if u.state = .live && s.unreadable u.key u.word then s.closePoison u else s)
    | none => .next s
  | _ => .next s

/-! ### SLWAIT, SLACK, USUB (R287 to R290) -/

/-- The checks of a watch operand: alignment, bounds, reserved bits (R287). -/
def watchCheck (s : State) (x : Block) (a : Word) : Option Trap :=
  let off := nbits a.toNat 18 0
  firstTrap [alignCheck (BitVec.ofNat 64 off) 16,
    (if x.lrec.localB < off + 16 then some { cause := Cause.localBounds, tval := BitVec.ofNat 64 off } else none),
    s.illIf (nbits a.toNat 30 19 ≠ 0)]

def execSlwait (o : X4) (s : State) : Host.Outcome State Fault Refusal :=
  issueWord { cls := 3, stall := o.st, regsOk := fun _ => 1 ≤ o.d.toNat && o.d.toNat ≤ 11,
              reads := [.s o.a.toNat, .s o.b.toNat, .s o.c.toNat], writes := [.k o.d.toNat] }
    (fun c s =>
      let a := c.y.getS o.a.toNat
      let v := c.y.getS o.b.toNat
      let off := nbits a.toNat 18 0
      match watchCheck s c.x a with
      | some t => .trap t
      | none =>
        if s.held c.y { cls := .load, point := 0, ranges := [(uaOf 0 off, 16)] } || c.y.localBusy c.b off 16 then .hold
        else if c.x.slHolds off (a.getLsbD 31) v then
          .done (s.modGang c.b c.g fun y => (y.noteSlwait c.b off).answer o.d.toNat c.m true) true
        else .done (s.modGang c.b c.g fun y => y.mapLanes c.m fun _ k =>
          { k with wait := .slwait off (a.getLsbD 31) v o.d.toNat, hint := some (c.y.getS o.c.toNat).toNat }) false) s

def execSlack (o : XAB) (s : State) : Host.Outcome State Fault Refusal :=
  issueWord { cls := 3, stall := o.st, sideEff := true, reads := [.s o.a.toNat, .s o.b.toNat] }
    (fun c s =>
      let base := (c.y.getS o.a.toNat).toNat
      let n := (c.y.getS o.b.toNat).toNat
      let latestSld := (match s.openSld c.b base with | some p => (match p.kind with | .sld _ _ ev _ _ => !ev | _ => false) | none => false)
      if n = 0 || 16 < n || latestSld then .trap s.illTrap
      else if (s.openSld c.b base).isSome then .trap s.illTrap
      else match s.openSub c.b base with
      | none => .done s true
      | some u =>
        if !u.every then .trap s.illTrap
        else
          let ctl := base + 16 * 2 ^ u.r
          let di : Word := BitVec.ofNat 32 (leNat (c.x.mem.read ctl 4))
          let ci : Word := BitVec.ofNat 32 (leNat (c.x.mem.read (ctl + 4) 4))
          if (di - ci).toNat < n then .trap s.illTrap
          else
            let s1 := s.putLocal c.b (ctl + 4) (natLe 4 (ci + BitVec.ofNat 32 n).toNat)
            .done ((s1.setSub { u with due := u.due + n }).settle) true) s

/-- A USUB goes out for a subscription, or for the SLD of that number which is still on its way. -/
def State.sendUsub (s : State) (b g seq : Nat) (compl : Word) (sub : Nat) : State :=
  let o : Op := { id := s.nextId, kind := .usub sub, b := b, g := g, seq := seq, compl := compl, slot := none, reads := [],
                  landed := [], fault := none, reads_ := [], writes_ := [], point := 0, away := false, recN := s.recOf b g }
  { s with ops := s.ops ++ [o], nextId := s.nextId + 1 }

/-- Local bytes of a block written, and, where it is away, those of its save image, from which it comes back (log 150). -/
def State.putBoth (s : State) (b off : Nat) (bs : List Byte) : State :=
  let s1 := s.putLocal b off bs
  match s.block? b with
  | some x => (match x.residence, x.saved with
    | .evicted, some base => s1.performWrite (s.keyOf b) (s.poolRun x (x.localAt base + off) bs.length) bs none
    | _, _ => s1)
  | none => s1

/-- An SLD stopped by a copy fault is cancelled (R289): its base slot is written as CLOSED only. -/
def State.cancelSld (s : State) (o : Op) (base : Nat) : State :=
  (s.finishOp o stCancelled).putBoth o.b base (natLe 12 0 ++ natLe 4 2)

/-- USUB of a base (R289), its completion checked: for an explicit USUB the operation reports; an implicit one (R290) reports
nowhere. It goes to the home of an open subscription, or of an SLD on its way there. Where only the closing push of a subscription is
still on its way, USUB completes when that push lands, since nothing writes the footprint after it (DEDUCED, log 29). -/
def State.usub (s : State) (b g seq base : Nat) (compl : Word) : State :=
  let closing := s.subs.find? fun u => u.base? b = some base && u.state = .closing
  match s.openSub b base, s.openSld b base, closing with
  | some u, _, _ => s.sendUsub b g seq compl u.id
  | none, some o, _ =>
    if o.fault.isNone then s.sendUsub b g seq compl o.id
    else
      let s1 := s.cancelSld o base
      (match s1.block? b with
      | some x => if compl = implicitCompl then s1 else (s1.complete x compl 0 stOk 0 none).settle
      | none => s1)
  | none, none, some u => s.sendUsub b g seq compl u.id
  | none, none, none =>
    match s.block? b with
    | some x => if compl = implicitCompl then s else (s.complete x compl 0 stOk 0 none).settle
    | none => s

/-- USUB_HOME: operation. A USUB reaches the home, behind the SLD's own request; the home removes the subscriber and creates the closing
push (R289). An SLD that a copy fault has stopped meanwhile is cancelled. -/
def execUsubHome (s : State) : Host.Outcome State Fault Refusal :=
  match s.input with
  | .nat id =>
    match s.op? id with
    | some o => match o.kind with
      | .usub n => match s.sub? n with
        | some u => .next (if u.state = .live then s.closePlain u else s)
        | none => match s.op? n with
          | none => .next (s.finishOp o stOk)
          | some q => match q.kind with
            | .sld _ _ _ _ base => .next (if q.fault.isSome then (s.cancelSld q base).finishOp o stOk else s)
            | _ => .next s
      | _ => .next s
    | none => .next s
  | _ => .next s

def execUsub (o : XAD) (s : State) : Host.Outcome State Fault Refusal :=
  issueWord { cls := 3, stall := o.st, sideEff := true, reads := [.s o.a.toNat, .s o.d.toNat] }
    (fun c s =>
      let base := (c.y.getS o.a.toNat).toNat
      let compl := c.y.getS o.d.toNat
      match s.complCheck c.x compl true with
      | some t => .trap t
      | none => .done ((s.markTag c.x compl).usub c.b c.g c.y.seq base compl) true) s

end Sys2Proof.Machine
end

