-- ==== Sys2Proof/Machine/Ap.lean ====
section
/-! DEFINITION. Address programs (R212 to R216): APRUN, AQE, AQEND, APSTOP, AQPOP and one step of a program. -/

namespace Sys2Proof.Machine

/-! ### APRUN and APSTOP (R212, R215) -/

/-- The checks of APRUN, operand by operand (R201, R212). -/
def aprunCheck (s : State) (x : Block) (entry : DWord) (q compl : Word) : Option Trap :=
  firstTrap [mainCheck entry,
    (if entry.toNat % 4 ≠ 0 then some { cause := Cause.target, tval := entry } else none),
    s.illIf (nbits q.toNat 31 2 ≠ 0),
    (if (s.claimed? x (nbits q.toNat 1 0)).isSome then
      some { cause := Cause.tagbusy, tval := BitVec.ofNat 64 (0x100 + nbits q.toNat 1 0) } else none),
    s.complCheck x compl true]

/-- A queue claimed for a block's new program (R212, R213). -/
def ApQueue.start (b op : Nat) (s : Vector Word 32) (entry : Va) : ApQueue :=
  { b := b, op := op, s := s, k := Vector.replicate 12 0, pc := entry, clause := none, entries := [], ended := none, held := false,
    fault := false, pin := none }

def execAprun (o : XABD) (s : State) : Host.Outcome State Fault Refusal :=
  issueWord (copyInfo o.st [] [o.a, o.a + 1, o.b, o.d] (sEven o.a))
    (fun c s =>
      let entry := c.y.getS2 o.a.toNat
      let qw := c.y.getS o.b.toNat
      let compl := c.y.getS o.d.toNat
      let q := nbits qw.toNat 1 0
      match aprunCheck s c.x entry qw compl with
      | some t => .trap t
      | none =>
        if (s.apq? c.x.die c.x.core q).isSome then .hold
        else match s.openOp c (.aprun q) compl true [] [] 0 with
        | none => .hold
        | some s1 =>
          .done { s1 with apq := s1.apq ++ [((c.x.devCore, q), ApQueue.start c.b s.nextId c.y.s (entry.setWidth 48))] } true) s

/-- The fetches of a queue's program are cancelled (R215). -/
def State.dropFetches (s : State) (b q : Nat) : State :=
  { s with ops := s.ops.filter fun o => !(o.b = b && (match o.kind with | .apfetch q' _ _ => q' = q | _ => false)) }

/-- A program is stopped (R215): CANCELLED for one still running; one that has ended completes with the status it ended with. -/
def State.stopProgram (s : State) (x : Block) (q : Nat) (a : ApQueue) (running : Nat) : State :=
  let s1 := (s.dropFetches x.id q).dropApq x.die x.core q
  match s1.op? a.op with
  | some o => s1.endOp o (a.ended.getD running) (if a.ended = some stMalformed then a.pc.setWidth 64 else 0) none
  | none => s1

def execApstop (o : XA) (s : State) : Host.Outcome State Fault Refusal :=
  issueWord (copyInfo o.st [] [o.a] true)
    (fun c s =>
      let q := nbits (c.y.getS o.a.toNat).toNat 1 0
      match s.claimed? c.x q with
      | none => .trap s.illTrap
      | some a => .done (s.stopProgram c.x q a stCancelled).settle true) s

/-! ### AQPOP (R216) -/

def execAqpop (o : Aqp) (s : State) : Host.Outcome State Fault Refusal :=
  issueWord { cls := 2, stall := o.st, sideEff := true, varLat := true,
              regsOk := fun _ => 4 ≤ o.wf.toNat && o.wf.toNat ≤ 14, writes := [.v o.vd.toNat] }
    (fun c s =>
      let q := o.queue.toNat
      let p : Pend := { Pend.blank .aqpop with code := s.focusWord.toNat, dst := [(o.vd.toNat, Vector.replicate 32 (wfTag o.wf))], mask := c.m }
      match s.claimed? c.x q with
      | none => .trap s.illTrap
      | some a =>
        match a.pop with
        | some (v, a') =>
          .done (((s.setApq c.x.die c.x.core q a').addPend c { p with vals := [v] }).releaseApq c.x.die c.x.core q) true
        | none =>
          if a.ended.isSome && a.entries.isEmpty then .trap s.illTrap
          else .done ((s.addPend c p).modGang c.b c.g fun y => y.mapLanes c.m fun _ l => { l with wait := .aqpop q s.nextId }) false) s

/-! ### AQE and AQEND (R214) -/

/-- A word that only an address program may hold, met by a gang (R111). -/
def apOnlyWord (st : BitVec 2) (s : State) : Host.Outcome State Fault Refusal :=
  issueWord { cls := 3, stall := st, apOnly := true } (fun _ s => .done s true) s

/-- The checks of AQE: its length, its address's form, alignment and bounds. -/
def aqeBad (s : State) (x : Block) (a : DWord) (n : Nat) : Bool :=
  n % 16 ≠ 0 || n < 16 || 128 < n || a.toNat % 16 ≠ 0 ||
  match uform a with
  | some .main => false
  | some .tun => (s.boundsCheck x .tun a n).isSome
  | _ => true

def execAqe (o : XAB) (s : State) : Host.Outcome State Fault Refusal :=
  match s.focus with
  | .ap d core q _ =>
    apWord d core q (fun a s' =>
      match s'.block? a.b with
      | none => .hold
      | some x =>
        let src : DWord := a.getS (o.a.toNat + 1) ++ a.getS o.a.toNat
        let n := (a.getS o.b.toNat).toNat
        if !sEven o.a || aqeBad s' x src n then .malformed
        else if 64 ≤ a.entries.length then .hold
        else
          let op : Op := { id := s'.nextId, kind := .apfetch q src n, b := a.b, g := 0, seq := 0, compl := 0, slot := none, reads := [],
                           landed := [], fault := none, reads_ := [], writes_ := [], point := 0, away := false,
                           recN := ((s'.op? a.op).map (·.recN)).getD 0 }
          let a' : ApQueue := { a with entries := a.entries ++ [{ op := op.id, data := List.replicate 128 0, landed := false }] }
          .done { s' with ops := s'.ops ++ [op], nextId := s'.nextId + 1 } a'.advance) s
  | _ => apOnlyWord o.st s

def execAqend (o : X0) (s : State) : Host.Outcome State Fault Refusal :=
  match s.focus with
  | .ap d core q _ => apWord d core q (fun a s' => .done s' (a.finish stOk)) s
  | _ => apOnlyWord o.st s

/-! ### A program's step (R213) -/

/-- The words that an address program executes. -/
def apExec (i : Instr) (d : Die) (core q : Nat) (s : State) : Host.Outcome State Fault Refusal :=
  match i with
  | .sadd o => execSadd o s
  | .ssub o => execSsub o s
  | .smul o => execSmul o s
  | .sand o => execSand o s
  | .sor o => execSor o s
  | .sxor o => execSxor o s
  | .sshl o => execSshl o s
  | .sshr o => execSshr o s
  | .scmpEq o => execScmpEq o s
  | .scmpNe o => execScmpNe o s
  | .scmpLt o => execScmpLt o s
  | .scmpLe o => execScmpLe o s
  | .scmpUlt o => execScmpUlt o s
  | .scmpUle o => execScmpUle o s
  | .scmpTst o => execScmpTst o s
  | .scmpNtst o => execScmpNtst o s
  | .saddi o => execSaddi o s
  | .smovi o => execSmovi o s
  | .slui o => execSlui o s
  | .bra o => execBra o s
  | .aqe o => execAqe o s
  | .aqend o => execAqend o s
  | _ => progressed (s.apMalformed d core q)

/-- What the fetch of a program's word comes to. -/
inductive ApFetch where
  | word (w : Word)
  | fault (t : Trap)

/-- A fetch under the program's pin, with X required (R213). -/
def State.apWordAt (s : State) (x : Block) (slot : Nat) (pc : Va) : ApFetch :=
  match s.translate x.die (some x.devCore) (s.space x.space).key slot pc.toNat .fetch with
  | .error t => .fault t
  | .ok l =>
    match s.readMain (s.space x.space).key l 4 (pc.setWidth 64) with
    | .error t => .fault t
    | .ok bs => .word (BitVec.ofNat 32 (leNat bs))

/-- A translation fault of a program's own fetch is a copy fault of that fetch alone (R213): the program waits for the record's
resolution; an unrecoverable error strikes the context (R345). -/
def State.apFault (s : State) (x : Block) (core q : Nat) (a : ApQueue) (t : Trap) : State :=
  if !copyFaultCause t.cause then s.strike x 0 t
  else
    let o? := s.op? a.op
    let tr : TrapRec := { tcause := tcauseOf false 1 false false t.cause, tpc := 0, treg := 0, trec := (o?.map (·.recN)).getD 0, tmask := 0, tsib := 0,
                          tpar := 0, tval := t.tval }
    { s.setApq x.die core q { a with fault := true } with
      trapQ := s.trapQ ++ [{ die := x.die, ctx := x.ctx, kind := 2, block := x.id, gang := (o?.map (·.g)).getD 0, n := a.op, tr := tr,
                             compl := (o?.map (·.compl)).getD 0 }] }

/-- The program on a queue executes its next word (R213): at a header, the header first. -/
def State.apStep (s : State) (d : Die) (core q : Nat) (x : Block) (a : ApQueue) : Host.Outcome State Fault Refusal :=
  let slot := ((s.op? a.op).bind (·.slot)).getD 0
  let word : State → ApQueue → Host.Outcome State Fault Refusal := fun s1 a1 =>
    match s1.apWordAt x slot a1.pc with
    | .fault t => .next (s1.apFault x core q a1 t)
    | .word w =>
      let s2 := { s1 with focus := .ap d core q w }
      let out := (match decodeLow w with
        | .ok i => if i.wellFormed then apExec i d core q s2 else progressed (s2.apMalformed d core q)
        | .error _ => progressed (s2.apMalformed d core q))
      match out with
      | .next s3 => .next (s3.endProgram x q)
      | r => r
  match a.clause with
  | some _ => word s a
  | none =>
    match s.apWordAt x slot a.pc with
    | .fault t => .next (s.apFault x core q a t)
    | .word h =>
      if hdrBad h then .next ((s.apMalformed d core q).endProgram x q)
      else
        let a1 := { a with clause := some (a.pc, h), pc := a.pc + 4 }
        word (s.setApq d core q a1) a1

/-- ADDRESS_PROGRAM_STEP: die, core, queue. -/
def execAddressProgramStep (s : State) : Host.Outcome State Fault Refusal :=
  match s.input with
  | .nat3 d core q =>
    let die : Die := Fin.ofNat 2 d
    match s.apq? die core q with
    | none => .next s
    | some a =>
      match s.block? a.b with
      | none => .next s
      | some x =>
        if x.residence ≠ .resident || a.ended.isSome || a.fault then .next s
        else s.apStep die core q x { a with held := false }
  | _ => .next s

end Sys2Proof.Machine
end

