-- ==== Sys2Proof/Machine/Coll.lean ====
section
/-! DEFINITION. COLL (R383, R384), and the events of the access processor's operations: a copy fault and a
collective complete (R207, R209, R247). -/

namespace Sys2Proof.Machine

/-! ### The collective descriptor (R383) -/

/-- Bytes of an element by DTYPE. -/
def collElem (dtype : Nat) : Nat := if dtype = 1 then 2 else 4

/-- Bytes of SRC and of DST, with N ranks. -/
def collSrc (op bytes n : Nat) : Nat := if op = 2 || op = 4 then n * bytes else bytes
def collDst (op bytes n : Nat) : Nat := if op = 1 || op = 4 then n * bytes else bytes

/-- The descriptor's fields in its listed order. -/
def collCheck (s : State) (d : List Byte) (n : Nat) : Option Trap :=
  let op := dfield d 0 1
  let dt := dfield d 1 1
  let red := dfield d 2 1
  let src : DWord := BitVec.ofNat 64 (dfield d 8 8)
  let dst : DWord := BitVec.ofNat 64 (dfield d 0x10 8)
  let bytes := dfield d 0x18 4 * collElem dt
  firstTrap [s.illIf (4 < op), s.illIf (3 < dt), s.illIf (1 < red || (red ≠ 0 && op ≠ 0 && op ≠ 2)), s.illIf (dfield d 3 1 ≠ 0),
    s.illIf (if op = 3 then n ≤ dfield d 4 4 else dfield d 4 4 ≠ 0),
    mainCheck src, alignCheck src 16, mainCheck dst, alignCheck dst 16,
    s.illIf (dfield d 0x18 4 = 0 || 268435456 < collSrc op bytes n || 268435456 < collDst op bytes n),
    s.illIf (dfield d 0x1C 36 ≠ 0)]

/-- The group of a block's launch. -/
def State.groupOf (s : State) (x : Block) : Option Group := (s.entry? x.entry).bind (·.group)

/-- The number of a member's next collective (R384): both halves of a split launch count on the home's entry. -/
def State.collNumber (s : State) (ent : Nat) : Nat := ((s.entry? (s.owner ent)).map (·.colls)).getD 0

/-- A collective of the launch numbered. -/
def State.countColl (s : State) (ent : Nat) : State :=
  match s.entry? (s.owner ent) with
  | some e => s.setEntry { e with colls := e.colls + 1 }
  | none => s

/-- The bytes that the die sends for a collective, which no rule counts: none for a group of one, else a free value (R43). -/
def collSent (n fresh : Nat) : Nat := if n = 1 then 0 else (Config.freeWord fresh).toNat

def execColl (o : XAD) (s : State) : Host.Outcome State Fault Refusal :=
  issueWord (copyInfo o.st [] [o.a, o.d] true)
    (fun c s =>
      let a := c.y.getS o.a.toNat
      let compl := c.y.getS o.d.toNat
      match s.groupOf c.x with
      | none => .trap s.illTrap
      | some gp =>
        match descCheck c.x a with
        | some t => .trap t
        | none =>
          if c.y.localBusy c.b a.toNat 64 then .hold else
          let d := c.x.mem.read a.toNat 64
          match firstTrap [collCheck s d gp.n, s.complCheck c.x compl true] with
          | some t => .trap t
          | none =>
            let op := dfield d 0 1
            let bytes := dfield d 0x18 4 * collElem (dfield d 1 1)
            let src : DWord := BitVec.ofNat 64 (dfield d 8 8)
            let dst : DWord := BitVec.ofNat 64 (dfield d 0x10 8)
            let rd := [(src, collSrc op bytes gp.n)]
            let wr := [(dst, collDst op bytes gp.n)]
            let units := accessUnits (collSent gp.n s.fresh)
            let point := max (s.pointOf c.x src (collSrc op bytes gp.n)) (s.pointOf c.x dst (collDst op bytes gp.n))
            match s.shortfall c.x.entry 2 units with
            | some k => .exhausted 2 k
            | none =>
              match s.openOp c (.coll op (dfield d 1 1) (dfield d 2 1) (dfield d 4 4) src dst (dfield d 0x18 4) gp.n gp.rank (s.collNumber c.x.entry)
                  (c.pc.setWidth 64))
                  compl true
                  rd wr point with
              | none => .hold
              | some s1 =>
                .done { (s1.countColl c.x.entry).charge c.x.entry 2 units with fresh := s.fresh + 1 } true) s

/-! ### What a collective computes (R384) -/

/-- One more value combined (R384): SUM in FP32 or wrapping; MAX as FMAX or the integer maximum. BF16 sums are kept in FP32. -/
def collCombine (dtype red : Nat) (a b : Word) : Word :=
  if red = 0 then (if dtype ≤ 1 then fadd32 a b else a + b)
  else match dtype with
  | 0 => BitVec.ofNat 32 (minMaxCode false (.float fmtF32) a.toNat b.toNat)
  | 1 => BitVec.ofNat 32 (minMaxCode false (.float fmtBF16) a.toNat b.toNat)
  | 2 => if a.slt b then b else a
  | _ => if a.ult b then b else a

/-- A value as the reduction takes it: BF16 is widened for SUM. -/
def collIn (dtype red : Nat) (v : Word) : Word := if dtype = 1 && red = 0 then v <<< 16 else v

/-- A result as it is stored: a BF16 sum is rounded once by RNE. -/
def collOut (dtype red : Nat) (v : Word) : Nat :=
  if dtype = 1 && red = 0 then ((Elem.float fmtBF16).ofNum .rne 0 (fmtF32.value v.toNat)).code else v.toNat

/-- A list in an order that free values choose: each element in turn is put at a free place among those before it. -/
def freeOrder (l : List Word) (fresh : Nat) : List Word :=
  (l.mapIdx fun i v => (i, v)).foldl (fun acc p =>
    let k := (Config.freeWord (fresh + p.1)).toNat % (p.1 + 1)
    acc.take k ++ [p.2] ++ acc.drop k) []

/-- Element `i` of a buffer. -/
def elemAt (e : Nat) (bs : List Byte) (i : Nat) : Word := BitVec.ofNat 32 (leNat ((bs.drop (e * i)).take e))

/-- One reduced element, in an order the members choose (R143). -/
def collReduce (dtype red : Nat) (vs : List Word) (fresh : Nat) : Nat :=
  match freeOrder (vs.map (collIn dtype red)) fresh with
  | [] => 0
  | v :: r => collOut dtype red (r.foldl (collCombine dtype red) v)

/-- The bytes of DST of rank `rank`, from every rank's SRC. -/
def collResult (op dtype red root count n rank : Nat) (srcs : List (List Byte)) (fresh : Nat) : List Byte :=
  let e := collElem dtype
  let chunk := count * e
  let src : Nat → List Byte := fun k => (srcs[k]?).getD []
  match op with
  | 0 => (List.range count).flatMap fun i => natLe e (collReduce dtype red (srcs.map fun b => elemAt e b i) (fresh + n * i))
  | 1 => srcs.flatten
  | 2 => (List.range count).flatMap fun i =>
      natLe e (collReduce dtype red (srcs.map fun b => elemAt e (b.drop (chunk * rank)) i) (fresh + n * i))
  | 3 => src root
  | _ => (List.range n).flatMap fun k => ((src k).drop (chunk * rank)).take chunk

/-- The storage of a collective's buffers, if every page translates. -/
def State.collLocs (s : State) (o : Op) (x : Block) : Except Trap (List Loc × List Loc) :=
  match o.kind with
  | .coll op dtype _ _ src dst count n _ _ _ =>
    let bytes := count * collElem dtype
    match s.locateAll x (s.opSlot o) (urun src (collSrc op bytes n)) .read with
    | .error t => .error t
    | .ok a => match s.locateAll x (s.opSlot o) (urun dst (collDst op bytes n)) .write with
      | .error t => .error t
      | .ok b => .ok (a, b)
  | _ => .ok ([], [])

/-- A collective. -/
def OpKind.isColl (k : OpKind) : Bool := match k with | .coll .. => true | _ => false

/-- Accesses of the gang to the buffers, earlier collectives among them, issued before the COLL and not performed (R247). -/
def State.collBusy (s : State) (o : Op) (y : Gang) : Bool :=
  let meets : List (DWord × Nat) → Bool := fun rs => (o.reads_ ++ o.writes_).any fun r => rs.any fun q => rangeMeets r q.1 q.2
  (y.pends.any fun p => p.seq < o.seq && !p.performed && meets p.ranges)
    || s.ops.any fun p => p.b = o.b && p.g = o.g && p.seq < o.seq && p.id ≠ o.id && (p.kind.isCopy || p.kind.isColl) && meets (s.opBytes p)

/-- Bytes left undefined (R384): free bytes, in one write. -/
def State.freeBytes (s : State) (key : Nat) (ls : List Loc) : State :=
  { s.performWrite key ls ((List.range ls.length).map fun i => (Config.freeWord (s.fresh + i)).setWidth 8) none with
    fresh := s.fresh + ls.length }

/-- The DST of a collective that does not complete is left undefined where it translates (R384). -/
def State.freeDst (s : State) (o : Op) (x : Block) : State :=
  match o.kind with
  | .coll op dtype _ _ _ dst count n _ _ _ =>
    s.freeBytes (s.space x.space).key ((urun dst (collDst op (count * collElem dtype) n)).filterMap fun a =>
      (s.locate x (s.opSlot o) a .write).toOption)
  | _ => s

/-- The routes of a collective (R384): the ring for OP 0 to 2 and 4, the tree for BCAST. -/
def Group.routesOf (g : Group) (op : Nat) : List Word := if op = 3 then g.routes.drop 2 else g.routes.take 2

/-- A collective uses a port (R382, R384). -/
def Group.uses (g : Group) (op port : Nat) : Bool := (g.routesOf op).any fun r => nbits r.toNat 3 0 = port

/-- A collective uses a port that has lost its link (R382). -/
def State.linkDown (s : State) (o : Op) : Bool :=
  match o.kind, (s.block? o.b).bind s.groupOf with
  | .coll op .., some g => s.downPorts.any (g.uses op)
  | _, _ => false

/-- A collective completes with its result; where SRC and DST overlap otherwise than R383 allows, with free bytes. Of a BCAST only the
root's SRC is read. A line of SRC that cannot be read, or one of DST that cannot be written, strikes the context (R345, R368, R369, R378). -/
def State.collDone (s : State) (o : Op) (x : Block) (others : List Byte) : State :=
  match o.kind, s.collLocs o x with
  | .coll op dtype red root src dst count n rank _ _, .ok (ls, ld) =>
    let key := (s.space x.space).key
    let len := ls.length
    if others.length ≠ len * (n - 1) then s
    else match (if op ≠ 3 || rank = root then s.readFault key (urun src len) ls else none), (urun dst ld.length).zip ld |>.find? (fun p => s.wrapped p.2) with
    | some t, _ => s.strike x o.g t
    | none, some p => s.strike x o.g { cause := Cause.integrity, tval := p.1, at_ := some p.2 }
    | none, none =>
      let own := ls.map s.readByte
      let srcs := (List.range n).map fun k =>
        if k = rank then own else (others.drop (len * (if k < rank then k else k - 1))).take len
      let bad := rangeMeets (src, len) dst ld.length && !(src = dst && (op = 0 || op = 3))
      let s1 := if bad then s.freeBytes key ld
        else { (s.performWrite key ld (collResult op dtype red root count n rank srcs s.fresh) (some 0)) with
          fresh := s.fresh + n * count }
      (s1.dropWritten x.devCore (ls ++ ld)).endOp o stOk 0 none
  | _, _ => s

/-- COLL_COMPLETE: the operation, and how the collective ended: 0 complete, with the SRC buffers of the other ranks in rank order;
1 its members disagree, where it has more than one; 2 a link lost or a peer dead; 3 an ABORT on a member (R384). A collective that uses a lost link ends with FAULT
(R382), and one whose member waits in a copy fault ends only by 2 or 3. -/
def execCollComplete (s : State) : Host.Outcome State Fault Refusal :=
  match s.input with
  | .bytes id how others =>
    match s.op? id with
    | none => .next s
    | some o =>
      match o.kind, s.block? o.b with
      | .coll _ _ _ _ _ _ _ n _ _ va, some x =>
        let busy := o.away || (match x.gangs[o.g]? with | some y => s.collBusy o y | none => false)
        let sent := o.fault.isNone && !busy && (s.collLocs o x).toOption.isSome
        match (if s.linkDown o then 2 else how) with
        | 0 => .next (if sent then s.collDone o x others else s)
        | 1 => .next (if sent && 1 < n then s.endOp o stMalformed va none else s)
        | 2 => .next ((s.freeDst o x).endOp o stFault 0 none)
        | _ => .next ((s.freeDst o x).endOp o stCancelled 0 none)
      | _, _ => .next s
  | _ => .next s

/-! ### Sectors and copy faults (R207, R209) -/

/-- An operation whose sectors may be performed: not cancelled by a pre-emption, no fault waiting. -/
def Op.running (o : Op) : Bool := !o.away && o.fault.isNone

/-- The trap that an operation's translation meets: a half of a sector, an SLD's word, a collective's buffers. -/
def State.opTrap (s : State) (o : Op) (x : Block) (i half : Nat) : Option Trap :=
  match o.kind with
  | .sld a .. =>
    if s.subs.any fun u => u.id = o.id then none
    else match s.locate x (s.opSlot o) a .read with | .error t => some t | .ok _ => none
  | .coll .. => match s.collLocs o x with | .error t => some t | .ok _ => none
  | _ =>
    if o.kind.count ≤ i || o.landed.contains i || (half = 1 && (o.sectorData i).isNone) then none
    else s.sectorTrap o x i (half = 1)

/-- The first of some addresses whose place is a lender's. -/
def lenderAt (as : List DWord) (ls : List Loc) : Option Trap :=
  ((as.zip ls).find? fun p => match p.2 with | .lender _ _ => true | _ => false).map fun p => { cause := Cause.leaseRevoked, tval := p.1 }

/-- The lender refuses a sector of a copy, a probe of a KVL, or a buffer of a collective (R374, R376, R384). -/
def State.opRefused (s : State) (o : Op) (x : Block) (i half : Nat) : Option Trap :=
  match o.kind, s.collLocs o x with
  | .coll _ _ _ _ src dst .., .ok (ls, ld) => (lenderAt (urun src ls.length) ls).or (lenderAt (urun dst ld.length) ld)
  | .coll .., .error _ => none
  | _, _ =>
  if o.kind.count ≤ i || o.landed.contains i then none
  else (o.halfAddrs x i (half = 1)).findSome? fun a => match s.locate x (s.opSlot o) a (if half = 1 then .write else .read) with
    | .ok (.lender _ _) => some { cause := Cause.leaseRevoked, tval := a }
    | _ => none

/-- COPY_FAULT: operation, sector and half whose translation fails; with a fourth number, the sector that the lender refuses. The sectors in
flight that can land do so first (R209). -/
def execCopyFault (s : State) : Host.Outcome State Fault Refusal :=
  match s.input with
  | .nat4 id i half _ =>
    match s.op? id with
    | none => .next s
    | some o =>
      match s.block? o.b with
      | none => .next s
      | some x =>
        match s.opRefused o x i half with
        | some t => .next (if o.running && !s.landing o x (fun j => j = i || (s.opRefused o x j 1).isSome || ((o.sectorData j).isNone && (s.opRefused o x j 0).isSome)) then
            s.copyFault o x t else s)
        | none => .next s
  | .nat3 id i half =>
    match s.op? id with
    | none => .next s
    | some o =>
      match s.block? o.b with
      | none => .next s
      | some x =>
        if !o.running then .next s
        else match s.opTrap o x i half with
        | some t =>
          if !copyFaultCause t.cause then .next (s.strike x o.g t)
          else if s.landing o x fun _ => false then .next s
          else .next (s.copyFault o x t)
        | none => .next s
  | _ => .next s

end Sys2Proof.Machine
end

