-- ==== Sys2Proof/Machine/Exit.lean ====
section
/-! DEFINITION. EXIT (R177), with what the end of lanes sets free: barriers (R275, R276), signatures (R310) and the implicit USUBs of
a block whose gangs have all exited (R290). -/

namespace Sys2Proof.Machine

/-- Every gang of a block has exited (R58). -/
def Block.exited (x : Block) : Bool := x.gangs.all fun y => y.live = 0

/-- The bases of a block's subscriptions that are still open, those on their way to a home included (R290). -/
def State.openBases (s : State) (b : Nat) : List Nat :=
  (s.subs.filterMap fun u => if u.state = .live then u.base? b else none)
    ++ s.ops.filterMap fun o => match o.kind with
      | .sld _ _ _ _ base => if o.b = b && !(s.subs.any fun u => u.id = o.id) then some base else none
      | _ => none

/-- The implicit USUBs of a block whose gangs have all exited (R290). -/
def State.implicitUsubs (s : State) (b g : Nat) : State :=
  match s.block? b with
  | none => s
  | some x => if x.exited then (s.openBases b).foldl (fun z base => z.usub b g 0 base implicitCompl) s else s

/-- The cluster barrier of a block's unit tested, if it has one. -/
def State.testUnit (s : State) (x : Block) : State := match x.unit with | some u => s.testCbar u 2 | none => s

/-- What follows when lanes of a gang have exited. -/
def State.afterExit (s : State) (x : Block) (g : Nat) : State :=
  ((((s.testCvs x.id g).modBlock x.id Block.testBars).testUnit x).implicitUsubs x.id g).settle

def execExit (o : X0) (s : State) : Host.Outcome State Fault Refusal :=
  issueWord { cls := 4, stall := o.st, transfer := true }
    (fun c s =>
      .done ((s.modGang c.b c.g fun y => y.exitLanes c.m (c.x.lrec.handler.setWidth 48)).afterExit c.x c.g) false) s

end Sys2Proof.Machine
end

