-- ==== Sys2Proof/Machine/Enqr.lean ====
section
/-! DEFINITION. ENQR (R183): the question to the front end, the record read and sent, and its acceptance (R26). -/

namespace Sys2Proof.Machine

/-- The entry that has armed a node id of a context on a die (R26). -/
def State.nodeEntry? (s : State) (d : Die) (ctx n : Nat) : Option (Entry × Node) :=
  s.entries.findSome? fun e => match e.node with
    | some nd => if e.die = d && e.ctx = ctx && nd.nid = n && e.fin.isNone then some (e, nd) else none
    | none => none

/-- Records in a node's gather buffer: those held, and those of launched blocks that are not placed yet (R17, R26). -/
def Node.buffered (nd : Node) : Nat := nd.held.length + (nd.launched.map fun p => p.2.length).foldl (· + ·) 0

/-- What the front end answers: whether the node is armed and not closed, and its RECSZ. -/
def State.nodeAnswer (s : State) (d : Die) (ctx n : Nat) : Bool × Nat :=
  match s.nodeEntry? d ctx n with
  | some (e, nd) => (decide (nd.producers ≠ 0), e.lrec.recsz)
  | none => (false, 0)

/-- The checks of ENQR before its question, in its listed order. -/
def enqrCheck (s : State) (x : Block) (a b d : Word) : Option Trap :=
  firstTrap [s.illIf (nbits a.toNat 31 17 ≠ 0 || nbits d.toNat 31 6 ≠ 0 || x.lrec.tags ≤ nbits d.toNat 5 0),
    alignCheck (b.setWidth 64) 16,
    (if (x.tag (nbits d.toNat 5 0)).busy then some { cause := Cause.tagbusy, tval := BitVec.ofNat 64 (nbits d.toNat 5 0) } else none)]

/-- The effect of ENQR once the front end has answered. -/
def enqrAnswered (c : Ctx) (a b rel compl : Word) (open_ : Bool) (recsz : Nat) (s : State) : Eff :=
  let s0 := s.modGang c.b c.g fun y => { y with enqr := none }
  if open_ then
    if c.x.lrec.localB < b.toNat + recsz then .trap { cause := Cause.localBounds, tval := b.setWidth 64 }
    else if c.y.localBusy c.b b.toNat recsz then .hold
    else match s0.openOp c (.enqr (nbits a.toNat 15 0) (a.getLsbD 16) rel.toNat (c.x.mem.read b.toNat recsz)) compl true [] [] 0 with
      | some s1 => .done s1 true
      | none => .hold
  else .done (((s0.markTag c.x compl).complete c.x compl 0 stFault 0 none)).settle true

def execEnqr (o : X4) (s : State) : Host.Outcome State Fault Refusal :=
  issueWord { cls := 4, stall := o.st, sideEff := true, reads := [.s o.a.toNat, .s o.b.toNat, .s o.c.toNat, .s o.d.toNat] }
    (fun c s =>
      let a := c.y.getS o.a.toNat
      let b := c.y.getS o.b.toNat
      let d := c.y.getS o.d.toNat
      let n := nbits a.toNat 15 0
      match enqrCheck s c.x a b d with
      | some t => .trap t
      | none =>
        match c.y.enqr with
        | some (m, some (op, sz)) =>
          if m = n then enqrAnswered c a b (c.y.getS o.c.toNat) d op sz s
          else .asked (s.modGang c.b c.g fun y => { y with enqr := some (n, none) })
        | _ => .asked (s.modGang c.b c.g fun y => { y with enqr := some (n, none) })) s

/-- ENQR_NODE_ANSWER: block, gang. -/
def execEnqrNodeAnswer (s : State) : Host.Outcome State Fault Refusal :=
  match s.input with
  | .nat2 b g =>
    match s.gang? b g with
    | some (x, y) => match y.enqr with
      | some (n, none) => .next (s.setGang b g { y with enqr := some (n, some (s.nodeAnswer x.die x.ctx n)) })
      | _ => .next s
    | none => .next s
  | _ => .next s

/-- The deadline of a record at its acceptance (R183): relative, or the issuing entry's; a background issuer's has none. -/
def State.recordDeadline (s : State) (x : Block) (rel : Nat) : Option Nat :=
  if rel ≠ 0 then some (s.fcyc[x.die] + rel) else (s.entry? x.entry).bind (·.deadline)

/-- The next place of a node's gather buffer of `cap` records, from the one after the last taken on, that no record held or of a block not yet
placed lies in: blocks are placed by deadline, so places become free out of order. -/
def Node.freePlace (nd : Node) (cap : Nat) : Nat :=
  let used : Nat → Bool := fun p => nd.held.any (·.place = p) || nd.launched.any fun b => b.2.any (·.place = p)
  (((List.range cap).map fun i => (nd.next + i) % cap).find? fun p => !used p).getD 0

/-- A record enters the gather buffer, in the context's tun allocation. -/
def State.gather (s : State) (x : Block) (e : Entry) (nd : Node) (close : Bool) (rel : Nat) (data : List Byte) : State :=
  let place := nd.freePlace e.lrec.gcap
  let at_ := s.tbase x.ctx x.die + e.lrec.gbuf + e.lrec.recsz * place
  let h : Held := { place := place, at_ := s.fcyc[x.die], deadline := s.recordDeadline x rel }
  let nd1 : Node := { nd with held := nd.held ++ [h], next := place + 1, producers := if close then nd.producers - 1 else nd.producers }
  (s.performWrite 0 ((List.range data.length).map fun i => .tun x.die (at_ + i)) data none).setEntry { e with node := some nd1 }

/-- ENQR_ACCEPT: operation. The front end takes the record while the buffer holds fewer than GCAP; a node that has closed or is no
longer armed drops it, with status FAULT. -/
def execEnqrAccept (s : State) : Host.Outcome State Fault Refusal :=
  match s.input with
  | .nat id =>
    match s.op? id with
    | none => .next s
    | some o =>
      match o.kind, s.block? o.b with
      | .enqr n close rel data, some x =>
        match s.nodeEntry? x.die x.ctx n with
        | none => .next (s.endOp o stFault 0 none)
        | some (e, nd) =>
          if nd.producers = 0 then .next (s.endOp o stFault 0 none)
          else if e.lrec.gcap ≤ nd.buffered then .next s
          else .next ((s.gather x e nd close rel data).endOp o stOk 0 none)
      | _, _ => .next s
  | _ => .next s

end Sys2Proof.Machine
end

