-- ==== Sys2Proof/Machine/Records.lean ====
section
/-! DEFINITION. Launch records, levels, binding descriptors and process-group tables: their fields and their checks (R8 to R23), and
how the blocks of a launch are numbered and split over the dies (R18, R39). -/

namespace Sys2Proof.Machine

/-! ### The launch record (R9, R10) -/

/-- A launch record from its 256 bytes. -/
def LaunchRec.of (d : List Byte) : LaunchRec :=
  { nlev := dfield d 2 1, flags := BitVec.ofNat 8 (dfield d 3 1), entry := BitVec.ofNat 64 (dfield d 8 8),
    handler := BitVec.ofNat 64 (dfield d 0x10 8), param := BitVec.ofNat 64 (dfield d 0x18 8),
    bindtab := BitVec.ofNat 64 (dfield d 0x20 8), pgtab := BitVec.ofNat 64 (dfield d 0x28 8), deadline := dfield d 0x30 5,
    budi := dfield d 0x38 4, budm := dfield d 0x3C 4, buda := dfield d 0x40 4, policy := dfield d 0x44 1, nbind := dfield d 0x46 2,
    gangs := dfield d 0x48 1, ztiles := dfield d 0x49 1, tags := dfield d 0x4A 1, gregs := dfield d 0x4B 1, localB := dfield d 0x4C 4,
    spill := dfield d 0x50 4, seedb := BitVec.ofNat 32 (dfield d 0x54 4), recsz := dfield d 0x58 2, gather := dfield d 0x5A 2,
    timeout := dfield d 0x5C 4, margin := dfield d 0x60 4, gbuf := dfield d 0x64 4, gcap := dfield d 0x68 4,
    levels := (List.range 8).map fun i => BitVec.ofNat 64 (dfield d (0x80 + 8 * i) 8) }

/-- FLAGS (R10). -/
def LaunchRec.fSys (r : LaunchRec) : Bool := r.flags.getLsbD 0
def LaunchRec.fParam (r : LaunchRec) : Bool := r.flags.getLsbD 1
def LaunchRec.fNode (r : LaunchRec) : Bool := r.flags.getLsbD 2

/-- The fields of a level entry (R13). -/
def LaunchRec.level (r : LaunchRec) (i : Nat) : DWord := (r.levels[i]?).getD 0
def lvCount (l : DWord) : Nat := nbits l.toNat 31 0
def lvDomain (l : DWord) : Nat := nbits l.toNat 34 32
def lvScope (l : DWord) : Nat := nbits l.toNat 36 35
def lvCores (l : DWord) : Bool := nbits l.toNat 37 37 = 1

/-- The minimum scope of a domain (R15). -/
def minScope (domain : Nat) : Nat := match domain with | 3 => 1 | 4 => 2 | 5 => 2 | 6 => 3 | _ => 0

/-- A level entry that R13, R15 or R16 rejects. -/
def levelBad (l : DWord) : Bool :=
  let d := lvDomain l
  nbits l.toNat 63 38 ≠ 0 || d = 7 || lvCount l = 0 || lvScope l < minScope d
    || (if d = 3 then !lvCores l else lvCores l && d ≠ 4 && d ≠ 5)

/-- The levels that a record has. -/
def LaunchRec.lvls (r : LaunchRec) : List DWord := r.levels.take r.nlev

/-- The process-group level is at the top (R14). -/
def LaunchRec.hasGroup (r : LaunchRec) : Bool := lvDomain (r.level (r.nlev - 1)) = 6

/-- Levels that R14 rejects. -/
def LaunchRec.levelsBad (r : LaunchRec) : Bool :=
  let dom : Nat → Nat := fun i => lvDomain (r.level i)
  r.nlev < 3 || 8 < r.nlev || r.lvls.any levelBad || (r.levels.drop r.nlev).any (· ≠ 0)
    || dom 0 ≠ 0 || lvCount (r.level 0) ≠ 32 || dom 1 ≠ 1 || lvCount (r.level 1) ≠ r.gangs || dom 2 ≠ 2
    || ((List.range r.nlev).any fun i => 3 ≤ i && (dom i < 3 || dom i < dom (i - 1) || (dom i = 3 && i ≠ 3)
        || (dom i = 6 && i + 1 ≠ r.nlev)))
    || (3 < r.nlev && dom 3 = 3 && 4 < lvCount (r.level 2))
    || (r.hasGroup != (r.pgtab ≠ 0))

/-- A field that must hold an aligned VA and does not: a value at or above 2^48 is no VA, and is rejected too (DESIGN CHOICE, log 34). -/
def vaBad (a : DWord) (al : Nat) : Bool := 2 ^ 48 ≤ a.toNat || a.toNat % al ≠ 0

/-- A record that R8 to R16 reject, and one with NBIND non-zero and no BINDTAB (DESIGN CHOICE, log 35), given its bytes, whether its queue is privileged, whether a NODE entry names it, and TSIZE. -/
def recordBad (d : List Byte) (priv node : Bool) (tsize : Nat) : Bool :=
  let r := LaunchRec.of d
  dfield d 0 2 ≠ 1 || nbits r.flags.toNat 7 3 ≠ 0 || dfield d 4 4 ≠ 0 || dfield d 0x35 3 ≠ 0 || dfield d 0x45 1 ≠ 0
    || dfield d 0x6C 20 ≠ 0 || dfield d 0xC0 64 ≠ 0
    || (r.fSys && !priv) || (r.fNode != node)
    || vaBad r.entry 4 || vaBad r.handler 4 || (r.fParam && vaBad r.param 16) || vaBad r.pgtab 64
    || r.policy = 0 || 3 < r.policy || 256 < r.nbind || (r.nbind ≠ 0 && (r.bindtab = 0 || vaBad r.bindtab 1))
    || r.gangs = 0 || 32 < r.gangs || 32 < r.ztiles || 64 < r.tags || 16 < r.gregs
    || r.localB % 256 ≠ 0 || r.localB < 256 || 524288 < r.localB || r.spill % 32 ≠ 0 || 65536 < r.spill
    || r.gbuf % 256 ≠ 0
    || (if node then r.recsz % 16 ≠ 0 || r.recsz < 16 || 256 < r.recsz || r.gather = 0 || 1024 < r.gather || r.gcap < 2 * r.gather
          || tsize < r.gbuf + r.recsz * r.gcap
        else r.recsz ≠ 0 || r.gather ≠ 0 || r.gcap ≠ 0)
    || r.localB < 256 + r.recsz * r.gather + r.gangs * r.spill
    || r.levelsBad

/-! ### Process groups (R20 to R23) -/

/-- The members of a table whose bytes follow its header. -/
def pgMember (t : List Byte) (k : Nat) : List Byte := (t.drop (64 + 64 * k)).take 64

/-- A route that R21 and R22 reject; with one member, every route names port 0xF. -/
def routeBad (n : Nat) (w : Nat) : Bool := (12 ≤ w % 16 && w % 16 ≤ 14) || nbits w 15 4 ≠ 0 || (n = 1 && w % 16 ≠ 15)

/-- The routes of a member entry: NEXT, PREV, PARENT and the children. -/
def pgRoutes (m : List Byte) : List Nat := (List.range 11).map fun i => dfield m (0x10 + 4 * i) 4

/-- The place of a chip in a group (R22), or none where the table is rejected. `total` is the count of the level below the
process-group level, `n` that of the process-group level. -/
def groupOf (t : List Byte) (devid : DWord) (total n : Nat) : Option Group :=
  let cnt := dfield t 8 4
  let f := dfield t 2 1
  let mine := (List.range cnt).filter fun k => dfield (pgMember t k) 0 8 = devid.toNat
  match mine with
  | [k] =>
    let m := pgMember t k
    let sb := dfield m 8 4
    let sc := dfield m 0xC 4
    if dfield t 0 2 ≠ 1 || f < 2 || 8 < f || dfield t 3 5 ≠ 0 || cnt = 0 || 4096 < cnt || cnt ≠ n || dfield t 0x10 48 ≠ 0
        || ((List.range cnt).any fun j => dfield (pgMember t j) 0x3C 4 ≠ 0)
        || sc = 0 || total < sb + sc || (pgRoutes m).any (routeBad cnt) then none
    else some { n := cnt, fanout := f, ident := dfield t 0xC 4, rank := k, sbase := sb, scount := sc,
                routes := (pgRoutes m).map (BitVec.ofNat 32) }
  | _ => none

/-! ### Blocks and their numbers (R18, R22, R39) -/

/-- A product of counts. -/
def prod (l : List Nat) : Nat := l.foldl (· * ·) 1

/-- The counts of levels 2 and up that one chip runs: the process-group level is left out, and the level below it has the chip's
share (R14, R22). -/
def chipCounts (r : LaunchRec) (g : Option Group) : List Nat :=
  let c := (r.lvls.drop 2).map lvCount
  match g with
  | some p => (c.dropLast).dropLast ++ [p.scount]
  | none => c

/-- The global block index of the chip's first block (R18). -/
def firstBlock (r : LaunchRec) (g : Option Group) : Nat :=
  match g with
  | some p => p.sbase * prod ((chipCounts r g).dropLast)
  | none => 0

/-- The lowest device-domain level, over which a launch is split (R39). -/
def LaunchRec.deviceLevel (r : LaunchRec) : Option Nat := (List.range r.nlev).find? fun i => lvDomain (r.level i) = 5

/-- How a split launch divides: the blocks of one instance of the level below the device level, the count of that level, and the
instances of the device level. -/
def splitShape (r : LaunchRec) (g : Option Group) : Option (Nat × Nat × Nat) :=
  let c := chipCounts r g;
  r.deviceLevel.map fun l => (prod (c.take (l - 3)), c.getD (l - 3) 1, prod (c.drop (l - 2)))

/-- Instances that the home die runs of `cnt`: the first half, rounded up. -/
def homeShare (cnt : Nat) : Nat := (cnt + 1) / 2

/-- Blocks of a launch on one chip, and those of the home half and of the other half. -/
def totalBlocks (r : LaunchRec) (g : Option Group) : Nat := prod (chipCounts r g)

def homeBlocks (r : LaunchRec) (g : Option Group) : Nat :=
  match splitShape r g with
  | some (per, cnt, m) => m * homeShare cnt * per
  | none => totalBlocks r g

/-- The global block index of an entry's `k`-th block on its die (R18, R39). -/
def Entry.gixOf (e : Entry) (k : Nat) : Nat :=
  match e.half, splitShape e.lrec e.group with
  | .whole, _ | _, none => e.first + k
  | .peer _, some (per, cnt, _) =>
    let n := (cnt - homeShare cnt) * per
    e.first + k / n * (cnt * per) + homeShare cnt * per + k % n
  | _, some (per, cnt, _) =>
    let n := homeShare cnt * per
    e.first + k / n * (cnt * per) + k % n

/-- Whether a record has a level of instances above the block whose index is S3 (R18). -/
def LaunchRec.hasLevel3 (r : LaunchRec) : Bool := 3 < r.nlev && lvDomain (r.level 3) ≠ 6

/-- S2 and S3 of a global block index (R18). -/
def placeOf (r : LaunchRec) (gix : Nat) : Nat × Nat :=
  let c2 := lvCount (r.level 2)
  if r.hasLevel3 then (gix % c2, gix / c2) else (gix, 0)

/-- The scope of the quire-domain level, if the record has one (R15). -/
def LaunchRec.quireScope (r : LaunchRec) : Option Nat := if lvDomain (r.level 3) = 3 && 3 < r.nlev then some (lvScope (r.level 3)) else none

/-- The highest level whose instances are co-resident (R16). -/
def LaunchRec.coLevel (r : LaunchRec) : Option Nat := ((List.range r.nlev).filter fun i => lvCores (r.level i)).getLast?

/-- Blocks that are placed together on one die: those of one co-resident instance, as far as the die runs it; else one. -/
def coSize (r : LaunchRec) (g : Option Group) (half : Half) : Nat :=
  match r.coLevel with
  | none => 1
  | some l =>
    let c := chipCounts r g
    let c1 := (match r.deviceLevel with
      | some dl => if dl ≤ l then c.modify (dl - 3) (fun n => match half with | .peer _ => n - homeShare n | _ => homeShare n) else c
      | none => c)
    prod (c1.take (l - 2))

/-! ### What a core offers (R53) -/

/-- Blocks of a record that one core holds: at most 64, one gang slot each, and a resource that the record does not ask for limits
nothing. -/
def LaunchRec.perCore (r : LaunchRec) : Nat :=
  let q : Nat → Nat → Nat := fun cap n => if n = 0 then 64 else cap / n
  min (min (64 / max 1 r.gangs) (524288 / max 1 r.localB)) (min (q 32 r.ztiles) (min (q 64 r.tags) (q 16 r.gregs)))

/-- A core of a die that is quarantined (R387). -/
def State.coreGone (s : State) (d : Die) (core : Nat) : Bool := s.quarantined.contains (d.val * 96 + core)

/-- Quires of a die whose first `n` members are in use (R387). -/
def State.quiresFor (s : State) (d : Die) (n : Nat) : Nat :=
  ((List.range 24).filter fun q => (List.range n).all fun m => !s.coreGone d (4 * q + m)).length

/-- CORESIDENT (R16): an instance needs more than its domain holds. -/
def State.coresidentBad (s : State) (d : Die) (r : LaunchRec) (g : Option Group) (half : Half) : Bool :=
  match r.coLevel with
  | none => false
  | some _ =>
    let n := coSize r g half
    if r.quireScope.isSome then
      let c2 := lvCount (r.level 2)
      s.quiresFor d c2 * r.perCore < (n + c2 - 1) / c2
    else ((List.range 96).filter fun c => !s.coreGone d c).length * r.perCore < n

/-! ### Admission (R36, R37) -/

/-- Cap_c (R37). -/
def classCap (c : Nat) : Nat := if c = 0 then 768 else 96

/-- par_c for B blocks (R37). -/
def classPar (r : LaunchRec) (blocks c : Nat) : Nat := if c = 0 then min 768 (blocks * min r.gangs 8) else min 96 blocks

/-- The entries that a front end holds admitted: not those finished, nor the home half of a split launch that failed its own test
(R39). A home half that passed its test counts while the peer's answer is awaited (DESIGN CHOICE, log 133). -/
def State.admittedOn (s : State) (d : Die) : List Entry :=
  s.entries.filter fun e => e.die = d && e.fin.isNone && (match e.half with | .asking c _ _ => c = 0 | _ => true)

/-- The entries of a die in the deadline set but one, with their deadlines (R36). -/
def State.deadlineSet (s : State) (d : Die) (but : Option Nat) : List (Nat × List (Option Nat)) :=
  (s.admittedOn d).filterMap fun e => if some e.id = but then none else e.deadline.map fun t => (t, e.rem)

/-- The remaining budget of a class. -/
def remOf (rem : List (Option Nat)) (c : Nat) : Nat := ((rem[c]?).getD none).getD 0

/-- Inequality 1 of R36 in a class, over a set that includes the entry tested. -/
def demandOk (set : List (Nat × List (Option Nat))) (now rsv c : Nat) : Bool :=
  set.all fun i => i.1 ≤ now ||
    decide (256 * ((set.filter fun j => j.1 ≤ i.1).map fun j => remOf j.2 c).foldl (· + ·) 0 ≤ (256 - rsv) * classCap c * (i.1 - now))

/-- Orders 7 to 10 of R38 for an entry with deadline `dl` and budgets `rem`, among the others of its die. -/
def deadlineCode (others : List (Nat × List (Option Nat))) (r : LaunchRec) (blocks now rsv dl : Nat) (rem : List (Option Nat)) : Nat :=
  if (List.range 3).any fun c => decide ((classPar r blocks c : Int) * ((dl : Int) - now) < remOf rem c) then 8
  else
    let set := others ++ [(dl, rem)]
    if !demandOk set now rsv 0 then 1 else if !demandOk set now rsv 1 then 2 else if !demandOk set now rsv 2 then 3 else 0

/-- Blocks of an entry that count in par_c: for a node, ⌊GCAP / GATHER⌋ (R37). -/
def parBlocks (r : LaunchRec) (node : Bool) (blocks : Nat) : Nat := if node then r.gcap / max 1 r.gather else blocks

/-! ### The save pool (R55, R72, R349) -/

/-- Bytes of an image. -/
def imageSize (r : LaunchRec) : Nat := 256 + 12288 * r.gangs + r.localB + 16384 * r.ztiles + 98304

/-- What is taken of a pool: the areas that admitted entries reserved, images and logs, by their offsets and sizes. -/
def State.images (s : State) (ctx : Nat) (d : Die) : List (Nat × Nat) :=
  (s.entries.flatMap fun e => if e.ctx = ctx && e.die = d && e.fin.isNone then e.areas.map fun o => (o, imageSize e.lrec) else [])
    ++ s.blocks.flatMap fun x => if x.ctx = ctx && x.die = d then
        (x.saved.map fun o => (o, imageSize x.lrec)).toList ++ x.logRoom.toList else []

/-- Bytes of a pool: its tun part and the main memory that backs it. -/
def State.poolSize (s : State) (ctx : Nat) (d : Die) : Nat := s.poolField ctx d 8 4 + s.poolField ctx d 24 8

/-- The first room of `n` bytes in a pool of a size, beside what is taken. -/
def roomIn (used : List (Nat × Nat)) (size n : Nat) : Option Nat :=
  (0 :: used.map fun p => p.1 + p.2).find? fun o => o + n ≤ size && used.all fun p => o + n ≤ p.1 || p.1 + p.2 ≤ o

/-- The first room in a pool for `n` bytes. -/
def State.imageRoom (s : State) (ctx : Nat) (d : Die) (n : Nat) : Option Nat := roomIn (s.images ctx d) (s.poolSize ctx d) n

/-- Rooms of `n` bytes, at most `k` of them, while the pool has room. -/
def roomsIn (used : List (Nat × Nat)) (size n k : Nat) : List Nat :=
  match k with
  | 0 => []
  | j + 1 => match roomIn used size n with
    | none => []
    | some o => o :: roomsIn ((o, n) :: used) size n j

/-- An admitted entry with the save areas that its admission reserves on its die (R55, R349): one for each block that can run there at
once, 6,144 at most (96 cores of 64 blocks), as far as the pool has room; for want of room nothing is refused (DESIGN CHOICE, log 38). -/
def State.withAreas (s : State) (e : Entry) : Entry :=
  let n := min 6144 (parBlocks e.lrec (e.kind = .node) e.count)
  { e with areas := roomsIn (s.images e.ctx e.die) (s.poolSize e.ctx e.die) (imageSize e.lrec) n }

end Sys2Proof.Machine
end

