-- ==== Sys2Proof/Machine/Walks.lean ====
section
/-! DEFINITION. What the front ends do to memory (R8, R30 to R34, R79, R84, R396): their walks, reads and writes, their own
subscriptions, queue faults and notices. -/

namespace Sys2Proof.Machine

/-! ### Front-end walks (R84, R86) -/

/-- What a front-end walk or read comes to. -/
inductive FeGet (α : Type) where
  | ok (v : α)
  /-- It fails with a cause of R78, XLATE_NP for a null root. -/
  | fail (cause : BitVec 8)
  /-- The pin cannot be taken: the walk is retried (R86). -/
  | full
  /-- The bytes cannot be read: the context is struck (R345). -/
  | bad (t : Trap)

/-- The causes that no context survives (R345). -/
def unrecoverable (c : BitVec 8) : Bool := c = Cause.integrity || c = Cause.eccUncorr || c = Cause.pagePoison

/-- A front-end walk to a unified address of the main or tun form, under pin-current of a space. A write to a line whose counter would wrap
fails as an integrity failure (R369). -/
def State.feLoc (s : State) (d : Die) (ctx space : Nat) (a : DWord) (acc : Access) : FeGet Loc :=
  match uform a with
  | some .tun => .ok (.tun d (s.tbase ctx d + uoff a))
  | some .main =>
    match s.pinCurrent space with
    | .null => .fail Cause.xlateNp
    | .full => .full
    | .slot n _ =>
      match s.translate d none (s.space space).key n a.toNat acc with
      | .ok l => if acc = .write && s.wrapped l then .bad { cause := Cause.integrity, tval := a, at_ := some l } else .ok l
      | .error t => if unrecoverable t.cause then .bad t else .fail t.cause
  | _ => .fail Cause.address

/-- `n` bytes read within one 64-byte unit (R8). -/
def State.feRead (s : State) (d : Die) (ctx space : Nat) (a : DWord) (n : Nat) : FeGet (List Byte) :=
  match s.feLoc d ctx space a .read with
  | .ok l =>
    match s.lineCheck (s.space space).key l a with
    | some t => .bad t
    | none => .ok (s.readLoc l n)
  | .fail c => .fail c
  | .full => .full
  | .bad t => .bad t

/-- `n` consecutive 64-byte units. -/
def State.feUnits (s : State) (d : Die) (ctx space : Nat) (a : DWord) (n : Nat) : FeGet (List Byte) :=
  match n with
  | 0 => .ok []
  | k + 1 =>
    match s.feRead d ctx space a 64 with
    | .ok bs => match s.feUnits d ctx space (uadd a 64) k with
      | .ok r => .ok (bs ++ r)
      | e => e
    | e => e

/-- A front-end write: one event at its site. -/
def State.fePut (s : State) (space : Nat) (l : Loc) (bs : List Byte) : State :=
  s.performWrite (s.space space).key (l.run bs.length) bs none

/-! ### Contexts struck by an error (R345) -/

/-- A context struck outside any block: the discard is due, and a KIND 1 record with ROUTE 3 is posted. -/
def State.strikeDue (s : State) (d : Die) (ctx : Nat) (t : Trap) : State :=
  let tr : TrapRec := { tcause := tcauseOf false 3 false false t.cause, tpc := 0, treg := 0, trec := 0, tmask := 0, tsib := 0, tpar := 0,
                        tval := t.tval }
  if s.struck ctx then s else { s with
    discards := s.discards ++ [(ctx, t.cause, t.tval)]
    trapQ := s.trapQ ++ [{ die := d, ctx := ctx, kind := 1, block := 0, gang := 0, n := s.nextId, tr := tr, compl := 0 }]
    nextId := s.nextId + 1 }

/-- A context struck by an error that an access outside any block found. -/
def State.strikeCtx (s : State) (d : Die) (ctx : Nat) (t : Trap) : State := (s.noteError d t).strikeDue d ctx t

/-! ### Queues and their faults (R29, R30, R386) -/

/-- The front end of a die changed. -/
def State.modFe (s : State) (d : Die) (f : FrontEnd → FrontEnd) : State := { s with fe := s.fe.set d (f s.fe[d]) }

/-- A mapped queue. -/
def State.queue? (s : State) (d : Die) (q : Nat) : Option Queue := assocGet s.fe[d].queues q

/-- A mapped queue replaced. -/
def State.setQueue (s : State) (d : Die) (q : Nat) (x : Queue) : State :=
  s.modFe d fun f => { f with queues := f.queues.map fun p => if p.1 = q then (q, x) else p }

/-- The queue of a context's queue table, where it is mapped. -/
def State.queueOf (s : State) (ctx tab : Nat) : Option (Die × Nat × Queue) :=
  ([0, 1] : List Die).findSome? fun d =>
    (s.fe[d].queues.find? fun p => p.2.ctx = ctx && p.2.tab = tab).map fun p => (d, p.1, p.2)

/-- The descriptor of a context's queue in its table (R29, R72). -/
def State.descAt (s : State) (ctx tab : Nat) : Nat := s.ctxField ctx 8 8 + 64 * tab

/-- QFLAGS of an unmapped descriptor. -/
def State.descFlags (s : State) (ctx tab : Nat) : Byte := ((s.deviceRead (s.descAt ctx tab + 0x1D) 1).headD 0)

/-- QFLAGS of an unmapped descriptor changed. -/
def State.setDescFlags (s : State) (ctx tab : Nat) (f : Byte) : State := s.deviceWrite (s.descAt ctx tab + 0x1D) [f]

/-- A notice of KIND 4 or 5: queue slot, context and cause (R386). -/
def queueNotice (kind q ctx cause : Nat) : List Byte := natLe 2 kind ++ natLe 2 q ++ natLe 2 ctx ++ natLe 2 cause ++ natLe 8 0

/-- FAULT is set on a queue and a notice posted, whether or not it was set already: each failed walk of a SIGNAL or WAITV posts its own
(R396). -/
def State.postFault (s : State) (d : Die) (q : Nat) (cause : BitVec 8) : State :=
  match s.queue? d q with
  | some x => (s.setQueue d q { x with fault := true }).noticeOn d (queueNotice 4 q x.ctx cause.toNat)
  | none => s

/-- A queue is faulted by its index, its ring or its read index (R30, R32, R34), with its notice; one that is faulted already posts no second
(DEDUCED, log 99). -/
def State.faultQueue (s : State) (d : Die) (q : Nat) (cause : BitVec 8) : State :=
  if (s.queue? d q).any (·.fault) then s else s.postFault d q cause

/-- The queue of an entry is faulted, mapped or not, with a notice each time (R396). -/
def State.faultQueueOf (s : State) (e : Entry) (cause : BitVec 8) : State :=
  match s.queueOf e.ctx e.tab with
  | some (d, q, _) => s.postFault d q cause
  | none => (s.setDescFlags e.ctx e.tab (s.descFlags e.ctx e.tab ||| 0x10)).noticeOn e.die (queueNotice 4 e.q e.ctx cause.toNat)

/-- A walk made for a queue met bytes that cannot be read: the context is struck (R345). PAGE_POISON is one of R78's causes as well, and
faults the queue as those do (DEDUCED, log 129). -/
def State.badWalk (s : State) (d : Die) (q ctx : Nat) (t : Trap) : State :=
  (if t.cause = Cause.pagePoison then s.faultQueue d q t.cause else s).strikeCtx d ctx t

/-! ### The front end's subscriptions (R30, R33, R340) -/

/-- A LATEST subscription of the front end on a word, with its snapshot; on a frame with a moved mark, a closed and moved one (R94); on a
word that cannot be read, a poisoned close (R291). -/
def State.feSubscribe (s : State) (d : Die) (ctx key : Nat) (who : SubWho) (l : Loc) (size : Nat) : State :=
  let u : Sub := { id := s.nextId, who := who, ctx := ctx, die := d, word := l, size := size, key := key, every := false, r := 0, state := .live,
                   credits := 0, due := 0, held := none, pend := [], count := 0, slot := none }
  let s1 := { s with nextId := s.nextId + 1 }
  if s.isMoved l then
    let p : Push := { sub := u.id, value := 0, seq := 0, valid := false, closed := true, moved := true, poison := false, overrun := false }
    { s1 with subs := s1.subs ++ [{ u with state := .closing, pend := [p] }] }
  else if s.unreadable key l then
    let s2 := s1.subscribe u
    (match s2.sub? u.id with | some v => s2.closePoison { v with pend := [] } | none => s2)
  else s1.subscribe u

/-- A subscription is removed without a closing push (R33, R290). -/
def State.dropSub (s : State) (u : Sub) : State :=
  let s1 := { s with subs := s.subs.filter fun v => v.id ≠ u.id }
  let s2 := (match u.slot with | some n => s1.unpin n | none => s1)
  if u.state = .live then s2.freeRecord u.word u.size else s2

/-- The oldest push of a subscription taken off. -/
def State.takePush (s : State) (u : Sub) : State := s.setSub { u with pend := u.pend.tail }

/-- Words that a subscription's home can serve: the tun and local HBM (R282). -/
def homeable (l : Loc) : Bool := match l with | .tun _ _ => true | .hbm _ => true | _ => false

/-- The front end subscribes to a word by a walk under pin-current; `full` if the pin cannot be taken. A word in a tier that homes no
subscription fails with ADDRESS: a WAITV's (DESIGN CHOICE, log 33) and a queue's write index (DESIGN CHOICE, log 155). -/
def State.feWatch (s : State) (d : Die) (ctx space : Nat) (who : SubWho) (a : DWord) (size : Nat) : FeGet State :=
  match s.feLoc d ctx space a .read with
  | .ok l => if homeable l then .ok (s.feSubscribe d ctx (s.space space).key who l size) else .fail Cause.address
  | .fail c => .fail c
  | .full => .full
  | .bad t => .bad t

end Sys2Proof.Machine
end

