-- ==== Sys2Proof/Machine/Queues.lean ====
section
/-! DEFINITION. Queues (R28 to R34): mapping and unmapping, the write index, the fetch of entries, and FECFG. -/

namespace Sys2Proof.Machine

/-! ### FECFG (R28) -/

/-- FECFG_WRITE: die, value. RSV values of 129 to 255 leave the field. -/
def execFecfgWrite (s : State) : Host.Outcome State Fault Refusal :=
  match s.input with
  | .nat2 d v =>
    .next (s.modFe (Fin.ofNat 2 d) fun f =>
      { f with hold := nbits v 32 32 = 1, rsv := if nbits v 7 0 ≤ 128 then nbits v 7 0 else f.rsv })
  | _ => .next s

/-! ### Mapping (R29, R30, R34) -/

/-- A queue from its descriptor's 64 bytes. -/
def Queue.of (d : List Byte) (tab : Nat) : Queue :=
  let fl := dfield d 0x1D 1
  { ring := dfield d 0 8, widxa := dfield d 8 8, ridxa := dfield d 0x10 8, ctx := dfield d 0x18 2, space := dfield d 0x1A 2,
    log2n := dfield d 0x1C 1, priv := nbits fl 0 0 = 1, wake := false, fault := nbits fl 4 4 = 1,
    sgen := BitVec.ofNat 32 (dfield d 0x20 4), fidx := BitVec.ofNat 32 (dfield d 0x24 4), pidx := BitVec.ofNat 32 (dfield d 0x28 4),
    ridx := BitVec.ofNat 32 (dfield d 0x2C 4), wopnd := BitVec.ofNat 64 (dfield d 0x30 8), waddr := BitVec.ofNat 64 (dfield d 0x38 8),
    tab := tab, widx := none, fetched := [], waiting := none, resub := false, leaving := false, woken := false }

/-- QFLAGS of a queue. -/
def Queue.flags (x : Queue) (mapped wake : Bool) : Byte :=
  BitVec.ofNat 8 ((if x.priv then 1 else 0) + (if mapped then 2 else 0) + (if wake then 4 else 0)
    + (if x.waiting.isSome then 8 else 0) + (if x.fault then 16 else 0))

/-- A mapped queue's descriptor (R29). -/
def Queue.desc (x : Queue) (mapped : Bool) : List Byte :=
  natLe 8 x.ring ++ natLe 8 x.widxa ++ natLe 8 x.ridxa ++ natLe 2 x.ctx ++ natLe 2 x.space ++ natLe 1 x.log2n ++ [x.flags mapped x.wake]
    ++ natLe 2 0 ++ natLe 4 x.sgen.toNat ++ natLe 4 x.fidx.toNat ++ natLe 4 x.pidx.toNat ++ natLe 4 x.ridx.toNat
    ++ natLe 8 x.wopnd.toNat ++ natLe 8 x.waddr.toNat

/-- The HW fields of a descriptor written back: QFLAGS, then FIDX to WADDR. -/
def State.putDesc (s : State) (x : Queue) (mapped wake : Bool) : State :=
  let at_ := s.descAt x.ctx x.tab
  let bs := natLe 4 x.fidx.toNat ++ natLe 4 x.pidx.toNat ++ natLe 4 x.ridx.toNat ++ natLe 8 x.wopnd.toNat ++ natLe 8 x.waddr.toNat
  (s.deviceWrite (at_ + 0x1D) [x.flags mapped wake]).deviceWrite (at_ + 0x24) bs

/-- The owner under which a queue's ring is bound to its object (R30): no entry has this number. -/
def ringOwner (ctx tab : Nat) : Nat := 2 ^ 64 + ctx * 2 ^ 16 + tab

/-- The ring is bound to the write-index word at system scope (R30). The binding is none of the table's 256, which launch records and
BIND install (R239, R266): it stands above them. -/
def State.bindRing (s : State) (x : Queue) : State :=
  { s with binds := s.binds ++ [(x.ctx, 256 + x.tab,
      { base := BitVec.ofNat 64 x.ring, len := 64 * 2 ^ x.log2n, scope := 3, obj := BitVec.ofNat 64 (x.widxa / 8 * 8),
        owner := ringOwner x.ctx x.tab })] }

/-- The waiting WAITV of a context's queue. -/
def State.waitEntry (s : State) (ctx tab : Nat) : Option Entry :=
  s.entries.find? fun e => e.ctx = ctx && e.tab = tab && e.kind = .waitv && e.fin.isNone

/-- The subscription on the write index of a queue now mapped: the one its descriptor kept, with the word as it stands, or a new
one by a walk. -/
def State.watchIndex (s : State) (d : Die) (q : Nat) (x : Queue) : State :=
  match s.subs.find? fun u => (match u.who with | .desc _ c t false => c = x.ctx && t = x.tab | _ => false) && u.state = .live with
  | some u => s.pushAgain { u with who := .queue d q, die := d }
  | none =>
    match s.feWatch d x.ctx x.space (.queue d q) (BitVec.ofNat 64 x.widxa) 4 with
    | .ok s1 => s1
    | .fail c => s.faultQueue d q c
    | .full => s.setQueue d q { x with resub := true }
    | .bad t => s.badWalk d q x.ctx t

/-- The subscription of a holding WAITV follows its queue, with the word as it stands. -/
def State.watchWaitv (s : State) (d : Die) (q : Nat) (x : Queue) : State :=
  match s.subs.find? fun u => (match u.who with | .desc _ c t true => c = x.ctx && t = x.tab | _ => false) with
  | some u =>
    let v : Sub := { u with who := .waitv d q, die := d }
    if u.state = .live then s.pushAgain v else s.setSub v
  | none => s

/-- A descriptor with a reserved bit set: QFLAGS[7:5] or the field at 0x1E (R4, R29). -/
def descReserved (d : List Byte) : Bool := nbits (dfield d 0x1D 1) 7 5 ≠ 0 || dfield d 0x1E 2 ≠ 0

/-- QUEUE_MAP: die, slot, context, index in its queue table. A descriptor that R29 does not allow is not mapped (DESIGN CHOICE, log 30);
of the context's own descriptor VALID alone is looked at (DESIGN CHOICE, log 137). A RING, WIDXA or RIDXA that is not aligned as R29 has it is
used as it stands (DESIGN CHOICE, log 168). A queue whose SGEN is out of date is faulted (R34). -/
def execQueueMap (s : State) : Host.Outcome State Fault Refusal :=
  match s.input with
  | .nat4 dn q ctx tab =>
    let d : Die := Fin.ofNat 2 dn
    let desc := s.deviceRead (s.descAt ctx tab) 64
    let x0 := Queue.of desc tab
    let valid := nbits (s.ctxField ctx 2 2) 0 0 = 1
    if 512 ≤ q || 1024 ≤ ctx || !valid || s.ctxField ctx 0x10 4 ≤ tab || x0.ctx ≠ ctx || 1024 ≤ x0.space || x0.log2n < 4 || 16 < x0.log2n
        || descReserved desc || (s.queue? d q).isSome || (s.queueOf ctx tab).isSome then .next s
    else
      let w := s.waitEntry ctx tab
      let x := { x0 with waiting := w.map (·.id) }
      let s1 := (s.modFe d fun f => { f with queues := f.queues ++ [(q, x)] }).putDesc x true false
      let s2 := (match w with | some e => s1.setEntry { e with die := d, q := q } | none => s1)
      let s3 := ((s2.bindRing x).watchIndex d q x).watchWaitv d q x
      .next (if x.sgen ≠ (s.space x.space).sgen then s3.faultQueue d q Cause.xlateNp else s3)
  | _ => .next s

/-- An entry of a queue whose STATUS is still to be written: a split launch whose answer is awaited (R39). -/
def State.undecided (s : State) (ctx tab : Nat) : Bool :=
  s.entries.any fun e => e.ctx = ctx && e.tab = tab && (match e.half with | .asking _ _ _ => true | _ => false)

/-- Whether an index received lies beyond another (R34), as 32-bit indices wrap. -/
def indexBeyond (w p : Word) : Bool := w ≠ p && decide ((w - p).toNat < 2 ^ 31)

/-- QUEUE_UNMAP: die, slot. Fetching stops; once no entry lies between presentation and its STATUS, in one step the descriptor goes back
to the table, the entries fetched and not presented are discarded, and the subscriptions are redirected (R34). -/
def execQueueUnmap (s : State) : Host.Outcome State Fault Refusal :=
  match s.input with
  | .nat2 dn q =>
    let d : Die := Fin.ofNat 2 dn
    match s.queue? d q with
    | none => .next s
    | some x =>
      if s.undecided x.ctx x.tab then .next (s.setQueue d q { x with leaving := true })
      else
        let x1 := { x with fidx := x.pidx, fetched := [] }
        let wake := x.woken || (match x.widx with | some w => indexBeyond w x.pidx | none => false)
        let s1 := { (s.putDesc x1 false wake) with
          subs := s.subs.map fun (u : Sub) => match u.who with
            | .queue d' q' => if d' = d && q' = q then { u with who := .desc d x.ctx x.tab false } else u
            | .waitv d' q' => if d' = d && q' = q then { u with who := .desc d x.ctx x.tab true } else u
            | _ => u
          binds := s.binds.filter fun e => e.2.2.owner ≠ ringOwner x.ctx x.tab }
        let s2 := s1.modFe d fun f => { f with queues := f.queues.filter fun p => p.1 ≠ q }
        .next (if wake then s2.noticeOn d (queueNotice 5 q x.ctx 0) else s2)
  | _ => .next s

/-! ### Indices (R30, R32) -/

/-- The read index is written to its word with a system-scope release; a failed write faults the queue. -/
def State.writeRidx (s : State) (d : Die) (q : Nat) : State :=
  match s.queue? d q with
  | none => s
  | some x =>
    match s.feLoc d x.ctx x.space (BitVec.ofNat 64 x.ridxa) .write with
    | .ok l => s.fePut x.space l (natLe 4 x.ridx.toNat)
    | .fail c => s.faultQueue d q c
    | .bad t => (s.faultQueue d q t.cause).strikeCtx d x.ctx t
    | .full => s

/-- The read index cannot be written for want of a pin: the step waits (R86). -/
def State.pinFull (s : State) (space : Nat) : Bool := match s.pinCurrent space with | .full => true | _ => false

/-- The front end keeps a subscription on the write index (R30): a queue that has lost its own to a failed walk or to a POISON close
takes a new one (DEDUCED, log 130). -/
def State.keepIndex (s : State) (d : Die) (q : Nat) : State :=
  match s.queue? d q with
  | some x => if x.fault || x.resub || s.subs.any (fun u => u.who = .queue d q) then s else s.watchIndex d q x
  | none => s

/-- QUEUE_FAULT_CLEAR: die, slot. The current RIDX is written again first (R32). -/
def execQueueFaultClear (s : State) : Host.Outcome State Fault Refusal :=
  match s.input with
  | .nat2 dn q =>
    let d : Die := Fin.ofNat 2 dn
    match s.queue? d q with
    | none => .next s
    | some x => if !x.fault || s.pinFull x.space then .next s
      else .next (((s.setQueue d q { x with fault := false }).writeRidx d q).keepIndex d q)
  | _ => .next s

/-- A write index that the front end takes (R30): beyond the ring, it faults the queue. -/
def State.takeIndex (s : State) (d : Die) (q : Nat) (w : Word) : State :=
  match s.queue? d q with
  | none => s
  | some x =>
    let s1 := s.setQueue d q { x with widx := some w, woken := x.leaving }
    if 2 ^ x.log2n < (w - x.ridx).toNat then s1.faultQueue d q 0 else s1

/-- WRITE_INDEX_PUSH: subscription. Its oldest push is taken; a close with MOVED is answered by a new walk, one with POISON faults
the queue. -/
def execWriteIndexPush (s : State) : Host.Outcome State Fault Refusal :=
  match s.input with
  | .nat id =>
    match s.sub? id with
    | none => .next s
    | some u =>
      match u.who, u.pend with
      | .queue d q, p :: _ =>
        match s.queue? d q with
        | none => .next s
        | some x =>
          if !p.closed then .next ((s.takePush u).takeIndex d q (p.value.setWidth 32))
          else if p.poison then .next ((s.dropSub u).faultQueue d q Cause.pagePoison)
          else match (s.dropSub u).feWatch d x.ctx x.space (.queue d q) (BitVec.ofNat 64 x.widxa) 4 with
          | .ok s1 => .next s1
          | .fail c => .next ((s.dropSub u).faultQueue d q c)
          | .full => .next s
          | .bad t => .next ((s.dropSub u).badWalk d q x.ctx t)
      | _, _ => .next s
  | _ => .next s

/-! ### The fetch of entries (R31) -/

/-- FIDX is below the latest index received, counted from RIDX within the ring (R30): after an index that moved back, nothing is fetched
at or above it. -/
def Queue.below (x : Queue) : Bool :=
  match x.widx with
  | some w => decide ((w - x.ridx).toNat ≤ 2 ^ x.log2n) && decide ((x.fidx - x.ridx).toNat < (w - x.ridx).toNat)
  | none => false

/-- ENTRY_FETCH: die, slot. One 64-byte read, while FIDX - RIDX < 64 and FIDX is below the index received. -/
def execEntryFetch (s : State) : Host.Outcome State Fault Refusal :=
  match s.input with
  | .nat2 dn q =>
    let d : Die := Fin.ofNat 2 dn
    match s.queue? d q with
    | none => .next s
    | some x =>
      if x.resub then .next ((s.setQueue d q { x with resub := false }).watchIndex d q { x with resub := false })
      else if x.fault || x.leaving || x.sgen ≠ (s.space x.space).sgen || 64 ≤ (x.fidx - x.ridx).toNat || !x.below then .next s
      else
        match s.feRead d x.ctx x.space (BitVec.ofNat 64 (x.ring + 64 * (x.fidx.toNat % 2 ^ x.log2n))) 64 with
        | .ok bs => .next (s.setQueue d q { x with fidx := x.fidx + 1, fetched := x.fetched ++ [bs] })
        | .fail c => .next (s.faultQueue d q c)
        | .full => .next s
        | .bad t => .next (s.badWalk d q x.ctx t)
  | _ => .next s

end Sys2Proof.Machine
end

