-- ==== Sys2Proof/Machine/Finish.lean ====
section
/-! DEFINITION. How entries end: finishing, settlement, completion words (R357 to R362), ABORT (R45), the commands of FEPCMD (R46),
budget reports (R43) and the fairness events (R63). -/

namespace Sys2Proof.Machine

/-! ### Completion words (R47, R359) -/

/-- The completion word. -/
def complWord (lateness : Nat) (late demoted granted : Bool) (src code : Nat) : DWord :=
  BitVec.ofNat 64 ((if late then min lateness (2 ^ 32 - 1) * 2 ^ 32 else 0) + 2 ^ 15 + (if late then 2 ^ 14 else 0)
    + (if demoted then 2 ^ 13 else 0) + (if granted then 2 ^ 12 else 0) + src * 2 ^ 8 + code)

/-- The word of an entry that finishes with its last block at a cycle (R47). -/
def Entry.word (e : Entry) (cycle src code : Nat) : DWord :=
  match e.deadline with
  | some d => complWord (cycle - d) (decide (d < cycle)) e.demoted e.granted src code
  | none => complWord 0 false e.demoted e.granted src code

/-- A completion-fault notice (R362). -/
def complNotice (cause qslot idx : Nat) (done : DWord) : List Byte :=
  natLe 1 2 ++ natLe 1 cause ++ natLe 2 qslot ++ natLe 4 idx ++ natLe 8 done.toNat

/-- The check of DONE (R360): form, alignment, and the bounds of a tun word; 0 is none. -/
def State.doneBad (s : State) (ctx : Nat) (done : DWord) : Option (BitVec 8) :=
  if done = 0 then none
  else match uform done with
    | some .main => if done.toNat % 8 ≠ 0 then some Cause.align else none
    | some .tun =>
      if done.toNat % 8 ≠ 0 then some Cause.align else if s.tsize ctx < uoff done + 8 then some Cause.address else none
    | _ => some Cause.address

/-! ### Settlement (R361) -/

/-- A class's counter of a context raised, modulo 2^64. -/
def State.settleClass (s : State) (ctx cls n : Nat) : State :=
  s.setCtxField ctx (0xA0 + 8 * cls) 8 ((s.ctxField ctx (0xA0 + 8 * cls) 8 + n) % 2 ^ 64)

/-- An entry's consumption is added to its context's counters. -/
def State.settleEntry (s : State) (e : Entry) : State :=
  (List.range 3).foldl (fun z c => z.settleClass e.ctx c (e.used.getD c 0)) s

/-- An entry leaves the front end. -/
def State.dropEntry (s : State) (id : Nat) : State := { s with entries := s.entries.filter fun e => e.id ≠ id }

/-- The step in which an entry finishes (R358): its bindings go, its consumption is settled, and its completion word awaits its
write; with no DONE it is retired at once. -/
def State.finishStep (s : State) (e : Entry) (w : DWord) : State :=
  let s1 := { s with binds := s.binds.filter (fun b => b.2.2.owner ≠ e.id), aborts := s.aborts.filter fun a => a.1 ≠ e.id }
  let s2 := s1.settleEntry e
  if e.done = 0 then s2.dropEntry e.id else s2.setEntry { e with fin := some w, node := none, overrun := none, overNext := [] }

/-- The other half of a split launch. -/
def State.otherHalf (s : State) (e : Entry) : Option Entry :=
  match e.half with
  | .home p _ => s.entry? p
  | .peer h => s.entry? h
  | _ => none

/-- An entry finishes; the half of a split launch on the other die is settled and leaves with it (R358). A grant to either half counts
(R359). -/
def State.finish (s : State) (e : Entry) (cycle src code : Nat) : State :=
  match e.half, s.otherHalf e with
  | .home _ _, some o =>
    let e' := { e with granted := e.granted || o.granted }
    ((s.settleEntry o).dropEntry o.id).finishStep e' (e'.word cycle src code)
  | _, _ => s.finishStep e (e.word cycle src code)

/-! ### The end of a block without completion (R45, R345) -/

/-- A block disappears: lock waits, operations, subscribers, programs and pins with it, nothing saved. A collective that it takes part in
leaves DST undefined (R384). -/
def State.discardBlock (s : State) (x : Block) : State :=
  let s1 := (s.lockWaits.filter fun w => w.b = x.id).foldl (fun z w =>
    let z1 := { z with lockWaits := z.lockWaits.erase w }
    if w.write && w.counted then
      let cur := z1.dwordAt w.loc
      z1.putDword (z.keyOf w.b) w.loc (lkSetWwait cur (lkWwait cur - 1))
    else z1) s
  let s2 := (s1.ops.filter fun o => o.b = x.id).foldl (fun z o => (z.freeDst o x).dropOp o.id) s1
  let s3 := (s2.subs.filter fun u => match u.who with | .gill b _ => b = x.id | _ => false).foldl (fun z u => z.dropSub u) s2
  let pins := (s3.apq.filter fun p => p.2.b = x.id).map (·.2.pin) ++ x.aps.map (·.2.pin)
  let s4 := pins.foldl State.unpinOpt { s3 with apq := s3.apq.filter fun p => p.2.b ≠ x.id }
  let s5 := { s4.unpin x.rootSlot with blocks := s4.blocks.filter fun y => y.id ≠ x.id }
  if s5.blocks.any fun y => y.unit = x.unit then s5 else { s5 with cbars := s5.cbars.filter fun c => x.unit ≠ some c.unit }

/-- Every block of an entry is discarded, and what is not placed never will be. -/
def State.discardBlocks (s : State) (e : Entry) : State :=
  let s1 := (s.blocks.filter fun x => x.entry = e.id).foldl (fun z x => z.discardBlock x) s
  let s2 := (s1.subs.filter fun u => match u.who with
    | .waitv d q => e.kind = .waitv && d = e.die && q = e.q
    | .desc _ c t true => e.kind = .waitv && c = e.ctx && t = e.tab
    | _ => false).foldl (fun z u => z.dropSub u) s1
  match s2.entry? e.id with
  | some e1 => s2.setEntry { e1 with placed := e1.count, node := e1.node.map fun n => { n with producers := 0, held := [], launched := [] } }
  | none => s2

/-- The queue that a WAITV holds goes on (R33). Of a mapped queue WOPND and WADDR become 0, in an unmapped descriptor they stay as they were
(no rule says what they hold then; DESIGN CHOICE, log 169). -/
def State.unwait (s : State) (e : Entry) : State :=
  match s.queueOf e.ctx e.tab with
  | some (d, q, x) => if x.waiting = some e.id then s.setQueue d q { x with waiting := none, wopnd := 0, waddr := 0 } else s
  | none => if e.kind = .waitv then s.setDescFlags e.ctx e.tab (s.descFlags e.ctx e.tab &&& 0xF7) else s

/-- Every block of an entry has been placed and has ended (R357). -/
def State.blocksDone (s : State) (e : Entry) : Bool :=
  (match e.node with
    | some n => n.producers = 0 && n.held.isEmpty && n.launched.isEmpty
    | none => e.placed = e.count) && s.blocks.all fun x => x.entry ≠ e.id

/-- The cycle, as its die counts, in which an entry or a half ends: that of its last block's end; of one that is being ended before that,
or has run no block, FCYC of the step (DESIGN CHOICE, logs 134 and 135). -/
def State.endCycle (s : State) (e : Entry) : Nat := if s.blocksDone e then e.lastEnd.getD s.fcyc[e.die] else s.fcyc[e.die]

/-- The slack of a half that ends (R39). -/
def State.slackOf (s : State) (e : Entry) : Option Int := e.deadline.map fun t => (t : Int) - s.endCycle e

/-- The completion cycle of an entry whose other half, if it has one, ends with a slack (R39). -/
def State.laterEnd (s : State) (e : Entry) (slack : Option Int) : Nat :=
  match e.deadline, slack with
  | some d, some k => max (s.endCycle e) ((d : Int) - k).toNat
  | _, _ => s.endCycle e

/-- The completion cycle of an entry that ABORT ends: of a split launch the other half's end counts, as reported or as it ends now. -/
def State.abortCycle (s : State) (e : Entry) : Nat :=
  match e.half, s.otherHalf e with
  | .home _ (some k), _ => s.laterEnd e k
  | .home _ none, some o => s.laterEnd e (s.slackOf o)
  | _, _ => s.endCycle e

/-- ABORT of an entry (R45), with its SRC and CODE; of a split launch, both halves. A finished entry ignores it (R363). -/
def State.abortEntry (s : State) (id src code : Nat) : State :=
  match s.entry? id with
  | none => s
  | some e0 =>
    let e := (match e0.half with | .peer h => (s.entry? h).getD e0 | _ => e0)
    if e.fin.isSome then s
    else
      let s1 := (match s.otherHalf e with | some o => s.discardBlocks o | none => s)
      let s2 := (s1.discardBlocks e).unwait e
      match s2.entry? e.id with
      | some e1 => (s2.finish e1 (s.abortCycle e) src code).settle
      | none => s2

/-! ### ENTRY_FINISH and COMPLETION_WRITE (R357 to R362) -/

/-- The completion cycle of a LAUNCH or NODE entry whose blocks are done; none while the other half is still to report (R39). -/
def State.finishCycle (s : State) (e : Entry) : Option Nat :=
  match e.half with
  | .whole => some (s.endCycle e)
  | .home _ (some k) => some (s.laterEnd e k)
  | _ => none

/-- ENTRY_FINISH: entry. An entry due to be aborted is aborted. A LAUNCH or NODE finishes when its blocks have ended (R357); the release that R15
has the end of an instance perform is that of the entry's completion word (R360; DEDUCED, log 152). -/
def execEntryFinish (s : State) : Host.Outcome State Fault Refusal :=
  match s.input with
  | .nat id =>
    match s.aborts.find? fun a => a.1 = id with
    | some (_, src, code) => .next { (s.abortEntry id src code) with aborts := (s.abortEntry id src code).aborts.filter fun a => a.1 ≠ id }
    | none =>
      match s.entry? id with
      | none => .next s
      | some e =>
        if e.fin.isSome || !(e.kind = .launch || e.kind = .node) || !s.blocksDone e then .next s
        else match s.finishCycle e with
        | some c => .next (s.finish e c 0 0)
        | none => .next s
  | _ => .next s

/-- The completion word of an entry is written by a walk under pin-current, as one A-class write; a walk that fails posts a notice instead
(R360, R362). None where the pin is full. -/
def State.writeCompletion (s : State) (e : Entry) (w : DWord) : Option State :=
  match s.feLoc e.die e.ctx e.space e.done .write with
  | .ok l => some (s.fePut e.space l (natLe 8 w.toNat))
  | .fail c => some (s.noticeOn e.die (complNotice c.toNat e.q e.idx.toNat e.done))
  | .bad t => some ((s.strikeCtx e.die e.ctx t).noticeOn e.die (complNotice t.cause.toNat e.q e.idx.toNat e.done))
  | .full => none

/-- COMPLETION_WRITE: entry. It is held until every write of the entry is performed, those of its ended blocks too (R360). The entry
retires with it, or with the notice. -/
def execCompletionWrite (s : State) : Host.Outcome State Fault Refusal :=
  match s.input with
  | .nat id =>
    match s.entry? id with
    | none => .next s
    | some e =>
      match e.fin with
      | none => .next s
      | some w =>
        if s.writesLeft id 3 then .next s
        else match s.writeCompletion e w with
        | some z => .next (z.dropEntry id)
        | none => .next s
  | _ => .next s

/-! ### FEPCMD (R45, R46) -/

/-- The fields of FEPCMD as a word; reserved bits are 0. -/
def fepcmd (amount idx q result cls op : Nat) (busy : Bool) : BitVec 128 :=
  BitVec.ofNat 128 (amount % 2 ^ 32 * 2 ^ 96 + idx % 2 ^ 32 * 2 ^ 64 + q % 512 * 2 ^ 48 + result % 256 * 2 ^ 40
    + (if busy then 2 ^ 7 else 0) + cls % 4 * 16 + op % 4)

/-- A write to FEPCMD (R46): its RW fields are stored, and OP non-zero starts a command. While BUSY is set the write is ignored; one with OP
zero too (DESIGN CHOICE, log 44). -/
def State.writeCmd (s : State) (d : Die) (v : Nat) : State :=
  let c := (s.fe[d]).cmd.toNat
  if nbits c 7 7 = 1 then s
  else s.modFe d fun x => { x with
    cmd := fepcmd (nbits v 127 96) (nbits v 95 64) (nbits v 56 48) (nbits c 47 40) (nbits v 5 4) (nbits v 1 0) (nbits v 1 0 ≠ 0) }

/-- The admitted entry at a queue slot and index of a die. The slot is that of its presentation, though its queue may have
been unmapped since and the slot reused (DESIGN CHOICE, log 42). -/
def State.admitted? (s : State) (d : Die) (q idx : Nat) : Option Entry :=
  s.entries.find? fun e => e.die = d && e.q = q && e.idx.toNat = idx && e.fin.isNone
    && (match e.half with | .peer _ => false | .asking _ _ _ => false | _ => true)

/-- The two halves of an entry, or the one. -/
def State.halves (s : State) (e : Entry) : List Entry := e :: (s.otherHalf e).toList

/-- Whether an entry is held in a class under TRAP. -/
def Entry.heldIn (e : Entry) (cls : Nat) : Bool := e.policy = 1 && (match e.overrun with | some (c, _) => c = cls | none => false)

/-- The test of a grant (R45): a background entry's always passes. -/
def State.grantCode (s : State) (e : Entry) (cls amount : Nat) : Nat :=
  match e.deadline with
  | none => 0
  | some dl =>
    let others := s.deadlineSet e.die (some e.id)
    deadlineCode others e.lrec (parBlocks e.lrec (e.kind = .node) e.count) s.fcyc[e.die] s.fe[e.die].rsv dl
      (e.rem.modify cls fun r => r.map (· + amount))

/-- A grant applied to an entry held in its class: the amount is added and the held gangs go on. -/
def State.grant (s : State) (e : Entry) (cls amount : Nat) : State :=
  ((s.setEntry { e with rem := e.rem.modify cls (fun r => r.map (· + amount)), granted := true, overrun := none }).releaseHeld e.id
    fun c => c = cls).retestCvs e.id

/-- DEMOTE of an entry or a half (R45), with what its lifted limits let go on. -/
def State.demoteNow (s : State) (ent : Nat) : State := (s.demote ent).retestCvs ent

/-- GRANT (R45, R46): the amount goes to each half that is held in the class (DESIGN CHOICE, log 43). -/
def State.grantCmd (s : State) (e : Entry) (cls amount : Nat) : State × Nat :=
  let hs := (s.halves e).filter fun h => h.heldIn cls
  if cls = 3 || hs.isEmpty then (s, 0xFF)
  else match (hs.map fun h => s.grantCode h cls amount).find? (· ≠ 0) with
    | some c => (s, c)
    | none => (hs.foldl (fun z h => (z.grant h cls amount).nextOverrun h.id) s, 0)

/-- ABORT: of an entry whose overrun is unresolved with SRC 2 and OVERRUN, else with SRC 3. -/
def State.abortCmd (s : State) (e : Entry) : State × Nat :=
  let unres : Bool := (s.halves e).any fun h => h.overrun.isSome
  (if unres then s.abortEntry e.id 2 Cause.overrun.toNat else s.abortEntry e.id 3 0, 0)

/-- An entry that DEMOTE and ABORT act on. -/
def Entry.commandable (e : Entry) : Bool := e.kind = .launch || e.kind = .node

/-- The command in progress takes effect, if it is `op`: its RESULT is written and BUSY clears. With no entry there RESULT is 0xFE, CLASS 3 or
not (DESIGN CHOICE, log 131); so it is for a DEMOTE or an ABORT that names a SIGNAL or a WAITV (DESIGN CHOICE, log 132). -/
def State.command (s : State) (d : Die) (op : Nat) : State :=
  let c := (s.fe[d]).cmd.toNat
  let cls := nbits c 5 4
  let amount := nbits c 127 96
  if nbits c 7 7 = 0 || nbits c 1 0 ≠ op then s
  else
    let r : State × Nat := (match s.admitted? d (nbits c 56 48) (nbits c 95 64) with
      | none => (s, 0xFE)
      | some e => if op ≠ 1 && !e.commandable then (s, 0xFE) else match op with
        | 1 => s.grantCmd e cls amount
        | 2 => ((s.halves e).foldl (fun z h => z.demoteNow h.id) s, 0)
        | _ => s.abortCmd e)
    r.1.modFe d fun x => { x with cmd := fepcmd amount (nbits c 95 64) (nbits c 56 48) r.2 cls op false }

/-- A command written and carried out at once, unless another is in progress. -/
def State.commandNow (s : State) (d : Die) (q idx cls amount op : Nat) : State :=
  if nbits (s.fe[d]).cmd.toNat 7 7 = 1 then s else (s.writeCmd d (fepcmd amount idx q 0 cls op false).toNat).command d op

/-- FEPCMD_GRANT: die, for the command in progress; or die, queue slot, index, class, amount. -/
def execFepcmdGrant (s : State) : Host.Outcome State Fault Refusal :=
  match s.input with
  | .nat d => .next (s.command (Fin.ofNat 2 d) 1)
  | .nat5 d q idx cls amount => .next (s.commandNow (Fin.ofNat 2 d) q idx cls amount 1)
  | _ => .next s

/-- FEPCMD_DEMOTE: die, for the command in progress; or die, queue slot, index. -/
def execFepcmdDemote (s : State) : Host.Outcome State Fault Refusal :=
  match s.input with
  | .nat d => .next (s.command (Fin.ofNat 2 d) 2)
  | .nat3 d q idx => .next (s.commandNow (Fin.ofNat 2 d) q idx 0 0 2)
  | _ => .next s

/-- FEPCMD_ABORT: die, for the command in progress; or die, queue slot, index. -/
def execFepcmdAbort (s : State) : Host.Outcome State Fault Refusal :=
  match s.input with
  | .nat d => .next (s.command (Fin.ofNat 2 d) 3)
  | .nat3 d q idx => .next (s.commandNow (Fin.ofNat 2 d) q idx 0 0 3)
  | _ => .next s

/-! ### Budget reports (R43, R182) -/

/-- BUDGET_REPORT: entry. Its blocks' cores receive the remainders and D less FCYC. -/
def execBudgetReport (s : State) : Host.Outcome State Fault Refusal :=
  match s.input with
  | .nat id =>
    match s.entry? id with
    | none => .next s
    | some e =>
      .next { s with blocks := s.blocks.map fun x =>
        if x.entry = id then x.report e s.fcyc[x.die] s.cyc[x.die] else x }
  | _ => .next s

/-! ### Fairness (R63) -/

/-- FAIRNESS_SWEEP: block, gang. -/
def execFairnessSweep (s : State) : Host.Outcome State Fault Refusal :=
  match s.input with
  | .nat2 b g => .next (s.modGang b g fun y => if y.sweepDue then y.startSweep else y)
  | _ => .next s

/-- FAIRNESS_TURN_END: block, gang. -/
def execFairnessTurnEnd (s : State) : Host.Outcome State Fault Refusal :=
  match s.input with
  | .nat2 b g => .next (s.modGang b g fun y => if y.sweep && y.turnDone then y.endTurn else y)
  | _ => .next s

end Sys2Proof.Machine
end

