-- ==== Sys2Proof/Machine/Admit.lean ====
section
/-! DEFINITION. Presentation and admission (R24 to R26, R31 to R39, R396): the six kinds of entry, split launches, and the words of
SIGNAL and WAITV. -/

namespace Sys2Proof.Machine

/-! ### The fields of an entry (R24, R25) -/

def enKind (bs : List Byte) : Nat := dfield bs 0 1
def enPolicy (bs : List Byte) : Nat := dfield bs 1 1
def enTarget (bs : List Byte) : DWord := BitVec.ofNat 64 (dfield bs 8 8)
def enDeadline (bs : List Byte) : Nat := dfield bs 0x10 5
/-- The budget of a class. -/
def enBudget (bs : List Byte) (c : Nat) : Nat := dfield bs (0x18 + 4 * c) 4
def enArg0 (bs : List Byte) : Nat := dfield bs 0x24 4
def enDone (bs : List Byte) : DWord := BitVec.ofNat 64 (dfield bs 0x28 8)
def enArg1 (bs : List Byte) : DWord := BitVec.ofNat 64 (dfield bs 0x30 8)

/-- What the kinds other than LAUNCH and NODE leave zero. -/
def enPlain (bs : List Byte) : Bool := enPolicy bs = 0 && dfield bs 0x10 20 = 0

/-- The word of a SIGNAL or WAITV (R25): its form, alignment, and the bounds of a tun word. -/
def State.wordBad (s : State) (ctx : Nat) (a : DWord) (size : Nat) : Bool :=
  match uform a with
  | some .main => a.toNat % size ≠ 0
  | some .tun => a.toNat % size ≠ 0 || s.tsize ctx < uoff a + size
  | _ => true

/-- Bytes of the word of a SIGNAL, and of a WAITV. -/
def signalSize (arg0 : Nat) : Nat := if nbits arg0 0 0 = 1 then 8 else 4
def waitvSize (arg0 : Nat) : Nat := if nbits arg0 3 3 = 1 then 8 else 4

/-- An entry that R24, R25 or R360 rejects, but for its record. -/
def State.entryBad (s : State) (ctx : Nat) (bs : List Byte) : Bool :=
  dfield bs 2 2 ≠ 0 || dfield bs 0x38 8 ≠ 0 || 3 < enPolicy bs || dfield bs 0x15 3 ≠ 0 || (s.doneBad ctx (enDone bs)).isSome
    || (match enKind bs with
      | 0 | 3 => !enPlain bs || enTarget bs ≠ 0 || enArg0 bs ≠ 0 || enArg1 bs ≠ 0
      | 1 => enArg0 bs ≠ 0 || enArg1 bs ≠ 0 || vaBad (enTarget bs) 256
      | 2 => nbits (enArg0 bs) 31 16 = 0 || enArg1 bs ≠ 0 || vaBad (enTarget bs) 256
      | 4 => !enPlain bs || 1 < enArg0 bs || s.wordBad ctx (enTarget bs) (signalSize (enArg0 bs))
      | 5 => !enPlain bs || 15 < enArg0 bs || 3 < nbits (enArg0 bs) 2 0 || s.wordBad ctx (enTarget bs) (waitvSize (enArg0 bs))
      | _ => true)

/-! ### Presentation (R33, R35) -/

/-- A queue and its next entry, where one may be presented: HOLD is clear, the queue is mapped, not faulted, held by no WAITV, and its
last entry is decided; its context is not struck; the writes of STATUS and of the read index can take their pin. In one cycle a queue
presents one entry, and queues present in ascending slot order (R33, R35). -/
def State.present (s : State) (d : Die) (q : Nat) : Option (Queue × List Byte) :=
  match s.queue? d q with
  | none => none
  | some x =>
    if s.fe[d].hold || x.fault || x.waiting.isSome || s.undecided x.ctx x.tab || s.pinFull x.space
        || s.discards.any (fun c => c.1 = x.ctx) || s.fe[d].shown.any (fun p => q ≤ p) then none
    else x.fetched.head?.map fun bs => (x, bs)

/-- The entry leaves the fetched ones: PIDX advances, and the queue has presented in this cycle. -/
def State.takeEntry (s : State) (d : Die) (q : Nat) : State :=
  match s.queue? d q with
  | some x => (s.setQueue d q { x with pidx := x.pidx + 1, fetched := x.fetched.tail }).modFe d fun f => { f with shown := f.shown ++ [q] }
  | none => s

/-- The admission code of an entry is written into its STATUS; RIDX advances and is written (R32). -/
def State.decideEntry (s : State) (d : Die) (q : Nat) (idx : Word) (code : Nat) : State :=
  match s.queue? d q with
  | none => s
  | some x =>
    let at_ : DWord := BitVec.ofNat 64 (x.ring + 64 * (idx.toNat % 2 ^ x.log2n) + 4)
    let s1 := (match s.feLoc d x.ctx x.space at_ .write with
      | .ok l => s.fePut x.space l (natLe 4 code)
      | .fail c => s.faultQueue d q c
      | .bad t => (s.faultQueue d q t.cause).strikeCtx d x.ctx t
      | .full => s)
    match s1.queue? d q with
    | some x1 => (s1.setQueue d q { x1 with ridx := idx + 1 }).writeRidx d q
    | none => s1

/-- An entry of a queue, before its record is known. -/
def Entry.ofBytes (id : Nat) (d : Die) (q : Nat) (x : Queue) (idx : Word) (kind : EntKind) (bs : List Byte) : Entry :=
  { id := id, adm := id, die := d, q := q, tab := x.tab, idx := idx, ctx := x.ctx, space := x.space, kind := kind, lrec := LaunchRec.of [],
    group := none, deadline := none, demoted := false, granted := false, rem := [], used := [0, 0, 0], policy := 0, overrun := none, overAt := 0, overNext := [],
    target := enTarget bs, arg0 := BitVec.ofNat 32 (enArg0 bs), arg1 := enArg1 bs, done := enDone bs, first := 0, count := 0, placed := 0,
    half := .whole, lastEnd := none, ending := none, fin := none, node := none, colls := 0, areas := [] }

/-- An entry joins the front end. -/
def State.addEntry (s : State) (e : Entry) : State := { s with entries := s.entries ++ [e], nextId := s.nextId + 1 }

/-- What follows a rejection (R38, R357, R360): the completion word is written with its STATUS (in the same step; a full pin leaves it to
COMPLETION_WRITE); of an entry rejected for its DONE, a notice. Of one rejected
with SPACE, whose DONE has not been checked, the notice of a malformed DONE carries XLATE_NP where the root is null (R362). -/
def State.reject (s : State) (e : Entry) (code : Nat) : State :=
  match s.doneBad e.ctx e.done with
  | some c0 =>
    let c := if code = 9 && (s.space e.space).nullr then Cause.xlateNp else c0
    s.noticeOn e.die (complNotice c.toNat e.q e.idx.toNat e.done)
  | none =>
    let w := complWord 0 false false false 1 code
    if e.done = 0 then s else (s.writeCompletion e w).getD (s.addEntry { e with fin := some w })

/-- An entry that finishes as it is decided. -/
def State.finishNow (s : State) (e : Entry) (src code : Nat) : State :=
  if e.done = 0 then s else s.addEntry { e with fin := some (complWord 0 false false false src code) }

/-! ### Admission (R38) -/

/-- Entries admitted of a context on a die. -/
def State.admittedOf (s : State) (d : Die) (ctx : Nat) : Nat := ((s.admittedOn d).filter fun e => e.ctx = ctx).length

/-- The space of a queue is retired (R34, R38): its root is null, or its generation has moved on. -/
def State.spaceGone (s : State) (x : Queue) : Bool := (s.space x.space).nullr || x.sgen ≠ (s.space x.space).sgen

/-- The first failing check of orders 1 to 4, given whether the entry is bad and whether a WAITV exceeds the quota. -/
def State.firstCode (s : State) (d : Die) (x : Queue) (bad quota : Bool) : Nat :=
  if s.spaceGone x then 9
  else if bad then 7
  else if s.ctxField x.ctx 0 2 ≤ s.admittedOf d x.ctx || quota then 10
  else if 1024 ≤ (s.admittedOn d).length then 6
  else 0

/-- One of the kinds NOP, FETCHFENCE, SIGNAL and WAITV is decided. -/
def State.presentPlain (s : State) (d : Die) (q : Nat) (x : Queue) (e : Entry) (code : Nat) (f : State → State) : State :=
  let s1 := (s.takeEntry d q).decideEntry d q x.pidx code
  if code ≠ 0 then s1.reject e code else f s1

/-- ENTRY_NOP: die, slot. An entry of a reserved kind is rejected with BAD_RECORD. -/
def execEntryNop (s : State) : Host.Outcome State Fault Refusal :=
  match s.input with
  | .nat2 dn q =>
    let d : Die := Fin.ofNat 2 dn
    match s.present d q with
    | none => .next s
    | some (x, bs) =>
      if 1 ≤ enKind bs && enKind bs ≤ 5 then .next s
      else
        let e := Entry.ofBytes s.nextId d q x x.pidx .nop bs
        .next (s.presentPlain d q x e (s.firstCode d x (s.entryBad x.ctx bs) false) fun z => z.finishNow e 0 0)
  | _ => .next s

/-- Entries of a queue that are not retired. -/
def State.pendingOf (s : State) (ctx tab before : Nat) : Bool := s.entries.any fun e => e.ctx = ctx && e.tab = tab && e.id < before

/-- ENTRY_FETCHFENCE: die, slot; once every earlier entry of the queue has retired (R31). -/
def execEntryFetchfence (s : State) : Host.Outcome State Fault Refusal :=
  match s.input with
  | .nat2 dn q =>
    let d : Die := Fin.ofNat 2 dn
    match s.present d q with
    | none => .next s
    | some (x, bs) =>
      if enKind bs ≠ 3 || s.pendingOf x.ctx x.tab s.nextId then .next s
      else
        let e := Entry.ofBytes s.nextId d q x x.pidx .fetchfence bs
        .next (s.presentPlain d q x e (s.firstCode d x (s.entryBad x.ctx bs) false) fun z =>
          let z1 := (match z.queue? d q with
            | some y => z.setQueue d q { y with fetched := [], fidx := y.pidx }
            | none => z)
          z1.finishNow e 0 0)
  | _ => .next s

/-- ENTRY_SIGNAL: die, slot. An admitted SIGNAL waits in the set (R33). -/
def execEntrySignal (s : State) : Host.Outcome State Fault Refusal :=
  match s.input with
  | .nat2 dn q =>
    let d : Die := Fin.ofNat 2 dn
    match s.present d q with
    | none => .next s
    | some (x, bs) =>
      if enKind bs ≠ 4 then .next s
      else
        let e := Entry.ofBytes s.nextId d q x x.pidx .signal bs
        .next (s.presentPlain d q x e (s.firstCode d x (s.entryBad x.ctx bs) false) fun z => z.addEntry e)
  | _ => .next s

/-- The end of an entry by a cause, with its queue faulted (R396). -/
def State.failWord (s : State) (e : Entry) (c : BitVec 8) : State :=
  ((s.finish e s.fcyc[e.die] 2 c.toNat).faultQueueOf e c).unwait e

/-- The walk to an entry's word met bytes that cannot be read: the context is struck (R345). PAGE_POISON is one of R78's causes as well,
and ends the entry as those do (R396; DEDUCED, log 129). -/
def State.badWord (s : State) (e : Entry) (t : Trap) : State :=
  (if t.cause = Cause.pagePoison then s.failWord e t.cause else s).strikeCtx e.die e.ctx t

/-- Earlier entries of an entry's queue have writes that are not performed: those that the system-scope release of a SIGNAL waits for
(R25). -/
def State.writesBefore (s : State) (e : Entry) : Bool :=
  s.ended.any fun x => x.ctx = e.ctx && x.tab = e.tab && x.owner < e.id && x.unperformed 3

/-- SIGNAL_STORE: entry. Once every earlier entry of its queue has retired, and their writes are performed (R25), it stores its word
(R33, R396). -/
def execSignalStore (s : State) : Host.Outcome State Fault Refusal :=
  match s.input with
  | .nat id =>
    match s.entry? id with
    | none => .next s
    | some e =>
      if e.kind ≠ .signal || e.fin.isSome || s.pendingOf e.ctx e.tab e.id || s.writesBefore e then .next s
      else match s.feLoc e.die e.ctx e.space e.target .write with
      | .ok l => .next ((s.fePut e.space l (natLe (signalSize e.arg0.toNat) e.arg1.toNat)).finish e s.fcyc[e.die] 0 0)
      | .fail c => .next (s.failWord e c)
      | .bad t => .next (s.badWord e t)
      | .full => .next s
  | _ => .next s

/-! ### WAITV (R33, R396) -/

/-- The condition of a WAITV on a value. -/
def waitvHolds (arg0 : Nat) (arg1 v : DWord) : Bool :=
  let cut : DWord → Nat := fun a => if waitvSize arg0 = 8 then a.toNat else nbits a.toNat 31 0
  let a := cut v
  let b := cut arg1
  match nbits arg0 2 0 with
  | 0 => a = b
  | 1 => a ≠ b
  | 2 => b ≤ a
  | _ => a < b

/-- A WAITV whose word's home has no room for it, by the context's quota or its records (R33, R283). -/
def State.waitvQuota (s : State) (ctx : Nat) (l : Loc) (size : Nat) : Bool :=
  s.squota ctx ≤ s.quotaUsed ctx (homeOf l).1 || !s.recordFree l size

/-- ENTRY_WAITV: die, slot. A word whose leaf is in a tier that homes no subscription ends the entry with SRC 2 and ADDRESS, and faults
the queue (DESIGN CHOICE, log 33). -/
def execEntryWaitv (s : State) : Host.Outcome State Fault Refusal :=
  match s.input with
  | .nat2 dn q =>
    let d : Die := Fin.ofNat 2 dn
    match s.present d q with
    | none => .next s
    | some (x, bs) =>
      if enKind bs ≠ 5 then .next s
      else
        let e := Entry.ofBytes s.nextId d q x x.pidx .waitv bs
        let size := waitvSize (enArg0 bs)
        let bad := s.entryBad x.ctx bs
        let word := s.feLoc d x.ctx x.space e.target .read
        let quota : Bool := (match word with | .ok l => homeable l && s.waitvQuota x.ctx l size | _ => false)
        .next (s.presentPlain d q x e (s.firstCode d x bad quota) fun z =>
          match word with
          | .ok l =>
            if homeable l then
              let z1 := z.addEntry e
              let wa : DWord := BitVec.ofNat 64 (nbits e.target.toNat 55 0 + nbits (enArg0 bs) 3 0 * 2 ^ 56)
              let z2 := (match z1.queue? d q with
                | some y => z1.setQueue d q { y with waiting := some e.id, wopnd := e.arg1, waddr := wa }
                | none => z1)
              z2.feSubscribe d x.ctx (s.space x.space).key (.waitv d q) l size
            else (z.finishNow e 2 Cause.address.toNat).postFault d q Cause.address
          | .fail c => (z.finishNow e 2 c.toNat).postFault d q c
          | .bad t => (z.addEntry e).badWord e t
          | .full => z)
  | _ => .next s

/-- The queue of a WAITV's subscription: its context and index in the queue table, where it is mapped or was. -/
def State.waitvOf (s : State) (u : Sub) : Option Entry :=
  match u.who with
  | .waitv d q => (s.queue? d q).bind fun x => s.waitEntry x.ctx x.tab
  | .desc _ c t true => s.waitEntry c t
  | _ => none

/-- A holding WAITV ends with its condition true: its subscription closes, WAITING clears, and a queue that is unmapped, or is being, is
woken. -/
def State.fireWaitv (s : State) (u : Sub) (e : Entry) : State :=
  let s1 := ((s.dropSub u).unwait e).finish e s.fcyc[e.die] 0 0
  match u.who with
  | .desc d c t true => s1.wakeDesc d c t
  | .waitv d q => (match s1.queue? d q with
    | some x => s1.setQueue d q { x with woken := x.leaving }
    | none => s1)
  | _ => s1

/-- WAITV_PUSH: subscription. Its oldest push is tested; a close with MOVED is answered by a new walk, one with POISON ends the entry
(R33, R396). -/
def execWaitvPush (s : State) : Host.Outcome State Fault Refusal :=
  match s.input with
  | .nat id =>
    match s.sub? id with
    | none => .next s
    | some u =>
      match s.waitvOf u, u.pend with
      | some e, p :: _ =>
        if !p.closed then
          .next (if waitvHolds e.arg0.toNat e.arg1 p.value then s.fireWaitv u e else s.takePush u)
        else if p.poison then .next ((s.dropSub u).failWord e Cause.pagePoison)
        else
          match (s.dropSub u).feWatch e.die e.ctx e.space u.who e.target (waitvSize e.arg0.toNat) with
          | .ok z => .next z
          | .fail c => .next ((s.dropSub u).failWord e c)
          | .full => .next s
          | .bad t => .next ((s.dropSub u).badWord e t)
      | _, _ => .next s
  | _ => .next s

/-! ### LAUNCH and NODE (R8, R11, R19 to R23, R26, R35 to R39) -/

/-- `n` bytes read unit by unit, each within 64 bytes. -/
def State.feSpan (s : State) (d : Die) (ctx space : Nat) (a : DWord) (n fuel : Nat) : FeGet (List Byte) :=
  match fuel with
  | 0 => .ok []
  | k + 1 =>
    if n = 0 then .ok []
    else
      let m := min n (64 - a.toNat % 64)
      match s.feRead d ctx space a m with
      | .ok bs => match s.feSpan d ctx space (uadd a m) (n - m) k with
        | .ok r => .ok (bs ++ r)
        | e => e
      | e => e

/-- A binding descriptor that R19 calls malformed. A main region past 2^48 and a tun region past TSIZE are taken as malformed too; a local
or window base has no bound here, since no block is named (DESIGN CHOICE, log 31). -/
def State.bindBad (s : State) (ctx : Nat) (b : List Byte) : Bool :=
  let base : DWord := BitVec.ofNat 64 (dfield b 0 8)
  let obj : DWord := BitVec.ofNat 64 (dfield b 0x10 8)
  let len := dfield b 8 4
  len = 0 || 3 < dfield b 0xC 1 || dfield b 0xD 3 ≠ 0 || dfield b 0x18 8 ≠ 0 || (uform obj).isNone || obj.toNat % 8 ≠ 0
    || (match uform base with
      | some .main => 2 ^ 48 < base.toNat + len
      | some .tun => s.tsize ctx < uoff base + len
      | some _ => false
      | none => true)

/-- A binding of an entry from its descriptor. -/
def Binding.of (b : List Byte) (owner : Nat) : Binding :=
  { base := BitVec.ofNat 64 (dfield b 0 8), len := dfield b 8 4, scope := dfield b 0xC 1, obj := BitVec.ofNat 64 (dfield b 0x10 8),
    owner := owner }

/-- The descriptors of a table. -/
def bindRows (t : List Byte) (n : Nat) : List (List Byte) := (List.range n).map fun i => (t.drop (32 * i)).take 32

/-- The bindings are installed, each at the lowest free index (R19). -/
def State.install (s : State) (ctx owner : Nat) (rows : List (List Byte)) : State :=
  rows.foldl (fun z b => match z.freeBind ctx with
    | some i => { z with binds := z.binds ++ [(ctx, i, Binding.of b owner)] }
    | none => z) s

/-- Room in a context's binding table. -/
def State.bindRoom (s : State) (ctx n : Nat) : Bool := (s.binds.filter fun b => b.1 = ctx && b.2.1 < 256).length + n ≤ 256

/-- A process-group table is read: its header, then its members. -/
def State.readGroup (s : State) (d : Die) (ctx space : Nat) (a : DWord) : FeGet (List Byte) :=
  match s.feUnits d ctx space a 1 with
  | .ok h =>
    let n := dfield h 8 4
    if 4096 < n then .ok h
    else match s.feUnits d ctx space (uadd a 64) n with
    | .ok m => .ok (h ++ m)
    | e => e
  | e => e

/-- What the structures of a launch come to. -/
inductive Gathered where
  | bad
  | struck (t : Trap)
  | full
  | ok (r : LaunchRec) (g : Option Group) (rows : List (List Byte))

/-- A read that fails makes the record bad; one that errors strikes the context. -/
def FeGet.then_ {α : Type} (x : FeGet α) (f : α → Gathered) : Gathered :=
  match x with
  | .ok v => f v
  | .fail _ => .bad
  | .full => .full
  | .bad t => .struck t

/-- The record, its process-group table and its bindings are read and checked, in one step: an admission that races with a writer of these
structures never sees some units old and some new (DESIGN CHOICE, log 32). -/
def State.gatherRecord (s : State) (d : Die) (x : Queue) (node : Bool) (a : DWord) : Gathered :=
  (s.feUnits d x.ctx x.space a 4).then_ fun bs =>
    let r := LaunchRec.of bs
    if recordBad bs x.priv node (s.tsize x.ctx) then .bad
    else
      let rows : Option Group → Gathered := fun g =>
        if 2 ^ 32 - 1 < totalBlocks r g then .bad
        else if r.nbind = 0 then .ok r g []
        else (s.feSpan d x.ctx x.space r.bindtab (32 * r.nbind) 512).then_ fun t =>
          if (bindRows t r.nbind).any (s.bindBad x.ctx) then .bad else .ok r g (bindRows t r.nbind)
      if r.hasGroup then
        (s.readGroup d x.ctx x.space r.pgtab).then_ fun t =>
          match Sys2Proof.Machine.groupOf t s.devid (lvCount (r.level (r.nlev - 2))) (lvCount (r.level (r.nlev - 1))) with
          | none => .bad
          | some g => rows (some g)
      else rows none

/-- The resolved budget of a class (R11): none where it has no limit. -/
def resolved (bs : List Byte) (r : LaunchRec) (background : Bool) (c : Nat) : Option Nat :=
  let v := if enBudget bs c ≠ 0 then enBudget bs c else (match c with | 0 => r.budi | 1 => r.budm | _ => r.buda)
  if background && v = 0 then none else some v

/-- An entry of a LAUNCH or NODE, with R11's values. -/
def Entry.launched (e : Entry) (bs : List Byte) (r : LaunchRec) (g : Option Group) (now : Nat) : Entry :=
  let rel := if enDeadline bs ≠ 0 then enDeadline bs else r.deadline
  { e with
    lrec := r, group := g, first := firstBlock r g
    deadline := if rel = 0 then none else some (now + rel)
    rem := [resolved bs r (rel = 0) 0, resolved bs r (rel = 0) 1, resolved bs r (rel = 0) 2]
    policy := if enPolicy bs ≠ 0 then enPolicy bs else r.policy }

/-- The share of a budget that goes with `n` of `total` blocks, rounded up (R39). -/
def shareUp (b n total : Nat) : Nat := (b * n + total - 1) / total

/-- The home half of a split launch, and the budgets of the other half. -/
def Entry.homeHalf (e : Entry) : Entry :=
  let n := homeBlocks e.lrec e.group
  let t := totalBlocks e.lrec e.group
  { e with count := n, rem := e.rem.map fun b => b.map fun v => shareUp v n t }

def Entry.peerRem (e : Entry) : List (Option Nat) :=
  let n := homeBlocks e.lrec e.group
  let t := totalBlocks e.lrec e.group
  e.rem.map fun b => b.map fun v => v - shareUp v n t

/-- Orders 5 to 10 for an entry on its die. -/
def State.launchCode (s : State) (e : Entry) (binds : Nat) (armed : Bool) : Nat :=
  if !s.bindRoom e.ctx binds || armed then 4
  else if s.coresidentBad e.die e.lrec e.group e.half then 5
  else match e.deadline with
  | none => 0
  | some dl =>
    deadlineCode (s.deadlineSet e.die (some e.id)) e.lrec (parBlocks e.lrec (e.kind = .node) e.count) s.fcyc[e.die] s.fe[e.die].rsv dl
      e.rem

/-- A LAUNCH or NODE entry is presented. A split launch asks the other die first. A structure on a poisoned page cannot be translated, so
the entry is rejected and its context is struck (log 129). -/
def State.presentLaunch (s : State) (d : Die) (q : Nat) (x : Queue) (bs : List Byte) (node : Bool) : State :=
  let e0 := Entry.ofBytes s.nextId d q x x.pidx (if node then .node else .launch) bs
  let refuse : Nat → State := fun code => ((s.takeEntry d q).decideEntry d q x.pidx code).reject e0 code
  if s.spaceGone x then refuse 9
  else if s.entryBad x.ctx bs then refuse 7
  else match s.gatherRecord d x node (enTarget bs) with
  | .full => s
  | .struck t => (if t.cause = Cause.pagePoison then refuse 7 else s).strikeCtx d x.ctx t
  | .bad => refuse 7
  | .ok r g rows =>
    let split : Bool := !node && r.deviceLevel.isSome
    let e1 := e0.launched bs r g s.fcyc[d]
    let nid := nbits (enArg0 bs) 15 0
    let e2 := if node then { e1 with node := some { nid := nid, producers := nbits (enArg0 bs) 31 16, held := [], next := 0, launched := [] } }
      else if split then e1.homeHalf
      else { e1 with count := totalBlocks r g }
    let armed : Bool := node && s.entries.any fun e => e.ctx = x.ctx && e.fin.isNone && (match e.node with | some n => n.nid = nid | none => false)
    let first := s.firstCode d x false false
    let code := if first ≠ 0 then first else s.launchCode e2 rows.length armed
    if split then
      (s.takeEntry d q).addEntry { e2 with half := .asking code e1.peerRem rows }
    else if code ≠ 0 then refuse code
    else (((s.takeEntry d q).decideEntry d q x.pidx 0).addEntry (s.withAreas e2)).install x.ctx e2.id rows

/-- SPLIT_HALF_REQUEST: the home's entry. The peer front end converts the remaining relative deadline, tests its half, its own share of
QLIM included (R72), and answers; the entry is admitted if both halves are (R39). -/
def execSplitHalfRequest (s : State) : Host.Outcome State Fault Refusal :=
  match s.input with
  | .nat id =>
    match s.entry? id with
    | none => .next s
    | some e =>
      match e.half with
      | .asking code rem rows =>
        if s.pinFull e.space then .next s
        else
          let d : Die := if e.die = 0 then 1 else 0
          let dl := e.deadline.map fun t => ((t : Int) - s.fcyc[e.die] - 256 + s.fcyc[d]).toNat
          let p : Entry := { e with id := s.nextId, adm := s.nextId, die := d, count := totalBlocks e.lrec e.group - e.count, rem := rem, deadline := dl, done := 0,
                                    half := .peer id }
          let theirs := if (s.space e.space).nullr then 9 else if s.ctxField e.ctx 0 2 ≤ s.admittedOf d e.ctx then 10
            else if 1024 ≤ (s.admittedOn d).length then 6 else s.launchCode p 0 false
          let mine := if code ≠ 0 then code else if s.bindRoom e.ctx rows.length then 0 else 4
          let final := if mine = 0 then theirs else if theirs = 0 then mine else min mine theirs
          if final ≠ 0 then .next (((s.dropEntry id).decideEntry e.die e.q e.idx final).reject { e with half := .whole } final)
          else
            .next ((((s.setEntry { s.withAreas e with half := .home p.id none, adm := s.nextId }).addEntry (s.withAreas p)).install e.ctx id rows).decideEntry e.die e.q e.idx 0)
      | _ => .next s
  | _ => .next s

/-- SPLIT_HALF_FINISH: the peer's entry. Its slack goes to the home's (R39). -/
def execSplitHalfFinish (s : State) : Host.Outcome State Fault Refusal :=
  match s.input with
  | .nat id =>
    match s.entry? id with
    | none => .next s
    | some e =>
      match e.half with
      | .peer h =>
        match s.entry? h with
        | some o =>
          match o.half with
          | .home p none =>
            if p ≠ id || !s.blocksDone e then .next s
            else
              .next (s.setEntry { o with half := .home p (some (s.slackOf e)) })
          | _ => .next s
        | none => .next s
      | _ => .next s
  | _ => .next s

/-- ENTRY_LAUNCH: die, slot. -/
def execEntryLaunch (s : State) : Host.Outcome State Fault Refusal :=
  match s.input with
  | .nat2 dn q =>
    let d : Die := Fin.ofNat 2 dn
    match s.present d q with
    | some (x, bs) => .next (if enKind bs = 1 then s.presentLaunch d q x bs false else s)
    | none => .next s
  | _ => .next s

/-- ENTRY_NODE: die, slot. -/
def execEntryNode (s : State) : Host.Outcome State Fault Refusal :=
  match s.input with
  | .nat2 dn q =>
    let d : Die := Fin.ofNat 2 dn
    match s.present d q with
    | some (x, bs) => .next (if enKind bs = 2 then s.presentLaunch d q x bs true else s)
    | none => .next s
  | _ => .next s

end Sys2Proof.Machine
end

