-- ==== Sys2Proof/Machine/Start.lean ====
section
/-! DEFINITION. The start of a gang and of a block (R17, R18). -/

namespace Sys2Proof.Machine

/-- The stochastic state a seed gives (R136). -/
def startX (seed : Word) : Word := if seed = 0 then 0x6D2B79F5 else seed

/-- A lane at a gang's start (R18): at ENTRY, with an empty call stack, in the region that ENTRY opens (R332). -/
def Lane.start (entry : Va) (x : Word) : Lane :=
  { pc := entry, pos := .header .transferred, wait := .none, hint := none, dep := 0, stack := [],
    region := { pc := entry, recN := 0, dep := 0, stack := [], x := x, fresh := false },
    entered := false, relCount := 0, relSeen := 0, tpar := 0, replay := false, complete := false, bpPass := false,
    vlHere := false }

/-- No trap recorded. -/
def TrapRec.zero : TrapRec :=
  { tcause := 0, tpc := 0, treg := 0, trec := 0, tmask := 0, tsib := 0, tpar := 0, tval := 0 }

/-- The first S registers of a gang (R18). -/
def startS (gi s2 s3 s4 rank : Word) : Vector Word 32 :=
  (((((Vector.replicate 32 (0 : Word)).set 1 gi).set 2 s2).set 3 s3).set 4 s4).set 6 rank

/-- A gang at its start (R18): index `gi` in its block, with the S registers of its place in the launch, its seed, the debug
registers of its context's descriptor (R341), its partition and its slot there. -/
def Gang.start (gi : Nat) (entry : Va) (s2 s3 s4 : Nat) (rank seed : Word) (spill : Nat) (bpc : Vector DWord 4) (dbgctl : Word)
    (part slot : Nat) : Gang :=
  { v := (Vector.replicate 64 (Vector.replicate 32 (0 : Word))).set 0 (Vector.ofFn fun l => BitVec.ofNat 32 (gi * 32 + l.val))
    vt := (Vector.replicate 64 (Vector.replicate 32 (0 : BitVec 5))).set 0 (Vector.replicate 32 2#5)
    s := startS (BitVec.ofNat 32 gi) (BitVec.ofNat 32 s2) (BitVec.ofNat 32 s3) (BitVec.ofNat 32 s4) rank
    k := (Vector.replicate 12 (0 : Word)).set 0 0xFFFFFFFF
    d := Vector.replicate 6 0
    dNow := Vector.replicate 6 0
    lanes := Vector.replicate 32 (Lane.start entry (startX seed))
    recN := 0, frm := 0, fflags := 0, fexc := 0, seed := seed, x := startX seed, fair := 256, fcnt := 0, srvd := 0, turn := none,
    sweep := false, check := 0, ssp := 0, cspb := BitVec.ofNat 32 (spill / 2), cspl := BitVec.ofNat 32 spill,
    trap := TrapRec.zero, bpc := bpc, dbgctl := dbgctl, handler := none, pendingUser := [], sys := [], clock := 0, flights := [],
    pends := [], seq := 0, fences := [], doneReads := [], enqr := none, part := part, slot := slot, lastIssue := 0, stall := 0, spent := [],
    parked := [], released := 0 }

end Sys2Proof.Machine
end

