-- ==== Sys2Proof/Machine/Csr.lean ====
section
/-! DEFINITION. CSRR, CSRW, CSRS and CSRC (R110, R351). -/

namespace Sys2Proof.Machine

/-- A CSR number of 64 bits (R110). -/
def csrWide (n : Nat) : Bool := n = 0x12 || n = 0x22 || n = 0x23 || n = 0x27 || n = 0x28 || (0x200 ≤ n && n ≤ 0x203)

/-- The value of a CSR, for a gang of a block. -/
def csrRead (s : State) (x : Block) (y : Gang) (n : Nat) : DWord :=
  match n with
  | 0x00 => y.frm.setWidth 64
  | 0x01 => y.fflags.setWidth 64
  | 0x02 => y.fexc.setWidth 64
  | 0x03 => y.seed.setWidth 64
  | 0x10 => y.fair.setWidth 64
  | 0x11 => y.check.setWidth 64
  | 0x12 => BitVec.ofNat 64 (s.cycOf x)
  | 0x13 => x.rank.setWidth 64
  | 0x14 => (x.budgetCsr 0).setWidth 64
  | 0x15 => (x.budgetCsr 1).setWidth 64
  | 0x16 => (x.budgetCsr 2).setWidth 64
  | 0x20 => y.recN.setWidth 64
  | 0x21 => y.trap.tcause.setWidth 64
  | 0x22 => y.trap.tpc
  | 0x23 => y.trap.treg
  | 0x24 => y.trap.trec.setWidth 64
  | 0x25 => y.trap.tmask.setWidth 64
  | 0x26 => y.trap.tsib.setWidth 64
  | 0x27 => y.trap.tpar
  | 0x28 => y.trap.tval
  | 0x30 => y.ssp.setWidth 64
  | 0x31 => y.cspb.setWidth 64
  | 0x32 => y.cspl.setWidth 64
  | 0x208 => y.dbgctl.setWidth 64
  | _ => y.bpc.toArray.getD (n - 0x200) 0

/-- FAIR as it stores a value (R62). -/
def clampFair (w : Word) : Word := if w.toNat < 64 then 64 else if 65535 < w.toNat then 65535 else w

/-- A CSR written, reserved bits ignored (R4); FRM modes 6 and 7 are ignored (R135), FAIR is clamped (R62), and SEED starts the
stochastic state anew (R136). Numbers that are read-only everywhere stay as they are. -/
def Gang.csrWrite (y : Gang) (n : Nat) (v : DWord) : Gang :=
  let w : Word := v.setWidth 32
  match n with
  | 0x00 => if 6 ≤ (w &&& 7).toNat then y else { y with frm := w &&& 7 }
  | 0x01 => { y with fflags := w &&& 0x1F }
  | 0x02 => { y with fexc := w &&& 0x1F }
  | 0x03 => { y with seed := w, x := startX w }
  | 0x10 => { y with fair := clampFair w }
  | 0x11 => { y with check := w &&& 1 }
  | 0x21 => { y with trap := { y.trap with tcause := w &&& 0x8FFF } }
  | 0x22 => { y with trap := { y.trap with tpc := v } }
  | 0x23 => { y with trap := { y.trap with treg := v } }
  | 0x24 => { y with trap := { y.trap with trec := w } }
  | 0x25 => { y with trap := { y.trap with tmask := w } }
  | 0x26 => { y with trap := { y.trap with tsib := w } }
  | 0x27 => { y with trap := { y.trap with tpar := v } }
  | 0x28 => { y with trap := { y.trap with tval := v } }
  | 0x30 => { y with ssp := w }
  | 0x31 => { y with cspb := w }
  | 0x32 => { y with cspl := w }
  | 0x208 => { y with dbgctl := w &&& 3 }
  | 0x200 | 0x201 | 0x202 | 0x203 =>
    { y with bpc := y.bpc.setIfInBounds (n - 0x200) (v &&& 0x0000FFFFFFFFFFFD) }
  | _ => y

/-- The CSR number of a word. -/
def csrNum (o : XABC) : Nat := o.b.toNat * 32 + o.c.toNat

/-- The S registers that a CSR word names. -/
def csrRegs (o : XABC) : List RegRef := .s o.a.toNat :: if csrWide (csrNum o) then [.s (o.a.toNat + 1)] else []

/-- CSRR: latency 2 (R351). -/
def execCsrr (o : XABC) (s : State) : Host.Outcome State Fault Refusal :=
  let n := csrNum o
  aluWord { cls := 6, stall := o.st, csr := some (n, false), regsOk := fun _ => !csrWide n || sPair o.a, writes := csrRegs o } 2
    (fun c =>
      let v := csrRead s c.x c.y n
      .ok { writes := .s o.a.toNat (v.setWidth 32) :: if csrWide n then [.s (o.a.toNat + 1) (v.extractLsb' 32 32)] else [] }) s

/-- CSRW, CSRS, CSRC: `f` takes the old value and S[a]. -/
def csrChange (o : XABC) (f : DWord → DWord → DWord) (s : State) : Host.Outcome State Fault Refusal :=
  let n := csrNum o
  issueWord { cls := 6, stall := o.st, csr := some (n, true), regsOk := fun _ => !csrWide n || sPair o.a, reads := csrRegs o }
    (fun c s =>
      let a : DWord := if csrWide n then c.y.getS2 o.a.toNat else (c.y.getS o.a.toNat).setWidth 64
      .done (s.modGang c.b c.g fun y => y.csrWrite n (f (csrRead s c.x c.y n) a)) true) s

def execCsrw (o : XABC) (s : State) := csrChange o (fun _ a => a) s
def execCsrs (o : XABC) (s : State) := csrChange o (fun old a => old ||| a) s
def execCsrc (o : XABC) (s : State) := csrChange o (fun old a => old &&& ~~~a) s

end Sys2Proof.Machine
end

