-- ==== Sys2Proof/Machine/Fetch.lean ====
section
/-! DEFINITION. What comes before a word: which gang a partition takes (R68), the header its lanes reach (R97 to R101), the
breakpoints (R342) and the fetch of the word itself (R79). -/

namespace Sys2Proof.Machine

/-- What an attempt to issue for a gang comes to before its word. -/
inductive Begin where
  /-- The gang is not ready. -/
  | no
  /-- The attempt ended before a word: a trap, or lanes that now wait at their header. -/
  | ended (s : State)
  /-- A word is fetched and has the focus. -/
  | word (w : Word) (s : State)

/-- The lanes of `m` are moved to the region that the header at `pc` opens, its first word not taken up (R334). -/
def Gang.regionAtHeader (y : Gang) (m : Word) (pc : Va) : Gang :=
  y.mapLanes m fun _ l =>
    if l.replay && l.region.pc = pc then { l with region := { l.region with fresh := false } }
    else { l with region := { l.regionAt pc y.recN y.x with fresh := true }, relCount := 0, relSeen := 0, replay := false }

/-- The header at an address, where it can be read at all (R334). -/
def State.peekHeader (s : State) (x : Block) (pc : Va) : Option Word :=
  match s.translateFor x pc.toNat .read with
  | .ok l => some (BitVec.ofNat 32 (leNat (s.readLoc l 4)))
  | .error _ => none

/-- A trap at a header (R99, R334): it is charged to the header's region if the header has RE set, or if the lanes' region is
complete (R333). -/
def headerTrap (s : State) (x : Block) (g : Nat) (y : Gang) (m : Word) (pc : Va) (t : Trap) : State :=
  let re := (match s.peekHeader x pc with | some h => hdrRE h | none => false)
  let done := (lanesOf m).any fun l => (y.lane l).complete
  let y1 := if re || done then y.regionAtHeader m pc else y
  ((s.setGang x.id g y1).takeTrap x.id g m pc t false).modGang x.id g Gang.settleTurn

/-- The WAIT field lets the first word issue (R101). -/
def Gang.waitDone (y : Gang) (h : Word) : Bool :=
  (List.range 6).all (fun i => !(hdrWait h).getLsbD i || y.dSeen i = 0)
    && (!(hdrWait h).getLsbD 6 || y.pends.all fun p => !(p.space = 0 || p.space = 3) || p.accs.all (·.performed))

/-- The wait covers an outstanding quire-window or tun load: a blocking point (R69, R101). -/
def Gang.waitBlocks (y : Gang) (h : Word) : Bool :=
  y.pends.any fun p => (p.kind = .load || p.kind = .mxload) && (p.space = 1 || p.space = 2)
    && (match p.dc with | some d => (hdrWait h).getLsbD d | none => false)

/-- An enabled breakpoint at an address (R341, R342). -/
def Gang.breakAt (y : Gang) (pc : Va) : Option Nat :=
  (List.range 4).find? fun n =>
    let b := y.bpc.toArray.getD n 0
    b.getLsbD 0 && b.extractLsb' 2 46 = pc.extractLsb' 2 46

/-- The word at `pc` for the lanes of `m`, whose clause is known: the breakpoint, then the fetch. -/
def beginWord (s : State) (x : Block) (g : Nat) (y : Gang) (m : Word) (pc hpc : Va) (h : Word) (nvl : Nat) : Begin :=
  let up := s.setGang x.id g (y.takeUp m pc hpc h)
  match (if (lanesOf m).all (fun l => (y.lane l).bpPass) then none else y.breakAt pc) with
  | some n => .ended ((up.takeTrap x.id g m pc { cause := Cause.brk, tval := BitVec.ofNat 64 (0x800 + n) } true).modGang x.id g Gang.settleTurn)
  | none =>
    match s.fetchWord x pc with
    | .error t => .ended ((up.takeTrap x.id g m pc t false).modGang x.id g Gang.settleTurn)
    | .ok w => .word w { s with focus := .gang x.id g m pc hpc h w nvl }

/-- The first word of a clause waits for the WAIT field (R101); lanes that wait for outstanding window or tun loads are at a
blocking point. -/
def beginFirst (s : State) (x : Block) (g : Nat) (y : Gang) (m : Word) (pc hpc : Va) (h : Word) (nvl : Nat) : Begin :=
  if pc = hpc + 4 && !y.waitDone h then
    if y.waitBlocks h then .ended (s.setGang x.id g ((y.mapLanes m fun _ l => { l with wait := .header (hdrWait h) }).settleTurn))
    else .no
  else beginWord s x g y m pc hpc h nvl

/-- A header reached by the lanes of `m` (R99). -/
def beginHeader (s : State) (x : Block) (g : Nat) (y : Gang) (m : Word) (pc : Va) : Begin :=
  match s.fetchWord x pc with
  | .error t => .ended (headerTrap s x g y m pc t)
  | .ok h =>
    if hdrBad h then
      let fell := (lanesOf m).all fun l => (y.lane l).pos = .header .fell
      let t : Trap := if fell then { cause := Cause.illegal, tval := h.setWidth 64 }
        else { cause := Cause.target, tval := pc.setWidth 64 }
      .ended (headerTrap s x g y m pc t)
    else
      let y1 := y.mapLanes m fun _ l => { l with pos := .clause pc h 0, pc := pc + 4, entered := false }
      match beginFirst (s.setGang x.id g y1) x g y1 m (pc + 4) pc h 0 with
      | .ended s' => .ended (if y.waitDone h then s' else s.setGang x.id g ((y.mapLanes m fun _ l => { l with wait := .header (hdrWait h) }).settleTurn))
      | r => r

/-- An attempt to issue for a gang (R60, R63, R68). A gang whose ENQR waits for the front end's answer is not ready (R183). -/
def State.begin (s : State) (b g : Nat) : Begin :=
  match s.gang? b g with
  | none => .no
  | some (x, y0) =>
    let asking := (match y0.enqr with | some (_, none) => true | _ => false)
    if x.residence ≠ .resident || y0.stall ≠ 0 || y0.sys.any (·.halts) || asking then .no
    else
      let y := y0.fairUpdate
      let m := y.issueSet
      match lowest m with
      | none => .no
      | some l0 =>
        let s1 := s.setGang b g y
        let l := y.lane l0
        match l.pos with
        | .header _ => beginHeader s1 x g y m l.pc
        | .clause hpc h nvl => beginFirst s1 x g y m l.pc hpc h nvl

/-! ### The choice of a gang (R68) -/

/-- A gang that a partition may take: its block and index, effective deadline, slot and last issue. -/
structure Cand where
  b : Nat
  g : Nat
  dl : Option Int
  slot : Nat
  last : Nat
  deriving DecidableEq, Repr

/-- The gangs of a partition of a core. -/
def State.candidates (s : State) (d : Die) (core part : Nat) : List Cand :=
  (s.blocks.filter fun x => x.die = d && x.core = core).flatMap fun x =>
    (x.gangs.mapIdx fun i y => (i, y)).filterMap fun p =>
      if p.2.part = part then some { b := x.id, g := p.1, dl := x.effDeadline, slot := p.2.slot, last := p.2.lastIssue } else none

/-- The first of tied gangs in slot order after the slot of the one that issued most recently, wrapping; the lowest slot if
none of them has issued (R68). -/
def pickTied (cs : List Cand) : Option Cand :=
  let last := cs.foldl (fun a c => if a.2 < c.last then (c.slot, c.last) else a) (0, 0)
  let from_ := if last.2 = 0 then 0 else last.1 + 1
  let dist : Cand → Nat := fun c => (c.slot + 8 - from_ % 8) % 8
  cs.foldl (fun a c => match a with
    | none => some c
    | some x => if dist c < dist x then some c else a) none

/-- The gang that a partition takes among the ready ones (R68): the earliest effective deadline, else the background gangs. -/
def pickGang (cs : List Cand) : Option Cand :=
  match cs.filterMap (·.dl) with
  | [] => pickTied cs
  | d :: r => let best := r.foldl min d; pickTied (cs.filter fun c => c.dl = some best)

end Sys2Proof.Machine
end

