-- ==== Sys2Proof/Machine/Resolve.lean ====
section
/-! DEFINITION. System trap records (R339), their resolutions (R209, R335, R340), and the read of a block's parameter block (R17,
R395). -/

namespace Sys2Proof.Machine

/-! ### The parameter block (R17, R395) -/

/-- Units of a parameter block from `i` up, each translated under the block's pin and checked as a read. -/
def State.paramUnits (s : State) (x : Block) (i fuel : Nat) : Except Trap (List Byte) :=
  match fuel with
  | 0 => .ok []
  | k + 1 =>
    let va := x.lrec.param.toNat + 16 * i
    let key := (s.space x.space).key
    match s.translate x.die none key x.rootSlot va .read with
    | .error t => .error t
    | .ok l => match s.readMain key l 16 (BitVec.ofNat 64 va) with
      | .error t => .error t
      | .ok bs => match s.paramUnits x (i + 1) k with
        | .ok r => .ok (bs ++ r)
        | e => e

/-- A trap record of the front end, with nothing in it but a cause and its TVAL. -/
def bareRec (route : Nat) (cause : BitVec 8) (tval : DWord) : TrapRec :=
  { TrapRec.zero with tcause := tcauseOf false route false false cause, tval := tval }

/-- The parameter block of a placed block is read, its 16 units in one step (R17 makes each unit atomic, not the whole; DESIGN CHOICE, log
167); if it cannot be translated, the block waits with a KIND 2 record, and an error strikes the context. -/
def State.readParam (s : State) (b : Nat) : State :=
  match s.block? b with
  | none => s
  | some x =>
    if !x.lrec.fParam then s
    else match s.paramUnits x 0 16 with
    | .ok bs =>
      let x1 := (match s.entry? x.entry with | some e => x.report e s.fcyc[x.die] s.cyc[x.die] | none => x)
      s.setBlock { x1 with mem := x.mem.write 0 bs, residence := .resident, param := none }
    | .error t =>
      if copyFaultCause t.cause then
        { s.setBlock { x with residence := .paramWait, param := some (s.nextId, false) } with
          nextId := s.nextId + 1
          trapQ := s.trapQ ++ [{ die := x.die, ctx := x.ctx, kind := 2, block := b, gang := 0, n := s.nextId,
                                 tr := bareRec 1 t.cause t.tval, compl := 0xFFFFFFFF }] }
      else (s.setBlock { x with residence := .paramWait }).strikeCtx x.die x.ctx t

/-! ### Replays (R209) -/

/-- An operation to be performed again from its saved operands. -/
def OpKind.again (k : OpKind) : OpKind :=
  match k with
  | .kvl table buckets seq lp0 count kk dest ovf _ _ => .kvl table buckets seq lp0 count kk dest ovf [] false
  | _ => k

def Op.again (o : Op) : Op := { o with kind := o.kind.again, reads := [], parts := [], landed := [], fault := none, away := false }

/-- An operation's pin moves to its block's slot (R84); where that cannot take it, it stays. -/
def State.movePin (s : State) (o : Op) (slot : Nat) : State :=
  match o.slot with
  | none => s
  | some n =>
    if n = slot then s
    else match s.pin slot with
      | some s1 => (s1.setOp { o with slot := some slot }).unpin n
      | none => s

/-- The pin that a block's queue keeps for its fetches moves to a slot (R84). -/
def State.moveQueuePin (s : State) (b q slot : Nat) : State :=
  match s.queueOfBlock b q with
  | none => s
  | some p =>
    match p.2.pin with
    | none => s
    | some n =>
      if n = slot then s
      else match s.pin slot with
        | some s1 => ({ s1 with apq := s1.apq.map fun e => if e.1 = p.1 then (e.1, { e.2 with pin := some slot }) else e } : State).unpin n
        | none => s

/-- An operation is replayed under its block's slot. -/
def State.replay (s : State) (id : Nat) : State :=
  match s.op? id with
  | none => s
  | some o => match s.block? o.b with
    | none => s
    | some x =>
      let o1 := o.again
      (s.setOp o1).movePin o1 x.rootSlot

/-- The program of a block that an operation belongs to: its queue, where the operation is its APRUN or one of its fetches. -/
def Op.queueOf (o : Op) : Option Nat := match o.kind with | .aprun q => some q | .apfetch q _ _ => some q | _ => none

/-- A program ends with FAULT by its record's resolution; the cause is deferred (R344). -/
def State.failProgram (s : State) (x : Block) (q : Nat) (cause : BitVec 8) (va : DWord) : State :=
  match s.claimed? x q with
  | none => s
  | some a =>
    let s1 := (s.dropFetches x.id q).dropApq x.die x.core q
    match s1.op? a.op with
    | some o => s1.endOp o stFault va (some (cause, va))
    | none => s1

/-- A KIND 2 record of an operation resolved: 1 RETRY, 2 USER; the block is refreshed first. -/
def State.resolveOp (s : State) (x : Block) (o : Op) (res : Nat) (cause : BitVec 8) : State :=
  let s1 := s.refresh x.id
  match o.kind with
  | .aprun q =>
    match s1.claimed? x q with
    | none => s1
    | some a =>
      if res = 1 then ((s1.setApq x.die x.core q { a with fault := false }).movePin o ((s1.block? x.id).getD x).rootSlot)
      else s1.failProgram x q cause (a.pc.setWidth 64)
  | .apfetch q _ _ =>
    let slot := ((s1.block? x.id).getD x).rootSlot
    if res = 1 then
      (match s1.ops.find? fun (p : Op) => p.b = o.b && p.kind = OpKind.aprun q with
        | some r => s1.movePin r slot
        | none => s1).moveQueuePin x.id q slot |>.replay o.id
    else s1.failProgram x q cause ((o.fault.map Prod.snd).getD 0)
  | _ =>
    if res = 1 then s1.replay o.id
    else
      let va := (o.fault.map Prod.snd).getD 0
      s1.endOp o stFault va (some (cause, va))

/-! ### Resumption (R335, R340) -/

/-- The lanes that wait for a record. -/
def Gang.trapped (y : Gang) (n : Nat) : Word := maskOf fun l => y.live.getLsbD l && (y.lane l).wait = .sysTrap n

/-- A cause delivered on the user route with ROUTE 1 (R340): into the handler, or pending behind it (R338). -/
def Gang.deliverUser (y : Gang) (m : Word) (n : Nat) (tr : TrapRec) (handler : Va) : Gang :=
  let tr1 := { tr with tcause := (tr.tcause &&& 0xFFFFF3FF) ||| 0x400 }
  if y.handler.isNone then y.enterHandler m tr1 handler
  else { y.mapLanes m (fun _ l => { l with wait := .userTrap n, hint := none }) with pendingUser := y.pendingUser ++ [(n, tr1)] }

/-- The refused accesses of a word whose record is answered by neither RETRY nor RESUME are sent no more (log 145); what is left of the word
goes on. -/
def Gang.dropRefused (y : Gang) (n : Nat) : Gang :=
  (y.pends.filter fun p => p.refused = some n).foldl (fun z p =>
    let q := p.without (maskOf fun l => p.accs.any fun a => a.lane = l && a.refused)
    if q.accs.isEmpty || (q.performed && q.dst.isEmpty) then z.dropPend p.id else z.setPend { q with refused := none }) y

/-- A fragment record resolved by RETRY, USER, RESUME or CONT. -/
def Gang.resolve (y : Gang) (r : SysRec) (res : Nat) (handler : Va) : Gang :=
  let m := y.trapped r.n
  let tpc : Va := r.tr.tpc.setWidth 48
  let y1 := { y with sys := y.sys.filter fun q => q.n ≠ r.n }
  match res with
  | 1 => y1.retry m (r.tr.treg.setWidth 48)
  | 2 => if m = 0 then y1.dropRefused r.n else (y1.dropRefused r.n).deliverUser m r.n r.tr handler
  | 4 => y1.mapLanes m fun _ l => l.resumeAt tpc (r.tr.tcause.getLsbD 8)
  | _ => (y1.dropRefused r.n).mapLanes m fun _ l => l.contAt tpc

/-- Whether a fragment record's resolution is taken as ABORT (R340). -/
def SysRec.aborts (r : SysRec) (res : Nat) (handler : DWord) : Bool :=
  res = 3 || 5 < res || (res = 2 && (handler = 0 || r.tr.tcause.getLsbD 15))

/-- A resolution takes effect on a block (R340): by the record's number, that of a gang's record, of an operation or of the parameter
block's record. -/
def State.applyRes (s : State) (b n res : Nat) (cause : BitVec 8) : State :=
  match s.block? b with
  | none => s
  | some x =>
    let found := (x.gangs.mapIdx fun i y => (i, y)).findSome? fun p => (p.2.sys.find? fun r => r.n = n).map fun r => (p.1, r)
    match found with
    | some (g, r) =>
      if r.aborts res x.lrec.handler then s.abortEntry x.entry 2 cause.toNat
      else ((s.refresh b).modGang b g fun y => y.resolve r res (x.lrec.handler.setWidth 48)).settle
    | none =>
      if (x.param.map Prod.fst) = some n then
        if res = 1 then (s.refresh b).readParam b else s.abortEntry x.entry 2 cause.toNat
      else match s.op? n with
      | none => s
      | some o => if res = 1 || res = 2 then (s.resolveOp x o res cause).settle else s.abortEntry x.entry 2 cause.toNat

/-- A resolution reaches a block: one that is away keeps it for its restore. -/
def State.resolution (s : State) (b n res : Nat) (cause : BitVec 8) : State :=
  match s.block? b with
  | none => s
  | some x =>
    if x.residence = .evicted || x.residence = .draining then s.setBlock { x with resLog := x.resLog ++ [(n, res, cause)] }
    else s.applyRes b n res cause

/-! ### The rings (R339, R340) -/

/-- The ring fields of a context and die (R72): TRBASE, TRWA, TRRA and TRLOG2. -/
def State.trField (s : State) (d : Die) (ctx off n : Nat) : Nat := s.ctxField ctx (0x60 + 32 * d.val + off) n

/-- The ring of a context and die as the front end holds it. -/
def State.trapRing (s : State) (d : Die) (ctx : Nat) : TrapRing :=
  (assocGet s.trapRings (d, ctx)).getD { written := 0, handled := 0, recs := [] }

def State.setTrapRing (s : State) (d : Die) (ctx : Nat) (r : TrapRing) : State := { s with trapRings := assocSet s.trapRings (d, ctx) r }

/-- The 64 bytes of a record (R339). -/
def TrapPost.bytes (p : TrapPost) (seq : Word) : List Byte :=
  natLe 1 p.kind ++ natLe 1 p.tr.tcause.toNat ++ natLe 2 p.ctx ++ natLe 4 seq.toNat ++ natLe 4 (p.gang * 2 ^ 24 + p.block)
    ++ natLe 4 p.tr.tmask.toNat ++ natLe 4 p.tr.tsib.toNat ++ natLe 4 p.tr.trec.toNat ++ natLe 8 p.tr.tpc.toNat ++ natLe 8 p.tr.treg.toNat
    ++ natLe 8 p.tr.tpar.toNat ++ natLe 8 p.tr.tval.toNat ++ natLe 4 p.compl.toNat ++ natLe 1 0 ++ natLe 1 (p.tr.tcause.toNat / 256)
    ++ natLe 2 0

/-- The front end subscribes to the TRRIDX word of a ring in use, if it does not. -/
def State.watchRing (s : State) (d : Die) (ctx : Nat) : State :=
  if s.subs.any fun u => u.who = .ring d ctx && u.state = .live then s
  else s.feSubscribe d ctx 0 (.ring d ctx) (.hbm (s.trField d ctx 16 8)) 4

/-- SYSTEM_TRAP_RECORD: place among the records that wait. The oldest of its ring is written and TRWIDX advances, if the ring has
room. -/
def execSystemTrapRecord (s : State) : Host.Outcome State Fault Refusal :=
  match s.input with
  | .nat i =>
    match s.trapQ[i]? with
    | none => .next s
    | some p =>
      let r := s.trapRing p.die p.ctx
      let size := 2 ^ s.trField p.die p.ctx 24 1
      if ((s.trapQ.take i).any fun q => q.die = p.die && q.ctx = p.ctx) || size ≤ (r.written - r.handled).toNat then .next s
      else
        let at_ : Loc := .hbm (s.trField p.die p.ctx 0 8 + 64 * (r.written.toNat % size))
        let s1 := s.performWrite 0 (at_.run 64) (p.bytes r.written) none
        let s2 := s1.performWrite 0 ((Loc.hbm (s.trField p.die p.ctx 8 8)).run 4) (natLe 4 (r.written + 1).toNat) none
        let s3 := s2.setTrapRing p.die p.ctx { r with written := r.written + 1, recs := r.recs ++ [(r.written, p)] }
        let s4 := { s3 with trapQ := s3.trapQ.eraseIdx i }
        let s5 := (if p.kind = 2 then s4 else s4.modGang p.block p.gang fun y =>
          { y with sys := y.sys.map fun q => if q.n = p.n then { q with seq := some r.written.toNat } else q })
        .next (s5.watchRing p.die p.ctx)
  | _ => .next s

/-- Records handled from the last handled index up to `upto`; the first whose RES is 0 stops it (R340). -/
def State.handleRecords (s : State) (d : Die) (ctx : Nat) (upto : Word) (fuel : Nat) : State :=
  match fuel with
  | 0 => s
  | k + 1 =>
    let r := s.trapRing d ctx
    if r.handled = upto || r.handled = r.written then s
    else
      let size := 2 ^ s.trField d ctx 24 1
      let res := ((s.deviceRead (s.trField d ctx 0 8 + 64 * (r.handled.toNat % size) + 0x3C) 1).headD 0).toNat
      if res = 0 then s
      else
        let s1 := s.setTrapRing d ctx { r with handled := r.handled + 1, recs := r.recs.filter fun q => q.1 ≠ r.handled }
        let s2 := (match (r.recs.find? fun q => q.1 = r.handled).map Prod.snd with
          | some p => s1.onBlock p.block fun z => z.resolution p.block p.n res (p.tr.tcause.extractLsb' 0 8)
          | none => s1)
        s2.handleRecords d ctx upto k

/-- TRAP_RESOLUTION: subscription. The front end takes a push of TRRIDX and handles the records below it. A closed subscription is
made again. -/
def execTrapResolution (s : State) : Host.Outcome State Fault Refusal :=
  match s.input with
  | .nat id =>
    match s.sub? id with
    | none => .next s
    | some u =>
      match u.who, u.pend with
      | .ring d ctx, p :: _ =>
        if p.closed then .next ((s.dropSub u).watchRing d ctx)
        else .next ((s.takePush u).handleRecords d ctx (p.value.setWidth 32) 4096)
      | _, _ => .next s
  | _ => .next s

end Sys2Proof.Machine
end

