-- ==== Sys2Proof/Machine/Place.lean ====
section
/-! DEFINITION. Work-graph nodes that launch blocks (R26, R48), the placement of blocks (R17, R18, R53 to R56) and their end (R58). -/

namespace Sys2Proof.Machine

/-! ### Nodes (R26) -/

/-- The earliest deadline among records; none if no record has one. -/
def earliest (l : List Held) : Option Nat :=
  match l.filterMap (·.deadline) with
  | [] => none
  | a :: r => some (r.foldl min a)

/-- One block is launched, with the oldest min(G, held) records. The blocks of a node are numbered in the order of their launches, which
gives S2, S3 and the global index (DESIGN CHOICE, log 39). -/
def Entry.launchOne (e : Entry) (nd : Node) : Entry :=
  let n := min e.lrec.gather nd.held.length
  { e with node := some { nd with held := nd.held.drop n, launched := nd.launched ++ [(e.placed + nd.launched.length, nd.held.take n)] } }

/-- A launch of a node's block, where its condition holds and records are held. -/
def State.nodeLaunch (s : State) (id : Nat) (due : Entry → Node → Bool) : State :=
  match s.entry? id with
  | none => s
  | some e => match e.node with
    | some nd => if e.fin.isNone && !nd.held.isEmpty && due e nd then s.setEntry (e.launchOne nd) else s
    | none => s

/-- NODE_BLOCK_LAUNCH: entry. G records are held, or the node is closed. -/
def execNodeBlockLaunch (s : State) : Host.Outcome State Fault Refusal :=
  match s.input with
  | .nat id => .next (s.nodeLaunch id fun e nd => decide (e.lrec.gather ≤ nd.held.length) || nd.producers = 0)
  | _ => .next s

/-- NODE_TIMEOUT: entry. TIMEOUT cycles have passed since the oldest held record was accepted. -/
def execNodeTimeout (s : State) : Host.Outcome State Fault Refusal :=
  match s.input with
  | .nat id => .next (s.nodeLaunch id fun e nd => e.lrec.timeout ≠ 0 &&
      (match nd.held.head? with | some h => decide (h.at_ + e.lrec.timeout ≤ s.fcyc[e.die]) | none => false))
  | _ => .next s

/-- NODE_MARGIN_REACHED: entry. The earliest deadline among the held records, less MARGIN, has been reached. -/
def execNodeMarginReached (s : State) : Host.Outcome State Fault Refusal :=
  match s.input with
  | .nat id => .next (s.nodeLaunch id fun e nd =>
      (match earliest nd.held with | some t => decide (t ≤ s.fcyc[e.die] + e.lrec.margin) | none => false))
  | _ => .next s

/-! ### Room on a core (R53, R55) -/

/-- What a block takes of its core. -/
structure Occ where
  die : Die
  core : Nat
  r : LaunchRec
  /-- Where its run of local memory begins. -/
  base : Nat
  /-- Partition and slot of each gang. -/
  seats : List (Nat × Nat)
  deriving DecidableEq, Repr

/-- The blocks that hold resources of a core. -/
def State.occupied (s : State) : List Occ :=
  (s.blocks.filter fun x => x.residence ≠ .evicted).map fun x =>
    { die := x.die, core := x.core, r := x.lrec, base := x.lbase, seats := x.gangs.map fun y => (y.part, y.slot) }

/-- Seats for gangs `g` and up, `n` of them: gang g in a free slot of partition (p0 + g) mod 8, the lowest one (DESIGN CHOICE,
log 139). -/
def seatGangs (taken : List (Nat × Nat)) (p0 g n : Nat) : Option (List (Nat × Nat)) :=
  match n with
  | 0 => some []
  | k + 1 =>
    let part := (p0 + g) % 8
    match (List.range 8).find? fun sl => !taken.contains (part, sl) with
    | none => none
    | some sl => (seatGangs ((part, sl) :: taken) p0 (g + 1) k).map ((part, sl) :: ·)

/-- A run of `n` bytes of a core's local memory at a 256-byte boundary beside the runs taken: the lowest that is free (DESIGN CHOICE,
log 36). -/
def localRun (here : List Occ) (n : Nat) : Option Nat :=
  let ends := 0 :: here.map fun o => (o.base + o.r.localB + 255) / 256 * 256
  match ends.filter fun b => decide (b + n ≤ 524288) && here.all fun o => b + n ≤ o.base || o.base + o.r.localB ≤ b with
  | [] => none
  | b :: r => some (r.foldl min b)

/-- A block seated on a core, if the core qualifies. -/
def State.seat (s : State) (occ : List Occ) (d : Die) (core p0 : Nat) (r : LaunchRec) : Option Occ :=
  let here := occ.filter fun o => o.die = d && o.core = core
  let sum : (LaunchRec → Nat) → Nat := fun f => (here.map fun o => f o.r).foldl (· + ·) 0
  if 96 ≤ core || 8 ≤ p0 || s.coreGone d core || 32 < sum (·.ztiles) + r.ztiles
      || 64 < sum (·.tags) + r.tags || 16 < sum (·.gregs) + r.gregs then none
  else match localRun here r.localB with
  | none => none
  | some base =>
    (seatGangs (here.flatMap (·.seats)) p0 0 r.gangs).map fun seats => { die := d, core := core, r := r, base := base, seats := seats }

/-- A block to be seated: its die, its unit and its member number there (R14), its record, and the cores that may take it. -/
structure Item where
  die : Die
  unit : Option Nat
  member : Nat
  r : LaunchRec
  ok : Nat → Bool

/-- Blocks seated one after another where they are asked to go: those of one unit on the member cores of one logical quire (R56). -/
def State.seatAll (s : State) (occ : List Occ) (l : List (Item × Nat × Nat)) : Option (List Occ) :=
  match l with
  | [] => some []
  | (i, core, p0) :: t =>
    let quire : Bool := (match i.unit with
      | none => true
      | some _ => core % 4 = i.member && t.all fun q => q.1.unit ≠ i.unit || q.2.1 / 4 = core / 4)
    if !i.ok core || !quire then none
    else match s.seat occ i.die core p0 i.r with
    | none => none
    | some o => (s.seatAll (o :: occ) t).map (o :: ·)

/-- A block on a core, at the first offset that qualifies. -/
def State.seatOn (s : State) (occ : List Occ) (i : Item) (core : Nat) : Option (Nat × Occ) :=
  if i.ok core then (List.range 8).findSome? fun p0 => (s.seat occ i.die core p0 i.r).map fun o => (p0, o) else none

/-- Blocks of one unit on a quire, with what is occupied then. -/
def State.seatUnit (s : State) (occ : List Occ) (l : List Item) (q : Nat) : Option (List (Nat × Nat) × List Occ) :=
  match l with
  | [] => some ([], occ)
  | i :: t =>
    match s.seatOn occ i (4 * q + i.member) with
    | none => none
    | some (p0, o) => (s.seatUnit (o :: occ) t q).map fun z => ((4 * q + i.member, p0) :: z.1, z.2)

/-- Places for blocks, tried in order: the first core and offset that qualify, or for the blocks of a unit the first quire. -/
def State.findPlaces (s : State) (occ : List Occ) (l : List Item) (fuel : Nat) : Option (List (Nat × Nat)) :=
  match fuel, l with
  | _, [] => some []
  | 0, _ => none
  | k + 1, i :: t =>
    match i.unit with
    | none =>
      match (List.range 96).findSome? fun core => (s.seatOn occ i core).map fun z => (core, z.1, z.2) with
      | none => none
      | some (core, p0, o) => (s.findPlaces (o :: occ) t k).map ((core, p0) :: ·)
    | some u =>
      let grp := i :: t.takeWhile fun z => z.unit = some u
      match (List.range 24).findSome? (s.seatUnit occ grp) with
      | none => none
      | some (ps, os) => (s.findPlaces os (t.dropWhile fun z => z.unit = some u) k).map (ps ++ ·)

/-- The save area that a block to be placed is pointed at: the first of those its entry's admission reserved that no block of it has, or
else a room of the pool, if there is one (log 38). -/
def State.areaFor (s : State) (e : Entry) : Option Nat :=
  match e.areas.find? fun o => s.blocks.all fun x => x.entry ≠ e.id || x.saved ≠ some o with
  | some o => some o
  | none => s.imageRoom e.ctx e.die (imageSize e.lrec)

/-! ### The start of a block (R17, R18) -/

/-- The least unused block id of a die. -/
def State.newBlockId (s : State) (d : Die) : Nat :=
  let base := d.val * 2 ^ 23
  let used := s.blocks ++ s.ended
  base + (((List.range (used.length + 1)).map (· + 1)).find? fun n => used.all fun x => x.id ≠ base + n).getD 1

/-- The debug registers that a context's descriptor gives a gang (R72, R341), their reserved bits 0 (R4). -/
def State.debugRegs (s : State) (ctx : Nat) : Word × Vector DWord 4 :=
  (BitVec.ofNat 32 (s.ctxField ctx 0xC0 4) &&& maskDbgctl,
    Vector.ofFn fun i : Fin 4 => BitVec.ofNat 64 (s.ctxField ctx (0xD0 + 8 * i.val) 8) &&& maskBpc)

/-- The bytes of a record as the gather buffer holds them when they are delivered (R186). -/
def State.recordBytes (s : State) (e : Entry) (h : Held) : List Byte :=
  (s.tun[e.die]).read (s.tbase e.ctx e.die + e.lrec.gbuf + e.lrec.recsz * h.place) e.lrec.recsz

/-- What the read of a record in the gather buffer fails with (R345, R392). -/
def State.recordFails (s : State) (e : Entry) (recs : List Held) : Option Trap :=
  recs.findSome? fun h => (List.range e.lrec.recsz).findSome? fun i =>
    s.lineCheck 0 (.tun e.die (s.tbase e.ctx e.die + e.lrec.gbuf + e.lrec.recsz * h.place + i)) (uaOf 2 (e.lrec.gbuf + e.lrec.recsz * h.place + i))

/-- Local memory at placement (R17): zeros, but for the node records. The spill regions, of which R17 says nothing, start as zeros too
(DESIGN CHOICE, log 37). -/
def startMem (r : LaunchRec) (recs : List (List Byte)) : Memory :=
  (recs.mapIdx fun i d => (i, d)).foldl (fun m p => m.write (256 + r.recsz * p.1) p.2) []

/-- A block of an entry as it starts, its pin already taken, pointed at a save area that admission reserved (R55). -/
def State.startBlock (s : State) (e : Entry) (o : Occ) (p0 id gix slot : Nat) (unit : Option Nat) (deadline : Option Nat) (recs : List Held) :
    Block :=
  let r := e.lrec
  let place := placeOf r gix
  let rank : Word := BitVec.ofNat 32 ((e.group.map (·.rank)).getD 0)
  let dbg := s.debugRegs e.ctx
  let gang : Nat → Nat × Nat → Gang := fun g p =>
    Gang.start g (r.entry.setWidth 48) place.1 place.2 recs.length rank (r.seedb ^^^ BitVec.ofNat 32 (gix * r.gangs + g)) r.spill dbg.2
      dbg.1 p.1 p.2
  { id := id, die := e.die, core := o.core, p0 := p0, lbase := o.base, entry := e.id, tab := e.tab,
    owner := (match e.half with | .peer h => h | _ => e.id), ctx := e.ctx, space := e.space, rootSlot := slot, sys := r.fSys,
    s2 := place.1, s3 := place.2, gix := gix, quire := if unit.isSome then r.quireScope else none, unit := unit,
    member := if unit.isSome then place.1 else 0, residence := .resident, rank := rank, lrec := r, mem := startMem r (recs.map (s.recordBytes e)),
    swz := [], tiles := List.replicate r.ztiles { elems := List.replicate 4096 0, isInt := false },
    tags := List.replicate r.tags { busy := false, done := false, status := 0, detail := 0, cause := none },
    cv := List.replicate r.gregs CvReg.empty
    bars := List.replicate 8 { phase := 0, arrived := List.replicate r.gangs 0, early := List.replicate r.gangs 0 }
    defer := [], deferOvf := [], rep := e.rem,
    repD := e.deadline.map fun t => (t : Int) - s.fcyc[e.die], repCyc := s.cyc[e.die], inherit := none, deadline := deadline,
    restoredAt := none, oldGills := [], pushLog := [], arrivalLog := [], resLog := [], mops := [], aps := [], saved := s.areaFor e, logRoom := none, rabort := false, param := none,
    gangs := o.seats.mapIdx gang }

/-! ### What is to be placed (R40, R42, R56) -/

/-- An entry whose blocks may be placed: admitted, and not being ended. -/
def State.placeable (s : State) (e : Entry) : Bool :=
  e.fin.isNone && (e.kind = .launch || e.kind = .node) && (match e.half with | .asking _ _ _ => false | _ => true)
    && !(s.aborts.any fun a => a.1 = e.id) && !(s.discards.any fun c => c.1 = e.ctx)

/-- The first of a node's launched blocks in order of deadline, the oldest among equals (R40, R48, R56), with its deadline and records. -/
def Node.first? (nd : Node) (demoted : Bool) : Option (Nat × Option Nat × List Held) :=
  let dl : List Held → Option Nat := fun h => if demoted then none else earliest h
  let before : Option Nat → Option Nat → Bool := fun a b => match a, b with | some m, some n => m < n | some _, none => true | none, _ => false
  nd.launched.foldl (fun a p => match a with
    | none => some (p.1, dl p.2, p.2)
    | some v => if before (dl p.2) v.2.1 then some (p.1, dl p.2, p.2) else some v) none

/-- The next blocks of an entry that are to be placed together, each with its global block index, deadline and records. -/
def Entry.nextBlocks (e : Entry) : List (Nat × Option Nat × List Held) :=
  match e.node with
  | some nd => (nd.first? e.demoted).toList
  | none =>
    let n := min (coSize e.lrec e.group e.half) (e.count - e.placed)
    (List.range n).map fun i => (e.gixOf (e.placed + i), e.deadline, [])

/-- An entry after the placement of its next blocks. -/
def Entry.placedNext (e : Entry) (n : Nat) : Entry :=
  { e with placed := e.placed + n
           node := e.node.map fun nd => { nd with launched := nd.launched.filter fun p => some p.1 ≠ (nd.first? e.demoted).map Prod.fst } }

/-- The units of blocks placed together: those of one quire-domain instance share a number (R187). The levels of a NODE's record group no
blocks: each is placed alone (DESIGN CHOICE, log 40). -/
def unitOf (r : LaunchRec) (node : Bool) (base j : Nat) : Option Nat :=
  if node || r.quireScope.isNone then none else some (base + j / max 1 (lvCount (r.level 2)))

/-- The next blocks of an entry, to be seated, with their units numbered from `base`. -/
def Entry.items (e : Entry) (base : Nat) : List Item :=
  e.nextBlocks.mapIdx fun j _ =>
    { die := e.die, unit := unitOf e.lrec e.node.isSome base j, member := j % max 1 (lvCount (e.lrec.level 2)), r := e.lrec, ok := fun _ => true }

/-- Blocks placed: each pins the space's current slot and starts; none if a pin cannot be taken. A record that cannot be read strikes the
context (R345). -/
def State.placeBlocks (s : State) (e : Entry) (l : List ((Occ × Nat) × (Nat × Option Nat × List Held))) (base j : Nat) : Option State :=
  match l with
  | [] => some s
  | p :: t =>
    match s.pinCurrent e.space with
    | .slot n s1 =>
      let id := s1.newBlockId e.die
      let x := s1.startBlock e p.1.1 p.1.2 id p.2.1 n (unitOf e.lrec e.node.isSome base j) p.2.2.1 p.2.2.2
      let s2 := ({ s1 with blocks := s1.blocks ++ [x] } : State).setTags x fun _ => 0
      let s3 := (match s1.recordFails e p.2.2.2 with | some f => s2.strikeCtx e.die e.ctx f | none => s2)
      (s3.placeBlocks e t base (j + 1)).map fun z => z.readParam id
    | _ => none

/-- A co-resident instance of a split launch that lies on both dies (R16, R39): its halves are placed together. -/
def Entry.spans (e : Entry) : Bool :=
  match e.half, e.lrec.deviceLevel, e.lrec.coLevel with
  | .home _ _, some dl, some l => decide (dl ≤ l)
  | .peer _, some dl, some l => decide (dl ≤ l)
  | _, _, _ => false

/-- The entries whose next blocks are placed together: the two halves of a spanning instance, home first, or one entry. A half that has
no blocks (one instance below the device level, all of it at home) is left out. -/
def State.together (s : State) (e : Entry) : List Entry :=
  if e.spans then
    (match e.half, e.twin.bind s.entry? with
      | .peer _, some h => [h, e]
      | _, some p => if p.count = 0 then [e] else [e, p]
      | _, none => [e])
  else [e]

/-- The blocks of some entries to be seated together. -/
def itemsOf (es : List Entry) (base : Nat) : List Item :=
  match es with
  | [] => []
  | e :: t => let l := e.items base; l ++ itemsOf t (base + l.length)

/-- The blocks of some entries placed at their seats: the halves of a spanning instance in one step. -/
def State.placeEntries (s : State) (es : List Entry) (l : List (Occ × Nat)) (base : Nat) : Option State :=
  match es with
  | [] => some s
  | e :: t =>
    let bs := e.nextBlocks
    let s1 := s.setEntry (e.placedNext bs.length)
    match s1.placeBlocks e ((l.take bs.length).zip bs) base 0 with
    | none => none
    | some s2 => s2.placeEntries t (l.drop bs.length) (base + bs.length)

/-- The next blocks of an entry are placed at the places given, with those of its other half where an instance spans both dies. -/
def State.placeAt (s : State) (e : Entry) (at_ : List (Nat × Nat)) : State :=
  let es := s.together e
  let is := itemsOf es 0
  if is.isEmpty || at_.length ≠ is.length || es.any (fun h => h.nextBlocks.isEmpty || !s.placeable h) then s
  else match s.seatAll s.occupied (is.zip at_) with
  | none => s
  | some os =>
    let s1 := { s with nextId := s.nextId + is.length }
    (s1.placeEntries es (os.zip (at_.map Prod.snd)) s.nextId).getD s

/-! ### The end of a block (R58) -/

/-- A block ends. What its gangs have issued and not performed, stores and atomics, is performed after it (R58 waits for none of it). -/
def State.endBlock (s : State) (x : Block) : State :=
  let s1 := s.discardBlock x
  if x.performed then s1 else { s1 with ended := s1.ended ++ [x] }

/-- A byte of the block's local memory is under a lease of another block's operation (R315). -/
def State.leasedByPeer (s : State) (x : Block) : Bool :=
  s.blocks.any fun y => y.id ≠ x.id && y.mops.any fun o => o.data.isNone && !o.away && o.kind.reads.any fun r => r.bytes.any fun a =>
    (match s.engineLoc y a with | some (.loc b _) => b = x.id | _ => false)

/-- BLOCK_END: block. Its resources and its pin are released in one step. -/
def execBlockEnd (s : State) : Host.Outcome State Fault Refusal :=
  match s.input with
  | .nat b =>
    match s.block? b with
    | none => .next s
    | some x =>
      let subs := s.subs.any fun u => (match u.who with | .gill b' _ => b' = b | _ => false)
      if !x.exited || subs || (s.ops.any fun o => o.b = b) || s.leasedByPeer x then .next s
      else
        let s1 := s.endBlock x
        let s2 := (match s1.entry? x.entry with
          | some e => s1.setEntry { e with lastEnd := some s.fcyc[x.die] }
          | none => s1)
        .next s2.settle
  | _ => .next s

end Sys2Proof.Machine
end

