-- ==== Sys2Proof/Machine/Residency.lean ====
section
/-! DEFINITION. Pre-emption and restore (R42, R49 to R52, R70, R71, R210, R292, R317, R346 to R350), and the order in which the front
end places (R40, R42, R56). -/

namespace Sys2Proof.Machine

/-! ### Co-resident instances (R16) -/

/-- Blocks by rising global block index. -/
def byGix (l : List Block) : List Block :=
  l.foldr (fun x a => (a.takeWhile fun y => y.gix < x.gix) ++ x :: a.dropWhile fun y => y.gix < x.gix) []

/-- The blocks that are pre-empted and restored with a block: those of its co-resident instance, on both dies where it spans them, by
global block index. -/
def State.mates (s : State) (x : Block) : List Block :=
  match s.entry? x.entry with
  | none => [x]
  | some e =>
    match e.lrec.coLevel, e.node with
    | some l, none =>
      let size := max 1 (prod ((chipCounts e.lrec e.group).take (l - 2)))
      let es := e.id :: e.twin.toList
      byGix (s.blocks.filter fun y => es.contains y.entry && (y.gix - e.first) / size = (x.gix - e.first) / size)
    | _, _ => [x]

/-! ### Suspension (R49, R69) -/

/-- A lane at a blocking point or in a system trap (R69); a user trap that waits for the handler is neither. -/
def Wait.blocking (w : Wait) : Bool := match w with | .none => false | .signed _ => false | .userTrap _ => false | _ => true

/-- A gang suspended at a blocking point: every live lane, or its siblings stopped by a halt (R342). -/
def Gang.suspended (y : Gang) : Bool := y.sys.any (·.halts) || (lanesOf y.live).all fun l => (y.lane l).wait.blocking

def Block.suspended (x : Block) : Bool := x.residence = .paramWait || x.gangs.all Gang.suspended

/-! ### Region abort (R346) -/

/-- Whether a lane goes back to its region's entry: not one in a trap's wait, nor one whose region is complete. -/
def Lane.goesBack (l : Lane) : Bool := !l.complete && (match l.wait with | .sysTrap _ => false | .userTrap _ => false | _ => true)

/-- A region abort of a gang, and the issue charges it gives back. -/
def Gang.abortRegion (y : Gang) : Gang × Nat :=
  let back := (lanesOf y.live).filter fun l => (y.lane l).goesBack
  let hit : ((Word × Bool) × Word) × Nat → Bool := fun p =>
    back.any fun l => (y.lane l).region.recN = p.1.1.1 && y.handling l = p.1.1.2 && p.1.2.getLsbD l
  let refund := ((y.spent.filter hit).map Prod.snd).foldl (· + ·) 0
  let y1 := back.foldr (fun l z => z.retry (maskOf (· = l)) (z.lane l).region.pc) y
  ({ y1 with spent := y.spent.filter (fun p => !hit p), flights := [], enqr := none }, refund)

/-- Charges of a class given back to an entry (R43). -/
def State.refund (s : State) (ent cls n : Nat) : State :=
  match s.entry? ent with
  | none => s
  | some e => s.setEntry { e with rem := e.rem.modify cls (fun r => r.map (· + n)), used := e.used.modify cls (· - n) }

/-! ### The asynchronous work of a pre-empted block (R347) -/

/-- An address of a block's or a member's local memory. -/
def inLocal (a : DWord) : Bool := match uform a with | some .loc => true | some .win => true | _ => false

/-- Whether an operation is a copy, KVL among them, or a fetch of an address program. -/
def OpKind.isTransfer (k : OpKind) : Bool :=
  match k with
  | .cpy .. | .cpy2d .. | .gth .. | .sct .. | .cpyt .. | .apfetch .. | .kvl .. => true
  | _ => false

/-- A copy that writes local memory, and one that reads it: the lists of GTH and SCT lie there. -/
def Op.writesLocal (o : Op) (x : Block) : Bool :=
  match o.kind with
  | .apfetch .. => true
  | k => k.isTransfer && (List.range k.count).any fun i => (k.sector x i).dst.any inLocal

def Op.readsLocal (o : Op) (x : Block) : Bool :=
  match o.kind with
  | .gth .. | .sct .. => true
  | k => k.isTransfer && (List.range k.count).any fun i => (k.sector x i).src.any inLocal

/-- A copy is cancelled, to be replayed at restore: its landed bytes go back to its barrier in the same step (R209, R210). -/
def State.cancelCopy (s : State) (x : Block) (o : Op) : State :=
  let back := o.landedBytes x
  let s1 := (match o.kind with
    | .apfetch .. => s
    | _ => if o.compl.getLsbD 31 && back ≠ 0 then s.land x o.compl (-(back : Int)) else s)
  s1.setOp { o.again with fault := o.fault, away := true }

/-- One block of a pre-empted instance stops (R346, R347): its gangs by class, its matrix operations, its copies, its address
programs. Its fixed-latency results have all landed and are tested no more after the restore (DESIGN CHOICE, log 156). -/
def State.preemptBlock (s : State) (b : Nat) : State :=
  match s.block? b with
  | none => s
  | some x =>
    let gs := x.gangs.map fun y => if y.suspended then ({ y with flights := [] }, 0) else y.abortRegion
    let refund := (gs.map Prod.snd).foldl (· + ·) 0
    let left := x.mops.filter fun o => o.data.isNone && !o.away
    let mops := x.mops.map fun o => if o.data.isNone then { o with away := true } else o
    let copies := s.ops.filter fun o => o.b = b && o.writesLocal x
    let mine := s.apq.filter fun p => p.2.b = b
    let s1 := s.setBlock { x with
      residence := .draining, gangs := gs.map Prod.fst, mops := mops, rabort := !x.suspended
      aps := mine.map fun p => (p.1.2, p.2) }
    let s2 := { s1 with apq := s1.apq.filter fun p => p.2.b ≠ b }
    let s3 := copies.foldl (fun z o => z.cancelCopy x o) s2
    (s3.refund x.entry 0 refund).refund x.entry 1 ((left.map (·.charge)).foldl (· + ·) 0)

/-- Bytes of a block's logs (R347): 32 for each push that can come while it is away, and for each of its operations (DESIGN CHOICE,
log 38). -/
def State.logSize (s : State) (b : Nat) : Nat :=
  32 * ((s.subs.map fun u => match u.who with
    | .gill b' _ => if b' = b then (if u.every then 2 ^ u.r + 1 else 1) else 0
    | _ => 0).foldl (· + ·) 0 + (s.ops.filter fun o => o.b = b).length)

/-- The room that a block's eviction needs in its context's save pool: for its image, if it has none yet, and for its logs. A block for
which the pool lacks room is no victim (R349). -/
def State.reserve (s : State) (y : Block) : Option State :=
  match (match y.saved with | some o => some o | none => s.imageRoom y.ctx y.die (imageSize y.lrec)) with
  | none => none
  | some o =>
    let s1 := s.modBlock y.id fun z => { z with saved := some o }
    (s1.imageRoom y.ctx y.die (s.logSize y.id)).map fun l => s1.modBlock y.id fun z => { z with logRoom := some (l, s.logSize y.id) }

/-- An instance is pre-empted, if every block of it is on a core, the pool has room, and R52 allows it. -/
def State.preempt (s : State) (x : Block) : Option State :=
  let ms := s.mates x
  let here := ms.all fun y => (y.residence = .resident || y.residence = .paramWait)
  let window := ms.any fun y => !y.suspended && (match y.restoredAt with
    | some t => decide (s.fcyc[y.die] < t + 65536)
    | none => false)
  if !here || window then none
  else ms.foldl (fun a y => a.bind fun z => (z.reserve y).map fun z1 => z1.preemptBlock y.id) (some s)

/-! ### The save image (R349, R350) -/

/-- The fields of a gang record up to 0x2E00. -/
def Gang.image (y : Gang) : List Byte :=
  let w : Word → List Byte := fun v => natLe 4 v.toNat
  let zeros : Nat → List Byte := fun n => List.replicate n 0
  let lane : Nat → List Byte := fun l =>
    let st := (y.lane l).stack.reverse.map fun a => natLe 8 a.toNat
    st.flatten ++ zeros (32 - 8 * st.length)
  (y.v.toList.flatMap fun r => r.toList.flatMap w) ++ (y.vt.toList.flatMap fun r => r.toList.map fun t => t.setWidth 8)
    ++ y.s.toList.flatMap w ++ y.k.toList.flatMap w ++ (y.d.toList.map fun n => BitVec.ofNat 8 n) ++ zeros 2 ++ w y.recN ++ zeros 4
    ++ ([y.frm, y.fflags, y.fexc, y.seed, y.fair, y.check, y.ssp, y.cspb, y.cspl, y.dbgctl].flatMap w) ++ zeros 24
    ++ ((List.range 32).flatMap fun l => if y.live.getLsbD l then natLe 8 (y.lane l).pc.toNat else zeros 8)
    ++ (List.range 32).flatMap lane

/-- The gang that an image's record gives; what stands at 0x2E00 is as it was. Reserved bits stay 0 (R4), and a CSR takes no value that a
write would not give it. -/
def Gang.ofImage (y : Gang) (bs : List Byte) : Gang :=
  let w : Nat → Word := fun o => BitVec.ofNat 32 (dfield bs o 4)
  let k : Vector Word 12 := Vector.ofFn fun i => w (0x2880 + 4 * i.val)
  let y1 := { y with
    v := Vector.ofFn fun n => Vector.ofFn fun l => w (128 * n.val + 4 * l.val)
    vt := Vector.ofFn fun n => Vector.ofFn fun l => ((bs.getD (0x2000 + 32 * n.val + l.val) 0).setWidth 5 : BitVec 5)
    s := Vector.ofFn fun i => if i.val = 0 then 0 else w (0x2800 + 4 * i.val)
    k := k
    d := Vector.ofFn fun i => (bs.getD (0x28B0 + i.val) 0).toNat
    dNow := Vector.replicate 6 0
    recN := w 0x28B8, seed := w 0x28CC, ssp := w 0x28D8, cspb := w 0x28DC, cspl := w 0x28E0 }
  let csrs : List (Nat × Nat) := [(0x00, 0x28C0), (0x01, 0x28C4), (0x02, 0x28C8), (0x10, 0x28D0), (0x11, 0x28D4), (0x208, 0x28E4)]
  (csrs.foldl (fun z p => z.csrWrite p.1 ((w p.2).setWidth 64)) y1).mapLanes k[0] fun l z =>
    let pc : Va := BitVec.ofNat 48 (dfield bs (0x2900 + 8 * l) 8)
    let n := z.stack.length
    let st := ((List.range n).map fun j => BitVec.ofNat 64 (dfield bs (0x2A00 + 32 * l + 8 * j) 8)).reverse
    { z with pc := pc, stack := st, pos := if pc = z.pc then z.pos else .header .transferred }

/-- A tile's bytes, and the elements they give. -/
def Tile.image (t : Tile) : List Byte := t.elems.flatMap fun v => natLe 4 v.toNat

def tileElems (bs : List Byte) : List Word := (List.range 4096).map fun i => BitVec.ofNat 32 (dfield bs (4 * i) 4)

/-- Bytes of a pool. -/
def State.poolRead (s : State) (x : Block) (off n : Nat) : List Byte := (s.poolRun x off n).map s.readByte

/-- What the read of a block's image fails with (R345, R368, R369): no rule gives the pool's bytes a VA, and INTEGRITY carries the physical
address (DESIGN CHOICE, log 151). -/
def State.imageFails (s : State) (x : Block) (base : Nat) : Option Trap :=
  if s.faults.isEmpty && !s.prot then none
  else (s.poolRun x base (imageSize x.lrec)).findSome? fun l => s.lineCheck (s.space x.space).key l (BitVec.ofNat 64 l.pa)

/-- A line of a block's image that is not written because its counter would wrap (R369). -/
def State.imageWraps (s : State) (x : Block) (base : Nat) : Option Trap :=
  if !s.prot then none
  else ((s.poolRun x base (imageSize x.lrec)).find? s.wrapped).map fun l =>
    { cause := Cause.integrity, tval := BitVec.ofNat 64 l.pa, at_ := some l }

/-- Bytes of a block's image lie in a range that is lent: the slices refuse them to the front end (R374). The image is then neither written nor
read, and the block waits as it is (DESIGN CHOICE, log 179). -/
def State.imageLent (s : State) (x : Block) (base : Nat) : Bool :=
  !s.lends.isEmpty && (s.poolRun x base (imageSize x.lrec)).any s.lentLoc

/-- An image's header (R349): block id, root slot, ENTRY, LOCAL, GANGS, ZTILES, TAGS, GREGS, whether a barrier has its PARKED bit set, and the SEQs
of pending records, 8 bytes each in this order, then zeros (DESIGN CHOICE, log 41). -/
def Block.header (x : Block) (seqs : List Nat) : List Byte :=
  let bs := [x.id, x.rootSlot, x.lrec.entry.toNat, x.lrec.localB, x.lrec.gangs, x.lrec.ztiles, x.lrec.tags, x.lrec.gregs, 0].flatMap (natLe 8)
    ++ seqs.flatMap (natLe 8)
  (bs ++ List.replicate 256 0).take 256

/-- The SEQs of a block's pending records: those posted to its context's ring and not handled, of its gangs, its copies and its
parameter block alike (R339). -/
def State.pendingSeqs (s : State) (x : Block) : List Nat :=
  ((s.trapRing x.die x.ctx).recs.filter fun p => p.2.block = x.id).map fun p => p.1.toNat

/-- An image written: the header, and the parts that R350 lays out, as they stand; the state at 0x2E00 and the block state, whose formats
the spec does not give, free. -/
def State.writeImage (s : State) (x : Block) (base : Nat) : State :=
  let key := (s.space x.space).key
  let put : State → Nat → List Byte → State := fun z off bs => z.performWrite key (z.poolRun x off bs.length) bs none
  let s1 := put s base (x.header (s.pendingSeqs x))
  let s2 := (x.gangs.mapIdx fun i y => (i, y)).foldl (fun z p =>
    (put z (Block.gangAt base p.1) p.2.image).freeBytes key (s.poolRun x (Block.gangAt base p.1 + 0x2E00) 512)) s1
  let s3 := put s2 (x.localAt base) (x.mem.read 0 x.lrec.localB)
  let s4 := (x.tiles.mapIdx fun i t => (i, t)).foldl (fun z p => put z (x.tileAt base p.1) p.2.image) s3
  s4.freeBytes key (s.poolRun x (x.tileAt base x.lrec.ztiles) 98304)

/-- Words in flight that an eviction does not wait for; their results are parked (R50, R346): those of drain class P, and those of class
M that have been performed and whose completion is late. -/
def Pend.parks (p : Pend) : Bool :=
  p.performed || match p.kind with
  | .load | .mxload => p.space = 1 || p.space = 2
  | .atomic => 1 ≤ p.scope
  | .lockop => 1 ≤ p.scope || p.accs.all fun a => a.performed || a.queued
  | _ => false

/-- An access that may still change local memory of a block. -/
def Pend.mayWrite (p : Pend) (b : Nat) : Bool :=
  match p.kind with
  | .load | .mxload | .tbrd => false
  | _ => p.accs.any fun a => !a.performed && !a.queued && (match a.loc with | .loc b' _ => b' = b | _ => false)

/-- Whether the work that a pre-emption waits for is over (R50, R51): words in flight but those of class P are complete, copies that read
local memory have finished, the operations of the matrix engine that go on have completed, and nothing on its way can still change the
block's local memory. -/
def State.drained (s : State) (x : Block) : Bool :=
  (x.gangs.all fun y => y.pends.all Pend.parks)
    && (s.ops.all fun o => o.b ≠ x.id || o.away || o.fault.isSome || !o.readsLocal x) && x.mops.all (·.away)
    && (s.blocks ++ s.ended).all fun z => z.gangs.all fun y => y.pends.all fun p => !p.mayWrite x.id

/-- SAVE_IMAGE_DONE: block. Its image is in the pool and its resources are free. -/
def execSaveImageDone (s : State) : Host.Outcome State Fault Refusal :=
  match s.input with
  | .nat b =>
    match s.block? b with
    | none => .next s
    | some x =>
      match x.saved with
      | some base =>
        if x.residence ≠ .draining || !s.drained x || s.imageLent x base then .next s
        else match s.imageWraps x base with
        | some t => .next (if s.struck x.ctx then s else s.strikeCtx x.die x.ctx t)
        | none => .next ((s.writeImage x base).modBlock b fun y => { y with residence := .evicted, swz := s.tagsOf x })
      | none => .next s
  | _ => .next s

/-! ### The logs (R210, R292, R348) -/

/-- The parked pushes applied: under LATEST the newest of a subscription, under EVERY each in order. -/
def State.applyPushes (s : State) (b : Nat) (l : List Push) : State :=
  match l with
  | [] => s
  | p :: t =>
    let s1 := (match s.sub? p.sub with
      | some u => (match u.who with
        | .gill _ base => if u.every || !(t.any fun q => q.sub = p.sub) then s.deliverLocal u p b base else s
        | _ => s)
      | none => s)
    s1.applyPushes b t

/-- The parked arrivals applied. -/
def Block.applyArrival (x : Block) (a : Arrival) : Block :=
  match a.done with
  | some (st, detail, cause) => x.completeTag (nbits a.compl.toNat 5 0) st detail cause
  | none => let off := nbits a.compl.toNat 18 0; x.setTb off ({ x.tb off with parked := false }.add (-a.bytes))

/-- A block with its logs applied. -/
def State.applyLogs (s : State) (b : Nat) : State :=
  match s.block? b with
  | none => s
  | some x =>
    let s1 := (s.setBlock { x with pushLog := [], arrivalLog := [] }).applyPushes b x.pushLog
    s1.modBlock b fun y => x.arrivalLog.foldl Block.applyArrival y

/-! ### Wakes of an evicted block (R42, R70) -/

/-- Whether an operation that was cancelled or abandoned reports to a tag of the block, of a mask. -/
def State.awayTag (s : State) (x : Block) (m : DWord) : Bool :=
  let tag : Word → Bool := fun c => !c.getLsbD 31 && m.getLsbD (nbits c.toNat 5 0)
  (s.ops.any fun o => o.b = x.id && o.away && tag o.compl)
    || x.mops.any fun o => o.away && ((match o.cons with | some t => tag (BitVec.ofNat 32 t) | none => false)
      || (match s.op? o.id with | some q => tag q.compl | none => false))

/-- Whether an operation of the block or of a mate that was cancelled or abandoned reports to a barrier of the block. -/
def State.awayBar (s : State) (x : Block) (off : Nat) : Bool :=
  (s.ops.any fun o => (match s.block? o.b with
    | some z => (o.away || z.mops.any fun p => p.id = o.id && p.away) && s.complBar z o.compl = some (x.id, off)
    | none => false))

/-- A lane's saved wake condition has fired, given the block with its logs and parked results applied. -/
def State.fired (s : State) (x : Block) (y : Gang) (l : Nat) : Bool :=
  let ln := y.lane l
  ln.hint = some 0 || y.released.getLsbD l || (y.parked.any fun p => p.1 = l && p.2.2.2) ||
  match ln.wait with
  | .none | .signed _ | .aqpop _ _ => true
  | .tags m _ => s.awayTag x m || (match s.testWait x y ln with | .no => false | _ => true)
  | .tb off _ _ => s.awayBar x off || (match s.testWait x y ln with | .no => false | _ => true)
  | .bar _ _ | .cbar _ | .waitk _ _ | .lock _ _ _ => false
  | _ => (match s.testWait x y ln with | .no => false | _ => true)

/-- The results parked while a gang was away are written, in issue order, and count as delivered (R70, R346); the answers of lock sites
are taken. -/
def Gang.unpark (y : Gang) (fresh : Nat) : Gang × Nat :=
  let a := y.pends.foldl (fun (q : Gang × Nat) p =>
    if p.ready then ((q.1.writeResult p q.2).dropPend p.id, q.2 + 32 * p.dst.length) else q) (y, fresh)
  ({ a.1 with dNow := Vector.replicate 6 0 }, a.2)

/-- The gangs of a block with their parked results. -/
def State.unparkBlock (s : State) (b : Nat) : State :=
  match s.block? b with
  | none => s
  | some x =>
    let r := x.gangs.foldl (fun (q : List Gang × Nat) y => let p := y.unpark q.2; (q.1 ++ [p.1], p.2)) ([], s.fresh)
    { s.setBlock { x with gangs := r.1 } with fresh := r.2 }

/-- An evicted block with its parked results written and its logs applied: what its saved wake conditions are tested against (R70). -/
def State.applied (s : State) (x : Block) : State := ((s.setBlock { x with residence := .resident }).unparkBlock x.id).applyLogs x.id

/-- The answers that lock sites gave while a gang was away. -/
def Gang.answerParked (y : Gang) : Gang :=
  y.parked.foldl (fun z p =>
    let m : Word := maskOf fun l => l = p.1
    if p.2.2.2 then z.answerWake p.2.1 m p.2.2.1 else z.answer p.2.1 m p.2.2.1) { y with parked := [], released := 0 }

/-- The lanes of a gang whose hint ran out while it was away answer 0 (R70). -/
def State.expireAway (s : State) (b g : Nat) : State :=
  (List.range 32).foldl (fun z l =>
    match z.gang? b g with
    | none => z
    | some (_, y) =>
      let ln := y.lane l
      if ln.hint ≠ some 0 || !y.live.getLsbD l then z
      else match ln.wait with
      | .tryw _ kd | .tb _ _ (some kd) | .slwait _ _ _ kd => z.setGang b g (y.answerWake kd (maskOf (· = l)) false)
      | .lock _ _ _ => (match z.lockWaits.find? fun w => w.b = b && w.g = g && w.lane = l with
        | some w => z.dropWaiter w
        | none => z)
      | _ => z) s

/-- A lane whose hint, as it stands in its own state, would run out within `n` cycles although its wake condition has fired in the state `s`
with the logs applied: of what happens first, the wake stands (R70). Once the wake has fired the hint runs out no more, whether or not the
wake then satisfies the wait (DESIGN CHOICE, log 170). -/
def State.firedFirst (s : State) (x : Block) (n g l : Nat) : Bool :=
  match x.gangs[g]?, s.block? x.id with
  | some y0, some z => match z.gangs[g]?, (y0.lane l).hint with
    | some y, some h => 0 < h && decide (h ≤ n) && s.fired z y l
    | _, _ => false
  | _, _ => false

/-- An evicted block may be restored: a gang of it runs, a wake condition has fired, a resolution has come, or it has exited and anything
has come that it waits for: a push, an arrival, or an operation to be replayed (R70 names conditions of lanes alone; DESIGN CHOICE,
log 141). -/
def State.wakes (s : State) (x : Block) : Bool :=
  if !x.resLog.isEmpty then true
  else if x.param.isSome then false
  else if x.exited then !x.pushLog.isEmpty || !x.arrivalLog.isEmpty || s.ops.any fun o => o.b = x.id && o.away
  else
    let s1 := s.applied x
    match s1.block? x.id with
    | none => false
    | some z => z.gangs.any fun y => !(y.sys.any (·.halts)) && (lanesOf y.live).any fun l => s1.fired z y l

/-- The results that a block's re-executed words may need have all arrived (R346): it may be restored. -/
def Block.parkedReady (x : Block) : Bool := x.gangs.all fun y => y.pends.all fun p => p.dst.isEmpty || p.kind = .aqpop || p.ready

/-! ### What is to be placed or restored, in order (R40, R42, R56) -/

/-- A thing to be placed: the next blocks of an entry, or an evicted instance. -/
structure Want where
  dl : Option Int
  entry : Nat
  adm : Nat
  gix : Nat
  /-- The evicted instance's first block on the die; none for unplaced blocks. -/
  back : Option Nat
  deriving DecidableEq, Repr

/-- An earlier deadline; none is later than every deadline. -/
def dlBefore (a b : Option Int) : Bool := match a, b with | some m, some n => m < n | some _, none => true | none, _ => false

/-- The order of placement: by effective deadline, then by admission, then by global block index. -/
def Want.before (a b : Want) : Bool :=
  dlBefore a.dl b.dl || (a.dl = b.dl && (a.adm < b.adm || (a.adm = b.adm && a.gix < b.gix)))

/-- The earliest effective deadline among blocks. -/
def earliestOf (l : List Block) : Option Int := earliestDl (l.filterMap Block.effDeadline)

/-- Where an entry stands in the order of admission. -/
def State.admOf (s : State) (ent : Nat) : Nat := ((s.entry? ent).map (·.adm)).getD ent

/-- The want of an entry's next blocks. -/
def State.newWant (s : State) (e : Entry) : Option Want :=
  if s.placeable e then
    (match e.nextBlocks with
      | b :: _ => some { dl := b.2.1.map Int.ofNat, entry := e.id, adm := e.adm, gix := b.1, back := none }
      | [] => none)
  else none

/-- The want of an evicted instance on a die, given a block of it. -/
def State.backWant (s : State) (x : Block) : Option Want :=
  let ms := s.mates x
  let here := ms.filter fun y => y.die = x.die
  if x.residence = .evicted && (here.head?.map (·.id)) = some x.id && (ms.all fun y => y.residence = .evicted && y.parkedReady)
      && ms.any s.wakes then
    some { dl := earliestOf here, entry := x.entry, adm := s.admOf x.entry, gix := x.gix, back := some x.id }
  else none

/-- What a die's front end has to place: the next blocks of its entries, and the evicted instances that may be restored. -/
def State.wants (s : State) (d : Die) : List Want :=
  (s.entries.filterMap fun e => if e.die = d then s.newWant e else none)
  ++ s.blocks.filterMap fun x => if x.die = d then s.backWant x else none

/-- Blocks of an evicted instance, to be seated: the queues of their address programs must be free on the core. -/
def State.backItems (s : State) (ms : List Block) : List Item :=
  ms.map fun y =>
    { die := y.die, unit := y.unit, member := y.member, r := y.lrec
      ok := fun core => y.aps.all fun q => (s.apq? y.die core q.1).isNone }

/-- The blocks of a want, to be seated. -/
def State.wantItems (s : State) (w : Want) : List Item :=
  match w.back with
  | some b => (match s.block? b with | some x => s.backItems (s.mates x) | none => [])
  | none => (match s.entry? w.entry with | some e => itemsOf (s.together e) 0 | none => [])

/-- Whether a want fits somewhere, and where. -/
def State.fit (s : State) (w : Want) : Option (List (Nat × Nat)) :=
  let l := s.wantItems w
  s.findPlaces s.occupied l l.length

/-- Whether a want is the first of its die that fits. -/
def State.firstFit (s : State) (d : Die) (w : Want) : Bool := (s.wants d).all fun v => !v.before w || (s.fit v).isNone

/-- Pairs of bytes as places: core and p0. -/
def placesOf (bs : List Byte) : List (Nat × Nat) := (List.range (bs.length / 2)).map fun i => ((bs.getD (2 * i) 0).toNat, (bs.getD (2 * i + 1) 0).toNat)

/-- BLOCK_PLACEMENT: entry; a core and a p0 for each block placed together: of an instance over both dies, those of the home half
first. -/
def execBlockPlacement (s : State) : Host.Outcome State Fault Refusal :=
  match s.input with
  | .bytes id _ data =>
    match s.entry? id with
    | none => .next s
    | some e =>
      let first : Entry → Bool := fun h => (match s.newWant h with | some w => s.firstFit h.die w | none => false)
      .next (if (s.together e).all first then (s.placeAt e (placesOf data)).settle else s)
  | _ => .next s

/-! ### The choice of a victim (R42) -/

/-- Whether a lane of a block waits, by a lock operation or TRYW, on a lock that one of some blocks holds for writing. -/
def State.waitsOn (s : State) (x : Block) (holders : List Nat) : Bool :=
  (s.lockWords x).any fun a => (s.lockHolder (s.space x.space).key a).any holders.contains

/-- The order of victims: background first, then wholly suspended blocks, then the latest effective deadline, then the entry admitted
last, then the highest global block index. -/
def State.victimBefore (s : State) (a b : Block) : Bool :=
  let bg : Block → Nat := fun x => if x.effDeadline.isNone then 0 else 1
  let su : Block → Nat := fun x => if x.suspended then 0 else 1
  if bg a ≠ bg b then bg a < bg b
  else if su a ≠ su b then su a < su b
  else if a.effDeadline ≠ b.effDeadline then dlBefore b.effDeadline a.effDeadline
  else if s.admOf a.entry ≠ s.admOf b.entry then s.admOf b.entry < s.admOf a.entry
  else b.gix < a.gix

/-- A block's effective deadline as a die counts it. -/
def State.dlOn (s : State) (d : Die) (y : Block) : Option Int :=
  y.effDeadline.map fun t => if y.die = d then t else t - s.fcyc[y.die] + s.fcyc[d]

/-- Whether a block may be taken for a want: every block of its instance has a later effective deadline, or some block of it waits on a
lock that a block of the want's instance holds: waiters never keep a holder away, and their instance leaves whole. -/
def State.takes (s : State) (d : Die) (w : Want) (x : Block) : Bool :=
  let back := (match w.back.bind s.block? with | some h => (s.mates h).map (·.id) | none => [])
  (s.mates x).any (fun y => s.waitsOn y back) || (s.mates x).all fun y => dlBefore w.dl (s.dlOn d y)

/-- Whether a block may be a victim for a want of a die: R42 lets it be taken for the want, and it can be pre-empted. -/
def State.mayTake (s : State) (d : Die) (w : Want) (y : Block) : Bool := y.die = d && s.takes d w y && (s.preempt y).isSome

/-- The first want of a die, in order, that does not fit and has a victim. -/
def State.stuckWant (s : State) (d : Die) : Option Want :=
  ((s.wants d).filter fun w => (s.fit w).isNone && s.blocks.any (s.mayTake d w)).foldl (fun a w => match a with
    | none => some w
    | some v => if w.before v then some w else some v) none

/-- Whether a block is the first victim in the order of R42. -/
def State.isVictim (s : State) (x : Block) : Bool :=
  match s.stuckWant x.die with
  | none => false
  | some w => s.mayTake x.die w x && s.blocks.all fun y => !s.mayTake x.die w y || !s.victimBefore y x

/-- PREEMPT_DECISION: block, reason: 0 a request of Dziyx, 1 the choice of R42. -/
def execPreemptDecision (s : State) : Host.Outcome State Fault Refusal :=
  match s.input with
  | .nat2 b why =>
    match s.block? b with
    | none => .next s
    | some x =>
      if why ≠ 0 && !s.isVictim x then .next s
      else .next ((s.preempt x).getD s)
  | _ => .next s

/-! ### Restore (R348) -/

/-- Local memory, tiles and gang records from a block's image, on its new core. The window of R52 runs from the last restoration after a
region abort. The issues that a gang made before it left do not count against it in its new partition (R68; DESIGN CHOICE, log 140). -/
def State.loadImage (s : State) (x : Block) (base : Nat) (o : Occ) (p0 : Nat) : Block :=
  let gang : Nat → Gang → Gang := fun i y =>
    let seat := o.seats.getD i (0, 0)
    { y.ofImage (s.poolRead x (Block.gangAt base i) 0x2E00) with part := seat.1, slot := seat.2, lastIssue := 0, stall := 0 }
  { x with
    core := o.core, p0 := p0, lbase := o.base
    mem := Memory.write [] 0 (s.poolRead x (x.localAt base) x.lrec.localB)
    tiles := x.tiles.mapIdx fun i t => { t with elems := tileElems (s.poolRead x (x.tileAt base i) 16384) }
    gangs := x.gangs.mapIdx gang
    residence := if x.param.isSome then .paramWait else .resident
    logRoom := none, restoredAt := if x.rabort then some s.fcyc[x.die] else x.restoredAt, rabort := false, aps := [] }

/-- The charges of the operations to be accepted again. -/
def Block.againCharge (x : Block) : Nat := ((x.mops.filter (·.away)).map (·.charge)).foldl (· + ·) 0

/-- Matrix operations accepted again in order, charged again (R317), each with its pin on the block's slot (R84). -/
def State.acceptAgain (s : State) (b : Nat) : State :=
  match s.block? b with
  | none => s
  | some x =>
    let s1 := s.setBlock { x with mops := x.mops.filter fun o => !o.away }
    (x.mops.filter (·.away)).foldl (fun z o =>
      let z1 := (z.accept b o).charge x.entry 1 o.charge
      match z1.op? o.id with | some q => z1.movePin q x.rootSlot | none => z1) s1

/-- One block of an instance comes back: its image, its parked results, its logs, its resolutions, its matrix operations, its copies and
its address programs, in the order of R348. A KiB that lies otherwise on the new core has the tag that the first byte of it had (R204,
log 124). The lanes whose hints ran out while it was away answer 0 before anything is applied (R70). -/
def State.restoreBlock (s : State) (x : Block) (base : Nat) (o : Occ) (p0 : Nat) : State :=
  let y := s.loadImage x base o p0
  let s0 : State := { s.setBlock y with apq := s.apq ++ x.aps.map (fun (q : Nat × ApQueue) => ((x.die.val * 96 + o.core, q.1), q.2)) }
  let s1 := s0.setTags y x.savedTag
  let s2 := (List.range x.gangs.length).foldl (fun z g => z.expireAway x.id g) s1
  let s3 := ((s2.unparkBlock x.id).modBlock x.id fun y => { y with gangs := y.gangs.map Gang.answerParked })
  let s4 := (s3.dropLines (x.die.val * 96 + o.core) fun _ => true).applyLogs x.id
  let s5 := x.resLog.foldl (fun z r => z.applyRes x.id r.1 r.2.1 r.2.2) (s4.modBlock x.id fun y => { y with resLog := [] })
  let s6 := s5.acceptAgain x.id
  (s6.ops.filter fun q => q.b = x.id && q.away).foldl (fun z q =>
    if q.fault.isSome then z.setOp { q with away := false } else z.replay q.id) s6

/-- The conditions that change with no log are tested when an instance is back: release masks, signatures, and block and cluster barriers
(R70), whose masks a debugger may have written (R350). -/
def State.retest (s : State) (b : Nat) : State :=
  let s1 := s.modBlock b fun x => { x with gangs := x.gangs.map Gang.settleK }
  match s1.block? b with
  | none => s1
  | some x => ((s1.retestCvs x.entry).modBlock b Block.testBars).testUnit x

/-- The entries of an instance's blocks that cannot pay the matrix charges of their operations again, with the shortfall (R44, R317): of an
instance over both dies each half's go to its own entry (R39). -/
def State.againShort (s : State) (ms : List Block) : List (Nat × Nat) :=
  (ms.map (·.entry)).eraseDups.filterMap fun ent =>
    let n := ((ms.filter fun x => x.entry = ent).map Block.againCharge).foldl (· + ·) 0
    if n = 0 then none else (s.shortfall ent 1 n).map fun short => (ent, short)

/-- BLOCK_RESTORE: the first block on its die of an evicted instance; a core and a p0 for each of the instance's blocks. Where an entry
cannot pay the matrix charges again, OVERRUN is raised for it and the instance stays away (R44, R317); an image that cannot be read strikes the
context (R345). -/
def execBlockRestore (s : State) : Host.Outcome State Fault Refusal :=
  match s.input with
  | .bytes b _ data =>
    match s.block? b with
    | none => .next s
    | some x =>
      let ms := s.mates x
      let ps := placesOf data
      let ready : Bool := (ms.filterMap s.backWant).all (fun w => (match w.back.bind s.block? with | some y => s.firstFit y.die w | none => false))
      if (s.backWant x).isNone || !ready || ps.length ≠ ms.length || ms.any (fun y => y.saved.any (s.imageLent y)) then .next s
      else match s.seatAll s.occupied ((s.backItems ms).zip ps) with
      | none => .next s
      | some os =>
        match ms.findSome? fun y => y.saved.bind (s.imageFails y) with
        | some t => .next (if s.struck x.ctx then s else s.strikeCtx x.die x.ctx t)
        | none =>
        match s.againShort ms with
        | p :: r => .next ((p :: r).foldl (fun z q => z.overrun q.1 1 q.2) s)
        | [] =>
          let s1 := ((ms.zip os).zip (ps.map Prod.snd)).foldl (fun z p =>
            let y := (z.block? p.1.1.id).getD p.1.1
            match y.saved with
            | some base => z.restoreBlock y base p.1.2 p.2
            | none => z) s
          .next (ms.foldl (fun z y => z.retest y.id) s1).settle
  | _ => .next s

end Sys2Proof.Machine
end

