-- ==== Sys2Proof/Machine/Outside.lean ====
section
/-! DEFINITION. The notice and overrun rings (R89, R386), unrecoverable errors (R345), the host link and the other requesters (R248,
R380, R381), leases (R372 to R378), ports (R382), quires (R387), errors (R391 to R393) and temperature (R394). -/

namespace Sys2Proof.Machine

/-! ### Notice and overrun rings (R386) -/

/-- Room in a ring: it holds 2^(LOG2N + 6) entries. -/
def Ring.room (r : Ring) : Bool := decide ((r.widx - r.ridx).toNat < 2 ^ (r.log2n + 6))

/-- Where a ring's next entry of `n` bytes goes. -/
def Ring.nextAt (r : Ring) (n : Nat) : Nat := r.base + n * (r.widx.toNat % 2 ^ (r.log2n + 6))

/-- An overrun record. -/
def OverrunRec.bytes (r : OverrunRec) : List Byte :=
  natLe 4 r.q ++ natLe 4 r.idx.toNat ++ natLe 8 r.cls ++ natLe 8 r.short ++ natLe 8 r.ctx

/-- The first of a list that a test takes, and the others. -/
def takeFirst {α : Type} (p : α → Bool) (l : List α) : Option (α × List α) :=
  match l with
  | [] => none
  | a :: t => if p a then some (a, t) else (takeFirst p t).map fun r => (r.1, a :: r.2)

/-- NOTICE_RING_POST: die, and 0 for the notice ring or 1 for the overrun ring. The oldest that waits is written, if the ring has room. -/
def execNoticeRingPost (s : State) : Host.Outcome State Fault Refusal :=
  match s.input with
  | .nat2 dn 0 =>
    let d : Die := Fin.ofNat 2 dn
    let r := s.fe[d].notices
    match takeFirst (fun p => p.1 = d) s.noticeQ with
    | some (p, rest) =>
      if !r.room then .next s
      else .next (({ s with noticeQ := rest }.performWrite 0 ((Loc.hbm (r.nextAt 16)).run 16) p.2 none).modFe d fun f =>
        { f with notices := { r with widx := r.widx + 1 } })
    | none => .next s
  | .nat2 dn _ =>
    let d : Die := Fin.ofNat 2 dn
    let r := s.fe[d].overruns
    match takeFirst (fun (p : OverrunRec) => p.die = d) s.overruns with
    | some (p, rest) =>
      if !r.room then .next s
      else .next (({ s with overruns := rest }.performWrite 0 ((Loc.hbm (r.nextAt 32)).run 32) p.bytes none).modFe d fun f =>
        { f with overruns := { r with widx := r.widx + 1 } })
    | none => .next s
  | _ => .next s

/-! ### Unrecoverable errors (R345) -/

/-- FAULT set on every queue of a context, mapped or not. -/
def State.faultQueues (s : State) (ctx : Nat) : State :=
  let s1 := ([0, 1] : List Die).foldl (fun z d => z.modFe d fun f =>
    { f with queues := f.queues.map fun p => if p.2.ctx = ctx then (p.1, { p.2 with fault := true }) else p }) s
  (List.range (s.ctxField ctx 0x10 4)).foldl (fun z t =>
    if (z.queueOf ctx t).isSome then z else z.setDescFlags ctx t (z.descFlags ctx t ||| 0x10)) s1

/-- CONTEXT_DISCARD: the oldest context struck: every entry ends with the cause, bindings and queues with it. -/
def execContextDiscard (s : State) : Host.Outcome State Fault Refusal :=
  match s.discards with
  | [] => .next s
  | (ctx, cause, _) :: rest =>
    if s.entries.any fun e => e.ctx = ctx && (match e.half with | .asking _ _ _ => true | _ => false) then .next s
    else
      let ids := (s.entries.filter fun e => e.ctx = ctx && e.fin.isNone).map (·.id)
      let s1 := ids.foldl (fun z id => z.abortEntry id 2 cause.toNat) { s with discards := rest.filter fun c => c.1 ≠ ctx }
      let s2 := { s1 with binds := s1.binds.filter fun b => b.1 ≠ ctx }
      .next (((s2.faultQueues ctx).blackBox 0 0 ctx).settle)

/-- A context in use: its descriptor is valid, or entries or queues belong to it. -/
def State.usedCtx (s : State) (c : Nat) : Bool :=
  s.ctxField c 2 1 % 2 = 1 || (s.entries.any fun e => e.ctx = c) || ([0, 1] : List Die).any fun d => s.fe[d].queues.any fun p => p.2.ctx = c

/-- Both front ends' HOLD set or cleared. -/
def State.setHold (s : State) (h : Bool) : State := ([0, 1] : List Die).foldl (fun z d => z.modFe d fun f => { f with hold := h }) s

/-- A device-fatal error: every context is to be discarded, HOLD is set, and the black boxes freeze. -/
def State.goFatal (s : State) (pa : Nat) : State :=
  let s1 := ((List.range 1024).filter s.usedCtx).foldl (fun z c =>
    z.strikeDue 0 c { cause := Cause.eccUncorr, tval := BitVec.ofNat 64 pa }) s
  let s2 := ((s1.blackBox 0 1 0).blackBox 1 1 0).setHold true
  { s2 with fatal := true, mbox := { s2.mbox with fatal := true }, bbox := s2.bbox.map fun b => { b with frozen := true } }

/-- DEVICE_FATAL: physical address concerned. -/
def execDeviceFatal (s : State) : Host.Outcome State Fault Refusal :=
  match s.input with
  | .nat pa => .next (s.goFatal pa)
  | _ => .next s

/-! ### The configuration window (R72, R73, R374, R375, R380, R386, R389) -/

/-- The RW fields of a ring register set (R386); a reserved LOG2N leaves the field. -/
def Ring.put (r : Ring) (v : Nat) : Ring :=
  { r with ridx := BitVec.ofNat 32 (nbits v 127 96), log2n := if nbits v 55 52 ≤ 10 then nbits v 55 52 else r.log2n,
           base := nbits v 51 12 * 2 ^ 12 }

/-- The RW fields of a space-table entry, which a write sets only while NULLR is set (R73). -/
def SpaceEnt.put (e : SpaceEnt) (v : Nat) : SpaceEnt :=
  if e.nullr then
    { e with pasid := BitVec.ofNat 20 (nbits v 95 76), pasv := nbits v 75 75 = 1, ctx := nbits v 74 65, key := nbits v 64 59 }
  else e

/-- A message to a peer about a lease (R375). -/
def State.send (s : State) (kind port peer base : Nat) : State := { s with sent := s.sent ++ [(kind, port, peer, base)] }

/-- The REVOKE that a lender sends for a lent range, with its GRACE. -/
def State.sendRevoke (s : State) (i grace : Nat) : State :=
  match s.lends[i]? with
  | none => s
  | some l => { s.send 0 0 l.borrower l.base with
      lends := s.lends.set i { l with fenceAt := some (s.fcyc[(0 : Die)] + grace * 1024) } }

/-- A registry operation of a control core (R75, R385): the answer is the result word. -/
def registryReply (r : State × Word) : State := { r.1 with reply := .ok (natLe 4 r.2.toNat) }

/-- A write to MBCMD (R389): a command starts, unless one is in progress. A number that names no command is refused (DESIGN CHOICE, log
146). -/
def State.writeMbcmd (s : State) (cmd a b : Nat) : State :=
  { s with mbox := if s.mbox.running.isSome then { s.mbox with state := 3 }
      else if cmd = 0 || 4 < cmd then { s.mbox with cmd := BitVec.ofNat 32 cmd, state := 3, resp := [] }
      else { s.mbox with cmd := BitVec.ofNat 32 cmd, running := some (cmd, a, b), state := 1 } }

/-- A write to the configuration window: register, index, value. 0 CTXBASE; 1, 2 the notice and overrun ring registers of a die; 3 a
space-table entry; 4 the space bound to a function; 5 a lent range (base, size, borrower); 6 a lender's REVOKE; 7 MBOFF; 8 RCAS, its
index in the form of S[b]; 9 RSNAP; 10 RFREE; 11 FEPCMD of a die; 12 MBCMD with a die, and the command and its argument as the value. -/
def State.writeWindow (s : State) (reg i : Nat) (data : List Byte) : State :=
  let v := leNat data
  let d : Die := Fin.ofNat 2 i
  match reg with
  | 0 => { s with ctxbase := nbits v 51 19 * 2 ^ 19 }
  | 1 => s.modFe d fun f => { f with notices := f.notices.put v }
  | 2 => s.modFe d fun f => { f with overruns := f.overruns.put v }
  | 3 => if i < 1024 then s.setSpace i ((s.space i).put v) else s
  | 4 => if i ≤ 32 && v < 1024 then { s with bar2 := assocSet s.bar2 i v } else s
  | 5 =>
    if 64 ≤ s.lends.length then s
    else { s with lends := s.lends ++ [{ base := nbits v 63 0, size := nbits v 79 64, borrower := nbits v 95 80, fenceAt := none }] }
  | 6 => s.sendRevoke i v
  | 7 => { s with mbox := { s.mbox with off := BitVec.ofNat 32 v } }
  | 8 =>
    match rcasRoot (BitVec.ofNat 64 v) with
    | some r => if nbits i 15 10 = 0 && i < 2 ^ 28 then registryReply (s.rcas (nbits i 9 0) (nbits i 27 16) r) else { s with reply := .refused }
    | none => { s with reply := .refused }
  | 9 =>
    match nodePa (BitVec.ofNat 64 v) with
    | some r => if i < 1024 then registryReply (s.rsnap i r) else { s with reply := .refused }
    | none => { s with reply := .refused }
  | 10 => if i < 4096 then registryReply (s.rfree i) else { s with reply := .refused }
  | 11 => s.writeCmd d v
  | 12 => s.writeMbcmd (nbits v 31 0) i (nbits v 95 32)
  | _ => s

/-- REGISTER_WRITE: register, with 64 times its requester added; index; value. The requester is 0 a control core, 1 the PF driver through
BAR0, 2 and up a virtual function, which has no BAR0 (R380, R385). The PCIe configuration space holds the mailbox (R389). -/
def execRegisterWrite (s : State) : Host.Outcome State Fault Refusal :=
  match s.input with
  | .bytes reg i data => .next (if reg / 64 ≤ 1 then s.writeWindow (reg % 64) i data else { s with reply := .unsupported })
  | _ => .next s

/-! ### The host link (R95, R380) -/

/-- Every byte of a request translated under a slot. -/
def State.requestLocs (s : State) (space slot va n : Nat) (acc : Access) : Except Trap (List Loc) :=
  (List.range n).foldr (fun i r => match s.translate 0 none (s.space space).key slot (va + i) acc, r with
    | .ok l, .ok t => .ok (l :: t)
    | .error e, _ => .error e
    | _, .error e => .error e) (.ok [])

/-- A failed host request: Completer Abort, and a notice on die 0's ring (R362, R380). -/
def State.hostFault (s : State) (f va : Nat) (cause : BitVec 8) : State :=
  { s.noticeOn 0 (complNotice cause.toNat (2 ^ 15 + f) 0 (BitVec.ofNat 64 va)) with reply := .abort }

/-- HOST_BAR2_REQUEST: function, with 64 added for a read; offset; the bytes, whose number a read asks for. -/
def execHostBar2Request (s : State) : Host.Outcome State Fault Refusal :=
  match s.input with
  | .bytes a va data =>
    let f := a % 64
    let read : Bool := 64 ≤ a
    match assocGet s.bar2 f with
    | none => .next { s with reply := .unsupported }
    | some 0 => .next { s with reply := .unsupported }
    | some sp =>
      if 32 < f || 2 ^ 36 < va + data.length then .next { s with reply := .unsupported }
      else match s.pinCurrent sp with
      | .full => .next s
      | .null => .next (s.hostFault f va Cause.xlateNp)
      | .slot n _ =>
        match s.requestLocs sp n va data.length (if read then .read else .write) with
        | .error t => .next (s.hostFault f va t.cause)
        | .ok ls =>
          let key := (s.space sp).key
          if read then
            match s.readFault key (urun (BitVec.ofNat 64 va) data.length) ls with
            | some t => .next { s.strikeCtx 0 (s.space sp).ctx t with reply := .abort }
            | none => .next { s with reply := .ok (ls.map s.readByte) }
          else match ((urun (BitVec.ofNat 64 va) data.length).zip ls).find? fun p => s.wrapped p.2 with
          | some p => .next { s.strikeCtx 0 (s.space sp).ctx { cause := Cause.integrity, tval := p.1, at_ := some p.2 } with reply := .abort }
          | none => .next { (s.performWrite key ls data none).settle with reply := .ok [] }
  | _ => .next s

/-- NVME_PORT_DMA_WRITE: port, of the four (R1); physical address and bytes. A lent range is refused (R374), and a line whose counter would
wrap is not written (R369). -/
def execNvmePortDmaWrite (s : State) : Host.Outcome State Fault Refusal :=
  match s.input with
  | .bytes port pa data =>
    if 4 ≤ port || s.hbmEnd < pa + data.length then .next { s with reply := .unsupported }
    else if s.lent pa || s.lent (pa + data.length - 1) || ((Loc.hbm pa).run data.length).any s.wrapped then .next { s with reply := .error }
    else .next { (s.performWrite 0 ((Loc.hbm pa).run data.length) data none).settle with reply := .ok [] }
  | _ => .next s

/-- A place in a page of the host. -/
def Loc.inPage (l : Loc) (page : Nat) : Bool := match l with | .host _ pa => pa / 4096 = page | _ => false

/-- Requests in progress that use a translation of the host: pending words, and copies that have read a sector and not written it
(R95). -/
def State.hostBusy (s : State) (pasid : Option (BitVec 20)) (page : Nat) : Bool :=
  (s.blocks ++ s.ended).any fun x => (s.space x.space).hostPasid = pasid &&
    ((x.gangs.any fun y => y.pends.any fun p => p.accs.any fun a => !a.performed && a.loc.inPage page)
      || s.ops.any fun o => o.b = x.id && o.reads.any fun r =>
        (o.halfAddrs x r.1 false ++ o.halfAddrs x r.1 true).any fun a =>
          match s.locate x (s.opSlot o) a .read with | .ok l => l.inPage page | .error _ => false)

/-- ATS_INVALIDATION: PASID, its validity, page. It completes after every request that uses the translation. -/
def execAtsInvalidation (s : State) : Host.Outcome State Fault Refusal :=
  match s.input with
  | .nat3 pasid valid page =>
    let k : Option (BitVec 20) := if valid = 0 then none else some (BitVec.ofNat 20 pasid)
    if s.hostBusy k page then .next s
    else .next { s with ats := s.ats.filter (fun p => !(p.1 = k && p.2 = page)), reply := .ok [] }
  | _ => .next s

/-- SPDM_REQUEST: the index of a measurement that is asked for; with none, the public key of the identity. -/
def execSpdmRequest (s : State) : Host.Outcome State Fault Refusal :=
  match s.input with
  | .none => .next { s with reply := .ok s.identity }
  | .nat i =>
    match assocGet s.measures i with
    | some m => .next { s with reply := .ok m }
    | none => .next { s with reply := .refused }
  | _ => .next s

/-- KEYLOAD: slot; 1 inside a secured session; the key unwrapped. Lines written under the slot's former key no longer read (R371). -/
def execKeyload (s : State) : Host.Outcome State Fault Refusal :=
  match s.input with
  | .bytes slot secured key =>
    let named := (List.range 1024).any fun n => (s.space n).key = slot
    if slot = 0 || 64 ≤ slot || secured ≠ 1 || key.length ≠ 32 || named then .next { s with reply := .refused }
    else .next { s with
      keys := assocSet s.keys slot key
      reply := .ok [] }
  | _ => .next s

/-! ### Peers (R248, R257, R374) -/

/-- A range lent to a requester that covers an access. -/
def State.lentTo (s : State) (who pa n : Nat) : Bool :=
  s.lends.any fun l => l.borrower = who && l.base ≤ pa && pa + n ≤ l.base + l.size * 2 ^ 30

/-- A line that an error has made unreadable. -/
def State.lineLost (s : State) (l : Loc) (n : Nat) : Bool := (l.run n).any fun a => s.badLine (lineOf a) Cause.eccUncorr

/-- The lines that a borrower writes in a lent range are left under a key of its own, which no space of this device has (R371, R374). -/
def State.stampPeer (s : State) (who : Nat) (ls : List Loc) : State :=
  if s.prot then { s with lineKeys := ls.foldl (fun k l => assocSet k (lineOf l) (2 ^ 257 + who)) s.lineKeys } else s

/-- PEER_REQUEST: requester, with its kind times 2^16 added: 0 a read of as many bytes as are given, 1 a write, 2 to 33 the atomics by
their op, the eight-byte ones from 18 up; physical address; bytes, for an atomic its operands. What is not lent to the requester, and a
line with an uncorrectable error, is answered with an error. The lender's counters and keys do not cover a lent range (R374). -/
def execPeerRequest (s : State) : Host.Outcome State Fault Refusal :=
  match s.input with
  | .bytes a pa data =>
    let who := a % 2 ^ 16
    let kind := a / 2 ^ 16
    let size := if kind < 2 then data.length else if kind < 18 then 4 else 8
    let l := Loc.hbm pa
    if !s.lentTo who pa size || s.lineLost l size then .next { s with reply := .error }
    else
      let old := s.readLoc l size
      let fin : List Byte → State := fun bs => { (((s.writeBytes (l.run size) bs).stampPeer who (l.run size)).pushes (l.run size)).settle with
        reply := .ok old }
      match kind with
      | 0 => .next { s with reply := .ok old }
      | 1 => .next (fin data)
      | k =>
        match atomBytes (18 ≤ k) ((k - 2) % 16) old (data.take size) (data.drop size) with
        | some bs => .next (fin bs)
        | none => .next { s with reply := .ok old }
  | _ => .next s

/-! ### Leases (R372 to R375, R378) -/

def State.setLease (s : State) (i : Nat) (l : Lease) : State := { s with leases := assocSet s.leases i l }

/-- A lease is REVOKED, and RELEASE goes to the lender (R375). -/
def State.revoked (s : State) (i : Nat) (l : Lease) : State := (s.setLease i { l with state := 3 }).send 1 l.port l.lender l.base

/-- A lease notice (R375). -/
def leaseNotice (i graceEnd : Nat) : List Byte := natLe 2 3 ++ natLe 2 i ++ natLe 4 0 ++ natLe 8 graceEnd

/-- LEASE_REVOKE: lease. A REVOKE received sets REVOKING, records grace end and posts a notice. -/
def execLeaseRevoke (s : State) : Host.Outcome State Fault Refusal :=
  match s.input with
  | .nat i =>
    let l := s.lease i
    if 256 ≤ i || l.state ≠ 1 then .next s
    else
      let e := s.fcyc[(0 : Die)] + l.grace * 1024
      .next ((s.setLease i { l with state := 2, graceEnd := some e }).notice (leaseNotice i e))
  | _ => .next s

/-- LEASE_GRACE_END: lease. -/
def execLeaseGraceEnd (s : State) : Host.Outcome State Fault Refusal :=
  match s.input with
  | .nat i =>
    let l := s.lease i
    match l.graceEnd with
    | some e => if l.state = 2 && e ≤ s.fcyc[(0 : Die)] then .next (s.revoked i l) else .next s
    | none => .next s
  | _ => .next s

/-- The fields of an entry as a write gives them while STATE is FREE; a reserved PORT or SIZE leaves the field. -/
def Lease.put (l : Lease) (v : Nat) : Lease :=
  { l with grace := if nbits v 127 96 = 0 then 1953125 else nbits v 127 96, key := nbits v 95 90
           port := if nbits v 83 80 ≤ 11 then nbits v 83 80 else l.port, lender := nbits v 79 64
           size := if 1 ≤ nbits v 63 52 && nbits v 63 52 ≤ 894 then nbits v 63 52 else l.size, base := nbits v 51 30 * 2 ^ 30 }

/-- A lender frame within a lease's range. -/
def Lease.covers (l : Lease) (f : Nat × Nat) : Bool := l.lender = f.1 && l.base ≤ f.2 * 2 ^ 16 && f.2 * 2 ^ 16 < l.base + l.size * 2 ^ 30

/-- LEASE_TABLE_WRITE: lease, the 16 bytes written. Only FREE, ACTIVE and REVOKED are taken as STATE; the other fields, only while
STATE is FREE. A lease that leaves the table takes its frames off the poison list (R378); its lender goes on refusing what is still on its
way once it has fenced (R376), until a new lease stands in the entry. -/
def execLeaseTableWrite (s : State) : Host.Outcome State Fault Refusal :=
  match s.input with
  | .bytes i _ data =>
    let v := leNat data
    let l := s.lease i
    let l1 := if l.state = 0 then l.put v else l
    let st := nbits v 89 88
    if 256 ≤ i then .next s
    else if st = 2 then .next (s.setLease i l1)
    else if st = 3 && (l.state = 1 || l.state = 2) then .next (s.revoked i l1)
    else
      let new : Bool := st = 1 && (l.state = 0 || l.state = 3)
      let l2 := { l1 with state := st, graceEnd := if st = 3 then l1.graceEnd else none, fenced := l1.fenced && !new }
      let s1 := (if new then s.refuseLease i else s).setLease i l2
      .next (if st = 0 && l.state ≠ 0 then { s1 with poison := s1.poison.filter fun f => !l.covers f } else s1)
  | _ => .next s

/-- LEASE_RELEASE: borrower, base. The lender fences the range: it leaves the lend list. -/
def execLeaseRelease (s : State) : Host.Outcome State Fault Refusal :=
  match s.input with
  | .nat2 who base => .next { s with lends := s.lends.filter fun l => !(l.borrower = who && l.base = base) }
  | _ => .next s

/-- LENDER_GRACE_END: place in the lend list; or, with a second number, a lease of this device whose lender has fenced the range, with
RELEASE or at its own grace end: from then on the lender answers every access with an error (R374 to R376). -/
def execLenderGraceEnd (s : State) : Host.Outcome State Fault Refusal :=
  match s.input with
  | .nat i =>
    match (s.lends[i]?).bind (·.fenceAt) with
    | some t => if t < s.fcyc[(0 : Die)] then .next { s with lends := s.lends.eraseIdx i } else .next s
    | none => .next s
  | .nat2 _ i => if 256 ≤ i then .next s else .next (s.setLease i { s.lease i with fenced := true })
  | _ => .next s

/-! ### Ports (R382) -/

/-- PORT_LINK_LOSS: port. Collectives that use it end with FAULT; lease accesses raise LEASE_REVOKED from then on. -/
def execPortLinkLoss (s : State) : Host.Outcome State Fault Refusal :=
  match s.input with
  | .nat p =>
    if 12 ≤ p || s.downPorts.contains p then .next s
    else
      let s1 := ({ s with downPorts := s.downPorts ++ [p] }).notice (natLe 2 6 ++ natLe 2 p ++ natLe 12 0)
      .next ((s1.ops.filter s1.linkDown).foldl (fun z o => match z.block? o.b with
        | some x => (z.freeDst o x).endOp o stFault 0 none
        | none => z) s1)
  | _ => .next s

/-! ### Quires (R387) -/

/-- The device-wide cores of a quire. -/
def quireCores (d q : Nat) : List Nat := (List.range 4).map fun m => d % 2 * 96 + 4 * q + m

/-- QUIRE_QUARANTINE: die, quire. -/
def execQuireQuarantine (s : State) : Host.Outcome State Fault Refusal :=
  match s.input with
  | .nat2 d q =>
    if 24 ≤ q then .next s
    else .next { s with quarantined := s.quarantined ++ (quireCores d q).filter fun c => !s.quarantined.contains c }
  | _ => .next s

/-- QUIRE_SPARE_TAKEOVER: die, quire. Once empty, its number goes to the die's spare. -/
def execQuireSpareTakeover (s : State) : Host.Outcome State Fault Refusal :=
  match s.input with
  | .nat2 dn q =>
    let d : Die := Fin.ofNat 2 dn
    let cs := quireCores dn q
    let busy := s.blocks.any fun x => x.residence ≠ .evicted && cs.contains (x.die.val * 96 + x.core)
    if 24 ≤ q || !(cs.all s.quarantined.contains) || busy || s.spares[d] = 0 then .next s
    else .next { s with quarantined := s.quarantined.filter fun c => !cs.contains c, spares := s.spares.set d (s.spares[d] - 1) }
  | _ => .next s

/-! ### Errors and temperature (R391 to R394) -/

/-- The cause that reading a line raises after an error of a kind (R345, R393). An uncorrectable error of on-chip SRAM lies in the die's tun
where its address is one of the tun's; elsewhere it is only logged (DESIGN CHOICE, log 127). -/
def errorCause (kind pa : Nat) : Option (BitVec 8) :=
  match kind with
  | 2 => some Cause.eccUncorr
  | 3 | 5 => some Cause.integrity
  | 7 => if pa < tunBytes then some Cause.eccUncorr else none
  | _ => none

/-- The place that an error's address names: a tun line of the die, local HBM, or from 2^61 up the lender's memory, by lease entry and
address. -/
def errorLoc (d : Die) (kind pa : Nat) : Loc :=
  if kind = 7 then .tun d pa else if pa < 2 ^ 61 then .hbm pa else .lender ((pa - 2 ^ 61) / 2 ^ 52) ((pa - 2 ^ 61) % 2 ^ 52)

/-- The lines that fail after an error of a kind: one, or the eight that a counter block covers (R370). -/
def errorLines (kind : Nat) (l : Loc) : List Loc :=
  if kind = 5 then
    let base : Loc := (match l with | .hbm a => .hbm (a / 512 * 512) | .lender e a => .lender e (a / 512 * 512) | k => k)
    (List.range 8).map fun i => base.add (64 * i)
  else [lineOf l]

/-- HARDWARE_ERROR: die, kind, channel, physical address, syndrome. Errors of one cycle come lowest channel first (R392). An altered or
replayed line of a lender fails as its MAC or its counter does (R370, R379). -/
def execHardwareError (s : State) : Host.Outcome State Fault Refusal :=
  match s.input with
  | .nat5 dn kind chan pa syn =>
    let d : Die := Fin.ofNat 2 dn
    if kind = 0 || 7 < kind || (!s.prot && (kind = 3 || kind = 5)) || (kind ≤ 5 && chan < s.elog[d].last) then .next s
    else
      let s1 := s.logError d kind chan pa syn
      .next (match errorCause kind pa with
        | some c => { s1 with faults := s1.faults ++ (errorLines kind (errorLoc d kind pa)).flatMap fun l => badHalves l c }
        | none => s1)
  | _ => .next s

/-- A thermal notice of both front ends. -/
def State.thermalNotice (s : State) (level : Nat) : State :=
  let n := natLe 2 7 ++ natLe 2 level ++ natLe 12 0
  (s.noticeOn 0 n).noticeOn 1 n

def execThermalHold (s : State) : Host.Outcome State Fault Refusal :=
  .next (if s.hot then s else ({ s.setHold true with hot := true }).thermalNotice 1)

def execThermalRelease (s : State) : Host.Outcome State Fault Refusal :=
  .next (if s.hot then ({ s.setHold false with hot := false }).thermalNotice 2 else s)

/-- THERMAL_CRITICAL: a device-fatal error (R345). -/
def execThermalCritical (s : State) : Host.Outcome State Fault Refusal := .next (s.goFatal 0)

end Sys2Proof.Machine
end

