-- ==== Sys2Proof/Machine/Boot.lean ====
section
/-! DEFINITION. Resets and boot (R387), firmware replacement (R388) and the mailbox (R389 to R393). -/

namespace Sys2Proof.Machine

/-! ### Resets (R27, R28, R387) -/

/-- Quire sparing at boot (R387): a die's spare takes the number of one failed quire; the numbers that no spare is left for, the highest
(DESIGN CHOICE, log 48), stay absent. -/
def State.sparing (s : State) : State :=
  let gone : Die → List Nat := fun d => (List.range (s.repair[d] - 1)).flatMap fun i => quireCores d.val (23 - i)
  { s with spares := Vector.ofFn fun d => if s.repair[d] = 0 then 1 else 0, quarantined := gone 0 ++ gone 1 }

/-- What no reset touches: the agenda, memory outside the module, the fused identity and repair tables, and what boot measures; the
running image is then the one started at boot (R381). -/
def State.afterReset (s : State) : State :=
  ({ State.reset with
    agenda := s.agenda, host := s.host, lender := s.lender, devid := s.devid, identity := s.identity, repair := s.repair
    measures := assocSet s.measures 5 ((assocGet s.measures 3).getD []), fresh := s.fresh, nextId := s.nextId }).sparing

/-- What boot finds and measures: the failed quires of each die, one byte each, then the digests of measurements 1 to 4. What is not
given stays as it was. -/
def State.inspect (s : State) (data : List Byte) : State :=
  let r : Nat → Nat → Nat := fun i old => ((data[i]?).map BitVec.toNat).getD old
  let digest : Nat → List Byte := fun i => ((data.drop (2 + 48 * (i - 1))).take 48)
  let m := (List.range 4).foldl (fun m i => if (digest (i + 1)).length = 48 then assocSet m (i + 1) (digest (i + 1)) else m) s.measures
  { s with repair := Vector.ofFn fun d => r d.val s.repair[d], measures := m }

/-- Borrowed lines written before a cold reset: the on-chip level of their counters' tree is lost with it, and they fail as INTEGRITY; a line
of a lender that failed goes on failing (R370). -/
def State.lostLines (s : State) : List (Loc × BitVec 8) :=
  (s.faults.filter fun f => match f.1 with | .lender _ _ => true | _ => false)
    ++ s.lineKeys.flatMap fun p => match p.1 with | .lender _ _ => badHalves p.1 Cause.integrity | _ => []

/-- COLD_RESET: 0 if boot succeeds, 1 if the first stage's signature fails, 2 if Dziyx's does; 1 for protection on; what boot finds
and measures. Boot generates slot 0's key, a value that no rule states. -/
def execColdReset (s : State) : Host.Outcome State Fault Refusal :=
  match s.input with
  | .bytes bad prot data =>
    let s1 := { (s.inspect data).afterReset with
      faults := s.lostLines, prot := prot = 1, memsz := if prot = 1 then 766 else 894
      keys := [(0, (List.range 32).map fun i => (Config.freeWord (s.fresh + i)).setWidth 8)], fresh := s.fresh + 32 }
    .next (match bad with
      | 0 => s1
      | 1 => { s1 with mbox := { Mailbox.reset with bootfail := true } }
      | _ => { s1 with booted := false })
  | _ => .next s

/-- A warm reset keeps the black box, slot 0's key and the counter tree (R370, R387), and PROT (R367). -/
def State.warmReset (s : State) : State :=
  { s.afterReset with prot := s.prot, memsz := s.memsz, bbox := s.bbox, keys := s.keys.filter fun k => k.1 = 0,
                      hbm := s.hbm, lineKeys := s.lineKeys, lineCtrs := s.lineCtrs, faults := s.faults }

/-- WARM_RESET: 1 if Dziyx's verification fails. -/
def execWarmReset (s : State) : Host.Outcome State Fault Refusal :=
  match s.input with
  | .nat 1 => .next { s.warmReset with booted := false }
  | _ => .next s.warmReset

/-! ### The mailbox (R389 to R393) -/

/-- A command done, with its response. -/
def State.respond (s : State) (cmd : Nat) (resp : List Byte) : State :=
  { s with mbox := { s.mbox with cmd := BitVec.ofNat 32 cmd, running := none, state := 2, resp := resp } }

/-- A command of the mailbox is served: the one in progress, if it is `cmd`; or, with none in progress, one written to MBCMD now, with its
arguments. A write that meets another in progress is refused (R389). -/
def State.serve (s : State) (cmd : Nat) (now : Option (Nat × Nat)) (f : Nat → Nat → State) : State :=
  match s.mbox.running, now with
  | some (c, a, b), none => if c = cmd then f a b else s
  | none, some (a, b) => f a b
  | some _, some (a, b) => s.writeMbcmd cmd a b
  | none, none => s

/-- MBSTAT (R389). -/
def Mailbox.stat (m : Mailbox) : Word :=
  BitVec.ofNat 32 ((m.resp.length + 255) / 256 * 2 ^ 16 + (if m.fatal then 128 else 0) + (if m.bootfail then 64 else 0) + m.state)

/-- The MBDATA window: 256 bytes of the response from MBOFF. -/
def Mailbox.window (m : Mailbox) : List Byte := (List.range 256).map fun i => m.resp.getD (m.off.toNat + i) 0

/-- An entry of the lease table as its 128 bits (R372). -/
def Lease.bits (l : Lease) : Nat :=
  l.grace * 2 ^ 96 + l.key * 2 ^ 90 + l.state * 2 ^ 88 + l.port * 2 ^ 80 + l.lender * 2 ^ 64 + l.size * 2 ^ 52 + nbits l.base 51 30 * 2 ^ 30

/-- Bytes whose layout no rule gives. -/
def freeRun (fresh n : Nat) : List Byte := (List.range n).map fun i => (Config.freeWord (fresh + i)).setWidth 8

/-- A part of a RESYNC response: its fields, then zero. -/
def respPart (n : Nat) (fields : List Byte) : List Byte := (fields ++ List.replicate n 0).take n

/-- MEMCFG (R367) and a die's FECFG (R28). -/
def State.memcfg (s : State) : Nat := s.memsz * 2 ^ 32 + (if s.prot then 1 else 0)
def FrontEnd.fecfg (f : FrontEnd) : Nat := (if f.hold then 2 ^ 32 else 0) + f.rsv

/-- The header of a RESYNC response. R390 lists the fields of the header, of the front ends' parts and of the contexts' parts; their places
and sizes are a DESIGN CHOICE (log 24): in the order listed, the counts and flags of four bytes, the registers as wide as they are. -/
def State.resyncHeader (s : State) (handover : Bool) : List Byte :=
  respPart 64 (natLe 4 1 ++ natLe 4 (if handover then 1 else 0) ++ respPart 16 ((assocGet s.measures 5).getD []) ++ natLe 8 s.memcfg)

/-- A front end's part. -/
def State.resyncFrontEnd (s : State) (d : Die) : List Byte :=
  respPart 64 (natLe 8 s.fe[d].fecfg ++ natLe 8 s.fcyc[d] ++ natLe 4 (s.admittedOn d).length ++ natLe 4 (if s.fe[d].hold then 1 else 0))

/-- A context's part: its mapped queues, its admitted entries on both dies, its system records not yet handled, the pins on its spaces' slots,
and its three usage counters. -/
def State.resyncContext (s : State) (c : Nat) : List Byte :=
  let dies : List Die := [0, 1]
  let queues := (dies.map fun d => (s.fe[d].queues.filter fun p => p.2.ctx = c).length).sum
  let held := (dies.map fun d => ((s.admittedOn d).filter fun e => e.ctx = c).length).sum
  let records := (s.trapQ.filter fun p => p.ctx = c).length + (dies.map fun d => (s.trapRing d c).recs.length).sum
  let pins := ((s.roots.filter fun r => (s.space r.2.space).ctx = c).map fun r => r.2.pins).sum
  respPart 64 (natLe 4 queues ++ natLe 4 held ++ natLe 4 records ++ natLe 4 pins ++ natLe 8 (s.ctxField c 0xA0 8) ++ natLe 8 (s.ctxField c 0xA8 8)
    ++ natLe 8 (s.ctxField c 0xB0 8))

/-- A RESYNC response (R390); during a handover bit 0 of HFLAGS is set. -/
def State.resyncBytes (s : State) (handover : Bool) : List Byte :=
  s.resyncHeader handover ++ s.resyncFrontEnd 0 ++ s.resyncFrontEnd 1 ++ (List.range 1024).flatMap s.resyncContext
    ++ ((List.range 256).flatMap fun i => natLe 16 (s.lease i).bits)
    ++ s.elog[(0 : Die)].bytes ++ s.elog[(1 : Die)].bytes ++ natLe 8 s.bbox[(0 : Die)].cursor ++ natLe 8 s.bbox[(1 : Die)].cursor

/-- The answer to RESYNC: during a handover that of the preserved-state table. -/
def State.resync (s : State) : State :=
  match s.handover with
  | some h => s.respond 1 h.resync
  | none => s.respond 1 (s.resyncBytes false)

/-- MB_RESYNC: nothing, for the command in progress; or any number, for one written now. -/
def execMbResync (s : State) : Host.Outcome State Fault Refusal :=
  .next (s.serve 1 (match s.input with | .none => none | _ => some (0, 0)) fun _ _ => s.resync)

/-- The events of a black box from a cursor up that it holds, oldest first. Events that were counted while it was frozen were never written
(R391). -/
def BlackBox.from_ (b : BlackBox) (cursor : Nat) : List Byte := ((b.events.filter fun e => cursor ≤ e.1).reverse.map Prod.snd).flatten

/-- The arguments that a mailbox event brings, for a command written now. -/
def pairOf (x : Input) : Option (Nat × Nat) := match x with | .nat2 a b => some (a, b) | _ => none

/-- MB_BBREAD: nothing, for the command in progress; or die and cursor. -/
def execMbBbread (s : State) : Host.Outcome State Fault Refusal :=
  .next (s.serve 2 (pairOf s.input) fun dn cursor => s.respond 2 (s.bbox[(Fin.ofNat 2 dn : Die)].from_ cursor))

/-- The answer to ERRLOG. The read and the clear are one step. -/
def State.errlog (s : State) (d : Die) (clear : Nat) : State :=
  let e := s.elog[d]
  let s1 := s.respond 3 e.bytes
  if clear = 1 then { s1 with elog := s1.elog.set d { e with entries := [], ovf := false } } else s1

/-- MB_ERRLOG: nothing, for the command in progress; or die and clear flag. -/
def execMbErrlog (s : State) : Host.Outcome State Fault Refusal :=
  .next (s.serve 3 (pairOf s.input) fun dn clear => s.errlog (Fin.ofNat 2 dn) clear)

/-- MB_WARMRESET: nothing, for the command in progress; or any number, for one written now. A device that has stopped at step 1 of boot has
nothing verified to start, and refuses it (DESIGN CHOICE, log 146). -/
def execMbWarmreset (s : State) : Host.Outcome State Fault Refusal :=
  .next (s.serve 4 (match s.input with | .none => none | _ => some (0, 0)) fun _ _ =>
    if s.mbox.bootfail then { s with mbox := { s.mbox with running := none, state := 3 } } else s.warmReset)

/-! ### Firmware replacement (R388) -/

/-- A space-table entry, a root slot and a ring's registers as their 128 bits (R73, R74, R386). -/
def SpaceEnt.bits (e : SpaceEnt) : Nat :=
  e.sgen.toNat * 2 ^ 96 + e.pasid.toNat * 2 ^ 76 + (if e.pasv then 2 ^ 75 else 0) + e.ctx * 2 ^ 65 + e.key * 2 ^ 59
    + (if e.nullr then 2 ^ 15 else 0) + e.cur
def RootSlot.bits (r : RootSlot) : Nat :=
  r.pins * 2 ^ 108 + r.gen.toNat * 2 ^ 96 + r.state * 2 ^ 94 + r.space * 2 ^ 84 + nbits r.root 51 11 * 2 ^ 11
def Ring.bits (r : Ring) : Nat :=
  r.ridx.toNat * 2 ^ 96 + r.widx.toNat * 2 ^ 64 + r.log2n * 2 ^ 52 + nbits r.base 51 12 * 2 ^ 12

/-- The mailbox in section 5: MBCMD, MBSTAT, MBOFF, the command in progress with its arguments, and the response. -/
def Mailbox.preserved (m : Mailbox) : List Byte :=
  natLe 4 m.cmd.toNat ++ natLe 4 m.stat.toNat ++ natLe 4 m.off.toNat
    ++ (match m.running with | some (c, a, b) => natLe 4 c ++ natLe 4 a ++ natLe 8 b | none => List.replicate 16 0) ++ m.resp

/-- The sections of the preserved-state table (R388). Within a section the order is a DESIGN CHOICE (log 46). -/
def State.sections (s : State) : List (List Byte) :=
  let dies : List Die := [0, 1]
  [((List.range 4096).flatMap fun n => natLe 16 (s.root n).bits) ++ (List.range 1024).flatMap fun n => natLe 16 (s.space n).bits,
   dies.flatMap fun d => s.fe[d].queues.flatMap fun p => natLe 2 p.1 ++ p.2.desc true,
   ((List.range 256).flatMap fun i => natLe 16 (s.lease i).bits)
     ++ s.lends.flatMap fun l => natLe 8 l.base ++ natLe 4 l.size ++ natLe 4 l.borrower,
   s.downPorts.map fun p => BitVec.ofNat 8 p,
   (s.subs.flatMap fun u => match u.who with | .gill .. => [] | _ => natLe 8 u.id ++ natLe 8 u.word.pa)
     ++ dies.flatMap fun d => natLe 16 s.fe[d].notices.bits ++ natLe 16 s.fe[d].overruns.bits,
   s.mbox.preserved ++ dies.flatMap fun d => natLe 8 s.bbox[d].cursor]

/-- The handover begins (R388): HOLD is set, measurement 5 is extended, and the table, each section with its digest, is written into the
reserved region of local HBM. The SHA-384 of a digest the model does not compute: free bytes. -/
def State.beginHandover (s : State) (digest : List Byte) : State :=
  let s1 := { (s.setHold true) with measures := assocSet s.measures 5 digest }
  let table := (s1.sections.mapIdx fun i b => b ++ freeRun (s.fresh + 48 * i) 48).flatten
  { s1.deviceWrite Config.tableBase table with handover := some { resync := s1.resyncBytes true, table := table }, fresh := s.fresh + 288 }

/-- The table in local HBM is the one that its digests were made of. -/
def State.tableStands (s : State) (h : Handover) : Bool := s.hbm.read Config.tableBase h.table.length = h.table

/-- FIRMWARE_REPLACEMENT: 0 and whether the image verifies, with its measurement: the handover begins, or the running image stays; 1 and
whether the preserved-state table's digests hold, which they do of no other bytes than they were made of: the successor runs, or the device
resets. -/
def execFirmwareReplacement (s : State) : Host.Outcome State Fault Refusal :=
  match s.input with
  | .bytes 0 ok digest => .next (if ok ≠ 1 then s else s.beginHandover digest)
  | .bytes _ ok _ =>
    match s.handover with
    | none => .next s
    | some h => .next (if ok = 1 && s.tableStands h then { (s.setHold s.hot) with handover := none } else s.warmReset)
  | _ => .next s

end Sys2Proof.Machine
end

