-- ==== Sys2Proof/Machine/SysOps.lean ====
section
/-! DEFINITION. The privileged registry words RCAS, RSNAP, NDROP, RPINQ, SMOVE and RFREE (R351 to R353), and the registry's events
(R75, R88, R91). -/

namespace Sys2Proof.Machine

/-- The attributes of a SYS word (R353): pairs even, 2 to 30. -/
def sysInfo (st : BitVec 2) (ends : Bool) (pairs : List (BitVec 5)) (singles : List (BitVec 5)) (writes : List RegRef) : Info :=
  { cls := 6, stall := st, sysWord := true, sideEff := ends, regsOk := fun _ => pairs.all sPair,
    reads := pairs.flatMap (fun r => [.s r.toNat, .s (r.toNat + 1)]) ++ singles.map fun r => .s r.toNat, writes := writes }

/-- A SYS word's result is written, and its gang goes on (R353). -/
def sysDone (c : Ctx) (a : BitVec 5) (r : State × Word) : Eff := .done (r.1.modGang c.b c.g fun y => y.setS a.toNat r.2) true

/-- A full fence of the gang at device scope or wider still waits: a publication stays behind it (R81; DEDUCED, log 45). -/
def State.unpublished (s : State) (y : Gang) : Bool := y.fences.any fun f => s.fenceActive y f && f.obj.isNone && 2 ≤ f.scope

/-- RCAS: space in S[b][9:0], expected slot in [27:16]. -/
def execRcas (o : XABC) (s : State) : Host.Outcome State Fault Refusal :=
  issueWord (sysInfo o.st true [o.c] [o.b] [.s o.a.toNat])
    (fun c s =>
      let b := (c.y.getS o.b.toNat).toNat
      if nbits b 15 10 ≠ 0 || nbits b 31 28 ≠ 0 then .trap s.illTrap
      else match rcasRoot (c.y.getS2 o.c.toNat) with
      | none => .trap s.illTrap
      | some r => if s.unpublished c.y then .hold else sysDone c o.a (s.rcas (nbits b 9 0) (nbits b 27 16) r)) s

/-- RSNAP: space in S[b]. -/
def execRsnap (o : XABC) (s : State) : Host.Outcome State Fault Refusal :=
  issueWord (sysInfo o.st true [o.c] [o.b] [.s o.a.toNat])
    (fun c s =>
      let b := (c.y.getS o.b.toNat).toNat
      if 1024 ≤ b then .trap s.illTrap
      else match nodePa (c.y.getS2 o.c.toNat) with
      | none => .trap s.illTrap
      | some r => if s.unpublished c.y then .hold else sysDone c o.a (s.rsnap b r)) s

/-- RFREE: slot in S[b]. -/
def execRfree (o : XAB) (s : State) : Host.Outcome State Fault Refusal :=
  issueWord (sysInfo o.st true [] [o.b] [.s o.a.toNat])
    (fun c s =>
      let b := (c.y.getS o.b.toNat).toNat
      if 4096 ≤ b then .trap s.illTrap else sysDone c o.a (s.rfree b)) s

/-- RPINQ (R353): a slot or a space, at one registry step. -/
def State.rpinq (s : State) (b : Nat) : DWord :=
  if nbits b 15 15 = 0 then
    let r := s.root (nbits b 11 0)
    BitVec.ofNat 64 (r.pins + r.gen.toNat * 2 ^ 20 + (r.state + r.space * 2 ^ 16) * 2 ^ 32)
  else
    let e := s.space (nbits b 9 0)
    BitVec.ofNat 64 (e.cur + (if e.nullr then 2 ^ 15 else 0) + e.sgen.toNat * 2 ^ 32)

/-- The selector of RPINQ. -/
def rpinqBad (b : Nat) : Bool := if nbits b 15 15 = 0 then nbits b 31 12 ≠ 0 else nbits b 14 10 ≠ 0 || nbits b 31 16 ≠ 0

def execRpinq (o : XAB) (s : State) : Host.Outcome State Fault Refusal :=
  issueWord { sysInfo o.st false [] [o.b] [.s o.a.toNat, .s (o.a.toNat + 1)] with regsOk := fun _ => sPair o.a }
    (fun c s =>
      let b := (c.y.getS o.b.toNat).toNat
      if rpinqBad b then .trap s.illTrap
      else .done (s.modGang c.b c.g fun y => y.setS2 o.a.toNat (s.rpinq b)) true) s

/-- The moved marks in use on the home slices that cover a frame: 16 slices by PA[18:16] (R291, R368). -/
def State.marksAt (s : State) (pa : Nat) : Nat := (s.moved.filter fun m => m.1 / 65536 % 8 = pa / 65536 % 8).length

/-- SMOVE on a frame (R291): the mark is cleared, or every subscription in the frame is closed with MOVED and the mark set. -/
def State.smove (s : State) (pa : Nat) (clear : Bool) : State × Word :=
  if clear then ({ s with moved := s.moved.filter fun m => m.1 ≠ pa }, resultWord 0 0xFFF)
  else
    let marked := s.moved.any fun m => m.1 = pa
    if !marked && 256 ≤ s.marksAt pa then (s, resultWord 3 0xFFF)
    else
      let s1 := s.subs.foldl (fun z u =>
        match u.word with
        | .hbm a => if u.state = .live && pa ≤ a && a < pa + 65536 then
            (match z.sub? u.id with | some v => z.closeMoved v | none => z) else z
        | _ => z) s
      (if marked then s1 else { s1 with moved := s1.moved ++ [(pa, 65536)] }, resultWord 0 0xFFF)

/-- SMOVE: frame in S[b]:S[b+1], flags in S[c]. -/
def execSmove (o : XABC) (s : State) : Host.Outcome State Fault Refusal :=
  issueWord (sysInfo o.st true [o.b] [o.c] [.s o.a.toNat])
    (fun c s =>
      let p := (c.y.getS2 o.b.toNat).toNat
      let f := (c.y.getS o.c.toNat).toNat
      if nbits p 15 0 ≠ 0 || nbits p 63 52 ≠ 0 || 2 ≤ f then .trap s.illTrap else sysDone c o.a (s.smove p (f = 1))) s

/-- NDROP: node in S[b]:S[b+1], completion tag in S[d]. -/
def execNdrop (o : XBD) (s : State) : Host.Outcome State Fault Refusal :=
  issueWord (sysInfo o.st true [o.b] [o.d] [])
    (fun c s =>
      let compl := c.y.getS o.d.toNat
      match nodePa (c.y.getS2 o.b.toNat) with
      | none => .trap s.illTrap
      | some pa =>
        match s.complCheck c.x compl true with
        | some t => .trap t
        | none => match s.openOp c (.ndrop pa) compl true [] [] 0 with
          | some s1 => .done s1 true
          | none => .hold) s

/-- NDROP_COMPLETE: operation. Both dies have dropped the node (R91). -/
def execNdropComplete (s : State) : Host.Outcome State Fault Refusal :=
  match s.input with
  | .nat id =>
    match s.op? id with
    | some o => match o.kind with
      | .ndrop pa =>
        .next ({ s with nodeCache := s.nodeCache.filter fun p => !(pa ≤ p.2.1 && p.2.1 < pa + 2048) }.endOp o stOk 0 none)
      | _ => .next s
    | none => .next s
  | _ => .next s

/-- PIN_CURRENT: space. A registry step of a holder outside the model's own (R75). -/
def execPinCurrent (s : State) : Host.Outcome State Fault Refusal :=
  match s.input with
  | .nat sp => match s.pinCurrent sp with
    | .slot _ s1 => .next s1
    | _ => .next s
  | _ => .next s

/-- PIN: slot (R75). Only a holder of a pin on the slot passes it on (R84). -/
def execPin (s : State) : Host.Outcome State Fault Refusal :=
  match s.input with
  | .nat slot => if (s.root slot).pins = 0 then .next s else .next ((s.pin slot).getD s)
  | _ => .next s

/-- The pins on a slot that blocks, operations, subscriptions and programs of the state hold (R84). -/
def State.heldPins (s : State) (slot : Nat) : Nat :=
  (s.blocks.filter fun x => x.rootSlot = slot).length + (s.ops.filter fun o => o.slot = some slot).length
    + (s.subs.filter fun u => u.slot = some slot).length
    + ((s.apq.map Prod.snd ++ s.blocks.flatMap fun x => x.aps.map Prod.snd).filter fun a => a.pin = some slot).length

/-- UNPIN: slot (R75). A pin that a step holds is released by that step alone; this one releases a pin that PIN_CURRENT or PIN
took. -/
def execUnpin (s : State) : Host.Outcome State Fault Refusal :=
  match s.input with
  | .nat slot => if (s.root slot).pins ≤ s.heldPins slot then .next s else .next (s.unpin slot)
  | _ => .next s

/-- The entries of a node's 64-byte line, as a node cache fills it (R88). -/
def State.nodeLine (s : State) (d : Die) (pa : Nat) : List (Die × Nat × DWord) :=
  (List.range 8).map fun i => let a := pa / 64 * 64 + 8 * i; (d, a, BitVec.ofNat 64 (leNat (s.hbm.read a 8)))

/-- The entries that a walk reads, level by level, down to a leaf or a failure; one whose line cannot be read is not among them (R369). -/
def State.walkPath (s : State) (d : Die) (key va fuel level node : Nat) : List Nat :=
  match fuel with
  | 0 => []
  | n + 1 =>
    let pa := node + 8 * vaIndex va level
    let e := s.nodeEntry d pa
    if (s.nodeFails d key va pa).isSome then []
    else if !teV e || s.teBad level e || teL e then [pa] else pa :: s.walkPath d key va n (level + 1) (tePa e)

/-- Node-cache lines filled for the entries of a walk that it does not hold, up to 4,096 nodes (R88). -/
def State.fillNodes (s : State) (d : Die) (pas : List Nat) : State :=
  pas.foldl (fun z pa =>
    let have_ := z.nodeCache.any fun p => p.1 = d && p.2.1 = pa
    let nodes := (((z.nodeCache.filter fun p => p.1 = d).map fun p => p.2.1 / 2048).eraseDups).filter fun n => n ≠ pa / 2048
    if have_ then z else if 4096 ≤ nodes.length then z else { z with nodeCache := z.nodeCache ++ z.nodeLine d pa }) s

/-- A slot that something may translate through (R84, R89): it is CURRENT, or still pinned. -/
def RootSlot.usable (r : RootSlot) : Bool := r.state = 1 || r.pins ≠ 0

/-- TRANSLATION_WALK: die, device-wide core or 192 for the die's second level, slot, key slot, VA. A walk that succeeds fills a TLB
entry; its nodes enter the die's node cache; a host page enters the host translations (R87, R88, R95). A full TLB gives up its oldest
entry (DESIGN CHOICE, log 142). -/
def execTranslationWalk (s : State) : Host.Outcome State Fault Refusal :=
  match s.input with
  | .nat5 d core slot key va =>
    let die : Die := Fin.ofNat 2 d
    let r := (s.root slot).root
    if s.hbmEnd ≤ r || 2 ^ 48 ≤ va || !(s.root slot).usable then .next s
    else
      match s.walk die key slot va with
      | .error _ => .next (s.fillNodes die (s.walkPath die key va 4 0 r))
      | .ok (leaf, level) =>
        let s1 := s.fillNodes die (s.walkPath die key va 4 0 r)
        let size := 2 ^ pageBits level
        let ent : TlbEnt := { slot := slot, gen := (s.root slot).gen, page := va / size * size, size := size, leaf := leaf }
        let who := if core < 192 then some core else none
        let cap := if core < 192 then 4096 else 131072
        let mine := s1.tlb.filter fun p => p.1 = die && p.2.1 = who
        let s2 := if mine.any (fun p => p.2.2 = ent) then s1
          else
            let rest := if mine.length < cap then s1.tlb else (match mine with | p :: _ => s1.tlb.erase p | [] => s1.tlb)
            { s1 with tlb := rest ++ [(die, who, ent)] }
        if teTier leaf = 2 then
          let k := ((s.space (s.root slot).space).hostPasid, (tePa leaf + va % size) / 4096)
          .next (if s2.ats.contains k then s2 else { s2 with ats := s2.ats ++ [k] })
        else .next s2
  | _ => .next s

end Sys2Proof.Machine
end

