-- ==== Sys2Proof/Machine/Units.lean ====
section
/-! DEFINITION. MX units as locations (R129, R237) and the ordering machine's actions on stores, reads and sectors (R234): each performs its
access whole, or, of a plain access to an outstanding MX unit, one byte. -/

namespace Sys2Proof.Machine

/-! ### MX units (R129, R237) -/

/-- A copy in MX mode. -/
def OpKind.mx (k : OpKind) : Bool :=
  match k with
  | .cpy _ _ _ unit => unit ≠ 0
  | .cpy2d d => c2Mxm d ≠ 0
  | _ => false

/-- Whether a format code of the matrix engine is of blocks with scales (R128). -/
def scaled (code : Nat) : Bool := groupScales code ≠ 0

/-- The ranges of MX units that MTILE, MTILEX and ATT read: elements and scales. -/
def MatKind.unitReads (k : MatKind) : List MRange :=
  match k with
  | .tile 0 d | .tile 1 d =>
    let rows := tRows d
    (if scaled (tAfmt d) then k.reads.take rows ++ (k.reads.drop (rows + 64)).take 1 else [])
      ++ if scaled (tBfmt d) then (k.reads.drop rows).take 64 ++ k.reads.drop (rows + 65) else []
  | .att d => if aKv d = 0 then [] else k.reads.drop 1
  | _ => []

/-- A byte of an outstanding access of MXLD or MXST. -/
def Pend.unitAt (p : Pend) (l : Loc) : Bool :=
  (p.kind = .mxload || p.kind = .mxstore) && p.accs.any fun a => !a.performed && (List.range a.size).any fun i => a.loc.add i = l

/-- A byte of an outstanding unit of a copy in MX mode: of its source until it is read, of its destination until it lands. -/
def State.copyUnitAt (s : State) (o : Op) (x : Block) (l : Loc) : Bool :=
  o.kind.mx && !o.away && (List.range o.kind.count).any fun i => !o.landed.contains i
    && ((!(o.reads.any fun p => p.1 = i) && (o.halfAddrs x i false).any fun a => (s.locate x (s.opSlot o) a .read).toOption = some l)
      || (o.halfAddrs x i true).any fun a => (s.locate x (s.opSlot o) a .write).toOption = some l)

/-- A byte of a unit that an operation of the matrix engine has still to read. -/
def State.engineUnitAt (s : State) (x : Block) (o : MatOp) (l : Loc) : Bool :=
  o.data.isNone && !o.away && o.kind.unitReads.any fun r => r.bytes.any fun a => s.engineLoc x a = some l

/-- A byte of an MX unit: of one that an MX access on its way reads or writes (DEDUCED, log 153). -/
def State.unitAt (s : State) (l : Loc) : Bool :=
  ((s.blocks ++ s.ended).any fun x => x.gangs.any fun y => y.pends.any fun p => p.unitAt l)
    || (s.ops.any fun o => match s.block? o.b with | some x => s.copyUnitAt o x l | none => false)
    || s.blocks.any fun x => x.mops.any fun o => s.engineUnitAt x o l

/-! ### Stores and reads (R234) -/

/-- A byte of a lane's plain access is a byte of an MX unit: the access is then a set of byte accesses there (R237). -/
def State.splitsAt (s : State) (b g id lane i : Nat) : Bool :=
  match s.gang? b g with
  | none => false
  | some (_, y) =>
    match (y.pend? id).bind fun p => p.accs.find? fun a => a.lane = lane && !a.performed with
    | some a => s.unitAt (a.loc.add i)
    | none => false

/-- STORE_PERFORM: block, gang, pending word and lane; with a fifth number, the byte of a unit. -/
def execStorePerform (s : State) : Host.Outcome State Fault Refusal :=
  match s.input with
  | .nat4 b g id lane => .next (s.onBlock b fun z => z.storePerform b g id lane none)
  | .nat5 b g id lane i => .next (s.onBlock b fun z => if z.splitsAt b g id lane i then z.storePerform b g id lane (some i) else z)
  | _ => .next s

/-- READ_PERFORM: as STORE_PERFORM. -/
def execReadPerform (s : State) : Host.Outcome State Fault Refusal :=
  match s.input with
  | .nat4 b g id lane => .next (s.onBlock b fun z => z.readPerform b g id lane none)
  | .nat5 b g id lane i => .next (s.onBlock b fun z => if z.splitsAt b g id lane i then z.readPerform b g id lane (some i) else z)
  | _ => .next s

/-! ### Sectors (R207, R234) -/

/-- A byte of a half of a plain copy's sector is a byte of an MX unit (R237). -/
def State.sectorSplitsAt (s : State) (o : Op) (x : Block) (i half j : Nat) : Bool :=
  match (o.halfAddrs x i (half = 1))[j]? with
  | some a =>
    (match s.locate x (s.opSlot o) a (if half = 1 then .write else .read) with
    | .ok l => s.unitAt l
    | .error _ => false)
  | none => false

/-- SECTOR_PERFORM: operation, sector, and which half: 0 the read (for KVL, one probe), 1 the write; with a fourth number, that byte alone
of a plain copy, if it is a byte of an MX unit (R237). -/
def execSectorPerform (s : State) : Host.Outcome State Fault Refusal :=
  match s.input with
  | .nat3 id i half =>
    match s.op? id with
    | none => .next s
    | some o =>
      match s.block? o.b with
      | none => .next s
      | some x =>
        if !o.running || o.kind.count ≤ i || o.landed.contains i then .next s
        else if half = 1 then .next (s.sectorWrite State.leased o x i)
        else match o.kind with
        | .kvl .. => .next (s.kvlRead State.leased o x i)
        | _ => if o.reads.any fun p => p.1 = i then .next s else .next (s.sectorRead o x i)
  | .nat4 id i half j =>
    match s.op? id with
    | none => .next s
    | some o =>
      match s.block? o.b with
      | none => .next s
      | some x =>
        if !o.running || o.kind.count ≤ i || o.landed.contains i || !s.sectorSplitsAt o x i half j then .next s
        else if half = 1 then .next (s.byteWrite State.leased o x i j)
        else if o.reads.any fun p => p.1 = i then .next s else .next (s.byteRead o x i j)
  | _ => .next s

end Sys2Proof.Machine
end

