-- ==== Sys2Proof/Machine/Dispatch.lean ====
section
/-! DEFINITION. The one dispatch: an arm per instruction, each one call of that instruction's meaning. -/

namespace Sys2Proof.Machine

def exec (i : Instr) (s : State) : Host.Outcome State Fault Refusal :=
  match i with
  | .iadd o => Sys2Proof.Machine.execIadd o s
  | .isub o => Sys2Proof.Machine.execIsub o s
  | .imul o => Sys2Proof.Machine.execImul o s
  | .imulh o => Sys2Proof.Machine.execImulh o s
  | .imulhu o => Sys2Proof.Machine.execImulhu o s
  | .imin o => Sys2Proof.Machine.execImin o s
  | .imax o => Sys2Proof.Machine.execImax o s
  | .umin o => Sys2Proof.Machine.execUmin o s
  | .umax o => Sys2Proof.Machine.execUmax o s
  | .iabs o => Sys2Proof.Machine.execIabs o s
  | .ineg o => Sys2Proof.Machine.execIneg o s
  | .and o => Sys2Proof.Machine.execAnd o s
  | .or o => Sys2Proof.Machine.execOr o s
  | .xor o => Sys2Proof.Machine.execXor o s
  | .andn o => Sys2Proof.Machine.execAndn o s
  | .orn o => Sys2Proof.Machine.execOrn o s
  | .shl o => Sys2Proof.Machine.execShl o s
  | .shr o => Sys2Proof.Machine.execShr o s
  | .sar o => Sys2Proof.Machine.execSar o s
  | .rol o => Sys2Proof.Machine.execRol o s
  | .ror o => Sys2Proof.Machine.execRor o s
  | .bfe o => Sys2Proof.Machine.execBfe o s
  | .bfi o => Sys2Proof.Machine.execBfi o s
  | .bfs o => Sys2Proof.Machine.execBfs o s
  | .popc o => Sys2Proof.Machine.execPopc o s
  | .clz o => Sys2Proof.Machine.execClz o s
  | .ctz o => Sys2Proof.Machine.execCtz o s
  | .brev o => Sys2Proof.Machine.execBrev o s
  | .bswap o => Sys2Proof.Machine.execBswap o s
  | .prmt o => Sys2Proof.Machine.execPrmt o s
  | .iadd64 o => Sys2Proof.Machine.execIadd64 o s
  | .isub64 o => Sys2Proof.Machine.execIsub64 o s
  | .icmpEq o => Sys2Proof.Machine.execIcmpEq o s
  | .icmpNe o => Sys2Proof.Machine.execIcmpNe o s
  | .icmpLt o => Sys2Proof.Machine.execIcmpLt o s
  | .icmpLe o => Sys2Proof.Machine.execIcmpLe o s
  | .icmpUlt o => Sys2Proof.Machine.execIcmpUlt o s
  | .icmpUle o => Sys2Proof.Machine.execIcmpUle o s
  | .icmpTst o => Sys2Proof.Machine.execIcmpTst o s
  | .icmpNtst o => Sys2Proof.Machine.execIcmpNtst o s
  | .imad o => Sys2Proof.Machine.execImad o s
  | .sel o => Sys2Proof.Machine.execSel o s
  | .shfl o => Sys2Proof.Machine.execShfl o s
  | .shflx o => Sys2Proof.Machine.execShflx o s
  | .shflup o => Sys2Proof.Machine.execShflup o s
  | .shfldn o => Sys2Proof.Machine.execShfldn o s
  | .bcst o => Sys2Proof.Machine.execBcst o s
  | .laneid o => Sys2Proof.Machine.execLaneid o s
  | .mov o => Sys2Proof.Machine.execMov o s
  | .movs o => Sys2Proof.Machine.execMovs o s
  | .smov o => Sys2Proof.Machine.execSmov o s
  | .vpcr o => Sys2Proof.Machine.execVpcr o s
  | .tagr o => Sys2Proof.Machine.execTagr o s
  | .retag o => Sys2Proof.Machine.execRetag o s
  | .iaddi o => Sys2Proof.Machine.execIaddi o s
  | .andi o => Sys2Proof.Machine.execAndi o s
  | .ori o => Sys2Proof.Machine.execOri o s
  | .xori o => Sys2Proof.Machine.execXori o s
  | .shli o => Sys2Proof.Machine.execShli o s
  | .shri o => Sys2Proof.Machine.execShri o s
  | .sari o => Sys2Proof.Machine.execSari o s
  | .roli o => Sys2Proof.Machine.execRoli o s
  | .icmpiEq o => Sys2Proof.Machine.execIcmpiEq o s
  | .icmpiNe o => Sys2Proof.Machine.execIcmpiNe o s
  | .icmpiLt o => Sys2Proof.Machine.execIcmpiLt o s
  | .icmpiLe o => Sys2Proof.Machine.execIcmpiLe o s
  | .icmpiUlt o => Sys2Proof.Machine.execIcmpiUlt o s
  | .icmpiUle o => Sys2Proof.Machine.execIcmpiUle o s
  | .icmpiTst o => Sys2Proof.Machine.execIcmpiTst o s
  | .icmpiNtst o => Sys2Proof.Machine.execIcmpiNtst o s
  | .lui o => Sys2Proof.Machine.execLui o s
  | .movi o => Sys2Proof.Machine.execMovi o s
  | .fadd o => Sys2Proof.Machine.execFadd o s
  | .fsub o => Sys2Proof.Machine.execFsub o s
  | .fmul o => Sys2Proof.Machine.execFmul o s
  | .fmin o => Sys2Proof.Machine.execFmin o s
  | .fmax o => Sys2Proof.Machine.execFmax o s
  | .fabs o => Sys2Proof.Machine.execFabs o s
  | .fneg o => Sys2Proof.Machine.execFneg o s
  | .fcps o => Sys2Proof.Machine.execFcps o s
  | .frcp o => Sys2Proof.Machine.execFrcp o s
  | .frsq o => Sys2Proof.Machine.execFrsq o s
  | .fsqrt o => Sys2Proof.Machine.execFsqrt o s
  | .fexp2 o => Sys2Proof.Machine.execFexp2 o s
  | .flog2 o => Sys2Proof.Machine.execFlog2 o s
  | .fsin o => Sys2Proof.Machine.execFsin o s
  | .fcos o => Sys2Proof.Machine.execFcos o s
  | .ftanh o => Sys2Proof.Machine.execFtanh o s
  | .fcmpEq o => Sys2Proof.Machine.execFcmpEq o s
  | .fcmpNe o => Sys2Proof.Machine.execFcmpNe o s
  | .fcmpLt o => Sys2Proof.Machine.execFcmpLt o s
  | .fcmpLe o => Sys2Proof.Machine.execFcmpLe o s
  | .fcmpUn o => Sys2Proof.Machine.execFcmpUn o s
  | .fcmpOrd o => Sys2Proof.Machine.execFcmpOrd o s
  | .fcmpCls o => Sys2Proof.Machine.execFcmpCls o s
  | .ffma o => Sys2Proof.Machine.execFfma o s
  | .ffms o => Sys2Proof.Machine.execFfms o s
  | .fdot o => Sys2Proof.Machine.execFdot o s
  | .cvt o => Sys2Proof.Machine.execCvt o s
  | .pack2 o => Sys2Proof.Machine.execPack2 o s
  | .pack4 o => Sys2Proof.Machine.execPack4 o s
  | .unpkl o => Sys2Proof.Machine.execUnpkl o s
  | .unpkh o => Sys2Proof.Machine.execUnpkh o s
  | .packn o => Sys2Proof.Machine.execPackn o s
  | .unpkn o => Sys2Proof.Machine.execUnpkn o s
  | .pk6 o => Sys2Proof.Machine.execPk6 o s
  | .upk6 o => Sys2Proof.Machine.execUpk6 o s
  | .mxq o => Sys2Proof.Machine.execMxq o s
  | .mxdq o => Sys2Proof.Machine.execMxdq o s
  | .mxsc o => Sys2Proof.Machine.execMxsc o s
  | .kand o => Sys2Proof.Machine.execKand o s
  | .kor o => Sys2Proof.Machine.execKor o s
  | .kxor o => Sys2Proof.Machine.execKxor o s
  | .kandn o => Sys2Proof.Machine.execKandn o s
  | .knot o => Sys2Proof.Machine.execKnot o s
  | .kmov o => Sys2Proof.Machine.execKmov o s
  | .kpop o => Sys2Proof.Machine.execKpop o s
  | .kffs o => Sys2Proof.Machine.execKffs o s
  | .bal o => Sys2Proof.Machine.execBal o s
  | .ktov o => Sys2Proof.Machine.execKtov o s
  | .kfroms o => Sys2Proof.Machine.execKfroms o s
  | .ktos o => Sys2Proof.Machine.execKtos o s
  | .sadd o => Sys2Proof.Machine.execSadd o s
  | .ssub o => Sys2Proof.Machine.execSsub o s
  | .smul o => Sys2Proof.Machine.execSmul o s
  | .sand o => Sys2Proof.Machine.execSand o s
  | .sor o => Sys2Proof.Machine.execSor o s
  | .sxor o => Sys2Proof.Machine.execSxor o s
  | .sshl o => Sys2Proof.Machine.execSshl o s
  | .sshr o => Sys2Proof.Machine.execSshr o s
  | .saddi o => Sys2Proof.Machine.execSaddi o s
  | .smovi o => Sys2Proof.Machine.execSmovi o s
  | .slui o => Sys2Proof.Machine.execSlui o s
  | .scmpEq o => Sys2Proof.Machine.execScmpEq o s
  | .scmpNe o => Sys2Proof.Machine.execScmpNe o s
  | .scmpLt o => Sys2Proof.Machine.execScmpLt o s
  | .scmpLe o => Sys2Proof.Machine.execScmpLe o s
  | .scmpUlt o => Sys2Proof.Machine.execScmpUlt o s
  | .scmpUle o => Sys2Proof.Machine.execScmpUle o s
  | .scmpTst o => Sys2Proof.Machine.execScmpTst o s
  | .scmpNtst o => Sys2Proof.Machine.execScmpNtst o s
  | .ld o => Sys2Proof.Machine.execLd o s
  | .st o => Sys2Proof.Machine.execSt o s
  | .mxld o => Sys2Proof.Machine.execMxld o s
  | .mxst o => Sys2Proof.Machine.execMxst o s
  | .atomAdd o => Sys2Proof.Machine.execAtomAdd o s
  | .atomSub o => Sys2Proof.Machine.execAtomSub o s
  | .atomMin o => Sys2Proof.Machine.execAtomMin o s
  | .atomMax o => Sys2Proof.Machine.execAtomMax o s
  | .atomUmin o => Sys2Proof.Machine.execAtomUmin o s
  | .atomUmax o => Sys2Proof.Machine.execAtomUmax o s
  | .atomAnd o => Sys2Proof.Machine.execAtomAnd o s
  | .atomOr o => Sys2Proof.Machine.execAtomOr o s
  | .atomXor o => Sys2Proof.Machine.execAtomXor o s
  | .atomXchg o => Sys2Proof.Machine.execAtomXchg o s
  | .atomCas o => Sys2Proof.Machine.execAtomCas o s
  | .atomIncw o => Sys2Proof.Machine.execAtomIncw o s
  | .atomDecw o => Sys2Proof.Machine.execAtomDecw o s
  | .atomFadd o => Sys2Proof.Machine.execAtomFadd o s
  | .atomAld o => Sys2Proof.Machine.execAtomAld o s
  | .atomAst o => Sys2Proof.Machine.execAtomAst o s
  | .atom64Add o => Sys2Proof.Machine.execAtom64Add o s
  | .atom64Sub o => Sys2Proof.Machine.execAtom64Sub o s
  | .atom64Min o => Sys2Proof.Machine.execAtom64Min o s
  | .atom64Max o => Sys2Proof.Machine.execAtom64Max o s
  | .atom64Umin o => Sys2Proof.Machine.execAtom64Umin o s
  | .atom64Umax o => Sys2Proof.Machine.execAtom64Umax o s
  | .atom64And o => Sys2Proof.Machine.execAtom64And o s
  | .atom64Or o => Sys2Proof.Machine.execAtom64Or o s
  | .atom64Xor o => Sys2Proof.Machine.execAtom64Xor o s
  | .atom64Xchg o => Sys2Proof.Machine.execAtom64Xchg o s
  | .atom64Cas o => Sys2Proof.Machine.execAtom64Cas o s
  | .atom64Incw o => Sys2Proof.Machine.execAtom64Incw o s
  | .atom64Decw o => Sys2Proof.Machine.execAtom64Decw o s
  | .atom64Fadd o => Sys2Proof.Machine.execAtom64Fadd o s
  | .atom64Ald o => Sys2Proof.Machine.execAtom64Ald o s
  | .atom64Ast o => Sys2Proof.Machine.execAtom64Ast o s
  | .fenceOrd o => Sys2Proof.Machine.execFenceOrd o s
  | .fenceRel o => Sys2Proof.Machine.execFenceRel o s
  | .fenceAcq o => Sys2Proof.Machine.execFenceAcq o s
  | .fenceBoth o => Sys2Proof.Machine.execFenceBoth o s
  | .fenceFull o => Sys2Proof.Machine.execFenceFull o s
  | .bind o => Sys2Proof.Machine.execBind o s
  | .unbind o => Sys2Proof.Machine.execUnbind o s
  | .lkr o => Sys2Proof.Machine.execLkr o s
  | .lkw o => Sys2Proof.Machine.execLkw o s
  | .ulr o => Sys2Proof.Machine.execUlr o s
  | .ulw o => Sys2Proof.Machine.execUlw o s
  | .lkinit o => Sys2Proof.Machine.execLkinit o s
  | .sld o => Sys2Proof.Machine.execSld o s
  | .slwait o => Sys2Proof.Machine.execSlwait o s
  | .slack o => Sys2Proof.Machine.execSlack o s
  | .usub o => Sys2Proof.Machine.execUsub o s
  | .cpy o => Sys2Proof.Machine.execCpy o s
  | .cpy2d o => Sys2Proof.Machine.execCpy2d o s
  | .gth o => Sys2Proof.Machine.execGth o s
  | .sct o => Sys2Proof.Machine.execSct o s
  | .cpyt o => Sys2Proof.Machine.execCpyt o s
  | .kvl o => Sys2Proof.Machine.execKvl o s
  | .coll o => Sys2Proof.Machine.execColl o s
  | .wtany o => Sys2Proof.Machine.execWtany o s
  | .wtall o => Sys2Proof.Machine.execWtall o s
  | .ffrdy o => Sys2Proof.Machine.execFfrdy o s
  | .tagclr o => Sys2Proof.Machine.execTagclr o s
  | .tagrd o => Sys2Proof.Machine.execTagrd o s
  | .tbinit o => Sys2Proof.Machine.execTbinit o s
  | .tbarv o => Sys2Proof.Machine.execTbarv o s
  | .tbexp o => Sys2Proof.Machine.execTbexp o s
  | .tbwait o => Sys2Proof.Machine.execTbwait o s
  | .tbtry o => Sys2Proof.Machine.execTbtry o s
  | .tbrd o => Sys2Proof.Machine.execTbrd o s
  | .bar o => Sys2Proof.Machine.execBar o s
  | .cbar o => Sys2Proof.Machine.execCbar o s
  | .bararv o => Sys2Proof.Machine.execBararv o s
  | .bararvC o => Sys2Proof.Machine.execBararvC o s
  | .tryw o => Sys2Proof.Machine.execTryw o s
  | .join o => Sys2Proof.Machine.execJoin o s
  | .leave o => Sys2Proof.Machine.execLeave o s
  | .waitk o => Sys2Proof.Machine.execWaitk o s
  | .aprun o => Sys2Proof.Machine.execAprun o s
  | .aqe o => Sys2Proof.Machine.execAqe o s
  | .aqend o => Sys2Proof.Machine.execAqend o s
  | .apstop o => Sys2Proof.Machine.execApstop o s
  | .aqpop o => Sys2Proof.Machine.execAqpop o s
  | .mma o => Sys2Proof.Machine.execMma o s
  | .mmac o => Sys2Proof.Machine.execMmac o s
  | .mtile o => Sys2Proof.Machine.execMtile o s
  | .mtilex o => Sys2Proof.Machine.execMtilex o s
  | .mzclr o => Sys2Proof.Machine.execMzclr o s
  | .mzld o => Sys2Proof.Machine.execMzld o s
  | .mzst o => Sys2Proof.Machine.execMzst o s
  | .mzscl o => Sys2Proof.Machine.execMzscl o s
  | .att o => Sys2Proof.Machine.execAtt o s
  | .attfin o => Sys2Proof.Machine.execAttfin o s
  | .sigf o => Sys2Proof.Machine.execSigf o s
  | .sigmk o => Sys2Proof.Machine.execSigmk o s
  | .cvset o => Sys2Proof.Machine.execCvset o s
  | .cvclr o => Sys2Proof.Machine.execCvclr o s
  | .bra o => Sys2Proof.Machine.execBra o s
  | .call o => Sys2Proof.Machine.execCall o s
  | .brx o => Sys2Proof.Machine.execBrx o s
  | .callx o => Sys2Proof.Machine.execCallx o s
  | .ret o => Sys2Proof.Machine.execRet o s
  | .exit o => Sys2Proof.Machine.execExit o s
  | .yield o => Sys2Proof.Machine.execYield o s
  | .brk o => Sys2Proof.Machine.execBrk o s
  | .trap o => Sys2Proof.Machine.execTrap o s
  | .nop o => Sys2Proof.Machine.execNop o s
  | .rref o => Sys2Proof.Machine.execRref o s
  | .bget o => Sys2Proof.Machine.execBget o s
  | .enqr o => Sys2Proof.Machine.execEnqr o s
  | .tretRetry o => Sys2Proof.Machine.execTretRetry o s
  | .tretCont o => Sys2Proof.Machine.execTretCont o s
  | .tretResume o => Sys2Proof.Machine.execTretResume o s
  | .csrr o => Sys2Proof.Machine.execCsrr o s
  | .csrw o => Sys2Proof.Machine.execCsrw o s
  | .csrs o => Sys2Proof.Machine.execCsrs o s
  | .csrc o => Sys2Proof.Machine.execCsrc o s
  | .rcas o => Sys2Proof.Machine.execRcas o s
  | .rsnap o => Sys2Proof.Machine.execRsnap o s
  | .ndrop o => Sys2Proof.Machine.execNdrop o s
  | .rpinq o => Sys2Proof.Machine.execRpinq o s
  | .smove o => Sys2Proof.Machine.execSmove o s
  | .rfree o => Sys2Proof.Machine.execRfree o s
  | .entryFetch => Sys2Proof.Machine.execEntryFetch s
  | .writeIndexPush => Sys2Proof.Machine.execWriteIndexPush s
  | .entryNop => Sys2Proof.Machine.execEntryNop s
  | .entryLaunch => Sys2Proof.Machine.execEntryLaunch s
  | .entryNode => Sys2Proof.Machine.execEntryNode s
  | .entryFetchfence => Sys2Proof.Machine.execEntryFetchfence s
  | .entrySignal => Sys2Proof.Machine.execEntrySignal s
  | .signalStore => Sys2Proof.Machine.execSignalStore s
  | .entryWaitv => Sys2Proof.Machine.execEntryWaitv s
  | .waitvPush => Sys2Proof.Machine.execWaitvPush s
  | .splitHalfRequest => Sys2Proof.Machine.execSplitHalfRequest s
  | .splitHalfFinish => Sys2Proof.Machine.execSplitHalfFinish s
  | .queueMap => Sys2Proof.Machine.execQueueMap s
  | .queueUnmap => Sys2Proof.Machine.execQueueUnmap s
  | .queueFaultClear => Sys2Proof.Machine.execQueueFaultClear s
  | .fecfgWrite => Sys2Proof.Machine.execFecfgWrite s
  | .fepcmdGrant => Sys2Proof.Machine.execFepcmdGrant s
  | .fepcmdDemote => Sys2Proof.Machine.execFepcmdDemote s
  | .fepcmdAbort => Sys2Proof.Machine.execFepcmdAbort s
  | .blockPlacement => Sys2Proof.Machine.execBlockPlacement s
  | .preemptDecision => Sys2Proof.Machine.execPreemptDecision s
  | .saveImageDone => Sys2Proof.Machine.execSaveImageDone s
  | .blockRestore => Sys2Proof.Machine.execBlockRestore s
  | .blockEnd => Sys2Proof.Machine.execBlockEnd s
  | .entryFinish => Sys2Proof.Machine.execEntryFinish s
  | .completionWrite => Sys2Proof.Machine.execCompletionWrite s
  | .deadlineInheritUpdate => Sys2Proof.Machine.execDeadlineInheritUpdate s
  | .budgetReport => Sys2Proof.Machine.execBudgetReport s
  | .enqrNodeAnswer => Sys2Proof.Machine.execEnqrNodeAnswer s
  | .enqrAccept => Sys2Proof.Machine.execEnqrAccept s
  | .nodeBlockLaunch => Sys2Proof.Machine.execNodeBlockLaunch s
  | .nodeTimeout => Sys2Proof.Machine.execNodeTimeout s
  | .nodeMarginReached => Sys2Proof.Machine.execNodeMarginReached s
  | .fairnessSweep => Sys2Proof.Machine.execFairnessSweep s
  | .fairnessTurnEnd => Sys2Proof.Machine.execFairnessTurnEnd s
  | .variableLatencyComplete => Sys2Proof.Machine.execVariableLatencyComplete s
  | .fixedLatencyWrite => Sys2Proof.Machine.execFixedLatencyWrite s
  | .storePerform => Sys2Proof.Machine.execStorePerform s
  | .readPerform => Sys2Proof.Machine.execReadPerform s
  | .atomicPerform => Sys2Proof.Machine.execAtomicPerform s
  | .sectorPerform => Sys2Proof.Machine.execSectorPerform s
  | .lineDrop => Sys2Proof.Machine.execLineDrop s
  | .pushDelivery => Sys2Proof.Machine.execPushDelivery s
  | .copyFault => Sys2Proof.Machine.execCopyFault s
  | .addressProgramStep => Sys2Proof.Machine.execAddressProgramStep s
  | .lockHintExpiry => Sys2Proof.Machine.execLockHintExpiry s
  | .trywHintExpiry => Sys2Proof.Machine.execTrywHintExpiry s
  | .tbtryHintExpiry => Sys2Proof.Machine.execTbtryHintExpiry s
  | .slwaitHintExpiry => Sys2Proof.Machine.execSlwaitHintExpiry s
  | .sldHomeRequest => Sys2Proof.Machine.execSldHomeRequest s
  | .creditReturn => Sys2Proof.Machine.execCreditReturn s
  | .usubHome => Sys2Proof.Machine.execUsubHome s
  | .subscriptionPoison => Sys2Proof.Machine.execSubscriptionPoison s
  | .operandsConsumed => Sys2Proof.Machine.execOperandsConsumed s
  | .matrixOpComplete => Sys2Proof.Machine.execMatrixOpComplete s
  | .systemTrapRecord => Sys2Proof.Machine.execSystemTrapRecord s
  | .trapResolution => Sys2Proof.Machine.execTrapResolution s
  | .contextDiscard => Sys2Proof.Machine.execContextDiscard s
  | .deviceFatal => Sys2Proof.Machine.execDeviceFatal s
  | .pinCurrent => Sys2Proof.Machine.execPinCurrent s
  | .pin => Sys2Proof.Machine.execPin s
  | .unpin => Sys2Proof.Machine.execUnpin s
  | .noticeRingPost => Sys2Proof.Machine.execNoticeRingPost s
  | .translationWalk => Sys2Proof.Machine.execTranslationWalk s
  | .ndropComplete => Sys2Proof.Machine.execNdropComplete s
  | .registerWrite => Sys2Proof.Machine.execRegisterWrite s
  | .hostBar2Request => Sys2Proof.Machine.execHostBar2Request s
  | .atsInvalidation => Sys2Proof.Machine.execAtsInvalidation s
  | .spdmRequest => Sys2Proof.Machine.execSpdmRequest s
  | .keyload => Sys2Proof.Machine.execKeyload s
  | .peerRequest => Sys2Proof.Machine.execPeerRequest s
  | .leaseRevoke => Sys2Proof.Machine.execLeaseRevoke s
  | .leaseGraceEnd => Sys2Proof.Machine.execLeaseGraceEnd s
  | .leaseTableWrite => Sys2Proof.Machine.execLeaseTableWrite s
  | .leaseRelease => Sys2Proof.Machine.execLeaseRelease s
  | .lenderGraceEnd => Sys2Proof.Machine.execLenderGraceEnd s
  | .portLinkLoss => Sys2Proof.Machine.execPortLinkLoss s
  | .collComplete => Sys2Proof.Machine.execCollComplete s
  | .coldReset => Sys2Proof.Machine.execColdReset s
  | .warmReset => Sys2Proof.Machine.execWarmReset s
  | .mbResync => Sys2Proof.Machine.execMbResync s
  | .mbBbread => Sys2Proof.Machine.execMbBbread s
  | .mbErrlog => Sys2Proof.Machine.execMbErrlog s
  | .mbWarmreset => Sys2Proof.Machine.execMbWarmreset s
  | .firmwareReplacement => Sys2Proof.Machine.execFirmwareReplacement s
  | .quireQuarantine => Sys2Proof.Machine.execQuireQuarantine s
  | .quireSpareTakeover => Sys2Proof.Machine.execQuireSpareTakeover s
  | .hardwareError => Sys2Proof.Machine.execHardwareError s
  | .thermalHold => Sys2Proof.Machine.execThermalHold s
  | .thermalRelease => Sys2Proof.Machine.execThermalRelease s
  | .thermalCritical => Sys2Proof.Machine.execThermalCritical s
  | .nvmePortDmaWrite => Sys2Proof.Machine.execNvmePortDmaWrite s

end Sys2Proof.Machine
end

