-- ==== Sys2Proof/Machine/Direct.lean ====
section
/-! DEFINITION. Words that are no instruction (R111), and the words of majors 0x3B to 0x3D decoded and run at once: the form that
compiled code uses. -/

namespace Sys2Proof.Machine

/-- A word that decodes to no instruction: ILLEGAL with the word (R111 rows 1 and 2); in an address program, the end of the
program (R213). -/
def illegalWord (w : Word) (s : State) : Host.Outcome State Fault Refusal :=
  match s.focus with
  | .idle => .fault .noIssuer
  | .ap d core q _ => progressed (s.apMalformed d core q)
  | .gang b g m pc hpc hdr _ _ =>
    progressed ((s.modGang b g fun y => (y.takeUp m pc hpc hdr).mapLanes m fun _ l => { l with vlHere := false }).takeTrap b g m
      pc { cause := Cause.illegal, tval := w.setWidth 64 } false)

/-- A word whose field must be zero. -/
def runZero {n : Nat} (w : Word) (s : State) (b : BitVec n) (o : Host.Outcome State Fault Refusal) :
    Host.Outcome State Fault Refusal := if b = 0 then o else illegalWord w s

/-- Major 0x3B decoded and run. -/
def run3B (w : Word) (s : State) : Host.Outcome State Fault Refusal :=
  match (fld w 0 4).toNat with
  | 0 => (runZero w s (fld w 4 20) (execExit (.of w) s))
  | 1 => (runZero w s (fld w 4 20) (execYield (.of w) s))
  | 2 => (runZero w s (fld w 19 5) (runZero w s (fld w 4 5) (execBrk (.of w) s)))
  | 3 => (runZero w s (fld w 19 5) (runZero w s (fld w 4 5) (execTrap (.of w) s)))
  | 4 => (runZero w s (fld w 4 20) (execNop (.of w) s))
  | 5 => (runZero w s (fld w 4 15) (execRref (.of w) s))
  | 6 => (runZero w s (fld w 14 5) (runZero w s (fld w 4 5) (execBget (.of w) s)))
  | 7 => (execEnqr (.of w) s)
  | 8 => runZero w s (fld w 4 15) (match (fld w 19 5).toNat with
    | 0 => execTretRetry (.of w) s
    | 1 => execTretCont (.of w) s
    | 2 => execTretResume (.of w) s
    | _ => illegalWord w s)
  | _ => illegalWord w s

/-- Major 0x3C decoded and run. -/
def run3C (w : Word) (s : State) : Host.Outcome State Fault Refusal :=
  match (fld w 0 4).toNat with
  | 0 => (runZero w s (fld w 4 5) (execCsrr (.of w) s))
  | 1 => (runZero w s (fld w 4 5) (execCsrw (.of w) s))
  | 2 => (runZero w s (fld w 4 5) (execCsrs (.of w) s))
  | 3 => (runZero w s (fld w 4 5) (execCsrc (.of w) s))
  | _ => illegalWord w s

/-- Major 0x3D decoded and run. -/
def run3D (w : Word) (s : State) : Host.Outcome State Fault Refusal :=
  match (fld w 0 4).toNat with
  | 0 => (runZero w s (fld w 4 5) (execRcas (.of w) s))
  | 1 => (runZero w s (fld w 4 5) (execRsnap (.of w) s))
  | 2 => (runZero w s (fld w 19 5) (runZero w s (fld w 9 5) (execNdrop (.of w) s)))
  | 3 => (runZero w s (fld w 4 10) (execRpinq (.of w) s))
  | 4 => (runZero w s (fld w 4 5) (execSmove (.of w) s))
  | 5 => (runZero w s (fld w 4 10) (execRfree (.of w) s))
  | _ => illegalWord w s

end Sys2Proof.Machine
end

