-- ==== Sys2Proof/Machine/Turns.lean ====
section
/-! DEFINITION. The turns of the machine: an issue of a partition (R60, R68), a device step, and the passing of time (R3, R27). -/

namespace Sys2Proof.Machine

/-! ### A word runs -/

/-- The word that a gang or an address program issues: the instruction that it decodes to is executed; a word that decodes to none is
ILLEGAL (R111). -/
noncomputable def runWord (w : Word) (s : State) : Host.Outcome State Fault Refusal :=
  match decode w with
  | .ok i => exec i s
  | .error _ => illegalWord w s

/-- A word of a major below 0x3B. -/
def runLow (w : Word) (s : State) : Host.Outcome State Fault Refusal :=
  match decodeLow w with
  | .ok i => if i.wellFormed then exec i s else illegalWord w s
  | .error _ => illegalWord w s

/-- The form of `runWord` that is compiled. -/
def runWordCompiled (w : Word) (s : State) : Host.Outcome State Fault Refusal :=
  match (fld w 24 6).toNat with
  | 0x3B => run3B w s
  | 0x3C => run3C w s
  | 0x3D => run3D w s
  | _ => runLow w s

/-- What `decode` and `exec` make of one of the majors decoded apart. -/
noncomputable def runDecoded (r : Except Reject Instr) (w : Word) (s : State) : Host.Outcome State Fault Refusal :=
  match r with
  | .ok i => if i.wellFormed then exec i s else illegalWord w s
  | .error _ => illegalWord w s

theorem runWord_eq (w : Word) (s : State) : runWord w s = runDecoded (decodeRow w) w s := by
  unfold runWord runDecoded decode
  cases decodeRow w with
  | error e => rfl
  | ok i => cases h : i.wellFormed <;> simp [h]

theorem runDecoded_ifZero {n : Nat} (b : BitVec n) (r : Except Reject Instr) (w : Word) (s : State) :
    runDecoded (ifZero b r) w s = runZero w s b (runDecoded r w s) := by
  unfold ifZero runZero
  by_cases h : b = 0#n
  · rw [if_pos h]; exact (if_pos h).symm
  · rw [if_neg h]; exact (if_neg h).symm

theorem run3B_eq (w : Word) (s : State) : runDecoded (decode3B w) w s = run3B w s := by
  unfold decode3B run3B
  generalize (fld w 0 4).toNat = n
  match n with
  | 0 | 1 | 2 | 3 | 4 | 5 | 6 | 7 => simp only [runDecoded_ifZero]; rfl
  | 8 =>
    simp only [runDecoded_ifZero]
    generalize (fld w 19 5).toNat = m
    match m with
    | 0 | 1 | 2 => rfl
    | _ + 3 => rfl
  | _ + 9 => rfl

theorem run3C_eq (w : Word) (s : State) : runDecoded (decode3C w) w s = run3C w s := by
  unfold decode3C run3C
  generalize (fld w 0 4).toNat = n
  match n with
  | 0 | 1 | 2 | 3 => simp only [runDecoded_ifZero]; rfl
  | _ + 4 => rfl

theorem run3D_eq (w : Word) (s : State) : runDecoded (decode3D w) w s = run3D w s := by
  unfold decode3D run3D
  generalize (fld w 0 4).toNat = n
  match n with
  | 0 | 1 | 2 | 3 | 4 | 5 => simp only [runDecoded_ifZero]; rfl
  | _ + 6 => rfl

theorem runDecoded_low (w : Word) (s : State) : runDecoded (decodeLow w) w s = runLow w s := rfl

@[csimp] theorem runWord_compiled : @runWord = @runWordCompiled := by
  funext w s
  rw [runWord_eq]
  unfold runWordCompiled decodeRow
  generalize (fld w 24 6).toNat = n
  split
  · exact run3B_eq w s
  · exact run3C_eq w s
  · exact run3D_eq w s
  · first | exact runDecoded_low w s | (split <;> first | contradiction | exact runDecoded_low w s)

/-! ### An issue of a partition (R60, R68) -/

/-- An attempt of a gang to issue. -/
def attempt (s : State) (b g : Nat) : Host.Outcome State Fault Refusal :=
  match s.begin b g with
  | .no => notReady s
  | .ended s' => progressed s'
  | .word w s' => runWord w s'

/-- What the attempt of a gang comes to, if the gang is ready. -/
def State.ready (s : State) (c : Cand) : Option (Host.Outcome State Fault Refusal) :=
  match attempt s c.b c.g with
  | .next t => if t.progress then some (.next t) else none
  | o => some o

/-- Whether a partition has issued its word of the present cycle (R68). -/
def State.partDone (s : State) (d : Die) (core part : Nat) : Bool := s.issuedIn.contains (d, core, part)

/-- The state `t` that an attempt of a partition at `s` has left, where a word issued with the partition's cycle taken (R68). -/
def State.noteIssue (s t : State) (d : Die) (core part : Nat) : State :=
  { t with issuedIn := if t.issues = s.issues then t.issuedIn else (d, core, part) :: t.issuedIn }

/-- A partition issues for the gang that R68 chooses among the ready ones, one word a cycle. -/
def State.issueTurn (s : State) (d : Die) (core part : Nat) : Host.Outcome State Fault Refusal :=
  let cs := if s.partDone d core part then [] else (s.candidates d core part).filter fun c => (s.ready c).isSome
  match pickGang cs with
  | none => .next s
  | some c =>
    match s.ready c with
    | some (.next t) => .next (s.noteIssue t d core part)
    | some o => o
    | none => .next s

/-! ### A device step -/

/-- What a device that has stopped at boot still does (R387, R389): the mailbox, writes to MBOFF and MBCMD among it, is served as ever; a warm
reset repeats the later steps of boot where the first has succeeded. -/
def State.afterBootFail (s : State) (i : Instr) (x : Input) : Bool :=
  match i, x with
  | .registerWrite, .bytes reg _ _ => reg % 64 = 7 || reg % 64 = 12
  | .coldReset, _ => true
  | .mbResync, _ => true
  | .mbBbread, _ => true
  | .mbErrlog, _ => true
  | .mbWarmreset, _ => true
  | .warmReset, _ => !s.mbox.bootfail
  | _, _ => false

/-- A device step with its data. An instruction with an encoding is none: it issues only as a word. -/
def State.eventTurn (s : State) (i : Instr) (x : Input) : Host.Outcome State Fault Refusal :=
  if (encodeWord i).isSome || ((s.mbox.bootfail || !s.booted) && !s.afterBootFail i x) then .next s
  else
    match exec i { s with input := x } with
    | .next t => .next { t with input := .none, focus := .idle }
    | o => o

/-! ### Time (R3, R27, R69, R70) -/

/-- A lane's hint after `n` cycles. -/
def Lane.age (l : Lane) (n : Nat) : Lane := { l with hint := l.hint.map (· - n) }

/-- A gang after `n` cycles of its die: the hints of its lanes run down, but for those of the lanes named. -/
def Gang.age (y : Gang) (n : Nat) (stays : Nat → Bool) : Gang :=
  { y with
    stall := y.stall - n, dNow := if n = 0 then y.dNow else Vector.replicate 6 0
    lanes := y.lanes.mapIdx fun i l => if stays i then l else l.age n }

/-- A block after `n` cycles of its die. Of a block that is away or leaving, no hint runs out in a lane whose wake condition has fired
(R70). -/
def State.ageBlock (s : State) (x : Block) (n : Nat) : Block :=
  if (x.residence = .evicted || x.residence = .draining) && n ≠ 0 then
    let z := s.applied x
    { x with gangs := x.gangs.mapIdx fun g y => y.age n (z.firedFirst x n g) }
  else { x with gangs := x.gangs.map fun y => y.age n fun _ => false }

/-- A dependency counter of a block was lowered in the cycle that ends: waits see it now (R101). -/
def Block.lowered (x : Block) : Bool := x.gangs.any fun y => y.dNow.toList.any (· ≠ 0)

/-- Cycles pass on each die; the waits on counters lowered in the last cycle are tested. -/
def State.timeTurn (s : State) (n0 n1 : Nat) : State :=
  let n : Die → Nat := fun d => if d = 0 then n0 else n1
  (if s.blocks.any fun x => n x.die ≠ 0 && x.lowered then State.settle else id) { s with
    cyc := Vector.ofFn fun d => s.cyc[d] + n d
    fcyc := Vector.ofFn fun d => (s.fcyc[d] + n d) % 2 ^ 64
    blocks := s.blocks.map fun x => s.ageBlock x (n x.die)
    fe := Vector.ofFn fun d => if n d = 0 then s.fe[d] else { s.fe[d] with shown := [] }
    elog := Vector.ofFn fun d => if n d = 0 then s.elog[d] else { s.elog[d] with last := 0 }
    issuedIn := s.issuedIn.filter fun p => n p.1 = 0 }

/-! ### Turns -/

/-- A turn is taken. -/
def State.take (s : State) (t : Turn) : Host.Outcome State Fault Refusal :=
  match t with
  | .event i x => s.eventTurn i x
  | .issue d core part => s.issueTurn d core part
  | .time n0 n1 => .next (s.timeTurn n0 n1)

/-- The partitions that hold gangs of resident blocks. -/
def State.partitions (s : State) : List (Die × Nat × Nat) :=
  s.blocks.flatMap fun x => if x.residence = .resident then x.gangs.map fun y => (x.die, x.core, y.part) else []

/-- The turn that comes when the agenda is empty (log 1): the first partition with a ready gang issues; else a cycle passes. -/
def State.defaultTurn (s : State) : Turn :=
  match s.partitions.find? fun p => !s.partDone p.1 p.2.1 p.2.2 && (s.candidates p.1 p.2.1 p.2.2).any fun c => (s.ready c).isSome with
  | some p => .issue p.1 p.2.1 p.2.2
  | none => .time 1 1

end Sys2Proof.Machine
end

