-- ==== Sys2Proof/Machine/Load.lean ====
section
/-! DEFINITION. A program put where the machine fetches it next (log 4): what a launch from outside the machine would have left. -/

namespace Sys2Proof.Machine

/-- The launch record of the loaded block: one gang of system mode with every resource that an instruction can name. -/
def loadRec : LaunchRec :=
  { nlev := 3, flags := 1, entry := 0x20000, handler := 0, param := 0, bindtab := 0, pgtab := 0, deadline := 0, budi := 0, budm := 0,
    buda := 0, policy := 0, nbind := 0, gangs := 1, ztiles := 8, tags := 64, gregs := 4, localB := 65536, spill := 1024, seedb := 0,
    recsz := 0, gather := 0, timeout := 0, margin := 0, gbuf := 0, gcap := 0, levels := [] }

/-- The entry of the loaded block: a background launch in context 0 and space 0. -/
def loadEntry (id : Nat) : Entry :=
  { id := id, adm := id, die := 0, q := 0, tab := 0, idx := 0, ctx := 0, space := 0, kind := .launch, lrec := loadRec, group := none,
    deadline := none, demoted := false, granted := false, rem := [none, none, none], used := [0, 0, 0], policy := 0, overrun := none, overAt := 0, overNext := [],
    target := 0, arg0 := 0, arg1 := 0, done := 0, first := 0, count := 1, placed := 1, half := .whole, lastEnd := none, ending := none,
    fin := none, node := none, colls := 0, areas := [] }

/-- A translation tree whose root is at 0x10000: the first 4 GiB map to themselves, writable and executable (R76, R77). -/
def loadTree (m : Memory) : Memory := (m.write 0x10000 (natLe 8 0x10801)).write 0x10800 (natLe 8 0xF)

/-- A clause of one word of CLASS 7, and the header after it, which opens a region (R97). -/
def loadCode (m : Memory) (w : Word) : Memory :=
  ((m.write 0x20000 (natLe 4 0x1E000000)).write 0x20004 (natLe 4 w.toNat)).write 0x20008 (natLe 4 0x1F000000)

/-- The words that only an address program executes (R214): AQE and AQEND, majors and subs of R107. -/
def apOnly (w : Word) : Bool := w &&& 0x3F003FFF = 0x2E000001 || w &&& 0x3F003FFF = 0x2E000002

/-- A block is loaded whose one gang, or whose one address program, comes next to the word. -/
def loadWord (w : Word) (s : State) : State :=
  let e := loadEntry s.nextId
  let s1 : State :=
    { s with
      focus := .idle, input := .none, issuedIn := [], nextId := s.nextId + 1, memsz := max s.memsz 1
      hbm := loadCode (loadTree s.hbm) w, tlb := [], nodeCache := [], faults := [], lineKeys := []
      spaces := assocSet s.spaces 0 { sgen := 0, pasid := 0, pasv := false, ctx := 0, key := 0, nullr := false, cur := 0 }
      roots := assocSet s.roots 0 { pins := 1, gen := 1, state := 1, space := 0, root := 0x10000 }
      entries := e :: s.entries
      blocks := s.blocks.filter fun x => x.die ≠ 0 || x.core ≠ 0
      swz := s.swz.filter fun p => p.1.1 ≠ 0 }
  let b := s1.newBlockId 0
  let x := s1.startBlock e { die := 0, core := 0, r := loadRec, base := 0, seats := [(0, 0)] } 0 b 0 0 none none []
  let s2 : State := { s1 with blocks := x :: s1.blocks }
  if apOnly w then
    { s2 with
      apq := assocSet s2.apq (0, 0) (ApQueue.start b 0 (Vector.replicate 32 (0 : Word)) 0x20000)
      agenda := .event .addressProgramStep (.nat3 0 0 0) :: s2.agenda }
  else { s2 with agenda := .issue 0 0 0 :: s2.agenda }

end Sys2Proof.Machine
end

