-- ==== Sys2Proof/Safety.lean ====
section
/-! DEFINITION. The terms in which claims speak of the machine: when a word gets to its effect, what a step leaves alone, and the
invariants of a run. -/

namespace Sys2Proof.Machine

/-! ### When a word gets to its effect -/

/-- The dependency counter that a variable-latency word would take is full (R101). -/
def counterFull (i : Info) (c : Ctx) (y : Gang) : Bool :=
  i.varLat && (match c.dc with | some d => if h : d < 6 then y.d[d] = 63 else false | none => false)

/-- The fragment that has the focus passes every check that comes before a word's effect: R111 rows 3 to 10, STALL_SHORT (R104), a
full counter (R101), a K register that a lock word still has to write (R271) and the issue budget (R44). Then the word's effect is
given this context and this state: the operands as the word reads them, the region of an RE clause entered (R332). -/
def State.clears (s : State) (i : Info) : Option (Ctx × State) :=
  match s.focus with
  | .gang b g m pc hpc hdr w nvl =>
    match s.gang? b g with
    | some (x, y) =>
      let y1 := y.takeUp m pc hpc hdr
      let yv := if y.check.getLsbD 0 then y1 else y1.early i.reads s.fresh
      let c : Ctx := { b := b, g := g, m := m, pc := pc, hpc := hpc, hdr := hdr, nvl := nvl, x := x, y := yv }
      if (fate s i x pc hpc hdr w nvl).isSome || (y.check.getLsbD 0 && (y.short (i.reads ++ i.writes)).isSome)
          || y.kBusy (i.reads ++ i.writes) || counterFull i c y || (s.shortfall x.entry 0 1).isSome then none
      else some (c, { s.setGang b g y1 with fresh := s.fresh + y.earlyBits })
    | none => none
  | _ => none

/-- The gang of a context, in a state. -/
def State.gangAt (s : State) (c : Ctx) : Option Gang := (s.gang? c.b c.g).map Prod.snd

/-! ### What is left alone -/

/-- The lanes' call stacks: depth and entries on chip (R172). -/
def Gang.calls (y : Gang) : Vector (Nat × List DWord) 32 := y.lanes.map fun l => (l.dep, l.stack)

/-- Between two states of one gang, every V, S and K register is unchanged but those named; and so are the call stacks, the trap
registers and the CSRs that no register word writes (R105, R110). -/
structure GangKept (y z : Gang) (vs ss ks : List Nat) : Prop where
  v : ∀ n, n ∉ vs → z.getV n = y.getV n ∧ z.getT n = y.getT n
  s : ∀ n, n ∉ ss → z.getS n = y.getS n
  k : ∀ n, n ∉ ks → z.getK n = y.getK n
  calls : z.calls = y.calls
  modes : z.frm = y.frm ∧ z.fexc = y.fexc ∧ z.seed = y.seed ∧ z.fair = y.fair ∧ z.check = y.check
  stack : z.ssp = y.ssp ∧ z.cspb = y.cspb ∧ z.cspl = y.cspl
  traps : z.trap = y.trap ∧ z.bpc = y.bpc ∧ z.dbgctl = y.dbgctl ∧ z.handler = y.handler ∧ z.sys = y.sys

/-- Every byte of every memory reads as before. -/
def MemKept (s t : State) : Prop := ∀ l, t.readByte l = s.readByte l

/-- Every gang but one is as before, and so is what the blocks hold beside their gangs: tags, tiles, convergence registers,
barriers and deferred causes. -/
structure BlocksKept (s t : State) (b g : Nat) : Prop where
  gangs : ∀ b' g', ¬(b' = b ∧ g' = g) → (t.gang? b' g').map Prod.snd = (s.gang? b' g').map Prod.snd
  blocks : ∀ b', (t.block? b').map (fun x => { x with gangs := [] }) = (s.block? b').map (fun x => { x with gangs := [] })

/-- What the device holds outside its blocks and its entries is as before: the operations in progress, the subscriptions, the
translation registry, bindings, cluster barriers, address programs, leases and counters, the swizzle tags, and the accesses of blocks that
have ended. -/
structure DeviceKept (s t : State) : Prop where
  work : t.ops = s.ops ∧ t.subs = s.subs ∧ t.recs = s.recs ∧ t.lockWaits = s.lockWaits ∧ t.inherits = s.inherits ∧ t.binds = s.binds ∧ t.cbars = s.cbars
    ∧ t.apq = s.apq
  xlate : t.spaces = s.spaces ∧ t.roots = s.roots ∧ t.tlb = s.tlb ∧ t.nodeCache = s.nodeCache ∧ t.moved = s.moved
  outside : t.fe = s.fe ∧ t.trapQ = s.trapQ ∧ t.noticeQ = s.noticeQ ∧ t.discards = s.discards ∧ t.leases = s.leases ∧ t.lends = s.lends
  time : t.cyc = s.cyc ∧ t.fcyc = s.fcyc
  rest : t.swz = s.swz ∧ t.ended = s.ended

/-! ### Register results -/

/-- The register that a result is for. -/
def RegWrite.ref (w : RegWrite) : RegRef :=
  match w with
  | .v n _ _ _ => .v n
  | .s n _ => .s n
  | .k n _ => .k n
  | .kl n _ _ => .k n

/-- A register result has landed: a V register holds the values and tags in the lanes of the mask and what it held in the others; S1 to
S31 and K1 to K11 hold the word, or the bits of the lanes of the mask; a write to S0 or K0 is discarded (R65, R105). -/
def RegWrite.landed (w : RegWrite) (y z : Gang) : Prop :=
  match w with
  | .v n m val tag => ∀ l (h : l < 32), (z.getV n)[l] = (if m.getLsbD l then val[l] else (y.getV n)[l])
      ∧ (z.getT n)[l] = (if m.getLsbD l then tag[l] else (y.getT n)[l])
  | .s n a => z.getS n = if 0 < n ∧ n < 32 then a else 0
  | .k n a => z.getK n = if 0 < n ∧ n < 12 then a else y.getK n
  | .kl n m a => z.getK n = if 0 < n ∧ n < 12 then (y.getK n &&& ~~~m) ||| (a &&& m) else y.getK n

/-- What an issue of a register word comes to: its results have landed, FFLAGS has taken the flags (R138), the stochastic state is `x`
where one is given and else what the word reads (R136), and nothing else has changed but the entry's budget and the gang's place. -/
structure Writes (s t : State) (c : Ctx) (ws : List RegWrite) (flags : FlagSet) (x : Option Word) : Prop where
  gang : ∃ y z, s.gangAt c = some y ∧ t.gangAt c = some z ∧ (∀ w ∈ ws, w.landed y z)
    ∧ GangKept y z ((List.range 64).filter fun n => (ws.map RegWrite.ref).contains (.v n))
        ((List.range 32).filter fun n => (ws.map RegWrite.ref).contains (.s n))
        ((List.range 12).filter fun n => (ws.map RegWrite.ref).contains (.k n))
    ∧ z.fflags = y.fflags ||| flags.setWidth 32 ∧ z.x = x.getD c.y.x ∧ z.d = y.d
  mem : MemKept s t
  blocks : BlocksKept s t c.b c.g
  device : DeviceKept s t

/-- A register word completes: whenever its checks clear and its operands are as `ok` says, `exec` answers a next state, in which the
results `ws`, the flags and the stochastic state have landed and nothing else has changed. -/
def Completes (i : Instr) (info : Info) (ok : Ctx → Prop) (ws : Ctx → List RegWrite) (flags : Ctx → FlagSet := fun _ => 0#5)
    (x : Ctx → Option Word := fun _ => none) : Prop :=
  ∀ s c z, s.clears info = some (c, z) → ok c → ∃ t, exec i s = .next t ∧ Writes s t c (ws c) (flags c) (x c)

/-- Every active lane meets a test. -/
def Ctx.allActive (c : Ctx) (pk : BitVec 3) (p : Nat → Prop) : Prop := ∀ l, (c.active pk).getLsbD l = true → p l

/-! ### The state after an issue -/

/-- A gang after the issue of a word: its lanes' way on, and the counts of R43 and R68. `old` is the gang before the issue. -/
def Gang.afterIssue (y2 old : Gang) (i : Info) (c : Ctx) (next : Bool) (n : Nat) : Gang :=
  { (y2.retire old i c.m c.hdr next).spend ((old.takeUp c.m c.pc c.hpc c.hdr).regionRec c.m) c.m with lastIssue := n }

/-- The state after the issue of a word whose effect has left `s2`: the charge, the lanes' way on and the counts (R43, R63, R96,
R103). -/
def State.issued (s : State) (i : Info) (c : Ctx) (s2 : State) (next : Bool) : State :=
  match s.gang? c.b c.g with
  | none => s2
  | some (x, y) =>
    { (s2.charge x.entry 0 1).modGang c.b c.g (fun y2 => y2.afterIssue y i c next (s.issues + 1)) with
      issues := s.issues + 1, focus := .idle, progress := true }

/-- The state after a word that traps in its execution: the word is charged and counts as an issue, and its lanes take the trap at it
(R7, R44, R63, R336). -/
def State.trapped (s : State) (i : Info) (c : Ctx) (t : Trap) : State :=
  match s.gang? c.b c.g with
  | none => s
  | some (x, y) =>
    let y1 := y.takeUp c.m c.pc c.hpc c.hdr
    let s1 := ((s.setGang c.b c.g y1).charge x.entry 0 1).modGang c.b c.g fun z =>
      { z.spend (y1.regionRec c.m) c.m with lastIssue := s.issues + 1 }
    { (trapLanes s1 i c.b c.g c.m c.pc t).modGang c.b c.g (fun z => z.trapIssued y i c.m c.hdr) with
      issues := s.issues + 1, focus := .idle, progress := true }

/-- A word issues with its effect: whenever its checks clear and its operands are as `ok` says, `exec` answers the state that the
effect leaves, brought past the word. -/
def Issues (i : Instr) (info : Info) (ok : Ctx → State → Prop) (eff : Ctx → State → State) (next : Bool := true) : Prop :=
  ∀ s c z, s.clears info = some (c, z) → ok c z → exec i s = .next (s.issued info c (eff c z) next)

/-- A word traps in its execution. -/
def Raises (i : Instr) (info : Info) (ok : Ctx → State → Prop) (t : Ctx → State → Trap) : Prop :=
  ∀ s c z, s.clears info = some (c, z) → ok c z → exec i s = .next (s.trapped info c (t c z))

/-! ### Words of the other shapes -/

/-- A word that rounds elements (R135 to R140): element `j` of lane `l` is `res c l j r`, with `r` its draw in SR mode; where no flag
that FEXC enables is raised, the codes are written, FFLAGS takes the flags and the stochastic state moves by the draws taken. -/
def Rounds (i : Instr) (info : Info) (vd : BitVec 6) (m : Ctx → Word) (rm : Ctx → Rm) (ok : Ctx → Prop) (cnt : Ctx → Nat → Nat)
    (res : Ctx → Nat → Nat → Nat → Rounded) (val : Ctx → Nat → (Nat → Nat) → Word) (tag : Ctx → Nat → BitVec 5) : Prop :=
  let out : Ctx → Nat → Nat → Rounded := fun c l j => res c l j (if rm c = .sr then srDraw c.y.x (drawIndex (m c) (cnt c) l j) else 0)
  let fl : Ctx → Nat → FlagSet := fun c l => (List.range (cnt c l)).foldl (fun a j => a ||| (out c l j).fl) 0#5
  Completes i info (fun c => ok c ∧ ∀ l, (m c).getLsbD l = true → fl c l &&& c.y.fexc.extractLsb' 0 5 = 0)
    (fun c => [.v vd.toNat (m c) (lanes fun l => val c l fun j => (out c l j).code) (tags (tag c))])
    (fun c => flagsOr c.m fun l => if (m c).getLsbD l then fl c l else 0)
    (fun c => if rm c = .sr then some (srAfter c.y.x (drawIndex (m c) (cnt c) 32 0)) else none)

/-- A word of an address program (R213): it is charged one access unit, changes its queue by `f`, and nothing else. -/
def RunsInProgram (i : Instr) (f : ApQueue → ApQueue) : Prop :=
  ∀ s d core q w a, s.focus = .ap d core q w → s.apq? d core q = some a →
    let ent := ((s.block? a.b).map (·.entry)).getD 0
    s.shortfall ent 2 1 = none →
    exec i s = .next { (s.charge ent 2 1).setApq d core q (f a) with focus := .idle, progress := true }

/-- A dependency counter one higher (R101). -/
def counted (dc : Option Nat) (d : Vector Nat 6) : Vector Nat 6 :=
  match dc with
  | some n => if h : n < 6 then d.set n (d[n] + 1) else d
  | none => d

/-- A variable-latency word has gone pending as `q` (R100, R101): its counter is one higher, its flags and draws are taken, and every
register and every byte is still as before. -/
structure Pending (s t : State) (c : Ctx) (q : Pend) (flags : FlagSet) (x : Option Word) : Prop where
  gang : ∃ y z, s.gangAt c = some y ∧ t.gangAt c = some z ∧ GangKept y z [] [] []
    ∧ z.pends = y.pends ++ [{ q with id := s.nextId, seq := y.seq, pc := c.pc, hpc := c.hpc, hdr := c.hdr, nvl := c.nvl, dc := c.dc,
                                     dst := if c.dc.isSome then q.dst else [],
                                     clobbered := y.writesInFlight (if c.dc.isSome then q.dst else []) }]
    ∧ z.seq = y.seq + 1 ∧ z.d = counted c.dc y.d ∧ z.fflags = y.fflags ||| flags.setWidth 32 ∧ z.x = x.getD c.y.x
  mem : MemKept s t
  blocks : BlocksKept s t c.b c.g
  device : DeviceKept s t

/-- A word goes pending whenever its checks clear and its operands are as `ok` says. -/
def GoesPending (i : Instr) (info : Info) (ok : Ctx → State → Prop) (q : Ctx → State → Pend) (flags : Ctx → FlagSet := fun _ => 0#5)
    (x : Ctx → Option Word := fun _ => none) : Prop :=
  ∀ s c z, s.clears info = some (c, z) → ok c z → ∃ t, exec i s = .next t ∧ Pending s t c (q c z) (flags c) (x c)

/-! ### Device steps -/

/-- A device step takes effect whenever it is given this input and the state is as `ok` says. -/
def Happens (i : Instr) (x : Input) (ok : State → Prop) (eff : State → State) : Prop :=
  ∀ s, s.input = x → ok s → exec i s = .next (eff s)

/-! ### Invariants -/

/-- Every memory of the machine has its canonical form: addresses strictly rising, no cell that reads as an unlisted byte does. -/
def State.memWf (s : State) : Bool :=
  Memory.wf s.hbm && Memory.wf s.tun[0] && Memory.wf s.tun[1] && Memory.wf s.lender && Memory.wf s.host
    && s.blocks.all fun x => Memory.wf x.mem

/-- No word is half done: between two steps nobody has the focus (R60: a word issues as a whole). -/
def State.atRest (s : State) : Bool := s.focus = .idle

end Sys2Proof.Machine
end

