-- ==== Sys2Proof/Laws/Memory.lean ====
section
/-! SUPPORT. Laws of memory: read after write, and the canonical form that every operation keeps. -/

namespace Sys2Proof.Machine

/-! ### One byte -/

theorem Memory.get_insert (m : Memory) (a x : Nat) (v : Byte) (h : ∀ c ∈ m, c.1 ≠ a) :
    (Memory.insert m (a, v)).get x = if x = a then v else m.get x := by
  induction m with
  | nil =>
    by_cases hx : x = a
    · simp [Memory.insert, Memory.get, hx]
    · simp [Memory.insert, Memory.get, hx, Ne.symm hx]
  | cons c r ih =>
    have hc : c.1 ≠ a := h c (by simp)
    have ih' := ih fun d hd => h d (by simp [hd])
    unfold Memory.insert
    by_cases hx : x = a
    · subst hx
      split
      · simp [Memory.get]
      · simp only [Memory.get, hc, if_false]; simpa using ih'
    · split
      · simp only [Memory.get, if_neg (Ne.symm hx)]
      · simp only [Memory.get, ih', if_neg hx]

theorem Memory.get_filter (m : Memory) (a x : Nat) :
    Memory.get (m.filter fun c => c.1 ≠ a) x = if x = a then unlistedByte else m.get x := by
  induction m with
  | nil => simp [Memory.get]
  | cons c r ih =>
    by_cases hc : c.1 = a
    · simp only [List.filter_cons, hc, ne_eq, not_true_eq_false, decide_false, Bool.false_eq_true, if_false, Memory.get]
      rw [ih]
      by_cases hx : x = a
      · simp [hx]
      · simp [hx, Ne.symm hx]
    · simp only [List.filter_cons, ne_eq, hc, not_false_eq_true, decide_true, if_true, Memory.get]
      rw [ih]
      by_cases hx : x = a
      · simp [hx, hc]
      · simp [hx]

/-- A byte written reads back, and every other byte is left. -/
theorem Memory.get_set (m : Memory) (a x : Nat) (v : Byte) : (m.set a v).get x = if x = a then v else m.get x := by
  unfold Memory.set
  split
  · next hv => rw [Memory.get_filter]; simp [hv]
  · rw [Memory.get_insert, Memory.get_filter]
    · split <;> rfl
    · intro c hc; simpa using (List.mem_filter.mp hc).2

@[simp] theorem Memory.get_set_self (m : Memory) (a : Nat) (v : Byte) : (m.set a v).get a = v := by simp [Memory.get_set]

theorem Memory.get_set_ne (m : Memory) (a x : Nat) (v : Byte) (h : x ≠ a) : (m.set a v).get x = m.get x := by
  simp [Memory.get_set, h]

/-! ### The canonical form -/

/-- Every cell of a canonical memory after the first lies above it. -/
theorem Memory.wf_cons (c : Host.Cell) (r : Memory) :
    Memory.wf (c :: r) = true ↔ c.2 ≠ unlistedByte ∧ (∀ d ∈ r, c.1 < d.1) ∧ Memory.wf r = true := by
  induction r generalizing c with
  | nil => simp [Memory.wf]
  | cons d t ih =>
    have := ih d
    simp only [Memory.wf, Bool.and_eq_true, decide_eq_true_eq, List.mem_cons, forall_eq_or_imp] at this ⊢
    constructor
    · rintro ⟨⟨h1, h2⟩, h3⟩
      obtain ⟨ha, hb, hc⟩ := this.mp h3
      exact ⟨h1, ⟨h2, fun e he => Nat.lt_trans h2 (hb e he)⟩, h3⟩
    · rintro ⟨h1, ⟨h2, _⟩, h3⟩
      exact ⟨⟨h1, h2⟩, h3⟩

theorem Memory.wf_filter (m : Memory) (p : Host.Cell → Bool) (h : Memory.wf m = true) : Memory.wf (m.filter p) = true := by
  induction m with
  | nil => rfl
  | cons c r ih =>
    obtain ⟨h1, h2, h3⟩ := (Memory.wf_cons c r).mp h
    rw [List.filter_cons]
    split
    · exact (Memory.wf_cons _ _).mpr ⟨h1, fun d hd => h2 d (List.mem_filter.mp hd).1, ih h3⟩
    · exact ih h3

theorem Memory.mem_insert (m : Memory) (c d : Host.Cell) : d ∈ Memory.insert m c ↔ d = c ∨ d ∈ m := by
  induction m with
  | nil => simp [Memory.insert]
  | cons x r ih =>
    unfold Memory.insert
    split
    · simp
    · simp only [List.mem_cons, ih]; exact or_left_comm

theorem Memory.wf_insert (m : Memory) (c : Host.Cell) (h : Memory.wf m = true) (hc : c.2 ≠ unlistedByte) (hn : ∀ d ∈ m, d.1 ≠ c.1) :
    Memory.wf (Memory.insert m c) = true := by
  induction m with
  | nil => simp [Memory.insert, Memory.wf, hc]
  | cons x r ih =>
    obtain ⟨h1, h2, h3⟩ := (Memory.wf_cons x r).mp h
    unfold Memory.insert
    split
    · next hlt =>
      refine (Memory.wf_cons _ _).mpr ⟨hc, ?_, h⟩
      intro d hd
      rcases List.mem_cons.mp hd with rfl | hd
      · exact hlt
      · exact Nat.lt_trans hlt (h2 d hd)
    · next hge =>
      refine (Memory.wf_cons _ _).mpr ⟨h1, ?_, ih h3 fun d hd => hn d (by simp [hd])⟩
      intro d hd
      rcases (Memory.mem_insert r c d).mp hd with rfl | hd
      · have := hn x (by simp); omega
      · exact h2 d hd

/-- A write of one byte keeps the canonical form. -/
theorem Memory.wf_set (m : Memory) (a : Nat) (v : Byte) (h : Memory.wf m = true) : Memory.wf (m.set a v) = true := by
  unfold Memory.set
  have hf := Memory.wf_filter m (fun c => c.1 ≠ a) h
  split
  · exact hf
  · next hv => exact Memory.wf_insert _ _ hf hv fun d hd => by simpa using (List.mem_filter.mp hd).2

/-- A write of bytes keeps the canonical form. -/
theorem Memory.wf_write (m : Memory) (a : Nat) (bs : List Byte) (h : Memory.wf m = true) : Memory.wf (m.write a bs) = true := by
  induction bs generalizing m a with
  | nil => exact h
  | cons b r ih => exact ih _ _ (Memory.wf_set m a b h)

/-- A write of bytes, read back one byte at a time. -/
theorem Memory.get_write (m : Memory) (a x : Nat) (bs : List Byte) :
    (m.write a bs).get x = if a ≤ x ∧ x < a + bs.length then bs.getD (x - a) 0 else m.get x := by
  induction bs generalizing m a with
  | nil => simp [Memory.write]
  | cons b r ih =>
    rw [Memory.write, ih, Memory.get_set]
    by_cases h0 : x = a
    · subst h0; simp
    · by_cases h1 : a + 1 ≤ x ∧ x < a + 1 + r.length
      · have e : x - a = x - (a + 1) + 1 := by omega
        have h2 : a ≤ x ∧ x < a + (r.length + 1) := by omega
        simp [h1, h2, e]
      · have h2 : ¬(a ≤ x ∧ x < a + (r.length + 1)) := by omega
        rw [if_neg h1, if_neg h0, if_neg (by simpa using h2)]

/-! ### The state's memories -/

/-- A write of one byte keeps the form of every memory. -/
theorem State.memWf_setBlock (s : State) (x : Block) (h : s.memWf = true) (hx : Memory.wf x.mem = true) :
    (s.setBlock x).memWf = true := by
  simp only [State.memWf, Bool.and_eq_true, List.all_eq_true] at h ⊢
  refine ⟨h.1, fun y hy => ?_⟩
  simp only [State.setBlock, List.mem_map] at hy
  obtain ⟨z, hz, rfl⟩ := hy
  split
  · exact hx
  · exact h.2 z hz

theorem State.block?_mem {s : State} {b : Nat} {x : Block} (h : s.block? b = some x) : x ∈ s.blocks ∧ x.id = b := by
  have h1 := List.mem_of_find?_eq_some h
  have h2 := List.find?_some h
  exact ⟨h1, by simpa using h2⟩

theorem State.memWf_writeByte (s : State) (l : Loc) (v : Byte) (h : s.memWf = true) : (s.writeByte l v).memWf = true := by
  have h' := h
  simp only [State.memWf, Bool.and_eq_true, List.all_eq_true] at h'
  obtain ⟨⟨⟨⟨⟨h1, h2⟩, h3⟩, h4⟩, h5⟩, h6⟩ := h'
  cases l with
  | loc b o =>
    simp only [State.writeByte]
    cases hb : s.block? b with
    | none => exact h
    | some x => exact State.memWf_setBlock s _ h (Memory.wf_set _ _ _ (h6 x (State.block?_mem hb).1))
  | tun d o =>
    simp only [State.writeByte, State.memWf, Bool.and_eq_true, List.all_eq_true]
    match d with
    | 0 => exact ⟨⟨⟨⟨⟨h1, by simpa using Memory.wf_set _ _ _ h2⟩, by simpa using h3⟩, h4⟩, h5⟩, h6⟩
    | 1 => exact ⟨⟨⟨⟨⟨h1, by simpa using h2⟩, by simpa using Memory.wf_set _ _ _ h3⟩, h4⟩, h5⟩, h6⟩
  | hbm a =>
    simp only [State.writeByte, State.memWf, Bool.and_eq_true, List.all_eq_true]
    exact ⟨⟨⟨⟨⟨Memory.wf_set _ _ _ h1, h2⟩, h3⟩, h4⟩, h5⟩, h6⟩
  | lender e a =>
    simp only [State.writeByte, State.memWf, Bool.and_eq_true, List.all_eq_true]
    exact ⟨⟨⟨⟨⟨h1, h2⟩, h3⟩, Memory.wf_set _ _ _ h4⟩, h5⟩, h6⟩
  | host a =>
    simp only [State.writeByte, State.memWf, Bool.and_eq_true, List.all_eq_true]
    exact ⟨⟨⟨⟨⟨h1, h2⟩, h3⟩, h4⟩, Memory.wf_set _ _ _ h5⟩, h6⟩

/-- A write of bytes to storage keeps the form of every memory. -/
theorem State.memWf_writeRaw (s : State) (l : Loc) (bs : List Byte) (h : s.memWf = true) : (s.writeRaw l bs).memWf = true := by
  induction bs generalizing s l with
  | nil => exact h
  | cons b r ih => exact ih _ _ (State.memWf_writeByte s l b h)

end Sys2Proof.Machine
end

