-- ==== Sys2Proof/Laws/State.lean ====
section
/-! SUPPORT. Laws of the state: what the operations that replace a block, a gang or an entry leave alone, field by field, and what
they change. -/

namespace Sys2Proof.Machine

/-! ### Replacing a block -/

@[simp] theorem State.setBlock_agenda (s : State) (x : Block) : (s.setBlock x).agenda = s.agenda := rfl
@[simp] theorem State.setBlock_focus (s : State) (x : Block) : (s.setBlock x).focus = s.focus := rfl
@[simp] theorem State.setBlock_input (s : State) (x : Block) : (s.setBlock x).input = s.input := rfl
@[simp] theorem State.setBlock_fresh (s : State) (x : Block) : (s.setBlock x).fresh = s.fresh := rfl
@[simp] theorem State.setBlock_nextId (s : State) (x : Block) : (s.setBlock x).nextId = s.nextId := rfl
@[simp] theorem State.setBlock_progress (s : State) (x : Block) : (s.setBlock x).progress = s.progress := rfl
@[simp] theorem State.setBlock_issues (s : State) (x : Block) : (s.setBlock x).issues = s.issues := rfl
@[simp] theorem State.setBlock_issuedIn (s : State) (x : Block) : (s.setBlock x).issuedIn = s.issuedIn := rfl
@[simp] theorem State.setBlock_entries (s : State) (x : Block) : (s.setBlock x).entries = s.entries := rfl
@[simp] theorem State.setBlock_trapQ (s : State) (x : Block) : (s.setBlock x).trapQ = s.trapQ := rfl
@[simp] theorem State.setBlock_discards (s : State) (x : Block) : (s.setBlock x).discards = s.discards := rfl
@[simp] theorem State.setBlock_aborts (s : State) (x : Block) : (s.setBlock x).aborts = s.aborts := rfl
@[simp] theorem State.setBlock_overruns (s : State) (x : Block) : (s.setBlock x).overruns = s.overruns := rfl
@[simp] theorem State.setBlock_ops (s : State) (x : Block) : (s.setBlock x).ops = s.ops := rfl
@[simp] theorem State.setBlock_subs (s : State) (x : Block) : (s.setBlock x).subs = s.subs := rfl
@[simp] theorem State.setBlock_recs (s : State) (x : Block) : (s.setBlock x).recs = s.recs := rfl
@[simp] theorem State.setBlock_moved (s : State) (x : Block) : (s.setBlock x).moved = s.moved := rfl
@[simp] theorem State.setBlock_lockWaits (s : State) (x : Block) : (s.setBlock x).lockWaits = s.lockWaits := rfl
@[simp] theorem State.setBlock_binds (s : State) (x : Block) : (s.setBlock x).binds = s.binds := rfl
@[simp] theorem State.setBlock_cbars (s : State) (x : Block) : (s.setBlock x).cbars = s.cbars := rfl
@[simp] theorem State.setBlock_tunCache (s : State) (x : Block) : (s.setBlock x).tunCache = s.tunCache := rfl
@[simp] theorem State.setBlock_quarantined (s : State) (x : Block) : (s.setBlock x).quarantined = s.quarantined := rfl
@[simp] theorem State.setBlock_ctxbase (s : State) (x : Block) : (s.setBlock x).ctxbase = s.ctxbase := rfl
@[simp] theorem State.setBlock_apq (s : State) (x : Block) : (s.setBlock x).apq = s.apq := rfl
@[simp] theorem State.setBlock_hbm (s : State) (x : Block) : (s.setBlock x).hbm = s.hbm := rfl
@[simp] theorem State.setBlock_tun (s : State) (x : Block) : (s.setBlock x).tun = s.tun := rfl
@[simp] theorem State.setBlock_lender (s : State) (x : Block) : (s.setBlock x).lender = s.lender := rfl
@[simp] theorem State.setBlock_host (s : State) (x : Block) : (s.setBlock x).host = s.host := rfl
@[simp] theorem State.setBlock_spaces (s : State) (x : Block) : (s.setBlock x).spaces = s.spaces := rfl
@[simp] theorem State.setBlock_roots (s : State) (x : Block) : (s.setBlock x).roots = s.roots := rfl
@[simp] theorem State.setBlock_tlb (s : State) (x : Block) : (s.setBlock x).tlb = s.tlb := rfl
@[simp] theorem State.setBlock_nodeCache (s : State) (x : Block) : (s.setBlock x).nodeCache = s.nodeCache := rfl
@[simp] theorem State.setBlock_memsz (s : State) (x : Block) : (s.setBlock x).memsz = s.memsz := rfl
@[simp] theorem State.setBlock_prot (s : State) (x : Block) : (s.setBlock x).prot = s.prot := rfl
@[simp] theorem State.setBlock_faults (s : State) (x : Block) : (s.setBlock x).faults = s.faults := rfl
@[simp] theorem State.setBlock_lineKeys (s : State) (x : Block) : (s.setBlock x).lineKeys = s.lineKeys := rfl
@[simp] theorem State.setBlock_lineCtrs (s : State) (x : Block) : (s.setBlock x).lineCtrs = s.lineCtrs := rfl
@[simp] theorem State.setBlock_leases (s : State) (x : Block) : (s.setBlock x).leases = s.leases := rfl
@[simp] theorem State.setBlock_lends (s : State) (x : Block) : (s.setBlock x).lends = s.lends := rfl
@[simp] theorem State.setBlock_poison (s : State) (x : Block) : (s.setBlock x).poison = s.poison := rfl
@[simp] theorem State.setBlock_noticeQ (s : State) (x : Block) : (s.setBlock x).noticeQ = s.noticeQ := rfl
@[simp] theorem State.setBlock_fe (s : State) (x : Block) : (s.setBlock x).fe = s.fe := rfl
@[simp] theorem State.setBlock_trapRings (s : State) (x : Block) : (s.setBlock x).trapRings = s.trapRings := rfl
@[simp] theorem State.setBlock_bar2 (s : State) (x : Block) : (s.setBlock x).bar2 = s.bar2 := rfl
@[simp] theorem State.setBlock_keys (s : State) (x : Block) : (s.setBlock x).keys = s.keys := rfl
@[simp] theorem State.setBlock_measures (s : State) (x : Block) : (s.setBlock x).measures = s.measures := rfl
@[simp] theorem State.setBlock_devid (s : State) (x : Block) : (s.setBlock x).devid = s.devid := rfl
@[simp] theorem State.setBlock_downPorts (s : State) (x : Block) : (s.setBlock x).downPorts = s.downPorts := rfl
@[simp] theorem State.setBlock_ats (s : State) (x : Block) : (s.setBlock x).ats = s.ats := rfl
@[simp] theorem State.setBlock_hot (s : State) (x : Block) : (s.setBlock x).hot = s.hot := rfl
@[simp] theorem State.setBlock_fatal (s : State) (x : Block) : (s.setBlock x).fatal = s.fatal := rfl
@[simp] theorem State.setBlock_spares (s : State) (x : Block) : (s.setBlock x).spares = s.spares := rfl
@[simp] theorem State.setBlock_handover (s : State) (x : Block) : (s.setBlock x).handover = s.handover := rfl
@[simp] theorem State.setBlock_mbox (s : State) (x : Block) : (s.setBlock x).mbox = s.mbox := rfl
@[simp] theorem State.setBlock_bbox (s : State) (x : Block) : (s.setBlock x).bbox = s.bbox := rfl
@[simp] theorem State.setBlock_elog (s : State) (x : Block) : (s.setBlock x).elog = s.elog := rfl
@[simp] theorem State.setBlock_reply (s : State) (x : Block) : (s.setBlock x).reply = s.reply := rfl
@[simp] theorem State.setBlock_inherits (s : State) (x : Block) : (s.setBlock x).inherits = s.inherits := rfl
@[simp] theorem State.setBlock_identity (s : State) (x : Block) : (s.setBlock x).identity = s.identity := rfl
@[simp] theorem State.setBlock_booted (s : State) (x : Block) : (s.setBlock x).booted = s.booted := rfl
@[simp] theorem State.setBlock_ended (s : State) (x : Block) : (s.setBlock x).ended = s.ended := rfl
@[simp] theorem State.setBlock_swz (s : State) (x : Block) : (s.setBlock x).swz = s.swz := rfl
@[simp] theorem State.setBlock_repair (s : State) (x : Block) : (s.setBlock x).repair = s.repair := rfl
@[simp] theorem State.setBlock_sent (s : State) (x : Block) : (s.setBlock x).sent = s.sent := rfl
@[simp] theorem State.setBlock_cyc (s : State) (x : Block) : (s.setBlock x).cyc = s.cyc := rfl
@[simp] theorem State.setBlock_fcyc (s : State) (x : Block) : (s.setBlock x).fcyc = s.fcyc := rfl

theorem State.block?_setBlock_self {s : State} {x x0 : Block} (h : s.block? x.id = some x0) : (s.setBlock x).block? x.id = some x := by
  unfold State.block? State.setBlock at *
  generalize s.blocks = l at h ⊢
  induction l with
  | nil => simp at h
  | cons y r ih =>
    by_cases hy : y.id = x.id
    · simp [hy]
    · simp only [List.find?_cons, hy, decide_false, List.map_cons, if_false] at h ⊢
      exact ih h

theorem State.block?_setBlock_ne {s : State} {x : Block} {b : Nat} (h : b ≠ x.id) : (s.setBlock x).block? b = s.block? b := by
  unfold State.block? State.setBlock
  generalize s.blocks = l
  induction l with
  | nil => rfl
  | cons y r ih =>
    by_cases hy : y.id = x.id
    · have h1 : ¬x.id = b := fun e => h e.symm
      have h2 : ¬y.id = b := fun e => h (e ▸ hy)
      simp only [List.map_cons, hy, if_true, List.find?_cons, h1, decide_false]
      exact ih
    · simp only [List.map_cons, hy, if_false, List.find?_cons]
      split
      · rfl
      · exact ih

/-! ### Replacing a gang -/

@[simp] theorem State.setGang_agenda (s : State) (b g : Nat) (y : Gang) : (s.setGang b g y).agenda = s.agenda := by
  unfold State.setGang; split <;> rfl
@[simp] theorem State.setGang_focus (s : State) (b g : Nat) (y : Gang) : (s.setGang b g y).focus = s.focus := by
  unfold State.setGang; split <;> rfl
@[simp] theorem State.setGang_input (s : State) (b g : Nat) (y : Gang) : (s.setGang b g y).input = s.input := by
  unfold State.setGang; split <;> rfl
@[simp] theorem State.setGang_fresh (s : State) (b g : Nat) (y : Gang) : (s.setGang b g y).fresh = s.fresh := by
  unfold State.setGang; split <;> rfl
@[simp] theorem State.setGang_nextId (s : State) (b g : Nat) (y : Gang) : (s.setGang b g y).nextId = s.nextId := by
  unfold State.setGang; split <;> rfl
@[simp] theorem State.setGang_progress (s : State) (b g : Nat) (y : Gang) : (s.setGang b g y).progress = s.progress := by
  unfold State.setGang; split <;> rfl
@[simp] theorem State.setGang_issues (s : State) (b g : Nat) (y : Gang) : (s.setGang b g y).issues = s.issues := by
  unfold State.setGang; split <;> rfl
@[simp] theorem State.setGang_issuedIn (s : State) (b g : Nat) (y : Gang) : (s.setGang b g y).issuedIn = s.issuedIn := by
  unfold State.setGang; split <;> rfl
@[simp] theorem State.setGang_entries (s : State) (b g : Nat) (y : Gang) : (s.setGang b g y).entries = s.entries := by
  unfold State.setGang; split <;> rfl
@[simp] theorem State.setGang_trapQ (s : State) (b g : Nat) (y : Gang) : (s.setGang b g y).trapQ = s.trapQ := by
  unfold State.setGang; split <;> rfl
@[simp] theorem State.setGang_discards (s : State) (b g : Nat) (y : Gang) : (s.setGang b g y).discards = s.discards := by
  unfold State.setGang; split <;> rfl
@[simp] theorem State.setGang_aborts (s : State) (b g : Nat) (y : Gang) : (s.setGang b g y).aborts = s.aborts := by
  unfold State.setGang; split <;> rfl
@[simp] theorem State.setGang_overruns (s : State) (b g : Nat) (y : Gang) : (s.setGang b g y).overruns = s.overruns := by
  unfold State.setGang; split <;> rfl
@[simp] theorem State.setGang_ops (s : State) (b g : Nat) (y : Gang) : (s.setGang b g y).ops = s.ops := by
  unfold State.setGang; split <;> rfl
@[simp] theorem State.setGang_subs (s : State) (b g : Nat) (y : Gang) : (s.setGang b g y).subs = s.subs := by
  unfold State.setGang; split <;> rfl
@[simp] theorem State.setGang_recs (s : State) (b g : Nat) (y : Gang) : (s.setGang b g y).recs = s.recs := by
  unfold State.setGang; split <;> rfl
@[simp] theorem State.setGang_moved (s : State) (b g : Nat) (y : Gang) : (s.setGang b g y).moved = s.moved := by
  unfold State.setGang; split <;> rfl
@[simp] theorem State.setGang_lockWaits (s : State) (b g : Nat) (y : Gang) : (s.setGang b g y).lockWaits = s.lockWaits := by
  unfold State.setGang; split <;> rfl
@[simp] theorem State.setGang_binds (s : State) (b g : Nat) (y : Gang) : (s.setGang b g y).binds = s.binds := by
  unfold State.setGang; split <;> rfl
@[simp] theorem State.setGang_cbars (s : State) (b g : Nat) (y : Gang) : (s.setGang b g y).cbars = s.cbars := by
  unfold State.setGang; split <;> rfl
@[simp] theorem State.setGang_tunCache (s : State) (b g : Nat) (y : Gang) : (s.setGang b g y).tunCache = s.tunCache := by
  unfold State.setGang; split <;> rfl
@[simp] theorem State.setGang_quarantined (s : State) (b g : Nat) (y : Gang) : (s.setGang b g y).quarantined = s.quarantined := by
  unfold State.setGang; split <;> rfl
@[simp] theorem State.setGang_ctxbase (s : State) (b g : Nat) (y : Gang) : (s.setGang b g y).ctxbase = s.ctxbase := by
  unfold State.setGang; split <;> rfl
@[simp] theorem State.setGang_apq (s : State) (b g : Nat) (y : Gang) : (s.setGang b g y).apq = s.apq := by
  unfold State.setGang; split <;> rfl
@[simp] theorem State.setGang_hbm (s : State) (b g : Nat) (y : Gang) : (s.setGang b g y).hbm = s.hbm := by
  unfold State.setGang; split <;> rfl
@[simp] theorem State.setGang_tun (s : State) (b g : Nat) (y : Gang) : (s.setGang b g y).tun = s.tun := by
  unfold State.setGang; split <;> rfl
@[simp] theorem State.setGang_lender (s : State) (b g : Nat) (y : Gang) : (s.setGang b g y).lender = s.lender := by
  unfold State.setGang; split <;> rfl
@[simp] theorem State.setGang_host (s : State) (b g : Nat) (y : Gang) : (s.setGang b g y).host = s.host := by
  unfold State.setGang; split <;> rfl
@[simp] theorem State.setGang_spaces (s : State) (b g : Nat) (y : Gang) : (s.setGang b g y).spaces = s.spaces := by
  unfold State.setGang; split <;> rfl
@[simp] theorem State.setGang_roots (s : State) (b g : Nat) (y : Gang) : (s.setGang b g y).roots = s.roots := by
  unfold State.setGang; split <;> rfl
@[simp] theorem State.setGang_tlb (s : State) (b g : Nat) (y : Gang) : (s.setGang b g y).tlb = s.tlb := by
  unfold State.setGang; split <;> rfl
@[simp] theorem State.setGang_nodeCache (s : State) (b g : Nat) (y : Gang) : (s.setGang b g y).nodeCache = s.nodeCache := by
  unfold State.setGang; split <;> rfl
@[simp] theorem State.setGang_memsz (s : State) (b g : Nat) (y : Gang) : (s.setGang b g y).memsz = s.memsz := by
  unfold State.setGang; split <;> rfl
@[simp] theorem State.setGang_prot (s : State) (b g : Nat) (y : Gang) : (s.setGang b g y).prot = s.prot := by
  unfold State.setGang; split <;> rfl
@[simp] theorem State.setGang_faults (s : State) (b g : Nat) (y : Gang) : (s.setGang b g y).faults = s.faults := by
  unfold State.setGang; split <;> rfl
@[simp] theorem State.setGang_lineKeys (s : State) (b g : Nat) (y : Gang) : (s.setGang b g y).lineKeys = s.lineKeys := by
  unfold State.setGang; split <;> rfl
@[simp] theorem State.setGang_lineCtrs (s : State) (b g : Nat) (y : Gang) : (s.setGang b g y).lineCtrs = s.lineCtrs := by
  unfold State.setGang; split <;> rfl
@[simp] theorem State.setGang_leases (s : State) (b g : Nat) (y : Gang) : (s.setGang b g y).leases = s.leases := by
  unfold State.setGang; split <;> rfl
@[simp] theorem State.setGang_lends (s : State) (b g : Nat) (y : Gang) : (s.setGang b g y).lends = s.lends := by
  unfold State.setGang; split <;> rfl
@[simp] theorem State.setGang_poison (s : State) (b g : Nat) (y : Gang) : (s.setGang b g y).poison = s.poison := by
  unfold State.setGang; split <;> rfl
@[simp] theorem State.setGang_noticeQ (s : State) (b g : Nat) (y : Gang) : (s.setGang b g y).noticeQ = s.noticeQ := by
  unfold State.setGang; split <;> rfl
@[simp] theorem State.setGang_fe (s : State) (b g : Nat) (y : Gang) : (s.setGang b g y).fe = s.fe := by
  unfold State.setGang; split <;> rfl
@[simp] theorem State.setGang_trapRings (s : State) (b g : Nat) (y : Gang) : (s.setGang b g y).trapRings = s.trapRings := by
  unfold State.setGang; split <;> rfl
@[simp] theorem State.setGang_bar2 (s : State) (b g : Nat) (y : Gang) : (s.setGang b g y).bar2 = s.bar2 := by
  unfold State.setGang; split <;> rfl
@[simp] theorem State.setGang_keys (s : State) (b g : Nat) (y : Gang) : (s.setGang b g y).keys = s.keys := by
  unfold State.setGang; split <;> rfl
@[simp] theorem State.setGang_measures (s : State) (b g : Nat) (y : Gang) : (s.setGang b g y).measures = s.measures := by
  unfold State.setGang; split <;> rfl
@[simp] theorem State.setGang_devid (s : State) (b g : Nat) (y : Gang) : (s.setGang b g y).devid = s.devid := by
  unfold State.setGang; split <;> rfl
@[simp] theorem State.setGang_downPorts (s : State) (b g : Nat) (y : Gang) : (s.setGang b g y).downPorts = s.downPorts := by
  unfold State.setGang; split <;> rfl
@[simp] theorem State.setGang_ats (s : State) (b g : Nat) (y : Gang) : (s.setGang b g y).ats = s.ats := by
  unfold State.setGang; split <;> rfl
@[simp] theorem State.setGang_hot (s : State) (b g : Nat) (y : Gang) : (s.setGang b g y).hot = s.hot := by
  unfold State.setGang; split <;> rfl
@[simp] theorem State.setGang_fatal (s : State) (b g : Nat) (y : Gang) : (s.setGang b g y).fatal = s.fatal := by
  unfold State.setGang; split <;> rfl
@[simp] theorem State.setGang_spares (s : State) (b g : Nat) (y : Gang) : (s.setGang b g y).spares = s.spares := by
  unfold State.setGang; split <;> rfl
@[simp] theorem State.setGang_handover (s : State) (b g : Nat) (y : Gang) : (s.setGang b g y).handover = s.handover := by
  unfold State.setGang; split <;> rfl
@[simp] theorem State.setGang_mbox (s : State) (b g : Nat) (y : Gang) : (s.setGang b g y).mbox = s.mbox := by
  unfold State.setGang; split <;> rfl
@[simp] theorem State.setGang_bbox (s : State) (b g : Nat) (y : Gang) : (s.setGang b g y).bbox = s.bbox := by
  unfold State.setGang; split <;> rfl
@[simp] theorem State.setGang_elog (s : State) (b g : Nat) (y : Gang) : (s.setGang b g y).elog = s.elog := by
  unfold State.setGang; split <;> rfl
@[simp] theorem State.setGang_reply (s : State) (b g : Nat) (y : Gang) : (s.setGang b g y).reply = s.reply := by
  unfold State.setGang; split <;> rfl
@[simp] theorem State.setGang_inherits (s : State) (b g : Nat) (y : Gang) : (s.setGang b g y).inherits = s.inherits := by
  unfold State.setGang; split <;> rfl
@[simp] theorem State.setGang_identity (s : State) (b g : Nat) (y : Gang) : (s.setGang b g y).identity = s.identity := by
  unfold State.setGang; split <;> rfl
@[simp] theorem State.setGang_booted (s : State) (b g : Nat) (y : Gang) : (s.setGang b g y).booted = s.booted := by
  unfold State.setGang; split <;> rfl
@[simp] theorem State.setGang_ended (s : State) (b g : Nat) (y : Gang) : (s.setGang b g y).ended = s.ended := by
  unfold State.setGang; split <;> rfl
@[simp] theorem State.setGang_swz (s : State) (b g : Nat) (y : Gang) : (s.setGang b g y).swz = s.swz := by
  unfold State.setGang; split <;> rfl
@[simp] theorem State.setGang_repair (s : State) (b g : Nat) (y : Gang) : (s.setGang b g y).repair = s.repair := by
  unfold State.setGang; split <;> rfl
@[simp] theorem State.setGang_sent (s : State) (b g : Nat) (y : Gang) : (s.setGang b g y).sent = s.sent := by
  unfold State.setGang; split <;> rfl
@[simp] theorem State.setGang_cyc (s : State) (b g : Nat) (y : Gang) : (s.setGang b g y).cyc = s.cyc := by
  unfold State.setGang; split <;> rfl
@[simp] theorem State.setGang_fcyc (s : State) (b g : Nat) (y : Gang) : (s.setGang b g y).fcyc = s.fcyc := by
  unfold State.setGang; split <;> rfl

@[simp] theorem State.modGang_agenda (s : State) (b g : Nat) (h : Gang → Gang) : (s.modGang b g h).agenda = s.agenda := by
  unfold State.modGang; split <;> simp
@[simp] theorem State.modGang_focus (s : State) (b g : Nat) (h : Gang → Gang) : (s.modGang b g h).focus = s.focus := by
  unfold State.modGang; split <;> simp
@[simp] theorem State.modGang_input (s : State) (b g : Nat) (h : Gang → Gang) : (s.modGang b g h).input = s.input := by
  unfold State.modGang; split <;> simp
@[simp] theorem State.modGang_fresh (s : State) (b g : Nat) (h : Gang → Gang) : (s.modGang b g h).fresh = s.fresh := by
  unfold State.modGang; split <;> simp
@[simp] theorem State.modGang_nextId (s : State) (b g : Nat) (h : Gang → Gang) : (s.modGang b g h).nextId = s.nextId := by
  unfold State.modGang; split <;> simp
@[simp] theorem State.modGang_progress (s : State) (b g : Nat) (h : Gang → Gang) : (s.modGang b g h).progress = s.progress := by
  unfold State.modGang; split <;> simp
@[simp] theorem State.modGang_issues (s : State) (b g : Nat) (h : Gang → Gang) : (s.modGang b g h).issues = s.issues := by
  unfold State.modGang; split <;> simp
@[simp] theorem State.modGang_issuedIn (s : State) (b g : Nat) (h : Gang → Gang) : (s.modGang b g h).issuedIn = s.issuedIn := by
  unfold State.modGang; split <;> simp
@[simp] theorem State.modGang_entries (s : State) (b g : Nat) (h : Gang → Gang) : (s.modGang b g h).entries = s.entries := by
  unfold State.modGang; split <;> simp
@[simp] theorem State.modGang_trapQ (s : State) (b g : Nat) (h : Gang → Gang) : (s.modGang b g h).trapQ = s.trapQ := by
  unfold State.modGang; split <;> simp
@[simp] theorem State.modGang_discards (s : State) (b g : Nat) (h : Gang → Gang) : (s.modGang b g h).discards = s.discards := by
  unfold State.modGang; split <;> simp
@[simp] theorem State.modGang_aborts (s : State) (b g : Nat) (h : Gang → Gang) : (s.modGang b g h).aborts = s.aborts := by
  unfold State.modGang; split <;> simp
@[simp] theorem State.modGang_overruns (s : State) (b g : Nat) (h : Gang → Gang) : (s.modGang b g h).overruns = s.overruns := by
  unfold State.modGang; split <;> simp
@[simp] theorem State.modGang_ops (s : State) (b g : Nat) (h : Gang → Gang) : (s.modGang b g h).ops = s.ops := by
  unfold State.modGang; split <;> simp
@[simp] theorem State.modGang_subs (s : State) (b g : Nat) (h : Gang → Gang) : (s.modGang b g h).subs = s.subs := by
  unfold State.modGang; split <;> simp
@[simp] theorem State.modGang_recs (s : State) (b g : Nat) (h : Gang → Gang) : (s.modGang b g h).recs = s.recs := by
  unfold State.modGang; split <;> simp
@[simp] theorem State.modGang_moved (s : State) (b g : Nat) (h : Gang → Gang) : (s.modGang b g h).moved = s.moved := by
  unfold State.modGang; split <;> simp
@[simp] theorem State.modGang_lockWaits (s : State) (b g : Nat) (h : Gang → Gang) : (s.modGang b g h).lockWaits = s.lockWaits := by
  unfold State.modGang; split <;> simp
@[simp] theorem State.modGang_binds (s : State) (b g : Nat) (h : Gang → Gang) : (s.modGang b g h).binds = s.binds := by
  unfold State.modGang; split <;> simp
@[simp] theorem State.modGang_cbars (s : State) (b g : Nat) (h : Gang → Gang) : (s.modGang b g h).cbars = s.cbars := by
  unfold State.modGang; split <;> simp
@[simp] theorem State.modGang_tunCache (s : State) (b g : Nat) (h : Gang → Gang) : (s.modGang b g h).tunCache = s.tunCache := by
  unfold State.modGang; split <;> simp
@[simp] theorem State.modGang_quarantined (s : State) (b g : Nat) (h : Gang → Gang) : (s.modGang b g h).quarantined = s.quarantined := by
  unfold State.modGang; split <;> simp
@[simp] theorem State.modGang_ctxbase (s : State) (b g : Nat) (h : Gang → Gang) : (s.modGang b g h).ctxbase = s.ctxbase := by
  unfold State.modGang; split <;> simp
@[simp] theorem State.modGang_apq (s : State) (b g : Nat) (h : Gang → Gang) : (s.modGang b g h).apq = s.apq := by
  unfold State.modGang; split <;> simp
@[simp] theorem State.modGang_hbm (s : State) (b g : Nat) (h : Gang → Gang) : (s.modGang b g h).hbm = s.hbm := by
  unfold State.modGang; split <;> simp
@[simp] theorem State.modGang_tun (s : State) (b g : Nat) (h : Gang → Gang) : (s.modGang b g h).tun = s.tun := by
  unfold State.modGang; split <;> simp
@[simp] theorem State.modGang_lender (s : State) (b g : Nat) (h : Gang → Gang) : (s.modGang b g h).lender = s.lender := by
  unfold State.modGang; split <;> simp
@[simp] theorem State.modGang_host (s : State) (b g : Nat) (h : Gang → Gang) : (s.modGang b g h).host = s.host := by
  unfold State.modGang; split <;> simp
@[simp] theorem State.modGang_spaces (s : State) (b g : Nat) (h : Gang → Gang) : (s.modGang b g h).spaces = s.spaces := by
  unfold State.modGang; split <;> simp
@[simp] theorem State.modGang_roots (s : State) (b g : Nat) (h : Gang → Gang) : (s.modGang b g h).roots = s.roots := by
  unfold State.modGang; split <;> simp
@[simp] theorem State.modGang_tlb (s : State) (b g : Nat) (h : Gang → Gang) : (s.modGang b g h).tlb = s.tlb := by
  unfold State.modGang; split <;> simp
@[simp] theorem State.modGang_nodeCache (s : State) (b g : Nat) (h : Gang → Gang) : (s.modGang b g h).nodeCache = s.nodeCache := by
  unfold State.modGang; split <;> simp
@[simp] theorem State.modGang_memsz (s : State) (b g : Nat) (h : Gang → Gang) : (s.modGang b g h).memsz = s.memsz := by
  unfold State.modGang; split <;> simp
@[simp] theorem State.modGang_prot (s : State) (b g : Nat) (h : Gang → Gang) : (s.modGang b g h).prot = s.prot := by
  unfold State.modGang; split <;> simp
@[simp] theorem State.modGang_faults (s : State) (b g : Nat) (h : Gang → Gang) : (s.modGang b g h).faults = s.faults := by
  unfold State.modGang; split <;> simp
@[simp] theorem State.modGang_lineKeys (s : State) (b g : Nat) (h : Gang → Gang) : (s.modGang b g h).lineKeys = s.lineKeys := by
  unfold State.modGang; split <;> simp
@[simp] theorem State.modGang_lineCtrs (s : State) (b g : Nat) (h : Gang → Gang) : (s.modGang b g h).lineCtrs = s.lineCtrs := by
  unfold State.modGang; split <;> simp
@[simp] theorem State.modGang_leases (s : State) (b g : Nat) (h : Gang → Gang) : (s.modGang b g h).leases = s.leases := by
  unfold State.modGang; split <;> simp
@[simp] theorem State.modGang_lends (s : State) (b g : Nat) (h : Gang → Gang) : (s.modGang b g h).lends = s.lends := by
  unfold State.modGang; split <;> simp
@[simp] theorem State.modGang_poison (s : State) (b g : Nat) (h : Gang → Gang) : (s.modGang b g h).poison = s.poison := by
  unfold State.modGang; split <;> simp
@[simp] theorem State.modGang_noticeQ (s : State) (b g : Nat) (h : Gang → Gang) : (s.modGang b g h).noticeQ = s.noticeQ := by
  unfold State.modGang; split <;> simp
@[simp] theorem State.modGang_fe (s : State) (b g : Nat) (h : Gang → Gang) : (s.modGang b g h).fe = s.fe := by
  unfold State.modGang; split <;> simp
@[simp] theorem State.modGang_trapRings (s : State) (b g : Nat) (h : Gang → Gang) : (s.modGang b g h).trapRings = s.trapRings := by
  unfold State.modGang; split <;> simp
@[simp] theorem State.modGang_bar2 (s : State) (b g : Nat) (h : Gang → Gang) : (s.modGang b g h).bar2 = s.bar2 := by
  unfold State.modGang; split <;> simp
@[simp] theorem State.modGang_keys (s : State) (b g : Nat) (h : Gang → Gang) : (s.modGang b g h).keys = s.keys := by
  unfold State.modGang; split <;> simp
@[simp] theorem State.modGang_measures (s : State) (b g : Nat) (h : Gang → Gang) : (s.modGang b g h).measures = s.measures := by
  unfold State.modGang; split <;> simp
@[simp] theorem State.modGang_devid (s : State) (b g : Nat) (h : Gang → Gang) : (s.modGang b g h).devid = s.devid := by
  unfold State.modGang; split <;> simp
@[simp] theorem State.modGang_downPorts (s : State) (b g : Nat) (h : Gang → Gang) : (s.modGang b g h).downPorts = s.downPorts := by
  unfold State.modGang; split <;> simp
@[simp] theorem State.modGang_ats (s : State) (b g : Nat) (h : Gang → Gang) : (s.modGang b g h).ats = s.ats := by
  unfold State.modGang; split <;> simp
@[simp] theorem State.modGang_hot (s : State) (b g : Nat) (h : Gang → Gang) : (s.modGang b g h).hot = s.hot := by
  unfold State.modGang; split <;> simp
@[simp] theorem State.modGang_fatal (s : State) (b g : Nat) (h : Gang → Gang) : (s.modGang b g h).fatal = s.fatal := by
  unfold State.modGang; split <;> simp
@[simp] theorem State.modGang_spares (s : State) (b g : Nat) (h : Gang → Gang) : (s.modGang b g h).spares = s.spares := by
  unfold State.modGang; split <;> simp
@[simp] theorem State.modGang_handover (s : State) (b g : Nat) (h : Gang → Gang) : (s.modGang b g h).handover = s.handover := by
  unfold State.modGang; split <;> simp
@[simp] theorem State.modGang_mbox (s : State) (b g : Nat) (h : Gang → Gang) : (s.modGang b g h).mbox = s.mbox := by
  unfold State.modGang; split <;> simp
@[simp] theorem State.modGang_bbox (s : State) (b g : Nat) (h : Gang → Gang) : (s.modGang b g h).bbox = s.bbox := by
  unfold State.modGang; split <;> simp
@[simp] theorem State.modGang_elog (s : State) (b g : Nat) (h : Gang → Gang) : (s.modGang b g h).elog = s.elog := by
  unfold State.modGang; split <;> simp
@[simp] theorem State.modGang_reply (s : State) (b g : Nat) (h : Gang → Gang) : (s.modGang b g h).reply = s.reply := by
  unfold State.modGang; split <;> simp
@[simp] theorem State.modGang_inherits (s : State) (b g : Nat) (h : Gang → Gang) : (s.modGang b g h).inherits = s.inherits := by
  unfold State.modGang; split <;> simp
@[simp] theorem State.modGang_identity (s : State) (b g : Nat) (h : Gang → Gang) : (s.modGang b g h).identity = s.identity := by
  unfold State.modGang; split <;> simp
@[simp] theorem State.modGang_booted (s : State) (b g : Nat) (h : Gang → Gang) : (s.modGang b g h).booted = s.booted := by
  unfold State.modGang; split <;> simp
@[simp] theorem State.modGang_ended (s : State) (b g : Nat) (h : Gang → Gang) : (s.modGang b g h).ended = s.ended := by
  unfold State.modGang; split <;> simp
@[simp] theorem State.modGang_swz (s : State) (b g : Nat) (h : Gang → Gang) : (s.modGang b g h).swz = s.swz := by
  unfold State.modGang; split <;> simp
@[simp] theorem State.modGang_repair (s : State) (b g : Nat) (h : Gang → Gang) : (s.modGang b g h).repair = s.repair := by
  unfold State.modGang; split <;> simp
@[simp] theorem State.modGang_sent (s : State) (b g : Nat) (h : Gang → Gang) : (s.modGang b g h).sent = s.sent := by
  unfold State.modGang; split <;> simp
@[simp] theorem State.modGang_cyc (s : State) (b g : Nat) (h : Gang → Gang) : (s.modGang b g h).cyc = s.cyc := by
  unfold State.modGang; split <;> simp
@[simp] theorem State.modGang_fcyc (s : State) (b g : Nat) (h : Gang → Gang) : (s.modGang b g h).fcyc = s.fcyc := by
  unfold State.modGang; split <;> simp

/-! ### Changing a block -/

@[simp] theorem State.modBlock_agenda (s : State) (b : Nat) (h : Block → Block) : (s.modBlock b h).agenda = s.agenda := by
  unfold State.modBlock; split <;> rfl
@[simp] theorem State.modBlock_focus (s : State) (b : Nat) (h : Block → Block) : (s.modBlock b h).focus = s.focus := by
  unfold State.modBlock; split <;> rfl
@[simp] theorem State.modBlock_input (s : State) (b : Nat) (h : Block → Block) : (s.modBlock b h).input = s.input := by
  unfold State.modBlock; split <;> rfl
@[simp] theorem State.modBlock_fresh (s : State) (b : Nat) (h : Block → Block) : (s.modBlock b h).fresh = s.fresh := by
  unfold State.modBlock; split <;> rfl
@[simp] theorem State.modBlock_nextId (s : State) (b : Nat) (h : Block → Block) : (s.modBlock b h).nextId = s.nextId := by
  unfold State.modBlock; split <;> rfl
@[simp] theorem State.modBlock_progress (s : State) (b : Nat) (h : Block → Block) : (s.modBlock b h).progress = s.progress := by
  unfold State.modBlock; split <;> rfl
@[simp] theorem State.modBlock_issues (s : State) (b : Nat) (h : Block → Block) : (s.modBlock b h).issues = s.issues := by
  unfold State.modBlock; split <;> rfl
@[simp] theorem State.modBlock_issuedIn (s : State) (b : Nat) (h : Block → Block) : (s.modBlock b h).issuedIn = s.issuedIn := by
  unfold State.modBlock; split <;> rfl
@[simp] theorem State.modBlock_entries (s : State) (b : Nat) (h : Block → Block) : (s.modBlock b h).entries = s.entries := by
  unfold State.modBlock; split <;> rfl
@[simp] theorem State.modBlock_trapQ (s : State) (b : Nat) (h : Block → Block) : (s.modBlock b h).trapQ = s.trapQ := by
  unfold State.modBlock; split <;> rfl
@[simp] theorem State.modBlock_discards (s : State) (b : Nat) (h : Block → Block) : (s.modBlock b h).discards = s.discards := by
  unfold State.modBlock; split <;> rfl
@[simp] theorem State.modBlock_aborts (s : State) (b : Nat) (h : Block → Block) : (s.modBlock b h).aborts = s.aborts := by
  unfold State.modBlock; split <;> rfl
@[simp] theorem State.modBlock_overruns (s : State) (b : Nat) (h : Block → Block) : (s.modBlock b h).overruns = s.overruns := by
  unfold State.modBlock; split <;> rfl
@[simp] theorem State.modBlock_ops (s : State) (b : Nat) (h : Block → Block) : (s.modBlock b h).ops = s.ops := by
  unfold State.modBlock; split <;> rfl
@[simp] theorem State.modBlock_subs (s : State) (b : Nat) (h : Block → Block) : (s.modBlock b h).subs = s.subs := by
  unfold State.modBlock; split <;> rfl
@[simp] theorem State.modBlock_recs (s : State) (b : Nat) (h : Block → Block) : (s.modBlock b h).recs = s.recs := by
  unfold State.modBlock; split <;> rfl
@[simp] theorem State.modBlock_moved (s : State) (b : Nat) (h : Block → Block) : (s.modBlock b h).moved = s.moved := by
  unfold State.modBlock; split <;> rfl
@[simp] theorem State.modBlock_lockWaits (s : State) (b : Nat) (h : Block → Block) : (s.modBlock b h).lockWaits = s.lockWaits := by
  unfold State.modBlock; split <;> rfl
@[simp] theorem State.modBlock_binds (s : State) (b : Nat) (h : Block → Block) : (s.modBlock b h).binds = s.binds := by
  unfold State.modBlock; split <;> rfl
@[simp] theorem State.modBlock_cbars (s : State) (b : Nat) (h : Block → Block) : (s.modBlock b h).cbars = s.cbars := by
  unfold State.modBlock; split <;> rfl
@[simp] theorem State.modBlock_tunCache (s : State) (b : Nat) (h : Block → Block) : (s.modBlock b h).tunCache = s.tunCache := by
  unfold State.modBlock; split <;> rfl
@[simp] theorem State.modBlock_quarantined (s : State) (b : Nat) (h : Block → Block) : (s.modBlock b h).quarantined = s.quarantined := by
  unfold State.modBlock; split <;> rfl
@[simp] theorem State.modBlock_ctxbase (s : State) (b : Nat) (h : Block → Block) : (s.modBlock b h).ctxbase = s.ctxbase := by
  unfold State.modBlock; split <;> rfl
@[simp] theorem State.modBlock_apq (s : State) (b : Nat) (h : Block → Block) : (s.modBlock b h).apq = s.apq := by
  unfold State.modBlock; split <;> rfl
@[simp] theorem State.modBlock_hbm (s : State) (b : Nat) (h : Block → Block) : (s.modBlock b h).hbm = s.hbm := by
  unfold State.modBlock; split <;> rfl
@[simp] theorem State.modBlock_tun (s : State) (b : Nat) (h : Block → Block) : (s.modBlock b h).tun = s.tun := by
  unfold State.modBlock; split <;> rfl
@[simp] theorem State.modBlock_lender (s : State) (b : Nat) (h : Block → Block) : (s.modBlock b h).lender = s.lender := by
  unfold State.modBlock; split <;> rfl
@[simp] theorem State.modBlock_host (s : State) (b : Nat) (h : Block → Block) : (s.modBlock b h).host = s.host := by
  unfold State.modBlock; split <;> rfl
@[simp] theorem State.modBlock_spaces (s : State) (b : Nat) (h : Block → Block) : (s.modBlock b h).spaces = s.spaces := by
  unfold State.modBlock; split <;> rfl
@[simp] theorem State.modBlock_roots (s : State) (b : Nat) (h : Block → Block) : (s.modBlock b h).roots = s.roots := by
  unfold State.modBlock; split <;> rfl
@[simp] theorem State.modBlock_tlb (s : State) (b : Nat) (h : Block → Block) : (s.modBlock b h).tlb = s.tlb := by
  unfold State.modBlock; split <;> rfl
@[simp] theorem State.modBlock_nodeCache (s : State) (b : Nat) (h : Block → Block) : (s.modBlock b h).nodeCache = s.nodeCache := by
  unfold State.modBlock; split <;> rfl
@[simp] theorem State.modBlock_memsz (s : State) (b : Nat) (h : Block → Block) : (s.modBlock b h).memsz = s.memsz := by
  unfold State.modBlock; split <;> rfl
@[simp] theorem State.modBlock_prot (s : State) (b : Nat) (h : Block → Block) : (s.modBlock b h).prot = s.prot := by
  unfold State.modBlock; split <;> rfl
@[simp] theorem State.modBlock_faults (s : State) (b : Nat) (h : Block → Block) : (s.modBlock b h).faults = s.faults := by
  unfold State.modBlock; split <;> rfl
@[simp] theorem State.modBlock_lineKeys (s : State) (b : Nat) (h : Block → Block) : (s.modBlock b h).lineKeys = s.lineKeys := by
  unfold State.modBlock; split <;> rfl
@[simp] theorem State.modBlock_lineCtrs (s : State) (b : Nat) (h : Block → Block) : (s.modBlock b h).lineCtrs = s.lineCtrs := by
  unfold State.modBlock; split <;> rfl
@[simp] theorem State.modBlock_leases (s : State) (b : Nat) (h : Block → Block) : (s.modBlock b h).leases = s.leases := by
  unfold State.modBlock; split <;> rfl
@[simp] theorem State.modBlock_lends (s : State) (b : Nat) (h : Block → Block) : (s.modBlock b h).lends = s.lends := by
  unfold State.modBlock; split <;> rfl
@[simp] theorem State.modBlock_poison (s : State) (b : Nat) (h : Block → Block) : (s.modBlock b h).poison = s.poison := by
  unfold State.modBlock; split <;> rfl
@[simp] theorem State.modBlock_noticeQ (s : State) (b : Nat) (h : Block → Block) : (s.modBlock b h).noticeQ = s.noticeQ := by
  unfold State.modBlock; split <;> rfl
@[simp] theorem State.modBlock_fe (s : State) (b : Nat) (h : Block → Block) : (s.modBlock b h).fe = s.fe := by
  unfold State.modBlock; split <;> rfl
@[simp] theorem State.modBlock_trapRings (s : State) (b : Nat) (h : Block → Block) : (s.modBlock b h).trapRings = s.trapRings := by
  unfold State.modBlock; split <;> rfl
@[simp] theorem State.modBlock_bar2 (s : State) (b : Nat) (h : Block → Block) : (s.modBlock b h).bar2 = s.bar2 := by
  unfold State.modBlock; split <;> rfl
@[simp] theorem State.modBlock_keys (s : State) (b : Nat) (h : Block → Block) : (s.modBlock b h).keys = s.keys := by
  unfold State.modBlock; split <;> rfl
@[simp] theorem State.modBlock_measures (s : State) (b : Nat) (h : Block → Block) : (s.modBlock b h).measures = s.measures := by
  unfold State.modBlock; split <;> rfl
@[simp] theorem State.modBlock_devid (s : State) (b : Nat) (h : Block → Block) : (s.modBlock b h).devid = s.devid := by
  unfold State.modBlock; split <;> rfl
@[simp] theorem State.modBlock_downPorts (s : State) (b : Nat) (h : Block → Block) : (s.modBlock b h).downPorts = s.downPorts := by
  unfold State.modBlock; split <;> rfl
@[simp] theorem State.modBlock_ats (s : State) (b : Nat) (h : Block → Block) : (s.modBlock b h).ats = s.ats := by
  unfold State.modBlock; split <;> rfl
@[simp] theorem State.modBlock_hot (s : State) (b : Nat) (h : Block → Block) : (s.modBlock b h).hot = s.hot := by
  unfold State.modBlock; split <;> rfl
@[simp] theorem State.modBlock_fatal (s : State) (b : Nat) (h : Block → Block) : (s.modBlock b h).fatal = s.fatal := by
  unfold State.modBlock; split <;> rfl
@[simp] theorem State.modBlock_spares (s : State) (b : Nat) (h : Block → Block) : (s.modBlock b h).spares = s.spares := by
  unfold State.modBlock; split <;> rfl
@[simp] theorem State.modBlock_handover (s : State) (b : Nat) (h : Block → Block) : (s.modBlock b h).handover = s.handover := by
  unfold State.modBlock; split <;> rfl
@[simp] theorem State.modBlock_mbox (s : State) (b : Nat) (h : Block → Block) : (s.modBlock b h).mbox = s.mbox := by
  unfold State.modBlock; split <;> rfl
@[simp] theorem State.modBlock_bbox (s : State) (b : Nat) (h : Block → Block) : (s.modBlock b h).bbox = s.bbox := by
  unfold State.modBlock; split <;> rfl
@[simp] theorem State.modBlock_elog (s : State) (b : Nat) (h : Block → Block) : (s.modBlock b h).elog = s.elog := by
  unfold State.modBlock; split <;> rfl
@[simp] theorem State.modBlock_reply (s : State) (b : Nat) (h : Block → Block) : (s.modBlock b h).reply = s.reply := by
  unfold State.modBlock; split <;> rfl
@[simp] theorem State.modBlock_inherits (s : State) (b : Nat) (h : Block → Block) : (s.modBlock b h).inherits = s.inherits := by
  unfold State.modBlock; split <;> rfl
@[simp] theorem State.modBlock_identity (s : State) (b : Nat) (h : Block → Block) : (s.modBlock b h).identity = s.identity := by
  unfold State.modBlock; split <;> rfl
@[simp] theorem State.modBlock_booted (s : State) (b : Nat) (h : Block → Block) : (s.modBlock b h).booted = s.booted := by
  unfold State.modBlock; split <;> rfl
@[simp] theorem State.modBlock_ended (s : State) (b : Nat) (h : Block → Block) : (s.modBlock b h).ended = s.ended := by
  unfold State.modBlock; split <;> rfl
@[simp] theorem State.modBlock_swz (s : State) (b : Nat) (h : Block → Block) : (s.modBlock b h).swz = s.swz := by
  unfold State.modBlock; split <;> rfl
@[simp] theorem State.modBlock_repair (s : State) (b : Nat) (h : Block → Block) : (s.modBlock b h).repair = s.repair := by
  unfold State.modBlock; split <;> rfl
@[simp] theorem State.modBlock_sent (s : State) (b : Nat) (h : Block → Block) : (s.modBlock b h).sent = s.sent := by
  unfold State.modBlock; split <;> rfl
@[simp] theorem State.modBlock_cyc (s : State) (b : Nat) (h : Block → Block) : (s.modBlock b h).cyc = s.cyc := by
  unfold State.modBlock; split <;> rfl
@[simp] theorem State.modBlock_fcyc (s : State) (b : Nat) (h : Block → Block) : (s.modBlock b h).fcyc = s.fcyc := by
  unfold State.modBlock; split <;> rfl

/-! ### Entries -/

@[simp] theorem State.setEntry_agenda (s : State) (e : Entry) : (s.setEntry e).agenda = s.agenda := rfl
@[simp] theorem State.setEntry_focus (s : State) (e : Entry) : (s.setEntry e).focus = s.focus := rfl
@[simp] theorem State.setEntry_input (s : State) (e : Entry) : (s.setEntry e).input = s.input := rfl
@[simp] theorem State.setEntry_fresh (s : State) (e : Entry) : (s.setEntry e).fresh = s.fresh := rfl
@[simp] theorem State.setEntry_nextId (s : State) (e : Entry) : (s.setEntry e).nextId = s.nextId := rfl
@[simp] theorem State.setEntry_progress (s : State) (e : Entry) : (s.setEntry e).progress = s.progress := rfl
@[simp] theorem State.setEntry_issues (s : State) (e : Entry) : (s.setEntry e).issues = s.issues := rfl
@[simp] theorem State.setEntry_issuedIn (s : State) (e : Entry) : (s.setEntry e).issuedIn = s.issuedIn := rfl
@[simp] theorem State.setEntry_trapQ (s : State) (e : Entry) : (s.setEntry e).trapQ = s.trapQ := rfl
@[simp] theorem State.setEntry_discards (s : State) (e : Entry) : (s.setEntry e).discards = s.discards := rfl
@[simp] theorem State.setEntry_aborts (s : State) (e : Entry) : (s.setEntry e).aborts = s.aborts := rfl
@[simp] theorem State.setEntry_overruns (s : State) (e : Entry) : (s.setEntry e).overruns = s.overruns := rfl
@[simp] theorem State.setEntry_blocks (s : State) (e : Entry) : (s.setEntry e).blocks = s.blocks := rfl
@[simp] theorem State.setEntry_ops (s : State) (e : Entry) : (s.setEntry e).ops = s.ops := rfl
@[simp] theorem State.setEntry_subs (s : State) (e : Entry) : (s.setEntry e).subs = s.subs := rfl
@[simp] theorem State.setEntry_recs (s : State) (e : Entry) : (s.setEntry e).recs = s.recs := rfl
@[simp] theorem State.setEntry_moved (s : State) (e : Entry) : (s.setEntry e).moved = s.moved := rfl
@[simp] theorem State.setEntry_lockWaits (s : State) (e : Entry) : (s.setEntry e).lockWaits = s.lockWaits := rfl
@[simp] theorem State.setEntry_binds (s : State) (e : Entry) : (s.setEntry e).binds = s.binds := rfl
@[simp] theorem State.setEntry_cbars (s : State) (e : Entry) : (s.setEntry e).cbars = s.cbars := rfl
@[simp] theorem State.setEntry_tunCache (s : State) (e : Entry) : (s.setEntry e).tunCache = s.tunCache := rfl
@[simp] theorem State.setEntry_quarantined (s : State) (e : Entry) : (s.setEntry e).quarantined = s.quarantined := rfl
@[simp] theorem State.setEntry_ctxbase (s : State) (e : Entry) : (s.setEntry e).ctxbase = s.ctxbase := rfl
@[simp] theorem State.setEntry_apq (s : State) (e : Entry) : (s.setEntry e).apq = s.apq := rfl
@[simp] theorem State.setEntry_hbm (s : State) (e : Entry) : (s.setEntry e).hbm = s.hbm := rfl
@[simp] theorem State.setEntry_tun (s : State) (e : Entry) : (s.setEntry e).tun = s.tun := rfl
@[simp] theorem State.setEntry_lender (s : State) (e : Entry) : (s.setEntry e).lender = s.lender := rfl
@[simp] theorem State.setEntry_host (s : State) (e : Entry) : (s.setEntry e).host = s.host := rfl
@[simp] theorem State.setEntry_spaces (s : State) (e : Entry) : (s.setEntry e).spaces = s.spaces := rfl
@[simp] theorem State.setEntry_roots (s : State) (e : Entry) : (s.setEntry e).roots = s.roots := rfl
@[simp] theorem State.setEntry_tlb (s : State) (e : Entry) : (s.setEntry e).tlb = s.tlb := rfl
@[simp] theorem State.setEntry_nodeCache (s : State) (e : Entry) : (s.setEntry e).nodeCache = s.nodeCache := rfl
@[simp] theorem State.setEntry_memsz (s : State) (e : Entry) : (s.setEntry e).memsz = s.memsz := rfl
@[simp] theorem State.setEntry_prot (s : State) (e : Entry) : (s.setEntry e).prot = s.prot := rfl
@[simp] theorem State.setEntry_faults (s : State) (e : Entry) : (s.setEntry e).faults = s.faults := rfl
@[simp] theorem State.setEntry_lineKeys (s : State) (e : Entry) : (s.setEntry e).lineKeys = s.lineKeys := rfl
@[simp] theorem State.setEntry_lineCtrs (s : State) (e : Entry) : (s.setEntry e).lineCtrs = s.lineCtrs := rfl
@[simp] theorem State.setEntry_leases (s : State) (e : Entry) : (s.setEntry e).leases = s.leases := rfl
@[simp] theorem State.setEntry_lends (s : State) (e : Entry) : (s.setEntry e).lends = s.lends := rfl
@[simp] theorem State.setEntry_poison (s : State) (e : Entry) : (s.setEntry e).poison = s.poison := rfl
@[simp] theorem State.setEntry_noticeQ (s : State) (e : Entry) : (s.setEntry e).noticeQ = s.noticeQ := rfl
@[simp] theorem State.setEntry_fe (s : State) (e : Entry) : (s.setEntry e).fe = s.fe := rfl
@[simp] theorem State.setEntry_trapRings (s : State) (e : Entry) : (s.setEntry e).trapRings = s.trapRings := rfl
@[simp] theorem State.setEntry_bar2 (s : State) (e : Entry) : (s.setEntry e).bar2 = s.bar2 := rfl
@[simp] theorem State.setEntry_keys (s : State) (e : Entry) : (s.setEntry e).keys = s.keys := rfl
@[simp] theorem State.setEntry_measures (s : State) (e : Entry) : (s.setEntry e).measures = s.measures := rfl
@[simp] theorem State.setEntry_devid (s : State) (e : Entry) : (s.setEntry e).devid = s.devid := rfl
@[simp] theorem State.setEntry_downPorts (s : State) (e : Entry) : (s.setEntry e).downPorts = s.downPorts := rfl
@[simp] theorem State.setEntry_ats (s : State) (e : Entry) : (s.setEntry e).ats = s.ats := rfl
@[simp] theorem State.setEntry_hot (s : State) (e : Entry) : (s.setEntry e).hot = s.hot := rfl
@[simp] theorem State.setEntry_fatal (s : State) (e : Entry) : (s.setEntry e).fatal = s.fatal := rfl
@[simp] theorem State.setEntry_spares (s : State) (e : Entry) : (s.setEntry e).spares = s.spares := rfl
@[simp] theorem State.setEntry_handover (s : State) (e : Entry) : (s.setEntry e).handover = s.handover := rfl
@[simp] theorem State.setEntry_mbox (s : State) (e : Entry) : (s.setEntry e).mbox = s.mbox := rfl
@[simp] theorem State.setEntry_bbox (s : State) (e : Entry) : (s.setEntry e).bbox = s.bbox := rfl
@[simp] theorem State.setEntry_elog (s : State) (e : Entry) : (s.setEntry e).elog = s.elog := rfl
@[simp] theorem State.setEntry_reply (s : State) (e : Entry) : (s.setEntry e).reply = s.reply := rfl
@[simp] theorem State.setEntry_inherits (s : State) (e : Entry) : (s.setEntry e).inherits = s.inherits := rfl
@[simp] theorem State.setEntry_identity (s : State) (e : Entry) : (s.setEntry e).identity = s.identity := rfl
@[simp] theorem State.setEntry_booted (s : State) (e : Entry) : (s.setEntry e).booted = s.booted := rfl
@[simp] theorem State.setEntry_ended (s : State) (e : Entry) : (s.setEntry e).ended = s.ended := rfl
@[simp] theorem State.setEntry_swz (s : State) (e : Entry) : (s.setEntry e).swz = s.swz := rfl
@[simp] theorem State.setEntry_repair (s : State) (e : Entry) : (s.setEntry e).repair = s.repair := rfl
@[simp] theorem State.setEntry_sent (s : State) (e : Entry) : (s.setEntry e).sent = s.sent := rfl
@[simp] theorem State.setEntry_cyc (s : State) (e : Entry) : (s.setEntry e).cyc = s.cyc := rfl
@[simp] theorem State.setEntry_fcyc (s : State) (e : Entry) : (s.setEntry e).fcyc = s.fcyc := rfl

@[simp] theorem State.charge_agenda (s : State) (e c n : Nat) : (s.charge e c n).agenda = s.agenda := by
  unfold State.charge; split <;> rfl
@[simp] theorem State.charge_focus (s : State) (e c n : Nat) : (s.charge e c n).focus = s.focus := by
  unfold State.charge; split <;> rfl
@[simp] theorem State.charge_input (s : State) (e c n : Nat) : (s.charge e c n).input = s.input := by
  unfold State.charge; split <;> rfl
@[simp] theorem State.charge_fresh (s : State) (e c n : Nat) : (s.charge e c n).fresh = s.fresh := by
  unfold State.charge; split <;> rfl
@[simp] theorem State.charge_nextId (s : State) (e c n : Nat) : (s.charge e c n).nextId = s.nextId := by
  unfold State.charge; split <;> rfl
@[simp] theorem State.charge_progress (s : State) (e c n : Nat) : (s.charge e c n).progress = s.progress := by
  unfold State.charge; split <;> rfl
@[simp] theorem State.charge_issues (s : State) (e c n : Nat) : (s.charge e c n).issues = s.issues := by
  unfold State.charge; split <;> rfl
@[simp] theorem State.charge_issuedIn (s : State) (e c n : Nat) : (s.charge e c n).issuedIn = s.issuedIn := by
  unfold State.charge; split <;> rfl
@[simp] theorem State.charge_trapQ (s : State) (e c n : Nat) : (s.charge e c n).trapQ = s.trapQ := by
  unfold State.charge; split <;> rfl
@[simp] theorem State.charge_discards (s : State) (e c n : Nat) : (s.charge e c n).discards = s.discards := by
  unfold State.charge; split <;> rfl
@[simp] theorem State.charge_aborts (s : State) (e c n : Nat) : (s.charge e c n).aborts = s.aborts := by
  unfold State.charge; split <;> rfl
@[simp] theorem State.charge_overruns (s : State) (e c n : Nat) : (s.charge e c n).overruns = s.overruns := by
  unfold State.charge; split <;> rfl
@[simp] theorem State.charge_blocks (s : State) (e c n : Nat) : (s.charge e c n).blocks = s.blocks := by
  unfold State.charge; split <;> rfl
@[simp] theorem State.charge_ops (s : State) (e c n : Nat) : (s.charge e c n).ops = s.ops := by
  unfold State.charge; split <;> rfl
@[simp] theorem State.charge_subs (s : State) (e c n : Nat) : (s.charge e c n).subs = s.subs := by
  unfold State.charge; split <;> rfl
@[simp] theorem State.charge_recs (s : State) (e c n : Nat) : (s.charge e c n).recs = s.recs := by
  unfold State.charge; split <;> rfl
@[simp] theorem State.charge_moved (s : State) (e c n : Nat) : (s.charge e c n).moved = s.moved := by
  unfold State.charge; split <;> rfl
@[simp] theorem State.charge_lockWaits (s : State) (e c n : Nat) : (s.charge e c n).lockWaits = s.lockWaits := by
  unfold State.charge; split <;> rfl
@[simp] theorem State.charge_binds (s : State) (e c n : Nat) : (s.charge e c n).binds = s.binds := by
  unfold State.charge; split <;> rfl
@[simp] theorem State.charge_cbars (s : State) (e c n : Nat) : (s.charge e c n).cbars = s.cbars := by
  unfold State.charge; split <;> rfl
@[simp] theorem State.charge_tunCache (s : State) (e c n : Nat) : (s.charge e c n).tunCache = s.tunCache := by
  unfold State.charge; split <;> rfl
@[simp] theorem State.charge_quarantined (s : State) (e c n : Nat) : (s.charge e c n).quarantined = s.quarantined := by
  unfold State.charge; split <;> rfl
@[simp] theorem State.charge_ctxbase (s : State) (e c n : Nat) : (s.charge e c n).ctxbase = s.ctxbase := by
  unfold State.charge; split <;> rfl
@[simp] theorem State.charge_apq (s : State) (e c n : Nat) : (s.charge e c n).apq = s.apq := by
  unfold State.charge; split <;> rfl
@[simp] theorem State.charge_hbm (s : State) (e c n : Nat) : (s.charge e c n).hbm = s.hbm := by
  unfold State.charge; split <;> rfl
@[simp] theorem State.charge_tun (s : State) (e c n : Nat) : (s.charge e c n).tun = s.tun := by
  unfold State.charge; split <;> rfl
@[simp] theorem State.charge_lender (s : State) (e c n : Nat) : (s.charge e c n).lender = s.lender := by
  unfold State.charge; split <;> rfl
@[simp] theorem State.charge_host (s : State) (e c n : Nat) : (s.charge e c n).host = s.host := by
  unfold State.charge; split <;> rfl
@[simp] theorem State.charge_spaces (s : State) (e c n : Nat) : (s.charge e c n).spaces = s.spaces := by
  unfold State.charge; split <;> rfl
@[simp] theorem State.charge_roots (s : State) (e c n : Nat) : (s.charge e c n).roots = s.roots := by
  unfold State.charge; split <;> rfl
@[simp] theorem State.charge_tlb (s : State) (e c n : Nat) : (s.charge e c n).tlb = s.tlb := by
  unfold State.charge; split <;> rfl
@[simp] theorem State.charge_nodeCache (s : State) (e c n : Nat) : (s.charge e c n).nodeCache = s.nodeCache := by
  unfold State.charge; split <;> rfl
@[simp] theorem State.charge_memsz (s : State) (e c n : Nat) : (s.charge e c n).memsz = s.memsz := by
  unfold State.charge; split <;> rfl
@[simp] theorem State.charge_prot (s : State) (e c n : Nat) : (s.charge e c n).prot = s.prot := by
  unfold State.charge; split <;> rfl
@[simp] theorem State.charge_faults (s : State) (e c n : Nat) : (s.charge e c n).faults = s.faults := by
  unfold State.charge; split <;> rfl
@[simp] theorem State.charge_lineKeys (s : State) (e c n : Nat) : (s.charge e c n).lineKeys = s.lineKeys := by
  unfold State.charge; split <;> rfl
@[simp] theorem State.charge_lineCtrs (s : State) (e c n : Nat) : (s.charge e c n).lineCtrs = s.lineCtrs := by
  unfold State.charge; split <;> rfl
@[simp] theorem State.charge_leases (s : State) (e c n : Nat) : (s.charge e c n).leases = s.leases := by
  unfold State.charge; split <;> rfl
@[simp] theorem State.charge_lends (s : State) (e c n : Nat) : (s.charge e c n).lends = s.lends := by
  unfold State.charge; split <;> rfl
@[simp] theorem State.charge_poison (s : State) (e c n : Nat) : (s.charge e c n).poison = s.poison := by
  unfold State.charge; split <;> rfl
@[simp] theorem State.charge_noticeQ (s : State) (e c n : Nat) : (s.charge e c n).noticeQ = s.noticeQ := by
  unfold State.charge; split <;> rfl
@[simp] theorem State.charge_fe (s : State) (e c n : Nat) : (s.charge e c n).fe = s.fe := by
  unfold State.charge; split <;> rfl
@[simp] theorem State.charge_trapRings (s : State) (e c n : Nat) : (s.charge e c n).trapRings = s.trapRings := by
  unfold State.charge; split <;> rfl
@[simp] theorem State.charge_bar2 (s : State) (e c n : Nat) : (s.charge e c n).bar2 = s.bar2 := by
  unfold State.charge; split <;> rfl
@[simp] theorem State.charge_keys (s : State) (e c n : Nat) : (s.charge e c n).keys = s.keys := by
  unfold State.charge; split <;> rfl
@[simp] theorem State.charge_measures (s : State) (e c n : Nat) : (s.charge e c n).measures = s.measures := by
  unfold State.charge; split <;> rfl
@[simp] theorem State.charge_devid (s : State) (e c n : Nat) : (s.charge e c n).devid = s.devid := by
  unfold State.charge; split <;> rfl
@[simp] theorem State.charge_downPorts (s : State) (e c n : Nat) : (s.charge e c n).downPorts = s.downPorts := by
  unfold State.charge; split <;> rfl
@[simp] theorem State.charge_ats (s : State) (e c n : Nat) : (s.charge e c n).ats = s.ats := by
  unfold State.charge; split <;> rfl
@[simp] theorem State.charge_hot (s : State) (e c n : Nat) : (s.charge e c n).hot = s.hot := by
  unfold State.charge; split <;> rfl
@[simp] theorem State.charge_fatal (s : State) (e c n : Nat) : (s.charge e c n).fatal = s.fatal := by
  unfold State.charge; split <;> rfl
@[simp] theorem State.charge_spares (s : State) (e c n : Nat) : (s.charge e c n).spares = s.spares := by
  unfold State.charge; split <;> rfl
@[simp] theorem State.charge_handover (s : State) (e c n : Nat) : (s.charge e c n).handover = s.handover := by
  unfold State.charge; split <;> rfl
@[simp] theorem State.charge_mbox (s : State) (e c n : Nat) : (s.charge e c n).mbox = s.mbox := by
  unfold State.charge; split <;> rfl
@[simp] theorem State.charge_bbox (s : State) (e c n : Nat) : (s.charge e c n).bbox = s.bbox := by
  unfold State.charge; split <;> rfl
@[simp] theorem State.charge_elog (s : State) (e c n : Nat) : (s.charge e c n).elog = s.elog := by
  unfold State.charge; split <;> rfl
@[simp] theorem State.charge_reply (s : State) (e c n : Nat) : (s.charge e c n).reply = s.reply := by
  unfold State.charge; split <;> rfl
@[simp] theorem State.charge_inherits (s : State) (e c n : Nat) : (s.charge e c n).inherits = s.inherits := by
  unfold State.charge; split <;> rfl
@[simp] theorem State.charge_identity (s : State) (e c n : Nat) : (s.charge e c n).identity = s.identity := by
  unfold State.charge; split <;> rfl
@[simp] theorem State.charge_booted (s : State) (e c n : Nat) : (s.charge e c n).booted = s.booted := by
  unfold State.charge; split <;> rfl
@[simp] theorem State.charge_ended (s : State) (e c n : Nat) : (s.charge e c n).ended = s.ended := by
  unfold State.charge; split <;> rfl
@[simp] theorem State.charge_swz (s : State) (e c n : Nat) : (s.charge e c n).swz = s.swz := by
  unfold State.charge; split <;> rfl
@[simp] theorem State.charge_repair (s : State) (e c n : Nat) : (s.charge e c n).repair = s.repair := by
  unfold State.charge; split <;> rfl
@[simp] theorem State.charge_sent (s : State) (e c n : Nat) : (s.charge e c n).sent = s.sent := by
  unfold State.charge; split <;> rfl
@[simp] theorem State.charge_cyc (s : State) (e c n : Nat) : (s.charge e c n).cyc = s.cyc := by
  unfold State.charge; split <;> rfl
@[simp] theorem State.charge_fcyc (s : State) (e c n : Nat) : (s.charge e c n).fcyc = s.fcyc := by
  unfold State.charge; split <;> rfl

/-! ### What a gang's replacement does -/

theorem State.gang?_block {s : State} {b g : Nat} {x : Block} {y : Gang} (h : s.gang? b g = some (x, y)) :
    s.block? b = some x ∧ x.id = b ∧ x.gangs[g]? = some y := by
  unfold State.gang? at h
  cases hb : s.block? b with
  | none => simp [hb] at h
  | some z =>
    simp only [hb, Option.map_eq_some_iff, Prod.mk.injEq] at h
    obtain ⟨w, hw, rfl, rfl⟩ := h
    exact ⟨rfl, (State.block?_mem hb).2, hw⟩

theorem State.block?_setGang_self {s : State} {b g : Nat} {x : Block} (y : Gang) (h : s.block? b = some x) :
    (s.setGang b g y).block? b = some { x with gangs := x.gangs.set g y } := by
  have hid := (State.block?_mem h).2
  unfold State.setGang
  simp only [h]
  have h' : s.block? ({ x with gangs := x.gangs.set g y } : Block).id = some x := by simpa [hid] using h
  simpa [hid] using State.block?_setBlock_self h'

theorem State.block?_setGang_ne {s : State} {b g b' : Nat} {y : Gang} (h : b' ≠ b) : (s.setGang b g y).block? b' = s.block? b' := by
  unfold State.setGang
  cases hb : s.block? b with
  | none => rfl
  | some x => exact State.block?_setBlock_ne (by simpa [(State.block?_mem hb).2] using h)

theorem State.gang?_setGang_self {s : State} {b g : Nat} {x : Block} {y0 : Gang} (y : Gang) (h : s.gang? b g = some (x, y0)) :
    (s.setGang b g y).gang? b g = some ({ x with gangs := x.gangs.set g y }, y) := by
  obtain ⟨h1, _, h3⟩ := State.gang?_block h
  have hg : g < x.gangs.length := by
    rw [List.getElem?_eq_some_iff] at h3; exact h3.1
  unfold State.gang?
  rw [State.block?_setGang_self y h1]
  simp [hg]

theorem State.gang?_setGang_ne {s : State} {b g b' g' : Nat} {y : Gang} (h : ¬(b' = b ∧ g' = g)) :
    ((s.setGang b g y).gang? b' g').map Prod.snd = (s.gang? b' g').map Prod.snd := by
  by_cases hb : b' = b
  · subst hb
    have hg : g ≠ g' := fun e => h ⟨rfl, e.symm⟩
    cases hx : s.block? b' with
    | none => unfold State.setGang; simp [hx]
    | some x =>
      unfold State.gang?
      rw [State.block?_setGang_self y hx, hx]
      simp [List.getElem?_set_ne hg]
  · unfold State.gang?
    rw [State.block?_setGang_ne hb]

theorem State.modGang_eq {s : State} {b g : Nat} {x : Block} {y : Gang} (f : Gang → Gang) (h : s.gang? b g = some (x, y)) :
    s.modGang b g f = s.setGang b g (f y) := by
  unfold State.modGang; rw [h]

/-- What a block holds beside its gangs is left by the replacement of a gang. -/
theorem State.block?_setGang_rest (s : State) (b g b' : Nat) (y : Gang) :
    ((s.setGang b g y).block? b').map (fun x => { x with gangs := [] }) = (s.block? b').map (fun x => { x with gangs := [] }) := by
  by_cases hb : b' = b
  · subst hb
    cases hx : s.block? b' with
    | none => unfold State.setGang; simp [hx]
    | some x => rw [State.block?_setGang_self y hx]; rfl
  · rw [State.block?_setGang_ne hb]

/-- No byte of storage is changed by the replacement of a gang. -/
@[simp] theorem State.readByte_setGang (s : State) (b g : Nat) (y : Gang) (l : Loc) : (s.setGang b g y).readByte l = s.readByte l := by
  cases l with
  | loc b' o =>
    have h := State.block?_setGang_rest s b g b' y
    simp only [State.readByte]
    cases h1 : (s.setGang b g y).block? b' <;> cases h2 : s.block? b' <;> simp_all
  | tun d o => simp [State.readByte]
  | hbm a => simp [State.readByte]
  | lender e a => simp [State.readByte]
  | host a => simp [State.readByte]

@[simp] theorem State.readByte_modGang (s : State) (b g : Nat) (f : Gang → Gang) (l : Loc) : (s.modGang b g f).readByte l = s.readByte l := by
  unfold State.modGang; split <;> simp

/-- Nor by a charge. -/
@[simp] theorem State.readByte_charge (s : State) (e c n : Nat) (l : Loc) : (s.charge e c n).readByte l = s.readByte l := by
  cases l <;> simp [State.readByte, State.block?]

/-- A charge changes no block. -/
@[simp] theorem State.block?_charge (s : State) (e c n b : Nat) : (s.charge e c n).block? b = s.block? b := by simp [State.block?]

@[simp] theorem State.gang?_charge (s : State) (e c n b g : Nat) : (s.charge e c n).gang? b g = s.gang? b g := by simp [State.gang?]

end Sys2Proof.Machine
end

