-- ==== Sys2Proof/Laws/Issue.lean ====
section
/-! SUPPORT. Laws of the issue of a word: what `issueWord` can answer, and what an issue leaves of the gang beside its effect. -/

namespace Sys2Proof.Machine

/-! ### The registers of a gang -/

theorem Gang.getV_setV (y : Gang) (n k : Nat) (m : Word) (val : Lanes) (tag : Tags) :
    (y.setV n m val tag).getV k = if k = n ∧ n < 64 then blend m val (y.getV n) else y.getV k := by
  by_cases hn : n < 64
  · simp only [Gang.setV, dif_pos hn, Gang.getV]
    by_cases hk : k < 64
    · by_cases he : n = k
      · subst he; simp [hn]
      · simp [hk, he, Ne.symm he]
    · have he : ¬k = n := fun e => hk (e ▸ hn)
      simp [hk, he]
  · rw [if_neg fun h => hn h.2]; unfold Gang.setV; rw [dif_neg hn]

theorem Gang.getT_setV (y : Gang) (n k : Nat) (m : Word) (val : Lanes) (tag : Tags) :
    (y.setV n m val tag).getT k = if k = n ∧ n < 64 then blend m tag (y.getT n) else y.getT k := by
  by_cases hn : n < 64
  · simp only [Gang.setV, dif_pos hn, Gang.getT]
    by_cases hk : k < 64
    · by_cases he : n = k
      · subst he; simp [hn]
      · simp [hk, he, Ne.symm he]
    · have he : ¬k = n := fun e => hk (e ▸ hn)
      simp [hk, he]
  · rw [if_neg fun h => hn h.2]; unfold Gang.setV; rw [dif_neg hn]

@[simp] theorem Gang.getS_setV (y : Gang) (n k : Nat) (m : Word) (val : Lanes) (tag : Tags) :
    (y.setV n m val tag).getS k = y.getS k := by unfold Gang.setV; split <;> rfl

@[simp] theorem Gang.getK_setV (y : Gang) (n k : Nat) (m : Word) (val : Lanes) (tag : Tags) :
    (y.setV n m val tag).getK k = y.getK k := by unfold Gang.setV; split <;> rfl

/-- S0 reads zero (R105). -/
@[simp] theorem Gang.getS_zero (y : Gang) : y.getS 0 = 0 := by simp [Gang.getS]

theorem Gang.getS_setS (y : Gang) (n k : Nat) (w : Word) :
    (y.setS n w).getS k = if k = n ∧ 0 < n ∧ n < 32 then w else y.getS k := by
  by_cases hn : 0 < n ∧ n < 32
  · simp only [Gang.setS, dif_pos hn, Gang.getS]
    by_cases hk : 0 < k ∧ k < 32
    · by_cases he : n = k
      · subst he; simp [hn]
      · simp [hk, he, Ne.symm he]
    · have he : ¬k = n := fun e => hk (e ▸ hn)
      simp [hk, he]
  · rw [if_neg fun h => hn h.2]; unfold Gang.setS; rw [dif_neg hn]

@[simp] theorem Gang.getV_setS (y : Gang) (n k : Nat) (w : Word) : (y.setS n w).getV k = y.getV k := by
  unfold Gang.setS; split <;> rfl
@[simp] theorem Gang.getT_setS (y : Gang) (n k : Nat) (w : Word) : (y.setS n w).getT k = y.getT k := by
  unfold Gang.setS; split <;> rfl
@[simp] theorem Gang.getK_setS (y : Gang) (n k : Nat) (w : Word) : (y.setS n w).getK k = y.getK k := by
  unfold Gang.setS; split <;> rfl

theorem Gang.getK_setK (y : Gang) (n k : Nat) (w : Word) :
    (y.setK n w).getK k = if k = n ∧ 0 < n ∧ n < 12 then w else y.getK k := by
  by_cases hn : 0 < n ∧ n < 12
  · simp only [Gang.setK, dif_pos hn, Gang.getK]
    by_cases hk : k < 12
    · by_cases he : n = k
      · subst he; simp [hn]
      · simp [hk, he, Ne.symm he]
    · have he : ¬k = n := fun e => hk (e ▸ hn.2)
      simp [hk, he]
  · rw [if_neg fun h => hn h.2]; unfold Gang.setK; rw [dif_neg hn]

@[simp] theorem Gang.getV_setK (y : Gang) (n k : Nat) (w : Word) : (y.setK n w).getV k = y.getV k := by
  unfold Gang.setK; split <;> rfl
@[simp] theorem Gang.getT_setK (y : Gang) (n k : Nat) (w : Word) : (y.setK n w).getT k = y.getT k := by
  unfold Gang.setK; split <;> rfl
@[simp] theorem Gang.getS_setK (y : Gang) (n k : Nat) (w : Word) : (y.setK n w).getS k = y.getS k := by
  unfold Gang.setK; split <;> rfl

/-- One lane of a blend. -/
theorem blend_get {α : Type} (m : Word) (new old : Vector α 32) (l : Nat) (h : l < 32) :
    (blend m new old)[l] = if m.getLsbD l then new[l] else old[l] := by
  simp only [blend, Vector.getElem_ofFn]; rfl

/-! ### What a change of lanes keeps -/

/-- Two gangs that differ, at most, in their lanes and the counts of their issues: every register and CSR is the same. -/
structure SameRegs (y z : Gang) : Prop where
  v : z.v = y.v ∧ z.vt = y.vt
  sk : z.s = y.s ∧ z.k = y.k ∧ z.d = y.d
  csr : z.frm = y.frm ∧ z.fflags = y.fflags ∧ z.fexc = y.fexc ∧ z.seed = y.seed ∧ z.x = y.x ∧ z.fair = y.fair ∧ z.check = y.check
  stack : z.ssp = y.ssp ∧ z.cspb = y.cspb ∧ z.cspl = y.cspl
  traps : z.trap = y.trap ∧ z.bpc = y.bpc ∧ z.dbgctl = y.dbgctl ∧ z.handler = y.handler ∧ z.sys = y.sys
  calls : z.calls = y.calls
  work : z.pends = y.pends ∧ z.seq = y.seq ∧ z.fences = y.fences ∧ z.enqr = y.enqr ∧ z.pendingUser = y.pendingUser

theorem SameRegs.refl (y : Gang) : SameRegs y y := by constructor <;> simp

/-- A change of a gang's counts. -/
theorem sameRegs_counts (y : Gang) (fcnt clock lastIssue stall : Nat) (srvd : Word) (turn : Option (Word × Word × Nat)) (flights : List Flight)
    (spent : List (((Word × Bool) × Word) × Nat)) (sweep : Bool) :
    SameRegs y { y with fcnt := fcnt, clock := clock, lastIssue := lastIssue, stall := stall, srvd := srvd, turn := turn, flights := flights, spent := spent, sweep := sweep } :=
  ⟨⟨rfl, rfl⟩, ⟨rfl, rfl, rfl⟩, ⟨rfl, rfl, rfl, rfl, rfl, rfl, rfl⟩, ⟨rfl, rfl, rfl⟩, ⟨rfl, rfl, rfl, rfl, rfl⟩, rfl, ⟨rfl, rfl, rfl, rfl, rfl⟩⟩

theorem SameRegs.trans {x y z : Gang} (h1 : SameRegs x y) (h2 : SameRegs y z) : SameRegs x z := by
  obtain ⟨a1, b1, c1, d1, e1, g1, f1⟩ := h1
  obtain ⟨a2, b2, c2, d2, e2, g2, f2⟩ := h2
  constructor <;> simp_all

theorem SameRegs.kept {y z : Gang} (h : SameRegs y z) : GangKept y z [] [] [] := by
  obtain ⟨⟨h1, h2⟩, ⟨h3, h4, h5⟩, h6, h7, h8, h9, _⟩ := h
  constructor <;> simp_all [Gang.getV, Gang.getT, Gang.getS, Gang.getK]

/-- A change of lanes that keeps each lane's call stack. -/
theorem Gang.calls_mapLanes (y : Gang) (m : Word) (f : Nat → Lane → Lane) (hf : ∀ n l, (f n l).dep = l.dep ∧ (f n l).stack = l.stack) :
    (y.mapLanes m f).calls = y.calls := by
  unfold Gang.calls Gang.mapLanes
  ext i hi <;> simp only [Vector.getElem_map, Vector.getElem_ofFn] <;> split <;> simp [hf]

theorem sameRegs_mapLanes (y : Gang) (m : Word) (f : Nat → Lane → Lane) (hf : ∀ n l, (f n l).dep = l.dep ∧ (f n l).stack = l.stack) :
    SameRegs y (y.mapLanes m f) := by
  have := Gang.calls_mapLanes y m f hf
  constructor <;> first | exact this | simp [Gang.mapLanes]

/-- What entering a region does: it changes lanes, but no call stack, REC and the stochastic state. -/
theorem Gang.enterRegion_eq (y : Gang) (m : Word) (pc : Va) : ∃ (f : Nat → Lane → Lane) (r x : Word),
    y.enterRegion m pc = { y.mapLanes m f with recN := r, x := x } ∧ ∀ n l, (f n l).dep = l.dep ∧ (f n l).stack = l.stack := by
  refine ⟨_, _, _, rfl, fun n l => ?_⟩
  simp only
  split
  · exact ⟨rfl, rfl⟩
  · split <;> exact ⟨rfl, rfl⟩

/-- The same two gangs with one new stochastic state, and a new REC. -/
theorem SameRegs.withX {y z : Gang} (h : SameRegs y z) (r x : Word) : SameRegs { y with x := x } { z with recN := r, x := x } :=
  ⟨h.v, h.sk, ⟨h.csr.1, h.csr.2.1, h.csr.2.2.1, h.csr.2.2.2.1, rfl, h.csr.2.2.2.2.2⟩, h.stack, h.traps, h.calls, h.work⟩

/-- The same two gangs with one new stochastic state. -/
theorem SameRegs.newX {y z : Gang} (h : SameRegs y z) (x : Word) : SameRegs { y with x := x } { z with x := x } :=
  ⟨h.v, h.sk, ⟨h.csr.1, h.csr.2.1, h.csr.2.2.1, h.csr.2.2.2.1, rfl, h.csr.2.2.2.2.2⟩, h.stack, h.traps, h.calls, h.work⟩

/-- Entering a region changes no register but the stochastic state, which a re-execution takes back (R136). -/
theorem sameRegs_enterRegion (y : Gang) (m : Word) (pc : Va) :
    SameRegs { y with x := (y.enterRegion m pc).x } (y.enterRegion m pc) := by
  obtain ⟨f, r, x, h, hf⟩ := y.enterRegion_eq m pc
  generalize y.enterRegion m pc = z at h ⊢
  subst h
  exact (sameRegs_mapLanes y m f hf).withX r x

theorem Gang.reexecute_eq (y : Gang) (m : Word) (pc : Va) : ∃ (f : Nat → Lane → Lane) (x : Word),
    y.reexecute m pc = { y.mapLanes m f with x := x } ∧ ∀ n l, (f n l).dep = l.dep ∧ (f n l).stack = l.stack := by
  refine ⟨_, _, rfl, fun n l => ?_⟩
  simp only
  split <;> exact ⟨rfl, rfl⟩

/-- Re-executing the region of ENTRY or HANDLER changes no register but the stochastic state (R136). -/
theorem sameRegs_reexecute (y : Gang) (m : Word) (pc : Va) : SameRegs { y with x := (y.reexecute m pc).x } (y.reexecute m pc) := by
  obtain ⟨f, x, h, hf⟩ := y.reexecute_eq m pc
  generalize y.reexecute m pc = z at h ⊢
  subst h
  exact (sameRegs_mapLanes y m f hf).newX x

theorem sameRegs_takeUp (y : Gang) (m : Word) (pc hpc : Va) (h : Word) :
    SameRegs { y with x := (y.takeUp m pc hpc h).x } (y.takeUp m pc hpc h) := by
  unfold Gang.takeUp; split
  · exact sameRegs_enterRegion _ _ _
  · split
    · exact sameRegs_reexecute _ _ _
    · exact SameRegs.refl y

theorem sameRegs_releaseK (y : Gang) (n : Nat) : SameRegs y (y.releaseK n) := by
  unfold Gang.releaseK
  simp only
  split
  · exact SameRegs.refl y
  · split
    · exact SameRegs.refl y
    · exact sameRegs_mapLanes _ _ _ fun _ _ => ⟨rfl, rfl⟩

theorem sameRegs_settleK (y : Gang) : SameRegs y y.settleK := by
  unfold Gang.settleK
  generalize List.range 12 = l
  induction l generalizing y with
  | nil => exact SameRegs.refl y
  | cons n r ih => exact (sameRegs_releaseK y n).trans (ih _)

theorem sameRegs_fairCount (y old : Gang) (m : Word) : SameRegs y (y.fairCount old m) := by
  unfold Gang.fairCount
  split
  · simp only; split <;> exact sameRegs_counts y _ _ _ _ _ _ _ _ _
  · split
    · simp only; split <;> exact sameRegs_counts y _ _ _ _ _ _ _ _ _
    · exact sameRegs_counts y _ _ _ _ _ _ _ _ _

theorem sameRegs_sweepOver (y : Gang) : SameRegs y y.sweepOver := by
  unfold Gang.sweepOver; split
  · exact sameRegs_counts y _ _ _ _ _ _ _ _ _
  · exact SameRegs.refl y

theorem sameRegs_retire (y old : Gang) (i : Info) (m hdr : Word) (next : Bool) : SameRegs y (y.retire old i m hdr next) := by
  unfold Gang.retire
  simp only
  refine SameRegs.trans ?_ (sameRegs_sweepOver _)
  refine SameRegs.trans ?_ (sameRegs_fairCount _ _ _)
  refine SameRegs.trans ?_ (sameRegs_settleK _)
  have h1 : SameRegs y (if next = true then y.mapLanes m fun _ l => l.advance i.varLat else y) := by
    split
    · refine sameRegs_mapLanes _ _ _ fun _ l => ?_
      unfold Lane.advance; split <;> exact ⟨rfl, rfl⟩
    · exact SameRegs.refl y
  generalize (if next = true then y.mapLanes m fun _ l => l.advance i.varLat else y) = y1 at h1 ⊢
  have h2 : SameRegs y1 (if i.sideEff = true then y1.mapLanes m fun _ l => (match l.wait with
    | .signed _ => l
    | _ => { l with complete := true }) else y1) := by
    split
    · refine sameRegs_mapLanes _ _ _ fun _ l => ?_
      split <;> exact ⟨rfl, rfl⟩
    · exact SameRegs.refl y1
  exact h1.trans (h2.trans (sameRegs_counts _ _ _ _ _ _ _ _ _ _))

theorem sameRegs_spend (y : Gang) (r : Word × Bool) (m : Word) : SameRegs y (y.spend r m) := sameRegs_counts y _ _ _ _ _ _ _ _ _

/-! ### What an issue answers -/

theorem sameRegs_lastIssue (y : Gang) (n : Nat) : SameRegs y { y with lastIssue := n } := sameRegs_counts y _ _ _ _ _ _ _ _ _

theorem sameRegs_afterIssue (y2 old : Gang) (i : Info) (c : Ctx) (next : Bool) (n : Nat) : SameRegs y2 (y2.afterIssue old i c next n) :=
  ((sameRegs_retire y2 old i c.m c.hdr next).trans (sameRegs_spend _ _ _)).trans (sameRegs_lastIssue _ n)

/-- What `clears` says of its context. -/
theorem State.clears_ctx {s : State} {i : Info} {c : Ctx} {z : State} (h : s.clears i = some (c, z)) :
    ∃ w y, s.focus = .gang c.b c.g c.m c.pc c.hpc c.hdr w c.nvl ∧ s.gang? c.b c.g = some (c.x, y)
      ∧ c.y = (if y.check.getLsbD 0 then y.takeUp c.m c.pc c.hpc c.hdr else (y.takeUp c.m c.pc c.hpc c.hdr).early i.reads s.fresh)
      ∧ z = { s.setGang c.b c.g (y.takeUp c.m c.pc c.hpc c.hdr) with fresh := s.fresh + y.earlyBits } := by
  unfold State.clears at h
  split at h
  · next b g m pc hpc hdr w nvl hf =>
    split at h
    · next x y hg =>
      simp only [Option.ite_none_left_eq_some, Option.some.injEq, Prod.mk.injEq] at h
      obtain ⟨_, rfl, rfl⟩ := h
      exact ⟨w, y, hf, hg, rfl, rfl⟩
    · simp at h
  · simp at h

/-- A fold keeps what each of its steps keeps. -/
theorem foldl_keeps {α β : Type} {P : β → Prop} {f : β → α → β} (h : ∀ b a, P b → P (f b a)) (l : List α) (b : β) (hb : P b) :
    P (l.foldl f b) := by
  induction l generalizing b with
  | nil => exact hb
  | cons a r ih => exact ih _ (h b a hb)

@[simp] theorem Gang.setV_x (y : Gang) (n : Nat) (m : Word) (v : Lanes) (g : Tags) : (y.setV n m v g).x = y.x := by
  unfold Gang.setV; split <;> rfl
@[simp] theorem Gang.setS_x (y : Gang) (n : Nat) (w : Word) : (y.setS n w).x = y.x := by unfold Gang.setS; split <;> rfl
@[simp] theorem Gang.setK_x (y : Gang) (n : Nat) (w : Word) : (y.setK n w).x = y.x := by unfold Gang.setK; split <;> rfl

/-- Reading registers too early changes no stochastic state. -/
@[simp] theorem Gang.early_x (y : Gang) (regs : List RegRef) (n : Nat) : (y.early regs n).x = y.x := by
  unfold Gang.early
  simp only
  refine foldl_keeps (P := fun q : Gang × Nat => q.1.x = y.x) (fun q p hq => ?_) _ _ ?_
  · refine foldl_keeps (P := fun q : Gang × Nat => q.1.x = y.x) (fun r d hr => ?_) _ _ hq
    show (if _ then _ else _ : Gang).x = y.x
    split
    · simpa [Gang.setResult] using hr
    · exact hr
  · refine foldl_keeps (P := fun q : Gang × Nat => q.1.x = y.x) (fun q f hq => ?_) _ _ rfl
    rcases f with ⟨old⟩
    cases old <;> simp only <;> first
      | simpa using hq
      | (split <;> simpa using hq)

/-- The stochastic state that a word reads is the one its lanes enter with (R136). -/
theorem State.clears_x {s : State} {i : Info} {c : Ctx} {z : State} {y : Gang} (h : s.clears i = some (c, z))
    (hy : s.gangAt c = some y) : c.y.x = (y.takeUp c.m c.pc c.hpc c.hdr).x := by
  obtain ⟨w, y0, _, hg, hc, _⟩ := State.clears_ctx h
  simp only [State.gangAt, hg, Option.map_some, Option.some.injEq] at hy
  subst hy
  rw [hc]; split <;> simp

/-- A word that clears its checks and whose effect is done is issued. -/
theorem issueWord_done {s : State} {i : Info} {c : Ctx} {z s2 : State} {eff : Ctx → State → Eff} {next : Bool}
    (h : s.clears i = some (c, z)) (he : eff c z = .done s2 next) : issueWord i eff s = .next (s.issued i c s2 next) := by
  unfold State.clears at h
  split at h
  · next b g m pc hpc hdr w nvl hf =>
    split at h
    · next x y hg =>
      simp only [Option.ite_none_left_eq_some, Option.some.injEq, Prod.mk.injEq] at h
      obtain ⟨hn, rfl, rfl⟩ := h
      simp only [Bool.or_eq_true, not_or, Bool.not_eq_true, Option.isSome_eq_false_iff, Option.isNone_iff_eq_none,
        Bool.and_eq_false_imp] at hn
      obtain ⟨⟨⟨⟨h1, h2⟩, h3⟩, h4⟩, h5⟩ := hn
      have h2' : (if y.check.getLsbD 0 = true then y.short (i.reads ++ i.writes) else none) = none := by
        split
        · next hc => exact h2 hc
        · rfl
      unfold issueWord
      simp only [hf, hg, h1, h2', h3, h5, State.issued]
      unfold counterFull at h4
      rw [if_neg Bool.false_ne_true]
      refine Eq.trans (if_neg ?_) ?_
      · exact fun hc => absurd (h4.symm.trans hc) Bool.false_ne_true
      · rw [he]; rfl
    · simp at h
  · simp at h

/-! ### An issue whose effect changes nothing but its own gang -/

theorem State.gang?_of_fields {s t : State} (h : t.blocks = s.blocks) (b g : Nat) : t.gang? b g = s.gang? b g := by
  simp [State.gang?, State.block?, h]

theorem State.block?_of_fields {s t : State} (h : t.blocks = s.blocks) (b : Nat) : t.block? b = s.block? b := by
  simp [State.block?, h]

theorem State.readByte_of_fields {s t : State} (h1 : s.blocks = t.blocks) (h2 : s.hbm = t.hbm) (h3 : s.tun = t.tun)
    (h4 : s.lender = t.lender) (h5 : s.host = t.host) (l : Loc) : s.readByte l = t.readByte l := by
  cases l <;> simp [State.readByte, State.block?, h1, h2, h3, h4, h5]

/-- A word whose effect changes its gang by `f`: the gang's registers and CSRs afterwards are those of `f`'s result, and everything
outside the gang is left alone but the entry's budget. -/
theorem State.issued_modGang {s : State} {i : Info} {c : Ctx} {z : State} (h : s.clears i = some (c, z)) (f : Gang → Gang) (next : Bool) :
    let t := s.issued i c (z.modGang c.b c.g f) next
    (∃ y y', s.gangAt c = some y ∧ t.gangAt c = some y' ∧ SameRegs (f (y.takeUp c.m c.pc c.hpc c.hdr)) y')
      ∧ MemKept s t ∧ BlocksKept s t c.b c.g ∧ DeviceKept s t := by
  obtain ⟨w, y, hf, hg, hy, rfl⟩ := State.clears_ctx h
  have hz : ({ s.setGang c.b c.g (y.takeUp c.m c.pc c.hpc c.hdr) with fresh := s.fresh + y.earlyBits } : State).gang? c.b c.g
      = some ({ c.x with gangs := c.x.gangs.set c.g (y.takeUp c.m c.pc c.hpc c.hdr) }, y.takeUp c.m c.pc c.hpc c.hdr) := by
    rw [← State.gang?_setGang_self _ hg]; exact State.gang?_of_fields rfl _ _
  generalize hz0 : ({ s.setGang c.b c.g (y.takeUp c.m c.pc c.hpc c.hdr) with fresh := s.fresh + y.earlyBits } : State) = z at hz ⊢
  have hzb : z.blocks = (s.setGang c.b c.g (y.takeUp c.m c.pc c.hpc c.hdr)).blocks := by rw [← hz0]
  have hmod := State.modGang_eq f hz
  have h2 := State.gang?_setGang_self (f (y.takeUp c.m c.pc c.hpc c.hdr)) hz
  have h2' := (State.gang?_charge (z.modGang c.b c.g f) c.x.entry 0 1 c.b c.g).trans ((congrArg (fun a => State.gang? a c.b c.g) hmod).trans h2)
  simp only [State.issued, hg]
  rw [State.modGang_eq _ h2']
  have hY := sameRegs_afterIssue (f (y.takeUp c.m c.pc c.hpc c.hdr)) y i c next (s.issues + 1)
  generalize (f (y.takeUp c.m c.pc c.hpc c.hdr)).afterIssue y i c next (s.issues + 1) = Y at hY ⊢
  have hu := State.gang?_setGang_self Y h2'
  have hm : ∀ l, (((z.modGang c.b c.g f).charge c.x.entry 0 1).setGang c.b c.g Y).readByte l = s.readByte l := by
    intro l
    have e : z.readByte l = (s.setGang c.b c.g (y.takeUp c.m c.pc c.hpc c.hdr)).readByte l := by
      apply State.readByte_of_fields <;> rw [← hz0]
    rw [State.readByte_setGang, State.readByte_charge, State.readByte_modGang, e, State.readByte_setGang]
  have hgs : ∀ b' g', ¬(b' = c.b ∧ g' = c.g) →
      ((((z.modGang c.b c.g f).charge c.x.entry 0 1).setGang c.b c.g Y).gang? b' g').map Prod.snd = (s.gang? b' g').map Prod.snd := by
    intro b' g' hne
    rw [State.gang?_setGang_ne hne, State.gang?_charge, hmod, State.gang?_setGang_ne hne,
      State.gang?_of_fields hzb, State.gang?_setGang_ne hne]
  have hbs : ∀ b', ((((z.modGang c.b c.g f).charge c.x.entry 0 1).setGang c.b c.g Y).block? b').map (fun x => { x with gangs := [] })
      = (s.block? b').map (fun x => { x with gangs := [] }) := by
    intro b'
    rw [State.block?_setGang_rest, State.block?_charge, hmod, State.block?_setGang_rest, State.block?_of_fields hzb,
      State.block?_setGang_rest]
  have hd : DeviceKept s (((z.modGang c.b c.g f).charge c.x.entry 0 1).setGang c.b c.g Y) := by
    constructor <;> simp [← hz0]
  generalize ((z.modGang c.b c.g f).charge c.x.entry 0 1).setGang c.b c.g Y = u at hu hm hgs hbs hd ⊢
  generalize ht : ({ u with issues := s.issues + 1, focus := .idle, progress := true } : State) = t
  have htb : t.blocks = u.blocks := by rw [← ht]
  refine ⟨⟨y, Y, ?_, ?_, hY⟩, ?_, ⟨?_, ?_⟩, ?_⟩
  · simp [State.gangAt, hg]
  · rw [State.gangAt, State.gang?_of_fields htb, hu]; rfl
  · intro l
    rw [← hm l]
    apply State.readByte_of_fields <;> rw [← ht]
  · intro b' g' hne; rw [State.gang?_of_fields htb]; exact hgs b' g' hne
  · intro b'; rw [State.block?_of_fields htb]; exact hbs b'
  · subst ht; exact ⟨hd.work, hd.xlate, hd.outside, hd.time, hd.rest⟩

/-! ### What an issue adds to its effect -/

/-- The gang after an issue: its registers, CSRs and pending words are those its effect left. -/
theorem State.issued_gangAt {s : State} {i : Info} {c : Ctx} {z s2 : State} {y2 : Gang} (next : Bool) (h : s.clears i = some (c, z))
    (h2 : s2.gangAt c = some y2) : ∃ Y, (s.issued i c s2 next).gangAt c = some Y ∧ SameRegs y2 Y := by
  obtain ⟨w, y, hf, hg, hy, hz⟩ := State.clears_ctx h
  unfold State.gangAt at h2
  cases h3 : s2.gang? c.b c.g with
  | none => simp [h3] at h2
  | some p =>
    obtain ⟨x2, y2'⟩ := p
    simp only [h3, Option.map_some, Option.some.injEq] at h2
    subst h2
    have h4 := (State.gang?_charge s2 c.x.entry 0 1 c.b c.g).trans h3
    refine ⟨_, ?_, sameRegs_afterIssue y2' y i c next (s.issues + 1)⟩
    simp only [State.issued, hg, State.modGang_eq _ h4]
    have h5 := State.gang?_setGang_self (y2'.afterIssue y i c next (s.issues + 1)) h4
    simp only [State.gangAt]
    exact (congrArg (Option.map Prod.snd) h5 : _)

theorem State.issued_readByte (s : State) (i : Info) (c : Ctx) (s2 : State) (next : Bool) (l : Loc) :
    (s.issued i c s2 next).readByte l = s2.readByte l := by
  unfold State.issued
  split
  · rfl
  · next x y hg =>
    have e : ∀ u : State, ({ u with issues := s.issues + 1, focus := .idle, progress := true } : State).readByte l = u.readByte l := by
      intro u; apply State.readByte_of_fields <;> rfl
    rw [e]; simp

theorem State.issued_gang_ne (s : State) (i : Info) (c : Ctx) (s2 : State) (next : Bool) {b g : Nat} (h : ¬(b = c.b ∧ g = c.g)) :
    ((s.issued i c s2 next).gang? b g).map Prod.snd = (s2.gang? b g).map Prod.snd := by
  unfold State.issued
  split
  · rfl
  · next x y hg =>
    have e : ∀ u : State, ({ u with issues := s.issues + 1, focus := .idle, progress := true } : State).gang? b g = u.gang? b g := by
      intro u; exact State.gang?_of_fields rfl _ _
    rw [e]
    unfold State.modGang
    split
    · rw [State.gang?_setGang_ne h, State.gang?_charge]
    · rw [State.gang?_charge]

theorem State.issued_block (s : State) (i : Info) (c : Ctx) (s2 : State) (next : Bool) (b : Nat) :
    ((s.issued i c s2 next).block? b).map (fun x => { x with gangs := [] }) = (s2.block? b).map (fun x => { x with gangs := [] }) := by
  unfold State.issued
  split
  · rfl
  · next x y hg =>
    have e : ∀ u : State, ({ u with issues := s.issues + 1, focus := .idle, progress := true } : State).block? b = u.block? b := by
      intro u; exact State.block?_of_fields rfl _
    rw [e]
    unfold State.modGang
    split
    · rw [State.block?_setGang_rest, State.block?_charge]
    · rw [State.block?_charge]

@[simp] theorem State.issued_agenda (s : State) (i : Info) (c : Ctx) (s2 : State) (n : Bool) : (s.issued i c s2 n).agenda = s2.agenda := by
  unfold State.issued; split <;> simp
@[simp] theorem State.issued_input (s : State) (i : Info) (c : Ctx) (s2 : State) (n : Bool) : (s.issued i c s2 n).input = s2.input := by
  unfold State.issued; split <;> simp
@[simp] theorem State.issued_fresh (s : State) (i : Info) (c : Ctx) (s2 : State) (n : Bool) : (s.issued i c s2 n).fresh = s2.fresh := by
  unfold State.issued; split <;> simp
@[simp] theorem State.issued_nextId (s : State) (i : Info) (c : Ctx) (s2 : State) (n : Bool) : (s.issued i c s2 n).nextId = s2.nextId := by
  unfold State.issued; split <;> simp
@[simp] theorem State.issued_trapQ (s : State) (i : Info) (c : Ctx) (s2 : State) (n : Bool) : (s.issued i c s2 n).trapQ = s2.trapQ := by
  unfold State.issued; split <;> simp
@[simp] theorem State.issued_discards (s : State) (i : Info) (c : Ctx) (s2 : State) (n : Bool) : (s.issued i c s2 n).discards = s2.discards := by
  unfold State.issued; split <;> simp
@[simp] theorem State.issued_aborts (s : State) (i : Info) (c : Ctx) (s2 : State) (n : Bool) : (s.issued i c s2 n).aborts = s2.aborts := by
  unfold State.issued; split <;> simp
@[simp] theorem State.issued_overruns (s : State) (i : Info) (c : Ctx) (s2 : State) (n : Bool) : (s.issued i c s2 n).overruns = s2.overruns := by
  unfold State.issued; split <;> simp
@[simp] theorem State.issued_ops (s : State) (i : Info) (c : Ctx) (s2 : State) (n : Bool) : (s.issued i c s2 n).ops = s2.ops := by
  unfold State.issued; split <;> simp
@[simp] theorem State.issued_subs (s : State) (i : Info) (c : Ctx) (s2 : State) (n : Bool) : (s.issued i c s2 n).subs = s2.subs := by
  unfold State.issued; split <;> simp
@[simp] theorem State.issued_recs (s : State) (i : Info) (c : Ctx) (s2 : State) (n : Bool) : (s.issued i c s2 n).recs = s2.recs := by
  unfold State.issued; split <;> simp
@[simp] theorem State.issued_moved (s : State) (i : Info) (c : Ctx) (s2 : State) (n : Bool) : (s.issued i c s2 n).moved = s2.moved := by
  unfold State.issued; split <;> simp
@[simp] theorem State.issued_lockWaits (s : State) (i : Info) (c : Ctx) (s2 : State) (n : Bool) : (s.issued i c s2 n).lockWaits = s2.lockWaits := by
  unfold State.issued; split <;> simp
@[simp] theorem State.issued_binds (s : State) (i : Info) (c : Ctx) (s2 : State) (n : Bool) : (s.issued i c s2 n).binds = s2.binds := by
  unfold State.issued; split <;> simp
@[simp] theorem State.issued_cbars (s : State) (i : Info) (c : Ctx) (s2 : State) (n : Bool) : (s.issued i c s2 n).cbars = s2.cbars := by
  unfold State.issued; split <;> simp
@[simp] theorem State.issued_tunCache (s : State) (i : Info) (c : Ctx) (s2 : State) (n : Bool) : (s.issued i c s2 n).tunCache = s2.tunCache := by
  unfold State.issued; split <;> simp
@[simp] theorem State.issued_quarantined (s : State) (i : Info) (c : Ctx) (s2 : State) (n : Bool) : (s.issued i c s2 n).quarantined = s2.quarantined := by
  unfold State.issued; split <;> simp
@[simp] theorem State.issued_ctxbase (s : State) (i : Info) (c : Ctx) (s2 : State) (n : Bool) : (s.issued i c s2 n).ctxbase = s2.ctxbase := by
  unfold State.issued; split <;> simp
@[simp] theorem State.issued_apq (s : State) (i : Info) (c : Ctx) (s2 : State) (n : Bool) : (s.issued i c s2 n).apq = s2.apq := by
  unfold State.issued; split <;> simp
@[simp] theorem State.issued_hbm (s : State) (i : Info) (c : Ctx) (s2 : State) (n : Bool) : (s.issued i c s2 n).hbm = s2.hbm := by
  unfold State.issued; split <;> simp
@[simp] theorem State.issued_tun (s : State) (i : Info) (c : Ctx) (s2 : State) (n : Bool) : (s.issued i c s2 n).tun = s2.tun := by
  unfold State.issued; split <;> simp
@[simp] theorem State.issued_lender (s : State) (i : Info) (c : Ctx) (s2 : State) (n : Bool) : (s.issued i c s2 n).lender = s2.lender := by
  unfold State.issued; split <;> simp
@[simp] theorem State.issued_host (s : State) (i : Info) (c : Ctx) (s2 : State) (n : Bool) : (s.issued i c s2 n).host = s2.host := by
  unfold State.issued; split <;> simp
@[simp] theorem State.issued_spaces (s : State) (i : Info) (c : Ctx) (s2 : State) (n : Bool) : (s.issued i c s2 n).spaces = s2.spaces := by
  unfold State.issued; split <;> simp
@[simp] theorem State.issued_roots (s : State) (i : Info) (c : Ctx) (s2 : State) (n : Bool) : (s.issued i c s2 n).roots = s2.roots := by
  unfold State.issued; split <;> simp
@[simp] theorem State.issued_tlb (s : State) (i : Info) (c : Ctx) (s2 : State) (n : Bool) : (s.issued i c s2 n).tlb = s2.tlb := by
  unfold State.issued; split <;> simp
@[simp] theorem State.issued_nodeCache (s : State) (i : Info) (c : Ctx) (s2 : State) (n : Bool) : (s.issued i c s2 n).nodeCache = s2.nodeCache := by
  unfold State.issued; split <;> simp
@[simp] theorem State.issued_memsz (s : State) (i : Info) (c : Ctx) (s2 : State) (n : Bool) : (s.issued i c s2 n).memsz = s2.memsz := by
  unfold State.issued; split <;> simp
@[simp] theorem State.issued_prot (s : State) (i : Info) (c : Ctx) (s2 : State) (n : Bool) : (s.issued i c s2 n).prot = s2.prot := by
  unfold State.issued; split <;> simp
@[simp] theorem State.issued_faults (s : State) (i : Info) (c : Ctx) (s2 : State) (n : Bool) : (s.issued i c s2 n).faults = s2.faults := by
  unfold State.issued; split <;> simp
@[simp] theorem State.issued_lineKeys (s : State) (i : Info) (c : Ctx) (s2 : State) (n : Bool) : (s.issued i c s2 n).lineKeys = s2.lineKeys := by
  unfold State.issued; split <;> simp
@[simp] theorem State.issued_lineCtrs (s : State) (i : Info) (c : Ctx) (s2 : State) (n : Bool) : (s.issued i c s2 n).lineCtrs = s2.lineCtrs := by
  unfold State.issued; split <;> simp
@[simp] theorem State.issued_leases (s : State) (i : Info) (c : Ctx) (s2 : State) (n : Bool) : (s.issued i c s2 n).leases = s2.leases := by
  unfold State.issued; split <;> simp
@[simp] theorem State.issued_lends (s : State) (i : Info) (c : Ctx) (s2 : State) (n : Bool) : (s.issued i c s2 n).lends = s2.lends := by
  unfold State.issued; split <;> simp
@[simp] theorem State.issued_poison (s : State) (i : Info) (c : Ctx) (s2 : State) (n : Bool) : (s.issued i c s2 n).poison = s2.poison := by
  unfold State.issued; split <;> simp
@[simp] theorem State.issued_noticeQ (s : State) (i : Info) (c : Ctx) (s2 : State) (n : Bool) : (s.issued i c s2 n).noticeQ = s2.noticeQ := by
  unfold State.issued; split <;> simp
@[simp] theorem State.issued_fe (s : State) (i : Info) (c : Ctx) (s2 : State) (n : Bool) : (s.issued i c s2 n).fe = s2.fe := by
  unfold State.issued; split <;> simp
@[simp] theorem State.issued_trapRings (s : State) (i : Info) (c : Ctx) (s2 : State) (n : Bool) : (s.issued i c s2 n).trapRings = s2.trapRings := by
  unfold State.issued; split <;> simp
@[simp] theorem State.issued_bar2 (s : State) (i : Info) (c : Ctx) (s2 : State) (n : Bool) : (s.issued i c s2 n).bar2 = s2.bar2 := by
  unfold State.issued; split <;> simp
@[simp] theorem State.issued_keys (s : State) (i : Info) (c : Ctx) (s2 : State) (n : Bool) : (s.issued i c s2 n).keys = s2.keys := by
  unfold State.issued; split <;> simp
@[simp] theorem State.issued_measures (s : State) (i : Info) (c : Ctx) (s2 : State) (n : Bool) : (s.issued i c s2 n).measures = s2.measures := by
  unfold State.issued; split <;> simp
@[simp] theorem State.issued_devid (s : State) (i : Info) (c : Ctx) (s2 : State) (n : Bool) : (s.issued i c s2 n).devid = s2.devid := by
  unfold State.issued; split <;> simp
@[simp] theorem State.issued_downPorts (s : State) (i : Info) (c : Ctx) (s2 : State) (n : Bool) : (s.issued i c s2 n).downPorts = s2.downPorts := by
  unfold State.issued; split <;> simp
@[simp] theorem State.issued_ats (s : State) (i : Info) (c : Ctx) (s2 : State) (n : Bool) : (s.issued i c s2 n).ats = s2.ats := by
  unfold State.issued; split <;> simp
@[simp] theorem State.issued_hot (s : State) (i : Info) (c : Ctx) (s2 : State) (n : Bool) : (s.issued i c s2 n).hot = s2.hot := by
  unfold State.issued; split <;> simp
@[simp] theorem State.issued_fatal (s : State) (i : Info) (c : Ctx) (s2 : State) (n : Bool) : (s.issued i c s2 n).fatal = s2.fatal := by
  unfold State.issued; split <;> simp
@[simp] theorem State.issued_spares (s : State) (i : Info) (c : Ctx) (s2 : State) (n : Bool) : (s.issued i c s2 n).spares = s2.spares := by
  unfold State.issued; split <;> simp
@[simp] theorem State.issued_handover (s : State) (i : Info) (c : Ctx) (s2 : State) (n : Bool) : (s.issued i c s2 n).handover = s2.handover := by
  unfold State.issued; split <;> simp
@[simp] theorem State.issued_mbox (s : State) (i : Info) (c : Ctx) (s2 : State) (n : Bool) : (s.issued i c s2 n).mbox = s2.mbox := by
  unfold State.issued; split <;> simp
@[simp] theorem State.issued_bbox (s : State) (i : Info) (c : Ctx) (s2 : State) (n : Bool) : (s.issued i c s2 n).bbox = s2.bbox := by
  unfold State.issued; split <;> simp
@[simp] theorem State.issued_elog (s : State) (i : Info) (c : Ctx) (s2 : State) (n : Bool) : (s.issued i c s2 n).elog = s2.elog := by
  unfold State.issued; split <;> simp
@[simp] theorem State.issued_reply (s : State) (i : Info) (c : Ctx) (s2 : State) (n : Bool) : (s.issued i c s2 n).reply = s2.reply := by
  unfold State.issued; split <;> simp
@[simp] theorem State.issued_inherits (s : State) (i : Info) (c : Ctx) (s2 : State) (n : Bool) : (s.issued i c s2 n).inherits = s2.inherits := by
  unfold State.issued; split <;> simp
@[simp] theorem State.issued_identity (s : State) (i : Info) (c : Ctx) (s2 : State) (n : Bool) : (s.issued i c s2 n).identity = s2.identity := by
  unfold State.issued; split <;> simp
@[simp] theorem State.issued_booted (s : State) (i : Info) (c : Ctx) (s2 : State) (n : Bool) : (s.issued i c s2 n).booted = s2.booted := by
  unfold State.issued; split <;> simp
@[simp] theorem State.issued_ended (s : State) (i : Info) (c : Ctx) (s2 : State) (n : Bool) : (s.issued i c s2 n).ended = s2.ended := by
  unfold State.issued; split <;> simp
@[simp] theorem State.issued_swz (s : State) (i : Info) (c : Ctx) (s2 : State) (n : Bool) : (s.issued i c s2 n).swz = s2.swz := by
  unfold State.issued; split <;> simp
@[simp] theorem State.issued_repair (s : State) (i : Info) (c : Ctx) (s2 : State) (n : Bool) : (s.issued i c s2 n).repair = s2.repair := by
  unfold State.issued; split <;> simp
@[simp] theorem State.issued_sent (s : State) (i : Info) (c : Ctx) (s2 : State) (n : Bool) : (s.issued i c s2 n).sent = s2.sent := by
  unfold State.issued; split <;> simp
@[simp] theorem State.issued_cyc (s : State) (i : Info) (c : Ctx) (s2 : State) (n : Bool) : (s.issued i c s2 n).cyc = s2.cyc := by
  unfold State.issued; split <;> simp
@[simp] theorem State.issued_fcyc (s : State) (i : Info) (c : Ctx) (s2 : State) (n : Bool) : (s.issued i c s2 n).fcyc = s2.fcyc := by
  unfold State.issued; split <;> simp

end Sys2Proof.Machine
end

