-- ==== Sys2Proof/Laws/Operands.lean ====
section
/-! SUPPORT. Laws of the register words: what `aluWord` comes to, once for all of them. -/

namespace Sys2Proof.Machine

/-! ### One result -/

@[simp] theorem RegWrite.apply_getV_ne (w : RegWrite) (lat : Nat) (pc : Va) (y : Gang) (n : Nat) (h : w.ref ≠ .v n) :
    (w.apply lat pc y).getV n = y.getV n ∧ (w.apply lat pc y).getT n = y.getT n := by
  cases w with
  | v k m val tag =>
    have hk : ¬(n = k ∧ k < 64) := fun e => h (by rw [RegWrite.ref, e.1])
    have h1 := Gang.getV_setV y k n m val tag
    have h2 := Gang.getT_setV y k n m val tag
    rw [if_neg hk] at h1 h2
    exact ⟨h1, h2⟩
  | s k a => exact ⟨Gang.getV_setS y k n a, Gang.getT_setS y k n a⟩
  | k k a => exact ⟨Gang.getV_setK y k n a, Gang.getT_setK y k n a⟩
  | kl k m a => exact ⟨Gang.getV_setK y k n _, Gang.getT_setK y k n _⟩

theorem RegWrite.apply_getS_ne (w : RegWrite) (lat : Nat) (pc : Va) (y : Gang) (n : Nat) (h : w.ref ≠ .s n) :
    (w.apply lat pc y).getS n = y.getS n := by
  cases w with
  | v k m val tag => exact Gang.getS_setV y k n m val tag
  | s k a =>
    have hk : ¬(n = k ∧ 0 < k ∧ k < 32) := fun e => h (by rw [RegWrite.ref, e.1])
    exact (Gang.getS_setS y k n a).trans (if_neg hk)
  | k k a => exact Gang.getS_setK y k n a
  | kl k m a => exact Gang.getS_setK y k n _

theorem RegWrite.apply_getK_ne (w : RegWrite) (lat : Nat) (pc : Va) (y : Gang) (n : Nat) (h : w.ref ≠ .k n) :
    (w.apply lat pc y).getK n = y.getK n := by
  cases w with
  | v k m val tag => exact Gang.getK_setV y k n m val tag
  | s k a => exact Gang.getK_setS y k n a
  | k k a =>
    have hk : ¬(n = k ∧ 0 < k ∧ k < 12) := fun e => h (by rw [RegWrite.ref, e.1])
    exact (Gang.getK_setK y k n a).trans (if_neg hk)
  | kl k m a =>
    have hk : ¬(n = k ∧ 0 < k ∧ k < 12) := fun e => h (by rw [RegWrite.ref, e.1])
    exact (Gang.getK_setK y k n _).trans (if_neg hk)

/-- The registers that a result can be for. -/
def RegWrite.inRange (w : RegWrite) : Prop :=
  match w with
  | .v n _ _ _ => n < 64
  | .s n _ => n < 32
  | .k n _ => n < 12
  | .kl n _ _ => n < 12

theorem RegWrite.apply_landed (w : RegWrite) (lat : Nat) (pc : Va) (y : Gang) (h : w.inRange) : w.landed y (w.apply lat pc y) := by
  cases w with
  | v n m val tag =>
    intro l hl
    have h1 := Gang.getV_setV y n n m val tag
    have h2 := Gang.getT_setV y n n m val tag
    rw [if_pos ⟨rfl, h⟩] at h1 h2
    have e1 : (RegWrite.apply (.v n m val tag) lat pc y).getV n = blend m val (y.getV n) := h1
    have e2 : (RegWrite.apply (.v n m val tag) lat pc y).getT n = blend m tag (y.getT n) := h2
    constructor
    · rw [← blend_get m val (y.getV n) l hl]; simp [e1]
    · rw [← blend_get m tag (y.getT n) l hl]; simp [e2]
  | s n a =>
    refine (Gang.getS_setS y n n a).trans ?_
    by_cases h0 : 0 < n ∧ n < 32
    · simp [h0]
    · simp [h0, Gang.getS]
  | k n a =>
    refine (Gang.getK_setK y n n a).trans ?_
    simp
  | kl n m a =>
    refine (Gang.getK_setK y n n _).trans ?_
    simp

/-- The other parts of a gang that a result leaves alone. -/
theorem RegWrite.apply_rest (w : RegWrite) (lat : Nat) (pc : Va) (y : Gang) :
    (w.apply lat pc y).d = y.d ∧ (w.apply lat pc y).frm = y.frm ∧ (w.apply lat pc y).fflags = y.fflags ∧
    (w.apply lat pc y).fexc = y.fexc ∧ (w.apply lat pc y).seed = y.seed ∧ (w.apply lat pc y).x = y.x ∧
    (w.apply lat pc y).fair = y.fair ∧ (w.apply lat pc y).check = y.check ∧ (w.apply lat pc y).ssp = y.ssp ∧
    (w.apply lat pc y).cspb = y.cspb ∧ (w.apply lat pc y).cspl = y.cspl ∧ (w.apply lat pc y).trap = y.trap ∧
    (w.apply lat pc y).bpc = y.bpc ∧ (w.apply lat pc y).dbgctl = y.dbgctl ∧ (w.apply lat pc y).handler = y.handler ∧
    (w.apply lat pc y).sys = y.sys ∧ (w.apply lat pc y).calls = y.calls := by
  cases w with
  | v n m val tag => by_cases h : n < 64 <;> simp [RegWrite.apply, Gang.setV, h, Gang.calls]
  | s n a => by_cases h : 0 < n ∧ n < 32 <;> simp [RegWrite.apply, Gang.setS, h, Gang.calls]
  | k n a => by_cases h : 0 < n ∧ n < 12 <;> simp [RegWrite.apply, Gang.setK, h, Gang.calls]
  | kl n m a => by_cases h : 0 < n ∧ n < 12 <;> simp [RegWrite.apply, Gang.setK, h, Gang.calls]

/-! ### All results of a word -/

/-- Two gangs hold the same in one register. -/
def sameReg (y z : Gang) (r : RegRef) : Prop :=
  match r with
  | .v n => z.getV n = y.getV n ∧ z.getT n = y.getT n
  | .s n => z.getS n = y.getS n
  | .k n => z.getK n = y.getK n

theorem RegWrite.apply_sameReg (w : RegWrite) (lat : Nat) (pc : Va) (y : Gang) (r : RegRef) (h : w.ref ≠ r) :
    sameReg y (w.apply lat pc y) r := by
  cases r with
  | v n => exact RegWrite.apply_getV_ne w lat pc y n h
  | s n => exact RegWrite.apply_getS_ne w lat pc y n h
  | k n => exact RegWrite.apply_getK_ne w lat pc y n h

theorem RegWrite.landed_of_before {w : RegWrite} {y y' z : Gang} (h : sameReg y y' w.ref) (hl : w.landed y' z) : w.landed y z := by
  cases w with
  | v n m val tag => obtain ⟨h1, h2⟩ := h; simpa [RegWrite.landed, h1, h2] using hl
  | s n a => exact hl
  | k n a => have h' : y'.getK n = y.getK n := h; simpa [RegWrite.landed, h'] using hl
  | kl n m a => have h' : y'.getK n = y.getK n := h; simpa [RegWrite.landed, h'] using hl

theorem RegWrite.landed_of_after {w : RegWrite} {y z z' : Gang} (h : sameReg z z' w.ref) (hl : w.landed y z) : w.landed y z' := by
  cases w with
  | v n m val tag => obtain ⟨h1, h2⟩ := h; simpa [RegWrite.landed, h1, h2] using hl
  | s n a => have h' : z'.getS n = z.getS n := h; simpa [RegWrite.landed, h'] using hl
  | k n a => have h' : z'.getK n = z.getK n := h; simpa [RegWrite.landed, h'] using hl
  | kl n m a => have h' : z'.getK n = z.getK n := h; simpa [RegWrite.landed, h'] using hl

theorem sameReg_trans {x y z : Gang} {r : RegRef} (h1 : sameReg x y r) (h2 : sameReg y z r) : sameReg x z r := by
  cases r with
  | v n => exact ⟨h2.1.trans h1.1, h2.2.trans h1.2⟩
  | s n => exact Eq.trans h2 h1
  | k n => exact Eq.trans h2 h1

theorem sameReg_writeAll (ws : List RegWrite) (lat : Nat) (pc : Va) (y : Gang) (r : RegRef) (h : ∀ w ∈ ws, w.ref ≠ r) :
    sameReg y (y.writeAll ws lat pc) r := by
  induction ws generalizing y with
  | nil => cases r <;> simp [sameReg, Gang.writeAll]
  | cons w t ih =>
    exact sameReg_trans (RegWrite.apply_sameReg w lat pc y r (h w (by simp))) (ih _ fun v hv => h v (by simp [hv]))

/-- Results for different registers all land. -/
theorem landed_writeAll (ws : List RegWrite) (lat : Nat) (pc : Va) (y : Gang) (hr : ∀ w ∈ ws, w.inRange)
    (hd : ws.Pairwise fun a b => a.ref ≠ b.ref) : ∀ w ∈ ws, w.landed y (y.writeAll ws lat pc) := by
  induction ws generalizing y with
  | nil => simp
  | cons w t ih =>
    rw [List.pairwise_cons] at hd
    intro v hv
    rcases List.mem_cons.mp hv with rfl | hv
    · exact RegWrite.landed_of_after (sameReg_writeAll t lat pc _ _ fun u hu => (hd.1 u hu).symm)
        (RegWrite.apply_landed _ lat pc y (hr _ (by simp)))
    · exact RegWrite.landed_of_before (RegWrite.apply_sameReg w lat pc y v.ref (hd.1 v hv))
        (ih _ (fun u hu => hr u (by simp [hu])) hd.2 v hv)

theorem Gang.writeAll_rest (ws : List RegWrite) (lat : Nat) (pc : Va) (y : Gang) :
    (y.writeAll ws lat pc).d = y.d ∧ (y.writeAll ws lat pc).frm = y.frm ∧ (y.writeAll ws lat pc).fflags = y.fflags ∧
    (y.writeAll ws lat pc).fexc = y.fexc ∧ (y.writeAll ws lat pc).seed = y.seed ∧ (y.writeAll ws lat pc).x = y.x ∧
    (y.writeAll ws lat pc).fair = y.fair ∧ (y.writeAll ws lat pc).check = y.check ∧ (y.writeAll ws lat pc).ssp = y.ssp ∧
    (y.writeAll ws lat pc).cspb = y.cspb ∧ (y.writeAll ws lat pc).cspl = y.cspl ∧ (y.writeAll ws lat pc).trap = y.trap ∧
    (y.writeAll ws lat pc).bpc = y.bpc ∧ (y.writeAll ws lat pc).dbgctl = y.dbgctl ∧ (y.writeAll ws lat pc).handler = y.handler ∧
    (y.writeAll ws lat pc).sys = y.sys ∧ (y.writeAll ws lat pc).calls = y.calls := by
  induction ws generalizing y with
  | nil => simp [Gang.writeAll]
  | cons w t ih =>
    have h1 := RegWrite.apply_rest w lat pc y
    have h2 := ih (w.apply lat pc y)
    have e : y.writeAll (w :: t) lat pc = (w.apply lat pc y).writeAll t lat pc := rfl
    rw [e]
    simp only [h1, h2, and_self]

/-- A register word whose checks pass and whose function answers: it issues, its results land, and nothing else changes. -/
theorem aluWord_writes {s : State} {i : Info} {c : Ctx} {z : State} {lat : Nat} {f : Ctx → Except Trap RegOut} {o : RegOut}
    (h : s.clears i = some (c, z)) (ho : f c = .ok o) (hx : fpxTrap c.m o.flags c.y.fexc = none) (hr : ∀ w ∈ o.writes, w.inRange)
    (hd : o.writes.Pairwise fun a b => a.ref ≠ b.ref) :
    ∃ t, aluWord i lat f s = .next t ∧ Writes s t c o.writes (flagsOr c.m o.flags) o.x := by
  have he : regEff lat f c z = .done (z.modGang c.b c.g fun y => y.regOut o lat c.pc c.m) true := by simp [regEff, ho, hx]
  refine ⟨_, issueWord_done h he, ?_⟩
  obtain ⟨⟨y, y', h1, h2, h3⟩, hm, hb, hdv⟩ := State.issued_modGang h (fun y => y.regOut o lat c.pc c.m) true
  refine ⟨⟨y, y', h1, h2, ?_⟩, hm, hb, hdv⟩
  have hT := sameRegs_takeUp y c.m c.pc c.hpc c.hdr
  have hX := State.clears_x h h1
  generalize y.takeUp c.m c.pc c.hpc c.hdr = y1 at hT h3 hX
  have hk := h3.kept
  have hk1 := hT.kept
  have hrest := Gang.writeAll_rest o.writes lat c.pc y1
  have ev : ∀ r, sameReg (y1.writeAll o.writes lat c.pc) (y1.regOut o lat c.pc c.m) r := by
    intro r; cases r <;> simp [sameReg, Gang.regOut, Gang.getV, Gang.getT, Gang.getS, Gang.getK]
  have ek : ∀ r, sameReg (y1.regOut o lat c.pc c.m) y' r := by
    intro r
    cases r with
    | v n => exact hk.v n (by simp)
    | s n => exact hk.s n (by simp)
    | k n => exact hk.k n (by simp)
  have ey : ∀ r, sameReg y y1 r := by
    intro r
    cases r with
    | v n => exact hk1.v n (by simp)
    | s n => exact hk1.s n (by simp)
    | k n => exact hk1.k n (by simp)
  have eall : ∀ r, (∀ w ∈ o.writes, w.ref ≠ r) → sameReg y y' r := fun r hne =>
    sameReg_trans (ey r) (sameReg_trans (sameReg_writeAll _ lat c.pc y1 r hne) (sameReg_trans (ev r) (ek r)))
  refine ⟨?_, ⟨?_, ?_, ?_, ?_, ?_, ?_, ?_⟩, ?_, ?_, ?_⟩
  · intro w hw
    exact RegWrite.landed_of_before (ey _) (RegWrite.landed_of_after (sameReg_trans (ev _) (ek _)) (landed_writeAll _ lat c.pc y1 hr hd w hw))
  · intro n hn
    refine eall (.v n) fun w hw e => hn ?_
    have hb64 : n < 64 := by have := hr w hw; cases w <;> simp_all [RegWrite.ref, RegWrite.inRange]
    simp only [List.mem_filter, List.mem_range, List.contains_eq_mem, List.mem_map, decide_eq_true_eq]
    exact ⟨hb64, w, hw, e⟩
  · intro n hn
    refine eall (.s n) fun w hw e => hn ?_
    have hb64 : n < 32 := by have := hr w hw; cases w <;> simp_all [RegWrite.ref, RegWrite.inRange]
    simp only [List.mem_filter, List.mem_range, List.contains_eq_mem, List.mem_map, decide_eq_true_eq]
    exact ⟨hb64, w, hw, e⟩
  · intro n hn
    refine eall (.k n) fun w hw e => hn ?_
    have hb64 : n < 12 := by have := hr w hw; cases w <;> simp_all [RegWrite.ref, RegWrite.inRange]
    simp only [List.mem_filter, List.mem_range, List.contains_eq_mem, List.mem_map, decide_eq_true_eq]
    exact ⟨hb64, w, hw, e⟩
  all_goals
    obtain ⟨⟨_, _⟩, ⟨_, _, _⟩, ⟨_, _, _, _, -, _, _⟩, ⟨_, _, _⟩, ⟨_, _, _, _, _⟩, hl, _⟩ := hT
    have hl : y1.calls = y.calls := hl
    obtain ⟨⟨_, _⟩, ⟨_, _, _⟩, ⟨_, _, _, _, _, _, _⟩, ⟨_, _, _⟩, ⟨_, _, _, _, _⟩, _, _⟩ := h3
    have hc : (y1.regOut o lat c.pc c.m).calls = (y1.writeAll o.writes lat c.pc).calls := rfl
    simp_all [Gang.regOut]

/-! ### Words without flags -/

theorem mem_lanesOf (m : Word) (l : Nat) : l ∈ lanesOf m ↔ m.getLsbD l = true := by
  simp only [lanesOf, List.mem_filter, List.mem_range]
  exact ⟨fun h => h.2, fun h => ⟨by by_contra hn; rw [BitVec.getLsbD_of_ge m l (by omega)] at h; exact Bool.false_ne_true h, h⟩⟩

/-- The lane-by-lane check passes when no active lane fails it. -/
theorem firstLane_ok {m : Word} {chk : Nat → Option Trap} (h : ∀ l, m.getLsbD l = true → chk l = none) : firstLane m chk = .ok () := by
  have : (lanesOf m).findSome? chk = none := by
    rw [List.findSome?_eq_none_iff]; intro l hl; exact h l ((mem_lanesOf m l).mp hl)
  simp [firstLane, this]

/-- What follows the lane-by-lane check is come to when no active lane fails it. -/
theorem firstLane_bind {α : Type} {m : Word} {chk : Nat → Option Trap} (h : ∀ l, m.getLsbD l = true → chk l = none) (k : Except Trap α) :
    (firstLane m chk >>= fun _ => k) = k := by rw [firstLane_ok h]; rfl

/-- The bits of a mask. -/
theorem getLsbD_maskOf (p : Nat → Bool) (l : Nat) : (maskOf p).getLsbD l = (decide (l < 32) && p l) := by
  have key : ∀ n, (List.range n).foldl (fun a l => if p l then a + 2 ^ l else a) 0 < 2 ^ n ∧
      ∀ l, Nat.testBit ((List.range n).foldl (fun a l => if p l then a + 2 ^ l else a) 0) l = (decide (l < n) && p l) := by
    intro n
    induction n with
    | zero => exact ⟨by simp, fun l => by simp⟩
    | succ n ih =>
      obtain ⟨h1, h2⟩ := ih
      rw [List.range_succ, List.foldl_append]
      simp only [List.foldl_cons, List.foldl_nil]
      generalize (List.range n).foldl (fun a l => if p l then a + 2 ^ l else a) 0 = x at h1 h2
      have hp : 2 ^ (n + 1) = 2 ^ n + 2 ^ n := by omega
      constructor
      · split <;> omega
      · intro l
        by_cases hl : l < n
        · split
          · rw [Nat.add_comm, Nat.testBit_two_pow_add_gt hl, h2]; simp [hl, Nat.lt_succ_of_lt hl]
          · rw [h2]; simp [hl, Nat.lt_succ_of_lt hl]
        · by_cases he : l = n
          · subst he
            have h0 : x.testBit l = false := by rw [h2]; simp
            split
            · next hpl => rw [Nat.add_comm, Nat.testBit_two_pow_add_eq, h0]; simp [hpl]
            · next hpl => rw [h0]; simp [hpl]
          · have h3 : ¬l < n + 1 := by omega
            have hlt : ∀ y, y < 2 ^ (n + 1) → y.testBit l = false := fun y hy =>
              Nat.testBit_lt_two_pow (Nat.lt_of_lt_of_le hy (Nat.pow_le_pow_right (by decide) (by omega)))
            simp only [h3, decide_false, Bool.false_and]
            split <;> exact hlt _ (by omega)
  rw [maskOf, BitVec.getLsbD_ofNat, (key 32).2 l]
  by_cases h : l < 32 <;> simp [h]

@[simp] theorem flagsOr_zero (m : Word) : flagsOr m (fun _ => 0#5) = 0#5 := by
  unfold flagsOr
  generalize lanesOf m = l
  induction l with
  | nil => rfl
  | cons a r ih => simp

@[simp] theorem fpxTrap_zero (m fexc : Word) : fpxTrap m (fun _ => 0#5) fexc = none := by
  simp [fpxTrap, List.find?_eq_none]

/-- A register word that raises no flag. -/
theorem aluWord_plain {s : State} {i : Info} {c : Ctx} {z : State} {lat : Nat} {f : Ctx → Except Trap RegOut} {ws : List RegWrite}
    (h : s.clears i = some (c, z)) (ho : f c = .ok { writes := ws }) (hr : ∀ w ∈ ws, w.inRange)
    (hd : ws.Pairwise fun a b => a.ref ≠ b.ref) : ∃ t, aluWord i lat f s = .next t ∧ Writes s t c ws 0 none := by
  have := aluWord_writes (lat := lat) h ho (by simp) hr hd
  simpa using this

/-- A register word that writes one V register. -/
theorem aluWord_v {s : State} {i : Info} {c : Ctx} {z : State} {lat : Nat} {f : Ctx → Except Trap RegOut} {vd : BitVec 6} {m : Word}
    {val : Nat → Word} {tag : Nat → BitVec 5} (h : s.clears i = some (c, z)) (ho : f c = vout vd m val tag) :
    ∃ t, aluWord i lat f s = .next t ∧ Writes s t c [.v vd.toNat m (lanes val) (tags tag)] 0 none :=
  aluWord_plain h ho (by simp [RegWrite.inRange]; exact vd.isLt) (by simp)

/-- FPX is not raised when no lane of the word raises a flag that is enabled. -/
theorem fpxTrap_none {m : Word} {fl : Nat → FlagSet} {fexc : Word} (h : ∀ l, m.getLsbD l = true → fl l &&& fexc.extractLsb' 0 5 = 0#5) :
    fpxTrap m fl fexc = none := by
  simp only [fpxTrap, Option.map_eq_none_iff, List.find?_eq_none]
  intro l hl
  simp [h l ((mem_lanesOf m l).mp hl)]

/-- A word that rounds elements, once for all of them. -/
theorem rounds_of {i : Instr} {info : Info} {lat : Nat} {f : Ctx → Except Trap RegOut} {vd : BitVec 6} {m : Ctx → Word} {rm : Ctx → Rm}
    {ok : Ctx → Prop} {cnt : Ctx → Nat → Nat} {res : Ctx → Nat → Nat → Nat → Rounded} {val : Ctx → Nat → (Nat → Nat) → Word}
    {tag : Ctx → Nat → BitVec 5} (he : ∀ s, exec i s = aluWord info lat f s)
    (hf : ∀ c, ok c → f c = roundOut c vd (m c) (rm c) (cnt c) (res c) (val c) (tag c)) : Rounds i info vd m rm ok cnt res val tag := by
  intro s c z hc hok
  rw [he]
  refine aluWord_writes hc (hf c hok.1) ?_ ?_ ?_
  · apply fpxTrap_none
    intro l hl
    by_cases hm : (m c).getLsbD l = true
    · simp only [hm, if_true]; exact hok.2 l hm
    · simp [hm]
  · intro w hw
    simp only [List.mem_cons, List.not_mem_nil, or_false] at hw
    subst hw
    exact vd.isLt
  · simp

end Sys2Proof.Machine
end

