-- ==== Sys2Proof/Laws/Pending.lean ====
section
/-! SUPPORT. Laws of the words that go pending (R100, R101): what an issue that goes pending comes to. -/

namespace Sys2Proof.Machine

theorem State.charge_withNextId (s : State) (n e c k : Nat) : ({ s with nextId := n } : State).charge e c k = { s.charge e c k with nextId := n } := by
  unfold State.charge State.entry?
  simp only
  split <;> rfl

theorem State.modGang_withNextId (s : State) (n b g : Nat) (f : Gang → Gang) :
    ({ s with nextId := n } : State).modGang b g f = { s.modGang b g f with nextId := n } := by
  have h1 : ({ s with nextId := n } : State).gang? b g = s.gang? b g := State.gang?_of_fields rfl b g
  have h2 : ({ s with nextId := n } : State).block? b = s.block? b := State.block?_of_fields rfl b
  unfold State.modGang
  rw [h1]
  cases s.gang? b g with
  | none => rfl
  | some p =>
    simp only [State.setGang, h2]
    cases s.block? b with
    | none => rfl
    | some x => rfl

theorem State.issued_withNextId (s : State) (i : Info) (c : Ctx) (s2 : State) (next : Bool) (n : Nat) (h : (s.gang? c.b c.g).isSome) :
    s.issued i c { s2 with nextId := n } next = { s.issued i c s2 next with nextId := n } := by
  unfold State.issued
  cases h1 : s.gang? c.b c.g with
  | none => simp [h1] at h
  | some p => simp only [State.charge_withNextId, State.modGang_withNextId]

theorem State.modGang_modGang (s : State) (b g : Nat) (f h : Gang → Gang) : (s.modGang b g f).modGang b g h = s.modGang b g (fun y => h (f y)) := by
  cases hg : s.gang? b g with
  | none => simp [State.modGang, hg]
  | some p =>
    obtain ⟨x, y⟩ := p
    have h1 := State.modGang_eq f hg
    have h2 := State.gang?_setGang_self (f y) hg
    rw [h1, State.modGang_eq h h2, State.modGang_eq (fun y => h (f y)) hg]
    obtain ⟨hx, hy⟩ := State.gang?_block hg
    have hx2 := State.block?_setGang_self (g := g) (f y) hx
    have e1 : ∀ y', s.setGang b g y' = s.setBlock { x with gangs := x.gangs.set g y' } := fun y' => by unfold State.setGang; rw [hx]
    have e2 : ∀ y', (s.setGang b g (f y)).setGang b g y' = (s.setGang b g (f y)).setBlock { x with gangs := x.gangs.set g y' } := fun y' => by
      rw [State.setGang.eq_def (s.setGang b g (f y)), hx2]; simp
    rw [e2, e1, e1]
    simp only [State.setBlock, List.map_map]
    congr 1
    apply List.map_congr_left
    intro a _
    simp only [Function.comp]
    by_cases ha : a.id = x.id <;> simp [ha]

/-- A gang with a word gone pending. -/
def Gang.pendAs (y : Gang) (c : Ctx) (q : Pend) (id : Nat) : Gang :=
  { y with
    pends := y.pends ++ [{ q with id := id, seq := y.seq, pc := c.pc, hpc := c.hpc, hdr := c.hdr, nvl := c.nvl, dc := c.dc,
                                  dst := if c.dc.isSome then q.dst else [],
                                  clobbered := y.writesInFlight (if c.dc.isSome then q.dst else []) }]
    seq := y.seq + 1
    d := counted c.dc y.d }

theorem State.addPend_eq (s : State) (c : Ctx) (q : Pend) :
    s.addPend c q = { s.modGang c.b c.g (fun y => y.pendAs c q s.nextId) with nextId := s.nextId + 1 } := rfl

theorem Gang.writesInFlight_congr {y z : Gang} (h1 : y.flights = z.flights) (h2 : y.clock = z.clock) (d : List (Nat × Tags)) :
    y.writesInFlight d = z.writesInFlight d := by
  simp only [Gang.writesInFlight, Gang.inFlight, h1, h2]

theorem Gang.writesInFlight_flags (y : Gang) (a b : Word) (d : List (Nat × Tags)) :
    Gang.writesInFlight { y with fflags := a, x := b } d = y.writesInFlight d := Gang.writesInFlight_congr rfl rfl d

/-- Being taken up changes nothing of what is in flight. -/
theorem Gang.takeUp_writesInFlight (y : Gang) (m : Word) (pc hpc : Va) (h : Word) (d : List (Nat × Tags)) :
    (y.takeUp m pc hpc h).writesInFlight d = y.writesInFlight d := by
  unfold Gang.takeUp; split
  · exact Gang.writesInFlight_congr (by simp only [Gang.enterRegion, Gang.mapLanes]) (by simp only [Gang.enterRegion, Gang.mapLanes]) d
  · split
    · exact Gang.writesInFlight_congr (by simp only [Gang.reexecute, Gang.mapLanes]) (by simp only [Gang.reexecute, Gang.mapLanes]) d
    · rfl

/-- What a word that goes pending comes to: `f` is what it does to its gang's flags and stochastic state first. -/
theorem pending_of_done {s : State} {info : Info} {c : Ctx} {z : State} {q : Pend} {eff : Ctx → State → Eff} {flags : FlagSet}
    {x : Option Word} (h : s.clears info = some (c, z))
    (he : eff c z = .done { z.modGang c.b c.g (fun y => ({ y with fflags := y.fflags ||| flags.setWidth 32, x := x.getD y.x } : Gang).pendAs c q s.nextId)
      with nextId := s.nextId + 1 } true) :
    ∃ t, issueWord info eff s = .next t ∧ Pending s t c q flags x := by
  refine ⟨_, issueWord_done h he, ?_⟩
  obtain ⟨w, y0, hfo, hg, hy, hz⟩ := State.clears_ctx h
  rw [State.issued_withNextId _ _ _ _ _ _ (by simp [hg])]
  obtain ⟨⟨y, y', h1, h2, h3⟩, hm, hb, hd⟩ := State.issued_modGang h
    (fun y => ({ y with fflags := y.fflags ||| flags.setWidth 32, x := x.getD y.x } : Gang).pendAs c q s.nextId) true
  refine ⟨⟨y, y', h1, h2, ?_⟩, fun l => ?_, ⟨fun b g hne => ?_, fun b => ?_⟩, ?_⟩
  · have hT := sameRegs_takeUp y c.m c.pc c.hpc c.hdr
    have hX := State.clears_x h h1
    have hW := y.takeUp_writesInFlight c.m c.pc c.hpc c.hdr (if c.dc.isSome then q.dst else [])
    generalize y.takeUp c.m c.pc c.hpc c.hdr = y1 at hT h3 hX hW
    have hP := h3.work.1
    have hp1 := hT.work.1
    have hs1 := hT.work.2.1
    simp only [Gang.pendAs, Gang.writesInFlight_flags, hW] at hP
    rw [hp1, hs1] at hP
    obtain ⟨⟨_, _⟩, ⟨_, _, _⟩, ⟨_, _, _, _, -, _, _⟩, ⟨_, _, _⟩, ⟨_, _, _, _, _⟩, h4, _⟩ := hT
    have h4 : y1.calls = y.calls := h4
    obtain ⟨⟨_, _⟩, ⟨_, _, _⟩, ⟨_, _, _, _, _, _, _⟩, ⟨_, _, _⟩, ⟨_, _, _, _, _⟩, h5, _⟩ := h3
    have h6 : y'.calls = y1.calls := h5
    refine ⟨?_, hP, ?_, ?_, ?_, ?_⟩
    · constructor <;> simp_all [Gang.getV, Gang.getT, Gang.getS, Gang.getK, Gang.pendAs]
    all_goals simp_all [Gang.pendAs]
  · exact (State.readByte_of_fields rfl rfl rfl rfl rfl l).trans (hm l)
  · exact (congrArg (Option.map Prod.snd) (State.gang?_of_fields rfl b g)).trans (hb.gangs b g hne)
  · exact (congrArg (Option.map _) (State.block?_of_fields rfl b)).trans (hb.blocks b)
  · exact ⟨hd.work, hd.xlate, hd.outside, hd.time, hd.rest⟩

theorem State.clears_nextId {s : State} {i : Info} {c : Ctx} {z : State} (h : s.clears i = some (c, z)) : z.nextId = s.nextId := by
  obtain ⟨w, y0, hfo, hg, hy, hz⟩ := State.clears_ctx h
  rw [hz]; simp

/-- A word that takes its flags and draws and then goes pending. -/
theorem pending_flags {s : State} {info : Info} {c : Ctx} {z : State} {q : Pend} {eff : Ctx → State → Eff} {flags : FlagSet} {x : Option Word}
    (h : s.clears info = some (c, z))
    (he : eff c z = .done ((z.modGang c.b c.g fun y => { y with fflags := y.fflags ||| flags.setWidth 32, x := x.getD y.x }).addPend c q) true) :
    ∃ t, issueWord info eff s = .next t ∧ Pending s t c q flags x := by
  apply pending_of_done h
  rw [he, State.addPend_eq, State.modGang_modGang]
  simp [State.clears_nextId h]

/-- A word that goes pending and raises no flag. -/
theorem pending_plain {s : State} {info : Info} {c : Ctx} {z : State} {q : Pend} {eff : Ctx → State → Eff}
    (h : s.clears info = some (c, z)) (he : eff c z = .done (z.addPend c q) true) :
    ∃ t, issueWord info eff s = .next t ∧ Pending s t c q 0#5 none := by
  apply pending_of_done h
  rw [he, State.addPend_eq]
  simp [State.clears_nextId h]

/-! ### Statements from effects -/

/-- `Issues` from what the effect comes to. -/
theorem issues_of {i : Instr} {info : Info} {e : Ctx → State → Eff} {ok : Ctx → State → Prop} {eff : Ctx → State → State} {next : Bool}
    (he : ∀ s, exec i s = issueWord info e s) (h : ∀ c z, ok c z → e c z = .done (eff c z) next) : Issues i info ok eff next := by
  intro s c z hc hok; rw [he]; exact issueWord_done hc (h c z hok)

/-- `GoesPending` from what the effect comes to. -/
theorem goesPending_of {i : Instr} {info : Info} {e : Ctx → State → Eff} {ok : Ctx → State → Prop} {q : Ctx → State → Pend}
    (he : ∀ s, exec i s = issueWord info e s) (h : ∀ c z, ok c z → e c z = .done (z.addPend c (q c z)) true) : GoesPending i info ok q := by
  intro s c z hc hok; rw [he]; exact pending_plain hc (h c z hok)

/-- A word that clears its checks and whose effect traps takes its trap. -/
theorem issueWord_trap {s : State} {i : Info} {c : Ctx} {z : State} {eff : Ctx → State → Eff} {t : Trap}
    (h : s.clears i = some (c, z)) (he : eff c z = .trap t) : issueWord i eff s = .next (s.trapped i c t) := by
  unfold State.clears at h
  split at h
  · next b g m pc hpc hdr w nvl hf =>
    split at h
    · next x y hg =>
      simp only [Option.ite_none_left_eq_some, Option.some.injEq, Prod.mk.injEq] at h
      obtain ⟨hn, rfl, rfl⟩ := h
      simp only [Bool.or_eq_true, not_or, Bool.not_eq_true, Option.isSome_eq_false_iff, Option.isNone_iff_eq_none,
        Bool.and_eq_false_imp] at hn
      obtain ⟨⟨⟨⟨h1, h2⟩, h3⟩, h4⟩, h5⟩ := hn
      have h2' : (if y.check.getLsbD 0 = true then y.short (i.reads ++ i.writes) else none) = none := by
        split
        · next hc => exact h2 hc
        · rfl
      unfold issueWord
      simp only [hf, hg, h1, h2', h3, h5, State.trapped]
      unfold counterFull at h4
      rw [if_neg Bool.false_ne_true]
      refine Eq.trans (if_neg ?_) ?_
      · exact fun hc => absurd (h4.symm.trans hc) Bool.false_ne_true
      · rw [he]; rfl
    · simp at h
  · simp at h

/-- `Raises` from what the effect comes to. -/
theorem raises_of {i : Instr} {info : Info} {e : Ctx → State → Eff} {ok : Ctx → State → Prop} {t : Ctx → State → Trap}
    (he : ∀ s, exec i s = issueWord info e s) (h : ∀ c z, ok c z → e c z = .trap (t c z)) : Raises i info ok t := by
  intro s c z hc hok; rw [he]; exact issueWord_trap hc (h c z hok)

end Sys2Proof.Machine
end

