-- ==== Sys2Proof/Certificates/Slice0/Obligations.lean ====
section
/-! DEFINITION. The statements for the provers. -/

open Sys2Proof Sys2Proof.Machine

/-! ### Register words -/

/-- R149: IADD, ISUB, IMIN, IMAX, UMIN, UMAX, IABS and INEG write their result in each active lane, over words where no operand of an
active lane is packed, else over each packed element; every other lane, register and byte is left. -/
def Obligations.IntegerArithWritesEachActiveLane : Prop :=
  (∀ (o : A3) (i : Instr) (op : (w : Nat) → BitVec w → BitVec w → BitVec w),
    (i, op) ∈ ([(.iadd o, fun _ a b => a + b), (.isub o, fun _ a b => a - b), (.imin o, fun _ a b => if a.sle b then a else b),
      (.imax o, fun _ a b => if a.sle b then b else a), (.umin o, fun _ a b => if a.ule b then a else b),
      (.umax o, fun _ a b => if a.ule b then b else a)] : List (Instr × ((w : Nat) → BitVec w → BitVec w → BitVec w))) →
    Completes i (aluInfo o.st o.pk [o.va, o.vb] [o.vd]) (fun c => c.allActive o.pk fun l => isWordTag (c.t o.va l) ∧ isWordTag (c.t o.vb l))
      (fun c => [.v o.vd.toNat (c.active o.pk) (lanes fun l => op 32 (c.v o.va l) (c.v o.vb l))
        (tags fun l => wordTag (c.t o.va l) (c.t o.vb l))]) ∧
    ∀ p : BitVec 5, Completes i (aluInfo o.st o.pk [o.va, o.vb] [o.vd])
      (fun c => packTag (c.active o.pk) (c.t o.va) (c.t o.vb) = some p ∧
        c.allActive o.pk fun l => (c.t o.va l = p ∨ c.t o.va l = tRAW) ∧ (c.t o.vb l = p ∨ c.t o.vb l = tRAW))
      (fun c => [.v o.vd.toNat (c.active o.pk) (lanes fun l => elementwise p op (c.v o.va l) (c.v o.vb l)) (tags fun _ => p)])) ∧
  (∀ (o : A2) (i : Instr) (op : (w : Nat) → BitVec w → BitVec w),
    (i, op) ∈ ([(.iabs o, fun _ a => if a.msb then -a else a), (.ineg o, fun _ a => -a)] : List (Instr × ((w : Nat) → BitVec w → BitVec w))) →
    Completes i (aluInfo o.st o.pk [o.va] [o.vd]) (fun c => c.allActive o.pk fun l => isWordTag (c.t o.va l))
      (fun c => [.v o.vd.toNat (c.active o.pk) (lanes fun l => op 32 (c.v o.va l)) (tags fun l => wordTag (c.t o.va l) tRAW)]) ∧
    ∀ p : BitVec 5, Completes i (aluInfo o.st o.pk [o.va] [o.vd])
      (fun c => packTag (c.active o.pk) (c.t o.va) (fun _ => tRAW) = some p ∧ c.allActive o.pk fun l => c.t o.va l = p ∨ c.t o.va l = tRAW)
      (fun c => [.v o.vd.toNat (c.active o.pk) (lanes fun l => elementwise p (fun w a _ => op w a) (c.v o.va l) 0) (tags fun _ => p)]))

/-- R149, R150: the products take word tags; the bitwise members and the shifts take any tag and keep va's. -/
def Obligations.ProductsBitwiseAndShiftsWriteEachActiveLane : Prop :=
  ∀ (o : A3) (i : Instr) (op : Word → Word → Word),
    ((i, op) ∈ ([(.imul o, fun a b => a * b), (.imulh o, fun a b => ((a.signExtend 64) * (b.signExtend 64)).extractLsb' 32 32),
        (.imulhu o, fun a b => ((a.setWidth 64) * (b.setWidth 64)).extractLsb' 32 32)] : List (Instr × (Word → Word → Word))) →
      Completes i (aluInfo o.st o.pk [o.va, o.vb] [o.vd]) (fun c => c.allActive o.pk fun l => isWordTag (c.t o.va l) ∧ isWordTag (c.t o.vb l))
        (fun c => [.v o.vd.toNat (c.active o.pk) (lanes fun l => op (c.v o.va l) (c.v o.vb l))
          (tags fun l => wordTag (c.t o.va l) (c.t o.vb l))])) ∧
    ((i, op) ∈ ([(.and o, fun a b => a &&& b), (.or o, fun a b => a ||| b), (.xor o, fun a b => a ^^^ b), (.andn o, fun a b => a &&& ~~~b),
        (.orn o, fun a b => a ||| ~~~b), (.shl o, fun a b => a <<< (b.toNat % 32)), (.shr o, fun a b => a >>> (b.toNat % 32)),
        (.sar o, fun a b => a.sshiftRight (b.toNat % 32)), (.rol o, fun a b => a.rotateLeft (b.toNat % 32)),
        (.ror o, fun a b => a.rotateRight (b.toNat % 32))] : List (Instr × (Word → Word → Word))) →
      Completes i (aluInfo o.st o.pk [o.va, o.vb] [o.vd]) (fun _ => True)
        (fun c => [.v o.vd.toNat (c.active o.pk) (lanes fun l => op (c.v o.va l) (c.v o.vb l)) (tags fun l => c.t o.va l)]))

/-- R150, R151: the bit-field members, the counts, the reversals and PRMT write each active lane, with their tags. -/
def Obligations.BitFieldAndCountWordsWriteEachActiveLane : Prop :=
  (∀ o : A3,
    Completes (.bfe o) (aluInfo o.st o.pk [o.va, o.vb] [o.vd]) (fun _ => True)
      (fun c => [.v o.vd.toNat (c.active o.pk) (lanes fun l => bfe (c.v o.va l) (c.v o.vb l)) (tags fun _ => tU32)]) ∧
    Completes (.bfs o) (aluInfo o.st o.pk [o.va, o.vb] [o.vd]) (fun _ => True)
      (fun c => [.v o.vd.toNat (c.active o.pk) (lanes fun l => bfs (c.v o.va l) (c.v o.vb l)) (tags fun _ => tI32)]) ∧
    Completes (.bfi o) (aluInfo o.st o.pk [o.va, o.vb, o.vd] [o.vd]) (fun _ => True)
      (fun c => [.v o.vd.toNat (c.active o.pk) (lanes fun l => bfi (c.v o.vd l) (c.v o.va l) (c.v o.vb l))
        (tags fun l => if c.t o.vd l = tRAW then c.t o.va l else c.t o.vd l)]) ∧
    Completes (.prmt o) (aluInfo o.st o.pk [o.va, o.vb, o.vd] [o.vd]) (fun _ => True)
      (fun c => [.v o.vd.toNat (c.active o.pk) (lanes fun l => prmt (c.v o.vd l) (c.v o.va l) (c.v o.vb l)) (tags fun l => c.t o.va l)])) ∧
  (∀ (o : A2) (i : Instr) (n : Word → Nat),
    (i, n) ∈ ([(.popc o, popcount), (.clz o, clz), (.ctz o, ctz)] : List (Instr × (Word → Nat))) →
    Completes i (aluInfo o.st o.pk [o.va] [o.vd]) (fun _ => True)
      (fun c => [.v o.vd.toNat (c.active o.pk) (lanes fun l => BitVec.ofNat 32 (n (c.v o.va l))) (tags fun _ => tU32)])) ∧
  (∀ (o : A2) (i : Instr) (op : Word → Word),
    (i, op) ∈ ([(.brev o, BitVec.reverse), (.bswap o, bswap)] : List (Instr × (Word → Word))) →
    Completes i (aluInfo o.st o.pk [o.va] [o.vd]) (fun _ => True)
      (fun c => [.v o.vd.toNat (c.active o.pk) (lanes fun l => op (c.v o.va l)) (tags fun l => c.t o.va l)]))

/-- R133, R151, R153: IADD64 and ISUB64 act on register pairs whose even register holds the low word; IMAD multiplies and adds. -/
def Obligations.PairAddAndMultiplyAddWriteEachLane : Prop :=
  (∀ (o : A3) (i : Instr) (op : DWord → DWord → DWord),
    (i, op) ∈ ([(.iadd64 o, fun a b => a + b), (.isub64 o, fun a b => a - b)] : List (Instr × (DWord → DWord → DWord))) →
    o.vd.toNat % 2 = 0 → o.va.toNat % 2 = 0 → o.vb.toNat % 2 = 0 →
    Completes i { aluInfo o.st o.pk [o.va, o.va + 1, o.vb, o.vb + 1] [o.vd, o.vd + 1] with
        regsOk := fun _ => evenV o.vd && evenV o.va && evenV o.vb }
      (fun c => c.allActive o.pk fun l => (c.t o.va l = tI64LO ∨ c.t o.va l = tRAW) ∧ (c.t (o.va + 1) l = tI64HI ∨ c.t (o.va + 1) l = tRAW)
        ∧ (c.t o.vb l = tI64LO ∨ c.t o.vb l = tRAW) ∧ (c.t (o.vb + 1) l = tI64HI ∨ c.t (o.vb + 1) l = tRAW))
      (fun c => [.v o.vd.toNat (c.active o.pk)
          (lanes fun l => (op (c.v (o.va + 1) l ++ c.v o.va l) (c.v (o.vb + 1) l ++ c.v o.vb l)).extractLsb' 0 32) (tags fun _ => tI64LO),
        .v (o.vd.toNat + 1) (c.active o.pk)
          (lanes fun l => (op (c.v (o.va + 1) l ++ c.v o.va l) (c.v (o.vb + 1) l ++ c.v o.vb l)).extractLsb' 32 32) (tags fun _ => tI64HI)])) ∧
  (∀ o : B4, Completes (.imad o) (aluInfo o.st 0 [o.va, o.vb, o.vc] [o.vd])
    (fun c => ∀ l, c.m.getLsbD l = true → isWordTag (c.t o.va l) ∧ isWordTag (c.t o.vb l) ∧ isWordTag (c.t o.vc l))
    (fun c => [.v o.vd.toNat c.m (lanes fun l => c.v o.va l * c.v o.vb l + c.v o.vc l)
      (tags fun l => wordTag (c.t o.va l) (wordTag (c.t o.vb l) (c.t o.vc l)))]))

/-- R152: ICMP and ICMPI set the bit of Kd in each active lane to the condition and leave the other bits. -/
def Obligations.IntegerComparesSetTheActiveBits : Prop :=
  (∀ (o : A3) (i : Instr) (cond : Word → Word → Bool),
    (i, cond) ∈ ([(.icmpEq o, fun a b => a = b), (.icmpNe o, fun a b => a ≠ b), (.icmpLt o, fun a b => a.slt b), (.icmpLe o, fun a b => a.sle b),
      (.icmpUlt o, fun a b => a.ult b), (.icmpUle o, fun a b => a.ule b), (.icmpTst o, fun a b => a &&& b ≠ 0),
      (.icmpNtst o, fun a b => a &&& b = 0)] : List (Instr × (Word → Word → Bool))) →
    Completes i { aluInfo o.st o.pk [o.va, o.vb] [] with regsOk := fun _ => kWrite o.vd, writes := [.k o.vd.toNat] }
      (fun c => kWrite o.vd = true ∧ c.allActive o.pk fun l => isWordTag (c.t o.va l) ∧ isWordTag (c.t o.vb l))
      (fun c => [.kl o.vd.toNat (c.active o.pk) (maskOf fun l => cond (c.v o.va l) (c.v o.vb l))])) ∧
  (∀ (o : I9) (i : Instr) (cond : Word → Word → Bool),
    (i, cond) ∈ ([(.icmpiEq o, fun a b => a = b), (.icmpiNe o, fun a b => a ≠ b), (.icmpiLt o, fun a b => a.slt b), (.icmpiLe o, fun a b => a.sle b),
      (.icmpiUlt o, fun a b => a.ult b), (.icmpiUle o, fun a b => a.ule b), (.icmpiTst o, fun a b => a &&& b ≠ 0),
      (.icmpiNtst o, fun a b => a &&& b = 0)] : List (Instr × (Word → Word → Bool))) →
    Completes i { aluInfo o.st 0 [o.va] [] with regsOk := fun _ => kWrite o.vd, writes := [.k o.vd.toNat] }
      (fun c => kWrite o.vd = true ∧ ∀ l, c.m.getLsbD l = true → isWordTag (c.t o.va l))
      (fun c => [.kl o.vd.toNat c.m (maskOf fun l => cond (c.v o.va l) (o.imm.signExtend 32))]))

/-- R153: the immediate forms write every lane of the issue set; an immediate is sign-extended and counts as RAW; LUI keeps the low bits of
the old vd, which is an operand of the word-integer class. -/
def Obligations.ImmediateFormsWriteEachLane : Prop :=
  (∀ (o : I12) (i : Instr) (op : Word → Word → Word),
    (i, op) ∈ ([(.iaddi o, fun a b => a + b), (.andi o, fun a b => a &&& b), (.ori o, fun a b => a ||| b), (.xori o, fun a b => a ^^^ b)] :
      List (Instr × (Word → Word → Word))) →
    Completes i (aluInfo o.st 0 [o.va] [o.vd]) (fun c => ∀ l, c.m.getLsbD l = true → isWordTag (c.t o.va l))
      (fun c => [.v o.vd.toNat c.m (lanes fun l => op (c.v o.va l) (o.imm.signExtend 32)) (tags fun l => wordTag (c.t o.va l) tRAW)])) ∧
  (∀ (o : Sh5) (i : Instr) (op : Word → Nat → Word),
    (i, op) ∈ ([(.shli o, fun a n => a <<< n), (.shri o, fun a n => a >>> n), (.sari o, fun a n => a.sshiftRight n),
      (.roli o, fun a n => a.rotateLeft n)] : List (Instr × (Word → Nat → Word))) →
    Completes i (aluInfo o.st 0 [o.va] [o.vd]) (fun _ => True)
      (fun c => [.v o.vd.toNat c.m (lanes fun l => op (c.v o.va l) o.amt.toNat) (tags fun l => c.t o.va l)])) ∧
  (∀ o : U18,
    Completes (.movi o) (aluInfo o.st 0 [] [o.vd]) (fun _ => True)
      (fun c => [.v o.vd.toNat c.m (lanes fun _ => o.imm.signExtend 32) (tags fun _ => tI32)]) ∧
    Completes (.lui o) (aluInfo o.st 0 [o.vd] [o.vd]) (fun c => ∀ l, c.m.getLsbD l = true → isWordTag (c.t o.vd l))
      (fun c => [.v o.vd.toNat c.m (lanes fun l => o.imm ++ (c.v o.vd l).extractLsb' 0 14)
        (tags fun l => if c.t o.vd l = tU32 then tU32 else tI32)]))

/-- R162, R163, R167: the lane operations, SEL and the moves. -/
def Obligations.LaneOperationsAndMovesWriteEachActiveLane : Prop :=
  (∀ (o : A3) (i : Instr) (src : Nat → Nat → Nat),
    (i, src) ∈ ([(.shfl o, fun _ n => n), (.shflx o, fun l n => l ^^^ n), (.shflup o, fun l n => if n ≤ l then l - n else l),
      (.shfldn o, fun l n => if l + n ≤ 31 then l + n else l)] : List (Instr × (Nat → Nat → Nat))) →
    Completes i (aluInfo o.st o.pk [o.va, o.vb] [o.vd]) (fun _ => True)
      (fun c => [.v o.vd.toNat (c.active o.pk) (lanes fun l => c.v o.va (src l ((c.v o.vb l).toNat % 32)))
        (tags fun l => c.t o.va (src l ((c.v o.vb l).toNat % 32)))])) ∧
  (∀ o : A3, Completes (.sel o) { aluInfo o.st o.pk [o.va, o.vb] [o.vd] with regsOk := fun _ => o.pk ≠ 0 } (fun _ => True)
    (fun c => [.v o.vd.toNat c.m (lanes fun l => c.v (if (c.y.getK o.pk.toNat).getLsbD l then o.va else o.vb) l)
      (tags fun l => c.t (if (c.y.getK o.pk.toNat).getLsbD l then o.va else o.vb) l)])) ∧
  (∀ o : A2,
    Completes (.bcst o) (aluInfo o.st o.pk [o.va] [o.vd]) (fun _ => True)
      (fun c => [.v o.vd.toNat (c.active o.pk) (lanes fun _ => c.v o.va ((lowest (c.active o.pk)).getD 0))
        (tags fun _ => c.t o.va ((lowest (c.active o.pk)).getD 0))]) ∧
    Completes (.mov o) (aluInfo o.st o.pk [o.va] [o.vd]) (fun _ => True)
      (fun c => [.v o.vd.toNat (c.active o.pk) (lanes fun l => c.v o.va l) (tags fun l => c.t o.va l)]) ∧
    Completes (.movs o) { aluInfo o.st o.pk [] [o.vd] with regsOk := fun _ => sField o.va, reads := pkReads o.pk ++ [.s o.va.toNat] } (fun _ => True)
      (fun c => [.v o.vd.toNat (c.active o.pk) (lanes fun _ => c.y.getS o.va.toNat) (tags fun _ => tRAW)]) ∧
    Completes (.smov o) { aluInfo o.st o.pk [o.va] [] with regsOk := fun _ => sField o.vd, writes := [.s o.vd.toNat] }
      (fun _ => sField o.vd = true)
      (fun c => match lowest (c.active o.pk) with | none => [.s o.vd.toNat (c.y.getS o.vd.toNat)] | some k => [.s o.vd.toNat (c.v o.va k)]) ∧
    Completes (.tagr o) (aluInfo o.st o.pk [o.va] [o.vd]) (fun _ => True)
      (fun c => [.v o.vd.toNat (c.active o.pk) (lanes fun l => (c.t o.va l).setWidth 32) (tags fun _ => tU32)]) ∧
    (o.vd.toNat % 2 = 0 → Completes (.vpcr o) { aluInfo o.st o.pk [o.va] [o.vd, o.vd + 1] with regsOk := fun _ => evenV o.vd } (fun _ => True)
      (fun c =>
        let vpc : Nat → DWord := fun l =>
          let k := (c.v o.va l).toNat % 32
          if c.y.live.getLsbD k then (c.y.lane k).pc.setWidth 64 else 0
        [.v o.vd.toNat (c.active o.pk) (lanes fun l => (vpc l).extractLsb' 0 32) (tags fun _ => tI64LO),
         .v (o.vd.toNat + 1) (c.active o.pk) (lanes fun l => (vpc l).extractLsb' 32 32) (tags fun _ => tI64HI)]))) ∧
  (∀ o : AT, Completes (.retag o) { aluInfo o.st o.pk [o.va] [o.vd] with regsOk := fun _ => tagListed o.tag } (fun _ => True)
    (fun c => [.v o.vd.toNat (c.active o.pk) (lanes fun l => c.v o.va l) (tags fun _ => o.tag)])) ∧
  (∀ o : A1, Completes (.laneid o) (aluInfo o.st o.pk [] [o.vd]) (fun _ => True)
    (fun c => [.v o.vd.toNat (c.active o.pk) (lanes fun l => BitVec.ofNat 32 l) (tags fun _ => tU32)]))

/-- R164, R165: the mask operations and the votes. -/
def Obligations.MaskOperationsAndVotesComplete : Prop :=
  (∀ (o : A3) (i : Instr) (op : Word → Word → Word),
    (i, op) ∈ ([(.kand o, fun a b => a &&& b), (.kor o, fun a b => a ||| b), (.kxor o, fun a b => a ^^^ b), (.kandn o, fun a b => a &&& ~~~b)] :
      List (Instr × (Word → Word → Word))) →
    Completes i { cls := 0, stall := o.st, regsOk := fun _ => kWrite o.vd && kRead o.va && kRead o.vb,
                  reads := pkReads o.pk ++ [.k o.va.toNat] ++ [.k o.vb.toNat], writes := [.k o.vd.toNat] }
      (fun _ => kWrite o.vd = true)
      (fun c => [.kl o.vd.toNat (c.active o.pk) (op (c.y.getK o.va.toNat) (c.y.getK o.vb.toNat))])) ∧
  (∀ (o : A2) (i : Instr) (op : Word → Word),
    (i, op) ∈ ([(.knot o, fun a => ~~~a), (.kmov o, fun a => a)] : List (Instr × (Word → Word))) →
    Completes i { cls := 0, stall := o.st, regsOk := fun _ => kWrite o.vd && kRead o.va,
                  reads := pkReads o.pk ++ [.k o.va.toNat] ++ [], writes := [.k o.vd.toNat] }
      (fun _ => kWrite o.vd = true)
      (fun c => [.kl o.vd.toNat (c.active o.pk) (op (c.y.getK o.va.toNat))])) ∧
  (∀ (o : A2) (i : Instr) (n : Word → Nat),
    (i, n) ∈ ([(.kpop o, popcount), (.kffs o, ctz)] : List (Instr × (Word → Nat))) →
    Completes i { aluInfo o.st o.pk [] [o.vd] with regsOk := fun _ => kRead o.va, reads := pkReads o.pk ++ [.k o.va.toNat] } (fun _ => True)
      (fun c => [.v o.vd.toNat (c.active o.pk) (lanes fun _ => BitVec.ofNat 32 (n (c.y.getK o.va.toNat))) (tags fun _ => tU32)])) ∧
  (∀ o : A2,
    Completes (.bal o) { aluInfo o.st o.pk [o.va] [] with regsOk := fun _ => kWrite o.vd, writes := [.k o.vd.toNat] } (fun _ => kWrite o.vd = true)
      (fun c => [.k o.vd.toNat (maskOf fun l => (c.active o.pk).getLsbD l && c.v o.va l ≠ 0)]) ∧
    Completes (.kfroms o) { cls := 0, stall := o.st, regsOk := fun _ => kWrite o.vd && sField o.va, reads := [.s o.va.toNat], writes := [.k o.vd.toNat] }
      (fun _ => kWrite o.vd = true) (fun c => [.k o.vd.toNat (c.y.getS o.va.toNat)]) ∧
    Completes (.ktos o) { cls := 0, stall := o.st, regsOk := fun _ => sField o.vd && kRead o.va, reads := [.k o.va.toNat], writes := [.s o.vd.toNat] }
      (fun _ => sField o.vd = true) (fun c => [.s o.vd.toNat (c.y.getK o.va.toNat)])) ∧
  (∀ o : A3, Completes (.ktov o) { aluInfo o.st o.pk [] [o.vd] with regsOk := fun _ => kRead o.va && o.vb = 0, reads := pkReads o.pk ++ [.k o.va.toNat] }
    (fun _ => True) (fun c => [.v o.vd.toNat (c.active o.pk) (lanes fun _ => c.y.getK o.va.toNat) (tags fun _ => tU32)]))

/-! ### Uniform words -/

/-- R166: the scalar members write one S or K register for the whole gang; R213: in an address program they run on the program's own
scalar state, and each costs one access unit. -/
def Obligations.UniformWordsWriteOneRegister : Prop :=
  (∀ (o : S3) (i : Instr) (op : Word → Word → Word),
    (i, op) ∈ ([(.sadd o, fun a b => a + b), (.ssub o, fun a b => a - b), (.smul o, fun a b => a * b), (.sand o, fun a b => a &&& b),
      (.sor o, fun a b => a ||| b), (.sxor o, fun a b => a ^^^ b), (.sshl o, fun a b => a <<< (b.toNat % 32)),
      (.sshr o, fun a b => a >>> (b.toNat % 32))] : List (Instr × (Word → Word → Word))) →
    sField o.vd = true → sField o.va = true → sField o.vb = true →
    Completes i { cls := 0, stall := o.st, regsOk := fun _ => true, reads := [.s o.va.toNat, .s o.vb.toNat], writes := [.s o.vd.toNat] }
      (fun _ => True) (fun c => [.s o.vd.toNat (op (c.y.getS o.va.toNat) (c.y.getS o.vb.toNat))]) ∧
    RunsInProgram i fun a => (a.setS o.vd.toNat (op (a.getS o.va.toNat) (a.getS o.vb.toNat))).advance) ∧
  (∀ (o : S3) (i : Instr) (cond : Word → Word → Bool),
    (i, cond) ∈ ([(.scmpEq o, fun a b => a = b), (.scmpNe o, fun a b => a ≠ b), (.scmpLt o, fun a b => a.slt b), (.scmpLe o, fun a b => a.sle b),
      (.scmpUlt o, fun a b => a.ult b), (.scmpUle o, fun a b => a.ule b), (.scmpTst o, fun a b => a &&& b ≠ 0),
      (.scmpNtst o, fun a b => a &&& b = 0)] : List (Instr × (Word → Word → Bool))) →
    kWrite o.vd = true → sField o.va = true → sField o.vb = true →
    Completes i { cls := 0, stall := o.st, regsOk := fun _ => true, reads := [.s o.va.toNat, .s o.vb.toNat], writes := [.k o.vd.toNat] }
      (fun _ => True)
      (fun c => [.k o.vd.toNat (if cond (c.y.getS o.va.toNat) (c.y.getS o.vb.toNat) then BitVec.allOnes 32 else 0)]) ∧
    RunsInProgram i fun a => (a.setK o.vd.toNat (if cond (a.getS o.va.toNat) (a.getS o.vb.toNat) then BitVec.allOnes 32 else 0)).advance) ∧
  (∀ o : I12, sField o.vd = true → sField o.va = true →
    Completes (.saddi o) { cls := 0, stall := o.st, regsOk := fun _ => true, reads := [.s o.va.toNat], writes := [.s o.vd.toNat] }
      (fun _ => True) (fun c => [.s o.vd.toNat (c.y.getS o.va.toNat + o.imm.signExtend 32)]) ∧
    RunsInProgram (.saddi o) fun a => (a.setS o.vd.toNat (a.getS o.va.toNat + o.imm.signExtend 32)).advance) ∧
  (∀ o : SU,
    Completes (.smovi o) { cls := 0, stall := o.st, regsOk := fun _ => true, writes := [.s o.sd.toNat] }
      (fun _ => True) (fun _ => [.s o.sd.toNat (o.imm.signExtend 32)]) ∧
    Completes (.slui o) { cls := 0, stall := o.st, regsOk := fun _ => true, reads := [.s o.sd.toNat], writes := [.s o.sd.toNat] }
      (fun _ => True) (fun c => [.s o.sd.toNat (o.imm ++ (c.y.getS o.sd.toNat).extractLsb' 0 14)]) ∧
    RunsInProgram (.smovi o) (fun a => (a.setS o.sd.toNat (o.imm.signExtend 32)).advance) ∧
    RunsInProgram (.slui o) fun a => (a.setS o.sd.toNat (o.imm ++ (a.getS o.sd.toNat).extractLsb' 0 14)).advance)

/-! ### Floating words -/

/-- R154, R135 to R139: FADD, FSUB and FMUL compute each element exactly and round it once in the mode of FRM; FFLAGS takes the flags. -/
def Obligations.FloatSumsAndProductsRoundOnce : Prop :=
  ∀ (o : A3) (i : Instr) (op : Machine.Num → Machine.Num → Rm → Machine.Num × Bool),
    (i, op) ∈ ([(.fadd o, fun a b rm => sumNum [a, b] rm), (.fsub o, fun a b rm => sumNum [a, b.neg] rm), (.fmul o, fun a b _ => a.mul b)] :
      List (Instr × (Machine.Num → Machine.Num → Rm → Machine.Num × Bool))) →
    Rounds i (aluInfo o.st o.pk [o.va, o.vb] [o.vd]) o.vd (fun c => c.active o.pk) (fun c => c.y.mode)
      (fun c => c.allActive o.pk fun l => isFloatTag (c.t o.va l) ∧ c.t o.vb l = c.t o.va l)
      (fun c l => tagCount (c.t o.va l))
      (fun c l j r =>
        let x := op (c.elem o.va o.va l j) (c.elem o.va o.vb l j) c.y.mode
        let q := (floatElem (c.t o.va l)).ofNum c.y.mode r x.1
        { q with fl := q.fl ||| (if x.2 then flagNV else 0) })
      (fun c l code => packElems (elemWidth (c.t o.va l)) (tagCount (c.t o.va l)) code) (fun c l => c.t o.va l)

/-- R154: FMIN and FMAX give the other operand of one NaN and order -0 below +0; FABS, FNEG and FCPS replace the sign; a NaN result is
the canonical one; no flag is raised. -/
def Obligations.FloatSelectionsKeepCodes : Prop :=
  (∀ (o : A3) (i : Instr) (op : Elem → Nat → Nat → Nat → Nat),
    (i, op) ∈ ([(.fmin o, fun k _ a b => if (k.value a).isNan && (k.value b).isNan then k.nan.code else if (k.value a).isNan then b
          else if (k.value b).isNan then a
          else if (k.value a).lt (k.value b) || (!(k.value b).lt (k.value a) && (k.value a).sign && !(k.value b).sign) then a else b),
        (.fmax o, fun k _ a b => if (k.value a).isNan && (k.value b).isNan then k.nan.code else if (k.value a).isNan then b
          else if (k.value b).isNan then a
          else if (k.value a).lt (k.value b) || (!(k.value b).lt (k.value a) && (k.value a).sign && !(k.value b).sign) then b else a),
        (.fcps o, fun k w a b => if (k.value a).isNan then k.nan.code
          else a % 2 ^ (w - 1) + (if b / 2 ^ (w - 1) % 2 = 1 then 2 ^ (w - 1) else 0))] : List (Instr × (Elem → Nat → Nat → Nat → Nat))) →
    Completes i (aluInfo o.st o.pk [o.va, o.vb] [o.vd]) (fun c => c.allActive o.pk fun l => isFloatTag (c.t o.va l) ∧ c.t o.vb l = c.t o.va l)
      (fun c => [.v o.vd.toNat (c.active o.pk)
        (lanes fun l => packElems (elemWidth (c.t o.va l)) (tagCount (c.t o.va l)) fun j => op (floatElem (c.t o.va l)) (elemWidth (c.t o.va l))
          (elemCode (elemWidth (c.t o.va l)) j (c.v o.va l)) (elemCode (elemWidth (c.t o.va l)) j (c.v o.vb l)))
        (tags fun l => c.t o.va l)])) ∧
  (∀ (o : A2) (i : Instr) (neg : Nat → Nat → Bool),
    (i, neg) ∈ ([(.fabs o, fun _ _ => false), (.fneg o, fun w a => a / 2 ^ (w - 1) % 2 = 0)] : List (Instr × (Nat → Nat → Bool))) →
    Completes i (aluInfo o.st o.pk [o.va] [o.vd]) (fun c => c.allActive o.pk fun l => isFloatTag (c.t o.va l))
      (fun c => [.v o.vd.toNat (c.active o.pk)
        (lanes fun l => packElems (elemWidth (c.t o.va l)) (tagCount (c.t o.va l)) fun j =>
          let w := elemWidth (c.t o.va l)
          let a := elemCode w j (c.v o.va l)
          if ((floatElem (c.t o.va l)).value a).isNan then (floatElem (c.t o.va l)).nan.code
          else a % 2 ^ (w - 1) + (if neg w a then 2 ^ (w - 1) else 0))
        (tags fun l => c.t o.va l)]))

/-- R157, R158: FFMA and FFMS round the exact product and addend once; FDOT rounds the exact sum of its products and the addend once. -/
def Obligations.FusedAndDotRoundOnce : Prop :=
  (∀ (o : B4) (i : Instr) (addend : Machine.Num → Machine.Num),
    (i, addend) ∈ ([(.ffma o, fun z => z), (.ffms o, fun z => z.neg)] : List (Instr × (Machine.Num → Machine.Num))) →
    Rounds i (aluInfo o.st 0 [o.va, o.vb, o.vc] [o.vd]) o.vd (fun c => c.m) (fun c => c.y.mode)
      (fun c => ∀ l, c.m.getLsbD l = true → isFloatTag (c.t o.va l) ∧ c.t o.vb l = c.t o.va l ∧ c.t o.vc l = c.t o.va l)
      (fun c l => tagCount (c.t o.va l))
      (fun c l j r =>
        let p := (c.elem o.va o.va l j).mul (c.elem o.va o.vb l j)
        let x := if p.2 then (Machine.Num.nan, true) else sumNum [p.1, addend (c.elem o.va o.vc l j)] c.y.mode
        let q := (floatElem (c.t o.va l)).ofNum c.y.mode r x.1
        { q with fl := q.fl ||| (if x.2 then flagNV else 0) })
      (fun c l code => packElems (elemWidth (c.t o.va l)) (tagCount (c.t o.va l)) code) (fun c l => c.t o.va l)) ∧
  (∀ o : B4,
    Rounds (.fdot o) (aluInfo o.st 0 [o.va, o.vb, o.vc] [o.vd]) o.vd (fun c => c.m) (fun c => c.y.mode)
      (fun c => ∀ l, c.m.getLsbD l = true → isDotTag (c.t o.va l) ∧ c.t o.vb l = c.t o.va l ∧ c.t o.vc l = tF32)
      (fun _ _ => 1)
      (fun c l _ r =>
        let ps := ((elemValues (c.t o.va l) (c.v o.va l)).zip (elemValues (c.t o.va l) (c.v o.vb l))).map fun p => p.1.mul p.2
        let x := if ps.any Prod.snd then (Machine.Num.nan, true) else sumNum (ps.map Prod.fst ++ [fmtF32.value (c.v o.vc l).toNat]) c.y.mode
        let q := (Elem.float fmtF32).ofNum c.y.mode r x.1
        { q with fl := q.fl ||| (if x.2 then flagNV else 0) })
      (fun _ _ code => BitVec.ofNat 32 (code 0)) (fun _ _ => tF32))

/-- R156: FCMP sets the active bits of Kd, the ordered comparisons raising NV for a NaN; FCMP.CLS writes a class bit. -/
def Obligations.FloatComparesSetTheActiveBits : Prop :=
  (∀ (o : A3) (i : Instr) (ordered : Bool) (cond : Machine.Num → Machine.Num → Bool),
    (i, ordered, cond) ∈ ([(.fcmpEq o, false, fun a b => a.eqv b), (.fcmpNe o, false, fun a b => !a.eqv b), (.fcmpLt o, true, fun a b => a.lt b),
      (.fcmpLe o, true, fun a b => !a.isNan && !b.isNan && !b.lt a), (.fcmpUn o, false, fun a b => a.isNan || b.isNan),
      (.fcmpOrd o, false, fun a b => !a.isNan && !b.isNan)] : List (Instr × Bool × (Machine.Num → Machine.Num → Bool))) →
    Completes i { aluInfo o.st o.pk [o.va, o.vb] [] with regsOk := fun _ => kWrite o.vd, writes := [.k o.vd.toNat] }
      (fun c => kWrite o.vd = true ∧ (c.allActive o.pk fun l => c.t o.va l = tF32 ∧ c.t o.vb l = tF32) ∧
        (ordered = true → c.y.fexc.getLsbD 4 = true →
          c.allActive o.pk fun l => (fmtF32.value (c.v o.va l).toNat).isNan = false ∧ (fmtF32.value (c.v o.vb l).toNat).isNan = false))
      (fun c => [.kl o.vd.toNat (c.active o.pk) (maskOf fun l =>
        cond (fmtF32.value (c.v o.va l).toNat) (fmtF32.value (c.v o.vb l).toNat))])
      (fun c => flagsOr c.m fun l => if ordered && (c.active o.pk).getLsbD l
        && ((fmtF32.value (c.v o.va l).toNat).isNan || (fmtF32.value (c.v o.vb l).toNat).isNan) then flagNV else 0)) ∧
  (∀ o : A2, Completes (.fcmpCls o) (aluInfo o.st o.pk [o.va] [o.vd]) (fun c => c.allActive o.pk fun l => c.t o.va l = tF32)
    (fun c => [.v o.vd.toNat (c.active o.pk) (lanes fun l => BitVec.ofNat 32 (2 ^ classBit (c.v o.va l))) (tags fun _ => tU32)]))

/-- R155, R100: an FA1 member raises its flags, takes its draws and goes pending with its results, which land later. -/
def Obligations.TranscendentalsGoPendingWithTheirResults : Prop :=
  ∀ (o : A2) (i : Instr) (fn : Nat),
    (i, fn) ∈ ([(.frcp o, 0), (.frsq o, 1), (.fsqrt o, 2), (.fexp2 o, 3), (.flog2 o, 4), (.fsin o, 5), (.fcos o, 6), (.ftanh o, 7)] :
      List (Instr × Nat)) →
    let draws : Ctx → Bool := fun c => c.y.mode = .sr && (fn = 0 || fn = 2 || fn = 3)
    let res : Ctx → Nat → Rounded := fun c l => fa1Value fn (c.v o.va l) c.y.mode (if draws c then srDraw c.y.x (lanePos (c.active o.pk) l) else 0)
    GoesPending i { aluInfo o.st o.pk [o.va] [o.vd] with varLat := true }
      (fun c _ => c.allActive o.pk fun l => c.t o.va l = tF32 ∧ (res c l).fl &&& c.y.fexc.extractLsb' 0 5 = 0)
      (fun c _ => { Pend.blank .transc with
        code := fn, dst := [(o.vd.toNat, Vector.replicate 32 tF32)], mask := c.active o.pk, vals := [lanes fun l => BitVec.ofNat 32 (res c l).code] })
      (fun c => flagsOr c.m fun l => if (c.active o.pk).getLsbD l then (res c l).fl else 0)
      (fun c => if draws c then some (srAfter c.y.x (laneCount (c.active o.pk))) else none)

/-! ### Conversions and packing -/

/-- R159, R161, R127: CVT, MXQ and MXDQ round each element once; MXSC writes the shared scale. -/
def Obligations.ConversionsRoundOnce : Prop :=
  (∀ o : Cvt, cvtDest o.tag = true →
    Rounds (.cvt o) { aluInfo o.st o.pk (if tagScaled o.tag then [o.va, o.vd] else [o.va]) [o.vd] with regsOk := fun _ => cvtDest o.tag } o.vd
      (fun c => c.active o.pk) (fun _ => Rm.ofCode o.rm.toNat) (fun c => c.allActive o.pk fun l => cvtChk (c.t o.va l) o.tag = none)
      (fun c l => cvtCount (c.t o.va l) o.tag)
      (fun c l j r =>
        let ew := (tagElem o.tag).getD (.int false 32, 32)
        let x := tagValue (c.t o.va l) (c.v o.va l) j
        if tagScaled o.tag then
          if elemCode 8 3 (c.v o.vd l) = 255 then ⟨0, 0⟩
          else ew.1.ofNum (Rm.ofCode o.rm.toNat) r (x.scale (127 - (elemCode 8 3 (c.v o.vd l) : Int)))
        else ew.1.ofNum (Rm.ofCode o.rm.toNat) r x)
      (fun c l code => if tagScaled o.tag then BitVec.ofNat 32 (elemCode 8 3 (c.v o.vd l) * 2 ^ 24 + code 0)
        else packElems ((tagElem o.tag).getD (.int false 32, 32)).2 (cvtCount (c.t o.va l) o.tag) code)
      (fun _ _ => o.tag)) ∧
  (∀ o : AT, tagScaled o.tag = true →
    Rounds (.mxq o) { aluInfo o.st o.pk [o.va] [o.vd] with regsOk := fun _ => tagScaled o.tag } o.vd (fun c => c.active o.pk) (fun c => c.y.mode)
      (fun c => c.allActive o.pk fun l => c.t o.va l = tF32) (fun _ _ => 1)
      (fun c l _ r =>
        let x := mxScale (c.active o.pk) (c.v o.va) o.tag
        if x = 255 then ⟨0, if f32Special (c.v o.va l) then flagNV else 0⟩
        else ((tagElem o.tag).getD (.mk8, 8)).1.ofNum c.y.mode r ((fmtF32.value (c.v o.va l).toNat).scale (127 - (x : Int))))
      (fun c _ code => BitVec.ofNat 32 (mxScale (c.active o.pk) (c.v o.va) o.tag * 2 ^ 24 + code 0)) (fun _ _ => o.tag) ∧
    Completes (.mxsc o) { aluInfo o.st o.pk [o.va] [o.vd] with regsOk := fun _ => tagScaled o.tag }
      (fun c => c.allActive o.pk fun l => c.t o.va l = tF32 ∧ (c.y.fexc.getLsbD 4 = true → f32Special (c.v o.va l) = false))
      (fun c => [.v o.vd.toNat (c.active o.pk) (lanes fun _ => BitVec.ofNat 32 (mxScale (c.active o.pk) (c.v o.va) o.tag * 2 ^ 24))
        (tags fun _ => tU32)])
      (fun c => flagsOr c.m fun l => if (c.active o.pk).getLsbD l && f32Special (c.v o.va l) then flagNV else 0)) ∧
  (∀ o : A2,
    Rounds (.mxdq o) (aluInfo o.st o.pk [o.va] [o.vd]) o.vd (fun c => c.active o.pk) (fun c => c.y.mode)
      (fun c => c.allActive o.pk fun l => tagScaled (c.t o.va l)) (fun _ _ => 1)
      (fun c l _ r => (Elem.float fmtF32).ofNum c.y.mode r (tagValue (c.t o.va l) (c.v o.va l) 0))
      (fun _ _ code => BitVec.ofNat 32 (code 0)) (fun _ _ => tF32))

/-- R160: PACK2, PACK4, PACKN, UNPKL, UNPKH, UNPKN, PK6 and UPK6 move element codes and raise no flag. That PACKN and UNPKN move the whole byte of
a 6-bit code, its bits [7:6] included, is the model's choice (DESIGN CHOICE, log 160). -/
def Obligations.PackingMovesElements : Prop :=
  (∀ o : A3,
    let okTags : Ctx → Prop := fun c => c.allActive o.pk fun l => packChk (c.t o.va l) (c.t o.vb l) = none
    let tag : Ctx → Tags := fun c => tags fun l => if c.t o.va l = tRAW then c.t o.vb l else c.t o.va l
    Completes (.pack2 o) (aluInfo o.st o.pk [o.va, o.vb] [o.vd]) okTags
      (fun c => [.v o.vd.toNat (c.active o.pk) (lanes fun l => (c.v o.vb l).extractLsb' 0 16 ++ (c.v o.va l).extractLsb' 0 16) (tag c)]) ∧
    Completes (.pack4 o) (aluInfo o.st o.pk [o.va, o.vb, o.vd] [o.vd]) okTags
      (fun c => [.v o.vd.toNat (c.active o.pk)
        (lanes fun l => (c.v o.vd l).extractLsb' 0 16 ++ (c.v o.vb l).extractLsb' 0 8 ++ (c.v o.va l).extractLsb' 0 8) (tag c)]) ∧
    Completes (.packn o) (aluInfo o.st o.pk [o.va, o.vb, o.vd] [o.vd])
      (fun c => c.allActive o.pk fun l => tagPacked (c.t o.va l) ∧ (c.t o.vd l = c.t o.va l ∨ c.t o.vd l = tRAW))
      (fun c => [.v o.vd.toNat (c.active o.pk)
        (lanes fun l => packElems (elemWidth (c.t o.va l)) (tagCount (c.t o.va l)) fun j =>
          if j = (c.v o.vb l).toNat % 8 % tagCount (c.t o.va l) then elemCode (elemWidth (c.t o.va l)) 0 (c.v o.va l)
          else elemCode (elemWidth (c.t o.va l)) j (c.v o.vd l)) (tags fun l => c.t o.va l)]) ∧
    Completes (.unpkn o) (aluInfo o.st o.pk [o.va, o.vb] [o.vd]) (fun c => c.allActive o.pk fun l => tagPacked (c.t o.va l))
      (fun c => [.v o.vd.toNat (c.active o.pk)
        (lanes fun l => BitVec.ofNat 32 (elemCode (elemWidth (c.t o.va l)) ((c.v o.vb l).toNat % 8 % tagCount (c.t o.va l)) (c.v o.va l)))
        (tags fun l => c.t o.va l)])) ∧
  (∀ o : A2,
    Completes (.unpkl o) (aluInfo o.st o.pk [o.va] [o.vd]) (fun c => c.allActive o.pk fun l => tagPacked (c.t o.va l))
      (fun c => [.v o.vd.toNat (c.active o.pk) (lanes fun l => c.v o.va l &&& 0xFFFF) (tags fun l => c.t o.va l)]) ∧
    Completes (.unpkh o) (aluInfo o.st o.pk [o.va] [o.vd]) (fun c => c.allActive o.pk fun l => tagPacked (c.t o.va l))
      (fun c => [.v o.vd.toNat (c.active o.pk) (lanes fun l => c.v o.va l >>> 16) (tags fun l => c.t o.va l)]) ∧
    Completes (.pk6 o) (aluInfo o.st o.pk [o.va] [o.vd])
      (fun c => c.allActive o.pk fun l => c.t o.va l = tE2M3X4 ∨ c.t o.va l = tE3M2X4)
      (fun c => [.v o.vd.toNat (c.active o.pk) (lanes fun l => packElems 6 4 fun j => elemCode 8 j (c.v o.va l) % 64) (tags fun _ => tRAW)])) ∧
  (∀ o : AT, Completes (.upk6 o) { aluInfo o.st o.pk [o.va] [o.vd] with regsOk := fun _ => o.tag = tE2M3X4 || o.tag = tE3M2X4 } (fun _ => True)
    (fun c => [.v o.vd.toNat (c.active o.pk) (lanes fun l => packElems 8 4 fun j => elemCode 6 j (c.v o.va l)) (tags fun _ => o.tag)]))

/-! ### Memory words -/

/-- R187, R194, R234: LD and ST of every space and format issue with one access for each lane, at the lane's address; the register and
the bytes follow when the access is performed. -/
def Obligations.LoadsAndStoresGoPendingAtTheirAddresses : Prop :=
  ∀ o : Mem,
    let addr : Ctx → Nat → Nat := fun c l => (c.v o.va l + o.off.signExtend 32 * BitVec.ofNat 32 (wfSize o.wf)).toNat
    let accs : Ctx → State → Bool → (Nat → List Byte) → List LaneAcc := fun c z rd data => (lanesOf c.m).map fun l =>
      mkAcc c.y l (z.spaceLoc c.x c.g o.sp.toNat (addr c l)) (uaOf o.sp.toNat (addr c l)) (wfSize o.wf) rd (data l) []
    let ok : Ctx → State → Prop := fun c z =>
      ∀ l, c.m.getLsbD l = true → z.laneCheck c.x o.sp.toNat (wfSize o.wf) true (addr c l) = none
    GoesPending (.ld o)
      { cls := 2, stall := o.st, varLat := true, regsOk := fun _ => !decide (o.wf = 15#4) || evenV o.vd, reads := [.v o.va.toNat],
        writes := .v o.vd.toNat :: if o.wf = 15#4 then [.v (o.vd.toNat + 1)] else [] }
      (fun c z => ok c z ∧ z.held c.y (accOf .load o.sp.toNat false (accs c z true fun _ => [])) = false)
      (fun c z => { Pend.blank .load with
        code := o.wf.toNat, dst := ldDst o, mask := c.m, accs := accs c z true fun _ => [], space := o.sp.toNat }) ∧
    let data : Ctx → Nat → List Byte := fun c l => natLe (wfSize o.wf) (if o.wf = 15#4 then (c.pair o.vd l).toNat else (c.v o.vd l).toNat)
    GoesPending (.st o)
      { cls := 2, stall := o.st, varLat := true, regsOk := fun _ => stCode o.wf && (!decide (o.wf = 15#4) || evenV o.vd),
        reads := .v o.va.toNat :: .v o.vd.toNat :: if o.wf = 15#4 then [.v (o.vd.toNat + 1)] else [] }
      (fun c z => ok c z ∧ z.held c.y (accOf .store o.sp.toNat true (accs c z false (data c))) = false)
      (fun c z => { Pend.blank .store with mask := c.m, accs := accs c z false (data c), space := o.sp.toNat })

/-- R196, R197: MXLD and MXST issue with one access for each unit that their lanes name. -/
def Obligations.MxLoadsAndStoresGoPendingByUnit : Prop :=
  ∀ o : Mem, o.wf.toNat ≤ 6 →
    let addr : Ctx → Nat → Nat := fun c l => laneAddr (c.v o.va l) o.off (mxSize o.wf)
    let ok : Ctx → State → Prop := fun c z =>
      ∀ l, c.m.getLsbD l = true → z.laneCheck c.x o.sp.toNat (mxSize o.wf) false (addr c l) = none
    GoesPending (.mxld o)
      { cls := 2, stall := o.st, varLat := true, regsOk := fun _ => o.wf.toNat ≤ 6, reads := [.v o.va.toNat], writes := [.v o.vd.toNat] }
      (fun c z => ok c z ∧ z.held c.y (accOf .load o.sp.toNat false (z.unitAccs c o (mxSize o.wf) true fun _ => [])) = false)
      (fun c z => { Pend.blank .mxload with
        code := o.wf.toNat, dst := [(o.vd.toNat, Vector.replicate 32 (mxTag o.wf))], mask := c.m,
        accs := z.unitAccs c o (mxSize o.wf) true fun _ => [], space := o.sp.toNat }) ∧
    GoesPending (.mxst o)
      { cls := 2, stall := o.st, varLat := true, regsOk := fun _ => o.wf.toNat ≤ 6, reads := [.v o.va.toNat, .v o.vd.toNat] }
      (fun c z => ok c z
        ∧ (∀ l, c.m.getLsbD l = true → c.t o.vd l = mxTag o.wf)
        ∧ (∀ l k, c.m.getLsbD l = true → c.m.getLsbD k = true → addr c l = addr c k →
            (c.v o.vd l).extractLsb' 24 8 = (c.v o.vd k).extractLsb' 24 8)
        ∧ z.held c.y (accOf .store o.sp.toNat true (z.unitAccs c o (mxSize o.wf) false (mxstData c o))) = false)
      (fun c z => { Pend.blank .mxstore with
        code := o.wf.toNat, mask := c.m, accs := z.unitAccs c o (mxSize o.wf) false (mxstData c o), space := o.sp.toNat })

/-- R257 to R262: every ATOM and ATOM64 issues with one access for each lane, at the location that its scope and its address name,
with its operands read. -/
def Obligations.AtomicsGoPendingAtTheirSites : Prop :=
  ∀ (i : Instr) (wide : Bool) (op : Nat) (st sc : BitVec 2) (vd va vb : BitVec 6),
    ((∃ o : AtomF, st = o.st ∧ sc = o.sc ∧ vd = o.vd ∧ va = o.va ∧ vb = o.vb ∧
        (i, wide, op) ∈ ([(.atomAdd o, false, 0), (.atomSub o, false, 1), (.atomMin o, false, 2), (.atomMax o, false, 3), (.atomUmin o, false, 4),
          (.atomUmax o, false, 5), (.atomAnd o, false, 6), (.atomOr o, false, 7), (.atomXor o, false, 8), (.atomXchg o, false, 9),
          (.atomCas o, false, 10), (.atomIncw o, false, 11), (.atomDecw o, false, 12), (.atomFadd o, false, 13), (.atom64Add o, true, 0),
          (.atom64Sub o, true, 1), (.atom64Min o, true, 2), (.atom64Max o, true, 3), (.atom64Umin o, true, 4), (.atom64Umax o, true, 5),
          (.atom64And o, true, 6), (.atom64Or o, true, 7), (.atom64Xor o, true, 8), (.atom64Xchg o, true, 9), (.atom64Cas o, true, 10),
          (.atom64Incw o, true, 11), (.atom64Decw o, true, 12), (.atom64Fadd o, true, 13)] : List (Instr × Bool × Nat))) ∨
      (∃ o : AtomLd, st = o.st ∧ sc = o.sc ∧ vd = o.vd ∧ va = o.va ∧ vb = 0 ∧
        (i, wide, op) ∈ ([(.atomAld o, false, 14), (.atom64Ald o, true, 14)] : List (Instr × Bool × Nat))) ∨
      (∃ o : AtomSt, st = o.st ∧ sc = o.sc ∧ vd = 0 ∧ va = o.va ∧ vb = o.vb ∧
        (i, wide, op) ∈ ([(.atomAst o, false, 15), (.atom64Ast o, true, 15)] : List (Instr × Bool × Nat)))) →
    let size := if wide then 8 else 4
    let pcie := op = 0 || op = 9 || op = 10 || op = 14 || op = 15
    let word : Ctx → BitVec 6 → Nat → List Byte := fun c r l => natLe size (if wide then (c.pair r l).toNat else (c.v r l).toNat)
    ∀ loc : Ctx → State → Nat → Loc,
      let accs : Ctx → State → List LaneAcc := fun c z => (lanesOf c.m).map fun l =>
        mkAcc c.y l (loc c z l) (c.atomAddr va sc.toNat l) size false (word c vb l) (word c vd l)
      let space : Ctx → State → Nat := fun c z => ((accs c z).head?.map fun a => atomSpace sc.toNat a.loc).getD sc.toNat
      GoesPending i
        { cls := 2, stall := st, varLat := true, sideEff := true, regsOk := fun _ => atomRegs wide op sc.toNat vd va vb,
          reads := vRefs (2 ≤ sc.toNat) va ++ (if op = 14 then [] else vRefs wide vb) ++ (if op = 10 then vRefs wide vd else []),
          writes := if op = 15 then [] else vRefs wide vd }
        (fun c z => (∀ l, c.m.getLsbD l = true → atomTags c wide op sc.toNat va vb l = none
            ∧ z.atomLoc c.x sc.toNat size (c.atomAddr va sc.toNat l) (op = 14) pcie = .ok (loc c z l)
            ∧ z.atomLoc c.x sc.toNat size (c.atomAddr va sc.toNat l) (op = 14) true = .ok (loc c z l))
          ∧ z.held c.y (accOf .atom (space c z) (op ≠ 14) (accs c z)) = false)
        (fun c z => { Pend.blank .atomic with
          code := op + (if wide then 16 else 0), dst := atomDst c wide op vd vb, mask := c.m, accs := accs c z,
          scope := sc.toNat, space := space c z })

/-! ### Fences and bindings -/

/-- R240 to R244: each FENCE adds its fence to its gang and drops the lines its direction names. A fence on an object whose scope is below
its object's point (R240) orders only: it adds the fence that orders and drops no line. That an object byte without a translation counts as
TIER 0 in its point is the model's reading (DEDUCED, log 125). -/
def Obligations.FencesJoinTheirGang : Prop :=
  let joined : State → Ctx → List Fence → State := fun z c fs => z.modGang c.b c.g fun y => { y with fences := y.fences ++ fs }
  (∀ o : FenceN, o.pre ≠ 0 → o.suc ≠ 0 →
    Issues (.fenceOrd o) { cls := 5, stall := o.st, regsOk := fun _ => o.pre ≠ 0 && o.suc ≠ 0 } (fun _ _ => True)
      (fun c z => (joined z c [z.orderFence c.b c.g c.y o.pre o.suc o.sc.toNat]).pruneFences c.b c.g) ∧
    Issues (.fenceFull o) { cls := 5, stall := o.st, sideEff := true, regsOk := fun _ => o.pre ≠ 0 && o.suc ≠ 0 } (fun _ _ => True)
      (fun c z => ((joined z c [z.orderFence c.b c.g c.y o.pre o.suc o.sc.toNat]).fullDrop c.x o.sc.toNat).pruneFences c.b c.g)) ∧
  (∀ o : FenceO, o.pre ≠ 0 → o.suc ≠ 0 →
    let obj : Ctx → DWord := fun c => c.y.getS (o.obj.toNat + 1) ++ c.y.getS o.obj.toNat
    let info : Bool → Info := fun se => { cls := 5, stall := o.st, sideEff := se, regsOk := fun _ => o.pre ≠ 0 && o.suc ≠ 0,
                                          reads := [.s o.obj.toNat, .s (o.obj.toNat + 1)] }
    let ok : Ctx → State → Prop := fun c z => (uform (obj c)).isSome = true ∧ (obj c).toNat % 8 = 0 ∧ z.objPoint c.x (obj c) ≤ o.sc.toNat
    let rel : Ctx → State → Fence := fun c z => z.releaseFence c.x.ctx c.b c.g c.y o.pre o.suc o.sc.toNat (obj c)
    let acq : Ctx → State → Fence := fun c z => z.acquireFence c.x c.y o.pre o.suc o.sc.toNat (obj c)
    Issues (.fenceRel o) (info true) ok (fun c z => (joined z c [rel c z]).pruneFences c.b c.g) ∧
    Issues (.fenceAcq o) (info false) ok (fun c z => ((joined z c [acq c z]).acquireDrop c.x o.sc.toNat (obj c)).pruneFences c.b c.g) ∧
    Issues (.fenceBoth o) (info true) ok
      (fun c z => ((joined z c [rel c z, acq c z]).acquireDrop c.x o.sc.toNat (obj c)).pruneFences c.b c.g) ∧
    let below : Ctx → State → Prop := fun c z =>
      (uform (obj c)).isSome = true ∧ (obj c).toNat % 8 = 0 ∧ o.sc.toNat < z.objPoint c.x (obj c)
    ∀ (i : Instr) (se : Bool), (i = .fenceRel o ∧ se = true) ∨ (i = .fenceAcq o ∧ se = false) ∨ (i = .fenceBoth o ∧ se = true) →
      Issues i (info se) below
        (fun c z => (joined z c [z.orderFence c.b c.g c.y o.pre o.suc o.sc.toNat]).pruneFences c.b c.g))

/-- R265, R266: BIND answers the index of an equal entry, else the lowest free one, which it fills, else all ones; UNBIND removes an
entry of its owner and answers 0, else all ones. -/
def Obligations.BindAndUnbindAnswerAnIndex : Prop :=
  (∀ o : X4,
    let entry : Ctx → State → Binding := fun c z =>
      { base := c.y.getS2 o.a.toNat, len := (c.y.getS o.b.toNat).toNat % 2 ^ 30, scope := (c.y.getS o.b.toNat).toNat / 2 ^ 30,
        obj := c.y.getS2 o.c.toNat, owner := z.owner c.x.entry }
    let info : Info := { cls := 5, stall := o.st, regsOk := fun _ => sEven o.a && sEven o.c,
                         reads := [.s o.a.toNat, .s (o.a.toNat + 1), .s o.b.toNat, .s o.c.toNat, .s (o.c.toNat + 1)],
                         writes := [.s o.d.toNat] }
    let ok : Ctx → State → Prop := fun c z => bindCheck z c.x (entry c z).base (c.y.getS o.b.toNat) (entry c z).obj = none
    (∀ n, Issues (.bind o) info (fun c z => ok c z ∧ z.binds.find? (fun q => q.1 = c.x.ctx && q.2.2 = entry c z) = some (c.x.ctx, n, entry c z))
      (fun c z => z.modGang c.b c.g fun y => y.setS o.d.toNat (BitVec.ofNat 32 n))) ∧
    (∀ n, Issues (.bind o) info (fun c z => ok c z ∧ z.binds.find? (fun q => q.1 = c.x.ctx && q.2.2 = entry c z) = none
        ∧ (List.range 256).find? (fun k => !(z.binds.any fun e => e.1 = c.x.ctx && e.2.1 = k)) = some n)
      (fun c z => ({ z with binds := z.binds ++ [(c.x.ctx, n, entry c z)] } : State).modGang c.b c.g fun y => y.setS o.d.toNat (BitVec.ofNat 32 n))) ∧
    Issues (.bind o) info (fun c z => ok c z ∧ z.binds.find? (fun q => q.1 = c.x.ctx && q.2.2 = entry c z) = none
        ∧ (List.range 256).find? (fun k => !(z.binds.any fun e => e.1 = c.x.ctx && e.2.1 = k)) = none)
      (fun c z => z.modGang c.b c.g fun y => y.setS o.d.toNat (BitVec.allOnes 32))) ∧
  (∀ o : XABD, o.b = 0 →
    let info : Info := { cls := 5, stall := o.st, regsOk := fun _ => o.b = 0, reads := [.s o.a.toNat], writes := [.s o.d.toNat] }
    let hit : Ctx → State → Nat × Nat × Binding → Bool := fun c z q =>
      q.1 = c.x.ctx && q.2.1 = (c.y.getS o.a.toNat).toNat && q.2.2.owner = z.owner c.x.entry
    (∀ q, Issues (.unbind o) info (fun c z => z.binds.find? (hit c z) = some q)
      (fun c z => ({ z with binds := z.binds.erase q } : State).modGang c.b c.g fun y => y.setS o.d.toNat 0)) ∧
    Issues (.unbind o) info (fun c z => z.binds.find? (hit c z) = none)
      (fun c z => z.modGang c.b c.g fun y => y.setS o.d.toNat (BitVec.allOnes 32)))

/-! ### Locks and barriers -/

/-- R269 to R271: a lock word sends one operation for each lane to its site; the lanes of LKR and LKW wait there for their answers with
their hint running, those of ULR, ULW and LKINIT go on. -/
def Obligations.LockWordsReachTheirSites : Prop :=
  ∀ (i : Instr) (op : Nat) (st sc : BitVec 2) (vd va vb : BitVec 6),
    ((∃ o : AtomF, st = o.st ∧ sc = o.sc ∧ vd = o.vd ∧ va = o.va ∧ vb = o.vb ∧ (i, op) ∈ ([(.lkr o, 0), (.lkw o, 1)] : List (Instr × Nat))) ∨
      (∃ o : AtomLd, st = o.st ∧ sc = o.sc ∧ vd = o.vd ∧ va = o.va ∧ vb = 0 ∧ (i, op) ∈ ([(.ulr o, 2), (.ulw o, 3)] : List (Instr × Nat))) ∨
      (∃ o : AtomSt, st = o.st ∧ sc = o.sc ∧ vd = 0 ∧ va = o.va ∧ vb = o.vb ∧ (i, op) = (.lkinit o, 4))) →
    ∀ loc : Ctx → State → Nat → Loc,
      let accs : Ctx → State → List LaneAcc := fun c z => (lanesOf c.m).map fun l =>
        mkAcc c.y l (loc c z l) (c.atomAddr va sc.toNat l) 8 false (natLe 4 (c.v vb l).toNat) []
      let space : Ctx → State → Nat := fun c z => ((accs c z).head?.map fun a => atomSpace sc.toNat a.loc).getD sc.toNat
      let sent : Ctx → State → State := fun c z => z.addPend { c with hdr := 0x7FFF, nvl := 0 } { Pend.blank .lockop with
        code := op, mask := c.m, clause := some (c.hdr, c.nvl), accs := accs c z, scope := sc.toNat, space := space c z, kd := if vd = 0 then none else some vd.toNat }
      Issues i
        { cls := 5, stall := st, sideEff := true,
          regsOk := fun _ => sc.toNat ≤ 2 && (sc.toNat ≤ 1 || evenV va) && vd.toNat ≤ 11 && (2 ≤ op || vd ≠ 0),
          reads := vRefs (sc.toNat = 2) va ++ (if op < 2 || op = 4 then [.v vb.toNat] else []),
          writes := if vd = 0 then [] else [.k vd.toNat] }
        (fun c z => (∀ l, c.m.getLsbD l = true → lockTags z c op sc.toNat va vb l = none
            ∧ z.atomLoc c.x sc.toNat 8 (c.atomAddr va sc.toNat l) false true = .ok (loc c z l))
          ∧ z.held c.y (accOf .atom (space c z) (2 ≤ op) (accs c z)) = false)
        (fun c z => if op < 2 then (sent c z).modGang c.b c.g fun y => y.mapLanes c.m fun l k =>
            { k with wait := .lock (((accs c z).find? fun a => a.lane = l).map (·.loc) |>.getD (.loc c.b 0)) (op = 1) vd.toNat,
                     hint := some (c.v vb l).toNat }
          else sent c z)
        (decide (2 ≤ op))

/-- R275, R276: an arrival joins the phase in progress, or the next one where its lane is already in; the lanes of BAR and CBAR wait for
the end of the phase they joined; then the phase is tested. -/
def Obligations.BarrierWordsArrive : Prop :=
  (∀ (o : XC) (i : Instr) (wait : Bool), (i, wait) ∈ ([(.bar o, true), (.bararv o, false)] : List (Instr × Bool)) → o.c.toNat < 8 →
    Issues i { cls := 5, stall := o.st, sideEff := true, regsOk := fun _ => o.c.toNat < 8 }
      (fun c z => z.held c.y (arrivalAcc 0) = false)
      (fun c z => ((z.modBlock c.b fun x =>
        let p := x.arrive o.c.toNat c.g c.m
        if wait then
          { p.1 with gangs := p.1.gangs.modify c.g fun y => y.mapLanes c.m fun l k =>
              { k with wait := .bar o.c.toNat (if p.2.getLsbD l then (c.x.bar o.c.toNat).phase + 1 else (c.x.bar o.c.toNat).phase) } }
        else p.1).modBlock c.b Block.testBars).settle)
      (!wait)) ∧
  (∀ (o : X0) (i : Instr) (wait : Bool), (i, wait) ∈ ([(.cbar o, true), (.bararvC o, false)] : List (Instr × Bool)) →
    ∀ u, Issues i { cls := 5, stall := o.st, sideEff := true }
      (fun c z => c.x.unit = some u ∧ z.held c.y (arrivalAcc 1) = false ∧ z.peerEnded c.x = false)
      (fun c z =>
        let cb := z.cbar u
        let cur := arrivedOf cb.arrived (c.x.member, c.g)
        let s1 := z.setCbar { cb with arrived := assocSet cb.arrived (c.x.member, c.g) (cur ||| c.m),
                                      early := assocSet cb.early (c.x.member, c.g) (arrivedOf cb.early (c.x.member, c.g) ||| (c.m &&& cur)) }
        let s2 := if wait then s1.modGang c.b c.g fun y => y.mapLanes c.m fun l k =>
            { k with wait := .cbar (if (c.m &&& cur).getLsbD l then cb.phase + 1 else cb.phase) } else s1
        (s2.testCbar u 2).settle)
      (!wait))

/-- R277, R66, R176: TRYW traps where its word's site refuses it or its line cannot be read; it answers 1 at once where its condition holds,
else its lanes wait with the hint; JOIN and LEAVE change one mask by
the lanes that issue them; WAITK passes where no lane of the mask is still to come, or where a release of its mask is counted that the lane
has not yet seen, else its lanes wait. -/
def Obligations.TryAndMaskWaitsAnswerOrWait : Prop :=
  (∀ (o : X4) (ob : Ctx → State → TryObj) (acc : Ctx → State → Acc),
    let info : Info := { cls := 5, stall := o.st, regsOk := fun _ => !o.a.getLsbD 0 && 1 ≤ o.d.toNat && o.d.toNat ≤ 11 && o.c.toNat ≤ 3,
                         reads := [.s o.a.toNat, .s (o.a.toNat + 1), .s o.b.toNat], writes := [.k o.d.toNat] }
    let ok : Ctx → State → Prop := fun c z => tryObj z c o.c.toNat (c.y.getS2 o.a.toNat) = .ok (ob c z, acc c z) ∧ z.held c.y (acc c z) = false
    (∀ t : Trap, Raises (.tryw o) info (fun c z => ok c z ∧ z.tryTrap c.x (ob c z) = some t) fun _ _ => t) ∧
    Issues (.tryw o) info (fun c z => ok c z ∧ z.tryTrap c.x (ob c z) = none ∧ z.tryHolds c.x c.y (ob c z) = true)
      (fun c z => z.modGang c.b c.g fun y => y.answer o.d.toNat c.m true) ∧
    Issues (.tryw o) info (fun c z => ok c z ∧ z.tryTrap c.x (ob c z) = none ∧ z.tryHolds c.x c.y (ob c z) = false)
      (fun c z => z.modGang c.b c.g fun y => y.mapLanes c.m fun _ k =>
        { k with wait := .tryw (ob c z) o.d.toNat, hint := some (c.y.getS o.b.toNat).toNat }) false) ∧
  (∀ o : XA, 1 ≤ o.a.toNat → o.a.toNat < 12 →
    Issues (.join o) { cls := 5, stall := o.st, sideEff := true, regsOk := fun _ => joinReg o.a, reads := [.k o.a.toNat] } (fun _ _ => True)
      (fun c z => z.modGang c.b c.g fun y => y.setK o.a.toNat (y.getK o.a.toNat ||| c.m)) ∧
    Issues (.leave o) { cls := 5, stall := o.st, sideEff := true, regsOk := fun _ => joinReg o.a, reads := [.k o.a.toNat] } (fun _ _ => True)
      (fun c z => z.modGang c.b c.g fun y => y.setK o.a.toNat (y.getK o.a.toNat &&& ~~~c.m))) ∧
  (∀ o : XA, o.a.toNat < 12 →
    Issues (.waitk o) { cls := 5, stall := o.st, regsOk := fun _ => o.a.toNat < 12, reads := [.k o.a.toNat] } (fun _ _ => True)
      (fun c z => z.modGang c.b c.g fun y => y.mapLanes c.m fun _ l =>
        if l.relSeen < l.relCount then { l.advance false with relSeen := l.relSeen + 1 } else { l with wait := .waitk o.a.toNat c.pc }) false)

/-! ### Tags and transaction barriers -/

/-- R218, R219: WTANY and WTALL go on where their condition holds and no cause is deferred, take the deferred cause of the lowest done tag
that carries one, and else their lanes wait; FFRDY answers the lowest done tag of its mask, or 64; TAGCLR clears the tags that are not
busy; TAGRD reads a tag's record. A mask bit at or beyond TAGS, an empty mask of WTANY and a tag number at or beyond TAGS are ILLEGAL.
(That TAGCLR sets DETAIL to 0 is the model's choice, log 60.) -/
def Obligations.TagWordsTestAndReadTags : Prop :=
  let illegal : Ctx → State → Trap := fun _ z => { cause := 0x01, tval := z.focusWord }
  (∀ (o : X4) (i : Instr) (all : Bool), (i, all) ∈ ([(.wtany o, false), (.wtall o, true)] : List (Instr × Bool)) →
    let info : Info := { cls := 3, stall := o.st, regsOk := fun _ => sEven o.a && o.b = 0 && o.c = 0 && o.d = 0,
                         reads := [.s o.a.toNat, .s (o.a.toNat + 1)] }
    let mask : Ctx → DWord := fun c => c.y.getS (o.a.toNat + 1) ++ c.y.getS o.a.toNat
    let ok : Ctx → State → Prop := fun c z => (∀ n, n < 64 → (mask c).getLsbD n = true → n < c.x.lrec.tags) ∧ (all = false → mask c ≠ 0)
      ∧ z.held c.y waitAcc = false
    let met : Ctx → Prop := fun c => if all then ∀ n, n < 64 → (mask c).getLsbD n = true → (c.x.tag n).done = true
      else ∃ n, n < 64 ∧ (mask c).getLsbD n = true ∧ (c.x.tag n).done = true
    Issues i info (fun c z => ok c z ∧ met c ∧ ∀ n, n < 64 → (mask c).getLsbD n = true → (c.x.tag n).done = true → (c.x.tag n).cause = none)
      (fun _ z => z) ∧
    (∀ (n : Nat) (k : BitVec 8) (v : DWord),
      Issues i info
        (fun c z => ok c z ∧ met c ∧ n < 64 ∧ (mask c).getLsbD n = true ∧ (c.x.tag n).done = true ∧ (c.x.tag n).cause = some (k, v)
          ∧ ∀ j, j < n → (mask c).getLsbD j = true → (c.x.tag j).done = true → (c.x.tag j).cause = none)
        (fun c z => (z.modBlock c.x.id fun x => { c.x with
          tags := c.x.tags.set n { c.x.tag n with cause := none }, gangs := x.gangs }).takeTrap c.b c.g c.m c.pc
            { cause := k, tval := v, defer := true } false) false) ∧
    Issues i info (fun c z => ok c z ∧ ¬met c)
      (fun c z => z.modGang c.b c.g fun y => y.mapLanes c.m fun _ k => { k with wait := .tags (mask c) all }) false ∧
    Raises i info (fun c _ => (∃ n, n < 64 ∧ (mask c).getLsbD n = true ∧ c.x.lrec.tags ≤ n) ∨ (all = false ∧ mask c = 0)) illegal) ∧
  (∀ o : X4,
    let mask : Ctx → DWord := fun c => c.y.getS (o.a.toNat + 1) ++ c.y.getS o.a.toNat
    let ok : Ctx → State → Prop := fun c _ => ∀ n, n < 64 → (mask c).getLsbD n = true → n < c.x.lrec.tags
    let beyond : Ctx → State → Prop := fun c _ => ∃ n, n < 64 ∧ (mask c).getLsbD n = true ∧ c.x.lrec.tags ≤ n
    let ffrdy : Info := { cls := 3, stall := o.st, regsOk := fun _ => sEven o.a && o.b = 0 && o.c = 0,
                          reads := [.s o.a.toNat, .s (o.a.toNat + 1)], writes := [.s o.d.toNat] }
    let tagclr : Info := { cls := 3, stall := o.st, regsOk := fun _ => sEven o.a && o.b = 0 && o.c = 0 && o.d = 0,
                           reads := [.s o.a.toNat, .s (o.a.toNat + 1)] }
    let tagrd : Info := { cls := 3, stall := o.st, regsOk := fun _ => sEven o.a && o.c = 0 && o.d = 0, reads := [.s o.b.toNat],
                          writes := [.s o.a.toNat, .s (o.a.toNat + 1)] }
    let n : Ctx → Nat := fun c => (c.y.getS o.b.toNat).toNat
    Issues (.ffrdy o) ffrdy ok
      (fun c z => z.modGang c.b c.g fun y => y.setS o.d.toNat
        (BitVec.ofNat 32 (((List.range 64).find? fun n => (mask c).getLsbD n && (c.x.tag n).done).getD 64))) ∧
    Raises (.ffrdy o) ffrdy beyond illegal ∧
    Issues (.tagclr o) tagclr ok
      (fun c z => z.modBlock c.b fun x => { x with
        tags := x.tags.mapIdx fun n t =>
          if (mask c).getLsbD n && !t.busy then { busy := false, done := false, status := 0, detail := 0, cause := none } else t }) ∧
    Raises (.tagclr o) tagclr beyond illegal ∧
    Issues (.tagrd o) tagrd (fun c _ => n c < 64 ∧ n c < c.x.lrec.tags)
      (fun c z => z.modGang c.b c.g fun y =>
        (y.setS o.a.toNat ((c.x.tag (n c)).record.extractLsb' 0 32)).setS (o.a.toNat + 1) ((c.x.tag (n c)).record.extractLsb' 32 32)) ∧
    Raises (.tagrd o) tagrd (fun c _ => 64 ≤ n c ∨ c.x.lrec.tags ≤ n c) illegal)

/-- R221 to R224: TBINIT writes a barrier; TBARV arrives and expects bytes, TBEXP expects bytes, on the block's own barrier or on a
member's that allows it; TBWAIT and TBTRY go on once the phase has passed, else their lanes wait; TBRD goes pending. -/
def Obligations.TransactionBarrierWordsChangeOrTestTheBarrier : Prop :=
  (∀ o : TbInit,
    Issues (.tbinit o) { cls := 5, stall := o.st, sideEff := true, reads := [.s o.a.toNat, .s o.b.toNat] }
      (fun c z => tbCheck c.x (c.y.getS o.a.toNat) = none ∧ 1 ≤ (c.y.getS o.b.toNat).toNat ∧ (c.y.getS o.b.toNat).toNat ≤ 1048575
        ∧ z.held c.y { arrivalAcc 0 with ranges := [(uaOf 0 (c.y.getS o.a.toNat).toNat, 16)] } = false)
      (fun c z => (z.modBlock c.b fun x => x.setTb (c.y.getS o.a.toNat).toNat
        { owner := BitVec.ofNat 24 c.x.gix, parked := false, underflow := false, remote := o.r = 1#1, bytes := 0,
          expected := BitVec.ofNat 20 (c.y.getS o.b.toNat).toNat, pending := BitVec.ofNat 20 (c.y.getS o.b.toNat).toNat, phase := 0 }).settle)) ∧
  (∀ (o : TbArv) (i : Instr) (f : Nat → Tb → Tb),
    (i, f) ∈ ([(.tbarv o, fun n t => t.arrive n), (.tbexp o, fun n t => t.add n)] : List (Instr × (Nat → Tb → Tb))) →
    let info : Info := { cls := 5, stall := o.st, sideEff := true, reads := [.s o.a.toNat, .s o.b.toNat] }
    let at_ : Ctx → Nat := fun c => (c.y.getS o.a.toNat).toNat
    let n : Ctx → Nat := fun c => (c.y.getS o.b.toNat).toNat
    Issues i info
      (fun c z => o.w ≠ 1#1 ∧ tbCheck c.x (c.y.getS o.a.toNat) = none ∧ n c < 2 ^ 31
        ∧ z.held c.y { arrivalAcc 0 with ranges := [(uaOf 0 (at_ c), 16)] } = false)
      (fun c z => (z.modBlock c.b fun x => x.setTb (at_ c) (f (n c) (x.tb (at_ c)))).settle) ∧
    ∀ y : Block, Issues i info
      (fun c z => o.w = 1#1 ∧ tbWinCheck c.x (c.y.getS o.a.toNat) = none ∧ n c < 2 ^ 31 ∧ c.x.unit.isSome = true ∧ at_ c < 2 ^ 21
        ∧ z.held c.y { arrivalAcc 1 with ranges := [(uaOf 1 (at_ c), 16)] } = false
        ∧ z.memberOf c.x (at_ c / 2 ^ 19 % 4) = some y ∧ (y.tb (at_ c % 2 ^ 19)).remote = true)
      (fun c z => (z.modBlock y.id fun x => x.setTb (at_ c % 2 ^ 19) (f (n c) (x.tb (at_ c % 2 ^ 19)))).settle)) ∧
  (∀ (i : Instr) (st : BitVec 2) (ra rb rc : BitVec 5) (kd : Option (BitVec 5)),
    ((∃ o : XAB, i = .tbwait o ∧ st = o.st ∧ ra = o.a ∧ rb = o.b ∧ rc = 0 ∧ kd = none) ∨
      (∃ o : X4, i = .tbtry o ∧ st = o.st ∧ ra = o.a ∧ rb = o.b ∧ rc = o.c ∧ kd = some o.d)) →
    let info : Info := { cls := 5, stall := st, regsOk := fun _ => (match kd with | some k => 1 ≤ k.toNat && k.toNat ≤ 11 | none => true),
                         reads := [.s ra.toNat, .s rb.toNat] ++ (match kd with | some _ => [.s rc.toNat] | none => []),
                         writes := match kd with | some k => [.k k.toNat] | none => [] }
    let at_ : Ctx → Nat := fun c => (c.y.getS ra.toNat).toNat
    let ok : Ctx → State → Prop := fun c z => tbCheck c.x (c.y.getS ra.toNat) = none ∧ (c.x.tb (at_ c)).underflow = false
      ∧ z.held c.y { waitAcc with ranges := [(uaOf 0 (at_ c), 16)] } = false
    Issues i info
      (fun c z => ok c z ∧ (c.x.tb (at_ c)).phase ≠ (c.y.getS rb.toNat).extractLsb' 0 4 ∧ c.x.barCause (at_ c) = none)
      (fun c z => match kd with | some k => z.modGang c.b c.g fun y => y.answer k.toNat c.m true | none => z) ∧
    Issues i info
      (fun c z => ok c z ∧ (c.x.tb (at_ c)).phase = (c.y.getS rb.toNat).extractLsb' 0 4)
      (fun c z => z.modGang c.b c.g fun y => y.mapLanes c.m fun _ l =>
        { l with wait := .tb (at_ c) ((c.y.getS rb.toNat).extractLsb' 0 4) (kd.map (·.toNat)),
                 hint := kd.map fun _ => (c.y.getS rc.toNat).toNat }) false) ∧
  (∀ o : TbRd,
    let at_ : Ctx → Nat := fun c => (c.y.getS o.a.toNat).toNat + 8 * o.h.toNat
    let accs : Ctx → List LaneAcc := fun c => [mkAcc c.y ((lowest c.m).getD 0) (.loc c.b (at_ c)) (uaOf 0 (at_ c)) 8 false [] []]
    GoesPending (.tbrd o) { cls := 5, stall := o.st, varLat := true, reads := [.s o.a.toNat], writes := [.v (2 * o.d.toNat), .v (2 * o.d.toNat + 1)] }
      (fun c z => tbCheck c.x (c.y.getS o.a.toNat) = none ∧ z.held c.y (accOf .load 0 false (accs c)) = false)
      (fun c _ => { Pend.blank .tbrd with
        dst := [(2 * o.d.toNat, Vector.replicate 32 tI64LO), (2 * o.d.toNat + 1, Vector.replicate 32 tI64HI)], mask := c.m, accs := accs c,
        space := 0 }))

/-! ### Standing loads -/

/-- R281, R282, R287 to R289: SLD zeroes its gill, marks its tag and sends its request; SLWAIT answers at once or its lanes wait; SLACK
returns credits; USUB sends the end of its subscription, or ends an SLD that has not arrived. -/
def Obligations.StandingLoadWordsStart : Prop :=
  (∀ (o : X4) (s1 : Ctx → State → State),
    let every : Ctx → Bool := fun c => (c.y.getS o.c.toNat).getLsbD 1
    let r : Ctx → Nat := fun c => (c.y.getS o.c.toNat).toNat / 4 % 8
    let size : Ctx → Nat := fun c => if (c.y.getS o.c.toNat).getLsbD 0 then 8 else 4
    let base : Ctx → Nat := fun c => (c.y.getS o.b.toNat).toNat
    let n : Ctx → Nat := fun c => if every c then 16 * (2 ^ r c + 1) else 16
    Issues (.sld o)
      { cls := 3, stall := o.st, sideEff := true, regsOk := fun _ => sPair o.a,
        reads := [.s o.a.toNat, .s (o.a.toNat + 1), .s o.b.toNat, .s o.c.toNat, .s o.d.toNat] }
      (fun c z => sldCheck z c.x (c.y.getS2 o.a.toNat) (c.y.getS o.b.toNat) (c.y.getS o.c.toNat) (c.y.getS o.d.toNat) = none
        ∧ c.y.localBusy c.b (base c) (n c) = false ∧ z.directory c.x.die c.x.core < 512
        ∧ ((z.putLocal c.b (base c) (List.replicate (n c) 0)).modBlock c.b fun x => { x with
            oldGills := x.oldGills.filter fun g => !overlap g.base g.size (base c) (n c) }).openOp c (.sld (c.y.getS2 o.a.toNat) (size c) (every c) (r c) (base c))
            (c.y.getS o.d.toNat) true [(c.y.getS2 o.a.toNat, size c)] [] 0 = some (s1 c z))
      (fun c z => (s1 c z).settle)) ∧
  (∀ o : X4,
    let a : Ctx → Word := fun c => c.y.getS o.a.toNat
    let off : Ctx → Nat := fun c => (a c).toNat % 2 ^ 19
    let info : Info := { cls := 3, stall := o.st, regsOk := fun _ => 1 ≤ o.d.toNat && o.d.toNat ≤ 11,
                         reads := [.s o.a.toNat, .s o.b.toNat, .s o.c.toNat], writes := [.k o.d.toNat] }
    let ok : Ctx → State → Prop := fun c z => watchCheck z c.x (a c) = none ∧ c.y.localBusy c.b (off c) 16 = false
      ∧ z.held c.y { cls := .load, point := 0, ranges := [(uaOf 0 (off c), 16)] } = false
    Issues (.slwait o) info (fun c z => ok c z ∧ c.x.slHolds (off c) ((a c).getLsbD 31) (c.y.getS o.b.toNat) = true)
      (fun c z => z.modGang c.b c.g fun y => (y.noteSlwait c.b (off c)).answer o.d.toNat c.m true) ∧
    Issues (.slwait o) info (fun c z => ok c z ∧ c.x.slHolds (off c) ((a c).getLsbD 31) (c.y.getS o.b.toNat) = false)
      (fun c z => z.modGang c.b c.g fun y => y.mapLanes c.m fun _ k =>
        { k with wait := .slwait (off c) ((a c).getLsbD 31) (c.y.getS o.b.toNat) o.d.toNat, hint := some (c.y.getS o.c.toNat).toNat }) false) ∧
  (∀ o : XAB,
    let base : Ctx → Nat := fun c => (c.y.getS o.a.toNat).toNat
    let n : Ctx → Nat := fun c => (c.y.getS o.b.toNat).toNat
    let info : Info := { cls := 3, stall := o.st, sideEff := true, reads := [.s o.a.toNat, .s o.b.toNat] }
    Issues (.slack o) info
      (fun c z => 1 ≤ n c ∧ n c ≤ 16 ∧ z.openSld c.b (base c) = none ∧ z.openSub c.b (base c) = none) (fun _ z => z) ∧
    ∀ u : Sub,
      let ctl : Ctx → Nat := fun c => base c + 16 * 2 ^ u.r
      let di : Ctx → Word := fun c => BitVec.ofNat 32 (leNat (c.x.mem.read (ctl c) 4))
      let ci : Ctx → Word := fun c => BitVec.ofNat 32 (leNat (c.x.mem.read (ctl c + 4) 4))
      Issues (.slack o) info
        (fun c z => 1 ≤ n c ∧ n c ≤ 16 ∧ z.openSld c.b (base c) = none ∧ z.openSub c.b (base c) = some u ∧ u.every = true
          ∧ n c ≤ (di c - ci c).toNat)
        (fun c z => ((z.putLocal c.b (ctl c + 4) (natLe 4 (ci c + BitVec.ofNat 32 (n c)).toNat)).setSub { u with due := u.due + n c }).settle)) ∧
  (∀ o : XAD,
    let base : Ctx → Nat := fun c => (c.y.getS o.a.toNat).toNat
    let compl : Ctx → Word := fun c => c.y.getS o.d.toNat
    Issues (.usub o) { cls := 3, stall := o.st, sideEff := true, reads := [.s o.a.toNat, .s o.d.toNat] }
      (fun c z => z.complCheck c.x (compl c) true = none)
      (fun c z => (z.markTag c.x (compl c)).usub c.b c.g c.y.seq (base c) (compl c)))

/-! ### Copies and collectives -/

/-- R199, R201: an operation that starts pins its block's translation where it translates, marks its completion tag busy with no status,
and joins the operations in its gang's issue order. -/
def Obligations.StartingAnOperationPinsMarksAndJoins : Prop :=
  ∀ (s s1 : State) (c : Ctx) (kind : OpKind) (compl : Word) (pin : Bool) (rd wr : List (DWord × Nat)) (point : Nat),
    s.openOp c kind compl pin rd wr point = some s1 →
    s1.ops = s.ops ++ [{ id := s.nextId, kind := kind, b := c.b, g := c.g, seq := c.y.seq, compl := compl,
                         slot := if pin then some c.x.rootSlot else none, reads := [], landed := [], fault := none,
                         reads_ := rd, writes_ := wr, point := point, away := false, recN := c.y.recN }] ∧
    s1.nextId = s.nextId + 1 ∧
    (pin = true → (s1.root c.x.rootSlot).pins = (s.root c.x.rootSlot).pins + 1) ∧
    (pin = false → s1.roots = s.roots) ∧
    (∀ l, s1.readByte l = s.readByte l) ∧
    (∀ (x : Block) (n : Nat), s.block? c.x.id = some x → compl.getLsbD 31 = false → n = compl.toNat % 64 → n < x.tags.length →
      ∃ x1, s1.block? c.x.id = some x1 ∧ x1.tags = x.tags.set n { busy := true, done := false, status := 0, detail := 0, cause := none })

/-- R200 to R206, R327 to R329, R383, R384, R43: CPY, CPY2D, GTH, SCT, CPYT, KVL and COLL start their operation, with the sectors, ranges
and point that their operands name, and charge its access units to the entry. That GTH, SCT and CPY2D issue with no check of alignment
beyond their rules' own is the model's reading (DEDUCED, log 62). The operation of zero bytes, which is complete at its issue, is left out. -/
def Obligations.CopyWordsStartTheirOperation : Prop :=
  ∀ s1 : Ctx → State → State,
  let started : Instr → Info → (Ctx → State → Prop) → (Ctx → State → OpKind) → (Ctx → Word) → (Ctx → State → Nat) → (Ctx → State → List (DWord × Nat)) →
      (Ctx → State → List (DWord × Nat)) → (Ctx → State → Nat) → Prop :=
    fun i info ok kind compl units rd wr point =>
      Issues i info
        (fun c z => ok c z ∧ (kind c z).count ≠ 0
          ∧ z.held c.y { cls := .copy, point := point c z, ranges := wr c z, writes := true } = false
          ∧ z.shortfall c.x.entry 2 (units c z) = none ∧ z.openOp c (kind c z) (compl c) true (rd c z) (wr c z) (point c z) = some (s1 c z))
        (fun c z => (s1 c z).charge c.x.entry 2 (units c z))
  (∀ o : X4,
    let d : Ctx → DWord := fun c => c.y.getS2 o.a.toNat
    let a : Ctx → DWord := fun c => c.y.getS2 o.b.toNat
    let w : Ctx → Nat := fun c => (c.y.getS o.c.toNat).toNat
    let len : Ctx → Nat := fun c => w c % 2 ^ 25
    let mx : Ctx → Bool := fun c => w c / 2 ^ 25 % 2 = 1
    let unit : Ctx → Nat := fun c => if mx c then efmtBytes (w c / 2 ^ 26 % 4) + 1 else 0
    started (.cpy o) (copyInfo o.st [o.a, o.b] [o.c, o.d] true)
      (fun c z => formCheck (d c) = none ∧ formCheck (a c) = none
        ∧ (mx c = false → (d c).toNat % 16 = 0 ∧ (a c).toNat % 16 = 0 ∧ len c % 16 = 0) ∧ (mx c = true → len c % unit c = 0)
        ∧ w c < 2 ^ 28 ∧ w c / 2 ^ 26 % 4 ≠ 3 ∧ len c ≤ 16777216
        ∧ z.rangeCheck c.x (d c) (len c) = none ∧ z.rangeCheck c.x (a c) (len c) = none ∧ z.complCheck c.x (c.y.getS o.d.toNat) false = none)
      (fun c _ => .cpy (d c) (a c) (len c) (unit c)) (fun c => c.y.getS o.d.toNat) (fun c _ => (len c + 255) / 256)
      (fun c _ => [(a c, len c)]) (fun c _ => [(d c, len c)]) (fun c z => max (z.pointOf c.x (d c) (len c)) (z.pointOf c.x (a c) (len c)))) ∧
  (∀ o : XAD,
    let at_ : Ctx → Word := fun c => c.y.getS o.a.toNat
    let d : Ctx → List Byte := fun c => c.x.mem.read (at_ c).toNat 64
    let compl : Ctx → Word := fun c => c.y.getS o.d.toNat
    let ready : Ctx → State → Prop := fun c _ => descCheck c.x (at_ c) = none ∧ c.y.localBusy c.b (at_ c).toNat 64 = false
    started (.cpy2d o) (copyInfo o.st [] [o.a, o.d] true)
      (fun c z => ready c z ∧ c2Check z c.x (at_ c).toNat (d c) = none ∧ z.complCheck c.x (compl c) false = none)
      (fun c _ => .cpy2d (d c)) compl (fun c _ => ((OpKind.cpy2d (d c)).total + 255) / 256) (fun c _ => c2Ranges (d c) false)
      (fun c _ => c2Ranges (d c) true)
      (fun c z => ((c2Ranges (d c) false ++ c2Ranges (d c) true).map fun r => z.pointOf c.x r.1 r.2).foldl max 0) ∧
    (let tb : Ctx → DWord := fun c => BitVec.ofNat 64 (dfield (d c) 0 8)
     let bk : Ctx → DWord := fun c => BitVec.ofNat 64 (dfield (d c) 8 8)
     let count : Ctx → Nat := fun c => dfield (d c) 0x18 4 % 2 ^ 16
     let k : Ctx → Nat := fun c => dfield (d c) 0x18 4 / 2 ^ 16 % 32
     let dest : Ctx → Nat := fun c => dfield (d c) 0x1C 4
     started (.kvl o) (copyInfo o.st [] [o.a, o.d] true)
       (fun c z => ready c z ∧ kvlCheck c.x (at_ c).toNat (d c) = none ∧ z.complCheck c.x (compl c) false = none)
       (fun c _ => .kvl (tb c) (bk c) (BitVec.ofNat 32 (dfield (d c) 0x10 4)) (BitVec.ofNat 32 (dfield (d c) 0x14 4)) (count c) (k c) (dest c)
         (BitVec.ofNat 32 (dfield (d c) 0x20 4)) [] false)
       compl (fun c _ => (64 * count c + 255) / 256) (fun c _ => [(bk c, 16 * 2 ^ k c)]) (fun c _ => [(uaOf 0 (dest c), 4 * count c)])
       (fun c z => max (z.pointOf c.x (tb c) 16) (z.pointOf c.x (bk c) (16 * 2 ^ k c)))) ∧
    (∀ gp : Group,
      let elem : Ctx → Nat := fun c => if dfield (d c) 1 1 = 1 then 2 else 4
      let bytes : Ctx → Nat := fun c => dfield (d c) 0x18 4 * elem c
      let src : Ctx → DWord := fun c => BitVec.ofNat 64 (dfield (d c) 8 8)
      let dst : Ctx → DWord := fun c => BitVec.ofNat 64 (dfield (d c) 0x10 8)
      let nsrc : Ctx → Nat := fun c => collSrc (dfield (d c) 0 1) (bytes c) gp.n
      let ndst : Ctx → Nat := fun c => collDst (dfield (d c) 0 1) (bytes c) gp.n
      let point : Ctx → State → Nat := fun c z => max (z.pointOf c.x (src c) (nsrc c)) (z.pointOf c.x (dst c) (ndst c))
      let units : State → Nat := fun z => (collSent gp.n z.fresh + 255) / 256
      Issues (.coll o) (copyInfo o.st [] [o.a, o.d] true)
        (fun c z => z.groupOf c.x = some gp ∧ ready c z ∧ collCheck z (d c) gp.n = none ∧ z.complCheck c.x (compl c) true = none
          ∧ z.shortfall c.x.entry 2 (units z) = none
          ∧ z.openOp c (.coll (dfield (d c) 0 1) (dfield (d c) 1 1) (dfield (d c) 2 1) (dfield (d c) 4 4) (src c) (dst c) (dfield (d c) 0x18 4) gp.n
              gp.rank (z.collNumber c.x.entry) (c.pc.setWidth 64)) (compl c) true [(src c, nsrc c)] [(dst c, ndst c)] (point c z) = some (s1 c z))
        (fun c z =>
          { ((s1 c z).countColl c.x.entry).charge c.x.entry 2 (units z) with fresh := z.fresh + 1 }))) ∧
  (∀ (o : X4) (i : Instr) (isGth : Bool), (i, isGth) ∈ ([(.gth o, true), (.sct o, false)] : List (Instr × Bool)) →
    let a : Ctx → DWord := fun c => c.y.getS2 o.a.toNat
    let list : Ctx → Word := fun c => c.y.getS o.b.toNat
    let w : Ctx → Nat := fun c => (c.y.getS o.c.toNat).toNat
    let n : Ctx → Nat := fun c => w c % 2 ^ 13
    let e : Ctx → Nat := fun c => 16 * (w c / 2 ^ 16 % 2 ^ 12)
    started i (copyInfo o.st [o.a] [o.b, o.c, o.d] true)
      (fun c z => formCheck (a c) = none ∧ (list c).toNat % 8 = 0 ∧ 1 ≤ n c ∧ n c ≤ 4096 ∧ 1 ≤ e c
        ∧ w c / 2 ^ 13 % 8 = 0 ∧ w c < 2 ^ 28 ∧ n c * e c ≤ 16777216 ∧ z.rangeCheck c.x (a c) (n c * e c) = none
        ∧ (list c).toNat + 8 * n c ≤ c.x.lrec.localB ∧ z.complCheck c.x (c.y.getS o.d.toNat) false = none)
      (fun c _ => if isGth then .gth (a c) (list c).toNat (n c) (e c) else .sct (a c) (list c).toNat (n c) (e c)) (fun c => c.y.getS o.d.toNat)
      (fun c _ => (n c * e c + 255) / 256)
      (fun c _ => (if isGth then [] else [(a c, n c * e c)]) ++ [(uaOf 0 (list c).toNat, 8 * n c)])
      (fun c _ => if isGth then [(a c, n c * e c)] else (List.range (n c)).map fun i => (listEntry c.x (list c).toNat i, e c)) (fun c z => z.pointOf c.x (a c) (n c * e c))) ∧
  (∀ o : X4,
    let pre : Bool := o.a = 0
    let d : Ctx → DWord := fun c => c.y.getS2 o.a.toNat
    let a : Ctx → DWord := fun c => c.y.getS2 o.b.toNat
    let w : Ctx → Nat := fun c => (c.y.getS o.c.toNat).toNat
    started (.cpyt o) (copyInfo o.st (if o.a = 0 then [o.b] else [o.a, o.b]) [o.c, o.d] true)
      (fun c z => (pre = false → mainCheck (d c) = none ∧ (d c).toNat % 16 = 0) ∧ mainCheck (a c) = none ∧ (a c).toNat % 16 = 0
        ∧ w c ≤ 16777216 ∧ w c % 16 = 0 ∧ z.complCheck c.x (c.y.getS o.d.toNat) false = none)
      (fun c _ => .cpyt (if pre then none else some (d c)) (a c) (w c)) (fun c => c.y.getS o.d.toNat) (fun c _ => (w c + 255) / 256)
      (fun c _ => [(a c, w c)]) (fun c _ => if pre then [] else [(d c, w c)])
      (fun c z => if pre then z.pointOf c.x (a c) (w c) else max (z.pointOf c.x (d c) (w c)) (z.pointOf c.x (a c) (w c))))

/-! ### The matrix engine -/

/-- R312 to R318, R320 to R324: a member of MT, ATT, ATTFIN and SIGMK whose checks pass and whose operands are in the swizzle it expects
pins its block's slot, is charged its matrix units and accepted by the engine. -/
def Obligations.MatrixWordsAreAccepted : Prop :=
  ∀ s1 : Ctx → State → State,
  let taken : Instr → Info → (Ctx → State → Prop) → (Ctx → MatKind) → (Ctx → Word) → (Ctx → Option Word) → (Ctx → Nat) → Nat → Prop :=
    fun i info ok k compl cons units point =>
      Issues i info
        (fun c z => ok c z ∧ z.held c.y { cls := .copy, point := point, ranges := (k c).writes, writes := !(k c).writes.isEmpty } = false
          ∧ (∀ r ∈ (k c).reads, z.swzMiss c.x r = false) ∧ z.shortfall c.x.entry 1 (units c) = none
          ∧ (match cons c with | some w => (z.markTag c.x (compl c)).markTag c.x w | none => z.markTag c.x (compl c)).pin c.x.rootSlot = some (s1 c z))
        (fun c z => ((s1 c z).charge c.x.entry 1 (units c)).openMat c.b c.g c.y.seq (k c) (compl c) (some c.x.rootSlot)
          ((cons c).map fun w => w.toNat % 64) (units c) point)
  (∀ (o : XAD) (i : Instr) (sub : Nat) (units : List Byte → Nat),
    (i, sub, units) ∈ ([(.mtile o, 0, fun d => 2 * tKg d), (.mtilex o, 1, fun d => 2 * tKg d), (.mzclr o, 2, fun _ => 1), (.mzld o, 3, fun _ => 16),
      (.mzst o, 4, fun _ => 16), (.mzscl o, 5, fun _ => 4)] : List (Instr × Nat × (List Byte → Nat))) →
    let at_ : Ctx → Word := fun c => c.y.getS o.a.toNat
    let d : Ctx → List Byte := fun c => c.x.mem.read (at_ c).toNat 64
    let compl : Ctx → Word := fun c => c.y.getS o.d.toNat
    let cons : Ctx → Option Word := fun c => consOf (dfield (d c) 0x20 4)
    taken i (matInfo o.st [o.a, o.d])
      (fun c z => descCheck c.x (at_ c) = none ∧ c.y.localBusy c.b (at_ c).toNat 64 = false ∧ tileBad sub (d c) = false
        ∧ tZd (d c) < c.x.lrec.ztiles ∧ (∀ r ∈ (MatKind.tile sub (d c)).reads, z.mrangeCheck c.x r.a r.n = none)
        ∧ (∀ r ∈ (MatKind.tile sub (d c)).writes, z.mrangeCheck c.x r.1 r.2 = none) ∧ tileTags sub (d c) (c.x.tile (tZd (d c))) = none
        ∧ z.matCompl c.x (compl c) (cons c) (sub ≠ 4) = none)
      (fun c => .tile sub (d c)) compl cons (fun c => units (d c)) (if sub = 1 then 1 else 0)) ∧
  (∀ (o : XAD) (i : Instr) (fin : Bool), (i, fin) ∈ ([(.att o, false), (.attfin o, true)] : List (Instr × Bool)) →
    let at_ : Ctx → Word := fun c => c.y.getS o.a.toNat
    let d : Ctx → List Byte := fun c => c.x.mem.read (at_ c).toNat 64
    let compl : Ctx → Word := fun c => c.y.getS o.d.toNat
    let cons : Ctx → Option Word := fun c => consOf (dfield (d c) 0x30 4)
    let k : Ctx → MatKind := fun c => if fin then .attfin (d c) else .att (d c)
    taken i (matInfo o.st [o.a, o.d])
      (fun c z => descCheck c.x (at_ c) = none ∧ c.y.localBusy c.b (at_ c).toNat 64 = false ∧ attBad fin (d c) = false
        ∧ (∀ n ∈ (k c).tiles, n < c.x.lrec.ztiles ∧ (c.x.tile n).isInt = false) ∧ (∀ r ∈ (k c).reads, z.mrangeCheck c.x r.a r.n = none)
        ∧ (∀ r ∈ (k c).writes, z.mrangeCheck c.x r.1 r.2 = none) ∧ z.matCompl c.x (compl c) (cons c) (!fin) = none)
      k compl cons (fun c => if fin then aDim (d c) / 8 else aDim (d c) / 4 + 8) 0) ∧
  (∀ o : XABD,
    let n : Ctx → Nat := fun c => (c.y.getS o.a.toNat).toNat
    let off : Ctx → Nat := fun c => (c.y.getS o.b.toNat).toNat
    let compl : Ctx → Word := fun c => c.y.getS o.d.toNat
    taken (.sigmk o) (matInfo o.st [o.a, o.b, o.d])
      (fun c z => n c < 32 ∧ n c < c.x.lrec.ztiles ∧ off c % 8 = 0 ∧ off c + 512 ≤ c.x.lrec.localB ∧ z.complCheck c.x (compl c) false = none)
      (fun c => .sigmk (n c) (off c)) compl (fun _ => none) (fun _ => 4) 0)

/-- R308 to R311, R325: CVSET gives a convergence register its set, CVCLR empties it and frees the lanes it holds; MMA and MMAC sign it for
their lanes, those that have signed already waiting, and a full register issues its operation; SIGF writes its mask. That CVSET with TWO
clear issues whatever its second gang field holds is the model's reading (DEDUCED, log 82). -/
def Obligations.ConvergenceWordsSignAndIssue : Prop :=
  (∀ o : XAB,
    let w : Ctx → Nat := fun c => (c.y.getS o.b.toNat).toNat
    let g0 : Ctx → Nat := fun c => w c % 32
    let g1 : Ctx → Nat := fun c => w c / 256 % 32
    let two : Ctx → Bool := fun c => w c / 2 ^ 15 % 2 = 1
    Issues (.cvset o) { cls := 1, stall := o.st, sideEff := true, regsOk := fun x => o.a.toNat < x.lrec.gregs, reads := [.s o.b.toNat] }
      (fun c _ => w c / 32 % 8 = 0 ∧ w c / 2 ^ 13 % 4 = 0 ∧ w c < 2 ^ 16 ∧ g0 c < c.x.lrec.gangs
        ∧ (two c = true → g1 c < c.x.lrec.gangs ∧ g0 c ≠ g1 c) ∧ (c.x.cvReg o.a.toNat).fixed = none)
      (fun c z => z.modBlock c.b fun x => { x with
        cv := x.cv.set o.a.toNat { set := if two c then [g0 c, g1 c] else [g0 c], signed := [], rows := [], fixed := none, latch := none } })) ∧
  (∀ o : XA,
    Issues (.cvclr o) { cls := 1, stall := o.st, sideEff := true, regsOk := fun x => o.a.toNat < x.lrec.gregs } (fun _ _ => True)
      (fun c z => z.modBlock c.b fun x => { x with
        cv := x.cv.set o.a.toNat { set := [], signed := [], rows := [], fixed := none, latch := none }
        gangs := x.gangs.map fun y => y.mapLanes y.live fun _ l => if l.wait = .signed o.a.toNat then { l with wait := .none } else l })) ∧
  (∀ (o : MmaF) (i : Instr) (win : Bool), (i, win) ∈ ([(.mma o, false), (.mmac o, true)] : List (Instr × Bool)) →
    ∀ s c z, s.clears (mmaInfo o s) = some (c, z) →
      let v := c.x.cvReg o.gn.toNat
      let sb := c.y.getS o.sb.toNat
      let tag := ((c.y.getT o.va.toNat).toArray.getD ((lowest c.m).getD 0) 0)
      let asc : Bool := sb.getLsbD 22
      let w : Word := z.focusWord.setWidth 32 &&& 0x3FF87F07
      let held := c.m &&& v.signedOf c.g
      let new := c.m &&& ~~~held
      let latch := (match v.latch with | some q => if q.va = o.va.toNat && q.asc = asc then some q else none | none => none)
      let row : Nat → Nat × List Byte := fun l =>
        (v.rowOf c.g l, match latch with
          | some q => ((q.rows.find? fun p => p.1 = v.rowOf c.g l).map Prod.snd).getD (List.replicate 34 0)
          | none => c.y.rowBytes o.va.toNat l asc)
      let v1 : CvReg := { v with
        fixed := some (w, sb, tag.toNat), latch := latch, rows := v.rows ++ (lanesOf new).map row,
        signed := (c.g, v.signedOf c.g ||| new) :: v.signed.filter fun p => p.1 ≠ c.g }
      v.set.contains c.g = true →
      (∀ l, c.m.getLsbD l = true → mmaLane c o.va.toNat o.bfmt.toNat o.zd.toNat l = none ∧ (c.y.getT o.va.toNat).toArray.getD l 0 = tag) →
      mmaOperand z c win sb o.va.toNat o.bfmt.toNat (tagCode tag) = none →
      (∀ f, v.fixed = some f → f = (w, sb, tag.toNat)) →
      (v1.full c.x = true → z.shortfall c.x.entry 1 2 = none ∧ z.held c.y { cls := .copy, point := if win then 1 else 0 } = false) →
      exec i s = .next (s.issued (mmaInfo o s) c
        (((z.modBlock c.b fun x => { x with cv := x.cv.set o.gn.toNat v1 }).modGang c.b c.g fun y =>
          (y.mapLanes held fun _ l => { l with wait := .signed o.gn.toNat }).mapLanes new fun _ l => l.advance false).testCv c.b c.g o.gn.toNat)
        false)) ∧
  (∀ o : X4,
    let off : Ctx → Nat := fun c => (c.y.getS o.c.toNat).toNat
    let r : Ctx → Nat := fun c => (c.y.getS o.d.toNat).toNat
    let mask : Ctx → DWord := fun c => sigMask c.x (c.y.getS2 o.b.toNat) (off c) (r c)
    Issues (.sigf o)
      { cls := 1, stall := o.st, regsOk := fun _ => sPair o.a && sPair o.b,
        reads := [.s o.b.toNat, .s (o.b.toNat + 1), .s o.c.toNat, .s o.d.toNat], writes := [.s o.a.toNat, .s (o.a.toNat + 1)] }
      (fun c z => off c % 8 = 0 ∧ off c + 512 ≤ c.x.lrec.localB ∧ r c ≤ 64 ∧ c.y.localBusy c.b (off c) 512 = false
        ∧ z.held c.y { cls := .load, point := 0, ranges := [(uaOf 0 (off c), 512)] } = false)
      (fun c z => z.modGang c.b c.g fun y =>
        (y.setS o.a.toNat ((mask c).extractLsb' 0 32)).setS (o.a.toNat + 1) ((mask c).extractLsb' 32 32)))

/-! ### Control flow -/

/-- R98, R168 to R172: a direct branch or call takes the lanes whose mask bit, inverted by neg, is set, or all with k = 12, and the others
fall through; BRX, CALLX and RET take their active lanes to the address of each. Where lanes part at a branch, BRX, CALL or CALLX, TPAR
takes the word's address; RET leaves TPAR as it is. That CALL sets it is the model's reading (DEDUCED, log 76). That a target and the next
header are taken modulo 2^48 (DESIGN CHOICE, log 163), and that RET refills from its spill place at or beyond the end of the stack too
(DESIGN CHOICE, log 161), are the model's choices. -/
def Obligations.BranchesAndCallsMoveTheirLanes : Prop :=
  let place : Ctx → State → (Nat → Lane → Lane) → State := fun c z f => z.modGang c.b c.g fun y => y.place c.m c.pc f
  (∀ o : Jf,
    let t : Ctx → Word := fun c => maskOf fun l => c.m.getLsbD l && (o.k.toNat = 12 || ((c.y.getK o.k.toNat).getLsbD l != o.neg.getLsbD 0))
    let move : Ctx → Nat → Lane → Lane := fun c n l =>
      if (t c).getLsbD n then { l with pc := c.hpc + 4 * o.off.signExtend 48, pos := .header .transferred, bpPass := false, vlHere := false }
      else { l with pc := nextHeader c.hpc c.hdr, pos := .header .fell, bpPass := false, vlHere := false }
    let info : Info := { cls := 4, stall := o.st, transfer := true, reads := if o.k.toNat < 12 then [.k o.k.toNat] else [] }
    let whole : Ctx → Prop := fun c => o.u = 1#1 → t c = 0 ∨ t c = c.m
    Issues (.bra o) info (fun c _ => whole c) (fun c z => place c z (move c)) false ∧
    Issues (.call o) info (fun c _ => whole c ∧ (∀ l, (t c).getLsbD l = true → c.y.pushOverflow c.x l = none) ∧ c.spillBusy (t c) false = false)
      (fun c z => pushAll z c (t c) ((nextHeader c.hpc c.hdr).setWidth 64) (move c)) false ∧
    ∀ s d core q w a hpc h, s.focus = .ap d core q w → s.apq? d core q = some a → a.clause = some (hpc, h) → o.u = 1#1 → o.k.toNat ≠ 0 →
      let ent := ((s.block? a.b).map (·.entry)).getD 0
      s.shortfall ent 2 1 = none →
      exec (.bra o) s = .next { (s.charge ent 2 1).setApq d core q { a with
        pc := if o.k.toNat = 12 || ((a.getK o.k.toNat).getLsbD 0 != o.neg.getLsbD 0) then hpc + 4 * o.off.signExtend 48 else nextHeader hpc h
        clause := none } with focus := .idle, progress := true }) ∧
  (∀ o : Jxr,
    let m : Ctx → Word := fun c => c.active o.pk
    let info : Info := { cls := 4, stall := o.st, transfer := true, regsOk := fun _ => evenV o.va,
                         reads := pkReads o.pk ++ [.v o.va.toNat, .v (o.va.toNat + 1)] }
    let move : Ctx → Nat → Lane → Lane := fun c n l =>
      if (m c).getLsbD n then { l with pc := (c.pair o.va n).setWidth 48, pos := .header .transferred, bpPass := false, vlHere := false }
      else { l with pc := nextHeader c.hpc c.hdr, pos := .header .fell, bpPass := false, vlHere := false }
    let ok : Ctx → Prop := fun c => c.allActive o.pk fun l => pairChk c o.va 0 false l = none ∧ (c.pair o.va l).toNat < 2 ^ 48
      ∧ (c.pair o.va l).toNat % 4 = 0
    Issues (.brx o) info (fun c _ => ok c) (fun c z => place c z (move c)) false ∧
    Issues (.callx o) info
      (fun c _ => ok c ∧ (∀ l, (m c).getLsbD l = true → c.y.pushOverflow c.x l = none) ∧ c.spillBusy (m c) false = false)
      (fun c z => pushAll z c (m c) ((nextHeader c.hpc c.hdr).setWidth 64) (move c)) false) ∧
  (∀ o : JxRet,
    let m : Ctx → Word := fun c => c.active o.pk
    Issues (.ret o) { cls := 4, stall := o.st, transfer := true, reads := pkReads o.pk }
      (fun c _ => (∀ l, (m c).getLsbD l = true → (c.y.lane l).dep ≠ 0 ∧ ((c.y.lane l).stack.headD 0).toNat < 2 ^ 48
          ∧ ((c.y.lane l).stack.headD 0).toNat % 4 = 0) ∧ c.spillBusy (m c) true = false)
      (fun c z => z.modGang c.b c.g fun y => y.mapLanes c.m fun n l =>
        if (m c).getLsbD n then
          { l with
            dep := l.dep - 1
            stack := l.stack.tail ++ (if 4 ≤ l.dep - 1 then [c.x.spDword c.g (y.spillOff (l.dep - 5) n)] else [])
            pc := (l.stack.headD 0).setWidth 48, pos := .header .transferred, bpPass := false, vlHere := false }
        else { l with pc := nextHeader c.hpc c.hdr, pos := .header .fell, bpPass := false, vlHere := false }) false)

/-- R177 to R182: EXIT ends its lanes and tries what waited for them; YIELD moves the fairness count where another fragment is awake, and else does nothing; RREF refreshes
the block's root slot and answers it; BGET answers what is left of a budget. That it reads one above 32 bits as
0xFFFFFFFF is the model's choice (DESIGN CHOICE, log 162). -/
def Obligations.ControlWordsComplete : Prop :=
  (∀ o : X0,
    Issues (.exit o) { cls := 4, stall := o.st, transfer := true } (fun _ _ => True)
      (fun c z => (z.modGang c.b c.g fun y => y.exitLanes c.m (c.x.lrec.handler.setWidth 48)).afterExit c.x c.g) false ∧
    Issues (.yield o) { cls := 4, stall := o.st } (fun _ _ => True)
      (fun c z => z.modGang c.b c.g fun y => match y.turn with
        | some (t, iss, _) => if (y.awake &&& ~~~c.m) ≠ 0 then { y with turn := some (t, iss, y.fair.toNat) } else y
        | none => if (y.awake &&& ~~~c.m) ≠ 0 then { y with fcnt := y.fair.toNat, srvd := c.m } else y)) ∧
  (∀ o : XA,
    let n : Ctx → State → Nat := fun c z => (((z.refresh c.b).block? c.b).map (·.rootSlot)).getD c.x.rootSlot
    Issues (.rref o) { cls := 4, stall := o.st, writes := [.s o.a.toNat] } (fun _ _ => True)
      (fun c z => (z.refresh c.b).modGang c.b c.g fun y => y.setS o.a.toNat
        (BitVec.ofNat 32 (n c z + ((z.refresh c.b).root (n c z)).gen.toNat * 2 ^ 12 + (if n c z = c.x.rootSlot then 0 else 2 ^ 31))))) ∧
  (∀ o : XAC,
    ∀ s c z, s.clears { cls := 4, stall := o.st, regsOk := fun _ => sPair o.a && o.c.toNat ≤ 3,
                        writes := [.s o.a.toNat, .s (o.a.toNat + 1)] } = some (c, z) →
      let left : DWord := if o.c.toNat = 3 then
          (match c.x.repD with | some d => BitVec.ofInt 64 (d - (s.cyc[c.x.die] - c.x.repCyc : Nat)) | none => BitVec.allOnes 64)
        else (match c.x.rep[o.c.toNat]? with
          | some (some r) => BitVec.ofNat 64 (min r (2 ^ 32 - 1))
          | _ => 0xFFFFFFFF)
      ∃ t, exec (.bget o) s = .next t ∧
        Writes s t c [.s o.a.toNat (left.extractLsb' 0 32), .s (o.a.toNat + 1) (left.extractLsb' 32 32)] 0 none)

/-- R179, R336: BRK and TRAP stop their lanes at the word with their cause and the code b x 32 + c. -/
def Obligations.TrapWordsTakeTheirTrap : Prop :=
  ∀ (o : XBC) (i : Instr) (cause : BitVec 8), (i, cause) ∈ ([(.brk o, 0x11), (.trap o, 0x12)] : List (Instr × BitVec 8)) →
    Raises i { cls := 4, stall := o.st } (fun _ _ => True)
      (fun _ _ => { cause := cause, tval := BitVec.ofNat 64 (o.b.toNat * 32 + o.c.toNat) })

/-- R110, R184, R335: the lanes of the user handler return: the handler ends, and the live lanes of the CSR TMASK go to the CSR TREG with
their region-entry stack (TRET.RETRY), past the CSR TPC (TRET.CONT) or to it (TRET.RESUME); every other lane that was not in the handler
stays as it is. For any other lanes TRET is ILLEGAL. (That a handler's lane which a rewritten TMASK leaves out goes on after the TRET is
the model's choice, log 20.) -/
def Obligations.ReturnsLeaveTheUserHandler : Prop :=
  (∀ (o : X0) (i : Instr) (mode : Nat), (i, mode) ∈ ([(.tretRetry o, 0), (.tretCont o, 1), (.tretResume o, 2)] : List (Instr × Nat)) →
    (∀ h : Handler, Issues i { cls := 4, stall := o.st, transfer := true }
      (fun c _ => c.y.handler = some h ∧ ∀ l, c.m.getLsbD l = true → h.lanes.getLsbD l = true)
      (fun c z => z.modGang c.b c.g fun y => (y.mapLanes c.m fun _ l =>
        { l with pc := nextHeader c.hpc c.hdr, pos := .header .fell, bpPass := false, vlHere := false }).tret c.x c.g mode) false) ∧
    Raises i { cls := 4, stall := o.st, transfer := true }
      (fun c _ => ∀ h, c.y.handler = some h → ∃ l, c.m.getLsbD l = true ∧ h.lanes.getLsbD l = false)
      (fun _ z => { cause := 0x01, tval := z.focusWord })) ∧
  ∀ (y : Gang) (x : Block) (gi mode : Nat) (h : Handler), mode < 3 → y.handler = some h → y.pendingUser = [] →
    let z := y.tret x gi mode
    let back : Word := y.trap.tmask &&& y.live
    let tpc : Va := y.trap.tpc.setWidth 48
    z.handler = none ∧
    (∀ l, l < 32 → back.getLsbD l = true →
      (z.lane l).wait = .none ∧ (z.lane l).pc = if mode = 0 then y.trap.treg.setWidth 48 else if mode = 1 then tpc + 4 else tpc) ∧
    (∀ l, l < 32 → back.getLsbD l = false → (h.lanes &&& y.live).getLsbD l = false → z.lane l = y.lane l) ∧
    (mode = 0 → ∀ l, l < 32 → (back &&& h.lanes).getLsbD l = true → ∀ k, h.saved.find? (fun p => p.1 = l) = some (l, k) →
      (z.lane l).dep = k.region.dep ∧ (z.lane l).stack = k.region.stack)

/-- R110, R351: CSRR reads a CSR into S[a], or into the pair for one of 64 bits; CSRW, CSRS and CSRC write it, set the bits of S[a] and
clear them. -/
def Obligations.CsrWordsReadAndWrite : Prop :=
  ∀ o : XABC,
    let n := o.b.toNat * 32 + o.c.toNat
    let regs : List RegRef := .s o.a.toNat :: if csrWide n then [.s (o.a.toNat + 1)] else []
    (∀ s c z, s.clears { cls := 6, stall := o.st, csr := some (n, false), regsOk := fun _ => !csrWide n || sPair o.a, writes := regs } = some (c, z) →
      ∃ t, exec (.csrr o) s = .next t ∧ Writes s t c
        (.s o.a.toNat ((csrRead s c.x c.y n).extractLsb' 0 32) ::
          if csrWide n then [.s (o.a.toNat + 1) ((csrRead s c.x c.y n).extractLsb' 32 32)] else []) 0 none) ∧
    ∀ (i : Instr) (f : DWord → DWord → DWord),
      (i, f) ∈ ([(.csrw o, fun _ a => a), (.csrs o, fun old a => old ||| a), (.csrc o, fun old a => old &&& ~~~a)] :
        List (Instr × (DWord → DWord → DWord))) →
      Issues i { cls := 6, stall := o.st, csr := some (n, true), regsOk := fun _ => !csrWide n || sPair o.a, reads := regs } (fun _ _ => True)
        (fun c z => z.modGang c.b c.g fun y => y.csrWrite n
          (f (csrRead z c.x c.y n) (if csrWide n then c.y.getS2 o.a.toNat else (c.y.getS o.a.toNat).setWidth 64)))

/-! ### System words -/

/-- R81, R82, R83, R90, R291, R353: in system mode RCAS, RSNAP, SMOVE and RFREE act on the registry and write their result word; RPINQ answers
a slot's or a space's entry; NDROP marks its tag and starts; each ends its region but RPINQ. RCAS and RSNAP behind a full FENCE
wait for the accesses that it awaits (log 45). -/
def Obligations.RegistryWordsAnswer : Prop :=
  let answered : BitVec 5 → Ctx → State × Word → State := fun a c r => r.1.modGang c.b c.g fun y => y.setS a.toNat r.2
  (∀ o : XABC,
    let w : Ctx → Nat := fun c => (c.y.getS o.b.toNat).toNat
    let p : Ctx → DWord := fun c => c.y.getS2 o.c.toNat
    let pa : Ctx → Prop := fun c => (p c).toNat % 2 ^ 11 = 0 ∧ (p c).toNat < 2 ^ 52
    let info : Info := sysInfo o.st true [o.c] [o.b] [.s o.a.toNat]
    Issues (.rcas o) info (fun c z => w c / 2 ^ 10 % 64 = 0 ∧ w c < 2 ^ 28 ∧ p c = 0x8000000000000000 ∧ z.unpublished c.y = false)
      (fun c z => answered o.a c (z.rcas (w c % 1024) (w c / 2 ^ 16 % 4096) none)) ∧
    Issues (.rcas o) info (fun c z => w c / 2 ^ 10 % 64 = 0 ∧ w c < 2 ^ 28 ∧ pa c ∧ z.unpublished c.y = false)
      (fun c z => answered o.a c (z.rcas (w c % 1024) (w c / 2 ^ 16 % 4096) (some (p c).toNat))) ∧
    Issues (.rsnap o) info (fun c z => w c < 1024 ∧ pa c ∧ z.unpublished c.y = false) (fun c z => answered o.a c (z.rsnap (w c) (p c).toNat)) ∧
    Issues (.smove o) (sysInfo o.st true [o.b] [o.c] [.s o.a.toNat])
      (fun c _ => (c.y.getS2 o.b.toNat).toNat % 2 ^ 16 = 0 ∧ (c.y.getS2 o.b.toNat).toNat < 2 ^ 52 ∧ (c.y.getS o.c.toNat).toNat < 2)
      (fun c z => answered o.a c (z.smove (c.y.getS2 o.b.toNat).toNat (c.y.getS o.c.toNat = 1)))) ∧
  (∀ o : XAB,
    let w : Ctx → Nat := fun c => (c.y.getS o.b.toNat).toNat
    Issues (.rfree o) (sysInfo o.st true [] [o.b] [.s o.a.toNat]) (fun c _ => w c < 4096) (fun c z => answered o.a c (z.rfree (w c))) ∧
    let info : Info := { sysInfo o.st false [] [o.b] [.s o.a.toNat, .s (o.a.toNat + 1)] with regsOk := fun _ => sPair o.a }
    let pair : Ctx → State → Nat → State := fun c z n => z.modGang c.b c.g fun y => y.setS2 o.a.toNat (BitVec.ofNat 64 n)
    Issues (.rpinq o) info (fun c _ => w c < 4096)
      (fun c z => pair c z ((z.root (w c)).pins + (z.root (w c)).gen.toNat * 2 ^ 20 + ((z.root (w c)).state + (z.root (w c)).space * 2 ^ 16) * 2 ^ 32)) ∧
    Issues (.rpinq o) info (fun c _ => 2 ^ 15 ≤ w c ∧ w c < 2 ^ 15 + 1024)
      (fun c z => pair c z ((z.space (w c % 1024)).cur + (if (z.space (w c % 1024)).nullr then 2 ^ 15 else 0)
        + (z.space (w c % 1024)).sgen.toNat * 2 ^ 32))) ∧
  (∀ (o : XBD) (s1 : Ctx → State → State),
    Issues (.ndrop o) (sysInfo o.st true [o.b] [o.d] [])
      (fun c z => (c.y.getS2 o.b.toNat).toNat % 2 ^ 11 = 0 ∧ (c.y.getS2 o.b.toNat).toNat < 2 ^ 52
        ∧ z.complCheck c.x (c.y.getS o.d.toNat) true = none
        ∧ z.openOp c (.ndrop (c.y.getS2 o.b.toNat).toNat) (c.y.getS o.d.toNat) true [] [] 0 = some (s1 c z))
      s1)

/-- R82, R83, R90: what the root operations answer and change. -/
def Obligations.RootOperationsFollowTheirPseudocode : Prop :=
  ∀ (s : State) (sp slot pa n : Nat) (r : Option Nat),
    (((s.space sp).nullr = true ∨ (s.space sp).cur ≠ slot) → s.rcas sp slot r = (s, BitVec.ofNat 32 (2 ^ 28 + (s.space sp).cur))) ∧
    ((s.space sp).nullr = false → (s.space sp).cur = slot → s.freeSlot = none →
      s.rcas sp slot (some pa) = (s, BitVec.ofNat 32 (2 * 2 ^ 28 + slot))) ∧
    ((s.space sp).nullr = false → (s.space sp).cur = slot → s.freeSlot = some n → n ≠ slot →
      let t := s.rcas sp slot (some pa)
      t.2 = BitVec.ofNat 32 n ∧ t.1.root n = { pins := 0, gen := (s.root n).gen + 1, state := 1, space := sp, root := pa }
        ∧ t.1.root slot = { s.root slot with state := 2 } ∧ t.1.space sp = { s.space sp with cur := n }) ∧
    ((s.space sp).nullr = false → (s.space sp).cur = slot →
      let t := s.rcas sp slot none
      t.2 = 0xFFF ∧ t.1.root slot = { s.root slot with state := 2 }
        ∧ t.1.space sp = { s.space sp with nullr := true, sgen := (s.space sp).sgen + 1 }) ∧
    ((s.space sp).nullr = false → s.rsnap sp pa = (s, BitVec.ofNat 32 (2 ^ 28 + 0xFFF))) ∧
    ((s.space sp).nullr = true → s.freeSlot = none → s.rsnap sp pa = (s, BitVec.ofNat 32 (2 * 2 ^ 28 + 0xFFF))) ∧
    ((s.space sp).nullr = true → s.freeSlot = some n →
      let t := s.rsnap sp pa
      t.2 = BitVec.ofNat 32 n ∧ t.1.root n = { pins := 0, gen := (s.root n).gen + 1, state := 1, space := sp, root := pa }
        ∧ t.1.space sp = { s.space sp with cur := n, nullr := false })

/-- R90: RFREE frees a RETIRED slot without pins and answers OK; otherwise it answers FAILED and changes nothing; GEN stays. -/
def Obligations.RfreeFreesARetiredSlotWithoutPins : Prop :=
  ∀ (s : State) (slot : Nat),
    ((s.root slot).state = 2 → (s.root slot).pins = 0 →
      (s.rfree slot).1.root slot = { s.root slot with state := 0 } ∧ (s.rfree slot).2 = 0xFFF) ∧
    (((s.root slot).state ≠ 2 ∨ (s.root slot).pins ≠ 0) → s.rfree slot = (s, 0x10000FFF)) ∧
    (∀ n, ((s.rfree slot).1.root n).gen = (s.root n).gen)

/-! ### ENQR and address programs -/

/-- R183: ENQR asks the front end whether its node is open; with the answer, it reads its record and sends it, or completes with FAULT
where the node is closed or not armed. -/
def Obligations.EnqrAsksThenSendsItsRecord : Prop :=
  ∀ o : X4,
    let info : Info := { cls := 4, stall := o.st, sideEff := true, reads := [.s o.a.toNat, .s o.b.toNat, .s o.c.toNat, .s o.d.toNat] }
    let a : Ctx → Word := fun c => c.y.getS o.a.toNat
    let at_ : Ctx → Nat := fun c => (c.y.getS o.b.toNat).toNat
    let compl : Ctx → Word := fun c => c.y.getS o.d.toNat
    let node : Ctx → Nat := fun c => (a c).toNat % 2 ^ 16
    let ok : Ctx → Prop := fun c => (a c).toNat < 2 ^ 17 ∧ (compl c).toNat < 64 ∧ (compl c).toNat < c.x.lrec.tags ∧ at_ c % 16 = 0
      ∧ (c.x.tag (compl c).toNat).busy = false
    (∀ s c z, s.clears info = some (c, z) → ok c → (∀ r, c.y.enqr ≠ some (node c, some r)) →
      exec (.enqr o) s = .next { z.modGang c.b c.g (fun y => { y with enqr := some (node c, none) }) with focus := .idle, progress := true }) ∧
    (∀ (n : Nat) (s1 : Ctx → State → State),
      Issues (.enqr o) info
        (fun c z => ok c ∧ c.y.enqr = some (node c, some (true, n)) ∧ at_ c + n ≤ c.x.lrec.localB ∧ c.y.localBusy c.b (at_ c) n = false
          ∧ (z.modGang c.b c.g fun y => { y with enqr := none }).openOp c
              (.enqr (node c) ((a c).getLsbD 16) (c.y.getS o.c.toNat).toNat (c.x.mem.read (at_ c) n)) (compl c) true [] [] 0 = some (s1 c z))
        s1) ∧
    ∀ n : Nat, Issues (.enqr o) info (fun c _ => ok c ∧ c.y.enqr = some (node c, some (false, n)))
      (fun c z => ((((z.modGang c.b c.g fun y => { y with enqr := none }).markTag c.x (compl c)).complete c.x (compl c) 0 stFault 0 none)).settle)

/-- R212 to R216: APRUN claims a free queue and starts its program; AQE starts a fetch into the queue and AQEND ends the program; APSTOP
stops it; AQPOP takes the oldest entry that has landed, else its lanes wait. -/
def Obligations.AddressProgramWordsRun : Prop :=
  (∀ (o : XABD) (s1 : Ctx → State → State),
    let entry : Ctx → DWord := fun c => c.y.getS2 o.a.toNat
    let q : Ctx → Nat := fun c => (c.y.getS o.b.toNat).toNat
    Issues (.aprun o) (copyInfo o.st [] [o.a, o.a + 1, o.b, o.d] (sEven o.a))
      (fun c z => mainCheck (entry c) = none ∧ (entry c).toNat % 4 = 0 ∧ q c < 4 ∧ z.apq? c.x.die c.x.core (q c) = none
        ∧ z.complCheck c.x (c.y.getS o.d.toNat) true = none
        ∧ z.openOp c (.aprun (q c)) (c.y.getS o.d.toNat) true [] [] 0 = some (s1 c z))
      (fun c z => { s1 c z with
        apq := (s1 c z).apq ++ [((c.x.devCore, q c),
          { b := c.b, op := z.nextId, s := c.y.s, k := Vector.replicate 12 0, pc := (entry c).setWidth 48, clause := none, entries := [],
            ended := none, held := false, fault := false, pin := none })] })) ∧
  (∀ (o : XAB) (s : State) (d : Die) (core q : Nat) (w : Word) (a : ApQueue) (x : Block),
    s.focus = .ap d core q w → s.apq? d core q = some a → s.block? a.b = some x → s.shortfall x.entry 2 1 = none → sEven o.a = true →
    let src : DWord := a.getS (o.a.toNat + 1) ++ a.getS o.a.toNat
    let n := (a.getS o.b.toNat).toNat
    n % 16 = 0 → 16 ≤ n → n ≤ 128 → src.toNat % 16 = 0 →
    (uform src = some .main ∨ uform src = some .tun ∧ s.boundsCheck x .tun src n = none) → a.entries.length < 64 →
    exec (.aqe o) s = .next { (({ s with
        ops := s.ops ++ [{ id := s.nextId, kind := .apfetch q src n, b := a.b, g := 0, seq := 0, compl := 0, slot := none, reads := [],
                           landed := [], fault := none, reads_ := [], writes_ := [], point := 0, away := false,
                           recN := ((s.op? a.op).map (·.recN)).getD 0 }]
        nextId := s.nextId + 1 } : State).charge x.entry 2 1).setApq d core q
          (({ a with entries := a.entries ++ [{ op := s.nextId, data := List.replicate 128 0, landed := false }] } : ApQueue).advance) with
        focus := .idle, progress := true }) ∧
  (∀ o : X0, RunsInProgram (.aqend o) fun a => { a with ended := some stOk }) ∧
  (∀ (o : XA) (a : ApQueue),
    Issues (.apstop o) (copyInfo o.st [] [o.a] true) (fun c z => z.claimed? c.x ((c.y.getS o.a.toNat).toNat % 4) = some a)
      (fun c z => (z.stopProgram c.x ((c.y.getS o.a.toNat).toNat % 4) a stCancelled).settle)) ∧
  (∀ o : Aqp, 4 ≤ o.wf.toNat → o.wf.toNat ≤ 14 →
    let info : Info := { cls := 2, stall := o.st, sideEff := true, varLat := true,
                         regsOk := fun _ => 4 ≤ o.wf.toNat && o.wf.toNat ≤ 14, writes := [.v o.vd.toNat] }
    let q := o.queue.toNat
    let p : Ctx → State → Pend := fun c z => { Pend.blank .aqpop with
      code := z.focusWord.toNat, dst := [(o.vd.toNat, Vector.replicate 32 (wfTag o.wf))], mask := c.m }
    (∀ (a a1 : ApQueue) (v : Lanes),
      Issues (.aqpop o) info (fun c z => z.claimed? c.x q = some a ∧ a.pop = some (v, a1))
        (fun c z => ((z.setApq c.x.die c.x.core q a1).addPend c { p c z with vals := [v] }).releaseApq c.x.die c.x.core q)) ∧
    ∀ a : ApQueue, Issues (.aqpop o) info (fun c z => z.claimed? c.x q = some a ∧ a.pop = none ∧ (a.ended = none ∨ a.entries ≠ []))
      (fun c z => (z.addPend c (p c z)).modGang c.b c.g fun y => y.mapLanes c.m fun _ l => { l with wait := .aqpop q z.nextId }) false)

/-! ### Device steps: accesses and operations -/

/-- R100, R103, R207, R209, R234, R237, R257, R305, R315, R384: the accesses of issued words, the sectors of copies, a byte of an MX unit
that a plain store or sector names, the matrix engine's steps and a collective's end take effect one at a time, each when nothing before it
holds it. Which bytes are a unit's is the model's reading (DEDUCED, log 153). That a collective whose link is down ends with FAULT at COLL_COMPLETE is the model's choice (DESIGN CHOICE, log 18). -/
def Obligations.AccessesAndOperationsTakeEffectInTurn : Prop :=
  (∀ (b g id : Nat) (x : Block) (y : Gang) (p : Pend),
    Happens .variableLatencyComplete (.nat3 b g id)
      (fun s => s.gang? b g = some (x, y) ∧ x.residence ≠ .evicted ∧ y.pend? id = some p ∧ p.performed = true ∧ (p.kind = .aqpop → p.vals ≠ []))
      (fun s => ({ s.setGang b g ((y.writeResult p s.fresh).dropPend id) with fresh := s.fresh + 32 * p.dst.length } : State).settle)) ∧
  (∀ (b g : Nat) (x : Block) (y : Gang) (done rest : List Flight) (f : Flight),
    Happens .fixedLatencyWrite (.nat2 b g)
      (fun s => s.gang? b g = some (x, y) ∧ y.flights = done ++ f :: rest ∧ (∀ e ∈ done, e.landed = true) ∧ f.landed = false)
      (fun s => s.setGang b g { y with flights := done ++ { f with landed := true } :: rest })) ∧
  (∀ (b g id lane : Nat) (x : Block) (y : Gang) (p : Pend) (a : LaneAcc),
    let found : State → Prop := fun s => s.gang? b g = some (x, y) ∧ y.pend? id = some p
      ∧ p.accs.find? (fun q => q.lane = lane && !q.performed) = some a ∧ y.blocked p a = false
    Happens .storePerform (.nat4 b g id lane) (fun s => found s ∧ (p.kind = .store ∨ p.kind = .mxstore) ∧ s.mergeFails p a = none)
      (fun s =>
        let bs := ((a.stored p.kind (s.readLoc a.loc a.size)).mapIdx fun i v => (i, v)).filter fun q => !a.settled q.1
        let s1 := s.setGang b g (y.setPend (p.perform lane []))
        let s2 := s1.performWrite 0 (bs.map fun q => a.loc.add q.1) (bs.map (·.2)) (some 0)
        let s3 := (match a.loc with
          | .tun _ n => bs.foldl (fun (z : State) (q : Nat × Byte) => z.updateLine x.devCore (n + q.1) q.2) s2
          | _ => s2)
        ((s3.finishPend b g id).pruneFences b g).settle) ∧
    (∀ i : Nat, Happens .storePerform (.nat5 b g id lane i)
      (fun s => found s ∧ p.kind = .store ∧ i < a.size ∧ a.data.length = a.size ∧ a.settled i = false ∧ s.unitAt (a.loc.add i) = true)
      (fun s => ((s.setGang b g (y.setPend (p.settleByte lane i (a.data.getD i 0)))).storeBytes x a [(i, a.data.getD i 0)]).settle)) ∧
    Happens .readPerform (.nat4 b g id lane) (fun s => found s ∧ (p.kind = .load ∨ p.kind = .mxload ∨ p.kind = .tbrd)
        ∧ s.readFails x.devCore (p.kind = .load) a = none)
      (fun s =>
        let r := s.readBytes x.devCore (p.kind = .load) a
        (r.2.setGang b g ((y.setPend (p.perform lane r.1)).noteRead (p.perform lane r.1))).pruneFences b g) ∧
    Happens .atomicPerform (.nat4 b g id lane) (fun s => found s ∧ p.kind = .atomic ∧ a.refused = false
        ∧ s.siteRefuses a.loc = false ∧ s.siteCheck (s.space x.space).key b p a = none)
      (fun s =>
        let r := s.atomAt x p a
        (((r.1.modGang b g fun z => (z.setPend (p.perform lane r.2)).noteRead (p.perform lane r.2)).finishPend b g id).pruneFences b g).settle) ∧
    Happens .atomicPerform (.nat4 b g id lane) (fun s => found s ∧ p.kind = .lockop ∧ a.queued = false ∧ a.refused = false
        ∧ s.siteRefuses a.loc = false ∧ s.siteCheck (s.space x.space).key b p a = none)
      (fun s => (((s.lockAt b g p a).finishPend b g id).pruneFences b g).settle)) ∧
  (∀ core n : Nat, Happens .lineDrop (.nat2 core n) (fun _ => True) (fun s => s.dropLines core fun k => k = n)) ∧
  (∀ (id i half : Nat) (o : Op) (x : Block),
    let found : State → Prop := fun s => s.op? id = some o ∧ s.block? o.b = some x
    let runs : Prop := o.away = false ∧ o.fault = none ∧ i < o.kind.count ∧ o.landed.contains i = false
    Happens .sectorPerform (.nat3 id i 1) (fun s => found s ∧ runs) (fun s => s.sectorWrite State.leased o x i) ∧
    Happens .sectorPerform (.nat3 id i 0)
      (fun s => found s ∧ runs ∧ (∀ p ∈ o.reads, p.1 ≠ i) ∧ (match o.kind with | .kvl .. => False | _ => True)) (fun s => s.sectorRead o x i) ∧
    (∀ j : Nat,
      Happens .sectorPerform (.nat4 id i 1 j) (fun s => found s ∧ runs ∧ s.sectorSplitsAt o x i 1 j = true)
        (fun s => s.byteWrite State.leased o x i j) ∧
      Happens .sectorPerform (.nat4 id i 0 j) (fun s => found s ∧ runs ∧ (∀ p ∈ o.reads, p.1 ≠ i) ∧ s.sectorSplitsAt o x i 0 j = true)
        (fun s => s.byteRead o x i j) ∧
      Happens .sectorPerform (.nat4 id i half j) (fun s => found s ∧ s.sectorSplitsAt o x i half j = false) (fun s => s)) ∧
    (∀ t : Trap, Happens .copyFault (.nat3 id i half)
      (fun s => found s ∧ o.away = false ∧ o.fault = none ∧ s.opTrap o x i half = some t ∧ copyFaultCause t.cause = true
        ∧ s.landing o x (fun _ => false) = false)
      (fun s => s.copyFault o x t)) ∧
    ∀ (others : List Byte) (ls ld : List Loc) (how p dt rd rt ct n rk num : Nat) (sa da va : DWord), o.kind = .coll p dt rd rt sa da ct n rk num va →
      let ready : State → Prop := fun s => found s ∧ s.linkDown o = false ∧ o.fault = none ∧ o.away = false
        ∧ s.collLocs o x = .ok (ls, ld) ∧ ∀ y, x.gangs[o.g]? = some y → s.collBusy o y = false
      Happens .collComplete (.bytes id 0 others) ready (fun s => s.collDone o x others) ∧
      Happens .collComplete (.bytes id 1 others) (fun s => ready s ∧ 1 < n) (fun s => s.endOp o stMalformed va none) ∧
      Happens .collComplete (.bytes id how others) (fun s => found s ∧ (how = 2 ∨ s.linkDown o = true))
        (fun s => (s.freeDst o x).endOp o stFault 0 none) ∧
      Happens .collComplete (.bytes id 3 others) (fun s => found s ∧ s.linkDown o = false) (fun s => (s.freeDst o x).endOp o stCancelled 0 none)) ∧
  (∀ (b id : Nat) (x : Block) (o : MatOp),
    Happens .operandsConsumed (.nat2 b id)
      (fun s => s.block? b = some x ∧ x.matReady id (fun q => q.data.isSome) = some o ∧ o.data = none)
      (fun s =>
        let s1 : State := { s.modBlock b fun z => z.setMat { o with data := some (o.readAt (o.kind.reads.map (s.rangeBytes x)) s.fresh), cons := none } with
          fresh := s.fresh + 2 ^ 61 }
        match o.cons with
        | some t => (s1.complete x (BitVec.ofNat 32 t) 0 stOk 0 none).settle
        | none => s1) ∧
    Happens .matrixOpComplete (.nat2 b id)
      (fun s => s.block? b = some x ∧ x.matReady id (fun _ => false) = some o ∧ o.data.isSome = true
        ∧ ∀ r ∈ o.kind.writes, ∀ i, i < r.2 → s.leased none (.loc x.id (uoff r.1 + i)) = false)
      (fun s => s.matComplete x o))

/-- R41, R63, R69, R70, R224, R270, R277, R287: a hint that has run out answers 0 to the lanes that wait with it; deadlines are
inherited along chains of lock waits; the fairness timer starts a sweep when it is due and ends a turn that is over. -/
def Obligations.HintsExpireAndTimersAct : Prop :=
  (∀ (i : Instr) (kd : Nat) (is : Wait → Prop),
    (i = .trywHintExpiry ∧ is = (fun w => ∃ ob, w = .tryw ob kd)) ∨ (i = .tbtryHintExpiry ∧ is = (fun w => ∃ a ph, w = .tb a ph (some kd))) ∨
      (i = .slwaitHintExpiry ∧ is = (fun w => ∃ a sg v, w = .slwait a sg v kd)) →
    ∀ (b g l : Nat) (x : Block) (y : Gang),
      Happens i (.nat3 b g l)
        (fun s => s.gang? b g = some (x, y) ∧ is (y.lane l).wait ∧ (y.lane l).hint = some 0 ∧ y.live.getLsbD l = true ∧ x.residence = .resident)
        (fun s => (s.setGang b g (y.answerWake kd
          (maskOf fun k => y.live.getLsbD k && (y.lane k).pc = (y.lane l).pc && (y.lane k).wait = (y.lane l).wait && (y.lane k).hint = some 0)
          false)).settle)) ∧
  (∀ (b g l : Nat) (x : Block) (y : Gang) (w : LockWait),
    Happens .lockHintExpiry (.nat3 b g l)
      (fun s => s.gang? b g = some (x, y) ∧ s.lockWaits.find? (fun w => w.b = b && w.g = g && w.lane = l) = some w ∧ (y.lane l).hint = some 0
        ∧ s.locAway w.loc = false)
      (fun s => (s.dropWaiter w).settle)) ∧
  (Happens .deadlineInheritUpdate .none (fun _ => True)
    (fun s => (List.range 8).foldl (fun z _ => z.inheritLink s.inherits)
      { s with blocks := s.blocks.map fun x => { x with inherit := none } })) ∧
  (∀ (b g : Nat) (x : Block) (y : Gang),
    Happens .fairnessSweep (.nat2 b g) (fun s => s.gang? b g = some (x, y) ∧ y.sweep = false ∧ y.fair.toNat ≤ y.fcnt)
      (fun s => s.setGang b g y.startSweep) ∧
    Happens .fairnessTurnEnd (.nat2 b g) (fun s => s.gang? b g = some (x, y) ∧ y.sweep = true ∧ y.turnDone = true)
      (fun s => s.setGang b g y.endTurn))

/-! ### Device steps: subscriptions and queues -/

/-- R30, R33, R280, R282, R285, R286, R288, R289, R291: a push is delivered to its block, its log or its queue; an SLD's request subscribes
at its home or ends; credits return; a USUB closes; a home that cannot read its word poisons. That a write-index subscription closed with
POISON faults its queue with cause 0x19 is the model's reading (DEDUCED, log 98). -/
def Obligations.SubscriptionsServeTheirSubscribers : Prop :=
  (∀ (id : Nat) (u : Sub) (p : Push) (r : List Push),
    (∀ (b base : Nat) (x : Block),
      Happens .pushDelivery (.nat id)
        (fun s => s.sub? id = some u ∧ u.pend = p :: r ∧ u.who = .gill b base ∧ s.block? b = some x ∧ x.residence ≠ .evicted
          ∧ s.deliverLeased u p b base = false)
        (fun s => (s.deliverLocal u p b base).settle) ∧
      Happens .pushDelivery (.nat id)
        (fun s => s.sub? id = some u ∧ u.pend = p :: r ∧ u.who = .gill b base ∧ s.block? b = some x ∧ x.residence = .evicted)
        (fun s => ((s.setSub { u with pend := u.pend.filter fun q => q ≠ p }).modBlock b fun x => { x with pushLog := x.pushLog ++ [p] }).settle)) ∧
    (∀ (d : Die) (q : Nat) (x : Queue),
      Happens .writeIndexPush (.nat id)
        (fun s => s.sub? id = some u ∧ u.pend = p :: r ∧ u.who = .queue d q ∧ s.queue? d q = some x ∧ p.closed = false)
        (fun s => (s.setSub { u with pend := r }).takeIndex d q (p.value.setWidth 32)) ∧
      Happens .writeIndexPush (.nat id)
        (fun s => s.sub? id = some u ∧ u.pend = p :: r ∧ u.who = .queue d q ∧ s.queue? d q = some x ∧ p.closed = true ∧ p.poison = true)
        (fun s => (s.dropSub u).faultQueue d q 0x19)) ∧
    (∀ e : Entry,
      Happens .waitvPush (.nat id)
        (fun s => s.sub? id = some u ∧ u.pend = p :: r ∧ s.waitvOf u = some e ∧ p.closed = false ∧ waitvHolds e.arg0.toNat e.arg1 p.value = true)
        (fun s => s.fireWaitv u e) ∧
      Happens .waitvPush (.nat id)
        (fun s => s.sub? id = some u ∧ u.pend = p :: r ∧ s.waitvOf u = some e ∧ p.closed = false ∧ waitvHolds e.arg0.toNat e.arg1 p.value = false)
        (fun s => s.setSub { u with pend := r }))) ∧
  (∀ (id : Nat) (u : Sub),
    (∀ p : Push, Happens .creditReturn (.nat id) (fun s => s.sub? id = some u ∧ u.due ≠ 0 ∧ u.state = .live ∧ u.held = some p)
      (fun s => s.setSub { u with credits := u.credits + u.due - 1, due := 0, held := none, pend := u.pend ++ [{ p with overrun := true }] })) ∧
    Happens .creditReturn (.nat id) (fun s => s.sub? id = some u ∧ u.due ≠ 0 ∧ u.state = .live ∧ u.held = none)
      (fun s => s.setSub { u with credits := u.credits + u.due, due := 0 }) ∧
    (∀ (op : Nat) (o : Op), Happens .usubHome (.nat op) (fun s => s.op? op = some o ∧ o.kind = .usub id ∧ s.sub? id = some u ∧ u.state = .live)
      (fun s => s.closePlain u)) ∧
    ∀ (b base : Nat) (x : Block), Happens .subscriptionPoison (.nat id)
      (fun s => s.sub? id = some u ∧ u.who = .gill b base ∧ s.block? b = some x ∧ u.state = .live ∧ s.unreadable u.key u.word = true)
      (fun s => s.closePoison u)) ∧
  (∀ (id : Nat) (o : Op) (x : Block) (a : DWord) (size base r : Nat) (every : Bool) (l : Loc),
    let asks : State → Prop := fun s => s.op? id = some o ∧ o.kind = .sld a size every r base ∧ s.block? o.b = some x ∧ o.fault = none ∧ s.sub? id = none
      ∧ o.away = false ∧ s.locate x (s.opSlot o) a .read = .ok l ∧ (match l with | .hbm _ => True | .tun _ _ => True | _ => False) ∧ s.isMoved l = false
    Happens .sldHomeRequest (.nat id)
      (fun s => asks s ∧ (s.squota x.ctx ≤ s.quotaUsed x.ctx (homeOf l).1 ∨ s.recordFree l size = false))
      (fun s => s.endOp o stSubQuota 0 none) ∧
    ∀ v : Sub, Happens .sldHomeRequest (.nat id)
      (fun s =>
        let s1 := (s.setOp { o with slot := none }).subscribe
          { id := id, who := .gill o.b base, ctx := x.ctx, die := x.die, word := l, size := size, key := (s.space x.space).key, every := every, r := r, state := .live, credits := 0,
            due := 0, held := none, pend := [], count := 0, slot := o.slot }
        asks s ∧ s.quotaUsed x.ctx (homeOf l).1 < s.squota x.ctx ∧ s.recordFree l size = true ∧ s1.sub? id = some v
          ∧ s1.unreadable (s.space x.space).key l = false)
      (fun s => (s.setOp { o with slot := none }).subscribe
        { id := id, who := .gill o.b base, ctx := x.ctx, die := x.die, word := l, size := size, key := (s.space x.space).key, every := every, r := r, state := .live, credits := 0,
          due := 0, held := none, pend := [], count := 0, slot := o.slot }))

/-- R24, R25, R28 to R39, R55, R396: queues are mapped, unmapped and fetched; an entry that is presented has its code written and its kind's
effect, and a split launch is decided by both front ends. The model's own here: which descriptors are mapped (DESIGN CHOICE, logs 30 and
137), the write-index subscription taken anew after a fault (DEDUCED, log 130), the save areas of an admission (DESIGN CHOICE, log 38), and
the slack of a half without a block (DESIGN CHOICE, log 134). -/
def Obligations.QueuesPresentTheirEntries : Prop :=
  (∀ (d : Die) (v : Nat), Happens .fecfgWrite (.nat2 d.val v) (fun _ => True)
    (fun s => s.modFe d fun f => { f with hold := v / 2 ^ 32 % 2 = 1, rsv := if v % 256 ≤ 128 then v % 256 else f.rsv })) ∧
  (∀ (d : Die) (q ctx tab : Nat) (x : Queue),
    Happens .queueMap (.nat4 d.val q ctx tab)
      (fun s => x = { Queue.of (s.deviceRead (s.descAt ctx tab) 64) tab with waiting := (s.waitEntry ctx tab).map (·.id) } ∧ q < 512 ∧ ctx < 1024
        ∧ descReserved (s.deviceRead (s.descAt ctx tab) 64) = false
        ∧ s.ctxField ctx 2 2 % 2 = 1 ∧ tab < s.ctxField ctx 0x10 4 ∧ x.ctx = ctx ∧ x.space < 1024 ∧ 4 ≤ x.log2n ∧ x.log2n ≤ 16
        ∧ s.queue? d q = none ∧ s.queueOf ctx tab = none ∧ s.waitEntry ctx tab = none ∧ x.sgen = (s.space x.space).sgen)
      (fun s => (((((s.modFe d fun f => { f with queues := f.queues ++ [(q, x)] }).putDesc x true false).bindRing x).watchIndex d q x).watchWaitv d q x))) ∧
  (∀ (d : Die) (q : Nat) (x : Queue),
    Happens .queueUnmap (.nat2 d.val q)
      (fun s => s.queue? d q = some x ∧ s.undecided x.ctx x.tab = false ∧ x.woken = false ∧ (∀ w, x.widx = some w → indexBeyond w x.pidx = false))
      (fun s => { (s.putDesc { x with fidx := x.pidx, fetched := [] } false false) with
          subs := s.subs.map fun (u : Sub) => match u.who with
            | .queue d' q' => if d' = d && q' = q then { u with who := .desc d x.ctx x.tab false } else u
            | .waitv d' q' => if d' = d && q' = q then { u with who := .desc d x.ctx x.tab true } else u
            | _ => u
          binds := s.binds.filter fun e => e.2.2.owner ≠ ringOwner x.ctx x.tab }.modFe d fun f =>
            { f with queues := f.queues.filter fun p => p.1 ≠ q }) ∧
    Happens .queueUnmap (.nat2 d.val q) (fun s => s.queue? d q = some x ∧ s.undecided x.ctx x.tab = true)
      (fun s => s.setQueue d q { x with leaving := true }) ∧
    Happens .queueFaultClear (.nat2 d.val q) (fun s => s.queue? d q = some x ∧ x.fault = true ∧ s.pinFull x.space = false)
      (fun s => ((s.setQueue d q { x with fault := false }).writeRidx d q).keepIndex d q) ∧
    ∀ (w : Word) (bs : List Byte), Happens .entryFetch (.nat2 d.val q)
      (fun s => s.queue? d q = some x ∧ x.resub = false ∧ x.fault = false ∧ x.leaving = false ∧ x.sgen = (s.space x.space).sgen
        ∧ (x.fidx - x.ridx).toNat < 64 ∧ x.widx = some w ∧ (w - x.ridx).toNat ≤ 2 ^ x.log2n ∧ (x.fidx - x.ridx).toNat < (w - x.ridx).toNat
        ∧ s.feRead d x.ctx x.space (BitVec.ofNat 64 (x.ring + 64 * (x.fidx.toNat % 2 ^ x.log2n))) 64 = .ok bs)
      (fun s => s.setQueue d q { x with fidx := x.fidx + 1, fetched := x.fetched ++ [bs] })) ∧
  (∀ (d : Die) (q : Nat) (x : Queue) (bs : List Byte) (l : Loc),
    let given : State → Prop := fun s => s.present d q = some (x, bs) ∧ s.firstCode d x (s.entryBad x.ctx bs) false = 0
    let past : State → State := fun s => (s.takeEntry d q).decideEntry d q x.pidx 0
    Happens .entryNop (.nat2 d.val q) (fun s => given s ∧ enKind bs = 0)
      (fun s => (past s).finishNow (Entry.ofBytes s.nextId d q x x.pidx .nop bs) 0 0) ∧
    Happens .entryFetchfence (.nat2 d.val q) (fun s => given s ∧ enKind bs = 3 ∧ s.pendingOf x.ctx x.tab s.nextId = false)
      (fun s => (match (past s).queue? d q with
        | some y => (past s).setQueue d q { y with fetched := [], fidx := y.pidx }
        | none => past s).finishNow (Entry.ofBytes s.nextId d q x x.pidx .fetchfence bs) 0 0) ∧
    Happens .entrySignal (.nat2 d.val q) (fun s => given s ∧ enKind bs = 4)
      (fun s => (past s).addEntry (Entry.ofBytes s.nextId d q x x.pidx .signal bs)) ∧
    Happens .entryWaitv (.nat2 d.val q)
      (fun s => given s ∧ enKind bs = 5 ∧ s.feLoc d x.ctx x.space (enTarget bs) .read = .ok l ∧ homeable l = true
        ∧ s.waitvQuota x.ctx l (waitvSize (enArg0 bs)) = false)
      (fun s =>
        let e := Entry.ofBytes s.nextId d q x x.pidx .waitv bs
        let z1 := (past s).addEntry e
        (match z1.queue? d q with
          | some y => z1.setQueue d q { y with
              waiting := some e.id, wopnd := e.arg1
              waddr := BitVec.ofNat 64 (e.target.toNat % 2 ^ 56 + enArg0 bs % 16 * 2 ^ 56) }
          | none => z1).feSubscribe d x.ctx (s.space x.space).key (.waitv d q) l (waitvSize (enArg0 bs))) ∧
    Happens .entryLaunch (.nat2 d.val q) (fun s => s.present d q = some (x, bs) ∧ enKind bs = 1) (fun s => s.presentLaunch d q x bs false) ∧
    Happens .entryNode (.nat2 d.val q) (fun s => s.present d q = some (x, bs) ∧ enKind bs = 2) (fun s => s.presentLaunch d q x bs true)) ∧
  (∀ (id : Nat) (e : Entry) (l : Loc),
    Happens .signalStore (.nat id)
      (fun s => s.entry? id = some e ∧ e.kind = .signal ∧ e.fin = none ∧ s.pendingOf e.ctx e.tab e.id = false
        ∧ (∀ x ∈ s.ended, x.ctx = e.ctx → x.tab = e.tab → x.owner < e.id → x.unperformed 3 = false) ∧ s.feLoc e.die e.ctx e.space e.target .write = .ok l)
      (fun s => (s.fePut e.space l (natLe (signalSize e.arg0.toNat) e.arg1.toNat)).finish e s.fcyc[e.die] 0 0)) ∧
  (∀ (id code : Nat) (e : Entry) (rem : List (Option Nat)) (rows : List (List Byte)),
    let other : Entry → Die := fun e => if e.die = 0 then 1 else 0
    let peer : State → Entry := fun s => { e with
      id := s.nextId, adm := s.nextId, die := other e, count := totalBlocks e.lrec e.group - e.count, rem := rem, done := 0, half := .peer id
      deadline := e.deadline.map fun t => ((t : Int) - s.fcyc[e.die] - 256 + s.fcyc[other e]).toNat }
    Happens .splitHalfRequest (.nat id)
      (fun s => s.entry? id = some e ∧ e.half = .asking code rem rows ∧ s.pinFull e.space = false ∧ code = 0 ∧ s.bindRoom e.ctx rows.length = true
        ∧ (s.space e.space).nullr = false ∧ s.admittedOf (other e) e.ctx < s.ctxField e.ctx 0 2 ∧ (s.admittedOn (other e)).length < 1024 ∧ s.launchCode (peer s) 0 false = 0)
      (fun s => (((s.setEntry { s.withAreas e with half := .home s.nextId none, adm := s.nextId }).addEntry (s.withAreas (peer s))).install e.ctx id rows).decideEntry e.die e.q e.idx 0)) ∧
  (∀ (id h : Nat) (e o : Entry),
    Happens .splitHalfFinish (.nat id)
      (fun s => s.entry? id = some e ∧ e.half = .peer h ∧ s.entry? h = some o ∧ o.half = .home id none ∧ s.blocksDone e = true)
      (fun s => s.setEntry { o with half := .home id (some (e.deadline.map fun t => (t : Int) - s.endCycle e)) }))

/-! ### Device steps: the life of an entry and its blocks -/

/-- R26, R40 to R48, R56 to R58, R183, R347, R348, R357 to R362: blocks are placed, pre-empted, saved, restored and ended; nodes take
records and launch; entries finish and their words are written; budgets are reported, granted, demoted and aborted, and a command that finds
no entry answers 0xFE. The model's own here: GRANT adds the whole AMOUNT to each half that is held (DESIGN CHOICE, log 43), the blocks of a
node are numbered in the order of their launch (log 39), the completion cycle of an entry that ran no block (DESIGN CHOICE, log 135),
and that a GRANT with CLASS 3 and no entry answers 0xFE, where R46 gives no order
of the two codes (DESIGN CHOICE, log 131). -/
def Obligations.EntriesAndBlocksRunTheirCourse : Prop :=
  (∀ (id : Nat) (e : Entry) (k : Nat) (data : List Byte),
    Happens .blockPlacement (.bytes id k data)
      (fun s => s.entry? id = some e ∧ ∀ h ∈ s.together e, ∃ w, s.newWant h = some w ∧ s.firstFit h.die w = true)
      (fun s => (s.placeAt e (placesOf data)).settle)) ∧
  (∀ (b why : Nat) (x : Block) (s1 : State),
    Happens .preemptDecision (.nat2 b why) (fun s => s.block? b = some x ∧ (why = 0 ∨ s.isVictim x = true) ∧ s.preempt x = some s1) (fun _ => s1)) ∧
  (∀ (b base : Nat) (x : Block),
    Happens .saveImageDone (.nat b) (fun s => s.block? b = some x ∧ x.saved = some base ∧ x.residence = .draining ∧ s.drained x = true ∧ s.imageLent x base = false
        ∧ s.imageWraps x base = none)
      (fun s => (s.writeImage x base).modBlock b fun y => { y with residence := .evicted, swz := s.tagsOf x })) ∧
  (∀ (b k : Nat) (data : List Byte) (x : Block) (os : List Occ),
    Happens .blockRestore (.bytes b k data)
      (fun s =>
        let ms := s.mates x
        s.block? b = some x ∧ (s.backWant x).isSome = true
          ∧ (∀ y ∈ ms, ∀ w, s.backWant y = some w → ∃ h, w.back.bind s.block? = some h ∧ s.firstFit h.die w = true)
          ∧ (placesOf data).length = ms.length ∧ s.seatAll s.occupied ((s.backItems ms).zip (placesOf data)) = some os
          ∧ (∀ y ∈ ms, ∀ base, y.saved = some base → s.imageLent y base = false ∧ s.imageFails y base = none) ∧ s.againShort ms = [])
      (fun s => ((s.mates x).foldl (fun z y => z.retest y.id)
        ((((s.mates x).zip os).zip ((placesOf data).map Prod.snd)).foldl (fun z p =>
          let y := (z.block? p.1.1.id).getD p.1.1
          match y.saved with
          | some base => z.restoreBlock y base p.1.2 p.2
          | none => z) s)).settle)) ∧
  (∀ (b : Nat) (x : Block) (e : Entry),
    Happens .blockEnd (.nat b)
      (fun s => s.block? b = some x ∧ (∀ y ∈ x.gangs, y.live = 0) ∧ (∀ u ∈ s.subs, ∀ base, u.who ≠ .gill b base) ∧ (∀ o ∈ s.ops, o.b ≠ b)
        ∧ s.leasedByPeer x = false ∧ (s.endBlock x).entry? x.entry = some e)
      (fun s => ((s.endBlock x).setEntry { e with lastEnd := some s.fcyc[x.die] }).settle)) ∧
  (∀ (id : Nat) (e : Entry),
    (∀ c : Nat, Happens .entryFinish (.nat id)
      (fun s => s.aborts.find? (fun a => a.1 = id) = none ∧ s.entry? id = some e ∧ e.fin = none ∧ (e.kind = .launch ∨ e.kind = .node)
        ∧ s.blocksDone e = true ∧ s.finishCycle e = some c)
      (fun s => s.finish e c 0 0)) ∧
    (∀ (w : DWord) (l : Loc), Happens .completionWrite (.nat id)
      (fun s => s.entry? id = some e ∧ e.fin = some w ∧ (∀ x ∈ s.ended, x.owner = id → x.unperformed 3 = false) ∧ s.feLoc e.die e.ctx e.space e.done .write = .ok l)
      (fun s => (s.fePut e.space l (natLe 8 w.toNat)).dropEntry id)) ∧
    Happens .budgetReport (.nat id) (fun s => s.entry? id = some e)
      (fun s => { s with blocks := s.blocks.map fun x =>
        if x.entry = id then { x with rep := e.rem, repD := e.deadline.map fun d => (d : Int) - s.fcyc[x.die], repCyc := s.cyc[x.die] } else x }) ∧
    (∀ nd : Node,
      let launched : State → State := fun s => s.setEntry { e with node := some { nd with
        held := nd.held.drop (min e.lrec.gather nd.held.length)
        launched := nd.launched ++ [(e.placed + nd.launched.length, nd.held.take (min e.lrec.gather nd.held.length))] } }
      let held : State → Prop := fun s => s.entry? id = some e ∧ e.node = some nd ∧ e.fin = none ∧ nd.held ≠ []
      Happens .nodeBlockLaunch (.nat id) (fun s => held s ∧ (e.lrec.gather ≤ nd.held.length ∨ nd.producers = 0)) launched ∧
      (∀ (h : Held) (r : List Held), Happens .nodeTimeout (.nat id)
        (fun s => held s ∧ nd.held = h :: r ∧ e.lrec.timeout ≠ 0 ∧ h.at_ + e.lrec.timeout ≤ s.fcyc[e.die]) launched) ∧
      ∀ t : Nat, Happens .nodeMarginReached (.nat id) (fun s => held s ∧ earliest nd.held = some t ∧ t ≤ s.fcyc[e.die] + e.lrec.margin) launched)) ∧
  (∀ (b g n : Nat) (x : Block) (y : Gang),
    Happens .enqrNodeAnswer (.nat2 b g) (fun s => s.gang? b g = some (x, y) ∧ y.enqr = some (n, none))
      (fun s => s.setGang b g { y with enqr := some (n, some (s.nodeAnswer x.die x.ctx n)) })) ∧
  (∀ (id n rel : Nat) (close : Bool) (data : List Byte) (o : Op) (x : Block) (e : Entry) (nd : Node),
    Happens .enqrAccept (.nat id)
      (fun s => s.op? id = some o ∧ o.kind = .enqr n close rel data ∧ s.block? o.b = some x ∧ s.nodeEntry? x.die x.ctx n = some (e, nd)
        ∧ nd.producers ≠ 0 ∧ nd.buffered < e.lrec.gcap)
      (fun s => (s.gather x e nd close rel data).endOp o stOk 0 none)) ∧
  (∀ (d : Die) (q idx amount cls res : Nat), q < 512 → idx < 2 ^ 32 → amount < 2 ^ 32 → cls < 4 → res < 256 →
    let asked : State → Nat → Prop := fun s op => s.fe[d].cmd = fepcmd amount idx q res cls op true
    let done : State → Nat → State := fun s op => s.modFe d fun f => { f with cmd := fepcmd amount idx q 0 cls op false }
    ∀ e : Entry,
    Happens .fepcmdGrant (.nat d.val)
      (fun s => asked s 1 ∧ s.admitted? d q idx = some e ∧ cls < 3 ∧ (∃ h ∈ s.halves e, h.heldIn cls = true)
        ∧ ∀ h ∈ s.halves e, h.heldIn cls = true → s.grantCode h cls amount = 0)
      (fun s => done (((s.halves e).filter fun h => h.heldIn cls).foldl (fun z h => (z.grant h cls amount).nextOverrun h.id) s) 1) ∧
    Happens .fepcmdDemote (.nat d.val) (fun s => asked s 2 ∧ s.admitted? d q idx = some e ∧ (e.kind = .launch ∨ e.kind = .node))
      (fun s => done ((s.halves e).foldl (fun z h => z.demoteNow h.id) s) 2) ∧
    Happens .fepcmdAbort (.nat d.val)
      (fun s => asked s 3 ∧ s.admitted? d q idx = some e ∧ (e.kind = .launch ∨ e.kind = .node) ∧ ∀ h ∈ s.halves e, h.overrun = none)
      (fun s => done (s.abortEntry e.id 3 0) 3) ∧
    ∀ (i : Instr) (op : Nat), (i, op) ∈ ([(.fepcmdGrant, 1), (.fepcmdDemote, 2), (.fepcmdAbort, 3)] : List (Instr × Nat)) →
      Happens i (.nat d.val) (fun s => asked s op ∧ s.admitted? d q idx = none)
        (fun s => s.modFe d fun f => { f with cmd := fepcmd amount idx q 0xFE cls op false }))

/-! ### Device steps: traps, translation, and what comes from outside -/

/-- R74, R75, R87 to R89, R91, R213, R339, R340, R345: records go to their rings and are resolved; struck contexts are discarded; pins are
taken and released; walks fill the TLBs; an address program steps. -/
def Obligations.RecordsPinsWalksAndProgramsStep : Prop :=
  (∀ (i : Nat) (p : TrapPost),
    Happens .systemTrapRecord (.nat i)
      (fun s => s.trapQ[i]? = some p ∧ (∀ q ∈ s.trapQ.take i, q.die ≠ p.die ∨ q.ctx ≠ p.ctx) ∧ p.kind = 2
        ∧ ((s.trapRing p.die p.ctx).written - (s.trapRing p.die p.ctx).handled).toNat < 2 ^ s.trField p.die p.ctx 24 1)
      (fun s =>
        let r := s.trapRing p.die p.ctx
        let at_ : Loc := .hbm (s.trField p.die p.ctx 0 8 + 64 * (r.written.toNat % 2 ^ s.trField p.die p.ctx 24 1))
        let s3 := ((s.performWrite 0 (at_.run 64) (p.bytes r.written) none).performWrite 0 ((Loc.hbm (s.trField p.die p.ctx 8 8)).run 4)
          (natLe 4 (r.written + 1).toNat) none).setTrapRing p.die p.ctx { r with written := r.written + 1, recs := r.recs ++ [(r.written, p)] }
        ({ s3 with trapQ := s3.trapQ.eraseIdx i } : State).watchRing p.die p.ctx)) ∧
  (∀ (id ctx : Nat) (d : Die) (u : Sub) (p : Push) (r : List Push),
    Happens .trapResolution (.nat id)
      (fun s => s.sub? id = some u ∧ u.who = .ring d ctx ∧ u.pend = p :: r ∧ p.closed = false)
      (fun s => (s.setSub { u with pend := r }).handleRecords d ctx (p.value.setWidth 32) 4096)) ∧
  (∀ (ctx : Nat) (cause : BitVec 8) (tval : DWord) (rest : List (Nat × BitVec 8 × DWord)),
    Happens .contextDiscard .none
      (fun s => s.discards = (ctx, cause, tval) :: rest ∧ ∀ e ∈ s.entries, e.ctx = ctx → ∀ c m r, e.half ≠ .asking c m r)
      (fun s =>
        let s1 := ((s.entries.filter fun e => e.ctx = ctx && e.fin.isNone).map (·.id)).foldl (fun z id => z.abortEntry id 2 cause.toNat)
          { s with discards := rest.filter fun c => c.1 ≠ ctx }
        ((({ s1 with binds := s1.binds.filter fun b => b.1 ≠ ctx } : State).faultQueues ctx).blackBox 0 0 ctx).settle)) ∧
  (∀ pa : Nat, Happens .deviceFatal (.nat pa) (fun _ => True) (fun s => s.goFatal pa)) ∧
  (∀ (d : Die) (p : Die × List Byte) (rest : List (Die × List Byte)),
    Happens .noticeRingPost (.nat2 d.val 0)
      (fun s => takeFirst (fun q => q.1 = d) s.noticeQ = some (p, rest)
        ∧ (s.fe[d].notices.widx - s.fe[d].notices.ridx).toNat < 2 ^ (s.fe[d].notices.log2n + 6))
      (fun s =>
        let r := s.fe[d].notices
        (({ s with noticeQ := rest } : State).performWrite 0
          ((Loc.hbm (r.base + 16 * (r.widx.toNat % 2 ^ (r.log2n + 6)))).run 16) p.2 none).modFe d fun f =>
            { f with notices := { r with widx := r.widx + 1 } })) ∧
  (∀ (sp : Nat), Happens .pinCurrent (.nat sp)
    (fun s => (s.space sp).nullr = false ∧ (s.root (s.space sp).cur).pins < 1048575)
    (fun s => s.setRoot (s.space sp).cur { s.root (s.space sp).cur with pins := (s.root (s.space sp).cur).pins + 1 })) ∧
  (∀ slot : Nat,
    Happens .pin (.nat slot) (fun s => 1 ≤ (s.root slot).pins ∧ (s.root slot).pins < 1048575)
      (fun s => s.setRoot slot { s.root slot with pins := (s.root slot).pins + 1 }) ∧
    Happens .unpin (.nat slot) (fun s => s.heldPins slot < (s.root slot).pins)
      (fun s => (s.setRoot slot { s.root slot with pins := (s.root slot).pins - 1 }).postIfUnpinned slot)) ∧
  (∀ (die : Die) (core slot key va level : Nat) (leaf : DWord),
    Happens .translationWalk (.nat5 die.val core slot key va)
      (fun s => (s.root slot).root < s.hbmEnd ∧ va < 2 ^ 48 ∧ (s.root slot).usable = true ∧ s.walk die key slot va = .ok (leaf, level) ∧ teTier leaf ≠ 2 ∧ 192 ≤ core
        ∧ ((s.fillNodes die (s.walkPath die key va 4 0 (s.root slot).root)).tlb.filter fun p => p.1 = die && p.2.1 = none).length < 131072
        ∧ ∀ p ∈ (s.fillNodes die (s.walkPath die key va 4 0 (s.root slot).root)).tlb, p.1 = die → p.2.1 = none →
            p.2.2 ≠ { slot := slot, gen := (s.root slot).gen, page := va / 2 ^ pageBits level * 2 ^ pageBits level, size := 2 ^ pageBits level, leaf := leaf })
      (fun s =>
        let s1 := s.fillNodes die (s.walkPath die key va 4 0 (s.root slot).root)
        { s1 with tlb := s1.tlb ++ [(die, none,
          { slot := slot, gen := (s.root slot).gen, page := va / 2 ^ pageBits level * 2 ^ pageBits level, size := 2 ^ pageBits level, leaf := leaf })] })) ∧
  (∀ (id pa : Nat) (o : Op), Happens .ndropComplete (.nat id) (fun s => s.op? id = some o ∧ o.kind = .ndrop pa)
    (fun s => ({ s with nodeCache := s.nodeCache.filter fun p => !(pa ≤ p.2.1 && p.2.1 < pa + 2048) } : State).endOp o stOk 0 none)) ∧
  (∀ (d : Die) (core q : Nat) (a : ApQueue) (x : Block) (hpc : Va) (h : Word) (t : Trap),
    let ok : State → Prop := fun s => s.apq? d core q = some a ∧ s.block? a.b = some x ∧ x.residence = .resident ∧ a.ended = none ∧ a.fault = false
      ∧ a.clause = some (hpc, h)
    Happens .addressProgramStep (.nat3 d.val core q) (fun s => ok s ∧ s.apWordAt x (((s.op? a.op).bind (·.slot)).getD 0) a.pc = .fault t)
      (fun s => s.apFault x core q { a with held := false } t) ∧
    ∀ (s : State) (w : Word) (i : Instr), s.input = .nat3 d.val core q → s.apq? d core q = some a → s.block? a.b = some x →
      x.residence = .resident → a.ended = none → a.fault = false → decodeLow w = .ok i → i.wellFormed = true →
      let slot := ((s.op? a.op).bind (·.slot)).getD 0
      let runs : State → Prop := fun s1 => ∃ t, apExec i d core q { s1 with focus := .ap d core q w } = .next t
        ∧ exec .addressProgramStep s = .next (t.endProgram x q)
      (a.clause = some (hpc, h) → s.apWordAt x slot a.pc = .word w → runs s) ∧
      (a.clause = none → s.apWordAt x slot a.pc = .word h → hdrBad h = false →
        let s1 := s.setApq d core q { a with held := false, clause := some (a.pc, h), pc := a.pc + 4 }
        s1.apWordAt x slot (a.pc + 4) = .word w → runs s1))

/-- R46, R72, R73, R95, R248, R371 to R382, R389: what the host, the peers, the lenders and the links do to the device, where it is allowed.
The model's own here: a lent line that an error has lost is answered with an error (log 14); an NVMe write is made under key slot 0 (log
15); what an SPDM request asks (log 16); a write to FEPCMD while BUSY is ignored for OP 0 too (log 44); and after KEYLOAD the lines
written under the slot's former key fail (DEDUCED, log 112). -/
def Obligations.OutsideRequestsActWhereAllowed : Prop :=
  (∀ (i : Nat) (data : List Byte),
    Happens .registerWrite (.bytes 0 i data) (fun _ => True) (fun s => { s with ctxbase := leNat data / 2 ^ 19 % 2 ^ 33 * 2 ^ 19 }) ∧
    Happens .registerWrite (.bytes 3 i data) (fun s => i < 1024 ∧ (s.space i).nullr = true)
      (fun s => s.setSpace i { s.space i with
        pasid := BitVec.ofNat 20 (leNat data / 2 ^ 76 % 2 ^ 20), pasv := leNat data / 2 ^ 75 % 2 = 1, ctx := leNat data / 2 ^ 65 % 1024,
        key := leNat data / 2 ^ 59 % 64 }) ∧
    Happens .registerWrite (.bytes 3 i data) (fun s => i < 1024 ∧ (s.space i).nullr = false) (fun s => s.setSpace i (s.space i)) ∧
    Happens .registerWrite (.bytes (64 + 10) i data) (fun s => i < 4096) (fun s => registryReply (s.rfree i)) ∧
    (∀ f reg : Nat, 2 ≤ f → reg < 64 → Happens .registerWrite (.bytes (64 * f + reg) i data) (fun _ => True) (fun s => { s with reply := .unsupported })) ∧
    ∀ cmd a b : Nat, leNat data = cmd + b * 2 ^ 32 → cmd < 2 ^ 32 → b < 2 ^ 64 →
      Happens .registerWrite (.bytes 12 a data) (fun s => s.mbox.running = none ∧ 1 ≤ cmd ∧ cmd ≤ 4)
        (fun s => { s with mbox := { s.mbox with cmd := BitVec.ofNat 32 cmd, running := some (cmd, a, b), state := 1 } }) ∧
      Happens .registerWrite (.bytes 12 a data) (fun s => s.mbox.running.isSome = true) (fun s => { s with mbox := { s.mbox with state := 3 } })) ∧
  (∀ (d : Die) (amount idx q cls op : Nat) (data : List Byte), op < 4 → cls < 4 → amount < 2 ^ 32 → idx < 2 ^ 32 → q < 512 →
    leNat data = (fepcmd amount idx q 0 cls op false).toNat →
    Happens .registerWrite (.bytes 11 d.val data) (fun s => s.fe[d].cmd.getLsbD 7 = false)
      (fun s => s.modFe d fun f => { f with cmd := fepcmd amount idx q (s.fe[d].cmd.toNat / 2 ^ 40 % 256) cls op (op ≠ 0) }) ∧
    Happens .registerWrite (.bytes 11 d.val data) (fun s => s.fe[d].cmd.getLsbD 7 = true) (fun s => s)) ∧
  (∀ (f va sp n : Nat) (data : List Byte) (ls : List Loc) (s1 : State),
    Happens .hostBar2Request (.bytes f va data)
      (fun s => f ≤ 32 ∧ assocGet s.bar2 f = some sp ∧ sp ≠ 0 ∧ va + data.length ≤ 2 ^ 36 ∧ s.pinCurrent sp = .slot n s1
        ∧ s.requestLocs sp n va data.length .write = .ok ls ∧ ∀ l ∈ ls, s.wrapped l = false)
      (fun s => { (s.performWrite (s.space sp).key ls data none).settle with reply := .ok [] }) ∧
    Happens .hostBar2Request (.bytes (64 + f) va data)
      (fun s => f ≤ 32 ∧ assocGet s.bar2 f = some sp ∧ sp ≠ 0 ∧ va + data.length ≤ 2 ^ 36 ∧ s.pinCurrent sp = .slot n s1
        ∧ s.requestLocs sp n va data.length .read = .ok ls ∧ s.readFault (s.space sp).key (urun (BitVec.ofNat 64 va) data.length) ls = none)
      (fun s => { s with reply := .ok (ls.map s.readByte) })) ∧
  (∀ pasid valid page : Nat,
    let k : Option (BitVec 20) := if valid = 0 then none else some (BitVec.ofNat 20 pasid)
    Happens .atsInvalidation (.nat3 pasid valid page) (fun s => s.hostBusy k page = false)
      (fun s => { s with ats := s.ats.filter (fun p => !(p.1 = k && p.2 = page)), reply := .ok [] }) ∧
    Happens .atsInvalidation (.nat3 pasid valid page) (fun s => s.hostBusy k page = true) (fun s => s)) ∧
  Happens .spdmRequest .none (fun _ => True) (fun s => { s with reply := .ok s.identity }) ∧
  (∀ (i : Nat) (m : List Byte), Happens .spdmRequest (.nat i) (fun s => assocGet s.measures i = some m) (fun s => { s with reply := .ok m })) ∧
  (∀ (slot : Nat) (key : List Byte),
    Happens .keyload (.bytes slot 1 key) (fun s => 1 ≤ slot ∧ slot < 64 ∧ key.length = 32 ∧ ∀ n, n < 1024 → (s.space n).key ≠ slot)
      (fun s => { s with keys := assocSet s.keys slot key, reply := .ok [] }) ∧
    ∀ (s t : State) (old : List Byte) (pa : Nat) (va : DWord), s.input = .bytes slot 1 key → 1 ≤ slot → slot < 64 → key.length = 32 →
      (∀ n, n < 1024 → (s.space n).key ≠ slot) → s.prot = true → assocGet s.keys slot = some old → old.length = 32 → old ≠ key →
      assocGet s.lineKeys (lineOf (.hbm pa)) = some (leNat old) → exec .keyload s = .next t → ∃ r, t.lineCheck slot (.hbm pa) va = some r) ∧
  (∀ (who pa : Nat) (data : List Byte), who < 2 ^ 16 →
    let sound : State → Prop := fun s => s.lentTo who pa data.length = true ∧ s.lineLost (.hbm pa) data.length = false
    Happens .peerRequest (.bytes who pa data) sound (fun s => { s with reply := .ok (s.readLoc (.hbm pa) data.length) }) ∧
    Happens .peerRequest (.bytes (2 ^ 16 + who) pa data) sound
      (fun s =>
        let ls := (Loc.hbm pa).run data.length
        { (((s.writeBytes ls data).stampPeer who ls).pushes ls).settle with reply := .ok (s.readLoc (.hbm pa) data.length) }) ∧
    Happens .peerRequest (.bytes who pa data) (fun s => s.lentTo who pa data.length = false ∨ s.lineLost (.hbm pa) data.length = true)
      (fun s => { s with reply := .error })) ∧
  (∀ i : Nat,
    Happens .leaseRevoke (.nat i) (fun s => i < 256 ∧ (s.lease i).state = 1)
      (fun s => (s.setLease i { s.lease i with state := 2, graceEnd := some (s.fcyc[(0 : Die)] + (s.lease i).grace * 1024) }).notice
        (leaseNotice i (s.fcyc[(0 : Die)] + (s.lease i).grace * 1024))) ∧
    (∀ e : Nat, Happens .leaseGraceEnd (.nat i) (fun s => (s.lease i).state = 2 ∧ (s.lease i).graceEnd = some e ∧ e ≤ s.fcyc[(0 : Die)])
      (fun s =>
        let l := s.lease i
        let z := s.setLease i { l with state := 3 }
        { z with sent := z.sent ++ [(1, l.port, l.lender, l.base)] })) ∧
    (∀ (k : Nat) (data : List Byte), Happens .leaseTableWrite (.bytes i k data)
      (fun s => i < 256 ∧ (s.lease i).state = 0 ∧ leNat data / 2 ^ 88 % 4 = 1)
      (fun s => (s.refuseLease i).setLease i { (s.lease i).put (leNat data) with state := 1, graceEnd := none, fenced := false })) ∧
    ∀ (l : Lend) (t : Nat), Happens .lenderGraceEnd (.nat i) (fun s => s.lends[i]? = some l ∧ l.fenceAt = some t ∧ t < s.fcyc[(0 : Die)])
      (fun s => { s with lends := s.lends.eraseIdx i }) ∧
    ∀ k : Nat, Happens .lenderGraceEnd (.nat2 k i) (fun _ => i < 256) (fun s => s.setLease i { s.lease i with fenced := true })) ∧
  (∀ who base : Nat, Happens .leaseRelease (.nat2 who base) (fun _ => True)
    (fun s => { s with lends := s.lends.filter fun l => !(l.borrower = who && l.base = base) })) ∧
  (∀ p : Nat, Happens .portLinkLoss (.nat p)
    (fun s => p < 12 ∧ s.downPorts.contains p = false ∧ ∀ o ∈ s.ops, (match o.kind with | .coll .. => False | _ => True))
    (fun s => ({ s with downPorts := s.downPorts ++ [p] } : State).notice (natLe 2 6 ++ natLe 2 p ++ natLe 12 0))) ∧
  (∀ (port pa : Nat) (data : List Byte), port < 4 → Happens .nvmePortDmaWrite (.bytes port pa data) 
    (fun s => pa + data.length ≤ s.hbmEnd ∧ s.lent pa = false ∧ s.lent (pa + data.length - 1) = false
      ∧ ∀ l ∈ (Loc.hbm pa).run data.length, s.wrapped l = false)
    (fun s => { (s.performWrite 0 ((Loc.hbm pa).run data.length) data none).settle with reply := .ok [] }))

/-- R27, R345, R367, R370, R387 to R394: resets, boot, firmware replacement, the mailbox, quarantine, errors and temperature. The model's
own here: what boot finds and the values it sets (log 11), how a device stands whose Dziyx fails its check (log 54), what a warm reset keeps
(log 113), how BBREAD's response begins (log 114), the places of a RESYNC response's fields (DESIGN CHOICE, log 24), which lines an error
marks and that its row counts it (log 127), and one thermal hold for both dies (log 128). -/
def Obligations.ResetsMailboxAndErrorsAct : Prop :=
  (∀ (prot : Nat) (data : List Byte),
    let started : State → State := fun s => { (s.inspect data).afterReset with
      faults := s.lostLines, prot := prot = 1, memsz := if prot = 1 then 766 else 894
      keys := [(0, (List.range 32).map fun i => (Config.freeWord (s.fresh + i)).setWidth 8)], fresh := s.fresh + 32 }
    Happens .coldReset (.bytes 0 prot data) (fun _ => True) started ∧
    Happens .coldReset (.bytes 1 prot data) (fun _ => True) (fun s => { started s with mbox := { Mailbox.reset with bootfail := true } }) ∧
    Happens .coldReset (.bytes 2 prot data) (fun _ => True) (fun s => { started s with booted := false })) ∧
  (let restarted : State → State := fun s => { s.afterReset with
      prot := s.prot, memsz := s.memsz, bbox := s.bbox, keys := s.keys.filter fun k => k.1 = 0
      hbm := s.hbm, lineKeys := s.lineKeys, lineCtrs := s.lineCtrs, faults := s.faults };
    Happens .warmReset .none (fun _ => True) restarted ∧ Happens .warmReset (.nat 1) (fun _ => True) (fun s => { restarted s with booted := false }) ∧
    ∀ a b : Nat, Happens .mbWarmreset .none (fun s => s.mbox.running = some (4, a, b) ∧ s.mbox.bootfail = false) restarted) ∧
  (let answers : State → Nat → List Byte → State := fun s cmd resp =>
      { s with mbox := { s.mbox with cmd := BitVec.ofNat 32 cmd, running := none, state := 2, resp := resp } };
    let asked : State → Nat → Nat → Nat → Prop := fun s cmd a b => s.mbox.running = some (cmd, a, b);
    (∀ a b : Nat, Happens .mbResync .none (fun s => asked s 1 a b ∧ s.handover = none)
      (fun s => answers s 1 (s.resyncBytes false))) ∧
    (∀ (a b : Nat) (h : Handover), Happens .mbResync .none (fun s => asked s 1 a b ∧ s.handover = some h) (fun s => answers s 1 h.resync)) ∧
    (∀ (d : Die) (cursor : Nat), Happens .mbBbread .none (fun s => asked s 2 d.val cursor) (fun s => answers s 2 (s.bbox[d].from_ cursor))) ∧
    ∀ d : Die,
      Happens .mbErrlog .none (fun s => asked s 3 d.val 0) (fun s => answers s 3 s.elog[d].bytes) ∧
      Happens .mbErrlog .none (fun s => asked s 3 d.val 1) (fun s => { answers s 3 s.elog[d].bytes with
        elog := s.elog.set d { s.elog[d] with entries := [], ovf := false } })) ∧
  (∀ digest : List Byte,
    Happens .firmwareReplacement (.bytes 0 1 digest) (fun _ => True) (fun s => s.beginHandover digest) ∧
    Happens .firmwareReplacement (.bytes 0 0 digest) (fun _ => True) (fun s => s) ∧
    (∀ h : Handover,
      Happens .firmwareReplacement (.bytes 1 1 digest) (fun s => s.handover = some h ∧ s.hbm.read Config.tableBase h.table.length = h.table)
        (fun s => { s.setHold s.hot with handover := none }) ∧
      Happens .firmwareReplacement (.bytes 1 1 digest) (fun s => s.handover = some h ∧ s.hbm.read Config.tableBase h.table.length ≠ h.table)
        State.warmReset) ∧
    Happens .firmwareReplacement (.bytes 1 0 digest) (fun s => s.handover.isSome = true) State.warmReset) ∧
  (∀ (d : Die) (q : Nat),
    let cores := (List.range 4).map fun m => d.val % 2 * 96 + 4 * q + m
    Happens .quireQuarantine (.nat2 d.val q) (fun _ => q < 24)
      (fun s => { s with quarantined := s.quarantined ++ cores.filter fun c => !s.quarantined.contains c }) ∧
    Happens .quireSpareTakeover (.nat2 d.val q)
      (fun s => q < 24 ∧ (∀ c ∈ cores, c ∈ s.quarantined) ∧ (∀ x ∈ s.blocks, x.residence = .evicted ∨ x.die.val * 96 + x.core ∉ cores) ∧ s.spares[d] ≠ 0)
      (fun s => { s with quarantined := s.quarantined.filter fun c => !cores.contains c, spares := s.spares.set d (s.spares[d] - 1) })) ∧
  (∀ (d : Die) (kind chan pa syn : Nat),
    Happens .hardwareError (.nat5 d.val kind chan pa syn)
      (fun s => 1 ≤ kind ∧ kind ≤ 7 ∧ ((kind = 3 ∨ kind = 5) → s.prot = true) ∧ (kind ≤ 5 → s.elog[d].last ≤ chan))
      (fun s =>
        let s1 := ({ s with elog := s.elog.set d (s.elog[d].record kind chan pa syn) } : State).blackBox d 4 0
        match errorCause kind pa with
        | some c => { s1 with faults := s1.faults ++ (errorLines kind (errorLoc d kind pa)).flatMap fun l => badHalves l c }
        | none => s1)) ∧
  (∀ x : Input,
    Happens .thermalHold x (fun s => s.hot = false) (fun s => ({ s.setHold true with hot := true } : State).thermalNotice 1) ∧
    Happens .thermalRelease x (fun s => s.hot = true) (fun s => ({ s.setHold false with hot := false } : State).thermalNotice 2) ∧
    Happens .thermalCritical x (fun _ => True) (fun s => s.goFatal 0))

/-! ### NOP, privilege, traps and issue -/

/-- R180: NOP does nothing and is charged like any word: one issue unit, and every register, every byte, every block and all that the
device holds as before. No check of R111 rows 3 to 10 stops it, whatever the class of its clause and its place there. -/
def Obligations.NopDoesNothingAndStandsAnywhere : Prop :=
  ∀ o : X0,
    let info : Info := { cls := 4, stall := o.st, nop := true }
    (∀ s c z e, s.clears info = some (c, z) → s.entry? c.x.entry = some e →
      ∃ t, exec (.nop o) s = .next t ∧ Writes s t c [] 0 none ∧ t.entry? e.id = some (e.charge 0 1)) ∧
    ∀ (s : State) (x : Block) (pc hpc : Va) (hdr w : Word) (nvl : Nat), fate s info x pc hpc hdr w nvl = none

/-- R110, R111 row 6, R352: a system word, and a CSR word that names a CSR from 0x200 to 0x3FF, in a block of user mode takes PRIV at the
word, with the word as TVAL: nothing is charged and the word has no effect. That a number from 0x200 which R110 does not list takes PRIV too
is the model's reading (DEDUCED, log 91). -/
def Obligations.PrivilegedWordsTrapInUserMode : Prop :=
  ∀ (i : Instr) (info : Info),
    ((∃ o : XABC, (i, info) ∈ ([(.rcas o, sysInfo o.st true [o.c] [o.b] [.s o.a.toNat]), (.rsnap o, sysInfo o.st true [o.c] [o.b] [.s o.a.toNat]),
        (.smove o, sysInfo o.st true [o.b] [o.c] [.s o.a.toNat])] : List (Instr × Info))) ∨
      (∃ o : XAB, (i, info) ∈ ([(.rfree o, sysInfo o.st true [] [o.b] [.s o.a.toNat]),
        (.rpinq o, { sysInfo o.st false [] [o.b] [.s o.a.toNat, .s (o.a.toNat + 1)] with regsOk := fun _ => sPair o.a })] :
          List (Instr × Info))) ∨
      (∃ o : XBD, i = .ndrop o ∧ info = sysInfo o.st true [o.b] [o.d] []) ∨
      (∃ o : XABC,
        let n := o.b.toNat * 32 + o.c.toNat
        let regs : List RegRef := .s o.a.toNat :: if csrWide n then [.s (o.a.toNat + 1)] else []
        0x200 ≤ n ∧
        (i, info) ∈ ([(.csrr o, { cls := 6, stall := o.st, csr := some (n, false), regsOk := fun _ => !csrWide n || sPair o.a, writes := regs }),
          (.csrw o, { cls := 6, stall := o.st, csr := some (n, true), regsOk := fun _ => !csrWide n || sPair o.a, reads := regs }),
          (.csrs o, { cls := 6, stall := o.st, csr := some (n, true), regsOk := fun _ => !csrWide n || sPair o.a, reads := regs }),
          (.csrc o, { cls := 6, stall := o.st, csr := some (n, true), regsOk := fun _ => !csrWide n || sPair o.a, reads := regs })] :
            List (Instr × Info)))) →
    ∀ (s : State) (b g : Nat) (m : Word) (pc hpc : Va) (hdr w : Word) (nvl : Nat) (x : Block) (y : Gang),
      s.focus = .gang b g m pc hpc hdr w nvl → s.gang? b g = some (x, y) → x.sys = false → hdrClass hdr = 6 ∨ hdrClass hdr = 7 →
      exec i s = .next { trapWord (s.setGang b g (y.takeUp m pc hpc hdr)) info b g m pc { cause := 0x02, tval := w.setWidth 64 } with
        focus := .idle, progress := true }

/-- R336 to R339: a fragment that traps stops with its lanes where they are or in the handler. On the user route, with HANDLER set and no
lane of the gang in it, the trap CSRs take the record and the fragment's lanes go to HANDLER, their call stacks and every register kept;
with HANDLER zero, or on the system route, the fragment stays suspended and a record joins the context's ring; while other lanes are in the
handler, a user record stays pending; a lane in the handler that traps takes the system route with NESTED. The record carries the region and
the splitting branch of the lowest lane (TREG, TREC, TPAR; DEDUCED, log 70). The debugger route (KIND 3) of a trap outside the handler is
left out. -/
def Obligations.TrapsEnterTheHandlerOrTheRing : Prop :=
  ∀ (s : State) (b g : Nat) (m : Word) (pc : Va) (t : Trap) (hwbp : Bool) (x : Block) (y : Gang), s.gang? b g = some (x, y) →
    let l0 := y.lane ((lowest m).getD 0)
    let tr : Nat → TrapRec := fun high =>
      { tcause := BitVec.ofNat 32 (high + (if t.defer then 2 ^ 9 else 0) + (if hwbp then 2 ^ 8 else 0) + t.cause.toNat), tpc := pc.setWidth 64
        treg := l0.region.pc.setWidth 64, trec := l0.region.recN, tmask := m, tsib := y.live &&& ~~~m, tpar := l0.tpar, tval := t.tval }
    let u := s.takeTrap b g m pc t hwbp
    let outside : Prop := ∀ h, y.handler = some h → h.lanes &&& m = 0
    let posted : TrapRec → Prop := fun r =>
      u.trapQ = s.trapQ ++ [{ die := x.die, ctx := x.ctx, kind := 1, block := b, gang := g, n := s.nextId, tr := r, compl := 0 }]
        ∧ ∃ z, (u.gang? b g).map Prod.snd = some z ∧ z.handler = y.handler ∧ z.trap = y.trap
          ∧ ∀ l, l < 32 → z.lane l = if m.getLsbD l then { y.lane l with wait := .sysTrap s.nextId, hint := none } else y.lane l
    (∃ z, (u.gang? b g).map Prod.snd = some z ∧ z.calls = y.calls ∧ (∀ n, z.getV n = y.getV n ∧ z.getT n = y.getT n ∧ z.getS n = y.getS n
      ∧ z.getK n = y.getK n)) ∧
    MemKept s u ∧ BlocksKept s u b g ∧
    (outside → causeRoute t.cause y.attached = .user → x.lrec.handler ≠ 0 → y.handler = none →
      u.trapQ = s.trapQ ∧ ∃ z h, (u.gang? b g).map Prod.snd = some z ∧ z.trap = tr 0 ∧ z.handler = some h ∧ h.lanes = m
        ∧ ∀ l, l < 32 → if m.getLsbD l then (z.lane l).pc = x.lrec.handler.setWidth 48 ∧ (z.lane l).wait = .none ∧ (z.lane l).dep = (y.lane l).dep
            else z.lane l = y.lane l) ∧
    (outside → causeRoute t.cause y.attached = .user → x.lrec.handler = 0 → posted (tr 0)) ∧
    (outside → causeRoute t.cause y.attached = .user → x.lrec.handler ≠ 0 → y.handler.isSome = true →
      u.trapQ = s.trapQ ∧ ∃ z, (u.gang? b g).map Prod.snd = some z ∧ z.pendingUser = y.pendingUser ++ [(s.nextId, tr 0)]
        ∧ ∀ l, l < 32 → z.lane l = if m.getLsbD l then { y.lane l with wait := .userTrap s.nextId, hint := none } else y.lane l) ∧
    (outside → causeRoute t.cause y.attached = .system → posted (tr (2 ^ 10))) ∧
    (¬outside → causeRoute t.cause y.attached ≠ .unrecoverable → posted (tr (2 ^ 15 + 2 ^ 10)))

/-- R7, R43, R63, R103: beside its effect, the issue of a word changes only the gang's place, clocks and counts and its entry's issue
budget: every register, every byte, every other gang and all that the device holds are as the effect left them. -/
def Obligations.AnIssueAddsOnlyItsCosts : Prop :=
  ∀ (s z s2 : State) (i : Info) (c : Ctx) (next : Bool) (y2 : Gang), s.clears i = some (c, z) → s2.gangAt c = some y2 →
    let t := s.issued i c s2 next
    (∃ y3, t.gangAt c = some y3 ∧ GangKept y2 y3 [] [] [] ∧ y3.fflags = y2.fflags ∧ y3.x = y2.x ∧ y3.d = y2.d ∧ y3.pends = y2.pends
      ∧ y3.live = y2.live) ∧
    MemKept s2 t ∧ BlocksKept s2 t c.b c.g ∧ DeviceKept s2 t ∧ t.focus = .idle ∧
    (∀ e, s2.entry? c.x.entry = some e → t.entry? c.x.entry = some (e.charge 0 1)) ∧
    ∀ n, n ≠ c.x.entry → t.entry? n = s2.entry? n

/-! ### Reset, decoding and the step -/

/-- R27, R28, R73, R74, R372, R386, R387, R389: what reset leaves: no work, FCYC 0, HOLD set and RSV 0x10, every space without a root and
every root slot and lease free, empty rings, an idle mailbox. Every memory has its canonical form and nobody has the focus. (That a byte
of memory that nothing has written reads 0 is the model's choice, log 10.) -/
def Obligations.ResetLeavesAnIdleMachine : Prop :=
  let s := State.reset
  s.blocks = [] ∧ s.entries = [] ∧ s.ops = [] ∧ s.subs = [] ∧ s.apq = [] ∧
    (∀ d : Die, s.fcyc[d] = 0 ∧ s.fe[d].hold = true ∧ s.fe[d].rsv = 0x10 ∧ s.fe[d].queues = [] ∧ s.fe[d].cmd = 0 ∧ s.fe[d].notices.widx = 0
      ∧ s.fe[d].notices.ridx = 0) ∧
    (∀ n, (s.space n).nullr = true ∧ (s.space n).sgen = 0 ∧ (s.space n).key = 0 ∧ (s.space n).ctx = 0) ∧
    (∀ n, (s.root n).state = 0 ∧ (s.root n).pins = 0 ∧ (s.root n).gen = 0) ∧
    (∀ n, (s.lease n).state = 0) ∧ s.mbox.state = 0 ∧ s.mbox.running = none ∧ s.mbox.fatal = false ∧ s.mbox.bootfail = false ∧
    (∀ l : Loc, s.readByte l = 0) ∧ s.memWf = true ∧ s.atRest = true

/-- R106 to R108, R111: the word that encodes a well-formed instruction decodes to it, with every operand at every value. -/
def Obligations.DecodeOfEncode : Prop :=
  ∀ (i : Instr) (w : Word), encodeWord i = some w → i.wellFormed = true → decode w = .ok i

/-- R106 to R108, R111: a word that decodes is the encoding of what it decodes to, so no two instructions share a word and no bit of a
word is dropped; what it decodes to is well-formed. -/
def Obligations.EncodeOfDecode : Prop :=
  ∀ (w : Word) (i : Instr), decode w = .ok i → encodeWord i = some w ∧ i.wellFormed = true

/-- R102, R106 to R108: words written out from the encoding tables decode to the instructions that they stand for: IADD V3, V1, V2; LD;
SADD; FENCE; the BRA of R106; CSRR; TRAP; MMA. A reserved major and a reserved code decode to none. -/
def Obligations.WordsOfTheTablesDecode : Prop :=
  decode 0b00_000000_000011_000001_000010_000_000#32 = .ok (.iadd ⟨0, 3, 1, 2, 0⟩) ∧
    decode 0b01_100000_000100_000101_01_0011_111110#32 = .ok (.ld ⟨1, 4, 5, 1, 3, 62⟩) ∧
    decode 0b00_011100_000101_000110_000111_000_000#32 = .ok (.sadd ⟨0, 5, 6, 7⟩) ∧
    decode 0b00_100110_0011_0100_10_00110_1_01_000000#32 = .ok (.fenceRel ⟨0, 3, 4, 2, 6⟩) ∧
    decode 0x38080006#32 = .ok (.bra ⟨0, 0, 1, 0, 6⟩) ∧
    decode 0b00_111100_00011_00000_10000_00000_0000#32 = .ok (.csrr ⟨0, 3, 0, 16⟩) ∧
    decode 0b00_111011_00000_00001_00010_00000_0011#32 = .ok (.trap ⟨0, 1, 2⟩) ∧
    decode 0b10_110000_00001_0010_001000_1_00100_100#32 = .ok (.mma ⟨2, 1, 2, 8, 1, 4, 4⟩) ∧
    (∀ w : Word, fld w 24 6 = 0x3F → ∃ e, decode w = .error e) ∧
    decode 0b00_011000_000000_000000_000000_000_111#32 = .error .reservedCode

/-- R60, R68, R96, R111: an issue turn of a partition that has not issued in this cycle executes the instruction that the word at the
issuing fragment's place decodes to, and takes the partition's cycle; a device turn
executes its event with its input; when the agenda is empty, the default turn is taken (log 1). -/
def Obligations.StepRunsTheDecodedInstruction : Prop :=
  (∀ (s t z : State) (d : Die) (core part : Nat) (r : List Turn) (c : Cand) (w : Word) (i : Instr),
    s.agenda = .issue d core part :: r → s.partDone d core part = false →
    let s0 : State := { s with agenda := r }
    pickGang ((s0.candidates d core part).filter fun k => (s0.ready k).isSome) = some c →
      s0.begin c.b c.g = .word w z → decode w = .ok i → exec i z = .next t → t.progress = true →
      step s = .next (s0.noteIssue t d core part)) ∧
  (∀ (s z : State) (b g : Nat) (w : Word), s.begin b g = .word w z →
    ∃ (x : Block) (m : Word) (pc hpc : Va) (h : Word) (nvl : Nat),
      s.block? b = some x ∧ z.focus = .gang b g m pc hpc h w nvl ∧ z.fetchWord x pc = .ok w) ∧
  (∀ (s t : State) (i : Instr) (x : Input) (r : List Turn),
    s.agenda = .event i x :: r → encodeWord i = none → s.mbox.bootfail = false → s.booted = true → exec i { s with agenda := r, input := x } = .next t →
    step s = .next { t with input := .none, focus := .idle }) ∧
  ∀ s : State, s.agenda = [] → step s = s.take s.defaultTurn

/-! ### Every step -/

/-- R60, R111, R234: from a state in which nobody has the focus, every step answers a next state, and nobody has the focus in it: no
instruction, no event and no ordinary data stops the machine, and no word is left half done. -/
def Obligations.EveryStepAnswersAStateAtRest : Prop :=
  ∀ s : State, s.atRest = true → ∃ t, step s = .next t ∧ t.atRest = true

/-- Every step keeps every memory in its canonical form (addresses strictly rising, no cell that reads as an unlisted byte does). -/
def Obligations.EveryStepKeepsMemoryCanonical : Prop :=
  ∀ s t : State, s.memWf = true → step s = .next t → t.memWf = true
end

