-- ==== Sys2Proof/Laws/Errors.lean ====
section
/-! SUPPORT. What counting an error can change (R391 to R393): the error logs, the black boxes and the free-value counter alone. -/

namespace Sys2Proof.Machine

/-- Two states agree but for the error logs, the black boxes and the free-value counter. -/
def OnlyLogged (s t : State) : Prop := t = { s with elog := t.elog, bbox := t.bbox, fresh := t.fresh }

theorem State.blackBox_only (s : State) (d : Die) (sort ctx : Nat) : OnlyLogged s (s.blackBox d sort ctx) := rfl

theorem State.logError_only (s : State) (d : Die) (kind chan pa syn : Nat) : OnlyLogged s (s.logError d kind chan pa syn) := rfl

theorem State.logFound_only (s : State) (d : Die) (kind : Nat) (l : Option Loc) : OnlyLogged s (s.logFound d kind l) := rfl

/-- Noting a trap counts an error where the trap is one, and changes nothing else. -/
theorem State.noteError_only (s : State) (d : Die) (t : Trap) : OnlyLogged s (s.noteError d t) := by
  unfold State.noteError; split
  · exact s.logFound_only d _ _
  · rfl

/-- What an error's count leaves: every agent's work, memory and the records to be posted. -/
theorem OnlyLogged.fields {s t : State} (h : OnlyLogged s t) :
    t.blocks = s.blocks ∧ t.entries = s.entries ∧ t.ops = s.ops ∧ t.subs = s.subs ∧ t.hbm = s.hbm ∧ t.tun = s.tun ∧ t.lender = s.lender
      ∧ t.host = s.host ∧ t.trapQ = s.trapQ ∧ t.discards = s.discards ∧ t.fe = s.fe := by
  rw [h]; exact ⟨rfl, rfl, rfl, rfl, rfl, rfl, rfl, rfl, rfl, rfl, rfl⟩

/-- Once 16 entries are held, OVF is set and no entry is added; the count goes on (R392). -/
theorem ErrLog.record_full (e : ErrLog) (kind chan pa syn : Nat) (h : 16 ≤ e.entries.length) :
    (e.record kind chan pa syn).entries = e.entries ∧ (e.record kind chan pa syn).ovf = true := by
  unfold ErrLog.record; simp [h]

/-- The log never holds more than 16 entries (R392). -/
theorem ErrLog.record_length (e : ErrLog) (kind chan pa syn : Nat) (h : e.entries.length ≤ 16) :
    (e.record kind chan pa syn).entries.length ≤ 16 := by
  by_cases h16 : 16 ≤ e.entries.length
  · rw [(e.record_full kind chan pa syn h16).1]; exact h
  · simp only [ErrLog.record, if_neg h16, List.length_append, List.length_singleton]; omega

end Sys2Proof.Machine
end

