-- ==== Sys2Proof/Laws/Sites.lean ====
section
/-! SUPPORT. What some shared operations outside the issue can do: a place of a gather buffer, a queue's fault, an access that its site has
refused, a lock waiter's strike. -/

namespace Sys2Proof.Laws

open Sys2Proof.Machine

/-- Where a place of the buffer is free, the next record's is below the capacity, and no record of the node lies in it (R26, R183). -/
theorem freePlace_unused (nd : Node) (cap p : Nat) (hp : p < cap) (hf : nd.held.any (·.place = p) = false)
    (hl : (nd.launched.any fun b => b.2.any (·.place = p)) = false) :
    nd.freePlace cap < cap ∧ nd.held.any (·.place = nd.freePlace cap) = false
      ∧ (nd.launched.any fun b => b.2.any (·.place = nd.freePlace cap)) = false := by
  unfold Node.freePlace
  have hc : 0 < cap := Nat.lt_of_le_of_lt (Nat.zero_le _) hp
  obtain ⟨q, hq⟩ : ∃ q, (((List.range cap).map fun i => (nd.next + i) % cap).find? fun p =>
      !(nd.held.any (·.place = p) || nd.launched.any fun b => b.2.any (·.place = p))) = some q := by
    rw [← Option.isSome_iff_exists, List.find?_isSome]
    refine ⟨p, List.mem_map.2 ⟨(p + cap - nd.next % cap) % cap, List.mem_range.2 (Nat.mod_lt _ hc), ?_⟩, by simp [hf, hl]⟩
    have := Nat.mod_lt nd.next hc
    rw [Nat.add_mod_mod, ← Nat.mod_add_mod, show nd.next % cap + (p + cap - nd.next % cap) = p + cap by omega, Nat.add_mod_right,
      Nat.mod_eq_of_lt hp]
  simp only [hq, Option.getD_some]
  have h1 := List.find?_some hq
  obtain ⟨i, -, rfl⟩ := List.mem_map.1 (List.mem_of_find?_eq_some hq)
  exact ⟨Nat.mod_lt _ hc, by simpa using h1⟩

/-- A queue that is faulted posts no second notice by R30 and R32 (log 99). -/
theorem faultQueue_faulted (s : State) (d : Die) (q : Nat) (x : Queue) (c : BitVec 8) (h : s.queue? d q = some x) (hx : x.fault = true) :
    s.faultQueue d q c = s := by
  simp [State.faultQueue, h, hx]

/-- An access that its site has refused is performed nowhere while the record that tells of it stands (R376, log 145). -/
theorem atomicPerform_halted (s : State) (b g id lane : Nat) (x : Block) (y : Gang) (p : Pend) (a : LaneAcc) (hg : s.gang? b g = some (x, y))
    (hp : y.pend? id = some p) (ha : (p.accs.find? fun q => q.lane = lane && !q.performed) = some a) (hr : y.halted p a = true) :
    s.atomicPerform b g id lane = s := by
  simp [State.atomicPerform, hg, hp, ha, hr]

/-- A context that is struck already is not struck again. -/
theorem strikeOnce_struck (s : State) (b g : Nat) (x : Block) (t : Trap) (hb : s.block? b = some x) (hs : s.struck x.ctx = true) :
    s.strikeOnce b g t = s := by
  simp [State.strikeOnce, hb, hs]

end Sys2Proof.Laws
end

