-- ==== Sys2Proof/Tests/Slice0.lean ====
section
/-! SUPPORT. Tests: words written out from the encoding tables decode to what they stand for, ill-formed terms are refused, every
statement's hypotheses are met somewhere, and single steps give results worked out by hand from the spec. -/

open Sys2Proof Sys2Proof.Machine

namespace Sys2Proof.Tests

set_option Elab.async false

/-! ### Small states -/

/-- One block (number 1) with one gang, loaded as log 4 says. -/
noncomputable def loaded : State := { loadWord 0 State.reset with agenda := [] }

/-- The lanes of `m` of that gang are about to issue the word `w`; the gang is first changed by `f`. -/
noncomputable def at_ (w : Word) (m : Word) (f : Gang → Gang) : State :=
  ({ loaded with focus := .gang 1 0 m 0x20004 0x20000 0x1E000000 w 0 } : State).modGang 1 0 f

/-- Lanes 0 to 31. -/
def every : Word := BitVec.allOnes 32

def vreg (n : Nat) (val : Nat → Word) (t : BitVec 5) (y : Gang) : Gang := y.setV n every (lanes val) (tags fun _ => t)
def sreg (n : Nat) (w : Word) (y : Gang) : Gang := y.setS n w
def kreg (n : Nat) (w : Word) (y : Gang) : Gang := y.setK n w

/-- The word's checks clear in `s`, and its context and state are as `p` says. -/
noncomputable def meets (s : State) (i : Info) (p : Ctx → State → Bool) : Bool :=
  match s.clears i with
  | some (c, z) => p c z
  | none => false

theorem meets_spec {s : State} {i : Info} {p : Ctx → State → Bool} (h : meets s i p = true) :
    ∃ c z, s.clears i = some (c, z) ∧ p c z = true := by
  unfold meets at h
  split at h
  · exact ⟨_, _, ‹_›, h⟩
  · simp at h

/-- A test on every lane of a mask. -/
def onLanes (m : Word) (p : Nat → Bool) : Bool := (List.range 32).all fun l => !m.getLsbD l || p l

theorem onLanes_spec {m : Word} {p : Nat → Bool} (h : onLanes m p = true) : ∀ l, m.getLsbD l = true → p l = true := by
  intro l hl
  have h1 := List.all_eq_true.mp h l (List.mem_range.mpr (by by_contra hn; simp [BitVec.getLsbD_of_ge m l (by omega)] at hl))
  simpa [hl] using h1

/-- The test `p` holds on the state that a step answers. -/
def answers (o : Host.Outcome State Fault Refusal) (p : State → Bool) : Bool :=
  match o with
  | .next t => p t
  | _ => false

/-! ### Hypotheses that are met: register words -/

theorem met_IntegerArithWritesEachActiveLane :
    meets (at_ 0 every id) (aluInfo 0 0 [1, 2] [3])
      (fun c _ => onLanes (c.active 0) fun l => isWordTag (c.t 1 l) && isWordTag (c.t 2 l)) = true ∧
    meets (at_ 0 every fun y => kreg 1 0x80000001 (vreg 1 (fun _ => 0) tI8X4 y)) (aluInfo 0 1 [1, 2] [3])
      (fun c _ => packTag (c.active 1) (c.t 1) (c.t 2) = some tI8X4 && onLanes (c.active 1) fun l =>
        (c.t 1 l = tI8X4 || c.t 1 l = tRAW) && (c.t 2 l = tI8X4 || c.t 2 l = tRAW)) = true ∧
    meets (at_ 0 every id) (aluInfo 3 0 [1] [1]) (fun c _ => packTag (c.active 0) (c.t 1) (fun _ => tRAW) = none
      && onLanes (c.active 0) fun l => isWordTag (c.t 1 l)) = true ∧
    meets (at_ 0 1 (vreg 1 (fun _ => 0) tI16X2)) (aluInfo 0 0 [1] [3])
      (fun c _ => packTag (c.active 0) (c.t 1) (fun _ => tRAW) = some tI16X2 && onLanes (c.active 0) fun l => c.t 1 l = tI16X2) = true := by
  decide +kernel

theorem met_ProductsBitwiseAndShiftsWriteEachActiveLane :
    meets (at_ 0 every (vreg 1 (fun _ => 7) tU32)) (aluInfo 0 0 [1, 2] [3])
      (fun c _ => onLanes (c.active 0) fun l => isWordTag (c.t 1 l) && isWordTag (c.t 2 l)) = true ∧
    meets (at_ 0 every (vreg 2 (fun _ => 32) tF32)) (aluInfo 0 0 [1, 2] [63]) (fun _ _ => true) = true := by
  decide +kernel

theorem met_BitFieldAndCountWordsWriteEachActiveLane :
    meets (at_ 0 every id) (aluInfo 0 0 [1, 2] [3]) (fun _ _ => true) = true ∧
    meets (at_ 0 every id) (aluInfo 0 0 [1, 2, 3] [3]) (fun _ _ => true) = true ∧
    meets (at_ 0 1 id) (aluInfo 0 3 [63] [0]) (fun _ _ => true) = true := by
  decide +kernel

theorem met_PairAddAndMultiplyAddWriteEachLane :
    meets (at_ 0 every fun y => vreg 2 (fun _ => 0) tI64LO (vreg 3 (fun _ => 0) tI64HI y))
      { aluInfo 0 0 [2, 3, 62, 63] [4, 5] with regsOk := fun _ => evenV 4 && evenV 2 && evenV 62 }
      (fun c _ => onLanes (c.active 0) fun l => (c.t 2 l = tI64LO || c.t 2 l = tRAW) && (c.t 3 l = tI64HI || c.t 3 l = tRAW)
        && (c.t 62 l = tI64LO || c.t 62 l = tRAW) && (c.t 63 l = tI64HI || c.t 63 l = tRAW)) = true ∧
    meets (at_ 0 every id) (aluInfo 0 0 [1, 2, 3] [4])
      (fun c _ => onLanes c.m fun l => isWordTag (c.t 1 l) && isWordTag (c.t 2 l) && isWordTag (c.t 3 l)) = true := by
  decide +kernel

theorem met_IntegerComparesSetTheActiveBits :
    meets (at_ 0 every id) { aluInfo 0 2 [1, 2] [] with regsOk := fun _ => kWrite 11, writes := [.k 11] }
      (fun c _ => kWrite 11 && onLanes (c.active 2) fun l => isWordTag (c.t 1 l) && isWordTag (c.t 2 l)) = true ∧
    meets (at_ 0 every id) { aluInfo 0 0 [1] [] with regsOk := fun _ => kWrite 1, writes := [.k 1] }
      (fun c _ => kWrite 1 && onLanes c.m fun l => isWordTag (c.t 1 l)) = true := by
  decide +kernel

theorem met_ImmediateFormsWriteEachLane :
    meets (at_ 0 every id) (aluInfo 0 0 [0] [63]) (fun c _ => onLanes c.m fun l => isWordTag (c.t 0 l)) = true ∧
    meets (at_ 0 every id) (aluInfo 0 0 [] [5]) (fun _ _ => true) = true ∧
    meets (at_ 0 every id) (aluInfo 0 0 [5] [5]) (fun c _ => onLanes c.m fun l => isWordTag (c.t 5 l)) = true := by
  decide +kernel

theorem met_LaneOperationsAndMovesWriteEachActiveLane :
    meets (at_ 0 every id) (aluInfo 0 1 [1, 2] [3]) (fun _ _ => true) = true ∧
    meets (at_ 0 every id) { aluInfo 0 1 [1, 2] [3] with regsOk := fun _ => (1 : BitVec 3) ≠ 0 } (fun _ _ => true) = true ∧
    meets (at_ 0 every id) { aluInfo 0 0 [] [3] with regsOk := fun _ => sField 31, reads := pkReads 0 ++ [.s 31] } (fun _ _ => true) = true ∧
    meets (at_ 0 every id) { aluInfo 0 0 [3] [] with regsOk := fun _ => sField 31, writes := [.s 31] } (fun _ _ => sField 31) = true ∧
    meets (at_ 0 every id) { aluInfo 0 0 [1] [62, 63] with regsOk := fun _ => evenV 62 } (fun _ _ => true) = true ∧
    meets (at_ 0 every id) { aluInfo 0 0 [1] [2] with regsOk := fun _ => tagListed 0x19 } (fun _ _ => true) = true ∧
    meets (at_ 0 every id) (aluInfo 0 0 [] [2]) (fun _ _ => true) = true := by
  decide +kernel

theorem met_MaskOperationsAndVotesComplete :
    meets (at_ 0 every id)
      { cls := 0, stall := 0, regsOk := fun _ => kWrite 11 && kRead 0 && kRead 11,
        reads := pkReads 1 ++ [.k 0] ++ [.k 11], writes := [.k 11] } (fun _ _ => kWrite 11) = true ∧
    meets (at_ 0 every id) { cls := 0, stall := 0, regsOk := fun _ => kWrite 1 && kRead 0, reads := pkReads 0 ++ [.k 0] ++ [], writes := [.k 1] }
      (fun _ _ => kWrite 1) = true ∧
    meets (at_ 0 every id) { aluInfo 0 0 [] [3] with regsOk := fun _ => kRead 11, reads := pkReads 0 ++ [.k 11] } (fun _ _ => true) = true ∧
    meets (at_ 0 every id) { aluInfo 0 0 [1] [] with regsOk := fun _ => kWrite 1, writes := [.k 1] } (fun _ _ => kWrite 1) = true ∧
    meets (at_ 0 every id) { cls := 0, stall := 0, regsOk := fun _ => kWrite 1 && sField 31, reads := [.s 31], writes := [.k 1] }
      (fun _ _ => kWrite 1) = true ∧
    meets (at_ 0 every id) { cls := 0, stall := 0, regsOk := fun _ => sField 31 && kRead 11, reads := [.k 11], writes := [.s 31] }
      (fun _ _ => sField 31) = true ∧
    meets (at_ 0 every id) { aluInfo 0 0 [] [3] with regsOk := fun _ => kRead 11 && (0 : BitVec 6) = 0, reads := pkReads 0 ++ [.k 11] }
      (fun _ _ => true) = true := by
  decide +kernel

/-! ### Hypotheses that are met: uniform, floating and converting words -/

/-- Queue 0 of core 0 runs an address program of block 1 and has the focus. -/
noncomputable def program : State :=
  { loaded with
    focus := .ap 0 0 0 0x1C000000
    apq := [((0, 0), { ApQueue.start 1 7 (Vector.replicate 32 (0 : Word)) 0x20000 with clause := some (0x20000, 0x1E000000), pc := 0x20004 })] }

/-- An address program has the focus, its entry has an access unit left, and its queue is as `p` says. -/
noncomputable def programMeets (s : State) (p : ApQueue → Bool) : Bool :=
  match s.focus with
  | .ap d core q _ =>
    match s.apq? d core q with
    | some a => (s.shortfall (((s.block? a.b).map (·.entry)).getD 0) 2 1).isNone && p a
    | none => false
  | _ => false

/-- No exception flag is enabled, so none traps. -/
def quiet (c : Ctx) : Bool := c.y.fexc.extractLsb' 0 5 = 0

theorem met_UniformWordsWriteOneRegister :
    (sField 31 && sField 0 && kWrite 11) = true ∧
    meets (at_ 0 every id) { cls := 0, stall := 0, regsOk := fun _ => true, reads := [.s 0, .s 31], writes := [.s 31] } (fun _ _ => true) = true ∧
    meets (at_ 0 every id) { cls := 0, stall := 0, regsOk := fun _ => true, reads := [.s 1, .s 2], writes := [.k 11] } (fun _ _ => true) = true ∧
    meets (at_ 0 every id) { cls := 0, stall := 0, regsOk := fun _ => true, reads := [.s 1], writes := [.s 1] } (fun _ _ => true) = true ∧
    meets (at_ 0 every id) { cls := 0, stall := 0, regsOk := fun _ => true, writes := [.s 31] } (fun _ _ => true) = true ∧
    programMeets program (fun _ => true) = true := by
  decide +kernel

theorem met_FloatSumsAndProductsRoundOnce :
    meets (at_ 0 every fun y => vreg 1 (fun _ => 0x3F800000) tF32 (vreg 2 (fun _ => 0) tF32 y)) (aluInfo 0 0 [1, 2] [3])
      (fun c _ => quiet c && onLanes (c.active 0) fun l => isFloatTag (c.t 1 l) && c.t 2 l = c.t 1 l) = true ∧
    meets (at_ 0 every fun y => vreg 1 (fun _ => 0) tBF16X2 (vreg 2 (fun _ => 0) tBF16X2 y)) (aluInfo 0 0 [1, 2] [3])
      (fun c _ => quiet c && onLanes (c.active 0) fun l => isFloatTag (c.t 1 l) && c.t 2 l = c.t 1 l) = true := by
  decide +kernel

theorem met_FloatSelectionsKeepCodes :
    meets (at_ 0 every fun y => vreg 1 (fun _ => 0x7C00) tF16X2 (vreg 2 (fun _ => 0x7E00) tF16X2 y)) (aluInfo 0 0 [1, 2] [3])
      (fun c _ => onLanes (c.active 0) fun l => isFloatTag (c.t 1 l) && c.t 2 l = c.t 1 l) = true ∧
    meets (at_ 0 every (vreg 1 (fun _ => 0x80000000) tF32)) (aluInfo 0 0 [1] [1])
      (fun c _ => onLanes (c.active 0) fun l => isFloatTag (c.t 1 l)) = true := by
  decide +kernel

theorem met_FusedAndDotRoundOnce :
    meets (at_ 0 every fun y => vreg 1 (fun _ => 0x3F800000) tF32 (vreg 2 (fun _ => 0) tF32 (vreg 3 (fun _ => 0) tF32 y)))
      (aluInfo 0 0 [1, 2, 3] [3])
      (fun c _ => quiet c && onLanes c.m fun l => isFloatTag (c.t 1 l) && c.t 2 l = c.t 1 l && c.t 3 l = c.t 1 l) = true ∧
    meets (at_ 0 every fun y => vreg 1 (fun _ => 0x38383838) tE4M3X4 (vreg 2 (fun _ => 0) tE4M3X4 (vreg 3 (fun _ => 0) tF32 y)))
      (aluInfo 0 0 [1, 2, 3] [4])
      (fun c _ => quiet c && onLanes c.m fun l => isDotTag (c.t 1 l) && c.t 2 l = c.t 1 l && c.t 3 l = tF32) = true := by
  decide +kernel

theorem met_FloatComparesSetTheActiveBits :
    meets (at_ 0 every fun y => { vreg 1 (fun _ => 0x7FC00000) tF32 (vreg 2 (fun _ => 0) tF32 y) with fexc := 0x0F })
      { aluInfo 0 0 [1, 2] [] with regsOk := fun _ => kWrite 1, writes := [.k 1] }
      (fun c _ => kWrite 1 && (onLanes (c.active 0) fun l => c.t 1 l = tF32 && c.t 2 l = tF32) && !c.y.fexc.getLsbD 4) = true ∧
    meets (at_ 0 every fun y => { vreg 1 (fun _ => 0x7F800000) tF32 (vreg 2 (fun _ => 0) tF32 y) with fexc := 0x1F })
      { aluInfo 0 0 [1, 2] [] with regsOk := fun _ => kWrite 11, writes := [.k 11] }
      (fun c _ => kWrite 11 && onLanes (c.active 0) fun l => c.t 1 l = tF32 && c.t 2 l = tF32
        && !(fmtF32.value (c.v 1 l).toNat).isNan && !(fmtF32.value (c.v 2 l).toNat).isNan) = true ∧
    meets (at_ 0 every (vreg 1 (fun _ => 0xFF800000) tF32)) (aluInfo 0 0 [1] [2])
      (fun c _ => onLanes (c.active 0) fun l => c.t 1 l = tF32) = true := by
  decide +kernel

theorem met_TranscendentalsGoPendingWithTheirResults :
    meets (at_ 0 every (vreg 1 (fun _ => 0x40000000) tF32)) { aluInfo 0 0 [1] [2] with varLat := true }
      (fun c _ => quiet c && onLanes (c.active 0) fun l => c.t 1 l = tF32) = true ∧
    meets (at_ 0 1 fun y => { vreg 1 (fun _ => 0x40000000) tF32 y with fexc := 0x1F }) { aluInfo 0 0 [1] [2] with varLat := true }
      (fun c _ => onLanes (c.active 0) fun l => c.t 1 l = tF32
        && (fa1Value 0 (c.v 1 l) c.y.mode 0).fl &&& c.y.fexc.extractLsb' 0 5 = 0) = true := by
  decide +kernel

theorem met_ConversionsRoundOnce :
    cvtDest tE4M3X4 = true ∧ tagScaled 0x10 = true ∧
    meets (at_ 0 every (vreg 1 (fun _ => 0x3F800000) tF32)) { aluInfo 0 0 [1] [2] with regsOk := fun _ => cvtDest tI32 }
      (fun c _ => quiet c && onLanes (c.active 0) fun l => cvtChk (c.t 1 l) tI32 = none) = true ∧
    meets (at_ 0 every (vreg 1 (fun _ => 0x3F800000) tF32)) { aluInfo 0 0 [1, 2] [2] with regsOk := fun _ => cvtDest 0x10 }
      (fun c _ => quiet c && onLanes (c.active 0) fun l => cvtChk (c.t 1 l) 0x10 = none) = true ∧
    meets (at_ 0 every (vreg 1 (fun _ => 0x3F800000) tF32)) { aluInfo 0 0 [1] [2] with regsOk := fun _ => tagScaled 0x16 }
      (fun c _ => quiet c && onLanes (c.active 0) fun l => c.t 1 l = tF32) = true ∧
    meets (at_ 0 every fun y => { vreg 1 (fun _ => 0x3F800000) tF32 y with fexc := 0x10 })
      { aluInfo 0 0 [1] [2] with regsOk := fun _ => tagScaled 0x10 }
      (fun c _ => onLanes (c.active 0) fun l => c.t 1 l = tF32 && !f32Special (c.v 1 l)) = true ∧
    meets (at_ 0 every (vreg 1 (fun _ => 0x7F000000) 0x10)) (aluInfo 0 0 [1] [2])
      (fun c _ => quiet c && onLanes (c.active 0) fun l => tagScaled (c.t 1 l)) = true := by
  decide +kernel

theorem met_PackingMovesElements :
    meets (at_ 0 every (vreg 1 (fun _ => 1) tF16X2)) (aluInfo 0 0 [1, 2] [3])
      (fun c _ => onLanes (c.active 0) fun l => packChk (c.t 1 l) (c.t 2 l) = none) = true ∧
    meets (at_ 0 every (vreg 1 (fun _ => 1) tI8X4)) (aluInfo 0 0 [1, 2, 3] [3])
      (fun c _ => onLanes (c.active 0) fun l => packChk (c.t 1 l) (c.t 2 l) = none) = true ∧
    meets (at_ 0 every (vreg 1 (fun _ => 1) tE2M1X8)) (aluInfo 0 0 [1, 2, 3] [3])
      (fun c _ => onLanes (c.active 0) fun l => tagPacked (c.t 1 l) && (c.t 3 l = c.t 1 l || c.t 3 l = tRAW)) = true ∧
    meets (at_ 0 every (vreg 1 (fun _ => 1) tE2M1X8)) (aluInfo 0 0 [1, 2] [3])
      (fun c _ => onLanes (c.active 0) fun l => tagPacked (c.t 1 l)) = true ∧
    meets (at_ 0 every (vreg 1 (fun _ => 1) tI16X2)) (aluInfo 0 0 [1] [3])
      (fun c _ => onLanes (c.active 0) fun l => tagPacked (c.t 1 l)) = true ∧
    meets (at_ 0 every (vreg 1 (fun _ => 1) tE3M2X4)) (aluInfo 0 0 [1] [3])
      (fun c _ => onLanes (c.active 0) fun l => c.t 1 l = tE2M3X4 || c.t 1 l = tE3M2X4) = true ∧
    meets (at_ 0 every id) { aluInfo 0 0 [1] [3] with regsOk := fun _ => tE2M3X4 = tE2M3X4 || tE2M3X4 = tE3M2X4 } (fun _ _ => true) = true := by
  decide +kernel

/-! ### Hypotheses that are met: memory, fences, bindings, locks and barriers -/

/-- The block is changed by `g` as well; `alone` makes it a cluster-level unit of one member. -/
noncomputable def atBlock (w m : Word) (f : Gang → Gang) (g : Block → Block) : State := (at_ w m f).modBlock 1 g
def alone (x : Block) : Block := { x with unit := some 5 }

/-- A load or a store with operands `o` may issue: the lanes' addresses pass, and no fence holds it. -/
def memOk (o : Mem) (cls : AccClass) (wr : Bool) (c : Ctx) (z : State) : Bool :=
  (onLanes c.m fun l =>
    (z.laneCheck c.x o.sp.toNat (wfSize o.wf) true (c.v o.va l + o.off.signExtend 32 * BitVec.ofNat 32 (wfSize o.wf)).toNat).isNone) &&
  !(z.held c.y (accOf cls o.sp.toNat wr (z.laneAccs c o (wfSize o.wf) (!wr) fun l =>
    if wr then natLe (wfSize o.wf) (if o.wf = 15#4 then (c.pair o.vd l).toNat else (c.v o.vd l).toNat) else [])))

theorem met_LoadsAndStoresGoPendingAtTheirAddresses :
    -- LD.U8 of the last byte of local memory, and of the window; LD of 64 bits; ST of SP at offset 0; ST of 64 bits
    meets (at_ 0 every (vreg 1 (fun _ => 65535) tRAW))
      { cls := 2, stall := 0, varLat := true, regsOk := fun _ => !decide ((0 : BitVec 4) = 15#4) || evenV 2, reads := [.v 1],
        writes := .v 2 :: if (0 : BitVec 4) = 15#4 then [.v 3] else [] } (memOk ⟨0, 2, 1, 0, 0, 0⟩ .load false) = true ∧
    meets (atBlock 0 every (vreg 1 (fun _ => 65536) tRAW) alone)
      { cls := 2, stall := 0, varLat := true, regsOk := fun _ => !decide ((0 : BitVec 4) = 15#4) || evenV 2, reads := [.v 1],
        writes := .v 2 :: if (0 : BitVec 4) = 15#4 then [.v 3] else [] } (memOk ⟨0, 2, 1, 1, 0, 63⟩ .load false) = true ∧
    meets (at_ 0 every (vreg 1 (fun l => BitVec.ofNat 32 (8 * l)) tRAW))
      { cls := 2, stall := 0, varLat := true, regsOk := fun _ => !decide ((15 : BitVec 4) = 15#4) || evenV 62, reads := [.v 1],
        writes := .v 62 :: if (15 : BitVec 4) = 15#4 then [.v 63] else [] } (memOk ⟨0, 62, 1, 0, 15, 0⟩ .load false) = true ∧
    meets (at_ 0 every id)
      { cls := 2, stall := 0, varLat := true, regsOk := fun _ => stCode 4 && (!decide ((4 : BitVec 4) = 15#4) || evenV 3),
        reads := .v 1 :: .v 3 :: if (4 : BitVec 4) = 15#4 then [.v 4] else [] } (memOk ⟨0, 3, 1, 3, 4, 0⟩ .store true) = true ∧
    meets (at_ 0 1 id)
      { cls := 2, stall := 0, varLat := true, regsOk := fun _ => stCode 15 && (!decide ((15 : BitVec 4) = 15#4) || evenV 2),
        reads := .v 1 :: .v 2 :: if (15 : BitVec 4) = 15#4 then [.v 3] else [] } (memOk ⟨0, 2, 1, 0, 15, 1⟩ .store true) = true := by
  decide +kernel

theorem met_MxLoadsAndStoresGoPendingByUnit :
    let o : Mem := ⟨0, 2, 1, 0, 6, 0⟩
    meets (at_ 0 every id)
      { cls := 2, stall := 0, varLat := true, regsOk := fun _ => (6 : BitVec 4).toNat ≤ 6, reads := [.v 1], writes := [.v 2] }
      (fun c z => (onLanes c.m fun l => (z.laneCheck c.x 0 (mxSize 6) false (laneAddr (c.v 1 l) 0 (mxSize 6))).isNone) &&
        !(z.held c.y (accOf .load 0 false (z.unitAccs c o (mxSize 6) true fun _ => [])))) = true ∧
    meets (at_ 0 every (vreg 2 (fun _ => 0x7F000001) (mxTag 6)))
      { cls := 2, stall := 0, varLat := true, regsOk := fun _ => (6 : BitVec 4).toNat ≤ 6, reads := [.v 1, .v 2] }
      (fun c z => (onLanes c.m fun l => (z.laneCheck c.x 0 (mxSize 6) false (laneAddr (c.v 1 l) 0 (mxSize 6))).isNone && c.t 2 l = mxTag 6 &&
          onLanes c.m fun k => (c.v 2 l).extractLsb' 24 8 = (c.v 2 k).extractLsb' 24 8) &&
        !(z.held c.y (accOf .store 0 true (z.unitAccs c o (mxSize 6) false (mxstData c o))))) = true := by
  decide +kernel

/-- An atomic or lock access of `n` bytes of scope `sc` at Va passes its checks in every lane, where `loc` is its location. -/
def atomOk (sc n : Nat) (va : BitVec 6) (rd : Bool) (loc : Nat → Loc) (c : Ctx) (z : State) : Bool :=
  onLanes c.m fun l => [false, true].all fun pcie =>
    match z.atomLoc c.x sc n (c.atomAddr va sc l) rd pcie with
    | .ok a => a = loc l
    | .error _ => false

/-- The accesses of an atomic or lock word, and the fences against them. -/
def atomFree (sc n : Nat) (va : BitVec 6) (wr : Bool) (loc : Nat → Loc) (c : Ctx) (z : State) : Bool :=
  let accs := (lanesOf c.m).map fun l => mkAcc c.y l (loc l) (c.atomAddr va sc l) n false (natLe n (c.v 2 l).toNat) (natLe n (c.v 3 l).toNat)
  !(z.held c.y (accOf .atom (((accs.head?).map fun a => atomSpace sc a.loc).getD sc) wr accs))

theorem met_AtomicsGoPendingAtTheirSites :
    -- ATOM.CAS in the last word of local memory; ATOM64.ADD in the window; ATOM.ALD and AST at device scope in main memory
    meets (at_ 0 every (vreg 1 (fun _ => 65532) tRAW))
      { cls := 2, stall := 0, varLat := true, sideEff := true, regsOk := fun _ => atomRegs false 10 0 3 1 2,
        reads := [.v 1, .v 2, .v 3], writes := [.v 3] }
      (fun c z => (onLanes c.m fun l => (atomTags c false 10 0 1 2 l).isNone) && atomOk 0 4 1 false (fun _ => .loc 1 65532) c z
        && atomFree 0 4 1 true (fun _ => .loc 1 65532) c z) = true ∧
    meets (atBlock 0 every (vreg 1 (fun _ => 8) tRAW) alone)
      { cls := 2, stall := 0, varLat := true, sideEff := true, regsOk := fun _ => atomRegs true 0 1 4 1 2,
        reads := [.v 1, .v 2, .v 3], writes := [.v 4, .v 5] }
      (fun c z => (onLanes c.m fun l => (atomTags c true 0 1 1 2 l).isNone) && atomOk 1 8 1 false (fun _ => .loc 1 8) c z
        && atomFree 1 8 1 true (fun _ => .loc 1 8) c z) = true ∧
    meets (at_ 0 1 (vreg 2 (fun _ => 0x30000) tRAW))
      { cls := 2, stall := 0, varLat := true, sideEff := true, regsOk := fun _ => atomRegs false 14 2 4 2 0,
        reads := [.v 2, .v 3], writes := [.v 4] }
      (fun c z => (onLanes c.m fun l => (atomTags c false 14 2 2 0 l).isNone) && atomOk 2 4 2 true (fun _ => .hbm 0x30000) c z
        && atomFree 2 4 2 false (fun _ => .hbm 0x30000) c z) = true ∧
    meets (at_ 0 1 (vreg 2 (fun _ => 0x30000) tRAW))
      { cls := 2, stall := 0, varLat := true, sideEff := true, regsOk := fun _ => atomRegs false 15 2 0 2 5,
        reads := [.v 2, .v 3, .v 5], writes := [] }
      (fun c z => (onLanes c.m fun l => (atomTags c false 15 2 2 5 l).isNone) && atomOk 2 4 2 false (fun _ => .hbm 0x30000) c z
        && atomFree 2 4 2 true (fun _ => .hbm 0x30000) c z) = true := by
  decide +kernel

theorem met_FencesJoinTheirGang :
    meets (at_ 0 every id) { cls := 5, stall := 0, regsOk := fun _ => (15 : BitVec 4) ≠ 0 && (1 : BitVec 4) ≠ 0 } (fun _ _ => true) = true ∧
    meets (at_ 0 every fun y => sreg 3 0x7F000000 (sreg 2 8 y))
      { cls := 5, stall := 0, sideEff := true, regsOk := fun _ => (1 : BitVec 4) ≠ 0 && (2 : BitVec 4) ≠ 0, reads := [.s 2, .s 3] }
      (fun c z => (uform (c.y.getS2 2)).isSome && (c.y.getS2 2).toNat % 8 = 0 && z.objPoint c.x (c.y.getS2 2) ≤ 0) = true ∧
    meets (at_ 0 every (sreg 2 0x30000))
      { cls := 5, stall := 0, sideEff := false, regsOk := fun _ => (1 : BitVec 4) ≠ 0 && (8 : BitVec 4) ≠ 0, reads := [.s 2, .s 3] }
      (fun c z => (uform (c.y.getS2 2)).isSome && (c.y.getS2 2).toNat % 8 = 0 && z.objPoint c.x (c.y.getS2 2) ≤ 3) = true ∧
    -- an object in HBM, below whose point the scope of one block is
    meets (at_ 0 every (sreg 2 0x30000))
      { cls := 5, stall := 0, sideEff := true, regsOk := fun _ => (1 : BitVec 4) ≠ 0 && (8 : BitVec 4) ≠ 0, reads := [.s 2, .s 3] }
      (fun c z => (uform (c.y.getS2 2)).isSome && (c.y.getS2 2).toNat % 8 = 0 && 0 < z.objPoint c.x (c.y.getS2 2)) = true := by
  decide +kernel

/-- The descriptor that the BIND of the tests writes: 64 bytes of local memory, guarded by the local dword 64; its base is in S0 and S1. -/
def bindRegs (y : Gang) : Gang := sreg 0 0 (sreg 1 0x7F000000 (sreg 4 (0x40000040) (sreg 6 64 (sreg 7 0x7F000000 y))))
def bindDesc : Binding := { base := 0x7F00000000000000, len := 64, scope := 1, obj := 0x7F00000000000040, owner := 0 }
def bindInfo : Info := { cls := 5, stall := 0, regsOk := fun _ => sEven 0 && sEven 6, reads := [.s 0, .s 1, .s 4, .s 6, .s 7], writes := [.s 8] }
def bindOk (c : Ctx) (z : State) : Bool :=
  (bindCheck z c.x (c.y.getS2 0) (c.y.getS 4) (c.y.getS2 6)).isNone && { bindDesc with owner := z.owner c.x.entry } =
    ({ base := c.y.getS2 0, len := (c.y.getS 4).toNat % 2 ^ 30, scope := (c.y.getS 4).toNat / 2 ^ 30, obj := c.y.getS2 6, owner := z.owner c.x.entry } : Binding)

theorem met_BindAndUnbindAnswerAnIndex :
    -- an equal entry; a free index; a full table
    meets { at_ 0 every bindRegs with binds := [(0, 255, bindDesc)] } bindInfo
      (fun c z => bindOk c z && z.binds.find? (fun q => q.1 = c.x.ctx && q.2.2 = { bindDesc with owner := z.owner c.x.entry }) = some (0, 255, bindDesc)) = true ∧
    meets { at_ 0 every bindRegs with binds := [(0, 0, { bindDesc with len := 8 })] } bindInfo
      (fun c z => bindOk c z && z.binds.find? (fun q => q.1 = c.x.ctx && q.2.2 = { bindDesc with owner := z.owner c.x.entry }) = none
        && (List.range 256).find? (fun k => !(z.binds.any fun e => e.1 = c.x.ctx && e.2.1 = k)) = some 1) = true ∧
    meets { at_ 0 every bindRegs with binds := (List.range 256).map fun n => (0, n, { bindDesc with len := 8 }) } bindInfo
      (fun c z => bindOk c z && z.binds.find? (fun q => q.1 = c.x.ctx && q.2.2 = { bindDesc with owner := z.owner c.x.entry }) = none
        && (List.range 256).find? (fun k => !(z.binds.any fun e => e.1 = c.x.ctx && e.2.1 = k)) = none) = true ∧
    meets { at_ 0 every (sreg 1 255) with binds := [(0, 255, bindDesc)] }
      { cls := 5, stall := 0, regsOk := fun _ => (0 : BitVec 5) = 0, reads := [.s 1], writes := [.s 2] }
      (fun c z => z.binds.find? (fun q => q.1 = c.x.ctx && q.2.1 = (c.y.getS 1).toNat && q.2.2.owner = z.owner c.x.entry) = some (0, 255, bindDesc)) = true ∧
    meets { at_ 0 every id with binds := [(0, 0, { bindDesc with owner := 9 })] }
      { cls := 5, stall := 0, regsOk := fun _ => (0 : BitVec 5) = 0, reads := [.s 1], writes := [.s 2] }
      (fun c z => z.binds.find? (fun q => q.1 = c.x.ctx && q.2.1 = (c.y.getS 1).toNat && q.2.2.owner = z.owner c.x.entry) = none) = true := by
  decide +kernel

theorem met_LockWordsReachTheirSites :
    -- LKW in local memory with K11, ULR in the window, LKINIT in main memory
    meets (at_ 0 every (vreg 1 (fun _ => 65528) tRAW))
      { cls := 5, stall := 0, sideEff := true, regsOk := fun _ => (0 : Nat) ≤ 2 && ((0 : Nat) ≤ 1 || evenV 1) && (11 : Nat) ≤ 11 && (2 ≤ (1 : Nat) || (11 : BitVec 6) ≠ 0),
        reads := [.v 1, .v 2], writes := [.k 11] }
      (fun c z => (onLanes c.m fun l => (lockTags z c 1 0 1 2 l).isNone) && atomOk 0 8 1 false (fun _ => .loc 1 65528) c z
        && atomFree 0 8 1 false (fun _ => .loc 1 65528) c z) = true ∧
    meets (atBlock 0 every (vreg 1 (fun _ => 8) tRAW) alone)
      { cls := 5, stall := 0, sideEff := true, regsOk := fun _ => (1 : Nat) ≤ 2 && ((1 : Nat) ≤ 1 || evenV 1) && (0 : Nat) ≤ 11 && (2 ≤ (2 : Nat) || (0 : BitVec 6) ≠ 0),
        reads := [.v 1], writes := [] }
      (fun c z => (onLanes c.m fun l => (lockTags z c 2 1 1 0 l).isNone) && atomOk 1 8 1 false (fun _ => .loc 1 8) c z
        && atomFree 1 8 1 true (fun _ => .loc 1 8) c z) = true ∧
    meets (at_ 0 1 (vreg 2 (fun _ => 0x30000) tRAW))
      { cls := 5, stall := 0, sideEff := true, regsOk := fun _ => (2 : Nat) ≤ 2 && ((2 : Nat) ≤ 1 || evenV 2) && (0 : Nat) ≤ 11 && (2 ≤ (4 : Nat) || (0 : BitVec 6) ≠ 0),
        reads := [.v 2, .v 3, .v 5], writes := [] }
      (fun c z => (onLanes c.m fun l => (lockTags z c 4 2 2 5 l).isNone) && atomOk 2 8 2 false (fun _ => .hbm 0x30000) c z
        && atomFree 2 8 2 true (fun _ => .hbm 0x30000) c z) = true := by
  decide +kernel

theorem met_BarrierWordsArrive :
    meets (at_ 0 every id) { cls := 5, stall := 0, sideEff := true, regsOk := fun _ => (7 : Nat) < 8 } (fun c z => !(z.held c.y (arrivalAcc 0))) = true ∧
    meets (atBlock 0 every id alone) { cls := 5, stall := 0, sideEff := true }
      (fun c z => c.x.unit = some 5 && !(z.held c.y (arrivalAcc 1)) && !(z.peerEnded c.x)) = true := by
  decide +kernel

/-- The object of a TRYW of kind `kind` at S2 and S3, whether its access is free, and whether its condition holds. -/
def trywOk (kind : Nat) (holds : Bool) (c : Ctx) (z : State) : Bool :=
  match tryObj z c kind (c.y.getS2 2) with
  | .ok (ob, acc) => !(z.held c.y acc) && (z.tryTrap c.x ob).isNone && z.tryHolds c.x c.y ob = holds
  | .error _ => false

/-- The word of that TRYW cannot be read. -/
def trywFails (kind : Nat) (c : Ctx) (z : State) : Bool :=
  match tryObj z c kind (c.y.getS2 2) with
  | .ok (ob, acc) => !(z.held c.y acc) && (z.tryTrap c.x ob).isSome
  | .error _ => false

theorem met_TryAndMaskWaitsAnswerOrWait :
    let info : Info := { cls := 5, stall := 0, regsOk := fun _ => !(2 : BitVec 5).getLsbD 0 && 1 ≤ (11 : Nat) && (11 : Nat) ≤ 11 && (3 : Nat) ≤ 3,
                         reads := [.s 2, .s 3, .s 4], writes := [.k 11] }
    -- D5 is zero; a lock word that is free, and one in a bad line; a gill without a push
    meets (at_ 0 every (sreg 2 5)) info (trywOk 0 true) = true ∧
    meets (at_ 0 every (sreg 3 0x7F000000)) info (trywOk 2 true) = true ∧
    meets { at_ 0 every (sreg 2 0x40000) with faults := [(.hbm 0x40000, Cause.eccUncorr)] } info (trywFails 2) = true ∧
    meets (at_ 0 every (sreg 2 32)) info (trywOk 3 false) = true ∧
    meets (at_ 0 every id) { cls := 5, stall := 0, sideEff := true, regsOk := fun _ => joinReg 11, reads := [.k 11] } (fun _ _ => true) = true ∧
    meets (at_ 0 every id) { cls := 5, stall := 0, regsOk := fun _ => (11 : Nat) < 12, reads := [.k 11] } (fun _ _ => true) = true := by
  decide +kernel

/-! ### Hypotheses that are met: tags, barriers, standing loads, copies and the matrix engine -/

/-- Fields (offset, bytes, value) written into a memory at `a`, and into the block's local memory. -/
def fields (a : Nat) (fs : List (Nat × Nat × Nat)) (m : Memory) : Memory := fs.foldl (fun m f => m.write (a + f.1) (natLe f.2.1 f.2.2)) m
def put (a : Nat) (fs : List (Nat × Nat × Nat)) (x : Block) : Block := { x with mem := fields a fs x.mem }

theorem met_TagWordsTestAndReadTags :
    let info : Info := { cls := 3, stall := 0, regsOk := fun _ => sEven 2 && (0 : BitVec 5) = 0 && (0 : BitVec 5) = 0 && (0 : BitVec 5) = 0,
                         reads := [.s 2, .s 3] }
    let mask : Ctx → DWord := fun c => c.y.getS 3 ++ c.y.getS 2
    let tagsOk : Ctx → Bool := fun c => (List.range 64).all fun n => !(mask c).getLsbD n || n < c.x.lrec.tags
    let done : Block → Block := fun x => { x with tags := x.tags.set 63 { busy := false, done := true, status := 0, detail := 0, cause := none } }
    -- tag 63 of 64: WTANY met and not met, WTALL met by the empty mask and not met
    meets (atBlock 0 every (sreg 3 0x80000000) done) info (fun c z => tagsOk c && mask c ≠ 0 && !(z.held c.y waitAcc)
      && (List.range 64).any (fun n => (mask c).getLsbD n && (c.x.tag n).done)
      && (List.range 64).all fun n => !(mask c).getLsbD n || !(c.x.tag n).done || (c.x.tag n).cause = none) = true ∧
    meets (atBlock 0 every (sreg 3 0x80000000) id) info (fun c z => tagsOk c && mask c ≠ 0 && !(z.held c.y waitAcc)
      && (List.range 64).all fun n => !(mask c).getLsbD n || !(c.x.tag n).done) = true ∧
    meets (atBlock 0 every id id) info (fun c z => tagsOk c && !(z.held c.y waitAcc) && mask c = 0) = true ∧
    -- tags 62 and 63 done, each with a deferred cause
    meets (atBlock 0 every (sreg 3 0xC0000000) fun x => { x with tags := (x.tags.take 62) ++ [62, 63].map fun n =>
        { busy := false, done := true, status := 9, detail := 0, cause := some (Cause.tbUnderflow, BitVec.ofNat 64 n) } }) info
      (fun c z => tagsOk c && !(z.held c.y waitAcc) && (mask c).getLsbD 62 && (c.x.tag 62).done && (c.x.tag 62).cause = some (Cause.tbUnderflow, 62)
        && (List.range 62).all fun j => !(mask c).getLsbD j) = true ∧
    -- a mask bit beyond TAGS, and the empty mask
    meets (atBlock 0 every (sreg 3 0x80000000) fun x => { x with lrec := { x.lrec with tags := 63 } }) info
      (fun c _ => (mask c).getLsbD 63 && c.x.lrec.tags ≤ 63) = true ∧
    meets (atBlock 0 every (sreg 3 0x80000000) fun x => { x with lrec := { x.lrec with tags := 63 } })
      { cls := 3, stall := 0, regsOk := fun _ => sEven 2 && (0 : BitVec 5) = 0 && (0 : BitVec 5) = 0, reads := [.s 2, .s 3], writes := [.s 4] }
      (fun c _ => (mask c).getLsbD 63 && c.x.lrec.tags ≤ 63) = true ∧
    meets (atBlock 0 every (sreg 1 64) id)
      { cls := 3, stall := 0, regsOk := fun _ => sEven 2 && (0 : BitVec 5) = 0 && (0 : BitVec 5) = 0, reads := [.s 1], writes := [.s 2, .s 3] }
      (fun c _ => c.x.lrec.tags ≤ (c.y.getS 1).toNat) = true ∧
    meets (atBlock 0 every (sreg 2 1) id) info (fun c z => tagsOk c && !(z.held c.y waitAcc)
      && (List.range 64).any fun n => (mask c).getLsbD n && !(c.x.tag n).done) = true ∧
    meets (atBlock 0 every (sreg 3 0x80000000) id)
      { cls := 3, stall := 0, regsOk := fun _ => sEven 2 && (0 : BitVec 5) = 0 && (0 : BitVec 5) = 0, reads := [.s 2, .s 3], writes := [.s 4] }
      (fun c _ => tagsOk c) = true ∧
    meets (atBlock 0 every (sreg 1 63) id)
      { cls := 3, stall := 0, regsOk := fun _ => sEven 2 && (0 : BitVec 5) = 0 && (0 : BitVec 5) = 0, reads := [.s 1], writes := [.s 2, .s 3] }
      (fun c _ => (c.y.getS 1).toNat < 64 && (c.y.getS 1).toNat < c.x.lrec.tags) = true := by
  decide +kernel

theorem met_TransactionBarrierWordsChangeOrTestTheBarrier :
    let info : Info := { cls := 5, stall := 0, sideEff := true, reads := [.s 1, .s 2] }
    let phase2 : Block → Block := put 65520 [(0, 16, 2)]
    let wait : Option Nat → Info := fun kd =>
      { cls := 5, stall := 0, regsOk := fun _ => (match kd with | some k => 1 ≤ k && k ≤ 11 | none => true),
        reads := [.s 1, .s 2] ++ (match kd with | some _ => [.s 3] | none => []), writes := match kd with | some k => [.k k] | none => [] }
    let waitOk : Ctx → State → Bool := fun c z => (tbCheck c.x (c.y.getS 1)).isNone && !(c.x.tb (c.y.getS 1).toNat).underflow
      && !(z.held c.y { waitAcc with ranges := [(uaOf 0 (c.y.getS 1).toNat, 16)] })
    -- TBINIT at the last offset with the greatest count
    meets (at_ 0 every fun y => sreg 1 65520 (sreg 2 1048575 y)) info (fun c z => (tbCheck c.x (c.y.getS 1)).isNone
      && 1 ≤ (c.y.getS 2).toNat && (c.y.getS 2).toNat ≤ 1048575
      && !(z.held c.y { arrivalAcc 0 with ranges := [(uaOf 0 (c.y.getS 1).toNat, 16)] })) = true ∧
    -- TBARV here, and at a member that allows it
    meets (at_ 0 every fun y => sreg 1 65520 (sreg 2 0x7FFFFFFF y)) info (fun c z => (0 : BitVec 1) ≠ 1#1 && (tbCheck c.x (c.y.getS 1)).isNone
      && (c.y.getS 2).toNat < 2 ^ 31 && !(z.held c.y { arrivalAcc 0 with ranges := [(uaOf 0 (c.y.getS 1).toNat, 16)] })) = true ∧
    meets (atBlock 0 every (sreg 1 16) fun x => alone (x.setTb 16 { Tb.of 0 with remote := true })) info (fun c z =>
      (tbWinCheck c.x (c.y.getS 1)).isNone && (c.y.getS 2).toNat < 2 ^ 31 && c.x.unit.isSome && (c.y.getS 1).toNat < 2 ^ 21
      && !(z.held c.y { arrivalAcc 1 with ranges := [(uaOf 1 (c.y.getS 1).toNat, 16)] })
      && (match z.memberOf c.x ((c.y.getS 1).toNat / 2 ^ 19 % 4) with | some y => (y.tb ((c.y.getS 1).toNat % 2 ^ 19)).remote | none => false)) = true ∧
    -- TBWAIT of a passed phase and of the present one; TBTRY with K11
    meets (atBlock 0 every (sreg 1 65520) phase2) (wait none) (fun c z => waitOk c z
      && (c.x.tb (c.y.getS 1).toNat).phase ≠ (c.y.getS 2).extractLsb' 0 4 && (c.x.barCause (c.y.getS 1).toNat).isNone) = true ∧
    meets (atBlock 0 every (fun y => sreg 1 65520 (sreg 2 2 y)) phase2) (wait (some 11)) (fun c z => waitOk c z
      && (c.x.tb (c.y.getS 1).toNat).phase = (c.y.getS 2).extractLsb' 0 4) = true ∧
    meets (at_ 0 every (sreg 1 65520)) { cls := 5, stall := 0, varLat := true, reads := [.s 1], writes := [.v 62, .v 63] }
      (fun c z => (tbCheck c.x (c.y.getS 1)).isNone && !(z.held c.y (accOf .load 0 false
        [mkAcc c.y ((lowest c.m).getD 0) (.loc c.b (65520 + 8)) (uaOf 0 (65520 + 8)) 8 false [] []]))) = true := by
  decide +kernel

/-- A subscription of block 1 with the gill or ring at offset 0. -/
def theSub : Sub :=
  { id := 3, who := .gill 1 0, ctx := 0, die := 0, word := .hbm 0x40000, size := 4, key := 0, every := true, r := 0, state := .live, credits := 0, due := 0,
    held := none, pend := [], count := 0, slot := none }

theorem met_StandingLoadWordsStart :
    -- SLD: a ring of r = 4 at the end of local memory; a gill with NEXT
    ((([(0x13, 65264), (0, 0)] : List (Word × Nat)).all fun p =>
      meets (at_ 0 every fun y => sreg 2 0x40000 (sreg 4 (BitVec.ofNat 32 p.2) (sreg 5 p.1 (sreg 6 63 y))))
        { cls := 3, stall := 0, sideEff := true, regsOk := fun _ => sPair 2, reads := [.s 2, .s 3, .s 4, .s 5, .s 6] }
        (fun c z =>
          let every_ : Bool := (c.y.getS 5).getLsbD 1
          let r := (c.y.getS 5).toNat / 4 % 8
          let size := if (c.y.getS 5).getLsbD 0 then 8 else 4
          let n := if every_ then 16 * (2 ^ r + 1) else 16
          (sldCheck z c.x (c.y.getS2 2) (c.y.getS 4) (c.y.getS 5) (c.y.getS 6)).isNone && !(c.y.localBusy c.b p.2 n)
            && z.directory c.x.die c.x.core < 512
            && (((z.putLocal c.b p.2 (List.replicate n 0)).modBlock c.b fun x =>
              { x with oldGills := x.oldGills.filter fun g => !overlap g.base g.size p.2 n }).openOp c (.sld (c.y.getS2 2) size every_ r p.2) (c.y.getS 6) true
              [(c.y.getS2 2, size)] [] 0).isSome)) = true) ∧
    -- SLWAIT on a gill at the last offset, its condition met and not met
    ([true, false].all fun met =>
      meets (atBlock 0 every (sreg 1 65520) (if met then put 65520 [(8, 4, 1), (12, 1, 1)] else id))
        { cls := 3, stall := 0, regsOk := fun _ => 1 ≤ (11 : Nat) && (11 : Nat) ≤ 11, reads := [.s 1, .s 2, .s 3], writes := [.k 11] }
        (fun c z => (watchCheck z c.x (c.y.getS 1)).isNone && !(c.y.localBusy c.b 65520 16)
          && !(z.held c.y { cls := .load, point := 0, ranges := [(uaOf 0 65520, 16)] })
          && c.x.slHolds 65520 ((c.y.getS 1).getLsbD 31) (c.y.getS 2) = met)) = true ∧
    -- SLACK without a subscription, and of every delivery of a ring; USUB
    meets (at_ 0 every (sreg 2 16)) { cls := 3, stall := 0, sideEff := true, reads := [.s 1, .s 2] }
      (fun c z => 1 ≤ (c.y.getS 2).toNat && (c.y.getS 2).toNat ≤ 16 && (z.openSld c.b 0).isNone && (z.openSub c.b 0).isNone) = true ∧
    meets { atBlock 0 every (sreg 2 1) (put 16 [(0, 4, 1)]) with subs := [theSub] } { cls := 3, stall := 0, sideEff := true, reads := [.s 1, .s 2] }
      (fun c z => 1 ≤ (c.y.getS 2).toNat && (c.y.getS 2).toNat ≤ 16 && (z.openSld c.b 0).isNone && z.openSub c.b 0 = some theSub && theSub.every
        && (c.y.getS 2).toNat ≤ (BitVec.ofNat 32 (leNat (c.x.mem.read 16 4)) - BitVec.ofNat 32 (leNat (c.x.mem.read 20 4)) : Word).toNat) = true ∧
    meets (at_ 0 every (sreg 2 63)) { cls := 3, stall := 0, sideEff := true, reads := [.s 1, .s 2] }
      (fun c z => (z.complCheck c.x (c.y.getS 2) true).isNone) = true := by
  decide +kernel

theorem met_StartingAnOperationPinsMarksAndJoins :
    meets (at_ 0 every id) { cls := 0, stall := 0 } (fun c z => [true, false].all fun pin =>
      (z.openOp c (.cpy 0 0 16 0) 63 pin [(0x40000, 16)] [(0x50000, 16)] 2).isSome && (z.block? c.x.id).isSome && 63 < c.x.tags.length) = true := by
  decide +kernel

/-- A copy may start: no fence, its units left, a pin free. -/
def copyStarts (c : Ctx) (z : State) (kind : OpKind) (compl : Word) (units : Nat) (rd wr : List (DWord × Nat)) (point : Nat) : Bool :=
  kind.count ≠ 0 && !(z.held c.y { cls := .copy, point := point, ranges := wr, writes := true }) && (z.shortfall c.x.entry 2 units).isNone
    && (z.openOp c kind compl true rd wr point).isSome

theorem met_CopyWordsStartTheirOperation_CPY :
    -- CPY from main memory to local memory, and in MX mode within main memory
    meets (at_ 0 every fun y => sreg 3 0x7F000000 (sreg 4 0x40000 (sreg 6 65536 (sreg 7 63 y)))) (copyInfo 0 [2, 4] [6, 7] true)
      (fun c z =>
        let d := c.y.getS2 2
        let a := c.y.getS2 4
        let point := max (z.pointOf c.x d 65536) (z.pointOf c.x a 65536)
        (formCheck d).isNone && (formCheck a).isNone && d.toNat % 16 = 0 && a.toNat % 16 = 0 && (c.y.getS 6).toNat = 65536
          && (z.rangeCheck c.x d 65536).isNone && (z.rangeCheck c.x a 65536).isNone && (z.complCheck c.x (c.y.getS 7) false).isNone
          && copyStarts c z (.cpy d a 65536 0) (c.y.getS 7) 256 [(a, 65536)] [(d, 65536)] point) = true ∧
    meets (at_ 0 every fun y => sreg 2 0x50001 (sreg 4 0x40001 (sreg 6 (0x02000000 + 66) y))) (copyInfo 0 [2, 4] [6, 7] true)
      (fun c z =>
        let d := c.y.getS2 2
        let a := c.y.getS2 4
        let w := (c.y.getS 6).toNat
        let point := max (z.pointOf c.x d 66) (z.pointOf c.x a 66)
        w / 2 ^ 25 % 2 = 1 && w % 2 ^ 25 = 66 && 66 % (efmtBytes (w / 2 ^ 26 % 4) + 1) = 0 && w < 2 ^ 28 && w / 2 ^ 26 % 4 ≠ 3
          && (formCheck d).isNone && (formCheck a).isNone
          && (z.rangeCheck c.x d 66).isNone && (z.rangeCheck c.x a 66).isNone && (z.complCheck c.x (c.y.getS 7) false).isNone
          && copyStarts c z (.cpy d a 66 33) (c.y.getS 7) 1 [(a, 66)] [(d, 66)] point) = true := by
  decide +kernel

theorem met_CopyWordsStartTheirOperation_descriptors :
    meets (atBlock 0 every id (put 0 [(0, 8, 0x40000), (8, 8, 0x50000), (16, 4, 16), (20, 4, 1), (24, 4, 16), (28, 4, 16)]))
      (copyInfo 0 [] [1, 2] true)
      (fun c z =>
        let d := c.x.mem.read 0 64
        (descCheck c.x (c.y.getS 1)).isNone && !(c.y.localBusy c.b 0 64) && (c2Check z c.x 0 d).isNone && (z.complCheck c.x (c.y.getS 2) false).isNone
          && copyStarts c z (.cpy2d d) (c.y.getS 2) (((OpKind.cpy2d d).total + 255) / 256) (c2Ranges d false) (c2Ranges d true)
            (((c2Ranges d false ++ c2Ranges d true).map fun r => z.pointOf c.x r.1 r.2).foldl max 0)) = true ∧
    meets (atBlock 0 every id (put 0 [(0, 8, 0x40000), (8, 8, 0x50000), (24, 4, 0x00100001), (28, 4, 65532)]))
      (copyInfo 0 [] [1, 2] true)
      (fun c z =>
        let d := c.x.mem.read 0 64
        (descCheck c.x (c.y.getS 1)).isNone && !(c.y.localBusy c.b 0 64) && (kvlCheck c.x 0 d).isNone && (z.complCheck c.x (c.y.getS 2) false).isNone
          && copyStarts c z (.kvl 0x40000 0x50000 0 0 1 16 65532 0 [] false) (c.y.getS 2) 1 [(0x50000, 16 * 2 ^ 16)] [(uaOf 0 65532, 4)]
            (max (z.pointOf c.x 0x40000 16) (z.pointOf c.x 0x50000 (16 * 2 ^ 16)))) = true ∧
    meets { atBlock 0 every id (put 0 [(8, 8, 0x40000), (16, 8, 0x50000), (24, 4, 4)]) with
        entries := [{ loadEntry 0 with group := some { n := 1, fanout := 1, ident := 0, rank := 0, sbase := 0, scount := 1, routes := [] } }] }
      (copyInfo 0 [] [1, 2] true)
      (fun c z =>
        let d := c.x.mem.read 0 64
        match z.groupOf c.x with
        | some gp =>
          let bytes := dfield d 0x18 4 * 4
          let nsrc := collSrc 0 bytes gp.n
          let ndst := collDst 0 bytes gp.n
          let point := max (z.pointOf c.x 0x40000 nsrc) (z.pointOf c.x 0x50000 ndst)
          (descCheck c.x (c.y.getS 1)).isNone && !(c.y.localBusy c.b 0 64) && (collCheck z d gp.n).isNone && (z.complCheck c.x (c.y.getS 2) true).isNone
            && (z.shortfall c.x.entry 2 ((collSent gp.n z.fresh + 255) / 256)).isNone
            && (z.openOp c (.coll 0 0 0 0 0x40000 0x50000 4 gp.n gp.rank (z.collNumber c.x.entry) (c.pc.setWidth 64)) (c.y.getS 2) true [(0x40000, nsrc)] [(0x50000, ndst)] point).isSome
        | none => false) = true := by
  decide +kernel

theorem met_CopyWordsStartTheirOperation_lists :
    -- GTH and SCT of 2 elements of 16 bytes; CPYT with a destination and as a prefetch
    meets (at_ 0 every fun y => sreg 2 0x40000 (sreg 4 65520 (sreg 5 0x00010002 y))) (copyInfo 0 [2] [4, 5, 6] true)
      (fun c z =>
        let a := c.y.getS2 2
        (formCheck a).isNone && a.toNat % 16 = 0 && (c.y.getS 4).toNat = 65520 && (c.y.getS 5).toNat = 0x10002 && (z.rangeCheck c.x a 32).isNone
          && 65520 + 8 * 2 ≤ c.x.lrec.localB && (z.complCheck c.x (c.y.getS 6) false).isNone
          && copyStarts c z (.gth a 65520 2 16) (c.y.getS 6) 1 [(uaOf 0 65520, 16)] [(a, 32)] (z.pointOf c.x a 32)
          && copyStarts c z (.sct a 65520 2 16) (c.y.getS 6) 1 [(a, 32), (uaOf 0 65520, 16)] [] (z.pointOf c.x a 32)) = true ∧
    ([true, false].all fun pre =>
      meets (at_ 0 every fun y => sreg 2 0x50000 (sreg 4 0x40000 (sreg 6 32 y))) (copyInfo 0 (if pre then [4] else [2, 4]) [6, 7] true)
        (fun c z =>
          let d := c.y.getS2 2
          let a := c.y.getS2 4
          (mainCheck d).isNone && (mainCheck a).isNone && a.toNat % 16 = 0 && d.toNat % 16 = 0 && (c.y.getS 6).toNat = 32
            && (z.complCheck c.x (c.y.getS 7) false).isNone
            && copyStarts c z (.cpyt (if pre then none else some d) a 32) (c.y.getS 7) 1 [(a, 32)] (if pre then [] else [(d, 32)])
              (if pre then z.pointOf c.x a 32 else max (z.pointOf c.x d 32) (z.pointOf c.x a 32)))) = true := by
  decide +kernel

/-- Every KiB of every core is in no swizzle. -/
def unswizzled (z : State) : Bool := z.swz.isEmpty

theorem unswizzled_spec {z : State} (h : unswizzled z = true) (x : Block) (r : MRange) (hr : r.swz = 0) : z.swzMiss x r = false := by
  have hz : z.swz = [] := by simpa [unswizzled] using h
  simp only [State.swzMiss, List.any_eq_false]
  intro a _
  split
  · split <;> simp [hr, State.swzAt, hz, assocGet]
  · simp

/-- Marking a tag takes no pin. -/
theorem markTag_pins (z : State) (x : Block) (w : Word) (n : Nat) : ((z.markTag x w).root n).pins = (z.root n).pins := by
  unfold State.markTag State.modBlock; split <;> [rfl; split <;> rfl]

/-- The engine may take an operation: no fence, its operands in the swizzle it expects (none, see `unswizzled_spec`), its units left, and room
for its pin (see `markTag_pins`). -/
def engineTakes (c : Ctx) (z : State) (k : MatKind) (units point : Nat) : Bool :=
  (z.pin c.x.rootSlot).isSome &&
  !(z.held c.y { cls := .copy, point := point, ranges := k.writes, writes := !k.writes.isEmpty })
    && unswizzled z && k.reads.all (fun r => r.swz = 0) && (z.shortfall c.x.entry 1 units).isNone

/-- Tile 7, the format, K of one group, 64 rows, A at 1024 with a pitch of 64, B at 8192 with a pitch of 32, and CONS. -/
def tileDesc (fmt c0 c1 : Byte) : List Byte :=
  [7, fmt, 0, 0, 1, 0, 64, 0, 0, 4, 0, 0, 64, 0, 0, 0, 0, 32, 0, 0, 32, 0, 0, 0, 0, 0, 0, 0, 0, 0, 0, 0, c0, c1, c1, c1, 0, 0, 0, 0, 0, 0, 0, 0,
   0, 0, 0, 0, 0, 0, 0, 0, 0, 0, 0, 0, 0, 0, 0, 0, 0, 0, 0, 0]

/-- Output tile 1, sums in tile 0, BF16, one token at 1024 with a pitch of 128, the output at 2048, and CONS. -/
def attDesc (c0 c1 : Byte) : List Byte :=
  [1, 0, 0, 0, 0, 0, 0, 0, 0, 4, 0, 0, 0, 0, 0, 0, 0, 0, 0, 0, 128, 0, 1, 0, 0, 0, 0, 0, 0, 0, 0, 0, 0, 0, 0, 0, 0, 0, 0, 0, 0, 0, 0, 0,
   0, 8, 0, 0, c0, c1, c1, c1, 0, 0, 0, 0, 0, 0, 0, 0, 0, 0, 0, 0]

theorem met_MatrixWordsAreAccepted :
    (([(0, 2, tileDesc 0 62 0), (1, 2, tileDesc 0 62 0), (2, 1, tileDesc 10 62 0), (3, 16, tileDesc 10 62 0), (4, 16, tileDesc 0 255 255),
        (5, 4, tileDesc 0 62 0)] : List (Nat × Nat × List Byte)).all fun (sub, units, d) =>
      meets (atBlock 0 every (sreg 2 63) fun x => { alone x with mem := x.mem.write 0 d }) (matInfo 0 [1, 2])
        (fun c z => c.x.mem.read 0 64 = d
          && (descCheck c.x (c.y.getS 1)).isNone && !(c.y.localBusy c.b 0 64) && !(tileBad sub d) && tZd d < c.x.lrec.ztiles
          && (MatKind.tile sub d).reads.all (fun r => (z.mrangeCheck c.x r.a r.n).isNone)
          && (MatKind.tile sub d).writes.all (fun r => (z.mrangeCheck c.x r.1 r.2).isNone) && (tileTags sub d (c.x.tile (tZd d))).isNone
          && (z.matCompl c.x (c.y.getS 2) (consOf (dfield d 0x20 4)) (sub ≠ 4)).isNone
          && engineTakes c z (.tile sub d) units (if sub = 1 then 1 else 0))) = true ∧
    (([(false, attDesc 62 0), (true, attDesc 255 255)] : List (Bool × List Byte)).all fun (fin, d) =>
      let k : MatKind := if fin then .attfin d else .att d
      meets (atBlock 0 every (sreg 2 63) fun x => { x with mem := x.mem.write 0 d }) (matInfo 0 [1, 2])
        (fun c z => c.x.mem.read 0 64 = d
          && (descCheck c.x (c.y.getS 1)).isNone && !(c.y.localBusy c.b 0 64) && !(attBad fin d)
          && k.tiles.all (fun n => n < c.x.lrec.ztiles && !(c.x.tile n).isInt) && k.reads.all (fun r => (z.mrangeCheck c.x r.a r.n).isNone)
          && k.writes.all (fun r => (z.mrangeCheck c.x r.1 r.2).isNone)
          && (z.matCompl c.x (c.y.getS 2) (consOf (dfield d 0x30 4)) (!fin)).isNone
          && engineTakes c z k (if fin then aDim d / 8 else aDim d / 4 + 8) 0)) = true ∧
    meets (at_ 0 every fun y => sreg 1 7 (sreg 2 65024 y)) (matInfo 0 [1, 2, 3])
      (fun c z => (c.y.getS 1).toNat < 32 && (c.y.getS 1).toNat < c.x.lrec.ztiles && (c.y.getS 2).toNat % 8 = 0
        && (c.y.getS 2).toNat + 512 ≤ c.x.lrec.localB && (z.complCheck c.x (c.y.getS 3) false).isNone
        && engineTakes c z (.sigmk 7 65024) 4 0) = true := by
  decide +kernel

/-- The gang's A operand: V8 to V15, tagged BF16x2. -/
def aRegs (y : Gang) : Gang := (List.range 8).foldl (fun z i => vreg (8 + i) (fun _ => 0x3F803F80) tBF16X2 z) y

theorem met_ConvergenceWordsSignAndIssue :
    -- CVSET of the one gang 0; CVCLR; SIGF with the greatest radius
    meets (at_ 0 every id) { cls := 1, stall := 0, sideEff := true, regsOk := fun x => 3 < x.lrec.gregs, reads := [.s 1] }
      (fun c _ => (c.y.getS 1).toNat = 0 && 0 < c.x.lrec.gangs && (c.x.cvReg 3).fixed = none) = true ∧
    meets (at_ 0 every id) { cls := 1, stall := 0, sideEff := true, regsOk := fun x => 3 < x.lrec.gregs } (fun _ _ => true) = true ∧
    meets (at_ 0 every fun y => sreg 6 65024 (sreg 7 64 y))
      { cls := 1, stall := 0, regsOk := fun _ => sPair 2 && sPair 4, reads := [.s 4, .s 5, .s 6, .s 7], writes := [.s 2, .s 3] }
      (fun c z => (c.y.getS 6).toNat % 8 = 0 && (c.y.getS 6).toNat + 512 ≤ c.x.lrec.localB && (c.y.getS 7).toNat ≤ 64
        && !(c.y.localBusy c.b 65024 512) && !(z.held c.y { cls := .load, point := 0, ranges := [(uaOf 0 65024, 512)] })) = true ∧
    -- MMA of the only gang, whose signature fills the register
    (let o : MmaF := ⟨0, 7, 3, 8, 0, 2, 0⟩
     let s := atBlock 0 every aRegs fun x => { x with cv := x.cv.set 3 { set := [0], signed := [], rows := [], fixed := none, latch := none } }
     meets s (mmaInfo o s) (fun c z =>
       let v := c.x.cvReg 3
       let v1 : CvReg := { v with signed := [(0, every)], rows := (lanesOf every).map fun l => (v.rowOf c.g l, c.y.rowBytes 8 l false),
                                  fixed := some (z.focusWord.setWidth 32 &&& 0x3FF87F07, 0, tBF16X2.toNat) }
       v.set.contains c.g && (onLanes c.m fun l => (mmaLane c 8 o.bfmt.toNat 7 l).isNone && (c.y.getT 8).toArray.getD l 0 = tBF16X2)
         && (mmaOperand z c false (c.y.getS o.sb.toNat) 8 0 (bfmtCode o.bfmt.toNat 0)).isNone && v.fixed = none && v1.full c.x
         && (z.shortfall c.x.entry 1 2).isNone && !(z.held c.y { cls := .copy, point := 0 })) = true) := by
  decide +kernel

/-! ### Hypotheses that are met: control, traps, CSRs and system words -/

theorem met_BranchesAndCallsMoveTheirLanes_direct :
    -- BRA.U and CALL.U on K3 that holds no lane, BRA on K0 inverted, BRA of all lanes
    meets (at_ 0 every id) { cls := 4, stall := 0, transfer := true, reads := if (3 : Nat) < 12 then [.k 3] else [] }
      (fun c _ => (maskOf fun l => c.m.getLsbD l && ((3 : Nat) = 12 || ((c.y.getK 3).getLsbD l != false))) = 0
        && onLanes 0 (fun l => (c.y.pushOverflow c.x l).isNone) && !(c.spillBusy 0 false)) = true ∧
    meets (at_ 0 every id) { cls := 4, stall := 0, transfer := true, reads := if (12 : Nat) < 12 then [.k 12] else [] }
      (fun c _ => (maskOf fun l => c.m.getLsbD l && ((12 : Nat) = 12 || ((c.y.getK 12).getLsbD l != false))) = c.m
        && onLanes c.m (fun l => (c.y.pushOverflow c.x l).isNone) && !(c.spillBusy c.m false)) = true ∧
    -- CALL where a lane's fifth entry goes to the stack region
    meets (at_ 0 1 fun y => { y.mapLanes 1 (fun _ l => { l with dep := 4, stack := [8, 8, 8, 8] }) with cspl := 1024 })
      { cls := 4, stall := 0, transfer := true, reads := if (1 : Nat) < 12 then [.k 1] else [] }
      (fun c _ => onLanes c.m (fun l => (c.y.pushOverflow c.x l).isNone) && !(c.spillBusy c.m false)) = true ∧
    -- BRA.U of an address program, on K12 and on K1 inverted
    programMeets program (fun a => a.clause.isSome) = true := by
  decide +kernel

theorem met_BranchesAndCallsMoveTheirLanes_indirect :
    let pair : Gang → Gang := fun y => vreg 62 (fun _ => 0xFFFFFFFC) tI64LO (vreg 63 (fun _ => 0xFFFF) tI64HI y)
    meets (at_ 0 every pair) { cls := 4, stall := 0, transfer := true, regsOk := fun _ => evenV 62, reads := pkReads 0 ++ [.v 62, .v 63] }
      (fun c _ => (onLanes (c.active 0) fun l => (pairChk c 62 0 false l).isNone && (c.pair 62 l).toNat < 2 ^ 48 && (c.pair 62 l).toNat % 4 = 0)
        && onLanes (c.active 0) (fun l => (c.y.pushOverflow c.x l).isNone) && !(c.spillBusy (c.active 0) false)) = true ∧
    -- RET of one entry, and of five, the fifth in the stack region
    meets (at_ 0 every fun y => y.mapLanes every fun _ l => { l with dep := 1, stack := [0x20008] })
      { cls := 4, stall := 0, transfer := true, reads := pkReads 0 }
      (fun c _ => (onLanes (c.active 0) fun l => (c.y.lane l).dep ≠ 0 && ((c.y.lane l).stack.headD 0).toNat < 2 ^ 48
        && ((c.y.lane l).stack.headD 0).toNat % 4 = 0) && !(c.spillBusy (c.active 0) true)) = true ∧
    meets (at_ 0 1 fun y => y.mapLanes 1 fun _ l => { l with dep := 5, stack := [0xFFFFFFFFFFFC, 8, 8, 8] })
      { cls := 4, stall := 0, transfer := true, reads := pkReads 1 }
      (fun c _ => (onLanes (c.active 1) fun l => (c.y.lane l).dep ≠ 0 && ((c.y.lane l).stack.headD 0).toNat < 2 ^ 48
        && ((c.y.lane l).stack.headD 0).toNat % 4 = 0) && !(c.spillBusy (c.active 1) true)) = true := by
  decide +kernel

theorem met_ControlWordsComplete :
    meets (at_ 0 every id) { cls := 4, stall := 0, transfer := true } (fun _ _ => true) = true ∧
    meets (at_ 0 every id) { cls := 4, stall := 0 } (fun _ _ => true) = true ∧
    meets (at_ 0 every id) { cls := 4, stall := 0, writes := [.s 31] } (fun _ _ => true) = true ∧
    meets (at_ 0 every id) { cls := 4, stall := 0, regsOk := fun _ => sPair 30 && (3 : Nat) ≤ 3, writes := [.s 30, .s 31] } (fun _ _ => true) = true := by
  decide +kernel

theorem met_TrapWordsTakeTheirTrap : meets (at_ 0 1 id) { cls := 4, stall := 0 } (fun _ _ => true) = true := by
  decide +kernel

/-- The gang's lanes of `m` are in the user handler. -/
def handled (m : Word) (y : Gang) : Gang :=
  { y with handler := some { lanes := m, saved := (lanesOf m).map fun l => (l, y.lane l), tr := y.trap } }

theorem met_ReturnsLeaveTheUserHandler :
    meets (at_ 0 every (handled every)) { cls := 4, stall := 0, transfer := true }
      (fun c _ => match c.y.handler with | some h => onLanes c.m fun l => h.lanes.getLsbD l | none => false) = true ∧
    meets (at_ 0 1 (handled 2)) { cls := 4, stall := 0, transfer := true }
      (fun c _ => match c.y.handler with | some h => c.m.getLsbD 0 && !h.lanes.getLsbD 0 | none => true) = true ∧
    meets (at_ 0 1 id) { cls := 4, stall := 0, transfer := true } (fun c _ => c.y.handler.isNone) = true := by
  decide +kernel

theorem met_CsrWordsReadAndWrite :
    -- CSR 0 in S0; CSR 0x203, of 64 bits, in S30 and S31
    meets (at_ 0 every id)
      { cls := 6, stall := 0, csr := some (0, false), regsOk := fun _ => !csrWide 0 || sPair 0,
        writes := .s 0 :: if csrWide 0 then [.s 1] else [] } (fun _ _ => true) = true ∧
    meets (at_ 0 every id)
      { cls := 6, stall := 0, csr := some (0x203, false), regsOk := fun _ => !csrWide 0x203 || sPair 30,
        writes := .s 30 :: if csrWide 0x203 then [.s 31] else [] } (fun _ _ => true) = true ∧
    meets (at_ 0 every id)
      { cls := 6, stall := 0, csr := some (0, true), regsOk := fun _ => !csrWide 0 || sPair 0,
        reads := .s 0 :: if csrWide 0 then [.s 1] else [] } (fun _ _ => true) = true ∧
    meets (at_ 0 every id)
      { cls := 6, stall := 0, csr := some (0x200, true), regsOk := fun _ => !csrWide 0x200 || sPair 2,
        reads := .s 2 :: if csrWide 0x200 then [.s 3] else [] } (fun _ _ => true) = true := by
  decide +kernel

theorem met_RegistryWordsAnswer :
    meets (at_ 0 every fun y => sreg 1 (0x0FFF03FF) (sreg 3 0x80000000 y)) (sysInfo 0 true [2] [1] [.s 4])
      (fun c z => (c.y.getS 1).toNat / 2 ^ 10 % 64 = 0 && (c.y.getS 1).toNat < 2 ^ 28 && c.y.getS2 2 = 0x8000000000000000 && !(z.unpublished c.y)) = true ∧
    meets (at_ 0 every fun y => sreg 1 (0x0FFF03FF) (sreg 2 0xFFFFF800 (sreg 3 0xFFFFF y))) (sysInfo 0 true [2] [1] [.s 4])
      (fun c z => (c.y.getS 1).toNat / 2 ^ 10 % 64 = 0 && (c.y.getS 1).toNat < 2 ^ 28 && (c.y.getS2 2).toNat % 2 ^ 11 = 0
        && (c.y.getS2 2).toNat < 2 ^ 52 && !(z.unpublished c.y)) = true ∧
    meets (at_ 0 every (sreg 1 1023)) (sysInfo 0 true [2] [1] [.s 4])
      (fun c z => (c.y.getS 1).toNat < 1024 && (c.y.getS2 2).toNat % 2 ^ 11 = 0 && (c.y.getS2 2).toNat < 2 ^ 52 && !(z.unpublished c.y)) = true ∧
    meets (at_ 0 every fun y => sreg 1 1 (sreg 2 0xFFFF0000 (sreg 3 0xFFFFF y))) (sysInfo 0 true [2] [1] [.s 4])
      (fun c _ => (c.y.getS2 2).toNat % 2 ^ 16 = 0 && (c.y.getS2 2).toNat < 2 ^ 52 && (c.y.getS 1).toNat < 2) = true ∧
    meets (at_ 0 every (sreg 1 4095)) (sysInfo 0 true [] [1] [.s 4]) (fun c _ => (c.y.getS 1).toNat < 4096) = true ∧
    meets (at_ 0 every (sreg 1 4095)) { sysInfo 0 false [] [1] [.s 2, .s 3] with regsOk := fun _ => sPair 2 }
      (fun c _ => (c.y.getS 1).toNat < 4096) = true ∧
    meets (at_ 0 every (sreg 1 0x83FF)) { sysInfo 0 false [] [1] [.s 2, .s 3] with regsOk := fun _ => sPair 2 }
      (fun c _ => 2 ^ 15 ≤ (c.y.getS 1).toNat && (c.y.getS 1).toNat < 2 ^ 15 + 1024) = true ∧
    meets (at_ 0 every fun y => sreg 2 0xFFFFF800 (sreg 3 0xFFFFF (sreg 4 63 y))) (sysInfo 0 true [2] [4] [])
      (fun c z => (c.y.getS2 2).toNat % 2 ^ 11 = 0 && (c.y.getS2 2).toNat < 2 ^ 52 && (z.complCheck c.x (c.y.getS 4) true).isNone
        && (z.openOp c (.ndrop (c.y.getS2 2).toNat) (c.y.getS 4) true [] [] 0).isSome) = true := by
  decide +kernel

/-- Every root slot retired, and the space table given. -/
def fullRoots (spaces : List (Nat × SpaceEnt)) : State :=
  { State.reset with
    spaces := spaces
    roots := (List.range 4096).map fun n => (n, { pins := 0, gen := 0, state := 2, space := 0, root := 0 }) }

theorem fullRoots_freeSlot (spaces : List (Nat × SpaceEnt)) : (fullRoots spaces).freeSlot = none := by
  simp only [State.freeSlot, List.find?_eq_none, List.mem_range, decide_eq_true_eq]
  intro n hn
  have h : (List.range 4096).find? (fun i => i = n) = some n := by
    rw [List.find?_range_eq_some]
    exact ⟨by simp, by simpa using hn, fun j hj => by simp; omega⟩
  simp [State.root, fullRoots, List.find?_map, h]

/-- Space 0 with its current root in slot 0. -/
def live0 : SpaceEnt := { sgen := 0, pasid := 0, pasv := false, ctx := 0, key := 0, nullr := false, cur := 0 }

/-- Slot 0 is CURRENT with its greatest generation. -/
def oneRoot : State := { State.reset with
  spaces := [(0, live0)], roots := [(0, { pins := 0, gen := 0xFFF, state := 1, space := 0, root := 0 })] }

theorem met_RootOperationsFollowTheirPseudocode :
    ((State.reset.space 0).nullr = true ∧ State.reset.freeSlot = some 0 ∧ (oneRoot.space 0).nullr = false ∧ (oneRoot.space 0).cur = 0
      ∧ oneRoot.freeSlot = some 1) ∧
    (((fullRoots [(0, live0)]).space 0).nullr = false ∧ ((fullRoots [(0, live0)]).space 0).cur = 0 ∧ ((fullRoots []).space 0).nullr = true) ∧
    (fullRoots [(0, live0)]).freeSlot = none ∧ (fullRoots []).freeSlot = none :=
  ⟨by decide +kernel, by simp [State.space, fullRoots, live0], fullRoots_freeSlot _, fullRoots_freeSlot _⟩

theorem met_RfreeFreesARetiredSlotWithoutPins :
    let s : State := { State.reset with
      roots := [(4095, { pins := 0, gen := 1, state := 2, space := 0, root := 0 }), (0, { pins := 1, gen := 1, state := 2, space := 0, root := 0 })] }
    (s.root 4095).state = 2 ∧ (s.root 4095).pins = 0 ∧ (s.root 0).pins ≠ 0 ∧ (s.root 1).state ≠ 2 := by
  decide +kernel

theorem met_EnqrAsksThenSendsItsRecord :
    let info : Info := { cls := 4, stall := 0, sideEff := true, reads := [.s 1, .s 2, .s 3, .s 4] }
    let regs : Gang → Gang := fun y => sreg 1 0x1FFFF (sreg 2 65520 (sreg 4 63 y))
    let ok : Ctx → Bool := fun c => (c.y.getS 1).toNat < 2 ^ 17 && (c.y.getS 4).toNat < 64 && (c.y.getS 4).toNat < c.x.lrec.tags
      && (c.y.getS 2).toNat % 16 = 0 && !(c.x.tag (c.y.getS 4).toNat).busy
    -- not asked yet; the node open with records of 16 bytes; the node closed
    meets (at_ 0 every regs) info (fun c _ => ok c && c.y.enqr = none) = true ∧
    meets (at_ 0 every fun y => { regs y with enqr := some (0xFFFF, some (true, 16)) }) info
      (fun c z => ok c && c.y.enqr = some ((c.y.getS 1).toNat % 2 ^ 16, some (true, 16)) && 65520 + 16 ≤ c.x.lrec.localB
        && !(c.y.localBusy c.b 65520 16)
        && ((z.modGang c.b c.g fun y => { y with enqr := none }).openOp c (.enqr 0xFFFF true 0 (c.x.mem.read 65520 16)) 63 true [] [] 0).isSome) = true ∧
    meets (at_ 0 every fun y => { regs y with enqr := some (0xFFFF, some (false, 0)) }) info
      (fun c _ => ok c && c.y.enqr = some ((c.y.getS 1).toNat % 2 ^ 16, some (false, 0))) = true := by
  decide +kernel

theorem met_AddressProgramWordsRun :
    meets (at_ 0 every fun y => sreg 2 0xFFFFFFFC (sreg 3 0xFFFF (sreg 4 3 y))) (copyInfo 0 [2] [4, 5] true)
      (fun c z => (mainCheck (c.y.getS2 2)).isNone && (c.y.getS2 2).toNat % 4 = 0 && (c.y.getS 4).toNat < 4 && (z.apq? c.x.die c.x.core 3).isNone
        && (z.complCheck c.x (c.y.getS 5) true).isNone && (z.openOp c (.aprun 3) (c.y.getS 5) true [] [] 0).isSome) = true ∧
    (let s : State := { program with apq := program.apq.map fun p => (p.1, (p.2.setS 2 0x40000).setS 4 128) }
     programMeets s fun a => sEven 2 && (a.getS 4).toNat = 128 && (a.getS 3 ++ a.getS 2).toNat % 16 = 0
       && uform (a.getS 3 ++ a.getS 2) = some .main && a.entries.length < 64 && (s.block? a.b).isSome) = true ∧
    meets { at_ 0 every (sreg 1 0) with apq := program.apq } (copyInfo 0 [] [1] true)
      (fun c z => (z.claimed? c.x ((c.y.getS 1).toNat % 4)).isSome) = true ∧
    -- AQPOP of an entry that has landed, and of none
    (([[{ op := 9, data := List.replicate 128 0, landed := true }], []] : List (List ApEntry)).all fun es =>
      meets { at_ 0 every id with apq := program.apq.map fun p => (p.1, { p.2 with entries := es }) }
        { cls := 2, stall := 0, sideEff := true, varLat := true, regsOk := fun _ => 4 ≤ (14 : Nat) && (14 : Nat) ≤ 14, writes := [.v 3] }
        (fun c z => match z.claimed? c.x 0 with
          | some a => a.pop.isSome = !es.isEmpty && a.ended.isNone
          | none => false)) = true := by
  decide +kernel

/-! ### Hypotheses that are met: device steps -/

/-- The loaded block's gang holds one pending word. -/
def oneAcc (l : Loc) (n : Nat) : LaneAcc :=
  { lane := 31, loc := l, ua := 0, size := n, fwd := [], data := List.replicate n 1, data2 := [], ret := [], performed := false }
noncomputable def pending (k : PendKind) (accs : List LaneAcc) : State :=
  loaded.modGang 1 0 fun y => { y with pends := [{ Pend.blank k with id := 5, mask := 0x80000000, accs := accs, dst := [(3, tags fun _ => tU32)] }] }

/-- Gang 0 of block 1, in a test. -/
noncomputable def gangIs (s : State) (p : Block → Gang → Bool) : Bool :=
  match s.gang? 1 0 with
  | some (x, y) => p x y
  | none => false

/-- The access of lane 31 of word 5 is ready. -/
noncomputable def accReady (s : State) (p : Block → Pend → LaneAcc → Bool) : Bool :=
  gangIs s fun x y => match y.pend? 5 with
    | some q => (match q.accs.find? fun a => a.lane = 31 && !a.performed with | some a => !(y.blocked q a) && p x q a | none => false)
    | none => false

/-- An operation of the block. -/
def theOp (k : OpKind) : Op :=
  { id := 9, kind := k, b := 1, g := 0, seq := 0, compl := 63, slot := some 0, reads := [], landed := [], fault := none, reads_ := [], writes_ := [],
    point := 0, away := false, recN := 0 }
noncomputable def operating (k : OpKind) : State := { loaded with ops := [theOp k] }

/-- Operation 9 and its block, in a test. -/
noncomputable def opIs (s : State) (p : Op → Block → Bool) : Bool :=
  match s.op? 9 with
  | some o => (match s.block? o.b with | some x => p o x | none => false)
  | none => false

/-- The block's engine holds one operation. -/
noncomputable def engine (k : MatKind) (data : Option (List (List Byte))) : State :=
  loaded.modBlock 1 fun x => { x with mops := [{ id := 9, kind := k, before := [], data := data, cons := some 62, charge := 4, away := false, isInt := false }] }

theorem met_AccessesAndOperationsTakeEffectInTurn_words :
    gangIs (pending .load []) (fun _ y => match y.pend? 5 with | some p => p.performed && p.kind ≠ .aqpop | none => false) = true ∧
    gangIs (loaded.modGang 1 0 fun y => { y with
        flights := [{ old := .s 1 0, producer := 0, clock := 0, lat := 2, landed := true, m := 1 }, { old := .s 2 0, producer := 0, clock := 0, lat := 2, landed := false, m := 1 }] })
      (fun _ y => (y.flights.map (·.landed)) = [true, false]) = true ∧
    (let s := pending .store [oneAcc (.loc 1 65532) 4]
     let t := s.modGang 1 0 fun y => { y with pends := y.pends ++ [{ Pend.blank .mxstore with id := 6, mask := 1, accs := [oneAcc (.loc 1 65503) 33] }] }
     accReady t fun _ p a => p.kind = .store && a.data.length = a.size && 3 < a.size && !(a.settled 3) && t.unitAt (a.loc.add 3)
       && !(s.unitAt (a.loc.add 3))
       && (s.mergeFails p a).isNone) = true ∧
    accReady (pending .load [oneAcc (.tun 0 0) 4]) (fun x _ a => ((pending .load [oneAcc (.tun 0 0) 4]).readFails x.devCore true a).isNone) = true ∧
    (([(.atomic, .hbm 0x40000), (.lockop, .loc 1 0)] : List (PendKind × Loc)).all fun (k, l) =>
      let s := pending k [oneAcc l 8]
      accReady s fun x p a => !a.queued && !(s.siteRefuses a.loc) && !a.refused && (s.siteCheck (s.space x.space).key 1 p a).isNone) = true := by
  decide +kernel

theorem met_AccessesAndOperationsTakeEffectInTurn_operations :
    opIs (operating (.cpy 0x7F00000000000000 0x40000 256 0)) (fun o _ => !o.away && o.fault.isNone && 0 < o.kind.count && !o.landed.contains 0
      && o.reads.all fun p => p.1 ≠ 0) = true ∧
    opIs (operating (.cpy 0x7F00000000000000 0x800000000000 16 0)) (fun o x => !o.away && o.fault.isNone &&
      (match (operating (.cpy 0x7F00000000000000 0x800000000000 16 0)).opTrap o x 0 0 with | some t => copyFaultCause t.cause | none => false)
        && !((operating (.cpy 0x7F00000000000000 0x800000000000 16 0)).landing o x fun _ => false)) = true ∧
    -- a plain copy into the bytes of a unit that an MXLD is to read, and into others
    (let s (l : Loc) : State := { pending .mxload [oneAcc l 33] with ops := [theOp (.cpy 0x7F00000000000000 0x7F00000000001000 16 0)] }
     opIs (s (.loc 1 0)) (fun o x => o.reads.isEmpty && (s (.loc 1 0)).sectorSplitsAt o x 0 1 15 && (s (.loc 1 0x1000)).sectorSplitsAt o x 0 0 15
       && !((s (.loc 1 64)).sectorSplitsAt o x 0 1 15))) = true ∧
    opIs (operating (.coll 0 0 0 0 0x40000 0x50000 1 2 0 0 0x20004)) (fun o x => !o.away && o.fault.isNone && !((operating (.coll 0 0 0 0 0x40000 0x50000 1 2 0 0 0x20004)).linkDown o)
      && (match (operating (.coll 0 0 0 0 0x40000 0x50000 1 2 0 0 0x20004)).collLocs o x with | .ok _ => true | .error _ => false)
      && x.gangs.all fun y => !((operating (.coll 0 0 0 0 0x40000 0x50000 1 2 0 0 0x20004)).collBusy o y)) = true ∧
    gangIs (engine (.sigmk 7 65024) none) (fun x _ => match x.matReady 9 (fun q => q.data.isSome) with | some o => o.data.isNone | none => false) = true ∧
    gangIs (engine (.sigmk 7 65024) (some [])) (fun x _ => match x.matReady 9 (fun _ => false) with
      | some o => o.data.isSome && o.kind.writes.all fun r => (List.range r.2).all fun i =>
          !((engine (.sigmk 7 65024) (some [])).leased none (.loc x.id (uoff r.1 + i)))
      | none => false) = true := by
  decide +kernel

/-- Lane 31 of the gang waits with a hint that has run out. -/
noncomputable def waiting (w : Wait) : State := loaded.modGang 1 0 fun y => y.mapLanes 0x80000000 fun _ l => { l with wait := w, hint := some 0 }

theorem met_HintsExpireAndTimersAct :
    (([.tryw (.dcount 5) 11, .tb 65520 15 (some 1), .slwait 0 true 0 11] : List Wait).all fun w =>
      gangIs (waiting w) fun x y => (y.lane 31).wait = w && (y.lane 31).hint = some 0 && y.live.getLsbD 31 && x.residence = .resident) = true ∧
    gangIs { waiting (.lock (.loc 1 0) true 11) with lockWaits := [{ loc := .loc 1 0, b := 1, g := 0, lane := 31, kd := 11, write := true, counted := true }] }
      (fun _ y => (y.lane 31).hint = some 0 && !(loaded.locAway (.loc 1 0))) = true ∧
    gangIs (loaded.modGang 1 0 fun y => { y with fcnt := y.fair.toNat }) (fun _ y => !y.sweep && y.fair.toNat ≤ y.fcnt) = true ∧
    gangIs (loaded.modGang 1 0 fun y => { y with sweep := true, turn := some (0, 0, 0) }) (fun _ y => y.sweep && y.turnDone) = true := by
  decide +kernel

/-- One push, of sequence 1. -/
def push (closed poison : Bool) : Push :=
  { sub := 3, value := 7, seq := 1, valid := true, closed := closed, moved := false, poison := poison, overrun := false }

/-- Subscription 3, with one push on its way. -/
noncomputable def subscribed (who : SubWho) (p : Push) (r : Residence) : State :=
  { loaded.modBlock 1 fun x => { x with residence := r } with subs := [{ theSub with who := who, pend := [p] }] }

noncomputable def subIs (s : State) (q : Sub → Bool) : Bool := match s.sub? 3 with | some u => q u | none => false

/-- A mapped queue of context 0. -/
def theQueue : Queue :=
  { ring := 0x40000, widxa := 0x30000, ridxa := 0x30040, ctx := 0, space := 0, log2n := 4, priv := true, wake := false, fault := false, sgen := 0,
    fidx := 0, pidx := 0, ridx := 0, wopnd := 0, waddr := 0, tab := 0, widx := some 1, fetched := [], waiting := none, resub := false, leaving := false, woken := false }

noncomputable def queued (x : Queue) : State :=
  loaded.modFe 0 fun f => { f with hold := false, queues := [(511, x)] }

/-- A WAITV entry of queue 511. -/
noncomputable def waitvEntry : Entry := { loadEntry 7 with q := 511, kind := .waitv, arg1 := 7, arg0 := 0 }
noncomputable def waitvWaits (arg1 : DWord) : State :=
  { queued { theQueue with waiting := some 7 } with
    entries := [{ waitvEntry with arg1 := arg1 }, loadEntry 0], subs := [{ theSub with who := .waitv 0 511, pend := [push false false] }] }

theorem met_SubscriptionsServeTheirSubscribers_pushes :
    subIs (subscribed (.gill 1 0) (push false false) .resident) (fun u => match u.pend with
      | [p] => gangIs (subscribed (.gill 1 0) p .resident) fun x _ => x.residence ≠ .evicted
          && !((subscribed (.gill 1 0) p .resident).deliverLeased u p 1 0)
      | _ => false) = true ∧
    subIs (subscribed (.gill 1 0) (push false false) .evicted) (fun u => u.pend = [push false false]
      && gangIs (subscribed (.gill 1 0) (push false false) .evicted) fun x _ => x.residence = .evicted) = true ∧
    ([false, true].all fun c => subIs { queued theQueue with subs := [{ theSub with who := .queue 0 511, pend := [push c c] }] }
      fun u => u.who = .queue 0 511 && u.pend = [push c c] && ((queued theQueue).queue? 0 511).isSome) = true ∧
    (([7, 8] : List DWord).all fun a => subIs (waitvWaits a) fun u => match (waitvWaits a).waitvOf u with
      | some e => waitvHolds e.arg0.toNat e.arg1 7 = decide (a = 7)
      | none => false) = true := by
  decide +kernel

theorem met_SubscriptionsServeTheirSubscribers_homes :
    ([some (push false false), none].all fun h => subIs { loaded with subs := [{ theSub with due := 1, held := h }] }
      fun u => u.due ≠ 0 && u.state = .live && u.held = h) = true ∧
    opIs (operating (.usub 3)) (fun o _ => o.kind = .usub 3) = true ∧ subIs { operating (.usub 3) with subs := [theSub] } (fun u => u.state = .live) = true ∧
    subIs { loaded with subs := [theSub], faults := [(.hbm 0x40000, 0x0E)] } (fun u => u.who = .gill 1 0 && u.state = .live
      && ({ loaded with subs := [theSub], faults := [(.hbm 0x40000, 0x0E)] } : State).unreadable u.key u.word) = true ∧
    -- an SLD over its quota, and one within it
    ([0, 1].all fun quota =>
      let s : State := { operating (.sld 0x40000 4 true 4 0) with hbm := (operating .mat).hbm.write 4 (natLe 4 quota) }
      opIs s fun o x => o.fault.isNone && (s.sub? 9).isNone && !o.away && (match s.locate x (s.opSlot o) 0x40000 .read with
        | .ok l =>
          let s1 := (s.setOp { o with slot := none }).subscribe
            { id := 9, who := .gill o.b 0, ctx := x.ctx, die := x.die, word := l, size := 4, key := (s.space x.space).key, every := true, r := 4, state := .live, credits := 0,
              due := 0, held := none, pend := [], count := 0, slot := o.slot }
          l = .hbm 0x40000 && !(s.isMoved l) && s.recordFree l 4 && decide (s.squota x.ctx ≤ s.quotaUsed x.ctx (homeOf l).1) = (quota = 0)
            && (s1.sub? 9).isSome && !(s1.unreadable (s.space x.space).key l)
        | .error _ => false)) = true := by
  decide +kernel

/-- The context table's entry 0 (R72): 16 admitted entries, valid, 16 subscriptions, its queue table at 0x8000 with one queue. -/
noncomputable def withCtx (s : State) : State :=
  { s with hbm := fields 0 [(0, 2, 16), (2, 2, 1), (4, 4, 16), (8, 8, 0x8000), (0x10, 4, 1)] s.hbm }

noncomputable def qIs (s : State) (p : Queue → Bool) : Bool := match s.queue? 0 511 with | some x => p x | none => false

/-- An entry of the queue: KIND, TARGET, ARG0 and ARG1. -/
def entBytes (kind target arg0 arg1 : Nat) : List Byte :=
  natLe 8 kind ++ natLe 8 target ++ List.replicate 20 0 ++ natLe 4 arg0 ++ List.replicate 8 0 ++ natLe 8 arg1 ++ List.replicate 8 0

/-- The entry is presented next, and the first checks pass. -/
noncomputable def presents (bs : List Byte) : State :=
  let s := withCtx (queued { theQueue with fetched := [bs] })
  { s with entries := [{ loadEntry 0 with tab := 9 }] }
noncomputable def given (bs : List Byte) (p : State → Queue → List Byte → Bool) : Bool :=
  let s := presents bs
  match s.present 0 511 with
  | some (x, b) => s.firstCode 0 x (s.entryBad x.ctx b) false = 0 && p s x b
  | none => false

theorem met_QueuesPresentTheirEntries_queues :
    (let s : State := { loaded with
       hbm := fields 0x8000 [(0, 8, 0x40000), (8, 8, 0x30000), (16, 8, 0x30040), (0x1C, 1, 16), (0x1D, 1, 1)] (withCtx loaded).hbm }
     let x : Queue := { Queue.of (s.deviceRead (s.descAt 0 0) 64) 0 with waiting := (s.waitEntry 0 0).map (·.id) }
     (!(descReserved (s.deviceRead (s.descAt 0 0) 64)) && s.ctxField 0 2 2 % 2 = 1 && 0 < s.ctxField 0 0x10 4 && x.ctx = 0 && x.space < 1024 && 4 ≤ x.log2n && x.log2n ≤ 16 && (s.queue? 0 511).isNone
       && (s.queueOf 0 0).isNone && (s.waitEntry 0 0).isNone && x.sgen = (s.space x.space).sgen) = true) ∧
    (([none, some 0] : List (Option Word)).all fun w => qIs (queued { theQueue with widx := w }) fun x =>
      !((queued theQueue).undecided x.ctx x.tab) && !x.woken && (match x.widx with | some v => !(indexBeyond v x.pidx) | none => true)) = true ∧
    (let s : State := { queued theQueue with entries := [{ loadEntry 0 with half := .asking 0 [] [], tab := 0 }] }
     qIs s fun x => s.undecided x.ctx x.tab) = true ∧
    qIs (queued { theQueue with fault := true }) (fun x => x.fault && !((queued theQueue).pinFull x.space)) = true ∧
    qIs (queued theQueue) (fun x => !x.resub && !x.fault && !x.leaving && x.sgen = ((queued theQueue).space x.space).sgen
      && (x.fidx - x.ridx).toNat < 64 && x.widx = some 1 && (1 - x.ridx).toNat ≤ 2 ^ x.log2n && (x.fidx - x.ridx).toNat < (1 - x.ridx).toNat
      && (match (queued theQueue).feRead 0 x.ctx x.space (BitVec.ofNat 64 (x.ring + 64 * (x.fidx.toNat % 2 ^ x.log2n))) 64 with | .ok _ => true | _ => false))
      = true := by
  decide +kernel

theorem met_QueuesPresentTheirEntries_entries :
    given (entBytes 0 0 0 0) (fun _ _ b => enKind b = 0) = true ∧
    given (entBytes 3 0 0 0) (fun s x b => enKind b = 3 && !(s.pendingOf x.ctx x.tab s.nextId)) = true ∧
    given (entBytes 4 0x40000 1 7) (fun _ _ b => enKind b = 4) = true ∧
    given (entBytes 5 0x40000 11 7) (fun s x b => enKind b = 5 && (match s.feLoc 0 x.ctx x.space (enTarget b) .read with
      | .ok l => homeable l && !(s.waitvQuota x.ctx l (waitvSize (enArg0 b)))
      | _ => false)) = true ∧
    ([1, 2].all fun k => match (presents (entBytes k 0x40000 0 0)).present 0 511 with | some (_, b) => enKind b = k | none => false) = true := by
  decide +kernel

/-- An entry of KIND SIGNAL that is past every other. -/
def signalEntry : Entry := { loadEntry 0 with kind := .signal, target := 0x40000, arg0 := 1, arg1 := 7 }

theorem met_QueuesPresentTheirEntries_halves :
    (let s : State := { loaded with entries := [signalEntry] }
     (s.entry? 0 = some signalEntry && !(s.pendingOf 0 0 0) && (match s.feLoc 0 0 0 0x40000 .write with | .ok _ => true | _ => false)) = true) ∧
    (let e : Entry := { loadEntry 0 with half := .asking 0 [] [], placed := 0 }
     let s : State := { withCtx loaded with entries := [e], blocks := [] }
     let peer : Entry := { e with id := s.nextId, adm := s.nextId, die := 1, count := totalBlocks e.lrec e.group - e.count, rem := [], done := 0, half := .peer 0, deadline := none }
     (s.entry? 0 = some e && !(s.pinFull e.space) && s.bindRoom e.ctx 0 && !(s.space e.space).nullr
       && s.admittedOf 1 e.ctx < s.ctxField e.ctx 0 2 && (s.admittedOn 1).length < 1024 && s.launchCode peer 0 false = 0) = true) ∧
    (let e : Entry := { loadEntry 0 with die := 1, half := .peer 4 }
     let o : Entry := { loadEntry 4 with half := .home 0 none }
     let s : State := { loaded with entries := [e, o], blocks := [] }
     (s.entry? 0 = some e && s.entry? 4 = some o && s.blocksDone e) = true) := by
  decide +kernel

/-- The state with entry `e` alone, and no block. -/
noncomputable def entryAlone (e : Entry) : State := { loaded with entries := [e], blocks := [] }

/-- A block's state in a test. -/
noncomputable def blockIs (s : State) (p : Block → Bool) : Bool := match s.block? 1 with | some x => p x | none => false

/-- The save pool of context 0 (R72, R349), at the start of its tun. -/
noncomputable def withPool (s : State) : State :=
  { s with hbm := fields 0 [(0x14, 4, 0x800000), (0x24, 4, 0x400000), (0x28, 4, 0x400000)] (withCtx s).hbm }

/-- The block away, its image at 0. -/
noncomputable def awayBlock (r : Residence) : State := withPool (loaded.modBlock 1 fun x => { x with residence := r, saved := some 0 })

theorem met_EntriesAndBlocksRunTheirCourse_blocks :
    (let e : Entry := { loadEntry 0 with placed := 0 }
     let s := entryAlone e
     (s.entry? 0 = some e && (s.together e).all (fun h => match s.newWant h with | some w => s.firstFit h.die w | none => false)) = true) ∧
    blockIs (awayBlock .draining) (fun x => x.saved = some 0 && x.residence = .draining && (awayBlock .draining).drained x) = true ∧
    blockIs (awayBlock .evicted) (fun x =>
      let s := awayBlock .evicted
      let ms := s.mates x
      (s.backWant x).isSome && (ms.filterMap s.backWant).all (fun w => match w.back.bind s.block? with | some y => s.firstFit y.die w | none => false)
        && (placesOf [95, 0]).length = ms.length && (s.seatAll s.occupied ((s.backItems ms).zip (placesOf [95, 0]))).isSome
        && ms.all (fun y => y.saved.all fun base => !s.imageLent y base) && (s.againShort ms).isEmpty) = true ∧
    (let s := loaded.modBlock 1 fun x => { x with gangs := x.gangs.map fun y => { y with k := y.k.set 0 0 } }
     blockIs s (fun x => x.gangs.all (fun y => y.live = 0) && s.subs.isEmpty && s.ops.isEmpty && x.performed && !(s.leasedByPeer x)
       && ((s.discardBlock x).entry? x.entry).isSome) = true) := by
  decide +kernel

theorem met_EntriesAndBlocksRunTheirCourse_preemption : blockIs (withPool loaded) (fun x => ((withPool loaded).preempt x).isSome) = true := by
  decide +kernel

/-- A NODE entry with one record held, and its node. -/
def theHeld : Held := { place := 0, at_ := 0, deadline := some 5 }
def theNode : Node := { nid := 0xFFFF, producers := 1, held := [theHeld], next := 1, launched := [] }
def nodeEntry : Entry :=
  { loadEntry 0 with kind := .node, count := 0, placed := 0, node := some theNode, lrec := { loadRec with gather := 1, timeout := 8, gcap := 2, recsz := 16 } }

theorem met_EntriesAndBlocksRunTheirCourse_entries :
    (let s := entryAlone (loadEntry 0)
     ((s.aborts.find? fun a => a.1 = 0).isNone && (s.entry? 0).isSome && s.blocksDone (loadEntry 0) && (s.finishCycle (loadEntry 0)).isSome) = true) ∧
    (let e : Entry := { loadEntry 0 with fin := some 1, done := 0x40000 }
     ((entryAlone e).entry? 0 = some e && (match (entryAlone e).feLoc 0 0 0 0x40000 .write with | .ok _ => true | _ => false)) = true) ∧
    ((entryAlone nodeEntry).entry? 0 = some nodeEntry && nodeEntry.node = some theNode && nodeEntry.fin.isNone && !theNode.held.isEmpty
      && nodeEntry.lrec.gather ≤ theNode.held.length) = true ∧
    (let s : State := { entryAlone nodeEntry with fcyc := Vector.replicate 2 8 }
     (nodeEntry.lrec.timeout ≠ 0 && theHeld.at_ + nodeEntry.lrec.timeout ≤ s.fcyc[nodeEntry.die] && earliest theNode.held = some 5
       && 5 ≤ s.fcyc[nodeEntry.die] + nodeEntry.lrec.margin) = true) ∧
    gangIs (loaded.modGang 1 0 fun y => { y with enqr := some (0xFFFF, none) }) (fun _ y => y.enqr = some (0xFFFF, none)) = true ∧
    (let s : State := { operating (.enqr 0xFFFF true 0 []) with entries := [loadEntry 0, { nodeEntry with id := 4 }] }
     opIs s (fun _ x => match s.nodeEntry? x.die x.ctx 0xFFFF with | some (e, nd) => nd.producers ≠ 0 && nd.buffered < e.lrec.gcap | none => false) = true) ∧
    (let e : Entry := { loadEntry 0 with policy := 1, overrun := some (2, 1), rem := [none, none, some 0] }
     let s := (entryAlone e).modFe 0 fun f => { f with cmd := fepcmd 0xFFFFFFFF 0 0 0xFF 2 1 true }
     (s.fe[(0 : Die)].cmd = fepcmd 0xFFFFFFFF 0 0 0xFF 2 1 true && s.admitted? 0 0 0 = some e && (s.halves e).any (fun h => h.heldIn 2) && (s.halves e).all fun h => !(h.heldIn 2) || s.grantCode h 2 0xFFFFFFFF = 0) = true) ∧
    ([2, 3].all fun op =>
      let s := (entryAlone (loadEntry 0)).modFe 0 fun f => { f with cmd := fepcmd 0 0 0 0 0 op true }
      s.fe[(0 : Die)].cmd = fepcmd 0 0 0 0 0 op true && s.admitted? 0 0 0 = some (loadEntry 0)
        && (s.halves (loadEntry 0)).all fun h => h.overrun.isNone) = true ∧
    ([1, 2, 3].all fun op =>
      let s := loaded.modFe 0 fun f => { f with cmd := fepcmd 5 6 511 0 2 op true }
      s.fe[(0 : Die)].cmd = fepcmd 5 6 511 0 2 op true && (s.admitted? 0 511 6).isNone) = true := by
  decide +kernel

/-- A trap record for the ring of die 0 and context 0, whose table entry (R339) is at its place in the context table. -/
def thePost (kind : Nat) : TrapPost :=
  { die := 0, ctx := 0, kind := kind, block := 1, gang := 0, n := 0, compl := 63,
    tr := { tcause := 0, tpc := 0, treg := 0, trec := 0, tmask := 0, tsib := 0, tpar := 0, tval := 0 } }

/-- An address program of block 1 in the clause at 0x20000, its next word at `pc`. -/
noncomputable def programAt (pc : Va) : State :=
  { operating (.aprun 0) with
    apq := [((0, 0), { ApQueue.start 1 9 (Vector.replicate 32 (0 : Word)) 0x20000 with clause := some (0x20000, 0x1E000000), pc := pc })] }

theorem met_RecordsPinsWalksAndProgramsStep_records :
    (let s : State := { loaded with
       trapQ := [thePost 2]
       hbm := fields 0 [(0x60 + 24, 1, 4), (0x100 + 24, 1, 4)] (withCtx loaded).hbm }
     (s.trapQ[0]?.isSome && ((s.trapRing 0 0).written - (s.trapRing 0 0).handled).toNat < 2 ^ s.trField 0 0 24 1) = true) ∧
    subIs { loaded with subs := [{ theSub with who := .ring 0 0, pend := [push false false] }] }
      (fun u => u.who = .ring 0 0 && (match u.pend with | p :: _ => !p.closed | [] => false)) = true ∧
    (let s : State := { loaded with discards := [(0, 0x0E, 0)] }
     (s.discards = [(0, 0x0E, 0)] && s.entries.all fun e => match e.half with | .asking .. => false | _ => true) = true) ∧
    (let s : State := { loaded with noticeQ := [(0, natLe 16 6)] }
     ((takeFirst (fun q => q.1 = (0 : Die)) s.noticeQ).isSome
       && ((s.fe[(0 : Die)]).notices.widx - (s.fe[(0 : Die)]).notices.ridx).toNat < 2 ^ ((s.fe[(0 : Die)]).notices.log2n + 6)) = true) := by
  decide +kernel

theorem met_RecordsPinsWalksAndProgramsStep_pins :
    (!(loaded.space 0).nullr && (loaded.root (loaded.space 0).cur).pins < 1048575 && 1 ≤ (loaded.root 0).pins && (loaded.root 0).pins < 1048575) = true ∧
    (let s := loaded.setRoot 0 { loaded.root 0 with pins := 2 }
     decide (s.heldPins 0 < (s.root 0).pins) = true) ∧
    (let s1 := loaded.fillNodes 0 (loaded.walkPath 0 0 0x40000 4 0 (loaded.root 0).root)
     ((loaded.root 0).root < loaded.hbmEnd && (match loaded.walk 0 0 0 0x40000 with | .ok (leaf, _) => teTier leaf ≠ 2 | .error _ => false)
       && (loaded.root 0).usable && (s1.tlb.filter fun p => p.1 = 0 && p.2.1 = none).length < 131072 && s1.tlb.all fun p => p.2.1 ≠ none) = true) ∧
    opIs (operating (.ndrop 0x10000)) (fun o _ => o.kind = .ndrop 0x10000) = true := by
  decide +kernel

theorem met_RecordsPinsWalksAndProgramsStep_programs :
    -- the program's next word cannot be fetched; it is AQEND
    (match (programAt 0x800000000000).apq? 0 0 0 with
     | some a => a.ended.isNone && !a.fault && a.clause = some (0x20000, 0x1E000000) && blockIs (programAt 0x800000000000) (fun x =>
         x.residence = .resident && (match (programAt 0x800000000000).apWordAt x 0 a.pc with | .fault _ => true | _ => false))
     | none => false) = true ∧
    ([0x20004, 0x20000].all fun start =>
      let s : State := { programAt start with hbm := loaded.hbm.write 0x20004 (natLe 4 0x2E000002), input := .nat3 0 0 0 }
      match s.apq? 0 0 0 with
      | some a0 =>
        -- in its clause at the word; at the header
        let a : ApQueue := if start = 0x20000 then { a0 with clause := none } else a0
        let s0 := s.setApq 0 0 0 a
        let s1 := if start = 0x20000 then s0.setApq 0 0 0 { a with held := false, clause := some (a.pc, 0x1E000000), pc := a.pc + 4 } else s0
        a.ended.isNone && !a.fault && blockIs s (fun x => x.residence = .resident
          && (start ≠ 0x20000 || !(hdrBad 0x1E000000) && (match s0.apWordAt x 0 a.pc with | .word h => h = 0x1E000000 | _ => false))
          && (match s1.apWordAt x 0 0x20004 with
            | .word w => w = 0x2E000002 && decodeLow w = .ok (.aqend ⟨0⟩) && (Instr.aqend ⟨0⟩).wellFormed
            | _ => false))
      | none => false) = true := by
  decide +kernel

theorem met_OutsideRequestsActWhereAllowed :
    ((State.reset.space 1023).nullr && !(loaded.space 0).nullr && State.reset.mbox.running.isNone
      && ({ State.reset with mbox := { Mailbox.reset with running := some (1, 0, 0) } } : State).mbox.running.isSome) = true ∧
    -- a write of 20 bytes to MBCMD, and of 16 to FEPCMD, idle and busy
    (leNat (natLe 12 (4 + 7 * 2 ^ 32)) = 4 + 7 * 2 ^ 32 && leNat (natLe 16 (fepcmd 5 6 511 0 2 3 false).toNat) = (fepcmd 5 6 511 0 2 3 false).toNat
      && !(loaded.fe[(1 : Die)].cmd.getLsbD 7)
      && (loaded.modFe 1 fun f => { f with cmd := fepcmd 0 0 0 0 0 1 true }).fe[(1 : Die)].cmd.getLsbD 7) = true ∧
    -- a request of VF 32 to space 5, which maps the first 4 GiB
    (let s : State := { loaded with
       bar2 := [(32, 5)], spaces := [(5, { (loaded.space 0) with ctx := 0 })], roots := loaded.roots }
     (assocGet s.bar2 32 = some 5 && (match s.pinCurrent 5 with
       | .slot n _ => (match s.requestLocs 5 n 0x40000 4 .write with | .ok ls => ls.all fun l => !(s.wrapped l) | .error _ => false)
           && (match s.requestLocs 5 n 0x40000 4 .read with
             | .ok ls => (s.readFault (s.space 5).key (urun 0x40000 4) ls).isNone | .error _ => false)
       | _ => false)) = true) ∧
    (!(loaded.hostBusy none 1) && !(loaded.hostBusy (some 0xFFFFF) 1) && (pending .load [oneAcc (.host none 0x1000) 4]).hostBusy none 1 && (assocGet ({ loaded with measures := [(5, [1])] } : State).measures 5).isSome) = true ∧
    ((List.range 1024).all fun n => (State.reset.space n).key ≠ 63) = true ∧
    (let k : List Byte := List.replicate 32 0
     let s : State := { State.reset with prot := true, keys := assocSet State.reset.keys 63 k, lineKeys := [(.hbm 0x40000, leNat k)] }
     (assocGet s.keys 63 = some k && assocGet s.lineKeys (lineOf (.hbm 0x4003F)) = some (leNat k) && (List.range 1024).all fun n => (s.space n).key ≠ 63) = true) ∧
    (let s : State := { loaded with lends := [{ base := 0x40000, size := 1, borrower := 65535, fenceAt := some 3 }] }
     (s.lentTo 65535 0x4003FFF0 16 && !(s.lentTo 65535 0x4003FFF1 16) && !(s.lineLost (.hbm 0x4003FFF0) 16)
       && ({ s with faults := [(.hbm 0x4003FFC0, Cause.eccUncorr)] } : State).lineLost (.hbm 0x4003FFF0) 16 && s.lends[0]?.isSome) = true) ∧
    (let s : State := { loaded with lends := [{ base := 0x40000, size := 1, borrower := 65535, fenceAt := some 3 }], fcyc := Vector.replicate 2 4 }
     (match s.lends[0]? with | some l => l.fenceAt = some 3 && 3 < s.fcyc[(0 : Die)] | none => false) = true) ∧
    ((State.reset.lease 255).state = 0 && (1 * 2 ^ 88) / 2 ^ 88 % 4 = 1 && (({ loaded with leases := [(255, { loaded.lease 0 with state := 1 })] } : State).lease 255).state = 1) = true ∧
    (let s : State := { loaded with leases := [(255, { loaded.lease 0 with state := 2, graceEnd := some 0 })] }
     ((s.lease 255).state = 2 && (s.lease 255).graceEnd = some 0 && 0 ≤ s.fcyc[(0 : Die)]) = true) ∧
    (!(loaded.downPorts.contains 11) && loaded.ops.isEmpty && 0x40000 + 4 ≤ loaded.hbmEnd && !(loaded.lent 0x40000) && !(loaded.lent 0x40003)
      && ((Loc.hbm 0x40000).run 4).all fun l => !(loaded.wrapped l)) = true := by
  decide +kernel

theorem met_ResetsMailboxAndErrorsAct :
    ([1, 2, 3, 4].all fun cmd => ({ loaded with mbox := { Mailbox.reset with running := some (cmd, 1, 1) } } : State).mbox.running = some (cmd, 1, 1))
      = true ∧
    (loaded.handover.isNone && ({ loaded with handover := some { resync := [], table := [] } } : State).tableStands { resync := [], table := [] }
      && !(({ loaded with hbm := [] } : State).tableStands { resync := [], table := [1] }) && !loaded.hot
      && ({ loaded with hot := true } : State).hot && ({ loaded with prot := true } : State).prot
      && loaded.elog[(0 : Die)].last ≤ 0 && (loaded.elog[(0 : Die)].record 1 5 0 0).last ≤ 5) = true ∧
    -- the last quire of die 0 is quarantined, its cores are empty and a spare is left
    (let cores := (List.range 4).map fun m => 0 % 2 * 96 + 4 * 23 + m
     let s : State := { loaded with quarantined := cores }
     (cores.all (fun c => s.quarantined.contains c) && (s.blocks.all fun x => x.residence = .evicted || !(cores.contains (x.die.val * 96 + x.core)))
       && s.spares[(0 : Die)] ≠ 0) = true) := by
  decide +kernel

/-! ### Hypotheses that are met: issue, traps, decoding and the step -/

theorem met_NopDoesNothingAndStandsAnywhere :
    meets (at_ 0 every id) { cls := 4, stall := 3, nop := true } (fun c z => (z.entry? c.x.entry).isSome) = true := by
  decide +kernel

theorem met_PrivilegedWordsTrapInUserMode :
    ([0x1C000000, 0x1E000000].all fun h =>
      let s : State := { atBlock 0 every id fun x => { x with sys := false } with focus := .gang 1 0 every 0x20004 0x20000 h 0x3D000000 0 }
      (match s.focus with | .gang 1 0 _ _ _ hdr _ _ => hdrClass hdr = 6 || hdrClass hdr = 7 | _ => false) && gangIs s fun x _ => !x.sys) = true := by
  decide +kernel

theorem met_TrapsEnterTheHandlerOrTheRing :
    (causeRoute 0x01 false = .user && causeRoute 0x09 false = .system && causeRoute 0x1D true = .system) = true ∧
    -- lanes outside the handler with HANDLER set and free, clear, and set and taken; lanes in the handler
    gangIs (atBlock 0 1 id fun x => { x with lrec := { x.lrec with handler := 0x30000 } })
      (fun x y => x.lrec.handler ≠ 0 && y.handler.isNone && causeRoute 0x01 y.attached = .user) = true ∧
    gangIs (at_ 0 1 id) (fun x y => x.lrec.handler = 0 && y.handler.isNone && causeRoute 0x01 y.attached = .user) = true ∧
    gangIs (atBlock 0 1 (handled 2) fun x => { x with lrec := { x.lrec with handler := 0x30000 } })
      (fun x y => x.lrec.handler ≠ 0 && (match y.handler with | some h => h.lanes &&& 1 = 0 | none => false) && causeRoute 0x01 y.attached = .user) = true ∧
    gangIs (at_ 0 3 (handled 3)) (fun _ y => (match y.handler with | some h => h.lanes &&& 1 ≠ 0 | none => false)
      && causeRoute 0x01 y.attached ≠ .unrecoverable) = true := by
  decide +kernel

theorem met_AnIssueAddsOnlyItsCosts :
    meets (at_ 0 every id) { cls := 0, stall := 0 } (fun c z => (z.gangAt c).isSome && (z.entry? c.x.entry).isSome) = true := by
  decide +kernel

theorem met_DecodeOfEncode :
    encodeWord (.cvt ⟨3, 63, 63, 0x16, 7, 5⟩) = some 0b11_010110_111111_111111_0_10110_111_101#32 ∧
      (Instr.cvt ⟨3, 63, 63, 0x16, 7, 5⟩).wellFormed = true := by
  decide +kernel

theorem met_EncodeOfDecode : decode 0b11_010110_111111_111111_0_10110_111_101#32 = .ok (.cvt ⟨3, 63, 63, 0x16, 7, 5⟩) := by
  decide +kernel

/-- IADD V3, V1, V2. -/
def iaddWord : Word := 0b00_000000_000011_000001_000010_000_000#32

theorem met_StepRunsTheDecodedInstruction :
    (let s := loadWord iaddWord State.reset
     let s0 : State := { s with agenda := [] }
     (s.agenda = [.issue 0 0 0] && !s.partDone 0 0 0 && (match pickGang ((s0.candidates 0 0 0).filter fun k => (s0.ready k).isSome) with
       | some c => (match s0.begin c.b c.g with
         | .word w z => w = iaddWord && decode w = .ok (.iadd ⟨0, 3, 1, 2, 0⟩) && answers (exec (.iadd ⟨0, 3, 1, 2, 0⟩) z) (·.progress)
         | _ => false)
       | none => false)) = true) ∧
    (let s : State := { State.reset with agenda := [.event .deadlineInheritUpdate .none] }
     (encodeWord .deadlineInheritUpdate = none && !s.mbox.bootfail
       && answers (exec .deadlineInheritUpdate { s with agenda := [], input := .none }) fun _ => true) = true) ∧
    (State.reset.agenda = []) := by
  decide +kernel

theorem met_EveryStepAnswersAStateAtRest :
    (State.reset.atRest && (loadWord iaddWord State.reset).atRest) = true ∧ answers (step (loadWord iaddWord State.reset)) (·.atRest) = true := by
  decide +kernel

theorem met_EveryStepKeepsMemoryCanonical :
    (loadWord iaddWord State.reset).memWf = true ∧ answers (step (loadWord iaddWord State.reset)) (·.memWf) = true := by
  decide +kernel

/-! ### Well-formed instructions -/

/-- A reserved value of an enumerated field: neither well-formed nor the meaning of a word; the least and greatest values are both. -/
theorem test_wellFormed_refuses :
    ([.cvt ⟨0, 1, 2, 0x0F, 0, 0⟩, .cvt ⟨0, 1, 2, 0x17, 0, 0⟩, .cvt ⟨0, 1, 2, 0x1F, 0, 0⟩, .cvt ⟨0, 1, 2, 1, 0, 6⟩, .bra ⟨0, 0, 13, 0, 0⟩,
      .call ⟨0, 0, 15, 0, 0⟩, .bra ⟨0, 0, 12, 1, 0⟩, .call ⟨0, 0, 12, 1, 0⟩, .mma ⟨0, 0, 0, 0, 0, 0, 7⟩, .mmac ⟨0, 0, 0, 0, 0, 0, 7⟩,
      .fenceRel ⟨0, 1, 1, 0, 0⟩, .fenceAcq ⟨0, 1, 1, 0, 3⟩, .fenceBoth ⟨0, 1, 1, 0, 31⟩] : List Instr).all (fun i =>
        !i.wellFormed && (match encodeWord i with | some w => (match decode w with | .error _ => true | .ok _ => false) | none => false)) = true := by
  decide +kernel

theorem test_wellFormed_admits :
    ([.cvt ⟨0, 1, 2, 0x0E, 0, 5⟩, .cvt ⟨0, 1, 2, 0x19, 0, 0⟩, .bra ⟨0, 0, 12, 0, 0⟩, .bra ⟨0, 0, 11, 1, 0⟩, .mma ⟨0, 0, 0, 0, 0, 0, 6⟩,
      .fenceRel ⟨0, 0, 0, 0, 2⟩, .fenceBoth ⟨0, 1, 1, 0, 30⟩] : List Instr).all (fun i =>
        i.wellFormed && (match encodeWord i with | some w => decode w = .ok i | none => false)) = true := by
  decide +kernel

/-- R107: reserved majors and codes, and a fixed zero field that is not zero, are refused (R111 row 1). -/
theorem test_decode_refuses :
    ([0b00_011001_000000000000000000000000#32, 0b00_110101_000000000000000000000000#32, 0b00_111111_000000000000000000000000#32,
      0b00_011000_000011_000001_000010_000_111#32, 0b00_011100_000101_000110_000111_001_000#32] : List Word).all
        (fun w => match decode w with | .error _ => true | .ok _ => false) = true := by
  decide +kernel

/-! ### Words written out bit by bit from the encoding tables -/

/-- Each word decodes to the instruction beside it. -/
noncomputable def decodesTo (l : List (Word × Instr)) : Bool :=
  l.all fun p => match decode p.1 with | .ok i => decide (i = p.2) | .error _ => false

theorem test_decode_IA0 : decodesTo
    ([(0b01_000000_000110_001011_010000_101_000#32, .iadd ⟨1, 6, 11, 16, 5⟩),
      (0b00_000000_001010_010000_010110_100_001#32, .isub ⟨0, 10, 16, 22, 4⟩),
      (0b11_000000_001110_010101_011100_100_010#32, .imul ⟨3, 14, 21, 28, 4⟩),
      (0b10_000000_010010_011010_011011_011_011#32, .imulh ⟨2, 18, 26, 27, 3⟩),
      (0b01_000000_010110_011000_100001_011_100#32, .imulhu ⟨1, 22, 24, 33, 3⟩),
      (0b00_000000_011010_011101_100000_010_101#32, .imin ⟨0, 26, 29, 32, 2⟩),
      (0b11_000000_011110_100010_100110_010_110#32, .imax ⟨3, 30, 34, 38, 2⟩),
      (0b10_000000_011011_100000_100101_010_111#32, .umin ⟨2, 27, 32, 37, 2⟩)] : List (Word × Instr)) = true := by decide +kernel

theorem test_decode_IA1 : decodesTo
    ([(0b01_000001_011111_100101_101011_001_000#32, .umax ⟨1, 31, 37, 43, 1⟩),
      (0b00_000001_100011_101010_000000_001_001#32, .iabs ⟨0, 35, 42, 1⟩),
      (0b11_000001_100111_101111_000000_000_010#32, .ineg ⟨3, 39, 47, 0⟩),
      (0b10_000001_101011_101101_110110_000_011#32, .and ⟨2, 43, 45, 54, 0⟩),
      (0b01_000001_101111_110010_110101_111_100#32, .or ⟨1, 47, 50, 53, 7⟩),
      (0b00_000001_110011_110111_111011_111_101#32, .xor ⟨0, 51, 55, 59, 7⟩),
      (0b11_000001_110000_110101_111010_111_110#32, .andn ⟨3, 48, 53, 58, 7⟩),
      (0b10_000001_110100_111010_000000_110_111#32, .orn ⟨2, 52, 58, 0, 6⟩)] : List (Word × Instr)) = true := by decide +kernel

theorem test_decode_ISH : decodesTo
    ([(0b01_000010_111000_111111_000110_110_000#32, .shl ⟨1, 56, 63, 6, 6⟩),
      (0b00_000010_111100_000100_000101_101_001#32, .shr ⟨0, 60, 4, 5, 5⟩),
      (0b11_000010_000000_000010_001011_101_010#32, .sar ⟨3, 0, 2, 11, 5⟩),
      (0b10_000010_000100_000111_001010_100_011#32, .rol ⟨2, 4, 7, 10, 4⟩),
      (0b01_000010_001000_001100_010000_100_100#32, .ror ⟨1, 8, 12, 16, 4⟩),
      (0b00_000010_000101_001010_001111_100_101#32, .bfe ⟨0, 5, 10, 15, 4⟩),
      (0b11_000010_001001_001111_010101_011_110#32, .bfi ⟨3, 9, 15, 21, 3⟩),
      (0b10_000010_001101_010100_011011_011_111#32, .bfs ⟨2, 13, 20, 27, 3⟩)] : List (Word × Instr)) = true := by decide +kernel

theorem test_decode_IBT : decodesTo
    ([(0b01_000011_010001_011001_000000_010_000#32, .popc ⟨1, 17, 25, 2⟩),
      (0b00_000011_010101_010111_000000_000_001#32, .clz ⟨0, 21, 23, 0⟩),
      (0b11_000011_011001_011100_000000_111_010#32, .ctz ⟨3, 25, 28, 7⟩),
      (0b10_000011_011101_100001_000000_101_011#32, .brev ⟨2, 29, 33, 5⟩),
      (0b01_000011_011010_011111_000000_100_100#32, .bswap ⟨1, 26, 31, 4⟩),
      (0b00_000011_011110_100100_101010_000_101#32, .prmt ⟨0, 30, 36, 42, 0⟩),
      (0b11_000011_100010_101001_110000_000_110#32, .iadd64 ⟨3, 34, 41, 48, 0⟩),
      (0b10_000011_100110_101110_101111_111_111#32, .isub64 ⟨2, 38, 46, 47, 7⟩)] : List (Word × Instr)) = true := by decide +kernel

theorem test_decode_ICMP : decodesTo
    ([(0b01_000100_101010_101100_110101_111_000#32, .icmpEq ⟨1, 42, 44, 53, 7⟩),
      (0b00_000100_101110_110001_110100_110_001#32, .icmpNe ⟨0, 46, 49, 52, 6⟩),
      (0b11_000100_110010_110110_111010_110_010#32, .icmpLt ⟨3, 50, 54, 58, 6⟩),
      (0b10_000100_101111_110100_111001_110_011#32, .icmpLe ⟨2, 47, 52, 57, 6⟩),
      (0b01_000100_110011_111001_111111_101_100#32, .icmpUlt ⟨1, 51, 57, 63, 5⟩),
      (0b00_000100_110111_111110_000101_101_101#32, .icmpUle ⟨0, 55, 62, 5, 5⟩),
      (0b11_000100_111011_000011_000100_100_110#32, .icmpTst ⟨3, 59, 3, 4, 4⟩),
      (0b10_000100_111111_000001_001010_100_111#32, .icmpNtst ⟨2, 63, 1, 10, 4⟩)] : List (Word × Instr)) = true := by decide +kernel

theorem test_decode_IMAD : decodesTo
    ([(0b01_000101_000011_000110_001001_010011#32, .imad ⟨1, 3, 6, 9, 19⟩)] : List (Word × Instr)) = true := by decide +kernel

theorem test_decode_LANE : decodesTo
    ([(0b00_000110_000111_001011_001111_011_000#32, .sel ⟨0, 7, 11, 15, 3⟩),
      (0b11_000110_000100_001001_001110_011_001#32, .shfl ⟨3, 4, 9, 14, 3⟩),
      (0b10_000110_001000_001110_010100_010_010#32, .shflx ⟨2, 8, 14, 20, 2⟩),
      (0b01_000110_001100_010011_011010_010_011#32, .shflup ⟨1, 12, 19, 26, 2⟩),
      (0b00_000110_010000_011000_011001_001_100#32, .shfldn ⟨0, 16, 24, 25, 1⟩),
      (0b11_000110_010100_010110_000000_111_101#32, .bcst ⟨3, 20, 22, 7⟩),
      (0b10_000110_011000_000000000000_011_110#32, .laneid ⟨2, 24, 3⟩)] : List (Word × Instr)) = true := by decide +kernel

theorem test_decode_MOVE : decodesTo
    ([(0b01_000111_011100_100000_000000_100_000#32, .mov ⟨1, 28, 32, 4⟩),
      (0b00_000111_011001_011110_000000_011_001#32, .movs ⟨0, 25, 30, 3⟩),
      (0b11_000111_011101_100011_000000_001_010#32, .smov ⟨3, 29, 35, 1⟩),
      (0b10_000111_100001_101000_000000_111_011#32, .vpcr ⟨2, 33, 40, 7⟩),
      (0b01_000111_100101_101101_000000_110_100#32, .tagr ⟨1, 37, 45, 6⟩),
      (0b00_000111_101001_101011_0_10100_110_101#32, .retag ⟨0, 41, 43, 20, 6⟩)] : List (Word × Instr)) = true := by decide +kernel

theorem test_decode_IADDI_ANDI_ORI_XORI : decodesTo
    ([(0b11_001000_101101_110000_000100111100#32, .iaddi ⟨3, 45, 48, 316⟩),
      (0b10_001001_110001_110101_111000111010#32, .andi ⟨2, 49, 53, 3642⟩),
      (0b01_001010_101110_110011_100101100101#32, .ori ⟨1, 46, 51, 2405⟩),
      (0b00_001011_110010_111000_011001100011#32, .xori ⟨0, 50, 56, 1635⟩)] : List (Word × Instr)) = true := by decide +kernel

theorem test_decode_SHI : decodesTo
    ([(0b11_001100_110110_111101_0000000_00100#32, .shli ⟨3, 54, 61, 4⟩),
      (0b10_001100_111010_000010_0100000_00011#32, .shri ⟨2, 58, 2, 3⟩),
      (0b01_001100_111110_000000_1000000_01001#32, .sari ⟨1, 62, 0, 9⟩),
      (0b00_001100_000010_000101_1100000_01000#32, .roli ⟨0, 2, 5, 8⟩)] : List (Word × Instr)) = true := by decide +kernel

theorem test_decode_ICMPI : decodesTo
    ([(0b11_001101_000110_001010_000_011001110#32, .icmpiEq ⟨3, 6, 10, 206⟩),
      (0b10_001101_000011_001000_001_011001101#32, .icmpiNe ⟨2, 3, 8, 205⟩),
      (0b01_001101_000111_001101_010_011010011#32, .icmpiLt ⟨1, 7, 13, 211⟩),
      (0b00_001101_001011_010010_011_011011001#32, .icmpiLe ⟨0, 11, 18, 217⟩),
      (0b11_001101_001111_010111_100_011011000#32, .icmpiUlt ⟨3, 15, 23, 216⟩),
      (0b10_001101_010011_010101_101_011011110#32, .icmpiUle ⟨2, 19, 21, 222⟩),
      (0b01_001101_010111_011010_110_011011101#32, .icmpiTst ⟨1, 23, 26, 221⟩),
      (0b00_001101_011011_011111_111_011100011#32, .icmpiNtst ⟨0, 27, 31, 227⟩)] : List (Word × Instr)) = true := by decide +kernel

theorem test_decode_LUI_MOVI : decodesTo
    ([(0b11_001110_011000_000010110000101110#32, .lui ⟨3, 24, 11310⟩),
      (0b10_001111_011100_000100010001010111#32, .movi ⟨2, 28, 17495⟩)] : List (Word × Instr)) = true := by decide +kernel

theorem test_decode_FA0 : decodesTo
    ([(0b01_010000_100000_100111_101110_110_000#32, .fadd ⟨1, 32, 39, 46, 6⟩),
      (0b00_010000_100100_101100_101101_101_001#32, .fsub ⟨0, 36, 44, 45, 5⟩),
      (0b11_010000_101000_101010_110011_101_010#32, .fmul ⟨3, 40, 42, 51, 5⟩),
      (0b10_010000_101100_101111_110010_100_011#32, .fmin ⟨2, 44, 47, 50, 4⟩),
      (0b01_010000_110000_110100_111000_100_100#32, .fmax ⟨1, 48, 52, 56, 4⟩),
      (0b00_010000_101101_110010_000000_111_101#32, .fabs ⟨0, 45, 50, 7⟩),
      (0b11_010000_110001_110111_000000_101_110#32, .fneg ⟨3, 49, 55, 5⟩),
      (0b10_010000_110101_111100_000011_011_111#32, .fcps ⟨2, 53, 60, 3, 3⟩)] : List (Word × Instr)) = true := by decide +kernel

theorem test_decode_FA1 : decodesTo
    ([(0b01_010001_111001_000001_000000_010_000#32, .frcp ⟨1, 57, 1, 2⟩),
      (0b00_010001_111101_111111_000000_000_001#32, .frsq ⟨0, 61, 63, 0⟩),
      (0b11_010001_000001_000100_000000_111_010#32, .fsqrt ⟨3, 1, 4, 7⟩),
      (0b10_010001_000101_001001_000000_101_011#32, .fexp2 ⟨2, 5, 9, 5⟩),
      (0b01_010001_000010_000111_000000_100_100#32, .flog2 ⟨1, 2, 7, 4⟩),
      (0b00_010001_000110_001100_000000_010_101#32, .fsin ⟨0, 6, 12, 2⟩),
      (0b11_010001_001010_010001_000000_000_110#32, .fcos ⟨3, 10, 17, 0⟩),
      (0b10_010001_001110_010110_000000_111_111#32, .ftanh ⟨2, 14, 22, 7⟩)] : List (Word × Instr)) = true := by decide +kernel

theorem test_decode_FCMP : decodesTo
    ([(0b01_010010_010010_010100_011101_111_000#32, .fcmpEq ⟨1, 18, 20, 29, 7⟩),
      (0b00_010010_010110_011001_011100_110_001#32, .fcmpNe ⟨0, 22, 25, 28, 6⟩),
      (0b11_010010_011010_011110_100010_110_010#32, .fcmpLt ⟨3, 26, 30, 34, 6⟩),
      (0b10_010010_010111_011100_100001_110_011#32, .fcmpLe ⟨2, 23, 28, 33, 6⟩),
      (0b01_010010_011011_100001_100111_101_100#32, .fcmpUn ⟨1, 27, 33, 39, 5⟩),
      (0b00_010010_011111_100110_101101_101_101#32, .fcmpOrd ⟨0, 31, 38, 45, 5⟩),
      (0b11_010010_100011_101011_000000_100_110#32, .fcmpCls ⟨3, 35, 43, 4⟩)] : List (Word × Instr)) = true := by decide +kernel

theorem test_decode_FFMA_FFMS_FDOT_CVT : decodesTo
    ([(0b10_010011_100111_101001_110010_110100#32, .ffma ⟨2, 39, 41, 50, 52⟩),
      (0b01_010100_101011_101110_110001_111011#32, .ffms ⟨1, 43, 46, 49, 59⟩),
      (0b00_010101_101111_110011_110111_111011#32, .fdot ⟨0, 47, 51, 55, 59⟩),
      (0b11_010110_101100_110001_0_10010_011_011#32, .cvt ⟨3, 44, 49, 18, 3, 3⟩)] : List (Word × Instr)) = true := by decide +kernel

theorem test_decode_PKX : decodesTo
    ([(0b10_010111_110000_110110_111100_010_000#32, .pack2 ⟨2, 48, 54, 60, 2⟩),
      (0b01_010111_110100_111011_000010_010_001#32, .pack4 ⟨1, 52, 59, 2, 2⟩),
      (0b00_010111_111000_000000_000000_001_010#32, .unpkl ⟨0, 56, 0, 1⟩),
      (0b11_010111_111100_111110_000000_111_011#32, .unpkh ⟨3, 60, 62, 7⟩),
      (0b10_010111_000000_000011_000110_000_100#32, .packn ⟨2, 0, 3, 6, 0⟩),
      (0b01_010111_000100_001000_001100_000_101#32, .unpkn ⟨1, 4, 8, 12, 0⟩),
      (0b00_010111_000001_000110_000000_011_110#32, .pk6 ⟨0, 1, 6, 3⟩),
      (0b11_010111_000101_001011_0_10001_111_111#32, .upk6 ⟨3, 5, 11, 17, 7⟩)] : List (Word × Instr)) = true := by decide +kernel

theorem test_decode_MXQ : decodesTo
    ([(0b10_011000_001001_010000_0_10111_111_000#32, .mxq ⟨2, 9, 16, 23, 7⟩),
      (0b01_011000_001101_010101_000000_110_001#32, .mxdq ⟨1, 13, 21, 6⟩),
      (0b00_011000_010001_010011_0_11100_110_010#32, .mxsc ⟨0, 17, 19, 28, 6⟩)] : List (Word × Instr)) = true := by decide +kernel

theorem test_decode_KOP : decodesTo
    ([(0b11_011010_010101_011000_011011_101_000#32, .kand ⟨3, 21, 24, 27, 5⟩),
      (0b10_011010_011001_011101_100001_101_001#32, .kor ⟨2, 25, 29, 33, 5⟩),
      (0b01_011010_010110_011011_100000_101_010#32, .kxor ⟨1, 22, 27, 32, 5⟩),
      (0b00_011010_011010_100000_100110_100_011#32, .kandn ⟨0, 26, 32, 38, 4⟩),
      (0b11_011010_011110_100101_000000_100_100#32, .knot ⟨3, 30, 37, 4⟩),
      (0b10_011010_100010_101010_000000_011_101#32, .kmov ⟨2, 34, 42, 3⟩),
      (0b01_011010_100110_101000_000000_001_110#32, .kpop ⟨1, 38, 40, 1⟩),
      (0b00_011010_101010_101101_000000_000_111#32, .kffs ⟨0, 42, 45, 0⟩)] : List (Word × Instr)) = true := by decide +kernel

theorem test_decode_VOTE : decodesTo
    ([(0b11_011011_101110_110010_000000_110_000#32, .bal ⟨3, 46, 50, 6⟩),
      (0b10_011011_101011_110000_110101_010_001#32, .ktov ⟨2, 43, 48, 53, 2⟩),
      (0b01_011011_101111_110101_000000_011_010#32, .kfroms ⟨1, 47, 53, 3⟩),
      (0b00_011011_110011_111010_000000_001_011#32, .ktos ⟨0, 51, 58, 1⟩)] : List (Word × Instr)) = true := by decide +kernel

theorem test_decode_SALU : decodesTo
    ([(0b11_011100_110111_111111_000000_000000#32, .sadd ⟨3, 55, 63, 0⟩),
      (0b10_011100_111011_111101_000110_000001#32, .ssub ⟨2, 59, 61, 6⟩),
      (0b01_011100_111111_000010_000101_000010#32, .smul ⟨1, 63, 2, 5⟩),
      (0b00_011100_000011_000111_001011_000011#32, .sand ⟨0, 3, 7, 11⟩),
      (0b11_011100_000000_000101_001010_000100#32, .sor ⟨3, 0, 5, 10⟩),
      (0b10_011100_000100_001010_010000_000101#32, .sxor ⟨2, 4, 10, 16⟩),
      (0b01_011100_001000_001111_010110_000110#32, .sshl ⟨1, 8, 15, 22⟩),
      (0b00_011100_001100_010100_010101_000111#32, .sshr ⟨0, 12, 20, 21⟩)] : List (Word × Instr)) = true := by decide +kernel

theorem test_decode_SADDI : decodesTo
    ([(0b11_011101_010000_010010_001001000100#32, .saddi ⟨3, 16, 18, 580⟩)] : List (Word × Instr)) = true := by decide +kernel

theorem test_decode_SMOVI_SLUI : decodesTo
    ([(0b10_011110_0_10100_111010111011110000#32, .smovi ⟨2, 20, 241392⟩),
      (0b01_011110_1_11000_111100011100011001#32, .slui ⟨1, 24, 247577⟩)] : List (Word × Instr)) = true := by decide +kernel

theorem test_decode_SCMP : decodesTo
    ([(0b00_011111_010101_011010_011111_000000#32, .scmpEq ⟨0, 21, 26, 31⟩),
      (0b11_011111_011001_011111_100101_000001#32, .scmpNe ⟨3, 25, 31, 37⟩),
      (0b10_011111_011101_100100_101011_000010#32, .scmpLt ⟨2, 29, 36, 43⟩),
      (0b01_011111_100001_101001_101010_000011#32, .scmpLe ⟨1, 33, 41, 42⟩),
      (0b00_011111_100101_100111_110000_000100#32, .scmpUlt ⟨0, 37, 39, 48⟩),
      (0b11_011111_101001_101100_101111_000101#32, .scmpUle ⟨3, 41, 44, 47⟩),
      (0b10_011111_101101_110001_110101_000110#32, .scmpTst ⟨2, 45, 49, 53⟩),
      (0b01_011111_101010_101111_110100_000111#32, .scmpNtst ⟨1, 42, 47, 52⟩)] : List (Word × Instr)) = true := by decide +kernel

theorem test_decode_LD_ST_MXLD_MXST : decodesTo
    ([(0b00_100000_101110_110100_10_0000_000110#32, .ld ⟨0, 46, 52, 2, 0, 6⟩),
      (0b11_100001_110010_111001_00_0000_000111#32, .st ⟨3, 50, 57, 0, 0, 7⟩),
      (0b10_100010_110110_111110_11_0111_001000#32, .mxld ⟨2, 54, 62, 3, 7, 8⟩),
      (0b01_100011_111010_111100_01_0111_010000#32, .mxst ⟨1, 58, 60, 1, 7, 16⟩)] : List (Word × Instr)) = true := by decide +kernel

theorem test_decode_ATOM : decodesTo
    ([(0b00_100100_111110_000001_000100_10_0000#32, .atomAdd ⟨0, 62, 1, 4, 2⟩),
      (0b11_100100_000010_000110_001010_10_0001#32, .atomSub ⟨3, 2, 6, 10, 2⟩),
      (0b10_100100_111111_000100_001001_10_0010#32, .atomMin ⟨2, 63, 4, 9, 2⟩),
      (0b01_100100_000011_001001_001111_01_0011#32, .atomMax ⟨1, 3, 9, 15, 1⟩),
      (0b00_100100_000111_001110_010101_01_0100#32, .atomUmin ⟨0, 7, 14, 21, 1⟩),
      (0b11_100100_001011_010011_010100_00_0101#32, .atomUmax ⟨3, 11, 19, 20, 0⟩),
      (0b10_100100_001111_010001_011010_00_0110#32, .atomAnd ⟨2, 15, 17, 26, 0⟩),
      (0b01_100100_010011_010110_011001_11_0111#32, .atomOr ⟨1, 19, 22, 25, 3⟩),
      (0b00_100100_010111_011011_011111_11_1000#32, .atomXor ⟨0, 23, 27, 31, 3⟩),
      (0b11_100100_010100_011001_011110_11_1001#32, .atomXchg ⟨3, 20, 25, 30, 3⟩),
      (0b10_100100_011000_011110_100100_10_1010#32, .atomCas ⟨2, 24, 30, 36, 2⟩),
      (0b01_100100_011100_100011_101010_10_1011#32, .atomIncw ⟨1, 28, 35, 42, 2⟩),
      (0b00_100100_100000_101000_101001_01_1100#32, .atomDecw ⟨0, 32, 40, 41, 1⟩),
      (0b11_100100_100100_100110_101111_01_1101#32, .atomFadd ⟨3, 36, 38, 47, 1⟩),
      (0b10_100100_101000_101011_000000_10_1110#32, .atomAld ⟨2, 40, 43, 2⟩),
      (0b01_100100_000000_101100_110000_00_1111#32, .atomAst ⟨1, 44, 48, 0⟩)] : List (Word × Instr)) = true := by decide +kernel

theorem test_decode_ATOM64 : decodesTo
    ([(0b00_100101_101001_101110_110011_00_0000#32, .atom64Add ⟨0, 41, 46, 51, 0⟩),
      (0b11_100101_101101_110011_111001_11_0001#32, .atom64Sub ⟨3, 45, 51, 57, 3⟩),
      (0b10_100101_110001_111000_111111_11_0010#32, .atom64Min ⟨2, 49, 56, 63, 3⟩),
      (0b01_100101_110101_111101_111110_10_0011#32, .atom64Max ⟨1, 53, 61, 62, 2⟩),
      (0b00_100101_111001_111011_000100_10_0100#32, .atom64Umin ⟨0, 57, 59, 4, 2⟩),
      (0b11_100101_111101_000000_000011_01_0101#32, .atom64Umax ⟨3, 61, 0, 3, 1⟩),
      (0b10_100101_000001_000101_001001_01_0110#32, .atom64And ⟨2, 1, 5, 9, 1⟩),
      (0b01_100101_111110_000011_001000_01_0111#32, .atom64Or ⟨1, 62, 3, 8, 1⟩),
      (0b00_100101_000010_001000_001110_00_1000#32, .atom64Xor ⟨0, 2, 8, 14, 0⟩),
      (0b11_100101_000110_001101_010100_00_1001#32, .atom64Xchg ⟨3, 6, 13, 20, 0⟩),
      (0b10_100101_001010_010010_010011_11_1010#32, .atom64Cas ⟨2, 10, 18, 19, 3⟩),
      (0b01_100101_001110_010000_011001_11_1011#32, .atom64Incw ⟨1, 14, 16, 25, 3⟩),
      (0b00_100101_010010_010101_011000_10_1100#32, .atom64Decw ⟨0, 18, 21, 24, 2⟩),
      (0b11_100101_010110_011010_011110_10_1101#32, .atom64Fadd ⟨3, 22, 26, 30, 2⟩),
      (0b10_100101_010011_011000_000000_01_1110#32, .atom64Ald ⟨2, 19, 24, 1⟩),
      (0b01_100101_000000_010111_011101_11_1111#32, .atom64Ast ⟨1, 23, 29, 3⟩)] : List (Word × Instr)) = true := by decide +kernel

theorem test_decode_FENCE : decodesTo
    ([(0b00_100110_1011_0010_01_00000000000000#32, .fenceOrd ⟨0, 11, 2, 1⟩),
      (0b11_100110_1111_0111_00_00110_101000000#32, .fenceRel ⟨3, 15, 7, 0, 6⟩),
      (0b10_100110_0011_0101_10_00110_110000000#32, .fenceAcq ⟨2, 3, 5, 2, 6⟩),
      (0b01_100110_0111_1010_01_00110_111000000#32, .fenceBoth ⟨1, 7, 10, 1, 6⟩),
      (0b00_100110_1011_1111_11_00000011000000#32, .fenceFull ⟨0, 11, 15, 3⟩)] : List (Word × Instr)) = true := by decide +kernel

theorem test_decode_BIND : decodesTo
    ([(0b11_100111_01000_01101_10010_10111_0000#32, .bind ⟨3, 8, 13, 18, 23⟩),
      (0b10_100111_01100_10010_00000_11000_0001#32, .unbind ⟨2, 12, 18, 24⟩)] : List (Word × Instr)) = true := by decide +kernel

theorem test_decode_LOCK : decodesTo
    ([(0b01_101000_110000_110111_111110_10_0000#32, .lkr ⟨1, 48, 55, 62, 2⟩),
      (0b00_101000_110100_111100_111101_01_0001#32, .lkw ⟨0, 52, 60, 61, 1⟩),
      (0b11_101000_111000_111010_000000_11_0010#32, .ulr ⟨3, 56, 58, 3⟩),
      (0b10_101000_111100_111111_000000_10_0011#32, .ulw ⟨2, 60, 63, 2⟩),
      (0b01_101000_000000_000000_000100_00_0100#32, .lkinit ⟨1, 0, 4, 0⟩)] : List (Word × Instr)) = true := by decide +kernel

theorem test_decode_SUB : decodesTo
    ([(0b00_101001_11101_00010_00111_01100_0000#32, .sld ⟨0, 29, 2, 7, 12⟩),
      (0b11_101001_00001_00111_01101_10011_0001#32, .slwait ⟨3, 1, 7, 13, 19⟩),
      (0b10_101001_00101_01100_00000000000010#32, .slack ⟨2, 5, 12⟩),
      (0b01_101001_01001_0000000000_10001_0011#32, .usub ⟨1, 9, 17⟩)] : List (Word × Instr)) = true := by decide +kernel

theorem test_decode_COPY : decodesTo
    ([(0b00_101010_01101_01111_11000_11010_0000#32, .cpy ⟨0, 13, 15, 24, 26⟩),
      (0b11_101010_10001_0000000000_10100_0001#32, .cpy2d ⟨3, 17, 20⟩),
      (0b10_101010_10101_11001_11101_00001_0010#32, .gth ⟨2, 21, 25, 29, 1⟩),
      (0b01_101010_10010_10111_11100_00001_0011#32, .sct ⟨1, 18, 23, 28, 1⟩),
      (0b00_101010_10110_11100_00010_01000_0100#32, .cpyt ⟨0, 22, 28, 2, 8⟩),
      (0b11_101010_11010_0000000000_00001_0101#32, .kvl ⟨3, 26, 1⟩),
      (0b10_101010_11110_0000000000_00110_0110#32, .coll ⟨2, 30, 6⟩)] : List (Word × Instr)) = true := by decide +kernel

theorem test_decode_TAG : decodesTo
    ([(0b01_101011_00010_00100_01101_01111_0000#32, .wtany ⟨1, 2, 4, 13, 15⟩),
      (0b00_101011_00110_01001_01100_10110_0001#32, .wtall ⟨0, 6, 9, 12, 22⟩),
      (0b11_101011_01010_01110_10010_10110_0010#32, .ffrdy ⟨3, 10, 14, 18, 22⟩),
      (0b10_101011_00111_01100_10001_10110_0011#32, .tagclr ⟨2, 7, 12, 17, 22⟩),
      (0b01_101011_01011_10001_10111_11101_0100#32, .tagrd ⟨1, 11, 17, 23, 29⟩)] : List (Word × Instr)) = true := by decide +kernel

theorem test_decode_TB : decodesTo
    ([(0b00_101100_01111_10110_0000_1_000000000#32, .tbinit ⟨0, 15, 22, 1⟩),
      (0b11_101100_10011_11011_0000_0_000000001#32, .tbarv ⟨3, 19, 27, 0⟩),
      (0b10_101100_10111_11001_0000_0_000000010#32, .tbexp ⟨2, 23, 25, 0⟩),
      (0b01_101100_11011_11110_00000000000011#32, .tbwait ⟨1, 27, 30⟩),
      (0b00_101100_11111_00011_00111_01011_0100#32, .tbtry ⟨0, 31, 3, 7, 11⟩),
      (0b11_101100_11100_000000000_1_00110_0101#32, .tbrd ⟨3, 28, 1, 6⟩)] : List (Word × Instr)) = true := by decide +kernel

theorem test_decode_BAR : decodesTo
    ([(0b10_101101_0000000000_00000_000000000#32, .bar ⟨2, 0⟩),
      (0b01_101101_000000000000000000000001#32, .cbar ⟨1⟩),
      (0b00_101101_0000000000_01000_000000010#32, .bararv ⟨0, 8⟩),
      (0b11_101101_000000000100000000000010#32, .bararvC ⟨3⟩),
      (0b10_101101_10000_10011_10110_00000_0011#32, .tryw ⟨2, 16, 19, 22, 0⟩),
      (0b01_101101_10100_0000000000000000100#32, .join ⟨1, 20⟩),
      (0b00_101101_10001_0000000000000000101#32, .leave ⟨0, 17⟩),
      (0b11_101101_10101_0000000000000000110#32, .waitk ⟨3, 21⟩)] : List (Word × Instr)) = true := by decide +kernel

theorem test_decode_AP : decodesTo
    ([(0b10_101110_11001_00000_00000_00111_0000#32, .aprun ⟨2, 25, 0, 7⟩),
      (0b01_101110_11101_00101_00000000000001#32, .aqe ⟨1, 29, 5⟩),
      (0b00_101110_000000000000000000000010#32, .aqend ⟨0⟩),
      (0b11_101110_00101_0000000000000000011#32, .apstop ⟨3, 5⟩)] : List (Word × Instr)) = true := by decide +kernel

theorem test_decode_AQPOP_MMA_MMAC : decodesTo
    ([(0b10_101111_101001_00000000_1101_0000_01#32, .aqpop ⟨2, 41, 13, 1⟩),
      (0b01_110000_00110_1011_110000_1_11010_100#32, .mma ⟨1, 6, 11, 48, 1, 26, 4⟩),
      (0b00_110001_01010_0000_110110_0_00010_100#32, .mmac ⟨0, 10, 0, 54, 0, 2, 4⟩)] : List (Word × Instr)) = true := by decide +kernel

theorem test_decode_MT : decodesTo
    ([(0b11_110010_01110_0000000000_10101_0000#32, .mtile ⟨3, 14, 21⟩),
      (0b10_110010_10010_0000000000_11010_0001#32, .mtilex ⟨2, 18, 26⟩),
      (0b01_110010_10110_0000000000_11000_0010#32, .mzclr ⟨1, 22, 24⟩),
      (0b00_110010_11010_0000000000_11101_0011#32, .mzld ⟨0, 26, 29⟩),
      (0b11_110010_11110_0000000000_00010_0100#32, .mzst ⟨3, 30, 2⟩),
      (0b10_110010_11011_0000000000_00000_0101#32, .mzscl ⟨2, 27, 0⟩)] : List (Word × Instr)) = true := by decide +kernel

theorem test_decode_ATTN : decodesTo
    ([(0b01_110011_11111_0000000000_00101_0000#32, .att ⟨1, 31, 5⟩),
      (0b00_110011_00011_0000000000_01010_0001#32, .attfin ⟨0, 3, 10⟩),
      (0b11_110011_00111_01111_10000_11000_0010#32, .sigf ⟨3, 7, 15, 16, 24⟩),
      (0b10_110011_01011_01101_00000_10110_0011#32, .sigmk ⟨2, 11, 13, 22⟩)] : List (Word × Instr)) = true := by decide +kernel

theorem test_decode_CV : decodesTo
    ([(0b01_110100_01111_10010_00000000000000#32, .cvset ⟨1, 15, 18⟩),
      (0b00_110100_10011_0000000000000000001#32, .cvclr ⟨0, 19⟩)] : List (Word × Instr)) = true := by decide +kernel

theorem test_decode_BRA_CALL : decodesTo
    ([(0b11_111000_0_0111_0_011101111111011000#32, .bra ⟨3, 0, 7, 0, 122840⟩),
      (0b10_111001_0_0111_0_100000000110101011#32, .call ⟨2, 0, 7, 0, 131499⟩)] : List (Word × Instr)) = true := by decide +kernel

theorem test_decode_JX : decodesTo
    ([(0b01_111010_000000_011000_000000_111_000#32, .brx ⟨1, 24, 7⟩),
      (0b00_111010_000000_011100_000000_100_001#32, .callx ⟨0, 28, 4⟩),
      (0b11_111010_000000000000000000_000_010#32, .ret ⟨3, 0⟩)] : List (Word × Instr)) = true := by decide +kernel

theorem test_decode_CTL : decodesTo
    ([(0b10_111011_000000000000000000000000#32, .exit ⟨2⟩),
      (0b01_111011_000000000000000000000001#32, .yield ⟨1⟩),
      (0b00_111011_00000_00101_01010_000000010#32, .brk ⟨0, 5, 10⟩),
      (0b11_111011_00000_01001_01111_000000011#32, .trap ⟨3, 9, 15⟩),
      (0b10_111011_000000000000000000000100#32, .nop ⟨2⟩),
      (0b01_111011_10001_0000000000000000101#32, .rref ⟨1, 17⟩),
      (0b00_111011_10101_00000_10111_000000110#32, .bget ⟨0, 21, 23⟩),
      (0b11_111011_11001_11100_11111_01001_0111#32, .enqr ⟨3, 25, 28, 31, 9⟩),
      (0b10_111011_000000000000000000001000#32, .tretRetry ⟨2⟩),
      (0b01_111011_000010000000000000001000#32, .tretCont ⟨1⟩),
      (0b00_111011_000100000000000000001000#32, .tretResume ⟨0⟩)] : List (Word × Instr)) = true := by decide +kernel

theorem test_decode_CSR : decodesTo
    ([(0b11_111100_00010_01001_10000_000000000#32, .csrr ⟨3, 2, 9, 16⟩),
      (0b10_111100_00110_01110_01111_000000001#32, .csrw ⟨2, 6, 14, 15⟩),
      (0b01_111100_01010_01100_10101_000000010#32, .csrs ⟨1, 10, 12, 21⟩),
      (0b00_111100_01110_10001_10100_000000011#32, .csrc ⟨0, 14, 17, 20⟩)] : List (Word × Instr)) = true := by decide +kernel

theorem test_decode_SYS : decodesTo
    ([(0b11_111101_10010_10110_11010_000000000#32, .rcas ⟨3, 18, 22, 26⟩),
      (0b10_111101_01111_10100_11001_000000001#32, .rsnap ⟨2, 15, 20, 25⟩),
      (0b01_111101_00000_10011_00000_11001_0010#32, .ndrop ⟨1, 19, 25⟩),
      (0b00_111101_10111_11110_00000000000011#32, .rpinq ⟨0, 23, 30⟩),
      (0b11_111101_11011_00011_00100_000000100#32, .smove ⟨3, 27, 3, 4⟩),
      (0b10_111101_11111_00001_00000000000101#32, .rfree ⟨2, 31, 1⟩)] : List (Word × Instr)) = true := by decide +kernel

/-! ### Single steps: results worked out by hand from the rules named -/

/-- The state after the loaded block's gang, changed by `f` and its block by `g`, has run the word that encodes `i`. -/
noncomputable def stepOf (i : Instr) (f : Gang → Gang) (g : Block → Block) : Host.Outcome State Fault Refusal :=
  step (((loadWord ((encodeWord i).getD 0) State.reset).modGang 1 0 f).modBlock 1 g)

noncomputable def runs (i : Instr) (f : Gang → Gang) (p : Gang → Bool) : Bool :=
  answers (stepOf i f id) fun t => gangIs t fun _ y => p y

/-- R149: the sum wraps; I32 is the tag of I32 and RAW. -/
theorem test_iadd_wraps : runs (.iadd ⟨0, 3, 1, 2, 0⟩) (fun y => vreg 1 (fun _ => 0xFFFFFFFF) tI32 (vreg 2 (fun l => BitVec.ofNat 32 l) tRAW y))
    (fun y => (y.getV 3)[0] = 0xFFFFFFFF && (y.getV 3)[1] = 0 && (y.getV 3)[31] = 30 && (y.getT 3)[31] = tI32 && (y.getV 2)[5] = 5) = true := by
  decide +kernel

/-- R149: four 8-bit sums, none carrying into the next; only the lanes of K1 are written. -/
theorem test_iadd_packed : runs (.iadd ⟨0, 3, 1, 2, 1⟩)
    (fun y => kreg 1 2 (vreg 1 (fun _ => 0x7F0180FF) tI8X4 (vreg 2 (fun _ => 0x01FF8001) tI8X4 y)))
    (fun y => (y.getV 3)[1] = 0x80000000 && (y.getT 3)[1] = tI8X4 && (y.getV 3)[0] = 0) = true := by
  decide +kernel

/-- R149: the destination is also the second source. -/
theorem test_isub_source_is_destination : runs (.isub ⟨0, 1, 2, 1, 0⟩) (fun y => vreg 1 (fun _ => 5) tI32 (vreg 2 (fun _ => 3) tI32 y))
    (fun y => (y.getV 1)[7] = 0xFFFFFFFE) = true := by
  decide +kernel

/-- R149: the high half of -1 times -1 is 0, unsigned 0xFFFFFFFE. -/
theorem test_imulh_signs :
    runs (.imulh ⟨0, 3, 1, 1, 0⟩) (vreg 1 (fun _ => 0xFFFFFFFF) tI32) (fun y => (y.getV 3)[0] = 0) = true ∧
    runs (.imulhu ⟨0, 3, 1, 1, 0⟩) (vreg 1 (fun _ => 0xFFFFFFFF) tI32) (fun y => (y.getV 3)[0] = 0xFFFFFFFE) = true := by
  decide +kernel

/-- R150: an amount of 33 shifts by one. -/
theorem test_shift_amount : runs (.sar ⟨0, 3, 1, 2, 0⟩) (fun y => vreg 1 (fun _ => 0x80000002) tI32 (vreg 2 (fun _ => 33) tU32 y))
    (fun y => (y.getV 3)[0] = 0xC0000001) = true := by
  decide +kernel

/-- R153, R65: a lane that is not live keeps its register. -/
theorem test_movi_live_lanes : runs (.movi ⟨0, 3, 0x3FFFF⟩) (fun y => { y with k := y.k.set 0 0x7FFFFFFF })
    (fun y => (y.getV 3)[30] = 0xFFFFFFFF && (y.getT 3)[30] = tI32 && (y.getV 3)[31] = 0) = true := by
  decide +kernel

/-- R105: a write to S0 is discarded. -/
theorem test_smovi_s0 : runs (.smovi ⟨0, 0, 7⟩) id (fun y => y.getS 0 = 0) = true ∧ runs (.smovi ⟨0, 31, 7⟩) id (fun y => y.getS 31 = 7) = true := by
  decide +kernel

/-- R152: the bits of lanes outside the issue set stay. -/
theorem test_icmpi_signed : runs (.icmpiLt ⟨0, 2, 1, 0x1FF⟩) (fun y => vreg 1 (fun l => if l = 3 then 0x80000000 else 1) tI32 (kreg 2 every y))
    (fun y => y.getK 2 = 8) = true := by
  decide +kernel

/-- R154, R135, R138: 1.5 + 2.25 is 3.75 and exact; 1.0 + 2^-25 rounds to 1.0 and sets NX. -/
theorem test_fadd_rounds :
    runs (.fadd ⟨0, 3, 1, 2, 0⟩) (fun y => vreg 1 (fun _ => 0x3FC00000) tF32 (vreg 2 (fun _ => 0x40100000) tF32 y))
      (fun y => (y.getV 3)[0] = 0x40700000 && y.fflags = 0) = true ∧
    runs (.fadd ⟨0, 3, 1, 2, 0⟩) (fun y => vreg 1 (fun _ => 0x3F800000) tF32 (vreg 2 (fun _ => 0x33000000) tF32 y))
      (fun y => (y.getV 3)[0] = 0x3F800000 && y.fflags = 1) = true := by
  decide +kernel

/-- R159: 1.0 converted to BF16x2 is 0x3F80 in element 0. -/
theorem test_cvt_bf16 : runs (.cvt ⟨0, 3, 1, 7, 0, 0⟩) (vreg 1 (fun _ => 0x3F800000) tF32)
    (fun y => (y.getV 3)[0] &&& 0xFFFF = 0x3F80 && (y.getT 3)[0] = tBF16X2) = true := by
  decide +kernel

/-- R162: a lane takes the value of its partner. -/
theorem test_shflx_partner : runs (.shflx ⟨0, 3, 1, 2, 0⟩) (fun y => vreg 1 (fun l => BitVec.ofNat 32 l) tU32 (vreg 2 (fun _ => 31) tU32 y))
    (fun y => (y.getV 3)[0] = 31 && (y.getV 3)[31] = 0) = true := by
  decide +kernel

/-- R165: the vote has a bit for each lane that is not zero; R164: KPOP counts. -/
theorem test_votes :
    runs (.bal ⟨0, 2, 1, 0⟩) (vreg 1 (fun l => if l = 4 then 9 else 0) tU32) (fun y => y.getK 2 = 16) = true ∧
    runs (.kpop ⟨0, 3, 2, 0⟩) (kreg 2 0xF0000001) (fun y => (y.getV 3)[9] = 5) = true := by
  decide +kernel

/-- R168, R169: the target is the header's address plus four times the offset; the lanes outside the mask fall through. -/
theorem test_bra_targets : runs (.bra ⟨0, 0, 1, 0, 0x3FFFF⟩) (kreg 1 1)
    (fun y => (y.lane 0).pc = 0x1FFFC && (y.lane 1).pc = 0x20008 && (y.lane 0).tpar = 0x20004) = true := by
  decide +kernel

/-- R172: CALL pushes the address after its clause. -/
theorem test_call_pushes : runs (.call ⟨0, 0, 12, 0, 4⟩) id
    (fun y => (y.lane 31).pc = 0x20010 && (y.lane 31).dep = 1 && (y.lane 31).stack = [0x20008]) = true := by
  decide +kernel

/-- R100, R101: a load changes no register yet and joins the gang's pending words. -/
theorem test_ld_goes_pending : runs (.ld ⟨0, 3, 1, 0, 6, 1⟩) (vreg 1 (fun l => BitVec.ofNat 32 (4 * l)) tU32)
    (fun y => (y.getV 3)[0] = 0 && (y.pends.map fun p => p.accs.map fun a => (a.lane, a.loc, a.size)) =
      [(List.range 32).map fun l => (l, .loc 1 (4 * l + 4), 4)]) = true := by
  decide +kernel

/-- R234: a store's bytes are its register's, lowest byte first, and local memory is as before. -/
theorem test_st_goes_pending : answers (stepOf (.st ⟨0, 3, 1, 0, 2, 0⟩) (fun y => { vreg 3 (fun _ => 0x11223344) tU32 y with k := y.k.set 0 1 }) id)
    (fun t => t.readByte (.loc 1 0) = 0 && gangIs t fun _ y => (y.pends.map fun p => p.accs.map (·.data)) = [[[0x44, 0x33]]]) = true := by
  decide +kernel

/-- R194: an address that is not a multiple of the access takes ALIGN at the word, in the handler. -/
theorem test_ld_misaligned : answers (stepOf (.ld ⟨0, 3, 1, 0, 6, 0⟩) (vreg 1 (fun l => if l = 2 then 6 else 0) tU32)
    fun x => { x with lrec := { x.lrec with handler := 0x30000 } })
    (fun t => gangIs t fun _ y => y.trap.tcause = 5 && y.trap.tpc = 0x20004 && y.trap.tval = 6 && y.trap.tmask = every
      && (y.lane 0).pc = 0x30000 && y.pends = []) = true := by
  decide +kernel

/-- R178: the code of TRAP is b times 32 plus c. -/
theorem test_trap_code : answers (stepOf (.trap ⟨0, 1, 2⟩) id fun x => { x with lrec := { x.lrec with handler := 0x30000 } })
    (fun t => gangIs t fun _ y => y.trap.tcause = 0x12 && y.trap.tval = 34 && (y.lane 5).pc = 0x30000) = true := by
  decide +kernel

/-- R177: EXIT ends its lanes. -/
theorem test_exit_ends : runs (.exit ⟨0⟩) (fun y => y.mapLanes 2 fun _ l => { l with wait := .bar 0 0 }) (fun y => y.live = 2) = true := by
  decide +kernel

/-- R275: the last lanes to arrive end the phase. -/
theorem test_bar_ends_its_phase : answers (stepOf (.bar ⟨0, 7⟩) id id)
    (fun t => blockIs t (fun x => (x.bar 7).phase = 1) && gangIs t fun _ y => y.awake = every) = true := by
  decide +kernel

/-- R352: a system word in user mode takes PRIV, with the word as TVAL. -/
theorem test_priv : answers (stepOf (.rfree ⟨0, 1, 2⟩) id fun x => { x with sys := false, lrec := { x.lrec with handler := 0x30000 } })
    (fun t => gangIs t fun _ y => y.trap.tcause = 2 && y.trap.tval = (((encodeWord (.rfree ⟨0, 1, 2⟩)).getD 0).setWidth 64)) = true := by
  decide +kernel

/-- R82: RCAS with another slot than the current one fails with it: status 1, slot 0. -/
theorem test_rcas_fails : runs (.rcas ⟨0, 4, 1, 2⟩) (fun y => sreg 1 0x00050000 (sreg 3 0x80000000 y)) (fun y => y.getS 4 = 0x10000000) = true := by
  decide +kernel

/-- R110: CSRW and CSRR of FEXC. -/
theorem test_csr : runs (.csrw ⟨0, 1, 0, 2⟩) (sreg 1 0x1F) (fun y => y.fexc = 0x1F) = true ∧
    runs (.csrr ⟨0, 1, 0, 2⟩) (fun y => { y with fexc := 0x15 }) (fun y => y.getS 1 = 0x15) = true := by
  decide +kernel

/-- R202: a copy's tag is busy until it ends, and it pins the block's slot. -/
theorem test_cpy_starts : answers (stepOf (.cpy ⟨0, 2, 4, 6, 7⟩) (fun y => sreg 3 0x7F000000 (sreg 4 0x40000 (sreg 6 32 (sreg 7 5 y)))) id)
    (fun t => blockIs t (fun x => (x.tag 5).busy && !(x.tag 5).done) && (t.root 0).pins = 2 && t.ops.length = 1) = true := by
  decide +kernel

/-- R136: under SR 127.25 is beyond I8's largest number and rounds as RNE, to 127 with NX; 127.75 saturates with NV; 126.25 takes its draw. -/
theorem test_sr_beyond_an_integer_tag :
    (Elem.int true 8).round .sr 0 false ⟨509, -2, false⟩ = ⟨127, flagNX⟩ ∧ (Elem.int true 8).round .sr 0xFFFF false ⟨511, -2, false⟩ = ⟨127, flagNV⟩ ∧
    (Elem.int true 8).round .sr 0 false ⟨505, -2, false⟩ = ⟨127, flagNX⟩ := by
  decide

/-- R360: a completion word waits for a store of a block of its entry that has ended, and is written once it is performed. -/
theorem test_completion_waits_for_writes :
    let e : Entry := { loadEntry 0 with fin := some 0x8000, done := 0x40000 }
    let s : State := entryAlone e
    let left : State := pending .store [oneAcc (.hbm 0x50000) 4]
    ([(left.blocks, 0), ([], 0x80)].all fun p => answers (exec .completionWrite { s with ended := p.1, input := .nat 0 }) fun t =>
      t.readByte (.hbm 0x40001) = p.2) = true := by
  decide +kernel

/-- R281: an SLD of a tun word beyond TSIZE raises ADDRESS before its misaligned base is looked at. -/
theorem test_sld_checks_the_word_first :
    gangIs loaded (fun x _ => (sldCheck loaded x 0x7F01FFFFFFFFFFF0 4 0 0x80000000).map (·.cause) = some Cause.address
      && (sldCheck loaded x 0x40000 4 0 0x80000000).map (·.cause) = some Cause.align) = true := by
  decide +kernel

/-- R26, R183: a record's place is one that no record of a launched block lies in, though later places have been freed. -/
theorem test_gather_finds_a_free_place :
    let h : Nat → Held := fun p => { place := p, at_ := 0, deadline := none }
    ({ theNode with held := [h 3], next := 4, launched := [(0, [h 0, h 1])] } : Node).freePlace 4 = 2 := by
  decide

/-- R4, R312: bits [7:6] of SWZ are reserved, whichever member reads the descriptor. -/
theorem test_swz_reserved_bits :
    (List.range 6).all (fun sub => tileBad sub ([0, 10, 10, 0x40, 1, 0, 1, 0] ++ List.replicate 56 0)) = true ∧
    tileBad 2 ([0, 10, 10, 0x3F, 1, 0, 1, 0] ++ List.replicate 56 0) = false := by
  decide

end Sys2Proof.Tests
end

section
/-! SUPPORT. The root registry: what a slot reads as after one is set, the two cases of RFREE (R90), and the statement on RFREE. -/

namespace Sys2Proof.Laws

open Sys2Proof.Machine

/-- A lookup under the key that was set. -/
@[simp] theorem find?_assocSet_self {α β : Type} [DecidableEq α] (l : List (α × β)) (a : α) (b : β) :
    (assocSet l a b).find? (fun p => p.1 = a) = some (a, b) :=
  List.find?_cons_of_pos (by simp)

/-- A lookup under another key than the one that was set. -/
theorem find?_assocSet_of_ne {α β : Type} [DecidableEq α] (l : List (α × β)) {a c : α} (b : β) (h : c ≠ a) :
    (assocSet l a b).find? (fun p => p.1 = c) = l.find? (fun p => p.1 = c) := by
  have hkept : ∀ p : α × β, (p.1 ≠ a ∧ p.1 = c) ↔ p.1 = c := fun p => and_iff_right_of_imp fun hp => hp ▸ h
  rw [assocSet, List.find?_cons_of_neg (by simpa using h.symm), List.find?_filter]
  simp [hkept]

@[simp] theorem root_setRoot_self (s : State) (n : Nat) (r : RootSlot) : (s.setRoot n r).root n = r := by
  simp [State.root, State.setRoot]

theorem root_setRoot_of_ne (s : State) {n m : Nat} (r : RootSlot) (h : m ≠ n) : (s.setRoot n r).root m = s.root m := by
  simp only [State.root, State.setRoot, find?_assocSet_of_ne _ _ h]

/-- Setting a slot to a record with its own GEN keeps every slot's GEN. -/
theorem gen_setRoot (s : State) {n : Nat} {r : RootSlot} (h : r.gen = (s.root n).gen) (m : Nat) :
    ((s.setRoot n r).root m).gen = (s.root m).gen := by
  by_cases hm : m = n
  · subst hm; rw [root_setRoot_self, h]
  · rw [root_setRoot_of_ne s r hm]

theorem rfree_of_unpinned (s : State) (slot : Nat) (hr : (s.root slot).state = 2) (hp : (s.root slot).pins = 0) :
    s.rfree slot = (s.setRoot slot { s.root slot with state := 0 }, 0xFFF) := by
  simp [State.rfree, hr, hp, resultWord]

theorem rfree_of_not_retired_or_pinned (s : State) (slot : Nat) (h : (s.root slot).state ≠ 2 ∨ (s.root slot).pins ≠ 0) :
    s.rfree slot = (s, 0x10000FFF) := by
  have hc : ¬ ((s.root slot).state = 2 ∧ (s.root slot).pins = 0) := by rwa [not_and_or]
  simp [State.rfree, hc, resultWord]

/-- R90: GEN changes only when a slot is next allocated, so RFREE keeps it in every slot. -/
theorem gen_rfree (s : State) (slot n : Nat) : ((s.rfree slot).1.root n).gen = (s.root n).gen := by
  by_cases h : (s.root slot).state = 2 ∧ (s.root slot).pins = 0
  · rw [rfree_of_unpinned s slot h.1 h.2]; exact gen_setRoot s (r := { s.root slot with state := 0 }) rfl n
  · rw [rfree_of_not_retired_or_pinned s slot (not_and_or.1 h)]

/-- Settles O39: by the two cases of RFREE, and GEN kept in each. -/
theorem rfreeFreesARetiredSlotWithoutPins : Obligations.RfreeFreesARetiredSlotWithoutPins := by
  unfold Obligations.RfreeFreesARetiredSlotWithoutPins
  intro s slot
  refine ⟨fun hr hp => ?_, rfree_of_not_retired_or_pinned s slot, gen_rfree s slot⟩
  rw [rfree_of_unpinned s slot hr hp]
  exact ⟨root_setRoot_self s slot _, rfl⟩

end Sys2Proof.Laws
end

section
/-! SUPPORT. A word whose effect changes nothing (R180): what its issue comes to, the entry that an issue charges (R43), and the statement
on NOP. -/

namespace Sys2Proof.Laws

open Sys2Proof.Machine

/-! ### A gang replaced by itself -/

theorem setBlock_eq_self {s : State} {x : Block} (h : ∀ u ∈ s.blocks, u.id = x.id → u = x) : s.setBlock x = s := by
  have hmap : s.blocks.map (fun u => if u.id = x.id then x else u) = s.blocks :=
    (List.map_congr_left fun u hu => ite_eq_right_iff.2 fun hx => (h u hu hx).symm).trans (List.map_id _)
  rw [State.setBlock, hmap]

/-- After a block is replaced, the new block is the only one with its number. -/
theorem eq_of_mem_setBlock {s : State} {x u : Block} (hu : u ∈ (s.setBlock x).blocks) (hx : u.id = x.id) : u = x := by
  obtain ⟨v, -, rfl⟩ := List.mem_map.1 hu
  by_cases hv : v.id = x.id
  · exact if_pos hv
  · rw [if_neg hv] at hx
    exact absurd hx hv

/-- Putting a gang where it stands already changes nothing, in a state whose blocks are those that its replacement there has left. -/
theorem modGang_id_of_setGang {s t : State} {b g : Nat} {x : Block} {y0 : Gang} (y : Gang) (hg : s.gang? b g = some (x, y0))
    (ht : t.blocks = (s.setGang b g y).blocks) : t.modGang b g id = t := by
  obtain ⟨hb, -, -⟩ := State.gang?_block hg
  have hset : s.setGang b g y = s.setBlock { x with gangs := x.gangs.set g y } := by simp [State.setGang, hb]
  have htb := (State.block?_of_fields ht b).trans (State.block?_setGang_self y hb)
  have htg := (State.gang?_of_fields ht b g).trans (State.gang?_setGang_self y hg)
  rw [State.modGang_eq id htg]
  simp only [State.setGang, htb, id, List.set_set]
  exact setBlock_eq_self fun u hu => eq_of_mem_setBlock (s := s) (by rwa [← hset, ← ht])

/-- The state that a word's effect is given holds the gang as taken up. -/
theorem clears_modGang_id {s : State} {i : Info} {c : Ctx} {z : State} (h : s.clears i = some (c, z)) : z.modGang c.b c.g id = z := by
  obtain ⟨_, y, _, hg, _, hz⟩ := State.clears_ctx h
  exact modGang_id_of_setGang (y.takeUp c.m c.pc c.hpc c.hdr) hg (by rw [hz])

/-! ### The entry of a charge -/

theorem entry?_id {s : State} {n : Nat} {e : Entry} (h : s.entry? n = some e) : e.id = n := by simpa using List.find?_some h

theorem entry?_charge {s : State} {n : Nat} {e : Entry} (cls k : Nat) (h : s.entry? n = some e) :
    (s.charge n cls k).entry? n = some (e.charge cls k) := by
  have hid := entry?_id h
  simp only [State.charge, h]
  unfold State.entry? State.setEntry at *
  generalize s.entries = l at h ⊢
  induction l with
  | nil => simp at h
  | cons u r ih =>
    by_cases hu : u.id = n
    · simp [hu, hid, Entry.charge]
    · simp only [List.find?_cons, hu, decide_false] at h
      simpa [Entry.charge, hid, hu] using ih h

/-- R43: the issue of a word charges its block's entry one issue unit beside what its effect has charged. -/
theorem issued_entry? {s : State} {i : Info} {c : Ctx} {z s2 : State} {e : Entry} (next : Bool) (h : s.clears i = some (c, z))
    (he : s2.entry? c.x.entry = some e) : (s.issued i c s2 next).entry? c.x.entry = some (e.charge 0 1) := by
  obtain ⟨_, y, _, hg, _⟩ := State.clears_ctx h
  simp only [State.issued, hg]
  rw [← entry?_charge 0 1 he]
  simp [State.entry?]

theorem clears_entry? {s : State} {i : Info} {c : Ctx} {z : State} (h : s.clears i = some (c, z)) (n : Nat) : z.entry? n = s.entry? n := by
  obtain ⟨_, y, _, _, _, rfl⟩ := State.clears_ctx h
  simp [State.entry?]

/-! ### The issue of a word without an effect -/

/-- A word whose effect leaves its state as given writes nothing. -/
theorem issued_writes_nil {s : State} {i : Info} {c : Ctx} {z : State} (next : Bool) (h : s.clears i = some (c, z)) :
    Writes s (s.issued i c z next) c [] 0 none := by
  have hi := State.issued_modGang h id next
  rw [clears_modGang_id h] at hi
  obtain ⟨⟨y, y', hy, hy', hr⟩, hm, hb, hd⟩ := hi
  have hx := State.clears_x h hy
  have ht := sameRegs_takeUp y c.m c.pc c.hpc c.hdr
  have hs : SameRegs { y with x := c.y.x } y' := hx ▸ ht.trans hr
  have hkept : GangKept y y' [] [] [] := { hs.kept with }
  obtain ⟨-, ⟨-, -, hcounters⟩, ⟨-, hflags, -, -, hnewx, -⟩, -⟩ := hs
  exact ⟨⟨y, y', hy, hy', by simp, by simpa using hkept, by simpa using hflags, hnewx, hcounters⟩, hm, hb, hd⟩

/-! ### NOP -/

/-- R98, R111: a word that fits every class and has nothing that rows 4 to 10 look at is stopped by none of them: it is no control transfer,
no word of address programs alone, no system word and no CSR word, its registers are in range, its latency is fixed and it has no side
effect. -/
theorem fate_eq_none_of_nop {i : Info} {x : Block} (hn : i.nop = true) (htransfer : i.transfer = false) (hap : i.apOnly = false)
    (hsys : i.sysWord = false) (hregs : i.regsOk x = true) (hcsr : i.csr = none) (hlat : i.varLat = false) (hside : i.sideEff = false)
    (s : State) (pc hpc : Va) (hdr w : Word) (nvl : Nat) : fate s i x pc hpc hdr w nvl = none := by
  simp [fate, hn, htransfer, hap, hsys, hregs, hcsr, hlat, hside]

theorem exec_nop_eq_issued {o : X0} {s : State} {c : Ctx} {z : State} (h : s.clears { cls := 4, stall := o.st, nop := true } = some (c, z)) :
    exec (.nop o) s = .next (s.issued { cls := 4, stall := o.st, nop := true } c z true) :=
  issueWord_done (eff := fun _ s => .done s true) h rfl

/-- Settles O50: NOP issues with the effect that changes nothing, its entry is charged as by every issue, and no fate stops it. -/
theorem nopDoesNothingAndStandsAnywhere : Obligations.NopDoesNothingAndStandsAnywhere := by
  unfold Obligations.NopDoesNothingAndStandsAnywhere
  intro o
  constructor
  · intro s c z e h he
    refine ⟨_, exec_nop_eq_issued h, issued_writes_nil true h, ?_⟩
    rw [entry?_id he]
    exact issued_entry? true h ((clears_entry? h _).trans he)
  · intro s x
    exact fate_eq_none_of_nop rfl rfl rfl rfl rfl rfl rfl rfl s

end Sys2Proof.Laws
end

section
/-! SUPPORT. The decoder and the encoder (R106 to R108): a word is an instruction's encoding exactly where its fields are the operands,
the major and the code; both directions of the round trip, and the words of the tables. -/

namespace Sys2Proof.Laws

open Sys2Proof

/-! ### The fields of an encoding -/

/-- The bits of `w` from bit `lo` up are `x`. -/
def Reads {k : Nat} (w : Word) (lo : Nat) (x : BitVec k) : Prop := fld w lo k = x

theorem reads_append {m n : Nat} (w : Word) (lo : Nat) (x : BitVec m) (y : BitVec n) :
    Reads w lo (x ++ y) ↔ Reads w (lo + n) x ∧ Reads w lo y := by
  have hsplit : fld w lo (m + n) = fld w (lo + n) m ++ fld w lo n :=
    (BitVec.extractLsb'_append_extractLsb'_eq_extractLsb' rfl).symm
  unfold Reads
  rw [hsplit]
  constructor
  · intro h
    have hx := congrArg (BitVec.extractLsb' n m) h
    have hy := congrArg (BitVec.extractLsb' 0 n) h
    rw [BitVec.extractLsb'_append_eq_of_le le_rfl, BitVec.extractLsb'_append_eq_of_le le_rfl] at hx
    rw [BitVec.extractLsb'_append_eq_of_add_le (by omega), BitVec.extractLsb'_append_eq_of_add_le (by omega)] at hy
    simp only [Nat.sub_self, BitVec.extractLsb'_eq_self] at hx hy
    exact ⟨hx, hy⟩
  · rintro ⟨rfl, rfl⟩; rfl

theorem some_eq_some_iff_reads (x w : Word) : some x = some w ↔ Reads w 0 x := by
  have hwhole : fld w 0 32 = w := BitVec.extractLsb'_eq_self
  rw [Reads, hwhole, Option.some.injEq, eq_comm]

theorem reads_ofNat {k : Nat} (w : Word) (lo v : Nat) : Reads w lo (BitVec.ofNat k v) ↔ (fld w lo k).toNat = v % 2 ^ k := by
  rw [Reads, BitVec.toNat_eq, BitVec.toNat_ofNat]

theorem reads_fld (w : Word) (lo k : Nat) : Reads w lo (fld w lo k) ↔ True := by simp [Reads]

/-! ### From the encoding to the instruction -/

/-- The major selects the row of the decoder (R108). -/
theorem decodeRow_rows (w : Word) :
    (fld w 24 6 = 0#6 → decodeRow w = decode00 w) ∧
    (fld w 24 6 = 1#6 → decodeRow w = decode01 w) ∧
    (fld w 24 6 = 2#6 → decodeRow w = decode02 w) ∧
    (fld w 24 6 = 3#6 → decodeRow w = decode03 w) ∧
    (fld w 24 6 = 4#6 → decodeRow w = decode04 w) ∧
    (fld w 24 6 = 5#6 → decodeRow w = decode05 w) ∧
    (fld w 24 6 = 6#6 → decodeRow w = decode06 w) ∧
    (fld w 24 6 = 7#6 → decodeRow w = decode07 w) ∧
    (fld w 24 6 = 8#6 → decodeRow w = decode08 w) ∧
    (fld w 24 6 = 9#6 → decodeRow w = decode09 w) ∧
    (fld w 24 6 = 10#6 → decodeRow w = decode0A w) ∧
    (fld w 24 6 = 11#6 → decodeRow w = decode0B w) ∧
    (fld w 24 6 = 12#6 → decodeRow w = decode0C w) ∧
    (fld w 24 6 = 13#6 → decodeRow w = decode0D w) ∧
    (fld w 24 6 = 14#6 → decodeRow w = decode0E w) ∧
    (fld w 24 6 = 15#6 → decodeRow w = decode0F w) ∧
    (fld w 24 6 = 16#6 → decodeRow w = decode10 w) ∧
    (fld w 24 6 = 17#6 → decodeRow w = decode11 w) ∧
    (fld w 24 6 = 18#6 → decodeRow w = decode12 w) ∧
    (fld w 24 6 = 19#6 → decodeRow w = decode13 w) ∧
    (fld w 24 6 = 20#6 → decodeRow w = decode14 w) ∧
    (fld w 24 6 = 21#6 → decodeRow w = decode15 w) ∧
    (fld w 24 6 = 22#6 → decodeRow w = decode16 w) ∧
    (fld w 24 6 = 23#6 → decodeRow w = decode17 w) ∧
    (fld w 24 6 = 24#6 → decodeRow w = decode18 w) ∧
    (fld w 24 6 = 26#6 → decodeRow w = decode1A w) ∧
    (fld w 24 6 = 27#6 → decodeRow w = decode1B w) ∧
    (fld w 24 6 = 28#6 → decodeRow w = decode1C w) ∧
    (fld w 24 6 = 29#6 → decodeRow w = decode1D w) ∧
    (fld w 24 6 = 30#6 → decodeRow w = decode1E w) ∧
    (fld w 24 6 = 31#6 → decodeRow w = decode1F w) ∧
    (fld w 24 6 = 32#6 → decodeRow w = decode20 w) ∧
    (fld w 24 6 = 33#6 → decodeRow w = decode21 w) ∧
    (fld w 24 6 = 34#6 → decodeRow w = decode22 w) ∧
    (fld w 24 6 = 35#6 → decodeRow w = decode23 w) ∧
    (fld w 24 6 = 36#6 → decodeRow w = decode24 w) ∧
    (fld w 24 6 = 37#6 → decodeRow w = decode25 w) ∧
    (fld w 24 6 = 38#6 → decodeRow w = decode26 w) ∧
    (fld w 24 6 = 39#6 → decodeRow w = decode27 w) ∧
    (fld w 24 6 = 40#6 → decodeRow w = decode28 w) ∧
    (fld w 24 6 = 41#6 → decodeRow w = decode29 w) ∧
    (fld w 24 6 = 42#6 → decodeRow w = decode2A w) ∧
    (fld w 24 6 = 43#6 → decodeRow w = decode2B w) ∧
    (fld w 24 6 = 44#6 → decodeRow w = decode2C w) ∧
    (fld w 24 6 = 45#6 → decodeRow w = decode2D w) ∧
    (fld w 24 6 = 46#6 → decodeRow w = decode2E w) ∧
    (fld w 24 6 = 47#6 → decodeRow w = decode2F w) ∧
    (fld w 24 6 = 48#6 → decodeRow w = decode30 w) ∧
    (fld w 24 6 = 49#6 → decodeRow w = decode31 w) ∧
    (fld w 24 6 = 50#6 → decodeRow w = decode32 w) ∧
    (fld w 24 6 = 51#6 → decodeRow w = decode33 w) ∧
    (fld w 24 6 = 52#6 → decodeRow w = decode34 w) ∧
    (fld w 24 6 = 56#6 → decodeRow w = decode38 w) ∧
    (fld w 24 6 = 57#6 → decodeRow w = decode39 w) ∧
    (fld w 24 6 = 58#6 → decodeRow w = decode3A w) ∧
    (fld w 24 6 = 59#6 → decodeRow w = decode3B w) ∧
    (fld w 24 6 = 60#6 → decodeRow w = decode3C w) ∧
    (fld w 24 6 = 61#6 → decodeRow w = decode3D w) := by
  refine ⟨?_, ?_, ?_, ?_, ?_, ?_, ?_, ?_, ?_, ?_, ?_, ?_, ?_, ?_, ?_, ?_, ?_, ?_, ?_, ?_, ?_, ?_, ?_, ?_, ?_, ?_, ?_, ?_, ?_, ?_,
    ?_, ?_, ?_, ?_, ?_, ?_, ?_, ?_, ?_, ?_, ?_, ?_, ?_, ?_, ?_, ?_, ?_, ?_, ?_, ?_, ?_, ?_, ?_, ?_, ?_, ?_, ?_, ?_⟩
  all_goals
    intro h
    rw [decodeRow, decodeLow, h]
    rfl

theorem decodeRow_of_encodeWord {i : Instr} {w : Word} (h : encodeWord i = some w) : decodeRow w = .ok i := by
  cases i <;> simp only [encodeWord, some_eq_some_iff_reads, reads_append, reduceCtorEq] at h
  all_goals
    simp only [Reads, Nat.reduceAdd] at h
    simp only [decodeRow_rows w, ifZero, BitVec.toNat_ofNat, Nat.reducePow, Nat.reduceMod, h, if_true,
      decode00, decode01, decode02, decode03, decode04, decode05, decode06, decode07, decode08, decode09, decode0A, decode0B,
      decode0C, decode0D, decode0E, decode0F, decode10, decode11, decode12, decode13, decode14, decode15, decode16, decode17,
      decode18, decode1A, decode1B, decode1C, decode1D, decode1E, decode1F, decode20, decode21, decode22, decode23, decode24,
      decode25, decode26, decode27, decode28, decode29, decode2A, decode2B, decode2C, decode2D, decode2E, decode2F, decode30,
      decode31, decode32, decode33, decode34, decode38, decode39, decode3A, decode3B, decode3C, decode3D,
      A3.of, A2.of, B4.of, A1.of, AT.of, I12.of, Sh5.of, I9.of, U18.of, Cvt.of, S3.of, SU.of, Mem.of, AtomF.of, AtomLd.of,
      AtomSt.of, FenceN.of, FenceO.of, X4.of, XABD.of, XAB.of, XAD.of, TbInit.of, TbArv.of, TbRd.of, XC.of, X0.of, XA.of, Aqp.of,
      MmaF.of, Jf.of, Jxr.of, JxRet.of, XBC.of, XAC.of, XABC.of, XBD.of]

/-- Settles O55: the fields of the encoding select the row and are its operands; a well-formed instruction passes row 2 of R111. -/
theorem decodeOfEncode : Obligations.DecodeOfEncode := by
  unfold Obligations.DecodeOfEncode
  intro i w h hwf
  simp only [decode, decodeRow_of_encodeWord h, hwf, if_true]

/-! ### From the word to its encoding -/

/-- Whatever instruction an answer of the decoder is, `w` encodes it. -/
def Encodes (r : Except Reject Instr) (w : Word) : Prop := ∀ i, r = .ok i → encodeWord i = some w

theorem encodes_error (e : Reject) (w : Word) : Encodes (.error e) w ↔ True := by simp [Encodes]

theorem encodes_ok (i : Instr) (w : Word) : Encodes (.ok i) w ↔ encodeWord i = some w := by simp [Encodes]

theorem encodes_ifZero {n : Nat} (b : BitVec n) (r : Except Reject Instr) (w : Word) :
    Encodes (ifZero b r) w ↔ (b.toNat = 0 → Encodes r w) := by
  by_cases h : b = 0#n
  · simp [ifZero, h]
  · have hb : b.toNat ≠ 0 := fun e => h (BitVec.eq_of_toNat_eq (by simpa using e))
    simp [ifZero, h, hb, encodes_error]

theorem encodes_decodeRow (w : Word) : Encodes (decodeRow w) w := by
  simp only [decodeRow, decodeLow]
  repeat' split
  all_goals
    simp only [encodes_error,
      decode00, decode01, decode02, decode03, decode04, decode05, decode06, decode07, decode08, decode09, decode0A, decode0B,
      decode0C, decode0D, decode0E, decode0F, decode10, decode11, decode12, decode13, decode14, decode15, decode16, decode17,
      decode18, decode1A, decode1B, decode1C, decode1D, decode1E, decode1F, decode20, decode21, decode22, decode23, decode24,
      decode25, decode26, decode27, decode28, decode29, decode2A, decode2B, decode2C, decode2D, decode2E, decode2F, decode30,
      decode31, decode32, decode33, decode34, decode38, decode39, decode3A, decode3B, decode3C, decode3D]
    repeat' split
  all_goals
    simp only [encodes_ifZero, encodes_ok, encodes_error, encodeWord, some_eq_some_iff_reads, reads_append]
  all_goals
    intros
    simp only [reads_fld, reads_ofNat, *, Nat.reduceAdd, and_self, Nat.reducePow, Nat.reduceMod,
      A3.of, A2.of, B4.of, A1.of, AT.of, I12.of, Sh5.of, I9.of, U18.of, Cvt.of, S3.of, SU.of, Mem.of, AtomF.of, AtomLd.of,
      AtomSt.of, FenceN.of, FenceO.of, X4.of, XABD.of, XAB.of, XAD.of, TbInit.of, TbArv.of, TbRd.of, XC.of, X0.of, XA.of, Aqp.of,
      MmaF.of, Jf.of, Jxr.of, JxRet.of, XBC.of, XAC.of, XABC.of, XBD.of]

/-- Settles O56: every field of a word is an operand, the major, the code or zero, so the word is the encoding of what it decodes to; row 2
of R111 lets only well-formed instructions pass. -/
theorem encodeOfDecode : Obligations.EncodeOfDecode := by
  unfold Obligations.EncodeOfDecode
  intro w i h
  unfold decode at h
  split at h
  · cases h
  · next j hj =>
    split at h
    · next hwf => cases h; exact ⟨encodes_decodeRow w _ hj, hwf⟩
    · cases h

/-! ### The words of the tables -/

theorem decode_of_encodeWord {i : Instr} {w : Word} (h : encodeWord i = some w) (hwf : i.wellFormed = true) : decode w = .ok i :=
  decodeOfEncode i w h hwf

/-- Major 0x3F is reserved (R108). -/
theorem decode_major3F {w : Word} (h : fld w 24 6 = 0x3F) : decode w = .error .reservedMajor := by
  have hrow : decodeRow w = .error .reservedMajor := by
    rw [decodeRow, decodeLow, h]
    rfl
  rw [decode, hrow]

/-- Settles O57: each word is the encoding of its instruction; the reserved major and the reserved code have no row. -/
theorem wordsOfTheTablesDecode : Obligations.WordsOfTheTablesDecode := by
  unfold Obligations.WordsOfTheTablesDecode
  refine ⟨decode_of_encodeWord rfl rfl, decode_of_encodeWord rfl rfl, decode_of_encodeWord rfl rfl, decode_of_encodeWord rfl rfl,
    decode_of_encodeWord rfl rfl, decode_of_encodeWord rfl rfl, decode_of_encodeWord rfl rfl, decode_of_encodeWord rfl rfl,
    fun w h => ⟨_, decode_major3F h⟩, rfl⟩

end Sys2Proof.Laws
end

section
/-! SUPPORT. Register words of the integer classes, lane operations, moves, mask operations and votes (R149 to R153, R162 to R167): one law
for each shared operation, and the statements on them. -/

namespace Sys2Proof.Laws

open Sys2Proof Sys2Proof.Machine

/-! ### A register word that raises no flag -/

/-- `Completes` for a word without flags, from what its function answers. -/
theorem completes_of {i : Instr} {info : Info} {lat : Nat} {f : Ctx → Except Trap RegOut} {ok : Ctx → Prop} {ws : Ctx → List RegWrite}
    (he : ∀ s, exec i s = aluWord info lat f s) (hf : ∀ c, ok c → f c = .ok { writes := ws c }) (hr : ∀ c, ok c → ∀ w ∈ ws c, w.inRange)
    (hd : ∀ c, (ws c).Pairwise fun a b => a.ref ≠ b.ref) : Completes i info ok ws := by
  intro s c z hc hok
  rw [he]
  exact aluWord_plain hc (hf c hok) (hr c hok) (hd c)

/-- `Completes` for a word that writes one V register. -/
theorem completes_v {i : Instr} {info : Info} {lat : Nat} {f : Ctx → Except Trap RegOut} {ok : Ctx → Prop} {vd : BitVec 6}
    {m : Ctx → Word} {val : Ctx → Nat → Word} {tag : Ctx → Nat → BitVec 5} (he : ∀ s, exec i s = aluWord info lat f s)
    (hf : ∀ c, ok c → f c = vout vd (m c) (val c) (tag c)) :
    Completes i info ok fun c => [.v vd.toNat (m c) (lanes (val c)) (tags (tag c))] := by
  intro s c z hc hok
  rw [he]
  exact aluWord_v hc (hf c hok)

/-- `Completes` for a word that writes bits of one K register. -/
theorem completes_kl {i : Instr} {info : Info} {lat : Nat} {f : Ctx → Except Trap RegOut} {ok : Ctx → Prop} {n : Nat} (hn : ∀ c, ok c → n < 12)
    {m : Ctx → Word} {w : Ctx → Word} (he : ∀ s, exec i s = aluWord info lat f s)
    (hf : ∀ c, ok c → f c = .ok { writes := [.kl n (m c) (w c)] }) : Completes i info ok fun c => [.kl n (m c) (w c)] :=
  completes_of he hf (fun c hok => by simpa [RegWrite.inRange] using hn c hok) (by simp)

/-- `Completes` for a word that writes one K register. -/
theorem completes_k {i : Instr} {info : Info} {lat : Nat} {f : Ctx → Except Trap RegOut} {ok : Ctx → Prop} {n : Nat} (hn : ∀ c, ok c → n < 12)
    {w : Ctx → Word} (he : ∀ s, exec i s = aluWord info lat f s)
    (hf : ∀ c, ok c → f c = .ok { writes := [.k n (w c)] }) : Completes i info ok fun c => [.k n (w c)] :=
  completes_of he hf (fun c hok => by simpa [RegWrite.inRange] using hn c hok) (by simp)

/-- `Completes` for a word that writes one S register. -/
theorem completes_s {i : Instr} {info : Info} {lat : Nat} {f : Ctx → Except Trap RegOut} {ok : Ctx → Prop} {n : Nat} (hn : ∀ c, ok c → n < 32)
    {w : Ctx → Word} (he : ∀ s, exec i s = aluWord info lat f s)
    (hf : ∀ c, ok c → f c = .ok { writes := [.s n (w c)] }) : Completes i info ok fun c => [.s n (w c)] :=
  completes_of he hf (fun c hok => by simpa [RegWrite.inRange] using hn c hok) (by simp)

/-- `Completes` under a condition on the operands' numbers, which need only be met where the word completes. -/
theorem completes_assuming {i : Instr} {info : Info} {p : Prop} {ok : Ctx → Prop} {ws : Ctx → List RegWrite}
    (h : p → Completes i info ok ws) : Completes i info (fun c => p ∧ ok c) ws :=
  fun s c z hc hok => h hok.1 s c z hc hok.2

theorem lt_twelve_of_kWrite {n : BitVec 6} (h : kWrite n = true) : n.toNat < 12 := by
  simp only [kWrite, Bool.and_eq_true, decide_eq_true_eq] at h
  exact h.2

theorem lt_thirtyTwo_of_sField {n : BitVec 6} (h : sField n = true) : n.toNat < 32 := by simpa [sField] using h

/-! ### Arith members (R149) -/

theorem isPackInt_eq_false_of_isWordTag : ∀ t : BitVec 5, isWordTag t = true → isPackInt t = false := by decide

theorem packTag_eq_none {m : Word} {ta tb : Nat → BitVec 5}
    (h : ∀ l, m.getLsbD l = true → isWordTag (ta l) = true ∧ isWordTag (tb l) = true) : packTag m ta tb = none := by
  rw [packTag, List.findSome?_eq_none_iff]
  intro l hl
  obtain ⟨ha, hb⟩ := h l ((mem_lanesOf m l).1 hl)
  simp [isPackInt_eq_false_of_isWordTag _ ha, isPackInt_eq_false_of_isWordTag _ hb]

theorem arithOp_word {vd va vb : BitVec 6} {un : Bool} {pk : BitVec 3} {op : (w : Nat) → BitVec w → BitVec w → BitVec w} {c : Ctx}
    (h : c.allActive pk fun l => isWordTag (c.t va l) = true ∧ isWordTag (if un then tRAW else c.t vb l) = true) :
    arithOp vd va vb un pk op c = vout vd (c.active pk) (fun l => op 32 (c.v va l) (c.v vb l))
      fun l => wordTag (c.t va l) (if un then tRAW else c.t vb l) := by
  simp only [arithOp, packTag_eq_none h]
  exact firstLane_bind (fun l hl => by simp [(h l hl).1, (h l hl).2]) _

theorem arithOp_packed {vd va vb : BitVec 6} {un : Bool} {pk : BitVec 3} {op : (w : Nat) → BitVec w → BitVec w → BitVec w} {c : Ctx}
    {p : BitVec 5} (hp : packTag (c.active pk) (c.t va) (fun l => if un then tRAW else c.t vb l) = some p)
    (h : c.allActive pk fun l => (c.t va l = p ∨ c.t va l = tRAW) ∧ ((if un then tRAW else c.t vb l) = p ∨ (if un then tRAW else c.t vb l) = tRAW)) :
    arithOp vd va vb un pk op c = vout vd (c.active pk) (fun l => elementwise p op (c.v va l) (c.v vb l)) fun _ => p := by
  simp only [arithOp, hp]
  exact firstLane_bind (fun l hl => if_pos (by simpa only [Bool.and_eq_true, Bool.or_eq_true, decide_eq_true_eq] using h l hl)) _

theorem elementwise_unary (p : BitVec 5) (op : (w : Nat) → BitVec w → BitVec w) (a b : Word) :
    elementwise p (fun w x _ => op w x) a b = elementwise p (fun w x _ => op w x) a 0 := by
  unfold elementwise; rfl

/-- A two-operand arith member completes over words, and over each packed class. -/
theorem completes_arith2 {i : Instr} {o : A3} {op : (w : Nat) → BitVec w → BitVec w → BitVec w} (he : ∀ s, exec i s = arith2 o op s) :
    Completes i (aluInfo o.st o.pk [o.va, o.vb] [o.vd]) (fun c => c.allActive o.pk fun l => isWordTag (c.t o.va l) ∧ isWordTag (c.t o.vb l))
      (fun c => [.v o.vd.toNat (c.active o.pk) (lanes fun l => op 32 (c.v o.va l) (c.v o.vb l))
        (tags fun l => wordTag (c.t o.va l) (c.t o.vb l))]) ∧
    ∀ p : BitVec 5, Completes i (aluInfo o.st o.pk [o.va, o.vb] [o.vd])
      (fun c => packTag (c.active o.pk) (c.t o.va) (c.t o.vb) = some p ∧
        c.allActive o.pk fun l => (c.t o.va l = p ∨ c.t o.va l = tRAW) ∧ (c.t o.vb l = p ∨ c.t o.vb l = tRAW))
      (fun c => [.v o.vd.toNat (c.active o.pk) (lanes fun l => elementwise p op (c.v o.va l) (c.v o.vb l)) (tags fun _ => p)]) :=
  ⟨completes_v he fun _ h => arithOp_word h, fun _ => completes_v he fun _ h => arithOp_packed h.1 h.2⟩

/-- A one-operand arith member completes over words, and over each packed class. -/
theorem completes_arith1 {i : Instr} {o : A2} {op : (w : Nat) → BitVec w → BitVec w} (he : ∀ s, exec i s = arith1 o op s) :
    Completes i (aluInfo o.st o.pk [o.va] [o.vd]) (fun c => c.allActive o.pk fun l => isWordTag (c.t o.va l))
      (fun c => [.v o.vd.toNat (c.active o.pk) (lanes fun l => op 32 (c.v o.va l)) (tags fun l => wordTag (c.t o.va l) tRAW)]) ∧
    ∀ p : BitVec 5, Completes i (aluInfo o.st o.pk [o.va] [o.vd])
      (fun c => packTag (c.active o.pk) (c.t o.va) (fun _ => tRAW) = some p ∧ c.allActive o.pk fun l => c.t o.va l = p ∨ c.t o.va l = tRAW)
      (fun c => [.v o.vd.toNat (c.active o.pk) (lanes fun l => elementwise p (fun w a _ => op w a) (c.v o.va l) 0) (tags fun _ => p)]) := by
  refine ⟨completes_v he fun c h => ?_, fun p => completes_v he fun c h => ?_⟩
  · exact arithOp_word fun l hl => ⟨h l hl, rfl⟩
  · rw [arithOp_packed h.1 fun l hl => ⟨h.2 l hl, .inr rfl⟩]
    rfl

/-- Settles O1: each member is an arith member of one or two operands. -/
theorem integerArithWritesEachActiveLane : Obligations.IntegerArithWritesEachActiveLane := by
  unfold Obligations.IntegerArithWritesEachActiveLane
  constructor
  · intro o i op hi
    refine completes_arith2 (op := op) fun s => ?_
    simp only [List.mem_cons, Prod.mk.injEq, List.not_mem_nil, or_false] at hi
    rcases hi with ⟨rfl, rfl⟩ | ⟨rfl, rfl⟩ | ⟨rfl, rfl⟩ | ⟨rfl, rfl⟩ | ⟨rfl, rfl⟩ | ⟨rfl, rfl⟩ <;> rfl
  · intro o i op hi
    refine completes_arith1 (op := op) fun s => ?_
    simp only [List.mem_cons, Prod.mk.injEq, List.not_mem_nil, or_false] at hi
    rcases hi with ⟨rfl, rfl⟩ | ⟨rfl, rfl⟩ <;> rfl

/-! ### Products, bitwise members and shifts (R149, R150) -/

/-- A shift's amount is the low five bits of its operand (R150). -/
theorem shAmt_eq (b : Word) : shAmt b = b.toNat % 32 := by simp [shAmt, BitVec.extractLsb'_toNat]

theorem wordOp_eq {vd va vb : BitVec 6} {pk : BitVec 3} {op : Word → Word → Word} {c : Ctx}
    (h : c.allActive pk fun l => isWordTag (c.t va l) = true ∧ isWordTag (c.t vb l) = true) :
    wordOp vd va vb pk op c = vout vd (c.active pk) (fun l => op (c.v va l) (c.v vb l)) fun l => wordTag (c.t va l) (c.t vb l) :=
  firstLane_bind (fun l hl => by simp [(h l hl).1, (h l hl).2]) _

theorem completes_mul2 {i : Instr} {o : A3} {op : Word → Word → Word} (he : ∀ s, exec i s = mul2 o op s) :
    Completes i (aluInfo o.st o.pk [o.va, o.vb] [o.vd]) (fun c => c.allActive o.pk fun l => isWordTag (c.t o.va l) ∧ isWordTag (c.t o.vb l))
      (fun c => [.v o.vd.toNat (c.active o.pk) (lanes fun l => op (c.v o.va l) (c.v o.vb l))
        (tags fun l => wordTag (c.t o.va l) (c.t o.vb l))]) :=
  completes_v he fun _ h => wordOp_eq h

theorem completes_bit2 {i : Instr} {o : A3} {op : Word → Word → Word} (he : ∀ s, exec i s = bit2 o op s) :
    Completes i (aluInfo o.st o.pk [o.va, o.vb] [o.vd]) (fun _ => True)
      (fun c => [.v o.vd.toNat (c.active o.pk) (lanes fun l => op (c.v o.va l) (c.v o.vb l)) (tags fun l => c.t o.va l)]) :=
  completes_v he fun _ _ => rfl

/-- Settles O2: the products are word members, the others bit members. -/
theorem productsBitwiseAndShiftsWriteEachActiveLane : Obligations.ProductsBitwiseAndShiftsWriteEachActiveLane := by
  unfold Obligations.ProductsBitwiseAndShiftsWriteEachActiveLane
  intro o i op
  constructor
  · intro hi
    refine completes_mul2 (op := op) fun s => ?_
    simp only [List.mem_cons, Prod.mk.injEq, List.not_mem_nil, or_false] at hi
    rcases hi with ⟨rfl, rfl⟩ | ⟨rfl, rfl⟩ | ⟨rfl, rfl⟩ <;> rfl
  · intro hi
    refine completes_bit2 (op := op) fun s => ?_
    simp only [List.mem_cons, Prod.mk.injEq, List.not_mem_nil, or_false] at hi
    rcases hi with ⟨rfl, rfl⟩ | ⟨rfl, rfl⟩ | ⟨rfl, rfl⟩ | ⟨rfl, rfl⟩ | ⟨rfl, rfl⟩ | hi
    iterate 5 rfl
    simp only [← shAmt_eq] at hi
    rcases hi with ⟨rfl, rfl⟩ | ⟨rfl, rfl⟩ | ⟨rfl, rfl⟩ | ⟨rfl, rfl⟩ | ⟨rfl, rfl⟩ <;> rfl

/-! ### Bit fields, counts and reversals (R150, R151) -/

theorem completes_count1 {i : Instr} {o : A2} {n : Word → Nat} (he : ∀ s, exec i s = count1 o n s) :
    Completes i (aluInfo o.st o.pk [o.va] [o.vd]) (fun _ => True)
      (fun c => [.v o.vd.toNat (c.active o.pk) (lanes fun l => BitVec.ofNat 32 (n (c.v o.va l))) (tags fun _ => tU32)]) :=
  completes_v he fun _ _ => rfl

theorem completes_bit1 {i : Instr} {o : A2} {op : Word → Word} (he : ∀ s, exec i s = bit1 o op s) :
    Completes i (aluInfo o.st o.pk [o.va] [o.vd]) (fun _ => True)
      (fun c => [.v o.vd.toNat (c.active o.pk) (lanes fun l => op (c.v o.va l)) (tags fun l => c.t o.va l)]) :=
  completes_v he fun _ _ => rfl

/-- Settles O3: each word writes one V register whatever its operands' tags are. -/
theorem bitFieldAndCountWordsWriteEachActiveLane : Obligations.BitFieldAndCountWordsWriteEachActiveLane := by
  unfold Obligations.BitFieldAndCountWordsWriteEachActiveLane
  refine ⟨fun o => ⟨?_, ?_, ?_, ?_⟩, fun o i n hi => ?_, fun o i op hi => ?_⟩
  iterate 4 exact completes_v (fun _ => rfl) fun _ _ => rfl
  · refine completes_count1 (n := n) fun s => ?_
    simp only [List.mem_cons, Prod.mk.injEq, List.not_mem_nil, or_false] at hi
    rcases hi with ⟨rfl, rfl⟩ | ⟨rfl, rfl⟩ | ⟨rfl, rfl⟩ <;> rfl
  · refine completes_bit1 (op := op) fun s => ?_
    simp only [List.mem_cons, Prod.mk.injEq, List.not_mem_nil, or_false] at hi
    rcases hi with ⟨rfl, rfl⟩ | ⟨rfl, rfl⟩ <;> rfl

/-! ### Register pairs and IMAD (R133, R151, R153) -/

theorem pairChk_two_eq_none {c : Ctx} {va vb : BitVec 6} {l : Nat} (ha : c.t va l = tI64LO ∨ c.t va l = tRAW)
    (ha1 : c.t (va + 1) l = tI64HI ∨ c.t (va + 1) l = tRAW) (hb : c.t vb l = tI64LO ∨ c.t vb l = tRAW)
    (hb1 : c.t (vb + 1) l = tI64HI ∨ c.t (vb + 1) l = tRAW) : pairChk c va vb true l = none := by
  simp only [pairChk, ha, ha1, hb, hb1, ← Bool.decide_or, decide_true, Bool.not_true, Bool.and_false, Bool.or_self, Bool.false_eq_true, if_false]

theorem succ_lt_of_even {n : BitVec 6} (h : n.toNat % 2 = 0) : n.toNat + 1 < 64 := by omega

/-- Two results for the registers of an even pair. -/
theorem pair_writes {vd : BitVec 6} (h : vd.toNat % 2 = 0) (m m' : Word) (v v' : Lanes) (t t' : Tags) :
    (∀ w ∈ [RegWrite.v vd.toNat m v t, .v (vd.toNat + 1) m' v' t'], w.inRange)
      ∧ [RegWrite.v vd.toNat m v t, .v (vd.toNat + 1) m' v' t'].Pairwise fun a b => a.ref ≠ b.ref := by
  have := succ_lt_of_even h
  constructor
  · intro w hw
    simp only [List.mem_cons, List.not_mem_nil, or_false] at hw
    rcases hw with rfl | rfl <;> simp only [RegWrite.inRange] <;> omega
  · simp [RegWrite.ref]

theorem completes_pair2 {i : Instr} {o : A3} {op : DWord → DWord → DWord} (he : ∀ s, exec i s = pair2 o op s) (hd : o.vd.toNat % 2 = 0) :
    Completes i { aluInfo o.st o.pk [o.va, o.va + 1, o.vb, o.vb + 1] [o.vd, o.vd + 1] with
        regsOk := fun _ => evenV o.vd && evenV o.va && evenV o.vb }
      (fun c => c.allActive o.pk fun l => (c.t o.va l = tI64LO ∨ c.t o.va l = tRAW) ∧ (c.t (o.va + 1) l = tI64HI ∨ c.t (o.va + 1) l = tRAW)
        ∧ (c.t o.vb l = tI64LO ∨ c.t o.vb l = tRAW) ∧ (c.t (o.vb + 1) l = tI64HI ∨ c.t (o.vb + 1) l = tRAW))
      (fun c => [.v o.vd.toNat (c.active o.pk)
          (lanes fun l => (op (c.v (o.va + 1) l ++ c.v o.va l) (c.v (o.vb + 1) l ++ c.v o.vb l)).extractLsb' 0 32) (tags fun _ => tI64LO),
        .v (o.vd.toNat + 1) (c.active o.pk)
          (lanes fun l => (op (c.v (o.va + 1) l ++ c.v o.va l) (c.v (o.vb + 1) l ++ c.v o.vb l)).extractLsb' 32 32) (tags fun _ => tI64HI)]) := by
  refine completes_of he (fun c h => ?_) (fun c _ => (pair_writes hd ..).1) (fun c => (pair_writes hd ..).2)
  exact firstLane_bind (fun l hl => pairChk_two_eq_none (h l hl).1 (h l hl).2.1 (h l hl).2.2.1 (h l hl).2.2.2) _

/-- Settles O4: the pair words pass the pair rule and write both registers; IMAD passes the word class for its three operands. -/
theorem pairAddAndMultiplyAddWriteEachLane : Obligations.PairAddAndMultiplyAddWriteEachLane := by
  unfold Obligations.PairAddAndMultiplyAddWriteEachLane
  constructor
  · intro o i op hi hd _ _
    refine completes_pair2 (op := op) (fun s => ?_) hd
    simp only [List.mem_cons, Prod.mk.injEq, List.not_mem_nil, or_false] at hi
    rcases hi with ⟨rfl, rfl⟩ | ⟨rfl, rfl⟩ <;> rfl
  · intro o
    refine completes_v (fun _ => rfl) fun c h => ?_
    exact firstLane_bind (fun l hl => by simp [(h l hl).1, (h l hl).2.1, (h l hl).2.2]) _

/-! ### Compares (R152) -/

theorem completes_icmp {i : Instr} {o : A3} {cc : Cond} (he : ∀ s, exec i s = icmp cc o s) :
    Completes i { aluInfo o.st o.pk [o.va, o.vb] [] with regsOk := fun _ => kWrite o.vd, writes := [.k o.vd.toNat] }
      (fun c => kWrite o.vd = true ∧ c.allActive o.pk fun l => isWordTag (c.t o.va l) ∧ isWordTag (c.t o.vb l))
      (fun c => [.kl o.vd.toNat (c.active o.pk) (maskOf fun l => cc.holds (c.v o.va l) (c.v o.vb l))]) :=
  completes_assuming fun hk => completes_kl (fun _ _ => lt_twelve_of_kWrite hk) he fun _ h =>
    firstLane_bind (fun l hl => by simp [(h l hl).1, (h l hl).2]) _

theorem completes_icmpi {i : Instr} {o : I9} {cc : Cond} (he : ∀ s, exec i s = icmpi cc o s) :
    Completes i { aluInfo o.st 0 [o.va] [] with regsOk := fun _ => kWrite o.vd, writes := [.k o.vd.toNat] }
      (fun c => kWrite o.vd = true ∧ ∀ l, c.m.getLsbD l = true → isWordTag (c.t o.va l))
      (fun c => [.kl o.vd.toNat c.m (maskOf fun l => cc.holds (c.v o.va l) (o.imm.signExtend 32))]) :=
  completes_assuming fun hk => completes_kl (fun _ _ => lt_twelve_of_kWrite hk) he fun _ h => firstLane_bind (fun l hl => by simp [h l hl]) _

/-- Settles O5: each member is a compare with its condition. -/
theorem integerComparesSetTheActiveBits : Obligations.IntegerComparesSetTheActiveBits := by
  unfold Obligations.IntegerComparesSetTheActiveBits
  constructor
  · intro o i cond hi
    obtain ⟨cc, rfl, he⟩ : ∃ cc : Cond, cond = cc.holds ∧ ∀ s, exec i s = icmp cc o s := by
      simp only [List.mem_cons, Prod.mk.injEq, List.not_mem_nil, or_false] at hi
      rcases hi with ⟨rfl, rfl⟩ | ⟨rfl, rfl⟩ | ⟨rfl, rfl⟩ | ⟨rfl, rfl⟩ | ⟨rfl, rfl⟩ | ⟨rfl, rfl⟩ | ⟨rfl, rfl⟩ | ⟨rfl, rfl⟩
      exacts [⟨.eq, rfl, fun _ => rfl⟩, ⟨.ne, rfl, fun _ => rfl⟩, ⟨.lt, rfl, fun _ => rfl⟩, ⟨.le, rfl, fun _ => rfl⟩,
        ⟨.ult, rfl, fun _ => rfl⟩, ⟨.ule, rfl, fun _ => rfl⟩, ⟨.tst, rfl, fun _ => rfl⟩, ⟨.ntst, rfl, fun _ => rfl⟩]
    exact completes_icmp he
  · intro o i cond hi
    obtain ⟨cc, rfl, he⟩ : ∃ cc : Cond, cond = cc.holds ∧ ∀ s, exec i s = icmpi cc o s := by
      simp only [List.mem_cons, Prod.mk.injEq, List.not_mem_nil, or_false] at hi
      rcases hi with ⟨rfl, rfl⟩ | ⟨rfl, rfl⟩ | ⟨rfl, rfl⟩ | ⟨rfl, rfl⟩ | ⟨rfl, rfl⟩ | ⟨rfl, rfl⟩ | ⟨rfl, rfl⟩ | ⟨rfl, rfl⟩
      exacts [⟨.eq, rfl, fun _ => rfl⟩, ⟨.ne, rfl, fun _ => rfl⟩, ⟨.lt, rfl, fun _ => rfl⟩, ⟨.le, rfl, fun _ => rfl⟩,
        ⟨.ult, rfl, fun _ => rfl⟩, ⟨.ule, rfl, fun _ => rfl⟩, ⟨.tst, rfl, fun _ => rfl⟩, ⟨.ntst, rfl, fun _ => rfl⟩]
    exact completes_icmpi he

/-! ### Immediate forms (R153) -/

theorem completes_imm12 {i : Instr} {o : I12} {op : Word → Word → Word} (he : ∀ s, exec i s = imm12 o op s) :
    Completes i (aluInfo o.st 0 [o.va] [o.vd]) (fun c => ∀ l, c.m.getLsbD l = true → isWordTag (c.t o.va l))
      (fun c => [.v o.vd.toNat c.m (lanes fun l => op (c.v o.va l) (o.imm.signExtend 32)) (tags fun l => wordTag (c.t o.va l) tRAW)]) :=
  completes_v he fun _ h => firstLane_bind (fun l hl => by simp [h l hl]) _

theorem completes_shi {i : Instr} {o : Sh5} {op : Word → Nat → Word} (he : ∀ s, exec i s = shi o op s) :
    Completes i (aluInfo o.st 0 [o.va] [o.vd]) (fun _ => True)
      (fun c => [.v o.vd.toNat c.m (lanes fun l => op (c.v o.va l) o.amt.toNat) (tags fun l => c.t o.va l)]) :=
  completes_v he fun _ _ => rfl

/-- Settles O6: the word-integer forms and LUI pass their check; SHI and MOVI have none. -/
theorem immediateFormsWriteEachLane : Obligations.ImmediateFormsWriteEachLane := by
  unfold Obligations.ImmediateFormsWriteEachLane
  refine ⟨fun o i op hi => ?_, fun o i op hi => ?_, fun o => ⟨?_, ?_⟩⟩
  · refine completes_imm12 (op := op) fun s => ?_
    simp only [List.mem_cons, Prod.mk.injEq, List.not_mem_nil, or_false] at hi
    rcases hi with ⟨rfl, rfl⟩ | ⟨rfl, rfl⟩ | ⟨rfl, rfl⟩ | ⟨rfl, rfl⟩ <;> rfl
  · refine completes_shi (op := op) fun s => ?_
    simp only [List.mem_cons, Prod.mk.injEq, List.not_mem_nil, or_false] at hi
    rcases hi with ⟨rfl, rfl⟩ | ⟨rfl, rfl⟩ | ⟨rfl, rfl⟩ | ⟨rfl, rfl⟩ <;> rfl
  · exact completes_v (fun _ => rfl) fun _ _ => rfl
  · exact completes_v (fun _ => rfl) fun _ h => firstLane_bind (fun l hl => by simp [h l hl]) _

/-! ### Lane operations and moves (R162, R163, R167) -/

/-- A lane operation's source is named by the low five bits of vb (R162). -/
theorem completes_laneWord {i : Instr} {o : A3} {src : Nat → Nat → Nat} (he : ∀ s, exec i s = laneWord o src s) :
    Completes i (aluInfo o.st o.pk [o.va, o.vb] [o.vd]) (fun _ => True)
      (fun c => [.v o.vd.toNat (c.active o.pk) (lanes fun l => c.v o.va (src l ((c.v o.vb l).toNat % 32)))
        (tags fun l => c.t o.va (src l ((c.v o.vb l).toNat % 32)))]) := by
  refine completes_v he fun c _ => ?_
  simp only [shAmt_eq]

theorem completes_vpcr (o : A2) (hd : o.vd.toNat % 2 = 0) :
    Completes (.vpcr o) { aluInfo o.st o.pk [o.va] [o.vd, o.vd + 1] with regsOk := fun _ => evenV o.vd } (fun _ => True)
      (fun c =>
        let vpc : Nat → DWord := fun l =>
          let k := (c.v o.va l).toNat % 32
          if c.y.live.getLsbD k then (c.y.lane k).pc.setWidth 64 else 0
        [.v o.vd.toNat (c.active o.pk) (lanes fun l => (vpc l).extractLsb' 0 32) (tags fun _ => tI64LO),
         .v (o.vd.toNat + 1) (c.active o.pk) (lanes fun l => (vpc l).extractLsb' 32 32) (tags fun _ => tI64HI)]) := by
  refine completes_of (fun _ => rfl) (fun c _ => ?_) (fun c _ => (pair_writes hd ..).1) (fun c => (pair_writes hd ..).2)
  simp only [shAmt_eq]

/-- SMOV with no active lane writes back what the register holds (R163). -/
theorem completes_smov (o : A2) :
    Completes (.smov o) { aluInfo o.st o.pk [o.va] [] with regsOk := fun _ => sField o.vd, writes := [.s o.vd.toNat] }
      (fun _ => sField o.vd = true)
      (fun c => match lowest (c.active o.pk) with | none => [.s o.vd.toNat (c.y.getS o.vd.toNat)] | some k => [.s o.vd.toNat (c.v o.va k)]) := by
  intro s c z hc hs
  have hn := lt_thirtyTwo_of_sField hs
  refine aluWord_plain hc ?_ ?_ ?_
  all_goals dsimp only; cases lowest (c.active o.pk)
  iterate 2 rfl
  all_goals simp [RegWrite.inRange, hn]

/-- Settles O7: each word writes one V register, or VPCR a pair and SMOV an S register. -/
theorem laneOperationsAndMovesWriteEachActiveLane : Obligations.LaneOperationsAndMovesWriteEachActiveLane := by
  unfold Obligations.LaneOperationsAndMovesWriteEachActiveLane
  refine ⟨fun o i src hi => ?_, fun o => ?_, fun o => ⟨?_, ?_, ?_, completes_smov o, ?_, completes_vpcr o⟩, fun o => ?_, fun o => ?_⟩
  · refine completes_laneWord (src := src) fun s => ?_
    simp only [List.mem_cons, Prod.mk.injEq, List.not_mem_nil, or_false] at hi
    rcases hi with ⟨rfl, rfl⟩ | ⟨rfl, rfl⟩ | ⟨rfl, rfl⟩ | ⟨rfl, rfl⟩ <;> rfl
  all_goals exact completes_v (fun _ => rfl) fun _ _ => rfl

/-! ### Mask operations and votes (R164, R165) -/

/-- A mask operation of two operands. -/
theorem completes_kop {i : Instr} {o : A3} {op : Word → Word → Word}
    (he : ∀ s, exec i s = kop o.st o.vd o.va o.vb o.pk true op s) :
    Completes i { cls := 0, stall := o.st, regsOk := fun _ => kWrite o.vd && kRead o.va && kRead o.vb,
                  reads := pkReads o.pk ++ [.k o.va.toNat] ++ [.k o.vb.toNat], writes := [.k o.vd.toNat] }
      (fun _ => kWrite o.vd = true)
      (fun c => [.kl o.vd.toNat (c.active o.pk) (op (c.y.getK o.va.toNat) (c.y.getK o.vb.toNat))]) := by
  simpa using completes_kl (fun _ => lt_twelve_of_kWrite) he fun _ _ => rfl

/-- A mask operation of one operand. -/
theorem completes_kop1 {i : Instr} {o : A2} {op : Word → Word}
    (he : ∀ s, exec i s = kop o.st o.vd o.va 0 o.pk false (fun a _ => op a) s) :
    Completes i { cls := 0, stall := o.st, regsOk := fun _ => kWrite o.vd && kRead o.va,
                  reads := pkReads o.pk ++ [.k o.va.toNat] ++ [], writes := [.k o.vd.toNat] }
      (fun _ => kWrite o.vd = true)
      (fun c => [.kl o.vd.toNat (c.active o.pk) (op (c.y.getK o.va.toNat))]) := by
  simpa using completes_kl (fun _ => lt_twelve_of_kWrite) he fun _ _ => rfl

theorem completes_kcount {i : Instr} {o : A2} {n : Word → Nat} (he : ∀ s, exec i s = kcount o (fun a => BitVec.ofNat 32 (n a)) s) :
    Completes i { aluInfo o.st o.pk [] [o.vd] with regsOk := fun _ => kRead o.va, reads := pkReads o.pk ++ [.k o.va.toNat] } (fun _ => True)
      (fun c => [.v o.vd.toNat (c.active o.pk) (lanes fun _ => BitVec.ofNat 32 (n (c.y.getK o.va.toNat))) (tags fun _ => tU32)]) :=
  completes_v he fun _ _ => rfl

/-- Settles O8: each word writes one register of its kind. -/
theorem maskOperationsAndVotesComplete : Obligations.MaskOperationsAndVotesComplete := by
  unfold Obligations.MaskOperationsAndVotesComplete
  refine ⟨fun o i op hi => ?_, fun o i op hi => ?_, fun o i n hi => ?_, fun o => ⟨?_, ?_, ?_⟩, fun o => ?_⟩
  · refine completes_kop (op := op) fun s => ?_
    simp only [List.mem_cons, Prod.mk.injEq, List.not_mem_nil, or_false] at hi
    rcases hi with ⟨rfl, rfl⟩ | ⟨rfl, rfl⟩ | ⟨rfl, rfl⟩ | ⟨rfl, rfl⟩ <;> rfl
  · refine completes_kop1 (op := op) fun s => ?_
    simp only [List.mem_cons, Prod.mk.injEq, List.not_mem_nil, or_false] at hi
    rcases hi with ⟨rfl, rfl⟩ | ⟨rfl, rfl⟩ <;> rfl
  · refine completes_kcount (n := n) fun s => ?_
    simp only [List.mem_cons, Prod.mk.injEq, List.not_mem_nil, or_false] at hi
    rcases hi with ⟨rfl, rfl⟩ | ⟨rfl, rfl⟩ <;> rfl
  · exact completes_k (fun _ => lt_twelve_of_kWrite) (fun _ => rfl) fun _ _ => rfl
  · exact completes_k (fun _ => lt_twelve_of_kWrite) (fun _ => rfl) fun _ _ => rfl
  · exact completes_s (fun _ => lt_thirtyTwo_of_sField) (fun _ => rfl) fun _ _ => rfl
  · exact completes_v (fun _ => rfl) fun _ _ => rfl

end Sys2Proof.Laws
end

section
/-! SUPPORT. Uniform words, in a gang and in an address program (R166, R213), and the statement on them. -/

namespace Sys2Proof.Laws

open Sys2Proof Sys2Proof.Machine

/-- Where a word clears, a gang has the focus. -/
theorem focus_of_clears {s : State} {i : Info} {p : Ctx × State} (h : s.clears i = some p) :
    ∃ b g m pc hpc hdr w nvl, s.focus = .gang b g m pc hpc hdr w nvl := by
  unfold State.clears at h
  split at h
  next hf => exact ⟨_, _, _, _, _, _, _, _, hf⟩
  next => cases h

/-- The register write that a uniform result stands for. -/
def writeOfUniform (u : UOut) : RegWrite := match u with | .s n w => .s n w | .k n w => .k n w

/-- A uniform result written to an address program's scalar state. -/
def queueAfterUniform (u : UOut) (a : ApQueue) : ApQueue := match u with | .s n w => a.setS n w | .k n w => a.setK n w

theorem uniformWord_gang {s : State} {i : Info} {c : Ctx} {z : State} {ok : Bool} {f : (Nat → Word) → UOut} {info : Info}
    (h : s.clears info = some (c, z)) :
    uniformWord i ok f s = aluWord { i with regsOk := fun _ => ok } 2 (fun c => .ok { writes := [writeOfUniform (f c.y.getS)] }) s := by
  obtain ⟨b, g, m, pc, hpc, hdr, w, nvl, hf⟩ := focus_of_clears h
  simp only [uniformWord, hf]
  rfl

/-- In a gang, a uniform word writes its one register. -/
theorem completes_uniform {i : Instr} {info info' : Info} {ok : Bool} {f : (Nat → Word) → UOut} {w : Ctx → RegWrite}
    (he : ∀ s, exec i s = uniformWord info ok f s) (hi : { info with regsOk := fun _ => true } = info') (hok : ok = true)
    (hw : ∀ c, writeOfUniform (f c.y.getS) = w c) (hr : ∀ c, (w c).inRange) :
    Completes i info' (fun _ => True) (fun c => [w c]) := by
  subst hok hi
  intro s c z hc _
  rw [he, uniformWord_gang hc]
  exact aluWord_plain hc (by simp only [hw]) (by simpa using hr c) (by simp)

/-- In an address program, a uniform word writes its one register of the program and goes on. -/
theorem runsInProgram_uniform {i : Instr} {info : Info} {ok : Bool} {f : (Nat → Word) → UOut} {r : ApQueue → ApQueue}
    (he : ∀ s, exec i s = uniformWord info ok f s) (hok : ok = true) (hr : ∀ a, (queueAfterUniform (f a.getS) a).advance = r a) : RunsInProgram i r := by
  subst hok
  intro s d core q w a hf ha ent hb
  have hu : uniformWord info true f s = apWord d core q (fun a s' => .done s' (queueAfterUniform (f a.getS) a).advance) s := by
    simp only [uniformWord, hf, if_true]
    congr
    funext a s'
    cases f a.getS <;> rfl
  rw [he, hu, apWord, ha]
  simp only [hb, hr, ent]
  rfl

/-- A SALU member, in a gang and in an address program. -/
theorem salu_runs {i : Instr} {o : S3} {op : Word → Word → Word} (he : ∀ s, exec i s = salu o op s)
    (hd : sField o.vd = true) (ha : sField o.va = true) (hb : sField o.vb = true) :
    Completes i { cls := 0, stall := o.st, regsOk := fun _ => true, reads := [.s o.va.toNat, .s o.vb.toNat], writes := [.s o.vd.toNat] }
      (fun _ => True) (fun c => [.s o.vd.toNat (op (c.y.getS o.va.toNat) (c.y.getS o.vb.toNat))]) ∧
    RunsInProgram i fun a => (a.setS o.vd.toNat (op (a.getS o.va.toNat) (a.getS o.vb.toNat))).advance :=
  have hok : (sField o.vd && sField o.va && sField o.vb) = true := by simp [hd, ha, hb]
  have hu : ∀ s, exec i s = uniformWord { cls := 0, stall := o.st, reads := [.s o.va.toNat, .s o.vb.toNat], writes := [.s o.vd.toNat] }
      (sField o.vd && sField o.va && sField o.vb) (fun r => .s o.vd.toNat (op (r o.va.toNat) (r o.vb.toNat))) s := he
  ⟨completes_uniform hu rfl hok (fun _ => rfl) fun _ => lt_thirtyTwo_of_sField hd, runsInProgram_uniform hu hok fun _ => rfl⟩

/-- A scalar compare, in a gang and in an address program. -/
theorem scmp_runs {i : Instr} {o : S3} {cc : Cond} (he : ∀ s, exec i s = scmp cc o s)
    (hd : kWrite o.vd = true) (ha : sField o.va = true) (hb : sField o.vb = true) :
    Completes i { cls := 0, stall := o.st, regsOk := fun _ => true, reads := [.s o.va.toNat, .s o.vb.toNat], writes := [.k o.vd.toNat] }
      (fun _ => True)
      (fun c => [.k o.vd.toNat (if cc.holds (c.y.getS o.va.toNat) (c.y.getS o.vb.toNat) then BitVec.allOnes 32 else 0)]) ∧
    RunsInProgram i fun a => (a.setK o.vd.toNat (if cc.holds (a.getS o.va.toNat) (a.getS o.vb.toNat) then BitVec.allOnes 32 else 0)).advance :=
  have hok : (kWrite o.vd && sField o.va && sField o.vb) = true := by simp [hd, ha, hb]
  have hu : ∀ s, exec i s = uniformWord { cls := 0, stall := o.st, reads := [.s o.va.toNat, .s o.vb.toNat], writes := [.k o.vd.toNat] }
      (kWrite o.vd && sField o.va && sField o.vb)
      (fun r => .k o.vd.toNat (if cc.holds (r o.va.toNat) (r o.vb.toNat) then BitVec.allOnes 32 else 0)) s := he
  ⟨completes_uniform hu rfl hok (fun _ => rfl) fun _ => lt_twelve_of_kWrite hd, runsInProgram_uniform hu hok fun _ => rfl⟩

/-- Settles O9: each member is a uniform word, whose one result lands in the gang or in the program's scalar state. -/
theorem uniformWordsWriteOneRegister : Obligations.UniformWordsWriteOneRegister := by
  unfold Obligations.UniformWordsWriteOneRegister
  refine ⟨fun o i op hi hd ha hb => ?_, fun o i cond hi hd ha hb => ?_, fun o hd ha => ?_, fun o => ?_⟩
  · refine salu_runs (op := op) (fun s => ?_) hd ha hb
    simp only [List.mem_cons, Prod.mk.injEq, List.not_mem_nil, or_false, ← shAmt_eq] at hi
    rcases hi with ⟨rfl, rfl⟩ | ⟨rfl, rfl⟩ | ⟨rfl, rfl⟩ | ⟨rfl, rfl⟩ | ⟨rfl, rfl⟩ | ⟨rfl, rfl⟩ | ⟨rfl, rfl⟩ | ⟨rfl, rfl⟩ <;> rfl
  · obtain ⟨cc, rfl, he⟩ : ∃ cc : Cond, cond = cc.holds ∧ ∀ s, exec i s = scmp cc o s := by
      simp only [List.mem_cons, Prod.mk.injEq, List.not_mem_nil, or_false] at hi
      rcases hi with ⟨rfl, rfl⟩ | ⟨rfl, rfl⟩ | ⟨rfl, rfl⟩ | ⟨rfl, rfl⟩ | ⟨rfl, rfl⟩ | ⟨rfl, rfl⟩ | ⟨rfl, rfl⟩ | ⟨rfl, rfl⟩
      exacts [⟨.eq, rfl, fun _ => rfl⟩, ⟨.ne, rfl, fun _ => rfl⟩, ⟨.lt, rfl, fun _ => rfl⟩, ⟨.le, rfl, fun _ => rfl⟩,
        ⟨.ult, rfl, fun _ => rfl⟩, ⟨.ule, rfl, fun _ => rfl⟩, ⟨.tst, rfl, fun _ => rfl⟩, ⟨.ntst, rfl, fun _ => rfl⟩]
    exact scmp_runs he hd ha hb
  · have hok : (sField o.vd && sField o.va) = true := by simp [hd, ha]
    have he : ∀ s, exec (.saddi o) s = uniformWord { cls := 0, stall := o.st, reads := [.s o.va.toNat], writes := [.s o.vd.toNat] }
        (sField o.vd && sField o.va) (fun r => .s o.vd.toNat (r o.va.toNat + o.imm.signExtend 32)) s := fun _ => rfl
    exact ⟨completes_uniform he rfl hok (fun _ => rfl) fun _ => lt_thirtyTwo_of_sField hd, runsInProgram_uniform he hok fun _ => rfl⟩
  · have hm : ∀ s, exec (.smovi o) s = uniformWord { cls := 0, stall := o.st, writes := [.s o.sd.toNat] } true
        (fun _ => .s o.sd.toNat (o.imm.signExtend 32)) s := fun _ => rfl
    have hl : ∀ s, exec (.slui o) s = uniformWord { cls := 0, stall := o.st, reads := [.s o.sd.toNat], writes := [.s o.sd.toNat] } true
        (fun r => .s o.sd.toNat (o.imm ++ (r o.sd.toNat).extractLsb' 0 14)) s := fun _ => rfl
    exact ⟨completes_uniform hm rfl rfl (fun _ => rfl) fun _ => o.sd.isLt, completes_uniform hl rfl rfl (fun _ => rfl) fun _ => o.sd.isLt,
      runsInProgram_uniform hm rfl fun _ => rfl, runsInProgram_uniform hl rfl fun _ => rfl⟩

end Sys2Proof.Laws
end

section
/-! SUPPORT. Floating words, transcendentals, conversions and packing (R154 to R161), and the statements on them. -/

namespace Sys2Proof.Laws

open Sys2Proof Sys2Proof.Machine

/-! ### Rounding members (R154, R157, R158) -/

theorem floatChk_two_eq_none {c : Ctx} {va vb : BitVec 6} {l : Nat} (h : isFloatTag (c.t va l) = true ∧ c.t vb l = c.t va l) :
    floatChk c va vb true l = none := by
  simp [floatChk, h.1, h.2]

theorem floatChk_one_eq_none {c : Ctx} {va vb : BitVec 6} {l : Nat} (h : isFloatTag (c.t va l) = true) :
    floatChk c va vb false l = none := by
  simp [floatChk, h]

/-- A rounding member of FA0, its exact element given by `op`. -/
theorem rounds_fa0 {i : Instr} {o : A3} {op : Machine.Num → Machine.Num → Rm → Machine.Num × Bool} (he : ∀ s, exec i s = fa0 o op s) :
    Rounds i (aluInfo o.st o.pk [o.va, o.vb] [o.vd]) o.vd (fun c => c.active o.pk) (fun c => c.y.mode)
      (fun c => c.allActive o.pk fun l => isFloatTag (c.t o.va l) ∧ c.t o.vb l = c.t o.va l)
      (fun c l => tagCount (c.t o.va l))
      (fun c l j r =>
        let x := op (c.elem o.va o.va l j) (c.elem o.va o.vb l j) c.y.mode
        let q := (floatElem (c.t o.va l)).ofNum c.y.mode r x.1
        { q with fl := q.fl ||| (if x.2 then flagNV else 0) })
      (fun c l code => packElems (elemWidth (c.t o.va l)) (tagCount (c.t o.va l)) code) (fun c l => c.t o.va l) :=
  rounds_of he fun _ h => firstLane_bind (fun l hl => floatChk_two_eq_none (h l hl)) _

/-- Settles O10: each member is a rounding member of FA0. -/
theorem floatSumsAndProductsRoundOnce : Obligations.FloatSumsAndProductsRoundOnce := by
  unfold Obligations.FloatSumsAndProductsRoundOnce
  intro o i op hi
  refine rounds_fa0 (op := op) fun s => ?_
  simp only [List.mem_cons, Prod.mk.injEq, List.not_mem_nil, or_false] at hi
  rcases hi with ⟨rfl, rfl⟩ | ⟨rfl, rfl⟩ | ⟨rfl, rfl⟩ <;> rfl

/-- FFMA and FFMS; `addend` is what becomes of vc's value. -/
theorem rounds_fused {i : Instr} {o : B4} {sub : Bool} {addend : Machine.Num → Machine.Num} (he : ∀ s, exec i s = fused o sub s)
    (ha : ∀ x, addend x = if sub then x.neg else x) :
    Rounds i (aluInfo o.st 0 [o.va, o.vb, o.vc] [o.vd]) o.vd (fun c => c.m) (fun c => c.y.mode)
      (fun c => ∀ l, c.m.getLsbD l = true → isFloatTag (c.t o.va l) ∧ c.t o.vb l = c.t o.va l ∧ c.t o.vc l = c.t o.va l)
      (fun c l => tagCount (c.t o.va l))
      (fun c l j r =>
        let p := (c.elem o.va o.va l j).mul (c.elem o.va o.vb l j)
        let x := if p.2 then (Machine.Num.nan, true) else sumNum [p.1, addend (c.elem o.va o.vc l j)] c.y.mode
        let q := (floatElem (c.t o.va l)).ofNum c.y.mode r x.1
        { q with fl := q.fl ||| (if x.2 then flagNV else 0) })
      (fun c l code => packElems (elemWidth (c.t o.va l)) (tagCount (c.t o.va l)) code) (fun c l => c.t o.va l) := by
  obtain rfl : addend = fun x => if sub then x.neg else x := funext ha
  refine rounds_of he fun c h => firstLane_bind (fun l hl => ?_) _
  obtain ⟨ht, hb, hv⟩ := h l hl
  simp only [floatChk_two_eq_none ⟨ht, hb⟩, hv, if_true]

/-- Settles O12: FFMA, FFMS and FDOT each pass their check and round once. -/
theorem fusedAndDotRoundOnce : Obligations.FusedAndDotRoundOnce := by
  unfold Obligations.FusedAndDotRoundOnce
  constructor
  · intro o i addend hi
    obtain ⟨sub, ha, he⟩ : ∃ sub : Bool, (∀ x, addend x = if sub then x.neg else x) ∧ ∀ s, exec i s = fused o sub s := by
      simp only [List.mem_cons, Prod.mk.injEq, List.not_mem_nil, or_false] at hi
      rcases hi with ⟨rfl, rfl⟩ | ⟨rfl, rfl⟩
      exacts [⟨false, fun _ => rfl, fun _ => rfl⟩, ⟨true, fun _ => rfl, fun _ => rfl⟩]
    exact rounds_fused he ha
  · intro o
    have he : ∀ s, exec (.fdot o) s = execFdot o s := fun _ => rfl
    refine rounds_of he fun c h => firstLane_bind (fun l hl => ?_) _
    obtain ⟨ht, hb, hv⟩ := h l hl
    simp [ht, hb, hv]

/-! ### Selections and signs (R154) -/

/-- A member of FA0 that chooses or changes a code of two operands. -/
theorem completes_fa0Code2 {i : Instr} {o : A3} {op : Elem → Nat → Nat → Nat → Nat}
    (he : ∀ s, exec i s = fa0Code o.st o.vd o.va o.vb o.pk true op s) :
    Completes i (aluInfo o.st o.pk [o.va, o.vb] [o.vd]) (fun c => c.allActive o.pk fun l => isFloatTag (c.t o.va l) ∧ c.t o.vb l = c.t o.va l)
      (fun c => [.v o.vd.toNat (c.active o.pk)
        (lanes fun l => packElems (elemWidth (c.t o.va l)) (tagCount (c.t o.va l)) fun j => op (floatElem (c.t o.va l)) (elemWidth (c.t o.va l))
          (elemCode (elemWidth (c.t o.va l)) j (c.v o.va l)) (elemCode (elemWidth (c.t o.va l)) j (c.v o.vb l)))
        (tags fun l => c.t o.va l)]) :=
  completes_v he fun _ h => firstLane_bind (fun l hl => floatChk_two_eq_none (h l hl)) _

/-- A member of FA0 that changes the sign of a code. -/
theorem completes_fa0Sign {i : Instr} {o : A2} {neg : Nat → Nat → Bool}
    (he : ∀ s, exec i s = fa0Code o.st o.vd o.va 0 o.pk false (fun k w a _ => signCode k w a (neg w a)) s) :
    Completes i (aluInfo o.st o.pk [o.va] [o.vd]) (fun c => c.allActive o.pk fun l => isFloatTag (c.t o.va l))
      (fun c => [.v o.vd.toNat (c.active o.pk)
        (lanes fun l => packElems (elemWidth (c.t o.va l)) (tagCount (c.t o.va l)) fun j =>
          let w := elemWidth (c.t o.va l)
          let a := elemCode w j (c.v o.va l)
          if ((floatElem (c.t o.va l)).value a).isNan then (floatElem (c.t o.va l)).nan.code
          else a % 2 ^ (w - 1) + (if neg w a then 2 ^ (w - 1) else 0))
        (tags fun l => c.t o.va l)]) :=
  completes_v he fun _ h => firstLane_bind (fun l hl => floatChk_one_eq_none (h l hl)) _

/-- FMIN takes the first of two codes where it is below, FMAX where it is not. -/
theorem minMaxCode_eq (isMin : Bool) (k : Elem) (a b : Nat) : minMaxCode isMin k a b =
    if (k.value a).isNan && (k.value b).isNan then k.nan.code else if (k.value a).isNan then b else if (k.value b).isNan then a
    else if (k.value a).lt (k.value b) || (!(k.value b).lt (k.value a) && (k.value a).sign && !(k.value b).sign)
      then (if isMin then a else b) else if isMin then b else a := by
  simp only [minMaxCode]
  generalize ((k.value a).lt (k.value b) || (!(k.value b).lt (k.value a) && (k.value a).sign && !(k.value b).sign)) = below
  cases isMin <;> cases below <;> rfl

/-- Settles O11: each member chooses or re-signs its codes. -/
theorem floatSelectionsKeepCodes : Obligations.FloatSelectionsKeepCodes := by
  unfold Obligations.FloatSelectionsKeepCodes
  constructor
  · intro o i op hi
    refine completes_fa0Code2 (op := op) fun s => ?_
    simp only [List.mem_cons, Prod.mk.injEq, List.not_mem_nil, or_false] at hi
    rcases hi with ⟨rfl, rfl⟩ | ⟨rfl, rfl⟩ | ⟨rfl, rfl⟩
    · show fa0Code o.st o.vd o.va o.vb o.pk true (fun k _ a b => minMaxCode true k a b) s = _
      simp only [minMaxCode_eq, if_true]
    · show fa0Code o.st o.vd o.va o.vb o.pk true (fun k _ a b => minMaxCode false k a b) s = _
      simp only [minMaxCode_eq, Bool.false_eq_true, if_false]
    · show fa0Code o.st o.vd o.va o.vb o.pk true (fun k w a b => signCode k w a (b / 2 ^ (w - 1) % 2 = 1)) s = _
      simp only [signCode, decide_eq_true_eq]
  · intro o i neg hi
    refine completes_fa0Sign (neg := neg) fun s => ?_
    simp only [List.mem_cons, Prod.mk.injEq, List.not_mem_nil, or_false] at hi
    rcases hi with ⟨rfl, rfl⟩ | ⟨rfl, rfl⟩ <;> rfl

/-! ### Compares (R156) -/

/-- NV is bit 4 of FEXC (R138). -/
theorem flagNV_and_eq_zero {fexc : Word} (h : fexc.getLsbD 4 = false) : flagNV &&& fexc.extractLsb' 0 5 = 0#5 := by
  have e : flagNV = BitVec.twoPow 5 4 := rfl
  rw [e, BitVec.and_comm, BitVec.and_twoPow]
  simpa using h

/-- The flags of lanes that raise NV where `p` holds enable no trap, where FEXC leaves NV off or no lane raises it. -/
theorem fpxTrap_flagNV {m fexc : Word} {p : Nat → Bool} (h : fexc.getLsbD 4 = true → ∀ l, m.getLsbD l = true → p l = false) :
    fpxTrap m (fun l => flagIf (p l) flagNV) fexc = none := by
  apply fpxTrap_none
  intro l hl
  cases hx : fexc.getLsbD 4
  · cases p l
    · simp [flagIf]
    · simpa [flagIf] using flagNV_and_eq_zero hx
  · simp [flagIf, h hx l hl]

/-- `Completes` for a word that raises flags. -/
theorem completes_flags {i : Instr} {info : Info} {lat : Nat} {f : Ctx → Except Trap RegOut} {ok : Ctx → Prop} {w : Ctx → RegWrite}
    {fl : Ctx → Nat → FlagSet} (he : ∀ s, exec i s = aluWord info lat f s)
    (hf : ∀ c, ok c → f c = .ok { writes := [w c], flags := fl c }) (hx : ∀ c, ok c → fpxTrap c.m (fl c) c.y.fexc = none)
    (hr : ∀ c, ok c → (w c).inRange) : Completes i info ok (fun c => [w c]) (fun c => flagsOr c.m (fl c)) := by
  intro s c z hc hok
  rw [he]
  exact aluWord_writes hc (hf c hok) (hx c hok) (by simpa using hr c hok) (by simp)

theorem completes_fcmp {i : Instr} {o : A3} {ordered : Bool} {cond : Machine.Num → Machine.Num → Bool}
    (he : ∀ s, exec i s = fcmp o ordered cond s) :
    Completes i { aluInfo o.st o.pk [o.va, o.vb] [] with regsOk := fun _ => kWrite o.vd, writes := [.k o.vd.toNat] }
      (fun c => kWrite o.vd = true ∧ (c.allActive o.pk fun l => c.t o.va l = tF32 ∧ c.t o.vb l = tF32) ∧
        (ordered = true → c.y.fexc.getLsbD 4 = true →
          c.allActive o.pk fun l => (fmtF32.value (c.v o.va l).toNat).isNan = false ∧ (fmtF32.value (c.v o.vb l).toNat).isNan = false))
      (fun c => [.kl o.vd.toNat (c.active o.pk) (maskOf fun l =>
        cond (fmtF32.value (c.v o.va l).toNat) (fmtF32.value (c.v o.vb l).toNat))])
      (fun c => flagsOr c.m fun l => if ordered && (c.active o.pk).getLsbD l
        && ((fmtF32.value (c.v o.va l).toNat).isNan || (fmtF32.value (c.v o.vb l).toNat).isNan) then flagNV else 0) := by
  refine completes_flags he (fun c h => ?_) (fun c h => fpxTrap_flagNV fun hx l _ => ?_) fun c h => lt_twelve_of_kWrite h.1
  · exact firstLane_bind (fun l hl => by simp [(h.2.1 l hl).1, (h.2.1 l hl).2]) _
  · obtain ⟨-, -, hn⟩ := h
    cases ho : ordered
    · rfl
    · cases hl : (c.active o.pk).getLsbD l
      · rfl
      · simp [hn ho hx l hl]

/-- Settles O13: each comparison is FCMP with its condition; FCMP.CLS writes a V register. -/
theorem floatComparesSetTheActiveBits : Obligations.FloatComparesSetTheActiveBits := by
  unfold Obligations.FloatComparesSetTheActiveBits
  constructor
  · intro o i ordered cond hi
    refine completes_fcmp (ordered := ordered) (cond := cond) fun s => ?_
    simp only [List.mem_cons, Prod.mk.injEq, List.not_mem_nil, or_false] at hi
    rcases hi with ⟨rfl, rfl, rfl⟩ | ⟨rfl, rfl, rfl⟩ | ⟨rfl, rfl, rfl⟩ | ⟨rfl, rfl, rfl⟩ | ⟨rfl, rfl, rfl⟩ | ⟨rfl, rfl, rfl⟩ <;> rfl
  · exact fun o => completes_v (fun _ => rfl) fun c h => firstLane_bind (fun l hl => if_pos (h l hl)) _

/-! ### Transcendentals (R155) -/

/-- A word that clears finds its gang, with the stochastic state that it reads. -/
theorem gang_of_clears {s : State} {i : Info} {c : Ctx} {z : State} (h : s.clears i = some (c, z)) :
    ∃ x y, z.gang? c.b c.g = some (x, y) ∧ y.x = c.y.x := by
  obtain ⟨w, y, -, hg, -, hz⟩ := State.clears_ctx h
  refine ⟨{ c.x with gangs := c.x.gangs.set c.g (y.takeUp c.m c.pc c.hpc c.hdr) }, y.takeUp c.m c.pc c.hpc c.hdr, ?_, (State.clears_x h (by rw [State.gangAt, hg]; rfl)).symm⟩
  rw [hz]
  exact (State.gang?_of_fields rfl _ _).trans (State.gang?_setGang_self _ hg)

theorem modGang_congr {s : State} {b g : Nat} {x : Block} {y : Gang} {f h : Gang → Gang} (hg : s.gang? b g = some (x, y)) (e : f y = h y) :
    s.modGang b g f = s.modGang b g h := by
  rw [State.modGang_eq f hg, State.modGang_eq h hg, e]

/-- Whether an FA1 member takes draws: FRM rounds it, and its mode is SR (R155, R136). -/
def fa1Draws (fn : Nat) (c : Ctx) : Bool := c.y.mode = .sr && (fn = 0 || fn = 2 || fn = 3)

/-- The result of an FA1 member in a lane. -/
def fa1Result (fn : Nat) (o : A2) (c : Ctx) (l : Nat) : Rounded :=
  fa1Value fn (c.v o.va l) c.y.mode (if fa1Draws fn c then srDraw c.y.x (lanePos (c.active o.pk) l) else 0)

/-- The flags that an FA1 member raises in a lane. -/
def fa1Flags (fn : Nat) (o : A2) (c : Ctx) (l : Nat) : FlagSet := if (c.active o.pk).getLsbD l then (fa1Result fn o c l).fl else 0#5

theorem fa1_eq (fn : Nat) (o : A2) (s : State) : fa1 fn o s = issueWord { aluInfo o.st o.pk [o.va] [o.vd] with varLat := true }
    (fun c s =>
      match firstLane (c.active o.pk) (fun l => if c.t o.va l = tF32 then none else some (fmtTrap (c.t o.va l).toNat 0 0)) with
      | .error t => .trap t
      | .ok _ =>
        match fpxTrap c.m (fa1Flags fn o c) c.y.fexc with
        | some t => .trap t
        | none => .done ((s.modGang c.b c.g fun y =>
            { y with fflags := y.fflags ||| (flagsOr c.m (fa1Flags fn o c)).setWidth 32,
                     x := if fa1Draws fn c then srAfter y.x (laneCount (c.active o.pk)) else y.x }).addPend c { Pend.blank .transc with
            code := fn, dst := [(o.vd.toNat, Vector.replicate 32 tF32)], mask := c.active o.pk,
            vals := [lanes fun l => BitVec.ofNat 32 (fa1Result fn o c l).code] }) true) s := rfl

/-- An FA1 member goes pending with its results, its flags and draws taken. -/
theorem goesPending_fa1 {i : Instr} {o : A2} {fn : Nat} (he : ∀ s, exec i s = fa1 fn o s) :
    GoesPending i { aluInfo o.st o.pk [o.va] [o.vd] with varLat := true }
      (fun c _ => c.allActive o.pk fun l => c.t o.va l = tF32 ∧ (fa1Result fn o c l).fl &&& c.y.fexc.extractLsb' 0 5 = 0)
      (fun c _ => { Pend.blank .transc with
        code := fn, dst := [(o.vd.toNat, Vector.replicate 32 tF32)], mask := c.active o.pk,
        vals := [lanes fun l => BitVec.ofNat 32 (fa1Result fn o c l).code] })
      (fun c => flagsOr c.m (fa1Flags fn o c))
      (fun c => if fa1Draws fn c then some (srAfter c.y.x (laneCount (c.active o.pk))) else none) := by
  intro s c z hc hok
  have hchk : firstLane (c.active o.pk) (fun l => if c.t o.va l = tF32 then none else some (fmtTrap (c.t o.va l).toNat 0 0)) = .ok () :=
    firstLane_ok fun l hl => if_pos (hok l hl).1
  have hfpx : fpxTrap c.m (fa1Flags fn o c) c.y.fexc = none := by
    refine fpxTrap_none fun l _ => ?_
    by_cases ha : (c.active o.pk).getLsbD l = true
    · simp only [fa1Flags, ha, if_true]
      exact (hok l ha).2
    · simp [fa1Flags, ha]
  obtain ⟨x, y, hg, hy⟩ := gang_of_clears hc
  rw [he, fa1_eq]
  refine pending_flags hc ?_
  simp only [hchk, hfpx]
  rw [modGang_congr hg]
  cases fa1Draws fn c <;> simp [hy]

/-- Settles O14: each member is FA1 with its function code. -/
theorem transcendentalsGoPendingWithTheirResults : Obligations.TranscendentalsGoPendingWithTheirResults := by
  unfold Obligations.TranscendentalsGoPendingWithTheirResults
  intro o i fn hi
  refine goesPending_fa1 (fn := fn) fun s => ?_
  simp only [List.mem_cons, Prod.mk.injEq, List.not_mem_nil, or_false] at hi
  rcases hi with ⟨rfl, rfl⟩ | ⟨rfl, rfl⟩ | ⟨rfl, rfl⟩ | ⟨rfl, rfl⟩ | ⟨rfl, rfl⟩ | ⟨rfl, rfl⟩ | ⟨rfl, rfl⟩ | ⟨rfl, rfl⟩ <;> rfl

/-! ### Conversions (R159, R161) -/

theorem mxChk_bind {α : Type} {c : Ctx} {va : BitVec 6} {m : Word} {t : BitVec 5} (h : ∀ l, m.getLsbD l = true → c.t va l = tF32)
    (k : Except Trap α) : (do mxChk c va m t; k) = k :=
  firstLane_bind (fun l hl => if_pos (h l hl)) k

/-- Settles O15: CVT, MXQ and MXDQ pass their check and round; MXSC writes its scale. -/
theorem conversionsRoundOnce : Obligations.ConversionsRoundOnce := by
  unfold Obligations.ConversionsRoundOnce
  refine ⟨fun o _ => ?_, fun o _ => ⟨?_, ?_⟩, fun o => ?_⟩
  · have he : ∀ s, exec (.cvt o) s = execCvt o s := fun _ => rfl
    exact rounds_of he fun c h => firstLane_bind (fun l hl => h l hl) _
  · have he : ∀ s, exec (.mxq o) s = execMxq o s := fun _ => rfl
    exact rounds_of he fun c h => mxChk_bind h _
  · have he : ∀ s, exec (.mxsc o) s = execMxsc o s := fun _ => rfl
    refine completes_flags he (fun c h => mxChk_bind (fun l hl => (h l hl).1) _) (fun c h => fpxTrap_flagNV fun hx l _ => ?_) fun c _ => o.vd.isLt
    cases hl : (c.active o.pk).getLsbD l
    · rfl
    · exact (h l hl).2 hx
  · have he : ∀ s, exec (.mxdq o) s = execMxdq o s := fun _ => rfl
    exact rounds_of he fun c h => firstLane_bind (fun l hl => if_pos (h l hl)) _

/-! ### Packing (R160) -/

/-- Settles O16: each packing word passes its check and writes one V register, without a flag. -/
theorem packingMovesElements : Obligations.PackingMovesElements := by
  unfold Obligations.PackingMovesElements
  refine ⟨fun o => ⟨?_, ?_, ?_, ?_⟩, fun o => ⟨?_, ?_, ?_⟩, fun o => ?_⟩
  · exact completes_v (fun _ => rfl) fun c h => firstLane_bind (fun l hl => h l hl) _
  · exact completes_v (fun _ => rfl) fun c h => firstLane_bind (fun l hl => h l hl) _
  · refine completes_v (fun _ => rfl) fun c h => firstLane_bind (fun l hl => ?_) _
    simp [(h l hl).1, (h l hl).2]
  · exact completes_v (fun _ => rfl) fun c h => firstLane_bind (fun l hl => if_pos (h l hl)) _
  · exact completes_v (fun _ => rfl) fun c h => firstLane_bind (fun l hl => if_pos (h l hl)) _
  · exact completes_v (fun _ => rfl) fun c h => firstLane_bind (fun l hl => if_pos (h l hl)) _
  · exact completes_v (fun _ => rfl) fun c h => firstLane_bind (fun l hl => if_pos (by simpa using h l hl)) _
  · exact completes_v (fun _ => rfl) fun _ _ => rfl

end Sys2Proof.Laws
end

section
/-! SUPPORT. Loads, stores, atomics, fences and bindings (R186 to R198, R240 to R244, R257 to R266), and the statements on them. -/

namespace Sys2Proof.Laws

open Sys2Proof Sys2Proof.Machine

/-! ### LD, ST, MXLD and MXST -/

theorem memChecks_ok {z : State} {c : Ctx} {o : Mem} {size : Nat} {align : Bool}
    (h : ∀ l, c.m.getLsbD l = true → z.laneCheck c.x o.sp.toNat size align (laneAddr (c.v o.va l) o.off size) = none) :
    z.memChecks c o size align = .ok () := firstLane_ok h

/-- Settles O17: with every lane's check passed and no fence holding it, the access goes pending. -/
theorem loadsAndStoresGoPendingAtTheirAddresses : Obligations.LoadsAndStoresGoPendingAtTheirAddresses := by
  unfold Obligations.LoadsAndStoresGoPendingAtTheirAddresses
  intro o addr accs ok
  constructor
  · refine goesPending_of (fun s => (by unfold execLd; rfl : execLd o s = _)) fun c z h => ?_
    simp only [memChecks_ok h.1]
    exact if_neg (ne_true_of_eq_false h.2)
  · intro data
    refine goesPending_of (fun s => (by unfold execSt; rfl : execSt o s = _)) fun c z h => ?_
    simp only [memChecks_ok h.1]
    exact if_neg (ne_true_of_eq_false h.2)

/-- The lanes of a unit that hold equal scales pass MXST's check (R197). -/
theorem mxstCheck_ok {z : State} {c : Ctx} {o : Mem} {size : Nat}
    (hc : ∀ l, c.m.getLsbD l = true → z.laneCheck c.x o.sp.toNat size false (laneAddr (c.v o.va l) o.off size) = none)
    (ht : ∀ l, c.m.getLsbD l = true → c.t o.vd l = mxTag o.wf)
    (hs : ∀ l k, c.m.getLsbD l = true → c.m.getLsbD k = true →
      laneAddr (c.v o.va l) o.off size = laneAddr (c.v o.va k) o.off size → (c.v o.vd l).extractLsb' 24 8 = (c.v o.vd k).extractLsb' 24 8) :
    z.mxstCheck c o size = .ok () := by
  refine firstLane_ok fun l hl => ?_
  have hbad : ((lanesOf c.m).filter fun l => (lanesOf c.m).any fun k => laneAddr (c.v o.va k) o.off size = laneAddr (c.v o.va l) o.off size
      && (c.v o.vd k).extractLsb' 24 8 ≠ (c.v o.vd l).extractLsb' 24 8) = [] := by
    rw [List.filter_eq_nil_iff]
    intro l hl
    rw [mem_lanesOf] at hl
    simp only [List.any_eq_true, not_exists, mem_lanesOf]
    rintro k ⟨hk, h⟩
    simp only [Bool.and_eq_true, decide_eq_true_eq] at h
    exact h.2 (hs k l hk hl h.1)
  simp only [ht l hl, hc l hl, hbad]
  simp

/-- Settles O18: with the checks passed and no fence holding them, the unit accesses go pending. -/
theorem mxLoadsAndStoresGoPendingByUnit : Obligations.MxLoadsAndStoresGoPendingByUnit := by
  unfold Obligations.MxLoadsAndStoresGoPendingByUnit
  intro o _ addr ok
  constructor
  · refine goesPending_of (fun s => (by unfold execMxld; rfl : execMxld o s = _)) fun c z h => ?_
    simp only [memChecks_ok h.1]
    exact if_neg (ne_true_of_eq_false h.2)
  · refine goesPending_of (fun s => (by unfold execMxst; rfl : execMxst o s = _)) fun c z h => ?_
    obtain ⟨hc, ht, hs, hh⟩ := h
    simp only [mxstCheck_ok hc ht hs]
    exact if_neg (ne_true_of_eq_false hh)

/-! ### ATOM and ATOM64 -/

/-- A list that a partial function maps whole. -/
theorem filterMap_eq_map_of {α β : Type} {f : α → Option β} {g : α → β} {l : List α} (h : ∀ a ∈ l, f a = some (g a)) :
    l.filterMap f = l.map g := by
  induction l with
  | nil => rfl
  | cons a r ih =>
    rw [List.filterMap_cons, h a (by simp), List.map_cons]
    exact congrArg _ (ih fun b hb => h b (by simp [hb]))

theorem atomChecks_ok {z : State} {c : Ctx} {wide : Bool} {op sc : Nat} {va vb : BitVec 6} {loc : Nat → Loc}
    (h : ∀ l, c.m.getLsbD l = true → atomTags c wide op sc va vb l = none
      ∧ z.atomLoc c.x sc (if wide then 8 else 4) (c.atomAddr va sc l) (op = opALD) (atomPcie op) = .ok (loc l)) :
    atomChecks z c wide op sc va vb = .ok () :=
  firstLane_ok fun l hl => by simp only [(h l hl).1, (h l hl).2]

/-- An ATOM or ATOM64 goes pending, with one access for each lane at its site. -/
theorem goesPending_atomic {i : Instr} {wide : Bool} {op : Nat} {st sc : BitVec 2} {vd va vb : BitVec 6}
    (he : ∀ s, exec i s = atomic wide op st sc vd va vb s) :
    let size := if wide then 8 else 4
    let word : Ctx → BitVec 6 → Nat → List Byte := fun c r l => natLe size (if wide then (c.pair r l).toNat else (c.v r l).toNat)
    ∀ loc : Ctx → State → Nat → Loc,
      let accs : Ctx → State → List LaneAcc := fun c z => (lanesOf c.m).map fun l =>
        mkAcc c.y l (loc c z l) (c.atomAddr va sc.toNat l) size false (word c vb l) (word c vd l)
      let space : Ctx → State → Nat := fun c z => ((accs c z).head?.map fun a => atomSpace sc.toNat a.loc).getD sc.toNat
      GoesPending i
        { cls := 2, stall := st, varLat := true, sideEff := true, regsOk := fun _ => atomRegs wide op sc.toNat vd va vb,
          reads := vRefs (2 ≤ sc.toNat) va ++ (if op = 14 then [] else vRefs wide vb) ++ (if op = 10 then vRefs wide vd else []),
          writes := if op = 15 then [] else vRefs wide vd }
        (fun c z => (∀ l, c.m.getLsbD l = true → atomTags c wide op sc.toNat va vb l = none
            ∧ z.atomLoc c.x sc.toNat size (c.atomAddr va sc.toNat l) (op = 14) (atomPcie op) = .ok (loc c z l)
            ∧ z.atomLoc c.x sc.toNat size (c.atomAddr va sc.toNat l) (op = 14) true = .ok (loc c z l))
          ∧ z.held c.y (accOf .atom (space c z) (op ≠ 14) (accs c z)) = false)
        (fun c z => { Pend.blank .atomic with
          code := op + (if wide then 16 else 0), dst := atomDst c wide op vd vb, mask := c.m, accs := accs c z,
          scope := sc.toNat, space := space c z }) := by
  intro size word loc accs space
  refine goesPending_of (fun s => (he s).trans (by unfold atomic; rfl : atomic wide op st sc vd va vb s = _)) fun c z h => ?_
  obtain ⟨hl, hh⟩ := h
  have hchk := atomChecks_ok (fun l hm => ⟨(hl l hm).1, (hl l hm).2.1⟩)
  simp only [hchk]
  rw [filterMap_eq_map_of (g := fun l => mkAcc c.y l (loc c z l) (c.atomAddr va sc.toNat l) size false (word c vb l) (word c vd l))]
  · exact if_neg (ne_true_of_eq_false hh)
  · intro l hm
    rw [mem_lanesOf] at hm
    have hloc : z.atomLoc c.x sc.toNat (if wide = true then 8 else 4) (c.atomAddr va sc.toNat l) (op = opALD) true = .ok (loc c z l) :=
      (hl l hm).2.2
    simp only [hloc]
    rfl

/-- Settles O19: each member is the shared atomic with its op code. -/
theorem atomicsGoPendingAtTheirSites : Obligations.AtomicsGoPendingAtTheirSites := by
  unfold Obligations.AtomicsGoPendingAtTheirSites
  intro i wide op st sc vd va vb hi
  refine goesPending_atomic fun s => ?_
  rcases hi with ⟨o, rfl, rfl, rfl, rfl, rfl, hi⟩ | ⟨o, rfl, rfl, rfl, rfl, rfl, hi⟩ | ⟨o, rfl, rfl, rfl, rfl, rfl, hi⟩
  all_goals simp only [List.mem_cons, Prod.mk.injEq, List.not_mem_nil, or_false] at hi
  · rcases hi with h | h | h | h | h | h | h | h | h | h | h | h | h | h | h | h | h | h | h | h | h | h | h | h | h | h | h | h <;>
      (obtain ⟨rfl, rfl, rfl⟩ := h; rfl)
  all_goals rcases hi with ⟨rfl, rfl, rfl⟩ | ⟨rfl, rfl, rfl⟩ <;> rfl

/-! ### Fences -/

/-- A fence without an object joins its gang; a full one drops its lines. -/
theorem issues_fenceN {i : Instr} {o : FenceN} {dir : Nat} (he : ∀ s, exec i s = fence o.st o.pre o.suc o.sc dir none s) :
    Issues i { cls := 5, stall := o.st, sideEff := dir = 1 || dir = 3, regsOk := fun _ => o.pre ≠ 0 && o.suc ≠ 0 } (fun _ _ => True)
      (fun c z =>
        let s1 := z.modGang c.b c.g fun y => { y with fences := y.fences ++ [z.orderFence c.b c.g c.y o.pre o.suc o.sc.toNat] }
        (if dir = 3 then s1.fullDrop c.x o.sc.toNat else s1).pruneFences c.b c.g) :=
  issues_of (fun s => (he s).trans (by unfold fence; rfl)) fun _ _ _ => rfl

/-- The word of a pair of S registers that a FENCE names. -/
def fenceObj (o : FenceO) (c : Ctx) : DWord := c.y.getS2 o.obj.toNat

/-- The fences that a FENCE on an object adds, by its direction. -/
def objectFences (o : FenceO) (dir : Nat) (c : Ctx) (z : State) : List Fence :=
  (if dir = 1 || dir = 3 then [z.releaseFence c.x.ctx c.b c.g c.y o.pre o.suc o.sc.toNat (fenceObj o c)] else []) ++
    if dir = 2 || dir = 3 then [z.acquireFence c.x c.y o.pre o.suc o.sc.toNat (fenceObj o c)] else []

/-- A fence on an object at or above the object's point. -/
theorem issues_fenceO {i : Instr} {o : FenceO} {dir : Nat} (he : ∀ s, exec i s = fence o.st o.pre o.suc o.sc dir (some o.obj) s) :
    Issues i
      { cls := 5, stall := o.st, sideEff := dir = 1 || dir = 3, regsOk := fun _ => o.pre ≠ 0 && o.suc ≠ 0,
        reads := [.s o.obj.toNat, .s (o.obj.toNat + 1)] }
      (fun c z => (uform (fenceObj o c)).isSome = true ∧ (fenceObj o c).toNat % 8 = 0 ∧ z.objPoint c.x (fenceObj o c) ≤ o.sc.toNat)
      (fun c z =>
        let s1 := z.modGang c.b c.g fun y => { y with fences := y.fences ++ objectFences o dir c z }
        (if dir = 1 then s1 else s1.acquireDrop c.x o.sc.toNat (fenceObj o c)).pruneFences c.b c.g) := by
  refine issues_of (fun s => (he s).trans (by unfold fence; rfl)) fun c z h => ?_
  obtain ⟨hf, ha, hp⟩ := h
  obtain ⟨f, hf⟩ := Option.isSome_iff_exists.1 hf
  simp only [fenceObj] at hf ha hp
  simp only [hf, ha, ne_eq, not_true_eq_false, if_false, Nat.not_lt.2 hp]
  rfl

/-- A fence on an object below the object's point orders only (R240). -/
theorem issues_fenceO_below {i : Instr} {o : FenceO} {dir : Nat} (he : ∀ s, exec i s = fence o.st o.pre o.suc o.sc dir (some o.obj) s) :
    Issues i
      { cls := 5, stall := o.st, sideEff := dir = 1 || dir = 3, regsOk := fun _ => o.pre ≠ 0 && o.suc ≠ 0,
        reads := [.s o.obj.toNat, .s (o.obj.toNat + 1)] }
      (fun c z => (uform (fenceObj o c)).isSome = true ∧ (fenceObj o c).toNat % 8 = 0 ∧ o.sc.toNat < z.objPoint c.x (fenceObj o c))
      (fun c z => (z.modGang c.b c.g fun y =>
        { y with fences := y.fences ++ [z.orderFence c.b c.g c.y o.pre o.suc o.sc.toNat] }).pruneFences c.b c.g) := by
  refine issues_of (fun s => (he s).trans (by unfold fence; rfl)) fun c z h => ?_
  obtain ⟨hf, ha, hp⟩ := h
  obtain ⟨f, hf⟩ := Option.isSome_iff_exists.1 hf
  simp only [fenceObj] at hf ha hp
  simp only [hf, ha, ne_eq, not_true_eq_false, if_false, hp, if_true]

/-- Settles O20: each member is FENCE with its direction. -/
theorem fencesJoinTheirGang : Obligations.FencesJoinTheirGang := by
  unfold Obligations.FencesJoinTheirGang
  intro joined
  constructor
  · intro o _ _
    exact ⟨issues_fenceN (i := .fenceOrd o) (dir := 0) fun _ => rfl, issues_fenceN (i := .fenceFull o) (dir := 3) fun _ => rfl⟩
  · intro o _ _ obj info ok rel acq
    refine ⟨issues_fenceO (i := .fenceRel o) (dir := 1) fun _ => rfl, issues_fenceO (i := .fenceAcq o) (dir := 2) fun _ => rfl,
      issues_fenceO (i := .fenceBoth o) (dir := 3) fun _ => rfl, ?_⟩
    intro below i se hi
    rcases hi with ⟨rfl, rfl⟩ | ⟨rfl, rfl⟩ | ⟨rfl, rfl⟩
    · exact issues_fenceO_below (i := .fenceRel o) (dir := 1) fun _ => rfl
    · exact issues_fenceO_below (i := .fenceAcq o) (dir := 2) fun _ => rfl
    · exact issues_fenceO_below (i := .fenceBoth o) (dir := 3) fun _ => rfl

/-! ### BIND and UNBIND -/

theorem nbits_low (n hi : Nat) : nbits n hi 0 = n % 2 ^ (hi + 1) := by simp [nbits]

theorem nbits_word_top (a : Word) : nbits a.toNat 31 30 = a.toNat / 2 ^ 30 := by
  have := a.isLt
  simp only [nbits]
  omega

/-- The binding that BIND's operands give (R265). -/
def bindEntry (o : X4) (c : Ctx) (z : State) : Binding :=
  { base := c.y.getS2 o.a.toNat, len := (c.y.getS o.b.toNat).toNat % 2 ^ 30, scope := (c.y.getS o.b.toNat).toNat / 2 ^ 30,
    obj := c.y.getS2 o.c.toNat, owner := z.owner c.x.entry }

/-- BIND whose checks pass changes the table and writes its answer. -/
theorem issues_bind {o : X4} {ok : Ctx → State → Prop} {eff : Ctx → State → State}
    (hchk : ∀ c z, ok c z → bindCheck z c.x (bindEntry o c z).base (c.y.getS o.b.toNat) (bindEntry o c z).obj = none)
    (heff : ∀ c z, ok c z → (z.bind c.x.ctx (bindEntry o c z)).1.modGang c.b c.g (fun y => y.setS o.d.toNat (z.bind c.x.ctx (bindEntry o c z)).2) = eff c z) :
    Issues (.bind o)
      { cls := 5, stall := o.st, regsOk := fun _ => sEven o.a && sEven o.c,
        reads := [.s o.a.toNat, .s (o.a.toNat + 1), .s o.b.toNat, .s o.c.toNat, .s (o.c.toNat + 1)],
        writes := [.s o.d.toNat] } ok eff := by
  refine issues_of (fun s => (by unfold execBind; rfl : execBind o s = _)) fun c z h => ?_
  have hc := hchk c z h
  simp only [bindEntry] at hc
  rw [← heff c z h]
  simp only [hc, nbits_low, nbits_word_top]
  rfl

/-- Settles O21: BIND and UNBIND by what they find in the table. -/
theorem bindAndUnbindAnswerAnIndex : Obligations.BindAndUnbindAnswerAnIndex := by
  unfold Obligations.BindAndUnbindAnswerAnIndex
  constructor
  on_goal 1 => intro o entry info ok; refine ⟨fun n => ?_, fun n => ?_, ?_⟩
  on_goal 4 => intro o _ info hit; refine ⟨fun q => ?_, ?_⟩
  · refine issues_bind (fun c z h => h.1) fun c z h => ?_
    have hf : z.binds.find? (fun q => q.1 = c.x.ctx && q.2.2 = bindEntry o c z) = some (c.x.ctx, n, bindEntry o c z) := h.2
    simp only [State.bind, hf]
  · refine issues_bind (fun c z h => h.1) fun c z h => ?_
    have hf : z.binds.find? (fun q => q.1 = c.x.ctx && q.2.2 = bindEntry o c z) = none := h.2.1
    have hn : z.freeBind c.x.ctx = some n := h.2.2
    simp only [State.bind, hf, hn]
    rfl
  · refine issues_bind (fun c z h => h.1) fun c z h => ?_
    have hf : z.binds.find? (fun q => q.1 = c.x.ctx && q.2.2 = bindEntry o c z) = none := h.2.1
    have hn : z.freeBind c.x.ctx = none := h.2.2
    simp only [State.bind, hf, hn]
    rfl
  · refine issues_of (fun s => (by unfold execUnbind; rfl : execUnbind o s = _)) fun c z h => ?_
    simp only [hit] at h
    simp only [State.unbind, h]
  · refine issues_of (fun s => (by unfold execUnbind; rfl : execUnbind o s = _)) fun c z h => ?_
    simp only [hit] at h
    simp only [State.unbind, h]
    rfl

end Sys2Proof.Laws
end

section
/-! SUPPORT. Locks, barriers, TRYW, meeting points and tags (R65, R66, R217 to R219, R268 to R277), and the statements on them. -/

namespace Sys2Proof.Laws

open Sys2Proof Sys2Proof.Machine

/-! ### Lock words -/

theorem issues_lockWord {i : Instr} {op : Nat} {st sc : BitVec 2} {vd va vb : BitVec 6} (he : ∀ s, exec i s = lockWord op st sc vd va vb s)
    (loc : Ctx → State → Nat → Loc) :
    let accs : Ctx → State → List LaneAcc := fun c z => (lanesOf c.m).map fun l =>
      mkAcc c.y l (loc c z l) (c.atomAddr va sc.toNat l) 8 false (natLe 4 (c.v vb l).toNat) []
    let space : Ctx → State → Nat := fun c z => ((accs c z).head?.map fun a => atomSpace sc.toNat a.loc).getD sc.toNat
    let sent : Ctx → State → State := fun c z => z.addPend { c with hdr := 0x7FFF, nvl := 0 } { Pend.blank .lockop with
      code := op, mask := c.m, clause := some (c.hdr, c.nvl), accs := accs c z, scope := sc.toNat, space := space c z, kd := if vd = 0 then none else some vd.toNat }
    Issues i
      { cls := 5, stall := st, sideEff := true,
        regsOk := fun _ => sc.toNat ≤ 2 && (sc.toNat ≤ 1 || evenV va) && vd.toNat ≤ 11 && (2 ≤ op || vd ≠ 0),
        reads := vRefs (sc.toNat = 2) va ++ (if op < 2 || op = 4 then [.v vb.toNat] else []),
        writes := if vd = 0 then [] else [.k vd.toNat] }
      (fun c z => (∀ l, c.m.getLsbD l = true → lockTags z c op sc.toNat va vb l = none
          ∧ z.atomLoc c.x sc.toNat 8 (c.atomAddr va sc.toNat l) false true = .ok (loc c z l))
        ∧ z.held c.y (accOf .atom (space c z) (2 ≤ op) (accs c z)) = false)
      (fun c z => if op < 2 then (sent c z).modGang c.b c.g fun y => y.mapLanes c.m fun l k =>
          { k with wait := .lock (((accs c z).find? fun a => a.lane = l).map (·.loc) |>.getD (.loc c.b 0)) (op = 1) vd.toNat,
                   hint := some (c.v vb l).toNat }
        else sent c z)
      (decide (2 ≤ op)) := by
  intro accs space sent
  refine issues_of (fun s => (he s).trans (by unfold lockWord; rfl)) fun c z h => ?_
  obtain ⟨hl, hh⟩ := h
  rw [firstLane_ok fun l hm => by simp only [(hl l hm).1, (hl l hm).2]]
  dsimp only
  rw [filterMap_eq_map_of (g := fun l => mkAcc c.y l (loc c z l) (c.atomAddr va sc.toNat l) 8 false (natLe 4 (c.v vb l).toNat) [])]
  · refine (if_neg (ne_true_of_eq_false hh)).trans ?_
    by_cases hop : op < 2
    · simp only [hop, if_true, decide_eq_false (Nat.not_le.2 hop)]
      rfl
    · simp only [hop, if_false, decide_eq_true (Nat.not_lt.1 hop)]
      rfl
  · intro l hm
    rw [mem_lanesOf] at hm
    simp only [(hl l hm).2]

/-- Settles O22: each member is the shared lock word with its op code. -/
theorem lockWordsReachTheirSites : Obligations.LockWordsReachTheirSites := by
  unfold Obligations.LockWordsReachTheirSites
  intro i op st sc vd va vb hi loc
  refine issues_lockWord (fun s => ?_) loc
  rcases hi with ⟨o, rfl, rfl, rfl, rfl, rfl, hi⟩ | ⟨o, rfl, rfl, rfl, rfl, rfl, hi⟩ | ⟨o, rfl, rfl, rfl, rfl, rfl, hi⟩
  all_goals simp only [List.mem_cons, Prod.mk.injEq, List.not_mem_nil, or_false] at hi
  · rcases hi with ⟨rfl, rfl⟩ | ⟨rfl, rfl⟩ <;> rfl
  · rcases hi with ⟨rfl, rfl⟩ | ⟨rfl, rfl⟩ <;> rfl
  · obtain ⟨rfl, rfl⟩ := hi
    rfl

/-! ### Barriers -/

theorem issues_barWord {i : Instr} {o : XC} {wait : Bool} (he : ∀ s, exec i s = barWord o wait s) :
    Issues i { cls := 5, stall := o.st, sideEff := true, regsOk := fun _ => o.c.toNat < 8 }
      (fun c z => z.held c.y (arrivalAcc 0) = false)
      (fun c z => ((z.modBlock c.b fun x =>
        let p := x.arrive o.c.toNat c.g c.m
        if wait then
          { p.1 with gangs := p.1.gangs.modify c.g fun y => y.mapLanes c.m fun l k =>
              { k with wait := .bar o.c.toNat (if p.2.getLsbD l then (c.x.bar o.c.toNat).phase + 1 else (c.x.bar o.c.toNat).phase) } }
        else p.1).modBlock c.b Block.testBars).settle)
      (!wait) :=
  issues_of (fun s => (he s).trans (by unfold barWord; rfl)) fun _ _ h => if_neg (ne_true_of_eq_false h)

theorem issues_cbarWord {i : Instr} {o : X0} {wait : Bool} (he : ∀ s, exec i s = cbarWord o.st wait s) (u : Nat) :
    Issues i { cls := 5, stall := o.st, sideEff := true }
      (fun c z => c.x.unit = some u ∧ z.held c.y (arrivalAcc 1) = false ∧ z.peerEnded c.x = false)
      (fun c z =>
        let cb := z.cbar u
        let cur := arrivedOf cb.arrived (c.x.member, c.g)
        let s1 := z.setCbar { cb with arrived := assocSet cb.arrived (c.x.member, c.g) (cur ||| c.m),
                                      early := assocSet cb.early (c.x.member, c.g) (arrivedOf cb.early (c.x.member, c.g) ||| (c.m &&& cur)) }
        let s2 := if wait then s1.modGang c.b c.g fun y => y.mapLanes c.m fun l k =>
            { k with wait := .cbar (if (c.m &&& cur).getLsbD l then cb.phase + 1 else cb.phase) } else s1
        (s2.testCbar u 2).settle)
      (!wait) := by
  refine issues_of (fun s => (he s).trans (by unfold cbarWord; rfl)) fun c z h => ?_
  obtain ⟨hu, hh, hp⟩ := h
  simp only [hu, hh, hp, Bool.false_eq_true, if_false]

/-- Settles O23: BAR and CBAR are barrier words that wait, their arrivals ones that do not. -/
theorem barrierWordsArrive : Obligations.BarrierWordsArrive := by
  unfold Obligations.BarrierWordsArrive
  constructor
  · intro o i wait hi _
    refine issues_barWord (wait := wait) fun s => ?_
    simp only [List.mem_cons, Prod.mk.injEq, List.not_mem_nil, or_false] at hi
    rcases hi with ⟨rfl, rfl⟩ | ⟨rfl, rfl⟩ <;> rfl
  · intro o i wait hi u
    refine issues_cbarWord (wait := wait) (fun s => ?_) u
    simp only [List.mem_cons, Prod.mk.injEq, List.not_mem_nil, or_false] at hi
    rcases hi with ⟨rfl, rfl⟩ | ⟨rfl, rfl⟩ <;> rfl

/-! ### TRYW, JOIN, LEAVE and WAITK -/

/-- Settles O24: TRYW by what its object answers; the mask words in one case each. -/
theorem tryAndMaskWaitsAnswerOrWait : Obligations.TryAndMaskWaitsAnswerOrWait := by
  unfold Obligations.TryAndMaskWaitsAnswerOrWait
  refine ⟨fun o ob acc => ⟨fun t => ?_, ?_, ?_⟩, fun o _ _ => ⟨?_, ?_⟩, fun o _ => ?_⟩
  · refine raises_of (fun s => (by unfold execTryw; rfl : execTryw o s = _)) fun c z h => ?_
    obtain ⟨⟨ho, hh⟩, ht⟩ := h
    simp only [ho, hh, ht, Bool.false_eq_true, if_false]
  · refine issues_of (fun s => (by unfold execTryw; rfl : execTryw o s = _)) fun c z h => ?_
    obtain ⟨⟨ho, hh⟩, ht, hw⟩ := h
    simp only [ho, hh, ht, hw, Bool.false_eq_true, if_false, if_true]
  · refine issues_of (fun s => (by unfold execTryw; rfl : execTryw o s = _)) fun c z h => ?_
    obtain ⟨⟨ho, hh⟩, ht, hw⟩ := h
    simp only [ho, hh, ht, hw, Bool.false_eq_true, if_false]
  · exact issues_of (fun s => (by unfold execJoin meetSet; rfl : execJoin o s = _)) fun _ _ _ => rfl
  · exact issues_of (fun s => (by unfold execLeave meetSet; rfl : execLeave o s = _)) fun _ _ _ => rfl
  · exact issues_of (fun s => (by unfold execWaitk; rfl : execWaitk o s = _)) fun _ _ _ => rfl

/-! ### Tags -/

theorem mem_maskTags (m : DWord) (n : Nat) : n ∈ maskTags m ↔ n < 64 ∧ m.getLsbD n = true := by
  simp [maskTags]

/-- A mask bit at or beyond TAGS. -/
theorem maskBad_iff (x : Block) (m : DWord) : maskBad x m = true ↔ ∃ n, n < 64 ∧ m.getLsbD n = true ∧ x.lrec.tags ≤ n := by
  simp only [maskBad, List.any_eq_true, mem_maskTags, decide_eq_true_eq, and_assoc]

theorem maskBad_eq_false {x : Block} {m : DWord} (h : ∀ n, n < 64 → m.getLsbD n = true → n < x.lrec.tags) : maskBad x m = false := by
  rw [Bool.eq_false_iff, Ne, maskBad_iff]
  rintro ⟨n, hn, hm, ht⟩
  exact absurd (h n hn hm) (Nat.not_lt.2 ht)

/-- The condition of WTANY and WTALL over the tags that the mask names. -/
theorem tagsHold_iff (x : Block) (m : DWord) (all : Bool) :
    x.tagsHold m all = true ↔ if all then ∀ n, n < 64 → m.getLsbD n = true → (x.tag n).done = true
      else ∃ n, n < 64 ∧ m.getLsbD n = true ∧ (x.tag n).done = true := by
  cases all
  · simp [Block.tagsHold, mem_maskTags, and_assoc]
  · simp [Block.tagsHold, mem_maskTags]

theorem tagCause_eq_none {x : Block} {m : DWord} (h : ∀ n, n < 64 → m.getLsbD n = true → (x.tag n).done = true → (x.tag n).cause = none) :
    x.tagCause m = none := by
  have hf : (maskTags m).find? (fun i => (x.tag i).done && (x.tag i).cause.isSome) = none := by
    rw [List.find?_eq_none]
    intro n hn
    obtain ⟨h64, hm⟩ := (mem_maskTags m n).1 hn
    cases hd : (x.tag n).done
    · simp
    · simp [h n h64 hm hd]
  simp [Block.tagCause, hf]

/-- The first number of a mask that meets a test. -/
theorem find?_maskTags {m : DWord} {p : Nat → Bool} {n : Nat} (hn : n < 64) (hm : m.getLsbD n = true) (hp : p n = true)
    (h : ∀ j, j < n → m.getLsbD j = true → p j = false) : (maskTags m).find? p = some n := by
  rw [maskTags, List.find?_filter, List.find?_range_eq_some]
  refine ⟨by simp [hm, hp], by simpa using hn, fun j hj => ?_⟩
  cases hmj : m.getLsbD j
  · simp
  · simp [h j hj hmj]

theorem tagCause_eq_some {x : Block} {m : DWord} {n : Nat} {k : BitVec 8} {v : DWord} (hn : n < 64) (hm : m.getLsbD n = true)
    (hd : (x.tag n).done = true) (hc : (x.tag n).cause = some (k, v))
    (h : ∀ j, j < n → m.getLsbD j = true → (x.tag j).done = true → (x.tag j).cause = none) :
    x.tagCause m = some ({ cause := k, tval := v, defer := true }, x.setTag n { x.tag n with cause := none }) := by
  have hf : (maskTags m).find? (fun i => (x.tag i).done && (x.tag i).cause.isSome) = some n := by
    refine find?_maskTags hn hm (by simp [hd, hc]) fun j hj hmj => ?_
    cases hdj : (x.tag j).done
    · rfl
    · simp [h j hj hmj hdj]
  simp [Block.tagCause, hf, hc]

/-- The tag mask that a word's pair of S registers holds. -/
def tagMask (o : X4) (c : Ctx) : DWord := c.y.getS2 o.a.toNat

/-- The attributes of WTANY and WTALL. -/
def tagWaitInfo (o : X4) : Info :=
  { cls := 3, stall := o.st, regsOk := fun _ => sEven o.a && o.b = 0 && o.c = 0 && o.d = 0, reads := [.s o.a.toNat, .s (o.a.toNat + 1)] }

/-- WTANY and WTALL get to their test: no tag of the mask is at or beyond TAGS, WTANY's mask is not empty, no fence holds the wait. -/
def TagWaitOk (o : X4) (all : Bool) (c : Ctx) (z : State) : Prop :=
  (∀ n, n < 64 → (tagMask o c).getLsbD n = true → n < c.x.lrec.tags) ∧ (all = false → tagMask o c ≠ 0) ∧ z.held c.y waitAcc = false

/-- What WTANY and WTALL come to once they get to their test. -/
theorem issues_tagWait {i : Instr} {o : X4} {all next : Bool} {ok : Ctx → State → Prop} {eff : Ctx → State → State}
    (he : ∀ s, exec i s = tagWaitWord o all s) (hok : ∀ c z, ok c z → TagWaitOk o all c z)
    (h : ∀ c z, ok c z → (match c.x.tagWait (tagMask o c) all with
      | .trap t x' => .done ((z.putBlock x').takeTrap c.b c.g c.m c.pc t false) false
      | .go _ => .done z true
      | _ => .done (z.modGang c.b c.g fun y => y.mapLanes c.m fun _ k => { k with wait := .tags (tagMask o c) all }) false) = Eff.done (eff c z) next) :
    Issues i (tagWaitInfo o) ok eff next := by
  refine issues_of (fun s => (he s).trans (by unfold tagWaitWord; rfl)) fun c z hz => ?_
  obtain ⟨hb, h0, hh⟩ := hok c z hz
  have hbad : ¬(maskBad c.x (c.y.getS2 o.a.toNat) || (!all && decide (c.y.getS2 o.a.toNat = 0))) = true := by
    have h1 := maskBad_eq_false hb
    simp only [tagMask] at h1 h0
    cases all
    · simpa [h1] using h0 rfl
    · simp [h1]
  rw [if_neg hbad, if_neg (ne_true_of_eq_false hh)]
  exact h c z hz

/-- The condition of a tag wait, as the statement has it. -/
def TagsMet (o : X4) (all : Bool) (c : Ctx) : Prop :=
  if all then ∀ n, n < 64 → (tagMask o c).getLsbD n = true → (c.x.tag n).done = true
  else ∃ n, n < 64 ∧ (tagMask o c).getLsbD n = true ∧ (c.x.tag n).done = true

theorem raises_tagWait {i : Instr} {o : X4} {all : Bool} (he : ∀ s, exec i s = tagWaitWord o all s) :
    Raises i (tagWaitInfo o)
      (fun c _ => (∃ n, n < 64 ∧ (tagMask o c).getLsbD n = true ∧ c.x.lrec.tags ≤ n) ∨ (all = false ∧ tagMask o c = 0)) fun _ z => z.illTrap := by
  refine raises_of (fun s => (he s).trans (by unfold tagWaitWord; rfl)) fun c z h => ?_
  refine if_pos ?_
  rcases h with h | ⟨rfl, h0⟩
  · have hb := (maskBad_iff c.x (tagMask o c)).2 h
    simp only [tagMask] at hb
    simp [hb]
  · simp only [tagMask] at h0
    simp [h0]

/-- WTANY and WTALL, by their condition and the deferred causes. -/
theorem tagWait_cases {i : Instr} {o : X4} {all : Bool} (he : ∀ s, exec i s = tagWaitWord o all s) :
    Issues i (tagWaitInfo o)
      (fun c z => TagWaitOk o all c z ∧ TagsMet o all c
        ∧ ∀ n, n < 64 → (tagMask o c).getLsbD n = true → (c.x.tag n).done = true → (c.x.tag n).cause = none)
      (fun _ z => z) ∧
    (∀ (n : Nat) (k : BitVec 8) (v : DWord),
      Issues i (tagWaitInfo o)
        (fun c z => TagWaitOk o all c z ∧ TagsMet o all c ∧ n < 64 ∧ (tagMask o c).getLsbD n = true ∧ (c.x.tag n).done = true
          ∧ (c.x.tag n).cause = some (k, v)
          ∧ ∀ j, j < n → (tagMask o c).getLsbD j = true → (c.x.tag j).done = true → (c.x.tag j).cause = none)
        (fun c z => (z.modBlock c.x.id fun x => { c.x with
          tags := c.x.tags.set n { c.x.tag n with cause := none }, gangs := x.gangs }).takeTrap c.b c.g c.m c.pc
            { cause := k, tval := v, defer := true } false) false) ∧
    Issues i (tagWaitInfo o) (fun c z => TagWaitOk o all c z ∧ ¬TagsMet o all c)
      (fun c z => z.modGang c.b c.g fun y => y.mapLanes c.m fun _ k => { k with wait := .tags (tagMask o c) all }) false := by
  have hm : ∀ c, TagsMet o all c ↔ c.x.tagsHold (tagMask o c) all = true := fun c => (tagsHold_iff c.x (tagMask o c) all).symm
  refine ⟨issues_tagWait he (fun _ _ h => h.1) fun c z h => ?_, fun n k v => issues_tagWait he (fun _ _ h => h.1) fun c z h => ?_,
    issues_tagWait he (fun _ _ h => h.1) fun c z h => ?_⟩
  · obtain ⟨-, hmet, hnone⟩ := h
    simp only [Block.tagWait, (hm c).1 hmet, tagCause_eq_none hnone, if_true]
  · obtain ⟨-, hmet, hn, hb, hd, hc, hlow⟩ := h
    simp only [Block.tagWait, (hm c).1 hmet, tagCause_eq_some hn hb hd hc hlow, if_true]
    rfl
  · simp only [Block.tagWait, (Bool.not_eq_true _).mp ((hm c).not.1 h.2), Bool.false_eq_true, if_false]

/-- Settles O25: WTANY and WTALL by their condition and the deferred causes, the others in one case each. -/
theorem tagWordsTestAndReadTags : Obligations.TagWordsTestAndReadTags := by
  unfold Obligations.TagWordsTestAndReadTags
  intro illegal
  constructor
  · intro o i all hi info mask ok met
    have he : ∀ s, exec i s = tagWaitWord o all s := by
      intro s
      simp only [List.mem_cons, Prod.mk.injEq, List.not_mem_nil, or_false] at hi
      rcases hi with ⟨rfl, rfl⟩ | ⟨rfl, rfl⟩ <;> rfl
    obtain ⟨hgo, htrap, hwait⟩ := tagWait_cases he
    exact ⟨hgo, htrap, hwait, raises_tagWait he⟩
  · intro o mask ok beyond ffrdy tagclr tagrd n
    refine ⟨?_, ?_, ?_, ?_, ?_, ?_⟩
    · refine issues_of (fun s => (by unfold execFfrdy; rfl : execFfrdy o s = _)) fun c z h => ?_
      refine (if_neg (ne_true_of_eq_false (maskBad_eq_false h))).trans ?_
      simp only [maskTags, List.find?_filter, Bool.decide_and, Bool.decide_eq_true]
      rfl
    · exact raises_of (fun s => (by unfold execFfrdy; rfl : execFfrdy o s = _)) fun c z h => if_pos ((maskBad_iff _ _).2 h)
    · exact issues_of (fun s => (by unfold execTagclr; rfl : execTagclr o s = _)) fun c z h =>
        if_neg (ne_true_of_eq_false (maskBad_eq_false h))
    · exact raises_of (fun s => (by unfold execTagclr; rfl : execTagclr o s = _)) fun c z h => if_pos ((maskBad_iff _ _).2 h)
    · refine issues_of (fun s => (by unfold execTagrd; rfl : execTagrd o s = _)) fun c z h => ?_
      have hn : ¬(decide (64 ≤ (c.y.getS o.b.toNat).toNat) || decide (c.x.lrec.tags ≤ (c.y.getS o.b.toNat).toNat)) = true := by
        simpa using h
      exact if_neg hn
    · refine raises_of (fun s => (by unfold execTagrd; rfl : execTagrd o s = _)) fun c z h => ?_
      have hn : (decide (64 ≤ (c.y.getS o.b.toNat).toNat) || decide (c.x.lrec.tags ≤ (c.y.getS o.b.toNat).toNat)) = true := by
        simpa using h
      exact if_pos hn

end Sys2Proof.Laws
end

section
/-! SUPPORT. Transaction barriers, standing loads and the start of an operation (R199, R201, R220 to R225, R279 to R290), and the statements
on them. -/

namespace Sys2Proof.Laws

open Sys2Proof Sys2Proof.Machine

/-! ### Transaction barriers -/

/-- TBARV and TBEXP, on the block's own barrier and on a member's. -/
theorem tbChange_cases {i : Instr} {o : TbArv} {f : Nat → Tb → Tb} (he : ∀ s, exec i s = tbChange o f s) :
    let info : Info := { cls := 5, stall := o.st, sideEff := true, reads := [.s o.a.toNat, .s o.b.toNat] }
    let at_ : Ctx → Nat := fun c => (c.y.getS o.a.toNat).toNat
    let n : Ctx → Nat := fun c => (c.y.getS o.b.toNat).toNat
    Issues i info
      (fun c z => o.w ≠ 1#1 ∧ tbCheck c.x (c.y.getS o.a.toNat) = none ∧ n c < 2 ^ 31
        ∧ z.held c.y { arrivalAcc 0 with ranges := [(uaOf 0 (at_ c), 16)] } = false)
      (fun c z => (z.modBlock c.b fun x => x.setTb (at_ c) (f (n c) (x.tb (at_ c)))).settle) ∧
    ∀ y : Block, Issues i info
      (fun c z => o.w = 1#1 ∧ tbWinCheck c.x (c.y.getS o.a.toNat) = none ∧ n c < 2 ^ 31 ∧ c.x.unit.isSome = true ∧ at_ c < 2 ^ 21
        ∧ z.held c.y { arrivalAcc 1 with ranges := [(uaOf 1 (at_ c), 16)] } = false
        ∧ z.memberOf c.x (at_ c / 2 ^ 19 % 4) = some y ∧ (y.tb (at_ c % 2 ^ 19)).remote = true)
      (fun c z => (z.modBlock y.id fun x => x.setTb (at_ c % 2 ^ 19) (f (n c) (x.tb (at_ c % 2 ^ 19)))).settle) := by
  intro info at_ n
  refine ⟨issues_of (fun s => (he s).trans (by unfold tbChange; rfl)) fun c z h => ?_,
    fun y => issues_of (fun s => (he s).trans (by unfold tbChange; rfl)) fun c z h => ?_⟩
  · obtain ⟨hw, hchk, hn, hh⟩ := h
    simp only [n, at_] at hn hh
    simp only [hw, hchk, hh, Nat.not_le.2 hn, if_false, decide_false, Bool.false_eq_true, Bool.not_false, if_true, n, at_]
  · obtain ⟨hw, hchk, hn, hu, hat, hh, hm, hr⟩ := h
    obtain ⟨u, hu⟩ := Option.isSome_iff_exists.1 hu
    have hwin : nbits (at_ c) 20 19 = at_ c / 2 ^ 19 % 4 := rfl
    have hoff : nbits (at_ c) 18 0 = at_ c % 2 ^ 19 := nbits_low _ _
    have hdiv : at_ c / 2 ^ 21 = 0 := Nat.div_eq_of_lt hat
    simp only [n, at_] at hn hh hwin hoff hdiv hm hr
    simp only [hw, hchk, hh, Nat.not_le.2 hn, hu, hwin, hoff, hdiv, hm, hr, decide_true, if_true, if_false, Bool.not_true, Option.isNone_some,
      ne_eq, not_true_eq_false, decide_false, Bool.or_false, Bool.false_eq_true, n, at_]

/-- TBWAIT and TBTRY: past the phase they go on, in it their lanes wait. -/
theorem tbWait_cases {i : Instr} {st : BitVec 2} {ra rb rc : BitVec 5} {kd : Option (BitVec 5)} (he : ∀ s, exec i s = tbWaitWord st ra rb kd rc s) :
    let info : Info := { cls := 5, stall := st, regsOk := fun _ => (match kd with | some k => 1 ≤ k.toNat && k.toNat ≤ 11 | none => true),
                         reads := [.s ra.toNat, .s rb.toNat] ++ (match kd with | some _ => [.s rc.toNat] | none => []),
                         writes := match kd with | some k => [.k k.toNat] | none => [] }
    let at_ : Ctx → Nat := fun c => (c.y.getS ra.toNat).toNat
    let ok : Ctx → State → Prop := fun c z => tbCheck c.x (c.y.getS ra.toNat) = none ∧ (c.x.tb (at_ c)).underflow = false
      ∧ z.held c.y { waitAcc with ranges := [(uaOf 0 (at_ c), 16)] } = false
    Issues i info
      (fun c z => ok c z ∧ (c.x.tb (at_ c)).phase ≠ (c.y.getS rb.toNat).extractLsb' 0 4 ∧ c.x.barCause (at_ c) = none)
      (fun c z => match kd with | some k => z.modGang c.b c.g fun y => y.answer k.toNat c.m true | none => z) ∧
    Issues i info
      (fun c z => ok c z ∧ (c.x.tb (at_ c)).phase = (c.y.getS rb.toNat).extractLsb' 0 4)
      (fun c z => z.modGang c.b c.g fun y => y.mapLanes c.m fun _ l =>
        { l with wait := .tb (at_ c) ((c.y.getS rb.toNat).extractLsb' 0 4) (kd.map (·.toNat)),
                 hint := kd.map fun _ => (c.y.getS rc.toNat).toNat }) false := by
  cases kd
  all_goals
    intro info at_ ok
    refine ⟨issues_of (fun s => (he s).trans (by unfold tbWaitWord; rfl)) fun c z h => ?_,
      issues_of (fun s => (he s).trans (by unfold tbWaitWord; rfl)) fun c z h => ?_⟩
    · obtain ⟨⟨hchk, hu, hh⟩, hp, hc⟩ := h
      simp only [at_] at hu hh hp hc
      simp only [hchk, hh, Block.tbWait, hu, hp, hc, Bool.false_eq_true, if_false, Option.map_none, Option.map_some]
    · obtain ⟨⟨hchk, hu, hh⟩, hp⟩ := h
      simp only [at_] at hu hh hp
      simp only [hchk, hh, Block.tbWait, hu, hp, Bool.false_eq_true, if_false, if_true, Option.map_none, Option.map_some, at_]

/-- Settles O26: each member by its checks, the phase and the member that it names. -/
theorem transactionBarrierWordsChangeOrTestTheBarrier : Obligations.TransactionBarrierWordsChangeOrTestTheBarrier := by
  unfold Obligations.TransactionBarrierWordsChangeOrTestTheBarrier
  refine ⟨fun o => ?_, fun o i f hi => ?_, fun i st ra rb rc kd hi => ?_, fun o => ?_⟩
  · refine issues_of (fun s => (by unfold execTbinit; rfl : execTbinit o s = _)) fun c z h => ?_
    obtain ⟨hchk, h1, h2, hh⟩ := h
    have hn : ¬(decide ((c.y.getS o.b.toNat).toNat = 0) || decide (1048575 < (c.y.getS o.b.toNat).toNat)) = true := by
      simp only [Bool.or_eq_true, decide_eq_true_eq, not_or]
      omega
    simp only [hchk, hn, hh, if_false, Bool.false_eq_true]
  · refine tbChange_cases (i := i) (o := o) (f := f) fun s => ?_
    simp only [List.mem_cons, Prod.mk.injEq, List.not_mem_nil, or_false] at hi
    rcases hi with ⟨rfl, rfl⟩ | ⟨rfl, rfl⟩ <;> rfl
  · rcases hi with ⟨o, rfl, rfl, rfl, rfl, rfl, rfl⟩ | ⟨o, rfl, rfl, rfl, rfl, rfl, rfl⟩
    · exact tbWait_cases (i := .tbwait o) (st := o.st) (ra := o.a) (rb := o.b) (rc := 0) (kd := none) fun _ => rfl
    · exact tbWait_cases (i := .tbtry o) (st := o.st) (ra := o.a) (rb := o.b) (rc := o.c) (kd := some o.d) fun _ => rfl
  · refine goesPending_of (fun s => (by unfold execTbrd; rfl : execTbrd o s = _)) fun c z h => ?_
    simp only [h.1]
    exact if_neg (ne_true_of_eq_false h.2)

/-! ### Standing loads -/

/-- Settles O27: each member by its checks and by what the table of subscriptions holds. -/
theorem standingLoadWordsStart : Obligations.StandingLoadWordsStart := by
  unfold Obligations.StandingLoadWordsStart
  refine ⟨fun o s1 => ?_, fun o => ?_, fun o => ?_, fun o => ?_⟩
  · intro every r size base n
    refine issues_of (fun s => (by unfold execSld; rfl : execSld o s = _)) fun c z h => ?_
    obtain ⟨hchk, hbusy, hdir, hopen⟩ := h
    have hr : nbits (c.y.getS o.c.toNat).toNat 4 2 = (c.y.getS o.c.toNat).toNat / 4 % 8 := rfl
    simp only [every, r, base, size, n] at hbusy hopen
    simp only [hchk, hr, footprint, hbusy, Bool.false_eq_true, if_false, Nat.not_le.2 hdir, hopen]
  · intro a off info ok
    have hoff : ∀ c, nbits (a c).toNat 18 0 = off c := fun c => nbits_low _ _
    simp only [a, off] at hoff
    refine ⟨issues_of (fun s => (by unfold execSlwait; rfl : execSlwait o s = _)) fun c z h => ?_,
      issues_of (fun s => (by unfold execSlwait; rfl : execSlwait o s = _)) fun c z h => ?_⟩
    · obtain ⟨⟨hchk, hbusy, hh⟩, hs⟩ := h
      simp only [a, off] at hchk hbusy hh hs
      simp only [hchk, hoff, hbusy, hh, Bool.or_self, Bool.false_eq_true, if_false, hs, if_true, off, a]
    · obtain ⟨⟨hchk, hbusy, hh⟩, hs⟩ := h
      simp only [a, off] at hchk hbusy hh hs
      simp only [hchk, hoff, hbusy, hh, Bool.or_self, Bool.false_eq_true, if_false, hs, off, a]
  · intro base n info
    have hcount : ∀ c, 1 ≤ n c → n c ≤ 16 → (decide (n c = 0) || decide (16 < n c)) = false := by
      intro c h1 h2
      simp only [Bool.or_eq_false_iff, decide_eq_false_iff_not]
      omega
    refine ⟨issues_of (fun s => (by unfold execSlack; rfl : execSlack o s = _)) fun c z h => ?_, ?_⟩
    · obtain ⟨h1, h2, hsld, hsub⟩ := h
      have hn := hcount c h1 h2
      simp only [base, n] at hsld hsub hn
      simp only [hsld, hsub, hn, Option.isSome_none, Bool.or_self, Bool.false_eq_true, if_false]
    · intro u ctl di ci
      refine issues_of (fun s => (by unfold execSlack; rfl : execSlack o s = _)) fun c z h => ?_
      obtain ⟨h1, h2, hsld, hsub, he, hd⟩ := h
      have hn := hcount c h1 h2
      simp only [base, n, di, ci, ctl] at hsld hsub hn hd
      simp only [hsld, hsub, hn, he, Option.isSome_none, Bool.or_self, Bool.not_true, Bool.false_eq_true, if_false, Nat.not_lt.2 hd, base, n, ci, ctl]
  · exact issues_of (fun s => (by unfold execUsub; rfl : execUsub o s = _)) fun c z h => by simp only [h]

/-! ### The start of an operation (R199, R201) -/

/-- A pin changes only its slot's count of pins. -/
theorem pin_eq_some {s s1 : State} {n : Nat} (h : s.pin n = some s1) : s1 = s.setRoot n { s.root n with pins := (s.root n).pins + 1 } := by
  simp only [State.pin] at h
  split at h
  · exact (Option.some.inj h).symm
  · cases h

theorem block?_modBlock_self {s : State} {b : Nat} {f : Block → Block} {x : Block} (hid : ∀ x, (f x).id = x.id) (h : s.block? b = some x) :
    (s.modBlock b f).block? b = some (f x) := by
  obtain rfl : (f x).id = b := (hid x).trans (State.block?_mem h).2
  simp only [State.modBlock, h]
  exact State.block?_setBlock_self h

theorem block?_modBlock_none {s : State} {b : Nat} {f : Block → Block} (h : s.block? b = none) : s.modBlock b f = s := by
  simp only [State.modBlock, h]

theorem block?_modBlock_ne {s : State} {b b' : Nat} {f : Block → Block} (hid : ∀ x, (f x).id = x.id) (h : b' ≠ b) :
    (s.modBlock b f).block? b' = s.block? b' := by
  cases hb : s.block? b with
  | none => rw [block?_modBlock_none hb]
  | some x =>
    simp only [State.modBlock, hb]
    exact State.block?_setBlock_ne (by rwa [hid, (State.block?_mem hb).2])

/-- A change of a block that leaves its memory changes no byte. -/
theorem readByte_modBlock {s : State} {b : Nat} {f : Block → Block} (hid : ∀ x, (f x).id = x.id) (hf : ∀ x, (f x).mem = x.mem) (l : Loc) :
    (s.modBlock b f).readByte l = s.readByte l := by
  cases l with
  | loc b' o =>
    by_cases hb : b' = b
    · subst hb
      cases hx : s.block? b' with
      | none => rw [block?_modBlock_none hx]
      | some x => simp only [State.readByte, block?_modBlock_self hid hx, hx, hf]
    · simp only [State.readByte, block?_modBlock_ne hid hb]
  | tun d o => simp [State.readByte]
  | hbm a => simp [State.readByte]
  | lender e a => simp [State.readByte]
  | host p a => simp [State.readByte]

/-- The tags of a block are no gang's. -/
theorem tags_block?_modGang {s : State} {b b' g : Nat} {f : Gang → Gang} {x : Block} (h : s.block? b' = some x) :
    ∃ x1, (s.modGang b g f).block? b' = some x1 ∧ x1.tags = x.tags := by
  cases hg : s.gang? b g with
  | none => exact ⟨x, by simp only [State.modGang, hg, h], rfl⟩
  | some p =>
    rw [State.modGang_eq f hg]
    have hr := State.block?_setGang_rest s b g b' (f p.2)
    rw [h, Option.map_some, Option.map_eq_some_iff] at hr
    obtain ⟨x1, h1, he⟩ := hr
    exact ⟨x1, h1, by simpa using congrArg Block.tags he⟩

/-- A tag that is marked is busy, with no status. -/
def busyTag : Tag := { busy := true, done := false, status := 0, detail := 0, cause := none }

theorem markTag_eq (s : State) (x : Block) (w : Word) :
    s.markTag x w = if w.getLsbD 31 then s else s.modBlock x.id fun y => y.setTag (nbits w.toNat 5 0) busyTag := rfl

@[simp] theorem markTag_roots (s : State) (x : Block) (w : Word) : (s.markTag x w).roots = s.roots := by
  rw [markTag_eq]; split <;> simp

theorem readByte_markTag (s : State) (x : Block) (w : Word) (l : Loc) : (s.markTag x w).readByte l = s.readByte l := by
  rw [markTag_eq]
  split
  · rfl
  · exact readByte_modBlock (f := fun y => y.setTag (nbits w.toNat 5 0) busyTag) (fun _ => rfl) (fun _ => rfl) l

/-- The state after an operation's pin, if it takes one. -/
def startPin (s : State) (n : Nat) (pin : Bool) : Option State := if pin then s.pin n else some s

theorem startPin_eq_some {s z : State} {n : Nat} {pin : Bool} (h : startPin s n pin = some z) :
    ∃ r, z = { s with roots := r } ∧ (pin = true → (z.root n).pins = (s.root n).pins + 1) ∧ (pin = false → z.roots = s.roots) := by
  cases pin with
  | true =>
    obtain rfl := pin_eq_some h
    exact ⟨_, rfl, fun _ => by rw [root_setRoot_self], nofun⟩
  | false =>
    obtain rfl := Option.some.inj h
    exact ⟨_, rfl, nofun, fun _ => rfl⟩

/-- What starting an operation comes to: its pin, then its mark, then its place in the gang's order. -/
theorem openOp_eq_some {s s1 : State} {c : Ctx} {kind : OpKind} {compl : Word} {pin : Bool} {rd wr : List (DWord × Nat)} {point : Nat}
    (h : s.openOp c kind compl pin rd wr point = some s1) :
    ∃ z, startPin s c.x.rootSlot pin = some z ∧
      s1 = { (z.markTag c.x compl).modGang c.b c.g (fun y => { y with seq := y.seq + 1 }) with
        ops := s.ops ++ [{ id := s.nextId, kind := kind, b := c.b, g := c.g, seq := c.y.seq, compl := compl,
                           slot := if pin then some c.x.rootSlot else none, reads := [], landed := [], fault := none,
                           reads_ := rd, writes_ := wr, point := point, away := false, recN := c.y.recN }],
        nextId := s.nextId + 1 } := by
  unfold State.openOp at h
  cases hp : startPin s c.x.rootSlot pin with
  | none => rw [show (if pin then s.pin c.x.rootSlot else some s) = none from hp] at h; cases h
  | some z =>
    rw [show (if pin then s.pin c.x.rootSlot else some s) = some z from hp] at h
    exact ⟨z, rfl, (Option.some.inj h).symm⟩

theorem root_of_roots {s t : State} (h : s.roots = t.roots) (n : Nat) : s.root n = t.root n := by
  unfold State.root; rw [h]

/-- Settles O28: the start takes the pin, marks the tag and appends the operation. -/
theorem startingAnOperationPinsMarksAndJoins : Obligations.StartingAnOperationPinsMarksAndJoins := by
  unfold Obligations.StartingAnOperationPinsMarksAndJoins
  intro s s1 c kind compl pin rd wr point h
  obtain ⟨z, hz, rfl⟩ := openOp_eq_some h
  obtain ⟨r, rfl, hpin, hno⟩ := startPin_eq_some hz
  refine ⟨rfl, rfl, fun hp => ?_, fun hp => ?_, fun l => ?_, fun x n hx hw hn hl => ?_⟩
  · rw [← hpin hp, root_of_roots (t := { s with roots := r })]
    simp
  · simpa using hno hp
  · have h1 : (((({ s with roots := r } : State).markTag c.x compl).modGang c.b c.g (fun y => { y with seq := y.seq + 1 })).readByte l) = ({ s with roots := r } : State).readByte l := by
      rw [State.readByte_modGang, readByte_markTag]
    exact (State.readByte_of_fields rfl rfl rfl rfl rfl l).trans (h1.trans (State.readByte_of_fields rfl rfl rfl rfl rfl l))
  · have h1 : (({ s with roots := r } : State).markTag c.x compl).block? c.x.id = some (x.setTag (nbits compl.toNat 5 0) busyTag) := by
      rw [markTag_eq, hw, if_neg Bool.false_ne_true]
      exact block?_modBlock_self (f := fun y => y.setTag (nbits compl.toNat 5 0) busyTag) (fun _ => rfl) hx
    obtain ⟨x1, h2, ht⟩ := tags_block?_modGang (b := c.b) (g := c.g) (f := fun y => { y with seq := y.seq + 1 }) h1
    refine ⟨x1, h2, ht.trans ?_⟩
    rw [nbits_low] at *
    subst hn
    rfl

end Sys2Proof.Laws
end

section
/-! SUPPORT. Copies, gathers, scatters, KVL and collectives at their issue (R200 to R206, R327, R383), and the statement on them. -/

namespace Sys2Proof.Laws

open Sys2Proof Sys2Proof.Machine

/-! ### Checks made in order -/

@[simp] theorem firstTrap_nil : firstTrap [] = none := rfl

@[simp] theorem firstTrap_cons_none (l : List (Option Trap)) : firstTrap (none :: l) = firstTrap l := rfl

theorem firstTrap_pair {a b : Option Trap} (ha : a = none) (hb : b = none) : firstTrap [a, b] = none := by subst ha hb; rfl

theorem alignCheck_eq_none {a : DWord} {al : Nat} (h : a.toNat % al = 0) : alignCheck a al = none := by simp [alignCheck, h]

@[simp] theorem illIf_false (s : State) : s.illIf false = none := rfl

theorem nbits_eq_zero {n hi lo : Nat} (h : n < 2 ^ lo) : nbits n hi lo = 0 := by
  rw [nbits, Nat.div_eq_of_lt h, Nat.zero_mod]

/-! ### The start of a copy -/

/-- A copy that no fence holds, whose charge is within the budget, whose pin is taken and which has sectors, is charged and starts. -/
theorem startCopy_eq_done {z s1 : State} {c : Ctx} {kind : OpKind} {compl : Word} {units : Nat} {rd wr : List (DWord × Nat)} {point : Nat}
    (hc : kind.count ≠ 0) (hh : z.held c.y { cls := .copy, point := point, ranges := wr, writes := true } = false)
    (hs : z.shortfall c.x.entry 2 units = none) (ho : z.openOp c kind compl true rd wr point = some s1) :
    z.startCopy c kind compl units rd wr point = .done (s1.charge c.x.entry 2 units) true := by
  simp only [State.startCopy, hh, hs, ho, hc, Bool.false_eq_true, if_false]

/-- CPY's checks (R202). -/
theorem cpyChecks_ok {z : State} {x : Block} {d a : DWord} {w : Nat} {compl : Word} (hd : formCheck d = none) (ha : formCheck a = none)
    (hplain : ¬w / 2 ^ 25 % 2 = 1 → d.toNat % 16 = 0 ∧ a.toNat % 16 = 0 ∧ w % 2 ^ 25 % 16 = 0)
    (hmx : w / 2 ^ 25 % 2 = 1 → w % 2 ^ 25 % (efmtBytes (w / 2 ^ 26 % 4) + 1) = 0) (hw : w < 2 ^ 28) (he : w / 2 ^ 26 % 4 ≠ 3)
    (hlen : w % 2 ^ 25 ≤ 16777216) (hrd : z.rangeCheck x d (w % 2 ^ 25) = none) (hra : z.rangeCheck x a (w % 2 ^ 25) = none)
    (hc : z.complCheck x compl false = none) :
    firstTrap [formCheck d, alignCheck d (if nbits w 25 25 = 1 then 1 else 16), formCheck a, alignCheck a (if nbits w 25 25 = 1 then 1 else 16),
      z.illIf (nbits w 31 28 ≠ 0 || nbits w 27 26 = 3 || 16777216 < nbits w 24 0),
      (if nbits w 25 25 = 1 then z.illIf (nbits w 24 0 % (if nbits w 25 25 = 1 then efmtBytes (nbits w 27 26) + 1 else 0) ≠ 0)
        else alignCheck (BitVec.ofNat 64 (nbits w 24 0)) 16),
      z.rangeCheck x d (nbits w 24 0), z.rangeCheck x a (nbits w 24 0), z.complCheck x compl false] = none := by
  have h25 : nbits w 25 25 = w / 2 ^ 25 % 2 := rfl
  have h26 : nbits w 27 26 = w / 2 ^ 26 % 4 := rfl
  have hill : (decide (nbits w 31 28 ≠ 0) || decide (w / 2 ^ 26 % 4 = 3) || decide (16777216 < w % 2 ^ 25)) = false := by
    simp only [nbits_eq_zero hw, he, Nat.not_lt.2 hlen, ne_eq, not_true_eq_false, decide_false, Bool.or_self]
  rw [nbits_low, h25, h26, hd, ha, hrd, hra, hc, hill]
  by_cases hm : w / 2 ^ 25 % 2 = 1
  · simp only [hm, if_true, alignCheck_eq_none (Nat.mod_one _), hmx hm]
    rfl
  · obtain ⟨h1, h2, h3⟩ := hplain hm
    have h4 : (BitVec.ofNat 64 (w % 2 ^ 25)).toNat % 16 = 0 := by rw [BitVec.toNat_ofNat]; omega
    simp only [hm, if_false, alignCheck_eq_none h1, alignCheck_eq_none h2, alignCheck_eq_none h4]
    rfl

/-- GTH's and SCT's checks (R205). -/
theorem listChecks_ok {z : State} {x : Block} {a : DWord} {list compl : Word} {w : Nat} (ha : formCheck a = none) (hl : list.toNat % 8 = 0)
    (h1 : 1 ≤ w % 2 ^ 13) (h2 : w % 2 ^ 13 ≤ 4096) (he : 1 ≤ 16 * (w / 2 ^ 16 % 2 ^ 12)) (h3 : w / 2 ^ 13 % 8 = 0) (hw : w < 2 ^ 28)
    (hn : w % 2 ^ 13 * (16 * (w / 2 ^ 16 % 2 ^ 12)) ≤ 16777216) (hr : z.rangeCheck x a (w % 2 ^ 13 * (16 * (w / 2 ^ 16 % 2 ^ 12))) = none)
    (hb : list.toNat + 8 * (w % 2 ^ 13) ≤ x.lrec.localB) (hc : z.complCheck x compl false = none) :
    firstTrap [formCheck a, alignCheck (list.setWidth 64) 8,
      z.illIf (nbits w 12 0 < 1 || 4096 < nbits w 12 0 || nbits w 27 16 < 1 || nbits w 15 13 ≠ 0 || nbits w 31 28 ≠ 0
        || 16777216 < nbits w 12 0 * (16 * nbits w 27 16)),
      z.rangeCheck x a (nbits w 12 0 * (16 * nbits w 27 16)),
      (if x.lrec.localB < list.toNat + 8 * nbits w 12 0 then some { cause := Cause.localBounds, tval := list.setWidth 64 } else none),
      z.complCheck x compl false] = none := by
  have h16 : nbits w 27 16 = w / 2 ^ 16 % 2 ^ 12 := rfl
  have h13 : nbits w 15 13 = w / 2 ^ 13 % 8 := rfl
  have hal : (list.setWidth 64).toNat % 8 = 0 := by
    rw [BitVec.toNat_setWidth]
    omega
  rw [nbits_low, h16, h13]
  have h4 : ¬w / 2 ^ 16 % 2 ^ 12 < 1 := by omega
  simp only [ha, alignCheck_eq_none hal, Nat.not_lt.2 h1, Nat.not_lt.2 h2, h4, h3, nbits_eq_zero hw, Nat.not_lt.2 hn, hr, Nat.not_lt.2 hb, hc,
    ne_eq, not_true_eq_false, decide_false, Bool.or_self, illIf_false, if_false, firstTrap_cons_none, firstTrap_nil]

/-- CPYT's checks (R206): a prefetch has no destination. -/
theorem cpytChecks_ok {z : State} {x : Block} {d a : DWord} {w : Nat} {compl : Word} {pre : Prop} [Decidable pre]
    (hd : ¬pre → mainCheck d = none ∧ d.toNat % 16 = 0) (ha : mainCheck a = none) (haa : a.toNat % 16 = 0) (hw : w ≤ 16777216)
    (hw16 : w % 16 = 0) (hc : z.complCheck x compl false = none) :
    firstTrap [if pre then none else mainCheck d, if pre then none else alignCheck d 16, mainCheck a, alignCheck a 16,
      z.illIf (nbits w 31 25 ≠ 0 || 16777216 < w), alignCheck (BitVec.ofNat 64 w) 16, z.complCheck x compl false] = none := by
  have h1 : (BitVec.ofNat 64 w).toNat % 16 = 0 := by rw [BitVec.toNat_ofNat]; omega
  have h2 : nbits w 31 25 = 0 := nbits_eq_zero (by omega)
  by_cases hp : pre
  · simp only [hp, if_true, ha, alignCheck_eq_none haa, alignCheck_eq_none h1, h2, Nat.not_lt.2 hw, hc,
      ne_eq, not_true_eq_false, decide_false, Bool.or_self, illIf_false, firstTrap_cons_none, firstTrap_nil]
  · obtain ⟨h3, h4⟩ := hd hp
    simp only [hp, if_false, h3, alignCheck_eq_none h4, ha, alignCheck_eq_none haa, alignCheck_eq_none h1, h2, Nat.not_lt.2 hw, hc,
      ne_eq, not_true_eq_false, decide_false, Bool.or_self, illIf_false, firstTrap_cons_none, firstTrap_nil]

/-! ### The words -/

/-- A word that gets to the start of a copy. -/
theorem issues_started {i : Instr} {info : Info} {e : Ctx → State → Eff} {ok : Ctx → State → Prop} {kind : Ctx → State → OpKind} {compl : Ctx → Word}
    {units : Ctx → State → Nat} {rd wr : Ctx → State → List (DWord × Nat)} {point : Ctx → State → Nat} {s1 : Ctx → State → State}
    (he : ∀ s, exec i s = issueWord info e s)
    (h : ∀ c z, ok c z → e c z = z.startCopy c (kind c z) (compl c) (units c z) (rd c z) (wr c z) (point c z)) :
    Issues i info
      (fun c z => ok c z ∧ (kind c z).count ≠ 0
        ∧ z.held c.y { cls := .copy, point := point c z, ranges := wr c z, writes := true } = false
        ∧ z.shortfall c.x.entry 2 (units c z) = none ∧ z.openOp c (kind c z) (compl c) true (rd c z) (wr c z) (point c z) = some (s1 c z))
      (fun c z => (s1 c z).charge c.x.entry 2 (units c z)) := by
  refine issues_of he fun c z hz => ?_
  obtain ⟨hok, hcount, hheld, hshort, hopen⟩ := hz
  rw [h c z hok]
  exact startCopy_eq_done hcount hheld hshort hopen

/-- Settles O29: each word passes its checks in their order and starts its operation. -/
theorem copyWordsStartTheirOperation : Obligations.CopyWordsStartTheirOperation := by
  unfold Obligations.CopyWordsStartTheirOperation
  intro s1 started
  refine ⟨fun o => ?_, fun o => ?_, fun o i isGth hi => ?_, fun o => ?_⟩
  · intro d a w len mx unit
    refine issues_started (fun s => (by unfold execCpy; rfl : execCpy o s = _)) fun c z h => ?_
    obtain ⟨hd, ha, hplain, hmx, hw, he, hlen, hrd, hra, hc⟩ := h
    have hplain' : ¬(c.y.getS o.c.toNat).toNat / 2 ^ 25 % 2 = 1 → _ := fun hm => hplain (decide_eq_false hm)
    have hmx' : (c.y.getS o.c.toNat).toNat / 2 ^ 25 % 2 = 1 → (c.y.getS o.c.toNat).toNat % 2 ^ 25
        % (efmtBytes ((c.y.getS o.c.toNat).toNat / 2 ^ 26 % 4) + 1) = 0 := fun hm => by
      have h1 := hmx (decide_eq_true hm)
      simpa only [unit, mx, len, w, hm, decide_true, if_true] using h1
    have hchk := cpyChecks_ok (d := c.y.getS2 o.a.toNat) (a := c.y.getS2 o.b.toNat) (w := (c.y.getS o.c.toNat).toNat) hd ha hplain' hmx' hw he hlen hrd hra hc
    have h25 : nbits (w c) 25 25 = w c / 2 ^ 25 % 2 := rfl
    have h26 : nbits (w c) 27 26 = w c / 2 ^ 26 % 4 := rfl
    simp only [w] at h25 h26
    simp only [hchk]
    simp only [nbits_low, h25, h26, unit, mx, decide_eq_true_eq]
    rfl
  · intro at_ d compl ready
    refine ⟨?_, ?_, fun gp => ?_⟩
    · refine issues_started (fun s => (by unfold execCpy2d; rfl : execCpy2d o s = _)) fun c z h => ?_
      obtain ⟨⟨hdesc, hbusy⟩, h2, hc⟩ := h
      have hchk := firstTrap_pair h2 hc
      simp only [at_, d, compl] at hdesc hbusy hchk
      simp only [hdesc, hbusy, hchk, Bool.false_eq_true, if_false]
      rfl
    · intro tb bk count k dest
      refine issues_started (fun s => (by unfold execKvl; rfl : execKvl o s = _)) fun c z h => ?_
      obtain ⟨⟨hdesc, hbusy⟩, h2, hc⟩ := h
      have hchk := firstTrap_pair h2 hc
      have h16 : ∀ n, nbits n 20 16 = n / 2 ^ 16 % 32 := fun _ => rfl
      simp only [at_, d, compl] at hdesc hbusy hchk
      simp only [hdesc, hbusy, hchk, Bool.false_eq_true, if_false, nbits_low, h16]
      rfl
    · intro elem bytes src dst nsrc ndst point units
      refine issues_of (fun s => (by unfold execColl; rfl : execColl o s = _)) fun c z h => ?_
      obtain ⟨hg, ⟨hdesc, hbusy⟩, h2, hc, hshort, hopen⟩ := h
      have hchk := firstTrap_pair h2 hc
      simp only [at_, d, compl] at hdesc hbusy hchk
      have hs : z.shortfall c.x.entry 2 (accessUnits (collSent gp.n z.fresh)) = none := hshort
      simp only [src, dst, nsrc, ndst, bytes, elem, point, d, at_, compl] at hopen
      simp only [hg, hdesc, hbusy, hchk, hs, Bool.false_eq_true, if_false]
      simp only [collElem, hopen]
      rfl
  · intro a list w n e
    have he : ∀ s, exec i s = listCopy isGth o s := by
      intro s
      simp only [List.mem_cons, Prod.mk.injEq, List.not_mem_nil, or_false] at hi
      rcases hi with ⟨rfl, rfl⟩ | ⟨rfl, rfl⟩ <;> rfl
    refine issues_started (fun s => (he s).trans (by unfold listCopy; rfl)) fun c z h => ?_
    obtain ⟨ha, hl, h1, h2, he1, h3, hw, hn, hr, hb, hc⟩ := h
    have hchk := listChecks_ok (a := c.y.getS2 o.a.toNat) (list := c.y.getS o.b.toNat) (w := (c.y.getS o.c.toNat).toNat) ha hl h1 h2 he1 h3 hw hn hr hb hc
    have h16 : ∀ n, nbits n 27 16 = n / 2 ^ 16 % 2 ^ 12 := fun _ => rfl
    simp only [hchk]
    simp only [nbits_low, h16]
    cases isGth <;> rfl
  · intro pre d a w
    refine issues_started (fun s => (by unfold execCpyt; rfl : execCpyt o s = _)) fun c z h => ?_
    obtain ⟨hd, ha, haa, hw, hw16, hc⟩ := h
    have hchk := cpytChecks_ok (d := c.y.getS2 o.a.toNat) (a := c.y.getS2 o.b.toNat) (w := (c.y.getS o.c.toNat).toNat) (pre := o.a = 0) (fun hp => hd (decide_eq_false hp)) ha haa hw hw16 hc
    simp only [hchk]
    simp only [pre, decide_eq_true_eq]
    rfl

end Sys2Proof.Laws
end

section
/-! SUPPORT. The matrix engine's words (R308 to R325): the end of an issue, the checks, and the statements on them. -/

namespace Sys2Proof.Laws

open Sys2Proof Sys2Proof.Machine

/-! ### The end of an issue -/

/-- The completion tags of an asynchronous member, taken at its issue. -/
def matMarked (z : State) (x : Block) (compl : Word) (cons : Option Word) : State :=
  match cons with
  | some w => (z.markTag x compl).markTag x w
  | none => z.markTag x compl

/-- A member that no fence holds, whose reads are in the swizzle they expect, whose charge is within the budget and whose pin is taken,
is charged and accepted. -/
theorem issueMat_eq_done {z s1 : State} {c : Ctx} {k : MatKind} {compl : Word} {cons : Option Word} {units point : Nat}
    (hh : z.held c.y { cls := .copy, point := point, ranges := k.writes, writes := !k.writes.isEmpty } = false)
    (hr : ∀ r ∈ k.reads, z.swzMiss c.x r = false) (hs : z.shortfall c.x.entry 1 units = none)
    (hp : (matMarked z c.x compl cons).pin c.x.rootSlot = some s1) :
    z.issueMat c k compl cons units point = .done ((s1.charge c.x.entry 1 units).openMat c.b c.g c.y.seq k compl (some c.x.rootSlot)
      (cons.map fun w => w.toNat % 64) units point) true := by
  have hmiss : k.reads.any (z.swzMiss c.x) = false := List.any_eq_false.2 fun r h => ne_true_of_eq_false (hr r h)
  have h6 : ∀ w : Word, nbits w.toNat 5 0 = w.toNat % 64 := fun w => nbits_low _ _
  cases cons with
  | none =>
    have hp' : (z.markTag c.x compl).pin c.x.rootSlot = some s1 := hp
    simp only [State.issueMat, hh, hmiss, hs, hp', Bool.false_eq_true, if_false, Option.map_none]
  | some w =>
    have hp' : ((z.markTag c.x compl).markTag c.x w).pin c.x.rootSlot = some s1 := hp
    simp only [State.issueMat, hh, hmiss, hs, hp', Bool.false_eq_true, if_false, Option.map_some, h6]

/-- A word that gets to the end of the issue of a member. -/
theorem issues_accepted {i : Instr} {info : Info} {e : Ctx → State → Eff} {ok : Ctx → State → Prop} {k : Ctx → MatKind} {compl : Ctx → Word}
    {cons : Ctx → Option Word} {units : Ctx → Nat} {point : Nat} {s1 : Ctx → State → State} (he : ∀ s, exec i s = issueWord info e s)
    (h : ∀ c z, ok c z → e c z = z.issueMat c (k c) (compl c) (cons c) (units c) point) :
    Issues i info
      (fun c z => ok c z ∧ z.held c.y { cls := .copy, point := point, ranges := (k c).writes, writes := !(k c).writes.isEmpty } = false
        ∧ (∀ r ∈ (k c).reads, z.swzMiss c.x r = false) ∧ z.shortfall c.x.entry 1 (units c) = none
        ∧ (matMarked z c.x (compl c) (cons c)).pin c.x.rootSlot = some (s1 c z))
      (fun c z => ((s1 c z).charge c.x.entry 1 (units c)).openMat c.b c.g c.y.seq (k c) (compl c) (some c.x.rootSlot)
        ((cons c).map fun w => w.toNat % 64) (units c) point) := by
  refine issues_of he fun c z hz => ?_
  obtain ⟨hok, hheld, hmiss, hshort, hpin⟩ := hz
  rw [h c z hok]
  exact issueMat_eq_done hheld hmiss hshort hpin

/-! ### The checks -/

theorem findSome?_eq_none_of {α β : Type} {l : List α} {f : α → Option β} (h : ∀ a ∈ l, f a = none) : l.findSome? f = none :=
  List.findSome?_eq_none_iff.2 h

/-- A tile member's checks (R312 to R314). -/
theorem tileChecks_ok {z : State} {x : Block} {at_ compl : Word} {sub : Nat} {d : List Byte} {cons : Option Word} (hbad : tileBad sub d = false)
    (hz : tZd d < x.lrec.ztiles) (hr : ∀ r ∈ (MatKind.tile sub d).reads, z.mrangeCheck x r.a r.n = none)
    (hw : ∀ r ∈ (MatKind.tile sub d).writes, z.mrangeCheck x r.1 r.2 = none) (ht : tileTags sub d (x.tile (tZd d)) = none)
    (hc : z.matCompl x compl cons (sub ≠ 4) = none) :
    firstTrap [descIllIf at_.toNat (tileBad sub d), z.tileCheck x [tZd d],
      ((MatKind.tile sub d).reads.findSome? fun r => z.mrangeCheck x r.a r.n),
      ((MatKind.tile sub d).writes.findSome? fun r => z.mrangeCheck x r.1 r.2), tileTags sub d (x.tile (tZd d)),
      z.matCompl x compl cons (sub ≠ 4)] = none := by
  have htile : z.tileCheck x [tZd d] = none := by simp [State.tileCheck, Nat.not_le.2 hz]
  rw [hbad, htile, findSome?_eq_none_of hr, findSome?_eq_none_of hw, ht, hc]
  rfl

/-- An attention member's checks (R320, R322). -/
theorem attChecks_ok {z : State} {x : Block} {at_ compl : Word} {fin : Bool} {d : List Byte} {k : MatKind} {cons : Option Word}
    (hbad : attBad fin d = false) (hz : ∀ n ∈ k.tiles, n < x.lrec.ztiles ∧ (x.tile n).isInt = false)
    (hr : ∀ r ∈ k.reads, z.mrangeCheck x r.a r.n = none) (hw : ∀ r ∈ k.writes, z.mrangeCheck x r.1 r.2 = none)
    (hc : z.matCompl x compl cons (!fin) = none) :
    firstTrap [descIllIf at_.toNat (attBad fin d), z.tileCheck x k.tiles, (k.reads.findSome? fun r => z.mrangeCheck x r.a r.n),
      (k.writes.findSome? fun r => z.mrangeCheck x r.1 r.2),
      ((k.tiles.find? fun n => (x.tile n).isInt).map fun n => tileTrap (x.tile n).tag 5), z.matCompl x compl cons (!fin)] = none := by
  have htile : z.tileCheck x k.tiles = none := by
    have : (k.tiles.any fun n => decide (x.lrec.ztiles ≤ n)) = false :=
      List.any_eq_false.2 fun n hn => by simpa using (hz n hn).1
    rw [State.tileCheck, this]
    rfl
  have hint : (k.tiles.find? fun n => (x.tile n).isInt) = none :=
    List.find?_eq_none.2 fun n hn => ne_true_of_eq_false (hz n hn).2
  rw [hbad, htile, findSome?_eq_none_of hr, findSome?_eq_none_of hw, hint, hc]
  rfl

theorem nbits_low_of_lt {n hi : Nat} (h : n < 2 ^ (hi + 1)) : nbits n hi 0 = n := by rw [nbits_low, Nat.mod_eq_of_lt h]

/-- SIGMK's checks (R324). -/
theorem sigmkChecks_ok {z : State} {x : Block} {n : Nat} {off compl : Word} (hn : n < 32) (hz : n < x.lrec.ztiles) (ha : off.toNat % 8 = 0)
    (hb : off.toNat + 512 ≤ x.lrec.localB) (hc : z.complCheck x compl false = none) :
    firstTrap [z.illIf (nbits n 31 5 ≠ 0 || x.lrec.ztiles ≤ nbits n 4 0), alignCheck (off.setWidth 64) 8,
      (if x.lrec.localB < off.toNat + 512 then some { cause := Cause.localBounds, tval := off.setWidth 64 } else none),
      z.complCheck x compl false] = none := by
  have hal : (off.setWidth 64).toNat % 8 = 0 := by rw [BitVec.toNat_setWidth]; omega
  rw [nbits_eq_zero hn, nbits_low_of_lt hn, alignCheck_eq_none hal, if_neg (Nat.not_lt.2 hb), hc]
  simp [Nat.not_le.2 hz]

/-- SIGF's checks (R325). -/
theorem sigfChecks_ok {z : State} {x : Block} {off : Word} {r : Nat} (ha : off.toNat % 8 = 0) (hb : off.toNat + 512 ≤ x.lrec.localB)
    (hr : r ≤ 64) :
    firstTrap [alignCheck (off.setWidth 64) 8,
      (if x.lrec.localB < off.toNat + 512 then some { cause := Cause.localBounds, tval := off.setWidth 64 } else none),
      z.illIf (64 < r)] = none := by
  have hal : (off.setWidth 64).toNat % 8 = 0 := by rw [BitVec.toNat_setWidth]; omega
  rw [alignCheck_eq_none hal, if_neg (Nat.not_lt.2 hb)]
  simp [Nat.not_lt.2 hr]

/-! ### The asynchronous members -/

/-- Settles O30: each member passes its checks in their order and gets to the end of its issue. -/
theorem matrixWordsAreAccepted : Obligations.MatrixWordsAreAccepted := by
  unfold Obligations.MatrixWordsAreAccepted
  intro s1 taken
  refine ⟨fun o i sub units hi => ?_, fun o i fin hi => ?_, fun o => ?_⟩
  · intro at_ d compl cons
    have he : (∀ s, exec i s = tileWord sub o s) ∧ ∀ d, tileCharge sub d = units d := by
      simp only [List.mem_cons, Prod.mk.injEq, List.not_mem_nil, or_false] at hi
      rcases hi with ⟨rfl, rfl, rfl⟩ | ⟨rfl, rfl, rfl⟩ | ⟨rfl, rfl, rfl⟩ | ⟨rfl, rfl, rfl⟩ | ⟨rfl, rfl, rfl⟩ | ⟨rfl, rfl, rfl⟩ <;>
        exact ⟨fun _ => rfl, fun _ => rfl⟩
    refine issues_accepted (fun s => (he.1 s).trans (by unfold tileWord; rfl)) fun c z h => ?_
    obtain ⟨hdesc, hbusy, hbad, hz, hr, hw, ht, hc⟩ := h
    have hchk := tileChecks_ok (at_ := at_ c) hbad hz hr hw ht hc
    simp only [at_, d, compl, cons] at hdesc hbusy hchk
    simp only [hdesc, hbusy, hchk, Bool.false_eq_true, if_false, he.2]
    rfl
  · intro at_ d compl cons k
    have he : ∀ s, exec i s = attWord fin o s := by
      intro s
      simp only [List.mem_cons, Prod.mk.injEq, List.not_mem_nil, or_false] at hi
      rcases hi with ⟨rfl, rfl⟩ | ⟨rfl, rfl⟩ <;> rfl
    refine issues_accepted (fun s => (he s).trans (by unfold attWord; rfl)) fun c z h => ?_
    obtain ⟨hdesc, hbusy, hbad, hz, hr, hw, hc⟩ := h
    have hchk := attChecks_ok (at_ := at_ c) hbad hz hr hw hc
    simp only [at_, d, compl, cons, k] at hdesc hbusy hchk
    simp only [hdesc, hbusy, hchk, Bool.false_eq_true, if_false]
    rfl
  · intro n off compl
    refine issues_accepted (i := .sigmk o) (k := fun c => .sigmk (n c) (off c)) (compl := compl) (cons := fun _ => none) (units := fun _ => 4)
      (point := 0) (fun s => (by unfold execSigmk; rfl : execSigmk o s = _)) fun c z h => ?_
    obtain ⟨hn, hz, ha, hb, hc⟩ := h
    have hchk := sigmkChecks_ok hn hz ha hb hc
    simp only [n, compl] at hchk hn
    simp only [hchk]
    rw [nbits_low_of_lt hn]

/-! ### The convergence registers -/

/-- The fields of CVSET's operand (R308). -/
theorem cvsetFields {w : Nat} (hw : w < 2 ^ 16) :
    nbits w 4 0 = w % 32 ∧ nbits w 12 8 = w / 256 % 32 ∧ nbits w 7 5 = w / 32 % 8 ∧ nbits w 14 13 = w / 2 ^ 13 % 4
      ∧ nbits w 15 15 = w / 2 ^ 15 % 2 ∧ nbits w 31 16 = 0 :=
  ⟨nbits_low _ _, rfl, rfl, rfl, rfl, nbits_eq_zero hw⟩

/-- CVSET's checks (R308) find nothing in a well-formed set. -/
theorem cvsetBad_eq_false {w gangs : Nat} (h5 : w / 32 % 8 = 0) (h13 : w / 2 ^ 13 % 4 = 0) (hw : w < 2 ^ 16) (hg : w % 32 < gangs)
    (h2 : w / 2 ^ 15 % 2 = 1 → w / 256 % 32 < gangs ∧ w % 32 ≠ w / 256 % 32) :
    (nbits w 7 5 ≠ 0 || nbits w 14 13 ≠ 0 || nbits w 31 16 ≠ 0 || gangs ≤ nbits w 4 0
      || (nbits w 15 15 = 1 && (gangs ≤ nbits w 12 8 || nbits w 4 0 = nbits w 12 8))) = false := by
  obtain ⟨e0, e8, e5, e13, e15, e16⟩ := cvsetFields hw
  rw [e0, e8, e5, e13, e15, e16, h5, h13]
  by_cases ht : w / 2 ^ 15 % 2 = 1
  · obtain ⟨h3, h4⟩ := h2 ht
    simp [Nat.not_le.2 hg, Nat.not_le.2 h3, h4]
  · simp only [ht, Nat.not_le.2 hg, ne_eq, not_true_eq_false, decide_false, Bool.false_and, Bool.or_self]

theorem nbits_bit (a : Word) (n : Nat) : decide (nbits a.toNat n n = 1) = a.getLsbD n := by
  rw [BitVec.getLsbD, Nat.testBit_eq_decide_div_mod_eq, nbits, Nat.add_sub_cancel_left, Nat.pow_one]

/-- An issue that neither a budget nor a fence holds back has its effect. -/
theorem granted_eq (e : Eff) : ∀ {short : Option Nat} {held : Bool}, short = none → held = false →
    (match short with
      | some k => Eff.exhausted 1 k
      | none => if held then Eff.hold else e) = e := by
  rintro _ _ rfl rfl
  rfl

/-- Settles O31: the checks pass, and the effect is the one that each word's rule gives. -/
theorem convergenceWordsSignAndIssue : Obligations.ConvergenceWordsSignAndIssue := by
  unfold Obligations.ConvergenceWordsSignAndIssue
  refine ⟨fun o => ?_, fun o => ?_, fun o i win hi => ?_, fun o => ?_⟩
  · intro w g0 g1 two
    refine issues_of (fun s => (by unfold execCvset; rfl : execCvset o s = _)) fun c z h => ?_
    obtain ⟨h5, h13, hw, hg, h2, hfix⟩ := h
    have hbad := cvsetBad_eq_false h5 h13 hw hg fun ht => h2 (decide_eq_true ht)
    simp only [w] at hbad
    simp only [hbad, hfix, Option.isSome_none, Bool.false_eq_true, if_false]
    rw [nbits_low]
    rfl
  · refine issues_of (fun s => (by unfold execCvclr; rfl : execCvclr o s = _)) fun c z _ => ?_
    rfl
  · intro s c z hc v sb tag asc w held new latch row v1 hset hl hop hfix hfull
    have he : exec i s = issueWord (mmaInfo o s) (sign win o) s := by
      simp only [List.mem_cons, Prod.mk.injEq, List.not_mem_nil, or_false] at hi
      rcases hi with ⟨rfl, rfl⟩ | ⟨rfl, rfl⟩ <;> rfl
    rw [he]
    refine issueWord_done hc ?_
    have hshort : (if v1.full c.x then z.shortfall c.x.entry 1 2 else none) = none := by
      split
      · exact (hfull ‹_›).1
      · rfl
    have hheld : (v1.full c.x && z.held c.y { cls := .copy, point := if win then 1 else 0 }) = false := by
      cases hv : v1.full c.x
      · rfl
      · exact (hfull hv).2
    have hasc := nbits_bit sb 22
    simp only [v, sb, tag, w, held, new, latch, row, v1, asc] at hset hop hl hfix hshort hheld hasc ⊢
    unfold sign
    simp only [hset, hop, hasc, Bool.not_true, Bool.false_eq_true, if_false]
    rcases hfx : (c.x.cvReg o.gn.toNat).fixed with _ | q
    · simp only [Bool.false_eq_true, if_false]
      rw [firstLane_ok]
      · exact granted_eq _ hshort hheld
      · intro l h
        obtain ⟨h1, h2⟩ := hl l h
        simp only [h1, h2, ne_eq, not_true_eq_false, decide_false, illIf_false]
    · obtain rfl := hfix q hfx
      simp only [ne_eq, not_true_eq_false, decide_false, Bool.or_self, Bool.false_eq_true, if_false]
      rw [firstLane_ok]
      · exact granted_eq _ hshort hheld
      · intro l h
        obtain ⟨h1, h2⟩ := hl l h
        simp only [h1, h2, not_true_eq_false, decide_false, illIf_false]
  · intro off r mask
    refine issues_of (fun s => (by unfold execSigf; rfl : execSigf o s = _)) fun c z h => ?_
    obtain ⟨ha, hb, hr, hbusy, hheld⟩ := h
    have hchk := sigfChecks_ok (z := z) ha hb hr
    simp only [off, r] at hchk hbusy hheld
    simp only [hchk, hbusy, hheld, Bool.or_self, Bool.false_eq_true, if_false]
    rfl

end Sys2Proof.Laws
end

section
/-! SUPPORT. Branches, calls and returns (R168 to R173), the CTL words (R177 to R184) and the CSR words (R351), and the statements on them. -/

namespace Sys2Proof.Laws

open Sys2Proof Sys2Proof.Machine

/-! ### Lanes -/

/-- A lane after a change of the lanes of a mask. -/
theorem lane_mapLanes (y : Gang) (m : Word) (f : Nat → Lane → Lane) {l : Nat} (h : l < 32) :
    (y.mapLanes m f).lane l = if m.getLsbD l then f l (y.lane l) else y.lane l := by
  simp [Gang.lane, Gang.mapLanes, h]

theorem lane_of_lanes {y z : Gang} (h : z.lanes = y.lanes) (l : Nat) : z.lane l = y.lane l := by simp only [Gang.lane, h]

theorem handler_mapLanes (y : Gang) (m : Word) (f : Nat → Lane → Lane) : (y.mapLanes m f).handler = y.handler := by
  simp only [Gang.mapLanes]

theorem pendingUser_mapLanes (y : Gang) (m : Word) (f : Nat → Lane → Lane) : (y.mapLanes m f).pendingUser = y.pendingUser := by
  simp only [Gang.mapLanes]

/-! ### Branches and calls -/

/-- No lane of a mask overflows. -/
theorem overflow_eq_none {c : Ctx} {m : Word} (h : ∀ l, m.getLsbD l = true → c.y.pushOverflow c.x l = none) : c.overflow m = none := by
  rw [Ctx.overflow, List.findSome?_eq_none_iff.2 fun l hl => h l ((mem_lanesOf m l).1 hl)]
  rfl

theorem eq_of_getLsbD_one_shiftLeft {l n : Nat} (h : (1#32 <<< l).getLsbD n = true) : n = l := by
  simp only [BitVec.getLsbD_shiftLeft, BitVec.getLsbD_one, Bool.and_eq_true, Bool.not_eq_true', decide_eq_true_eq, decide_eq_false_iff_not] at h
  omega

/-- The one lane of a mask overflows or does not. -/
theorem overflow_lane_eq_none {c : Ctx} {l : Nat} (h : c.y.pushOverflow c.x l = none) : c.overflow (1#32 <<< l) = none :=
  overflow_eq_none fun n hn => by rw [eq_of_getLsbD_one_shiftLeft hn]; exact h

/-- A header address is a target (R99). -/
theorem badTarget_eq_false {a : DWord} (h1 : a.toNat < 2 ^ 48) (h2 : a.toNat % 4 = 0) : badTarget a = false := by
  have e1 : a.extractLsb' 48 16 = 0 := by
    apply BitVec.eq_of_toNat_eq
    rw [BitVec.extractLsb'_toNat, Nat.shiftRight_eq_div_pow, Nat.div_eq_of_lt h1]
    rfl
  have e2 : a.extractLsb' 0 2 = 0 := by
    apply BitVec.eq_of_toNat_eq
    rw [BitVec.extractLsb'_toNat]
    exact h2
  simp [badTarget, e1, e2]

/-- The uniform form of a direct branch does not part its lanes. -/
theorem unifTrap_eq_false {u : BitVec 1} {t m : Word} (h : u = 1#1 → t = 0 ∨ t = m) : (u = 1#1 && t ≠ 0 && t ≠ m) = false := by
  by_cases hu : u = 1#1
  · rcases h hu with rfl | rfl <;> simp
  · simp [hu]

/-- What BRA is on a gang. -/
theorem execBra_gang {s : State} {o : Jf} {i : Info} {p : Ctx × State} (h : s.clears i = some p) : execBra o s = direct false o s := by
  obtain ⟨b, g, m, pc, hpc, hdr, w, nvl, hf⟩ := focus_of_clears h
  unfold execBra
  rw [hf]

/-- Settles O32: each lane's condition or target is what its rule gives, and its move follows. -/
theorem branchesAndCallsMoveTheirLanes : Obligations.BranchesAndCallsMoveTheirLanes := by
  unfold Obligations.BranchesAndCallsMoveTheirLanes
  intro place
  refine ⟨fun o => ?_, fun o => ?_, fun o => ?_⟩
  · intro t move info whole
    refine ⟨?_, ?_, ?_⟩
    · intro s c z hc hok
      have he : exec (.bra o) s = direct false o s := execBra_gang hc
      rw [he]
      refine issueWord_done hc ?_
      have hu := unifTrap_eq_false (t := t c) (m := c.m) hok
      exact if_neg (ne_true_of_eq_false hu)
    · refine issues_of (fun s => (by unfold execCall direct; rfl : execCall o s = _)) fun c z h => ?_
      obtain ⟨hw, hov, hsp⟩ := h
      have hu := unifTrap_eq_false (t := t c) (m := c.m) hw
      have ho := overflow_eq_none hov
      simp only [t] at hu ho hsp
      refine (if_neg (ne_true_of_eq_false hu)).trans ?_
      refine (if_pos rfl).trans ?_
      have ho' : c.overflow (maskOf fun l => c.m.getLsbD l && jfCond o (c.y.getK o.k.toNat) l) = none := ho
      have hsp' : c.spillBusy (maskOf fun l => c.m.getLsbD l && jfCond o (c.y.getK o.k.toNat) l) false = false := hsp
      simp only [ho', hsp', Bool.false_eq_true, if_false]
      rfl
    · intro s d core q w a hpc h hf ha hcl hu hk ent hs
      have he : exec (.bra o) s = execBra o s := rfl
      have hu' : (decide (o.u = 0#1) || decide (o.k.toNat = 0)) = false := by simp [hu, hk]
      rw [he, execBra, hf]
      simp only [apWord, ha, hcl, hu', Bool.false_eq_true, if_false]
      by_cases hj : jfCond o (a.getK o.k.toNat) 0 = true
      · have hj' : (decide (o.k.toNat = 12) || ((a.getK o.k.toNat).getLsbD 0 != o.neg.getLsbD 0)) = true := hj
        simp only [hj, hj', if_true]
        rw [show s.shortfall (((s.block? a.b).map (·.entry)).getD 0) 2 1 = none from hs]
        rfl
      · have hj' : ¬(decide (o.k.toNat = 12) || ((a.getK o.k.toNat).getLsbD 0 != o.neg.getLsbD 0)) = true := hj
        simp only [hj, hj']
        rw [show s.shortfall (((s.block? a.b).map (·.entry)).getD 0) 2 1 = none from hs]
        rfl
  · intro m info move ok
    refine ⟨?_, ?_⟩
    · refine issues_of (fun s => (by unfold execBrx indirect; rfl : execBrx o s = _)) fun c z h => ?_
      simp only [Bool.false_eq_true, if_false]
      rw [firstLane_ok]
      · rfl
      · intro l hl
        obtain ⟨h1, h2, h3⟩ := h l hl
        simp only [h1, badTarget_eq_false h2 h3, Bool.false_eq_true, if_false]
    · refine issues_of (fun s => (by unfold execCallx indirect; rfl : execCallx o s = _)) fun c z h => ?_
      obtain ⟨h, hov, hsp⟩ := h
      simp only [m] at hsp hov
      simp only [hsp, Bool.false_eq_true, if_false, if_true]
      rw [firstLane_ok]
      · rfl
      · intro l hl
        obtain ⟨h1, h2, h3⟩ := h l hl
        simp only [h1, badTarget_eq_false h2 h3, overflow_lane_eq_none (hov l hl), Bool.false_eq_true, if_false]
  · intro m
    refine issues_of (fun s => (by unfold execRet; rfl : execRet o s = _)) fun c z h => ?_
    obtain ⟨h, hsp⟩ := h
    have hl : firstLane (c.active o.pk) (fun l =>
          if (c.y.lane l).dep = 0 then some { cause := Cause.stack, tval := BitVec.ofNat 64 (2 ^ 63) }
          else if badTarget ((c.y.lane l).stack.headD 0) then some ({ cause := Cause.target, tval := (c.y.lane l).stack.headD 0 } : Trap)
          else none) = .ok () := firstLane_ok fun l hl => by
      obtain ⟨h1, h2, h3⟩ := h l hl
      simp only [h1, badTarget_eq_false h2 h3, Bool.false_eq_true, if_false]
    simp only [m] at hsp
    simp only [hl, hsp, Bool.false_eq_true, if_false]
    rfl

/-! ### The CTL words -/

/-- What is left of a class of a budget, as BGET answers it (R182). -/
theorem budgetCsr_setWidth (x : Block) (n : Nat) :
    (x.budgetCsr n).setWidth 64 = (match x.rep[n]? with | some (some r) => BitVec.ofNat 64 (min r (2 ^ 32 - 1)) | _ => 0xFFFFFFFF) := by
  unfold Block.budgetCsr
  rcases x.rep[n]? with _ | _ | r
  · rfl
  · rfl
  · apply BitVec.eq_of_toNat_eq
    have : min r (2 ^ 32 - 1) < 2 ^ 32 := by omega
    simp only [BitVec.toNat_setWidth, BitVec.toNat_ofNat]
    omega

theorem succ_lt_of_sPair {n : BitVec 5} (h : sPair n = true) : n.toNat + 1 < 32 := by
  have h0 : n.getLsbD 0 = false := by
    simp only [sPair, Bool.and_eq_true, Bool.not_eq_true'] at h
    exact h.1
  have h1 : n.toNat % 2 = 0 := by
    simpa [BitVec.getLsbD, Nat.testBit_zero] using h0
  omega

/-- A word that names an illegal register has a fate (R111 row 7). -/
theorem fate_isSome_of_regsOk_false {s : State} {i : Info} {x : Block} {pc hpc : Va} {hdr w : Word} {nvl : Nat} (h : i.regsOk x = false) :
    (fate s i x pc hpc hdr w nvl).isSome = true := by
  simp only [fate, h, Bool.not_false, if_true]
  split_ifs <;> rfl

/-- A word that gets to its effect names legal registers (R111 row 7). -/
theorem regsOk_of_clears {s : State} {i : Info} {c : Ctx} {z : State} (h : s.clears i = some (c, z)) : i.regsOk c.x = true := by
  by_contra hr
  unfold State.clears at h
  split at h
  · split at h
    · simp only [Option.ite_none_left_eq_some, Option.some.injEq, Prod.mk.injEq] at h
      obtain ⟨hn, rfl, _⟩ := h
      rw [fate_isSome_of_regsOk_false (Bool.eq_false_iff.2 hr)] at hn
      exact hn rfl
    · cases h
  · cases h

/-- Two results for a pair of S registers. -/
theorem sPair_writes {n : BitVec 5} (h : sPair n = true) (v v' : Word) :
    (∀ w ∈ [RegWrite.s n.toNat v, .s (n.toNat + 1) v'], w.inRange)
      ∧ [RegWrite.s n.toNat v, .s (n.toNat + 1) v'].Pairwise fun a b => a.ref ≠ b.ref := by
  have := succ_lt_of_sPair h
  constructor
  · intro w hw
    simp only [List.mem_cons, List.not_mem_nil, or_false] at hw
    rcases hw with rfl | rfl <;> simp only [RegWrite.inRange] <;> omega
  · simp [RegWrite.ref]

/-- Settles O33: by the effect of each word; BGET writes its pair. -/
theorem controlWordsComplete : Obligations.ControlWordsComplete := by
  unfold Obligations.ControlWordsComplete
  refine ⟨fun o => ⟨?_, ?_⟩, fun o => ?_, fun o => ?_⟩
  · exact issues_of (fun s => (by unfold execExit; rfl : execExit o s = _)) fun c z _ => rfl
  · exact issues_of (fun s => (by unfold execYield; rfl : execYield o s = _)) fun c z _ => rfl
  · intro n
    exact issues_of (fun s => (by unfold execRref; rfl : execRref o s = _)) fun c z _ => rfl
  · intro s c z hc left
    have hr := regsOk_of_clears hc
    simp only [Bool.and_eq_true, decide_eq_true_eq] at hr
    have hv : bgetValue s c.x o.c.toNat = left := by
      by_cases h3 : o.c.toNat = 3
      · simp only [bgetValue, left, h3, if_true]
        rfl
      · simp only [bgetValue, left, h3, if_false, budgetCsr_setWidth]
        rfl
    have he : exec (.bget o) s = execBget o s := rfl
    rw [he, execBget]
    exact aluWord_plain hc (by rw [← hv]) (sPair_writes hr.1 _ _).1 (sPair_writes hr.1 _ _).2

/-- The code of BRK and TRAP. -/
theorem xbcCode_eq (o : XBC) : xbcCode o = BitVec.ofNat 64 (o.b.toNat * 32 + o.c.toNat) := by
  have h1 := o.b.isLt
  have h2 := o.c.isLt
  apply BitVec.eq_of_toNat_eq
  rw [xbcCode, BitVec.toNat_setWidth, BitVec.toNat_append, BitVec.toNat_ofNat, ← Nat.shiftLeft_add_eq_or_of_lt h2, Nat.shiftLeft_eq]

/-- Settles O34: the trap is the word's own effect. -/
theorem trapWordsTakeTheirTrap : Obligations.TrapWordsTakeTheirTrap := by
  unfold Obligations.TrapWordsTakeTheirTrap
  intro o i cause hi
  have he : ∀ s, exec i s = issueWord { cls := 4, stall := o.st } (fun _ _ => .trap { cause := cause, tval := xbcCode o }) s := by
    intro s
    simp only [List.mem_cons, Prod.mk.injEq, List.not_mem_nil, or_false] at hi
    rcases hi with ⟨rfl, rfl⟩ | ⟨rfl, rfl⟩ <;> rfl
  exact raises_of he fun c z _ => by rw [xbcCode_eq]

/-! ### Return from the user handler -/

/-- Whether TRET is legal for the lanes of an issue set (R184). -/
theorem mask_sub_iff (m h : Word) : m &&& ~~~h = 0 ↔ ∀ l, m.getLsbD l = true → h.getLsbD l = true := by
  constructor
  · intro he l hl
    have : (m &&& ~~~h).getLsbD l = false := by rw [he]; exact BitVec.getLsbD_zero
    have hlt : l < 32 := BitVec.lt_of_getLsbD hl
    rw [BitVec.getLsbD_and, BitVec.getLsbD_not, hl, decide_eq_true hlt, Bool.true_and, Bool.true_and, Bool.not_eq_false'] at this
    exact this
  · intro hs
    apply BitVec.eq_of_getLsbD_eq
    intro l hl
    cases hm : m.getLsbD l
    · simp [hm]
    · simp [hs l hm]

/-- With no record pending, nothing follows the handler's end. -/
theorem nextPending_nil {y : Gang} (h : y.pendingUser = []) (a : Va) : y.nextPending a = y := by rw [Gang.nextPending, h]

theorem wait_contAt (y : Lane) (a : Va) : (y.contAt a).wait = .none ∧ (y.contAt a).pc = a + 4 := ⟨rfl, rfl⟩

theorem wait_resumeAt (y : Lane) (a : Va) (bp : Bool) : (y.resumeAt a bp).wait = .none ∧ (y.resumeAt a bp).pc = a := by
  by_cases h : y.pc = a <;> simp [Lane.resumeAt, h]

/-- A lane after RETRY. -/
theorem lane_retry (y : Gang) (m : Word) (a : Va) {l : Nat} (h : l < 32) :
    (y.retry m a).lane l = if m.getLsbD l then
      { y.lane l with pc := a, pos := .header .transferred, wait := .none, hint := none, dep := (y.lane l).region.dep,
                      stack := (y.lane l).region.stack, relSeen := 0, replay := !(y.lane l).region.fresh, complete := false,
                      bpPass := false, vlHere := false }
      else y.lane l := by
  unfold Gang.retry
  cases lowest m <;> simp [Gang.lane, Gang.mapLanes, h]

theorem handler_retry (y : Gang) (m : Word) (a : Va) : (y.retry m a).handler = y.handler := by
  unfold Gang.retry
  cases lowest m <;> simp only [Gang.mapLanes]

theorem pendingUser_retry (y : Gang) (m : Word) (a : Va) : (y.retry m a).pendingUser = y.pendingUser := by
  unfold Gang.retry
  cases lowest m <;> simp only [Gang.mapLanes]

/-- The gang when the handler's region has been given back and before its lanes resume. -/
def afterHandler (y : Gang) (x : Block) (gi : Nat) (h : Handler) : Gang :=
  let hl := h.lanes &&& y.live
  let m := y.trap.tmask &&& y.live
  let g1 := y.mapLanes hl fun l q =>
    let o := ((h.saved.find? fun p => p.1 = l).map Prod.snd).getD q
    let c := y.popTo x gi l o.dep q.dep q
    if m.getLsbD l then { o with dep := c.dep, stack := c.stack, wait := .none }
    else { o with pc := q.pc, pos := q.pos, dep := c.dep, stack := c.stack, wait := q.wait, hint := q.hint }
  { g1 with handler := none, spent := g1.spent.filter fun p => !p.1.1.2 }

/-- TRET, its lanes resumed by the mode, when no record is pending. -/
theorem tret_eq {y : Gang} {x : Block} {gi mode : Nat} {h : Handler} (hh : y.handler = some h) (hp : y.pendingUser = []) :
    y.tret x gi mode =
      if mode = 0 then (afterHandler y x gi h).retry (y.trap.tmask &&& y.live) (y.trap.treg.setWidth 48)
      else if mode = 1 then (afterHandler y x gi h).mapLanes (y.trap.tmask &&& y.live) fun _ l => l.contAt (y.trap.tpc.setWidth 48)
      else (afterHandler y x gi h).mapLanes (y.trap.tmask &&& y.live) fun _ l => l.resumeAt (y.trap.tpc.setWidth 48) (h.tr.tcause.getLsbD 8) := by
  have hpa : (afterHandler y x gi h).pendingUser = [] := by simp only [afterHandler, Gang.mapLanes, hp]
  unfold Gang.tret
  rw [hh]
  refine nextPending_nil ?_ _
  split_ifs
  · exact (pendingUser_retry _ _ _).trans hpa
  · exact (pendingUser_mapLanes _ _ _).trans hpa
  · exact (pendingUser_mapLanes _ _ _).trans hpa

theorem lane_afterHandler_of_not {y : Gang} {x : Block} {gi : Nat} {h : Handler} {l : Nat} (hl : l < 32)
    (hn : (h.lanes &&& y.live).getLsbD l = false) : (afterHandler y x gi h).lane l = y.lane l := by
  simp only [afterHandler, Gang.lane, Gang.mapLanes, hl, dif_pos, Vector.getElem_ofFn, hn, Bool.false_eq_true, if_false, Fin.getElem_fin]

theorem handler_afterHandler (y : Gang) (x : Block) (gi : Nat) (h : Handler) : (afterHandler y x gi h).handler = none := by
  simp only [afterHandler]

/-- A lane of the handler that resumes has its region back. -/
theorem region_afterHandler {y : Gang} {x : Block} {gi : Nat} {h : Handler} {l : Nat} (hl : l < 32)
    (hh : (h.lanes &&& y.live).getLsbD l = true) (hm : (y.trap.tmask &&& y.live).getLsbD l = true) {k : Lane}
    (hk : h.saved.find? (fun p => p.1 = l) = some (l, k)) : ((afterHandler y x gi h).lane l).region = k.region := by
  simp only [afterHandler, Gang.lane, Gang.mapLanes, hl, dif_pos, Vector.getElem_ofFn, hh, hm, hk, if_true, Option.map_some, Option.getD_some]

/-- A word TRET whose lanes are all in the handler returns. -/
theorem tretWord_eq {mode : Nat} {o : X0} (s : State) : tretWord mode o s = issueWord { cls := 4, stall := o.st, transfer := true }
    (fun c s =>
      if (match c.y.handler with | some h => decide (c.m &&& ~~~h.lanes = 0) | none => false) then
        .done (s.modGang c.b c.g fun y => (y.mapLanes c.m fun _ l => l.fall c.hpc c.hdr).tret c.x c.g mode) false
      else .trap s.illTrap) s := rfl

/-- Settles O35: TRET's legality is that of its lanes; the return is followed lane by lane. -/
theorem returnsLeaveTheUserHandler : Obligations.ReturnsLeaveTheUserHandler := by
  unfold Obligations.ReturnsLeaveTheUserHandler
  constructor
  · intro o i mode hi
    have he : ∀ s, exec i s = tretWord mode o s := by
      intro s
      simp only [List.mem_cons, Prod.mk.injEq, List.not_mem_nil, or_false] at hi
      rcases hi with ⟨rfl, rfl⟩ | ⟨rfl, rfl⟩ | ⟨rfl, rfl⟩ <;> rfl
    refine ⟨fun h => ?_, ?_⟩
    · refine issues_of (fun s => (he s).trans (tretWord_eq s)) fun c z hok => ?_
      obtain ⟨hh, hl⟩ := hok
      have hm : c.m &&& ~~~h.lanes = 0 := (mask_sub_iff _ _).2 hl
      simp only [hh, hm, decide_true, if_true]
      rfl
    · refine raises_of (fun s => (he s).trans (tretWord_eq s)) fun c z hok => ?_
      rcases hh : c.y.handler with _ | h
      · simp only [Bool.false_eq_true, if_false]
        rfl
      · have hm : ¬c.m &&& ~~~h.lanes = 0 := fun hm => by
          obtain ⟨l, h1, h2⟩ := hok h hh
          rw [(mask_sub_iff _ _).1 hm l h1] at h2
          cases h2
        simp only [hm, decide_false, Bool.false_eq_true, if_false]
        rfl
  · intro y x gi mode h hmode hh hp z back tpc
    have hz : z = _ := tret_eq hh hp
    obtain rfl | rfl | rfl : mode = 0 ∨ mode = 1 ∨ mode = 2 := by omega
    · simp only [if_true] at hz
      have hlane : ∀ l, l < 32 → _ := fun l hl => lane_retry (afterHandler y x gi h) (y.trap.tmask &&& y.live) (y.trap.treg.setWidth 48) hl
      rw [← hz] at hlane
      refine ⟨hz ▸ (handler_retry _ _ _).trans (handler_afterHandler y x gi h), fun l hl hb => ?_, fun l hl hb hn => ?_, fun _ l hl hb k hk => ?_⟩
      · rw [hlane l hl, if_pos hb]
        exact ⟨rfl, rfl⟩
      · rw [hlane l hl, if_neg (ne_true_of_eq_false hb), lane_afterHandler_of_not hl hn]
      · rw [BitVec.getLsbD_and, Bool.and_eq_true] at hb
        have hb1 : (y.trap.tmask &&& y.live).getLsbD l = true := hb.1
        have hlive : (h.lanes &&& y.live).getLsbD l = true := by
          rw [BitVec.getLsbD_and, Bool.and_eq_true] at hb1 ⊢
          exact ⟨hb.2, hb1.2⟩
        rw [hlane l hl, if_pos hb1, region_afterHandler hl hlive hb1 hk]
        exact ⟨rfl, rfl⟩
    · simp only [Nat.one_ne_zero, if_false, if_true] at hz
      refine ⟨hz ▸ (handler_mapLanes _ _ _).trans (handler_afterHandler y x gi h), fun l hl hb => ?_, fun l hl hb hn => ?_, fun h0 => absurd h0 Nat.one_ne_zero⟩
      · rw [hz, lane_mapLanes _ _ _ hl, if_pos hb]
        exact wait_contAt _ _
      · rw [hz, lane_mapLanes _ _ _ hl, if_neg (ne_true_of_eq_false hb), lane_afterHandler_of_not hl hn]
    · simp only [show (2 : Nat) ≠ 0 by decide, show (2 : Nat) ≠ 1 by decide, if_false] at hz
      refine ⟨hz ▸ (handler_mapLanes _ _ _).trans (handler_afterHandler y x gi h), fun l hl hb => ?_, fun l hl hb hn => ?_, fun h0 => absurd h0 (by decide)⟩
      · rw [hz, lane_mapLanes _ _ _ hl, if_pos hb]
        exact wait_resumeAt _ _ _
      · rw [hz, lane_mapLanes _ _ _ hl, if_neg (ne_true_of_eq_false hb), lane_afterHandler_of_not hl hn]

/-! ### CSR words -/

theorem setWidth_eq_extract (v : DWord) : v.setWidth 32 = v.extractLsb' 0 32 := by
  apply BitVec.eq_of_toNat_eq
  rw [BitVec.toNat_setWidth, BitVec.extractLsb'_toNat, Nat.shiftRight_zero]

/-- Settles O36: CSRR's results are in range where its registers are legal; the other three change the CSR by their function. -/
theorem csrWordsReadAndWrite : Obligations.CsrWordsReadAndWrite := by
  unfold Obligations.CsrWordsReadAndWrite
  intro o n regs
  refine ⟨fun s c z hc => ?_, fun i f hi => ?_⟩
  · have hr := regsOk_of_clears hc
    have he : exec (.csrr o) s = execCsrr o s := rfl
    rw [he, execCsrr, ← setWidth_eq_extract]
    by_cases hw : csrWide n = true
    · have hp : sPair o.a = true := by simpa [hw] using hr
      refine aluWord_plain hc rfl ?_ ?_
      · rw [if_pos hw]
        exact (sPair_writes hp _ _).1
      · rw [if_pos hw]
        exact (sPair_writes hp _ _).2
    · refine aluWord_plain hc rfl ?_ ?_
      · rw [if_neg hw]
        simpa [RegWrite.inRange] using o.a.isLt
      · rw [if_neg hw]
        exact List.pairwise_singleton _ _
  · have he : ∀ s, exec i s = csrChange o f s := by
      intro s
      simp only [List.mem_cons, Prod.mk.injEq, List.not_mem_nil, or_false] at hi
      rcases hi with ⟨rfl, rfl⟩ | ⟨rfl, rfl⟩ | ⟨rfl, rfl⟩ <;> rfl
    exact issues_of (fun s => (he s).trans (by unfold csrChange; rfl)) fun c z _ => rfl

end Sys2Proof.Laws
end

section
/-! SUPPORT. The registry and its words (R75, R81 to R83, R90, R353), ENQR (R183) and address programs (R212 to R216), and the statements
on them. -/

namespace Sys2Proof.Laws

open Sys2Proof Sys2Proof.Machine

/-! ### Registry words -/

theorem nodePa_eq_some {p : DWord} (h1 : p.toNat % 2 ^ 11 = 0) (h2 : p.toNat < 2 ^ 52) : nodePa p = some p.toNat := by
  have e1 : nbits p.toNat 10 0 = 0 := (nbits_low _ _).trans h1
  have e2 : nbits p.toNat 63 52 = 0 := nbits_eq_zero h2
  simp [nodePa, e1, e2]

theorem rcasRoot_null {p : DWord} (h : p = 0x8000000000000000) : rcasRoot p = some none := if_pos h

theorem rcasRoot_pa {p : DWord} (h1 : p.toNat % 2 ^ 11 = 0) (h2 : p.toNat < 2 ^ 52) : rcasRoot p = some (some p.toNat) := by
  have hne : p ≠ 0x8000000000000000 := fun h => by
    rw [h] at h2
    exact absurd h2 (by decide)
  rw [rcasRoot, if_neg hne, nodePa_eq_some h1 h2]
  rfl

/-- RCAS's selector (R353). -/
theorem rcasBad_eq_false {b : Nat} (h1 : b / 2 ^ 10 % 64 = 0) (h2 : b < 2 ^ 28) : (nbits b 15 10 ≠ 0 || nbits b 31 28 ≠ 0) = false := by
  have e1 : nbits b 15 10 = 0 := h1
  simp [e1, nbits_eq_zero h2]

/-- RCAS gets to the registry with its operands' fields. -/
theorem execRcas_eff {z : State} {c : Ctx} {o : XABC} {b : Nat} {p : DWord} {r : Option Nat} (h1 : b / 2 ^ 10 % 64 = 0) (h2 : b < 2 ^ 28)
    (hr : rcasRoot p = some r) (hu : z.unpublished c.y = false) :
    (if nbits b 15 10 ≠ 0 || nbits b 31 28 ≠ 0 then Eff.trap z.illTrap
      else match rcasRoot p with
      | none => .trap z.illTrap
      | some r => if z.unpublished c.y then .hold else sysDone c o.a (z.rcas (nbits b 9 0) (nbits b 27 16) r))
      = sysDone c o.a (z.rcas (b % 1024) (b / 2 ^ 16 % 4096) r) := by
  have e : nbits b 27 16 = b / 2 ^ 16 % 4096 := rfl
  have e0 : nbits b 9 0 = b % 1024 := nbits_low _ _
  rw [rcasBad_eq_false h1 h2, hr, e0, e]
  simp only [hu, Bool.false_eq_true, if_false]

theorem rpinqBad_slot {b : Nat} (h : b < 4096) : rpinqBad b = false := by
  have e1 : nbits b 15 15 = 0 := nbits_eq_zero (by omega)
  have e2 : nbits b 31 12 = 0 := nbits_eq_zero h
  simp [rpinqBad, e1, e2]

theorem rpinq_slot (s : State) {b : Nat} (h : b < 4096) :
    s.rpinq b = BitVec.ofNat 64 ((s.root b).pins + (s.root b).gen.toNat * 2 ^ 20 + ((s.root b).state + (s.root b).space * 2 ^ 16) * 2 ^ 32) := by
  have e1 : nbits b 15 15 = 0 := nbits_eq_zero (by omega)
  simp only [State.rpinq, e1, if_true, nbits_low_of_lt (hi := 11) h]

theorem rpinqBad_space {b : Nat} (h1 : 2 ^ 15 ≤ b) (h2 : b < 2 ^ 15 + 1024) : rpinqBad b = false := by
  have e1 : nbits b 15 15 = 1 := by simp only [nbits]; omega
  have e2 : nbits b 14 10 = 0 := by simp only [nbits]; omega
  have e3 : nbits b 31 16 = 0 := nbits_eq_zero (by omega)
  simp [rpinqBad, e1, e2, e3]

theorem rpinq_space (s : State) {b : Nat} (h1 : 2 ^ 15 ≤ b) (h2 : b < 2 ^ 15 + 1024) :
    s.rpinq b = BitVec.ofNat 64 ((s.space (b % 1024)).cur + (if (s.space (b % 1024)).nullr then 2 ^ 15 else 0)
      + (s.space (b % 1024)).sgen.toNat * 2 ^ 32) := by
  have e1 : nbits b 15 15 = 1 := by simp only [nbits]; omega
  have e0 : nbits b 9 0 = b % 1024 := nbits_low _ _
  simp only [State.rpinq, e1, Nat.one_ne_zero, if_false, e0]

/-- SMOVE's operands (R291). -/
theorem smoveBad_eq_false {p f : Nat} (h1 : p % 2 ^ 16 = 0) (h2 : p < 2 ^ 52) (h3 : f < 2) :
    (nbits p 15 0 ≠ 0 || nbits p 63 52 ≠ 0 || 2 ≤ f) = false := by
  have e1 : nbits p 15 0 = 0 := (nbits_low _ _).trans h1
  simp [e1, nbits_eq_zero h2, Nat.not_le.2 h3]

/-- Settles O37: each word's operands are legal, so that it gets to the registry. -/
theorem registryWordsAnswer : Obligations.RegistryWordsAnswer := by
  unfold Obligations.RegistryWordsAnswer
  intro answered
  refine ⟨fun o => ?_, fun o => ?_, fun o s1 => ?_⟩
  · intro w p pa info
    refine ⟨?_, ?_, ?_, ?_⟩
    · refine issues_of (fun s => (by unfold execRcas; rfl : execRcas o s = _)) fun c z h => ?_
      obtain ⟨h1, h2, hp, hu⟩ := h
      exact execRcas_eff h1 h2 (rcasRoot_null hp) hu
    · refine issues_of (fun s => (by unfold execRcas; rfl : execRcas o s = _)) fun c z h => ?_
      obtain ⟨h1, h2, hp, hu⟩ := h
      exact execRcas_eff h1 h2 (rcasRoot_pa hp.1 hp.2) hu
    · refine issues_of (fun s => (by unfold execRsnap; rfl : execRsnap o s = _)) fun c z h => ?_
      obtain ⟨h1, hp, hu⟩ := h
      have hn := nodePa_eq_some hp.1 hp.2
      refine (if_neg (Nat.not_le.2 h1)).trans ?_
      simp only [p] at hn
      simp only [hn, hu, Bool.false_eq_true, if_false]
      rfl
    · refine issues_of (fun s => (by unfold execSmove; rfl : execSmove o s = _)) fun c z h => ?_
      obtain ⟨h1, h2, h3⟩ := h
      have hf : decide ((c.y.getS o.c.toNat).toNat = 1) = decide (c.y.getS o.c.toNat = 1) :=
        decide_eq_decide.2 ⟨fun e => BitVec.eq_of_toNat_eq e, fun e => by rw [e]; rfl⟩
      simp only [smoveBad_eq_false h1 h2 h3, hf, Bool.false_eq_true, if_false]
      rfl
  · intro w
    refine ⟨?_, ?_⟩
    · refine issues_of (fun s => (by unfold execRfree; rfl : execRfree o s = _)) fun c z h => ?_
      exact if_neg (Nat.not_le.2 h)
    · intro info pair
      refine ⟨?_, ?_⟩
      · refine issues_of (fun s => (by unfold execRpinq; rfl : execRpinq o s = _)) fun c z h => ?_
        have h' : (c.y.getS o.b.toNat).toNat < 4096 := h
        simp only [rpinqBad_slot h', rpinq_slot z h', Bool.false_eq_true, if_false]
        rfl
      · refine issues_of (fun s => (by unfold execRpinq; rfl : execRpinq o s = _)) fun c z h => ?_
        have h' : 2 ^ 15 ≤ (c.y.getS o.b.toNat).toNat ∧ (c.y.getS o.b.toNat).toNat < 2 ^ 15 + 1024 := h
        simp only [rpinqBad_space h'.1 h'.2, rpinq_space z h'.1 h'.2, Bool.false_eq_true, if_false]
        rfl
  · refine issues_of (fun s => (by unfold execNdrop; rfl : execNdrop o s = _)) fun c z h => ?_
    obtain ⟨h1, h2, hc, ho⟩ := h
    simp only [nodePa_eq_some h1 h2, hc, ho]

/-! ### Root operations -/

@[simp] theorem space_setSpace_self (s : State) (n : Nat) (e : SpaceEnt) : (s.setSpace n e).space n = e := by
  simp [State.space, State.setSpace]

@[simp] theorem root_setSpace (s : State) (n m : Nat) (e : SpaceEnt) : (s.setSpace n e).root m = s.root m := rfl

@[simp] theorem root_postIfUnpinned (s : State) (n m : Nat) : (s.postIfUnpinned n).root m = s.root m := by
  simp only [State.postIfUnpinned]
  split <;> rfl

@[simp] theorem space_postIfUnpinned (s : State) (n m : Nat) : (s.postIfUnpinned n).space m = s.space m := by
  simp only [State.postIfUnpinned]
  split <;> rfl

/-- A slot that is allocated (R75): without pins, one generation on, CURRENT. -/
@[simp] theorem root_allocSlot_self (s : State) (n sp pa : Nat) :
    (s.allocSlot n sp pa).root n = { pins := 0, gen := (s.root n).gen + 1, state := 1, space := sp, root := pa } := root_setRoot_self _ _ _

theorem root_allocSlot_of_ne (s : State) {n m : Nat} (sp pa : Nat) (h : m ≠ n) : (s.allocSlot n sp pa).root m = s.root m := by
  refine (root_setRoot_of_ne _ _ h).trans ?_
  split <;> rfl

/-- RCAS installs a root in a free slot (R82). -/
theorem rcas_installs {s : State} {sp n pa : Nat} (hn : (s.space sp).nullr = false) (hf : s.freeSlot = some n) :
    s.rcas sp (s.space sp).cur (some pa)
      = ((((s.allocSlot n sp pa).setRoot (s.space sp).cur { (s.allocSlot n sp pa).root (s.space sp).cur with state := 2 }).setSpace sp
          { s.space sp with cur := n }).postIfUnpinned (s.space sp).cur, resultWord 0 n) := by
  simp [State.rcas, hn, hf]

/-- RCAS makes a space null (R82). -/
theorem rcas_clears {s : State} {sp : Nat} (hn : (s.space sp).nullr = false) :
    s.rcas sp (s.space sp).cur none
      = (((s.setRoot (s.space sp).cur { s.root (s.space sp).cur with state := 2 }).setSpace sp
          { s.space sp with nullr := true, sgen := (s.space sp).sgen + 1 }).postIfUnpinned (s.space sp).cur, 0xFFF) := by
  simp [State.rcas, hn, resultWord]

/-- RSNAP gives a null space a root (R83). -/
theorem rsnap_installs {s : State} {sp n pa : Nat} (hn : (s.space sp).nullr = true) (hf : s.freeSlot = some n) :
    s.rsnap sp pa = ((s.allocSlot n sp pa).setSpace sp { s.space sp with cur := n, nullr := false }, resultWord 0 n) := by
  simp [State.rsnap, hn, hf]

/-- Settles O38: by the cases of RCAS and RSNAP, each slot and space read back after its write. -/
theorem rootOperationsFollowTheirPseudocode : Obligations.RootOperationsFollowTheirPseudocode := by
  unfold Obligations.RootOperationsFollowTheirPseudocode
  intro s sp slot pa n r
  refine ⟨fun h => ?_, fun hn hc hf => ?_, fun hn hc hf hne => ?_, fun hn hc => ?_, fun hn => ?_, fun hn hf => ?_, fun hn hf => ?_⟩
  · have hb : ((s.space sp).nullr || decide ((s.space sp).cur ≠ slot)) = true := by simpa using h
    simp only [State.rcas, hb, if_true, resultWord, Nat.one_mul]
  · subst hc
    simp [State.rcas, hn, hf, resultWord]
  · subst hc
    rw [rcas_installs hn hf]
    refine ⟨by simp [resultWord], ?_, ?_, by simp⟩
    · simp [root_setRoot_of_ne _ _ hne]
    · simp [root_allocSlot_of_ne _ _ _ (Ne.symm hne)]
  · subst hc
    rw [rcas_clears hn]
    exact ⟨rfl, by simp, by simp⟩
  · simp [State.rsnap, hn, resultWord]
  · simp [State.rsnap, hn, hf, resultWord]
  · rw [rsnap_installs hn hf]
    exact ⟨by simp [resultWord], by simp, by simp⟩

/-! ### ENQR -/

/-- A word that clears its checks and whose effect asks goes no further. -/
theorem issueWord_asked {s : State} {i : Info} {c : Ctx} {z s2 : State} {eff : Ctx → State → Eff}
    (h : s.clears i = some (c, z)) (he : eff c z = .asked s2) : issueWord i eff s = .next { s2 with focus := .idle, progress := true } := by
  unfold State.clears at h
  split at h
  · next b g m pc hpc hdr w nvl hf =>
    split at h
    · next x y hg =>
      simp only [Option.ite_none_left_eq_some, Option.some.injEq, Prod.mk.injEq] at h
      obtain ⟨hn, rfl, rfl⟩ := h
      simp only [Bool.or_eq_true, not_or, Bool.not_eq_true, Option.isSome_eq_false_iff, Option.isNone_iff_eq_none,
        Bool.and_eq_false_imp] at hn
      obtain ⟨⟨⟨⟨h1, h2⟩, h3⟩, h4⟩, h5⟩ := hn
      have h2' : (if y.check.getLsbD 0 = true then y.short (i.reads ++ i.writes) else none) = none := by
        split
        · next hc => exact h2 hc
        · rfl
      unfold issueWord
      simp only [hf, hg, h1, h2', h3, h5]
      unfold counterFull at h4
      rw [if_neg Bool.false_ne_true]
      refine Eq.trans (if_neg ?_) ?_
      · exact fun hc => absurd (h4.symm.trans hc) Bool.false_ne_true
      · rw [he]
        rfl
    · simp at h
  · simp at h

/-- ENQR's checks (R183). -/
theorem enqrCheck_eq_none {z : State} {x : Block} {a b d : Word} (ha : a.toNat < 2 ^ 17) (hd : d.toNat < 64) (ht : d.toNat < x.lrec.tags)
    (hb : b.toNat % 16 = 0) (hbusy : (x.tag d.toNat).busy = false) : enqrCheck z x a b d = none := by
  have e1 : nbits d.toNat 5 0 = d.toNat := nbits_low_of_lt hd
  have e2 : (b.setWidth 64).toNat % 16 = 0 := by rw [BitVec.toNat_setWidth]; omega
  rw [enqrCheck, e1, nbits_eq_zero ha, nbits_eq_zero (n := d.toNat) hd, alignCheck_eq_none e2, hbusy]
  simp [Nat.not_le.2 ht]

/-- Settles O40: the checks pass; the answer that ENQR has, if any, decides its case. -/
theorem enqrAsksThenSendsItsRecord : Obligations.EnqrAsksThenSendsItsRecord := by
  unfold Obligations.EnqrAsksThenSendsItsRecord
  intro o info a at_ compl node ok
  have hchk : ∀ c z, ok c → enqrCheck z c.x (c.y.getS o.a.toNat) (c.y.getS o.b.toNat) (c.y.getS o.d.toNat) = none := fun c z h =>
    enqrCheck_eq_none h.1 h.2.1 h.2.2.1 h.2.2.2.1 h.2.2.2.2
  have hnode : ∀ c : Ctx, nbits (c.y.getS o.a.toNat).toNat 15 0 = node c := fun c => nbits_low _ _
  refine ⟨fun s c z hc hok hno => ?_, fun n s1 => ?_, fun n => ?_⟩
  · have he : exec (.enqr o) s = execEnqr o s := rfl
    rw [he]
    refine issueWord_asked hc ?_
    simp only [hchk c z hok, hnode]
    rcases hq : c.y.enqr with _ | ⟨m, _ | ⟨op, sz⟩⟩
    · rfl
    · rfl
    · have hm : m ≠ node c := fun hm => hno (op, sz) (by rw [hq, hm])
      simp only [hm, if_false]
  · refine issues_of (fun s => (by unfold execEnqr; rfl : execEnqr o s = _)) fun c z h => ?_
    obtain ⟨hok, hq, hb, hbusy, ho⟩ := h
    simp only [at_, compl, a] at hb hbusy ho
    simp only [hchk c z hok, hnode, hq, if_true, enqrAnswered, Nat.not_lt.2 hb, hbusy, ho, Bool.false_eq_true, if_false]
  · refine issues_of (fun s => (by unfold execEnqr; rfl : execEnqr o s = _)) fun c z h => ?_
    obtain ⟨hok, hq⟩ := h
    simp only [hchk c z hok, hnode, hq, if_true, enqrAnswered, Bool.false_eq_true, if_false]
    rfl

/-! ### Address programs -/

theorem claimed?_none {z : State} {x : Block} {q : Nat} (h : z.apq? x.die x.core q = none) : z.claimed? x q = none := by
  rw [State.claimed?, h]

/-- APRUN's checks (R212). -/
theorem aprunCheck_eq_none {z : State} {x : Block} {entry : DWord} {q compl : Word} (hm : mainCheck entry = none) (ha : entry.toNat % 4 = 0)
    (hq : q.toNat < 4) (hn : z.apq? x.die x.core q.toNat = none) (hc : z.complCheck x compl true = none) :
    aprunCheck z x entry q compl = none := by
  have e1 : nbits q.toNat 1 0 = q.toNat := nbits_low_of_lt hq
  have e2 : nbits q.toNat 31 2 = 0 := nbits_eq_zero hq
  simp [aprunCheck, e1, e2, hm, ha, claimed?_none hn, hc]

/-- AQE's checks (R214). -/
theorem aqeBad_eq_false {s : State} {x : Block} {a : DWord} {n : Nat} (h1 : n % 16 = 0) (h2 : 16 ≤ n) (h3 : n ≤ 128) (h4 : a.toNat % 16 = 0)
    (hu : uform a = some .main ∨ uform a = some .tun ∧ s.boundsCheck x .tun a n = none) : aqeBad s x a n = false := by
  rcases hu with hu | ⟨hu, hb⟩
  · simp [aqeBad, h1, h4, hu, h2, h3]
  · simp [aqeBad, h1, h4, hu, hb, h2, h3]

/-- A word of an address program that is done is charged and changes its queue. -/
theorem apWord_done {s s' : State} {d : Die} {core q : Nat} {a a' : ApQueue} {eff : ApQueue → State → ApEff} (ha : s.apq? d core q = some a)
    (he : eff a s = .done s' a') (hs : s.shortfall (((s.block? a.b).map (·.entry)).getD 0) 2 1 = none) :
    apWord d core q eff s = .next { (s'.charge (((s.block? a.b).map (·.entry)).getD 0) 2 1).setApq d core q a' with
      focus := .idle, progress := true } := by
  simp only [apWord, ha, he, hs, progressed]

/-- Settles O41: the checks of each word pass, and its effect follows. -/
theorem addressProgramWordsRun : Obligations.AddressProgramWordsRun := by
  unfold Obligations.AddressProgramWordsRun
  refine ⟨fun o s1 => ?_, fun o s d core q w a x hf ha hx hs he => ?_, fun o => ?_, fun o a => ?_, fun o h4 h14 => ?_⟩
  · intro entry q
    refine issues_of (fun s => (by unfold execAprun; rfl : execAprun o s = _)) fun c z h => ?_
    obtain ⟨hm, hal, hq, hn, hc, ho⟩ := h
    have hchk := aprunCheck_eq_none (z := z) (x := c.x) (entry := c.y.getS2 o.a.toNat) (q := c.y.getS o.b.toNat) hm hal hq hn hc
    have e1 : nbits (c.y.getS o.b.toNat).toNat 1 0 = (c.y.getS o.b.toNat).toNat := nbits_low_of_lt hq
    simp only [q] at hn ho
    simp only [hchk, e1, hn, ho, Option.isSome_none, Bool.false_eq_true, if_false]
    rfl
  · intro src n h1 h2 h3 h4 hu hlen
    have hbad : aqeBad s x src n = false := aqeBad_eq_false h1 h2 h3 h4 hu
    have hent : ((s.block? a.b).map (·.entry)).getD 0 = x.entry := by rw [hx]; rfl
    have hex : exec (.aqe o) s = execAqe o s := rfl
    rw [hex, ← hent]
    rw [← hent] at hs
    unfold execAqe
    split
    · next d' core' q' w' hf' =>
      obtain ⟨rfl, rfl, rfl, rfl⟩ := Focus.ap.inj (hf.symm.trans hf')
      refine apWord_done ha ?_ hs
      simp only [src, n] at hbad
      simp only [hx, he, hbad, Nat.not_le.2 hlen, Bool.not_true, Bool.or_self, Bool.false_eq_true, if_false]
      rfl
    · next hno => exact absurd hf (hno _ _ _ _)
  · intro s d core q w a hf ha ent hs
    have hex : exec (.aqend o) s = execAqend o s := rfl
    rw [hex, execAqend, hf]
    exact apWord_done ha rfl hs
  · refine issues_of (fun s => (by unfold execApstop; rfl : execApstop o s = _)) fun c z h => ?_
    have e1 : nbits (c.y.getS o.a.toNat).toNat 1 0 = (c.y.getS o.a.toNat).toNat % 4 := nbits_low _ _
    simp only [e1, h]
  · intro info q p
    refine ⟨fun a a1 v => ?_, fun a => ?_⟩
    · refine issues_of (fun s => (by unfold execAqpop; rfl : execAqpop o s = _)) fun c z h => ?_
      obtain ⟨hq, hp⟩ := h
      simp only [q] at hq
      simp only [hq, hp]
      rfl
    · refine issues_of (fun s => (by unfold execAqpop; rfl : execAqpop o s = _)) fun c z h => ?_
      obtain ⟨hq, hp, hend⟩ := h
      have hno : (a.ended.isSome && a.entries.isEmpty) = false := by
        rcases hend with h | h
        · simp [h]
        · simp [h]
      simp only [q] at hq
      simp only [hq, hp, hno, Bool.false_eq_true, if_false]
      rfl

end Sys2Proof.Laws
end

section
/-! SUPPORT. The device steps of accesses, sectors, collectives and the matrix engine (R100, R103, R207, R209, R234, R305, R384), and of
hints and timers (R41, R63, R69), and the statements on them. -/

namespace Sys2Proof.Laws

open Sys2Proof Sys2Proof.Machine

/-! ### Device steps -/

/-- A step that answers a next state for its input happens. -/
theorem happens_of {i : Instr} {x : Input} {ok : State → Prop} {eff : State → State} {f : State → Host.Outcome State Fault Refusal}
    (he : ∀ s, exec i s = f s) (h : ∀ s, s.input = x → ok s → f s = .next (eff s)) : Happens i x ok eff :=
  fun s hx ok => (he s).trans (h s hx ok)

theorem onBlock_of_gang {s : State} {b g : Nat} {p : Block × Gang} {f : State → State} (h : s.gang? b g = some p) : s.onBlock b f = f s := by
  obtain ⟨x, y⟩ := p
  have hb := (State.gang?_block h).1
  rw [State.onBlock, hb]
  rfl

theorem id_of_pend? {y : Gang} {id : Nat} {p : Pend} (h : y.pend? id = some p) : p.id = id := by
  simpa using List.find?_some h

/-! ### Fixed-latency results -/

/-- The oldest result that has not landed lands (R103). -/
theorem land_oldest {done rest : List Flight} {f : Flight} (hd : ∀ e ∈ done, e.landed = true) (hf : f.landed = false) :
    execFixedLatencyWrite.land (done ++ f :: rest) = done ++ { f with landed := true } :: rest := by
  induction done with
  | nil => simp [execFixedLatencyWrite.land, hf]
  | cons e es ih =>
    have he := hd e List.mem_cons_self
    simp only [List.cons_append, execFixedLatencyWrite.land, he, if_true, ih fun q hq => hd q (List.mem_cons_of_mem e hq)]

/-! ### Bytes of a store -/

/-- The byte of a number, among those still to be written. -/
theorem find?_unsettled {l : List Byte} {settled : Nat → Bool} {i : Nat} (hi : i < l.length) (hs : settled i = false) :
    ((l.mapIdx fun i v => (i, v)).filter fun q => !settled q.1).find? (fun q => q.1 = i) = some (i, l.getD i 0) := by
  rw [List.find?_filter, List.find?_eq_some_iff_getElem]
  refine ⟨by simp [hs], i, by simpa using hi, by simp [List.getD_eq_getElem?_getD, List.getElem?_eq_getElem hi], fun j hj => ?_⟩
  simp [Nat.ne_of_lt hj]

/-- An access that some pending word of a gang has still to perform. -/
structure Found (s : State) (b g id lane : Nat) (x : Block) (y : Gang) (p : Pend) (a : LaneAcc) : Prop where
  gang : s.gang? b g = some (x, y)
  pend : y.pend? id = some p
  acc : p.accs.find? (fun q => q.lane = lane && !q.performed) = some a
  free : y.blocked p a = false

/-- STORE_PERFORM of a whole lane. -/
theorem storePerform_whole {s : State} {b g id lane : Nat} {x : Block} {y : Gang} {p : Pend} {a : LaneAcc} (h : Found s b g id lane x y p a)
    (hk : p.kind = .store ∨ p.kind = .mxstore) (hm : s.mergeFails p a = none) :
    s.storePerform b g id lane none = ((((s.setGang b g (y.setPend (p.perform lane []))).storeBytes x a
      (((a.stored p.kind (s.readLoc a.loc a.size)).mapIdx fun i v => (i, v)).filter fun q => !a.settled q.1)).finishPend b g id).pruneFences b g).settle := by
  have hno : (!(decide (p.kind = .store) || decide (p.kind = .mxstore)) || y.blocked p a) = false := by
    rcases hk with hk | hk <;> simp [hk, h.free]
  simp only [State.storePerform, h.gang, h.pend, h.acc, hno, hm, Bool.false_eq_true, if_false]

/-- STORE_PERFORM of one byte of a plain store. -/
theorem storePerform_byte {s : State} {b g id lane i : Nat} {x : Block} {y : Gang} {p : Pend} {a : LaneAcc} (h : Found s b g id lane x y p a)
    (hk : p.kind = .store) (hi : i < a.size) (hl : a.data.length = a.size) (hs : a.settled i = false) :
    s.storePerform b g id lane (some i)
      = ((s.setGang b g (y.setPend (p.settleByte lane i (a.data.getD i 0)))).storeBytes x a [(i, a.data.getD i 0)]).settle := by
  have hno : (!(decide (p.kind = .store) || decide (p.kind = .mxstore)) || y.blocked p a) = false := by simp [hk, h.free]
  have hm : s.mergeFails p a = none := by simp [State.mergeFails, hk]
  have hst : a.stored .store (s.readLoc a.loc a.size) = a.data := rfl
  simp only [State.storePerform, h.gang, h.pend, h.acc, hno, hm, Bool.false_eq_true, if_false]
  simp only [hk, if_true, hst, find?_unsettled (hl ▸ hi) hs]

/-- READ_PERFORM of a whole lane. -/
theorem readPerform_whole {s : State} {b g id lane : Nat} {x : Block} {y : Gang} {p : Pend} {a : LaneAcc} (h : Found s b g id lane x y p a)
    (hk : p.kind = .load ∨ p.kind = .mxload ∨ p.kind = .tbrd) (hf : s.readFails x.devCore (p.kind = .load) a = none) :
    s.readPerform b g id lane none
      = ((s.readBytes x.devCore (p.kind = .load) a).2.setGang b g
          ((y.setPend (p.perform lane (s.readBytes x.devCore (p.kind = .load) a).1)).noteRead
            (p.perform lane (s.readBytes x.devCore (p.kind = .load) a).1))).pruneFences b g := by
  have hno : (!(decide (p.kind = .load) || decide (p.kind = .mxload) || decide (p.kind = .tbrd)) || y.blocked p a) = false := by
    rcases hk with hk | hk | hk <;> simp [hk, h.free]
  simp only [State.readPerform, h.gang, h.pend, h.acc, hno, hf, Bool.false_eq_true, if_false]

/-- ATOMIC_PERFORM at a site that takes the access. -/
theorem atomicPerform_eq {s : State} {b g id lane : Nat} {x : Block} {y : Gang} {p : Pend} {a : LaneAcc} (h : Found s b g id lane x y p a)
    (hk : p.kind = .atomic ∨ p.kind = .lockop ∧ a.queued = false) (hr : a.refused = false) (hs : s.siteRefuses a.loc = false) :
    s.atomicPerform b g id lane = s.performAtom x b g y p a := by
  have hno : (!(decide (p.kind = .atomic) || decide (p.kind = .lockop)) || y.blocked p a || y.halted p a) = false := by
    rcases hk with hk | ⟨hk, _⟩ <;> simp [hk, h.free, Gang.halted, hr]
  have hq : (decide (p.kind = .lockop) && a.queued) = false := by
    rcases hk with hk | ⟨hk, hq⟩
    · simp [hk]
    · simp [hq]
  simp only [State.atomicPerform, h.gang, h.pend, h.acc, hno, hr, hs, hq, Bool.or_self, Bool.false_eq_true, if_false]

theorem lane_of_find? {p : Pend} {lane : Nat} {a : LaneAcc} (h : p.accs.find? (fun q => q.lane = lane && !q.performed) = some a) :
    a.lane = lane := by
  have := List.find?_some h
  simp only [Bool.and_eq_true, decide_eq_true_eq] at this
  exact this.1

/-! ### Sectors -/

theorem not_any_fst {l : List (Nat × List Byte)} {i : Nat} (h : ∀ p ∈ l, p.1 ≠ i) : (l.any fun p => decide (p.1 = i)) = false :=
  List.any_eq_false.2 fun p hp => by simp [h p hp]

/-- An operation runs, and a sector of it is to be performed. -/
theorem sectorRuns {o : Op} {i : Nat} (h : o.away = false ∧ o.fault = none ∧ i < o.kind.count ∧ o.landed.contains i = false) :
    (!o.running || decide (o.kind.count ≤ i) || o.landed.contains i) = false := by
  obtain ⟨h1, h2, h3, h4⟩ := h
  have hr : o.running = true := by rw [Op.running, h1, h2]; rfl
  rw [hr, h4, decide_eq_false (Nat.not_le.2 h3)]
  rfl

theorem running_of {o : Op} (h1 : o.away = false) (h2 : o.fault = none) : o.running = true := by rw [Op.running, h1, h2]; rfl

/-- Settles O42: by the case of each step that its input and its hypotheses name. -/
theorem accessesAndOperationsTakeEffectInTurn : Obligations.AccessesAndOperationsTakeEffectInTurn := by
  unfold Obligations.AccessesAndOperationsTakeEffectInTurn
  refine ⟨fun b g id x y p => ?_, fun b g x y done rest f => ?_, fun b g id lane x y p a => ?_, fun core n => ?_,
    fun id i half o x => ?_, fun b id x o => ?_⟩
  · refine happens_of (f := execVariableLatencyComplete) (fun _ => rfl) fun s hx h => ?_
    obtain ⟨hg, hres, hp, hperf, hpop⟩ := h
    have hready : p.ready = true := by
      rw [Pend.ready, hperf]
      by_cases hk : p.kind = .aqpop
      · simp [hpop hk]
      · simp [hk]
    simp only [execVariableLatencyComplete, hx, State.completePend, hg, hp, hres, hready, decide_false, Bool.not_true, Bool.or_self,
      Bool.false_eq_true, if_false]
  · refine happens_of (f := execFixedLatencyWrite) (fun _ => rfl) fun s hx h => ?_
    obtain ⟨hg, hfl, hd, hf⟩ := h
    simp only [execFixedLatencyWrite, hx, State.modGang_eq _ hg, hfl, land_oldest hd hf]
  · intro found
    have hfound : ∀ {s : State}, found s → Found s b g id lane x y p a := fun h => ⟨h.1, h.2.1, h.2.2.1, h.2.2.2⟩
    refine ⟨?_, fun i => ?_, ?_, ?_, ?_⟩
    · refine happens_of (f := execStorePerform) (fun _ => rfl) fun s hx h => ?_
      obtain ⟨hf, hk, hm⟩ := h
      simp only [execStorePerform, hx, onBlock_of_gang hf.1, storePerform_whole (hfound hf) hk hm]
      rfl
    · refine happens_of (f := execStorePerform) (fun _ => rfl) fun s hx h => ?_
      obtain ⟨hf, hk, hi, hl, hs, hu⟩ := h
      have hsp : s.splitsAt b g id lane i = true := by
        simp only [State.splitsAt, hf.1, hf.2.1, Option.bind_some, hf.2.2.1, hu]
      simp only [execStorePerform, hx, onBlock_of_gang hf.1, hsp, if_true, storePerform_byte (hfound hf) hk hi hl hs]
    · refine happens_of (f := execReadPerform) (fun _ => rfl) fun s hx h => ?_
      obtain ⟨hf, hk, hr⟩ := h
      simp only [execReadPerform, hx, onBlock_of_gang hf.1, readPerform_whole (hfound hf) hk hr]
    · refine happens_of (f := execAtomicPerform) (fun _ => rfl) fun s hx h => ?_
      obtain ⟨hf, hk, hr, hs, hc⟩ := h
      simp only [execAtomicPerform, hx, onBlock_of_gang hf.1, atomicPerform_eq (hfound hf) (.inl hk) hr hs, State.performAtom, hc, hk, if_true,
        id_of_pend? hf.2.1, lane_of_find? hf.2.2.1]
    · refine happens_of (f := execAtomicPerform) (fun _ => rfl) fun s hx h => ?_
      obtain ⟨hf, hk, hq, hr, hs, hc⟩ := h
      have hne : ¬p.kind = .atomic := by simp [hk]
      simp only [execAtomicPerform, hx, onBlock_of_gang hf.1, atomicPerform_eq (hfound hf) (.inr ⟨hk, hq⟩) hr hs, State.performAtom, hc, hne,
        if_false, id_of_pend? hf.2.1]
  · exact happens_of (f := execLineDrop) (fun _ => rfl) fun s hx _ => by simp only [execLineDrop, hx]
  · intro found runs
    refine ⟨?_, ?_, fun j => ⟨?_, ?_, ?_⟩, fun t => ?_, ?_⟩
    · refine happens_of (f := execSectorPerform) (fun _ => rfl) fun s hx h => ?_
      obtain ⟨⟨ho, hb⟩, hr⟩ := h
      simp only [execSectorPerform, hx, ho, hb, sectorRuns hr, Bool.false_eq_true, if_false, if_true]
    · refine happens_of (f := execSectorPerform) (fun _ => rfl) fun s hx h => ?_
      obtain ⟨⟨ho, hb⟩, hr, hrd, hk⟩ := h
      simp only [execSectorPerform, hx, ho, hb, sectorRuns hr, Bool.false_eq_true, if_false, Nat.zero_ne_one]
      split
      · next hkvl => rw [hkvl] at hk; exact hk.elim
      · simp only [not_any_fst hrd, Bool.false_eq_true, if_false]
    · refine happens_of (f := execSectorPerform) (fun _ => rfl) fun s hx h => ?_
      obtain ⟨⟨ho, hb⟩, hr, hs⟩ := h
      simp only [execSectorPerform, hx, ho, hb, sectorRuns hr, hs, Bool.not_true, Bool.or_self, Bool.false_eq_true, if_false, if_true]
    · refine happens_of (f := execSectorPerform) (fun _ => rfl) fun s hx h => ?_
      obtain ⟨⟨ho, hb⟩, hr, hrd, hs⟩ := h
      simp only [execSectorPerform, hx, ho, hb, sectorRuns hr, hs, not_any_fst hrd, Bool.not_true, Bool.or_self, Bool.false_eq_true, if_false,
        Nat.zero_ne_one]
    · refine happens_of (f := execSectorPerform) (fun _ => rfl) fun s hx h => ?_
      obtain ⟨⟨ho, hb⟩, hs⟩ := h
      simp only [execSectorPerform, hx, ho, hb, hs, Bool.not_false, Bool.or_true, if_true]
    · refine happens_of (f := execCopyFault) (fun _ => rfl) fun s hx h => ?_
      obtain ⟨⟨ho, hb⟩, h1, h2, ht, hc, hl⟩ := h
      simp only [execCopyFault, hx, ho, hb, running_of h1 h2, ht, hc, hl, Bool.not_true, Bool.false_eq_true, if_false]
    · intro others ls ld how p dt rd rt ct n rk num sa da va hk ready
      have hsent : ∀ {s}, ready s → (o.fault.isNone && !(o.away || (match x.gangs[o.g]? with | some y => s.collBusy o y | none => false))
          && (s.collLocs o x).toOption.isSome) = true := by
        intro s h
        obtain ⟨_, _, hfault, haway, hlocs, hgang⟩ := h
        rcases hy : x.gangs[o.g]? with _ | y
        · simp [haway, hfault, hlocs, Except.toOption]
        · simp [haway, hfault, hlocs, hgang y hy, Except.toOption]
      refine ⟨?_, ?_, ?_, ?_⟩
      · refine happens_of (f := execCollComplete) (fun _ => rfl) fun s hx h => ?_
        have hs := hsent h
        obtain ⟨⟨ho, hb⟩, hdown, _⟩ := h
        simp only [execCollComplete, hx, ho, hb, hk, hdown, Bool.false_eq_true, if_false]
        exact congrArg Host.Outcome.next (if_pos hs)
      · refine happens_of (f := execCollComplete) (fun _ => rfl) fun s hx h => ?_
        have hs := hsent h.1
        obtain ⟨⟨⟨ho, hb⟩, hdown, _⟩, hn⟩ := h
        simp only [execCollComplete, hx, ho, hb, hk, hdown, Bool.false_eq_true, if_false, hn, decide_true, Bool.and_true]
        exact congrArg Host.Outcome.next (if_pos hs)
      · refine happens_of (f := execCollComplete) (fun _ => rfl) fun s hx h => ?_
        obtain ⟨⟨ho, hb⟩, hhow⟩ := h
        have h2 : (if s.linkDown o then 2 else how) = 2 := by
          rcases hhow with rfl | hd
          · exact ite_self 2
          · exact if_pos hd
        simp only [execCollComplete, hx, ho, hb, hk, h2]
      · refine happens_of (f := execCollComplete) (fun _ => rfl) fun s hx h => ?_
        obtain ⟨⟨ho, hb⟩, hdown⟩ := h
        simp only [execCollComplete, hx, ho, hb, hk, hdown, Bool.false_eq_true, if_false]
  · refine ⟨?_, ?_⟩
    · refine happens_of (f := execOperandsConsumed) (fun _ => rfl) fun s hx h => ?_
      obtain ⟨hb, hr, hd⟩ := h
      simp only [execOperandsConsumed, hx, hb, hr, hd, Option.isSome_none, Bool.false_eq_true, if_false]
      cases o.cons <;> rfl
    · refine happens_of (f := execMatrixOpComplete) (fun _ => rfl) fun s hx h => ?_
      obtain ⟨hb, hr, hd, hl⟩ := h
      have hfree : (o.kind.writes.any fun r => (List.range r.2).any fun i => s.leased none (.loc x.id (uoff r.1 + i))) = false :=
        List.any_eq_false.2 fun r hr => ne_true_of_eq_false (List.any_eq_false.2 fun i hi =>
          ne_true_of_eq_false (hl r hr i (List.mem_range.1 hi)))
      have hsome : o.data.isNone = false := by rw [← Option.not_isSome, hd]; rfl
      simp only [execMatrixOpComplete, hx, hb, hr, hsome, hfree, Bool.or_self, Bool.false_eq_true, if_false]

/-! ### Hints and timers -/

/-- The expiry of a hint: every lane that waits with it at the word answers 0. -/
theorem expire_eq {s : State} {b g l kd : Nat} {x : Block} {y : Gang} {isKind : Wait → Option Nat} (hg : s.gang? b g = some (x, y))
    (hk : isKind (y.lane l).wait = some kd) (hh : (y.lane l).hint = some 0) (hl : y.live.getLsbD l = true) (hr : x.residence = .resident) :
    s.expire b g l isKind = (s.setGang b g (y.answerWake kd
      (maskOf fun k => y.live.getLsbD k && (y.lane k).pc = (y.lane l).pc && (y.lane k).wait = (y.lane l).wait && (y.lane k).hint = some 0)
      false)).settle := by
  simp only [State.expire, hg, hk, hh, hl, hr, ne_eq, not_true_eq_false, decide_false, Bool.not_true, Bool.or_self, Bool.false_eq_true, if_false]

/-- Settles O43: each hint's wait is of the kind that its step looks for; the timers act when they are due. -/
theorem hintsExpireAndTimersAct : Obligations.HintsExpireAndTimersAct := by
  unfold Obligations.HintsExpireAndTimersAct
  refine ⟨fun i kd is hi b g l x y => ?_, fun b g l x y w => ?_, ?_, fun b g x y => ⟨?_, ?_⟩⟩
  · obtain ⟨kind, he, hkind⟩ : ∃ kind : Wait → Option Nat,
        (∀ s, exec i s = match s.input with | .nat3 b g l => .next (s.expire b g l kind) | _ => .next s) ∧ ∀ w, is w → kind w = some kd := by
      rcases hi with ⟨rfl, rfl⟩ | ⟨rfl, rfl⟩ | ⟨rfl, rfl⟩
      · exact ⟨_, fun _ => rfl, fun w ⟨ob, hw⟩ => by subst hw; rfl⟩
      · exact ⟨_, fun _ => rfl, fun w ⟨a, ph, hw⟩ => by subst hw; rfl⟩
      · exact ⟨_, fun _ => rfl, fun w ⟨a, sg, v, hw⟩ => by subst hw; rfl⟩
    refine happens_of he fun s hx h => ?_
    obtain ⟨hg, hw, hh, hl, hr⟩ := h
    simp only [hx, expire_eq hg (hkind _ hw) hh hl hr]
  · refine happens_of (f := execLockHintExpiry) (fun _ => rfl) fun s hx h => ?_
    obtain ⟨hg, hw, hh, haway⟩ := h
    simp only [execLockHintExpiry, hx, hg, hw, hh, haway, decide_true, Bool.not_false, Bool.and_self, if_true]
  · exact happens_of (f := execDeadlineInheritUpdate) (fun _ => rfl) fun s _ _ => rfl
  · refine happens_of (f := execFairnessSweep) (fun _ => rfl) fun s hx h => ?_
    obtain ⟨hg, hs, hf⟩ := h
    have hdue : y.sweepDue = true := by simp [Gang.sweepDue, hs, hf]
    simp only [execFairnessSweep, hx, State.modGang_eq _ hg, hdue, if_true]
  · refine happens_of (f := execFairnessTurnEnd) (fun _ => rfl) fun s hx h => ?_
    obtain ⟨hg, hs, ht⟩ := h
    simp only [execFairnessTurnEnd, hx, State.modGang_eq _ hg, hs, ht, Bool.and_self, if_true]

end Sys2Proof.Laws
end

section
/-! SUPPORT. The device steps of subscriptions (R280 to R291) and of queues and their entries (R24 to R39, R396), and the statements on
them. -/

namespace Sys2Proof.Laws

open Sys2Proof Sys2Proof.Machine

/-! ### Subscriptions -/

/-- Settles O44: each step by the case of its subscription, its push and its home. -/
theorem subscriptionsServeTheirSubscribers : Obligations.SubscriptionsServeTheirSubscribers := by
  unfold Obligations.SubscriptionsServeTheirSubscribers
  refine ⟨fun id u p r => ⟨fun b base x => ⟨?_, ?_⟩, fun d q x => ⟨?_, ?_⟩, fun e => ⟨?_, ?_⟩⟩,
    fun id u => ⟨fun p => ?_, ?_, fun op o => ?_, fun b base x => ?_⟩, fun id o x a size base r every l => ?_⟩
  · refine happens_of (f := execPushDelivery) (fun _ => rfl) fun s hx h => ?_
    obtain ⟨hs, hp, hw, hb, hres, hl⟩ := h
    simp only [execPushDelivery, hx, hs, hp, hw, hb, hres, hl, Bool.false_eq_true, if_false]
  · refine happens_of (f := execPushDelivery) (fun _ => rfl) fun s hx h => ?_
    obtain ⟨hs, hp, hw, hb, hres⟩ := h
    simp only [execPushDelivery, hx, hs, hp, hw, hb, hres, if_true, State.deliverLog]
  · refine happens_of (f := execWriteIndexPush) (fun _ => rfl) fun s hx h => ?_
    obtain ⟨hs, hp, hw, hq, hc⟩ := h
    simp only [execWriteIndexPush, hx, hs, hp, hw, hq, hc, Bool.not_false, if_true, State.takePush, List.tail_cons]
  · refine happens_of (f := execWriteIndexPush) (fun _ => rfl) fun s hx h => ?_
    obtain ⟨hs, hp, hw, hq, hc, hpo⟩ := h
    simp only [execWriteIndexPush, hx, hs, hp, hw, hq, hc, hpo, Bool.not_true, Bool.false_eq_true, if_false, if_true]
    rfl
  · refine happens_of (f := execWaitvPush) (fun _ => rfl) fun s hx h => ?_
    obtain ⟨hs, hp, hw, hc, hv⟩ := h
    simp only [execWaitvPush, hx, hs, hp, hw, hc, hv, Bool.not_false, if_true]
  · refine happens_of (f := execWaitvPush) (fun _ => rfl) fun s hx h => ?_
    obtain ⟨hs, hp, hw, hc, hv⟩ := h
    simp only [execWaitvPush, hx, hs, hp, hw, hc, hv, Bool.not_false, Bool.false_eq_true, if_true, if_false, State.takePush, List.tail_cons]
  · refine happens_of (f := execCreditReturn) (fun _ => rfl) fun s hx h => ?_
    obtain ⟨hs, hd, hl, hh⟩ := h
    simp only [execCreditReturn, hx, hs, hd, hl, hh, ne_eq, not_true_eq_false, decide_false, Bool.or_self, Bool.false_eq_true, if_false]
  · refine happens_of (f := execCreditReturn) (fun _ => rfl) fun s hx h => ?_
    obtain ⟨hs, hd, hl, hh⟩ := h
    simp only [execCreditReturn, hx, hs, hd, hl, hh, ne_eq, not_true_eq_false, decide_false, Bool.or_self, Bool.false_eq_true, if_false]
  · refine happens_of (f := execUsubHome) (fun _ => rfl) fun s hx h => ?_
    obtain ⟨ho, hk, hs, hl⟩ := h
    simp only [execUsubHome, hx, ho, hk, hs, hl, if_true]
  · refine happens_of (f := execSubscriptionPoison) (fun _ => rfl) fun s hx h => ?_
    obtain ⟨hs, _, _, hl, hu⟩ := h
    simp only [execSubscriptionPoison, hx, hs, hl, hu, decide_true, Bool.and_self, if_true]
  · intro asks
    refine ⟨?_, fun v => ?_⟩
    · refine happens_of (f := execSldHomeRequest) (fun _ => rfl) fun s hx h => ?_
      obtain ⟨⟨ho, hk, hb, hf, hs, haway, hl, hhome, hm⟩, hfull⟩ := h
      have hq : (decide (s.squota x.ctx ≤ s.quotaUsed x.ctx (homeOf l).1) || !s.recordFree l size) = true := by
        rcases hfull with hfull | hfull <;> simp [hfull]
      rcases l with pa | ⟨d, n⟩ | _ | _ | _
      case hbm | tun =>
        simp only [execSldHomeRequest, hx, ho, hk, hb, hf, hs, haway, hl, hm, hq, Option.isSome_none, Bool.or_self, Bool.false_eq_true, if_false,
          if_true]
      all_goals exact hhome.elim
    · refine happens_of (f := execSldHomeRequest) (fun _ => rfl) fun s hx h => ?_
      obtain ⟨⟨ho, hk, hb, hf, hs, haway, hl, hhome, hm⟩, hq, hr, hv, hu⟩ := h
      have hq' : (decide (s.squota x.ctx ≤ s.quotaUsed x.ctx (homeOf l).1) || !s.recordFree l size) = false := by
        simp [Nat.not_le.2 hq, hr]
      rcases l with pa | ⟨d, n⟩ | _ | _ | _
      case hbm | tun =>
        simp only [hk, hf, haway] at hv hu
        simp only [execSldHomeRequest, hx, ho, hk, hb, hf, hs, haway, hl, hm, hq', hv, hu, Option.isSome_none, Bool.or_self, Bool.false_eq_true,
          if_false]
      all_goals exact hhome.elim

/-! ### Queues -/

theorem die_ofNat (d : Die) : (Fin.ofNat 2 d.val : Die) = d := by simp

/-- A descriptor that R29 allows, of a queue that is not mapped. -/
theorem mapBad_eq_false {s : State} {q ctx tab : Nat} {d : Die} {x : Queue} {desc : List Byte} (hq : q < 512) (hctx : ctx < 1024)
    (hres : descReserved desc = false) (hv : s.ctxField ctx 2 2 % 2 = 1) (htab : tab < s.ctxField ctx 0x10 4) (hxc : x.ctx = ctx)
    (hsp : x.space < 1024) (hl1 : 4 ≤ x.log2n) (hl2 : x.log2n ≤ 16) (hqn : s.queue? d q = none) (hqo : s.queueOf ctx tab = none) :
    (512 ≤ q || 1024 ≤ ctx || !decide (nbits (s.ctxField ctx 2 2) 0 0 = 1) || s.ctxField ctx 0x10 4 ≤ tab || x.ctx ≠ ctx || 1024 ≤ x.space
      || x.log2n < 4 || 16 < x.log2n || descReserved desc || (s.queue? d q).isSome || (s.queueOf ctx tab).isSome) = false := by
  have hv' : nbits (s.ctxField ctx 2 2) 0 0 = 1 := (nbits_low _ _).trans hv
  simp [Nat.not_le.2 hq, Nat.not_le.2 hctx, hv', Nat.not_le.2 htab, hxc, Nat.not_le.2 hsp, Nat.not_lt.2 hl1, Nat.not_lt.2 hl2, hres, hqn, hqo]

/-- One of the plain kinds that is admitted. -/
theorem presentPlain_eq {s : State} {d : Die} {q : Nat} {x : Queue} {e : Entry} {code : Nat} {f : State → State} (h : code = 0) :
    s.presentPlain d q x e code f = f ((s.takeEntry d q).decideEntry d q x.pidx 0) := by
  subst h
  rfl

theorem writesBefore_eq_false {s : State} {e : Entry}
    (h : ∀ x ∈ s.ended, x.ctx = e.ctx → x.tab = e.tab → x.owner < e.id → x.unperformed 3 = false) : s.writesBefore e = false := by
  refine List.any_eq_false.2 fun x hx => ?_
  simp only [Bool.and_eq_true, decide_eq_true_eq, not_and, Bool.not_eq_true, and_imp]
  exact fun h1 h2 h3 => h x hx h1 h2 h3

/-- Settles O45: each step by the case that its queue, its entry and its hypotheses name. -/
theorem queuesPresentTheirEntries : Obligations.QueuesPresentTheirEntries := by
  unfold Obligations.QueuesPresentTheirEntries
  refine ⟨fun d v => ?_, fun d q ctx tab x => ?_, fun d q x => ⟨?_, ?_, ?_, fun w bs => ?_⟩, fun d q x bs l => ?_, fun id e l => ?_,
    fun id code e rem rows => ?_, fun id h e o => ?_⟩
  · refine happens_of (f := execFecfgWrite) (fun _ => rfl) fun s hx _ => ?_
    have e1 : nbits v 7 0 = v % 256 := nbits_low _ _
    simp only [execFecfgWrite, hx, die_ofNat, e1]
    rfl
  · refine happens_of (f := execQueueMap) (fun _ => rfl) fun s hx h => ?_
    obtain ⟨hxd, hq, hctx, hres, hv, htab, hxc, hsp, hl1, hl2, hqn, hqo, hwe, hgen⟩ := h
    rw [hwe] at hxd
    subst hxd
    have hbad := mapBad_eq_false (x := Queue.of (s.deviceRead (s.descAt ctx tab) 64) tab) hq hctx hres hv htab hxc hsp hl1 hl2 hqn hqo
    simp only [execQueueMap, hx, die_ofNat, hbad, hwe, Bool.false_eq_true, if_false, Option.map_none]
    exact congrArg Host.Outcome.next (if_neg fun hne => hne hgen)
  · refine happens_of (f := execQueueUnmap) (fun _ => rfl) fun s hx h => ?_
    obtain ⟨hq, hu, hw, hi⟩ := h
    rcases hwi : x.widx with _ | w
    · simp only [execQueueUnmap, hx, die_ofNat, hq, hu, hw, hwi, Bool.or_self, Bool.false_eq_true, if_false] <;> rfl
    · simp only [execQueueUnmap, hx, die_ofNat, hq, hu, hw, hwi, hi w hwi, Bool.or_self, Bool.false_eq_true, if_false] <;> rfl
  · refine happens_of (f := execQueueUnmap) (fun _ => rfl) fun s hx h => ?_
    simp only [execQueueUnmap, hx, die_ofNat, h.1, h.2, if_true]
  · refine happens_of (f := execQueueFaultClear) (fun _ => rfl) fun s hx h => ?_
    obtain ⟨hq, hf, hp⟩ := h
    simp only [execQueueFaultClear, hx, die_ofNat, hq, hf, hp, Bool.not_true, Bool.or_self, Bool.false_eq_true, if_false]
  · refine happens_of (f := execEntryFetch) (fun _ => rfl) fun s hx h => ?_
    obtain ⟨hq, hr, hf, hl, hg, hn, hw, hr1, hr2, hrd⟩ := h
    have hbelow : x.below = true := by simp only [Queue.below, hw, hr1, hr2, decide_true, Bool.and_self]
    simp only [execEntryFetch, hx, die_ofNat, hq, hr, hf, hl, hg, Nat.not_le.2 hn, hbelow, hrd, ne_eq, not_true_eq_false, decide_false,
      Bool.not_true, Bool.or_self, Bool.false_eq_true, if_false]
  · intro given past
    refine ⟨?_, ?_, ?_, ?_, ?_, ?_⟩
    · refine happens_of (f := execEntryNop) (fun _ => rfl) fun s hx h => ?_
      obtain ⟨⟨hp, hc⟩, hk⟩ := h
      simp only [execEntryNop, hx, die_ofNat, hp, hk, presentPlain_eq hc]
      rfl
    · refine happens_of (f := execEntryFetchfence) (fun _ => rfl) fun s hx h => ?_
      obtain ⟨⟨hp, hc⟩, hk, hpend⟩ := h
      simp only [execEntryFetchfence, hx, die_ofNat, hp, hk, hpend, presentPlain_eq hc, ne_eq, not_true_eq_false, decide_false, Bool.or_self,
        Bool.false_eq_true, if_false]
      rfl
    · refine happens_of (f := execEntrySignal) (fun _ => rfl) fun s hx h => ?_
      obtain ⟨⟨hp, hc⟩, hk⟩ := h
      simp only [execEntrySignal, hx, die_ofNat, hp, hk, presentPlain_eq hc, ne_eq, not_true_eq_false, if_false]
      rfl
    · refine happens_of (f := execEntryWaitv) (fun _ => rfl) fun s hx h => ?_
      obtain ⟨⟨hp, hc⟩, hk, hloc, hh, hquota⟩ := h
      have e55 : nbits (enTarget bs).toNat 55 0 = (enTarget bs).toNat % 2 ^ 56 := nbits_low _ _
      have e3 : nbits (enArg0 bs) 3 0 = enArg0 bs % 16 := nbits_low _ _
      have htarget : (Entry.ofBytes s.nextId d q x x.pidx .waitv bs).target = enTarget bs := rfl
      simp only [execEntryWaitv, hx, die_ofNat, hp, hk, htarget, hloc, hh, hquota, Bool.and_false, presentPlain_eq hc, if_true, e55, e3,
        ne_eq, not_true_eq_false, if_false]
      rfl
    · refine happens_of (f := execEntryLaunch) (fun _ => rfl) fun s hx h => ?_
      simp only [execEntryLaunch, hx, die_ofNat, h.1, h.2, if_true]
    · refine happens_of (f := execEntryNode) (fun _ => rfl) fun s hx h => ?_
      simp only [execEntryNode, hx, die_ofNat, h.1, h.2, if_true]
  · refine happens_of (f := execSignalStore) (fun _ => rfl) fun s hx h => ?_
    obtain ⟨he, hk, hf, hp, hw, hl⟩ := h
    simp only [execSignalStore, hx, he, hk, hf, hp, writesBefore_eq_false hw, hl, ne_eq, not_true_eq_false, decide_false, Option.isSome_none,
      Bool.or_self, Bool.false_eq_true, if_false]
  · intro other peer
    refine happens_of (f := execSplitHalfRequest) (fun _ => rfl) fun s hx h => ?_
    obtain ⟨he, hhalf, hp, hcode, hb, hn, hq, hl, hlc⟩ := h
    subst hcode
    simp only [other, peer] at hq hl hlc
    simp only [execSplitHalfRequest, hx, he, hhalf, hp, hb, hn, Nat.not_le.2 hq, Nat.not_le.2 hl, hlc, ne_eq, not_true_eq_false,
      Bool.false_eq_true, if_false, if_true]
    rfl
  · refine happens_of (f := execSplitHalfFinish) (fun _ => rfl) fun s hx h1 => ?_
    obtain ⟨he, hp, ho, hh, hd⟩ := h1
    simp only [execSplitHalfFinish, hx, he, hp, ho, hh, hd, ne_eq, not_true_eq_false, decide_false, Bool.not_true, Bool.or_self, Bool.false_eq_true,
      if_false]
    rfl

end Sys2Proof.Laws
end

section
/-! SUPPORT. The life of an entry and of its blocks (R26, R40 to R48, R56 to R58, R347, R348, R357 to R362), and the statement on it. -/

namespace Sys2Proof.Laws

open Sys2Proof Sys2Proof.Machine

/-! ### The fields of FEPCMD (R46) -/

/-- A command register reads back the fields that it was made of. -/
theorem fepcmd_fields {q idx amount cls res op : Nat} (hq : q < 512) (hi : idx < 2 ^ 32) (ha : amount < 2 ^ 32) (hc : cls < 4) (hr : res < 256)
    (ho : op < 4) : let c := (fepcmd amount idx q res cls op true).toNat
    nbits c 7 7 = 1 ∧ nbits c 1 0 = op ∧ nbits c 5 4 = cls ∧ nbits c 127 96 = amount ∧ nbits c 56 48 = q ∧ nbits c 95 64 = idx := by
  have hv : (fepcmd amount idx q res cls op true).toNat
      = amount * 2 ^ 96 + idx * 2 ^ 64 + q * 2 ^ 48 + res * 2 ^ 40 + 2 ^ 7 + cls * 16 + op := by
    simp only [fepcmd, if_true, BitVec.toNat_ofNat]
    omega
  simp only [hv, nbits]
  omega

/-- What a command that finds no entry comes to. -/
theorem command_none {s : State} {d : Die} {q idx amount cls res op : Nat} (hq : q < 512) (hi : idx < 2 ^ 32) (ha : amount < 2 ^ 32)
    (hc : cls < 4) (hr : res < 256) (ho : op < 4) (h : s.fe[d].cmd = fepcmd amount idx q res cls op true)
    (hn : s.admitted? d q idx = none) :
    s.command d op = s.modFe d fun f => { f with cmd := fepcmd amount idx q 0xFE cls op false } := by
  obtain ⟨h7, h1, h5, ha', hq', hi'⟩ := fepcmd_fields hq hi ha hc hr ho
  simp only [State.command, h, h7, h1, h5, ha', hq', hi', hn, Nat.one_ne_zero, ne_eq, not_true_eq_false, decide_false, Bool.or_self,
    Bool.false_eq_true, if_false]

/-- GRANT in progress, of an entry (R45). -/
theorem command_grant {s : State} {d : Die} {q idx amount cls res : Nat} {e : Entry} (hq : q < 512) (hi : idx < 2 ^ 32) (ha : amount < 2 ^ 32)
    (hc : cls < 4) (hr : res < 256) (h : s.fe[d].cmd = fepcmd amount idx q res cls 1 true) (hn : s.admitted? d q idx = some e) :
    s.command d 1 = (s.grantCmd e cls amount).1.modFe d fun f =>
      { f with cmd := fepcmd amount idx q (s.grantCmd e cls amount).2 cls 1 false } := by
  obtain ⟨h7, h1, h5, ha', hq', hi'⟩ := fepcmd_fields hq hi ha hc hr (op := 1) (by decide)
  simp only [State.command, h, h7, h1, h5, ha', hq', hi', hn, Nat.one_ne_zero, ne_eq, not_true_eq_false, decide_false, Bool.or_self,
    Bool.false_and, Bool.false_eq_true, if_false]

/-- DEMOTE in progress, of a launch or node entry (R45). -/
theorem command_demote {s : State} {d : Die} {q idx amount cls res : Nat} {e : Entry} (hq : q < 512) (hi : idx < 2 ^ 32) (ha : amount < 2 ^ 32)
    (hc : cls < 4) (hr : res < 256) (h : s.fe[d].cmd = fepcmd amount idx q res cls 2 true) (hn : s.admitted? d q idx = some e)
    (hk : e.commandable = true) :
    s.command d 2 = ((s.halves e).foldl (fun z h => z.demoteNow h.id) s).modFe d fun f => { f with cmd := fepcmd amount idx q 0 cls 2 false } := by
  obtain ⟨h7, h1, h5, ha', hq', hi'⟩ := fepcmd_fields hq hi ha hc hr (op := 2) (by decide)
  simp only [State.command, h, h7, h1, h5, ha', hq', hi', hn, hk, Nat.one_ne_zero, ne_eq, not_true_eq_false, decide_false, Bool.or_self,
    Bool.not_true, Bool.and_false, Bool.false_eq_true, if_false]

/-- ABORT in progress, of a launch or node entry (R45). -/
theorem command_abort {s : State} {d : Die} {q idx amount cls res : Nat} {e : Entry} (hq : q < 512) (hi : idx < 2 ^ 32) (ha : amount < 2 ^ 32)
    (hc : cls < 4) (hr : res < 256) (h : s.fe[d].cmd = fepcmd amount idx q res cls 3 true) (hn : s.admitted? d q idx = some e)
    (hk : e.commandable = true) :
    s.command d 3 = (s.abortCmd e).1.modFe d fun f => { f with cmd := fepcmd amount idx q (s.abortCmd e).2 cls 3 false } := by
  obtain ⟨h7, h1, h5, ha', hq', hi'⟩ := fepcmd_fields hq hi ha hc hr (op := 3) (by decide)
  simp only [State.command, h, h7, h1, h5, ha', hq', hi', hn, hk, Nat.one_ne_zero, ne_eq, not_true_eq_false, decide_false, Bool.or_self,
    Bool.not_true, Bool.and_false, Bool.false_eq_true, if_false]

/-- A grant to halves that are held and whose tests pass. -/
theorem grantCmd_eq {s : State} {e : Entry} {cls amount : Nat} (hc : cls < 3) (hh : ∃ h ∈ s.halves e, h.heldIn cls = true)
    (hg : ∀ h ∈ s.halves e, h.heldIn cls = true → s.grantCode h cls amount = 0) :
    s.grantCmd e cls amount
      = (((s.halves e).filter fun h => h.heldIn cls).foldl (fun z h => (z.grant h cls amount).nextOverrun h.id) s, 0) := by
  obtain ⟨h, hmem, hheld⟩ := hh
  have hne : ((s.halves e).filter fun h => h.heldIn cls).isEmpty = false := by
    rw [List.isEmpty_eq_false_iff]
    exact List.ne_nil_of_mem (List.mem_filter.2 ⟨hmem, hheld⟩)
  have hfind : ((((s.halves e).filter fun h => h.heldIn cls).map fun h => s.grantCode h cls amount).find? (· ≠ 0)) = none := by
    rw [List.find?_eq_none]
    intro n hn
    obtain ⟨k, hk, rfl⟩ := List.mem_map.1 hn
    obtain ⟨hk1, hk2⟩ := List.mem_filter.1 hk
    simp [hg k hk1 hk2]
  simp only [State.grantCmd, Nat.ne_of_lt hc, hne, hfind, decide_false, Bool.or_self, Bool.false_eq_true, if_false]

/-- An abort of an entry whose halves have no unresolved overrun. -/
theorem abortCmd_eq {s : State} {e : Entry} (h : ∀ h ∈ s.halves e, h.overrun = none) : s.abortCmd e = (s.abortEntry e.id 3 0, 0) := by
  have hn : ((s.halves e).any fun h => h.overrun.isSome) = false := List.any_eq_false.2 fun k hk => by simp [h k hk]
  simp only [State.abortCmd, hn, Bool.false_eq_true, if_false]

theorem commandable_of {e : Entry} (h : e.kind = .launch ∨ e.kind = .node) : e.commandable = true := by
  rcases h with h | h <;> simp [Entry.commandable, h]

/-! ### Nodes -/

/-- A node that has records and is due launches its next block. -/
theorem nodeLaunch_eq {s : State} {id : Nat} {e : Entry} {nd : Node} {due : Entry → Node → Bool} (he : s.entry? id = some e)
    (hn : e.node = some nd) (hf : e.fin = none) (hh : nd.held ≠ []) (hd : due e nd = true) : s.nodeLaunch id due = s.setEntry (e.launchOne nd) := by
  have hne : nd.held.isEmpty = false := List.isEmpty_eq_false_iff.2 hh
  simp only [State.nodeLaunch, he, hn, hf, hne, hd, Option.isNone_none, Bool.not_false, Bool.and_self, if_true]

/-! ### Restoration -/

/-- No image of the members lies in a lent range. -/
theorem any_imageLent_eq_false {s : State} {ms : List Block}
    (h : ∀ y ∈ ms, ∀ base, y.saved = some base → s.imageLent y base = false ∧ s.imageFails y base = none) :
    (ms.any fun y => y.saved.any (s.imageLent y)) = false := by
  refine List.any_eq_false.2 fun y hy => ?_
  rcases hs : y.saved with _ | base
  · simp
  · simp [(h y hy base hs).1]

/-- Every image of the members can be read. -/
theorem findSome?_imageFails_eq_none {s : State} {ms : List Block}
    (h : ∀ y ∈ ms, ∀ base, y.saved = some base → s.imageLent y base = false ∧ s.imageFails y base = none) :
    (ms.findSome? fun y => y.saved.bind (s.imageFails y)) = none := by
  refine findSome?_eq_none_of fun y hy => ?_
  rcases hs : y.saved with _ | base
  · rfl
  · exact (h y hy base hs).2

theorem writesLeft_eq_false {s : State} {id scope : Nat} (h : ∀ x ∈ s.ended, x.owner = id → x.unperformed scope = false) :
    s.writesLeft id scope = false := by
  refine List.any_eq_false.2 fun x hx => ?_
  simp only [Bool.and_eq_true, decide_eq_true_eq, not_and, Bool.not_eq_true]
  exact h x hx

/-- Settles O46: each step by the case that its input, its entry and its block name. -/
theorem entriesAndBlocksRunTheirCourse : Obligations.EntriesAndBlocksRunTheirCourse := by
  unfold Obligations.EntriesAndBlocksRunTheirCourse
  refine ⟨fun id e k data => ?_, fun b why x s1 => ?_, fun b base x => ?_, fun b k data x os => ?_, fun b x e => ?_,
    fun id e => ⟨fun c => ?_, fun w l => ?_, ?_, fun nd => ?_⟩, fun b g n x y => ?_, fun id n rel close data o x e nd => ?_,
    fun d q idx amount cls res hq hi ha hc hr => ?_⟩
  · refine happens_of (f := execBlockPlacement) (fun _ => rfl) fun s hx h => ?_
    obtain ⟨he, hfirst⟩ := h
    simp only [execBlockPlacement, hx, he]
    refine congrArg Host.Outcome.next (if_pos (List.all_eq_true.2 fun h hh => ?_))
    obtain ⟨w, hw, hfit⟩ := hfirst h hh
    simp only [hw, hfit]
  · refine happens_of (f := execPreemptDecision) (fun _ => rfl) fun s hx h => ?_
    obtain ⟨hb, hwhy, hp⟩ := h
    have hno : (decide (why ≠ 0) && !s.isVictim x) = false := by rcases hwhy with hw | hw <;> simp [hw]
    simp only [execPreemptDecision, hx, hb, hno, hp, Bool.false_eq_true, if_false, Option.getD_some]
  · refine happens_of (f := execSaveImageDone) (fun _ => rfl) fun s hx h => ?_
    obtain ⟨hb, hs, hr, hd, hl, hw⟩ := h
    simp only [execSaveImageDone, hx, hb, hs, hr, hd, hl, hw, ne_eq, not_true_eq_false, decide_false, Bool.not_true, Bool.or_self,
      Bool.false_eq_true, if_false]
  · refine happens_of (f := execBlockRestore) (fun _ => rfl) fun s hx h => ?_
    obtain ⟨hb, hback, hready, hlen, hseat, himg, hshort⟩ := h
    have hback' : (s.backWant x).isNone = false := by rw [← Option.not_isSome, hback]; rfl
    simp only [execBlockRestore, hx, hb]
    refine (if_neg ?_).trans ?_
    · simp only [hback', hlen, any_imageLent_eq_false himg, ne_eq, not_true_eq_false, decide_false, Bool.or_false, Bool.false_or,
        Bool.not_eq_true', Bool.not_eq_false]
      refine List.all_eq_true.2 fun w hw => ?_
      obtain ⟨y, hy, hyw⟩ := List.mem_filterMap.1 hw
      obtain ⟨k, hk, hfit⟩ := hready y hy w hyw
      simp only [hk, hfit]
    · simp only [hseat, findSome?_imageFails_eq_none himg]
      split
      · next hs => cases hs.symm.trans hshort
      · rfl
  · refine happens_of (f := execBlockEnd) (fun _ => rfl) fun s hx h => ?_
    obtain ⟨hb, hlive, hsubs, hops, hlease, he⟩ := h
    have hexit : x.exited = true := List.all_eq_true.2 fun y hy => decide_eq_true (hlive y hy)
    have hop : (s.ops.any fun o => decide (o.b = b)) = false := List.any_eq_false.2 fun o ho => by simp [hops o ho]
    have hsub : (s.subs.any fun u => match u.who with | .gill b' _ => decide (b' = b) | _ => false) = false := by
      refine List.any_eq_false.2 fun u hu => ?_
      rcases hw : u.who with ⟨b', base⟩ | _ | _ | _ | _
      · have hne : b' ≠ b := fun hb' => hsubs u hu base (hb' ▸ hw)
        simp [hne]
      all_goals simp
    simp only [execBlockEnd, hx, hb, hexit, hop, hlease, he]
    refine (if_neg ?_).trans rfl
    simp only [Bool.not_true, Bool.false_or, Bool.or_false, Bool.not_eq_true]
    exact hsub
  · refine happens_of (f := execEntryFinish) (fun _ => rfl) fun s hx h => ?_
    obtain ⟨hab, he, hf, hk, hd, hcyc⟩ := h
    have hk' : (decide (e.kind = .launch) || decide (e.kind = .node)) = true := by rcases hk with hk | hk <;> simp [hk]
    simp only [execEntryFinish, hx, hab, he, hf, hk', hd, hcyc, Option.isSome_none, Bool.not_true, Bool.or_self, Bool.false_eq_true, if_false]
  · refine happens_of (f := execCompletionWrite) (fun _ => rfl) fun s hx h => ?_
    obtain ⟨he, hf, hw, hl⟩ := h
    simp only [execCompletionWrite, hx, he, hf, writesLeft_eq_false hw, State.writeCompletion, hl, Bool.false_eq_true, if_false]
  · refine happens_of (f := execBudgetReport) (fun _ => rfl) fun s hx h => ?_
    simp only [execBudgetReport, hx, h]
    rfl
  · intro launched held
    refine ⟨?_, fun h r => ?_, fun t => ?_⟩
    · refine happens_of (f := execNodeBlockLaunch) (fun _ => rfl) fun s hx h => ?_
      obtain ⟨⟨he, hn, hf, hh⟩, hdue⟩ := h
      have hd : (decide (e.lrec.gather ≤ nd.held.length) || decide (nd.producers = 0)) = true := by rcases hdue with hd | hd <;> simp [hd]
      simp only [execNodeBlockLaunch, hx]
      exact congrArg Host.Outcome.next (nodeLaunch_eq he hn hf hh hd)
    · refine happens_of (f := execNodeTimeout) (fun _ => rfl) fun s hx h => ?_
      obtain ⟨⟨he, hn, hf, hh⟩, hhead, htime, hle⟩ := h
      simp only [execNodeTimeout, hx]
      refine congrArg Host.Outcome.next (nodeLaunch_eq he hn hf hh ?_)
      simpa [hhead, htime] using hle
    · refine happens_of (f := execNodeMarginReached) (fun _ => rfl) fun s hx h => ?_
      obtain ⟨⟨he, hn, hf, hh⟩, ht, hle⟩ := h
      simp only [execNodeMarginReached, hx]
      refine congrArg Host.Outcome.next (nodeLaunch_eq he hn hf hh ?_)
      simpa [ht] using hle
  · refine happens_of (f := execEnqrNodeAnswer) (fun _ => rfl) fun s hx h => ?_
    simp only [execEnqrNodeAnswer, hx, h.1, h.2]
  · refine happens_of (f := execEnqrAccept) (fun _ => rfl) fun s hx h => ?_
    obtain ⟨ho, hk, hb, hn, hp, hg⟩ := h
    simp only [execEnqrAccept, hx, ho, hk, hb, hn, hp, Nat.not_le.2 hg, if_false]
  · intro asked done e
    refine ⟨?_, ?_, ?_, fun i op hio => ?_⟩
    · refine happens_of (f := execFepcmdGrant) (fun _ => rfl) fun s hx h => ?_
      obtain ⟨hcmd, hadm, hcls, hheld, hgrant⟩ := h
      simp only [execFepcmdGrant, hx, die_ofNat, command_grant hq hi ha hc hr hcmd hadm, grantCmd_eq hcls hheld hgrant]
      rfl
    · refine happens_of (f := execFepcmdDemote) (fun _ => rfl) fun s hx h => ?_
      obtain ⟨hcmd, hadm, hk⟩ := h
      simp only [execFepcmdDemote, hx, die_ofNat, command_demote hq hi ha hc hr hcmd hadm (commandable_of hk)]
      rfl
    · refine happens_of (f := execFepcmdAbort) (fun _ => rfl) fun s hx h => ?_
      obtain ⟨hcmd, hadm, hk, ho⟩ := h
      simp only [execFepcmdAbort, hx, die_ofNat, command_abort hq hi ha hc hr hcmd hadm (commandable_of hk), abortCmd_eq ho]
      rfl
    · obtain ⟨hop, he⟩ : op < 4 ∧ ∀ s, s.input = .nat d.val → exec i s = .next (s.command (Fin.ofNat 2 d.val) op) := by
        simp only [List.mem_cons, Prod.mk.injEq, List.not_mem_nil, or_false] at hio
        rcases hio with ⟨rfl, rfl⟩ | ⟨rfl, rfl⟩ | ⟨rfl, rfl⟩
        · exact ⟨by decide, fun s hx => show execFepcmdGrant s = _ by simp only [execFepcmdGrant, hx]⟩
        · exact ⟨by decide, fun s hx => show execFepcmdDemote s = _ by simp only [execFepcmdDemote, hx]⟩
        · exact ⟨by decide, fun s hx => show execFepcmdAbort s = _ by simp only [execFepcmdAbort, hx]⟩
      intro s hx h
      obtain ⟨hcmd, hadm⟩ := h
      rw [he s hx, die_ofNat, command_none hq hi ha hc hr hop hcmd hadm]

end Sys2Proof.Laws
end

section
/-! SUPPORT. Reset, the turns of a step, and what an issue adds to its effect (R27, R28, R43, R60, R63, R68, R96, R103, R386, R387). -/

namespace Sys2Proof.Laws

open Sys2Proof Sys2Proof.Machine

/-! ### Reset -/

/-- A vector of two equal entries has that entry at both dies. -/
theorem getElem_replicate_die {α : Type} (a : α) (d : Die) : (Vector.replicate 2 a)[d] = a := by
  simp

/-- Settles O54: every field stands in the definition of the state after reset. -/
theorem resetLeavesAnIdleMachine : Obligations.ResetLeavesAnIdleMachine := by
  unfold Obligations.ResetLeavesAnIdleMachine
  intro s
  have hfe : ∀ d : Die, s.fe[d] = FrontEnd.reset := getElem_replicate_die FrontEnd.reset
  have hbyte : ∀ l : Loc, s.readByte l = 0 := by
    intro l
    cases l with
    | tun m o => 
      have hm : s.tun[m] = [] := getElem_replicate_die [] m
      simp only [State.readByte, hm]; rfl
    | _ => rfl
  refine ⟨rfl, rfl, rfl, rfl, rfl, fun d => ?_, fun n => ⟨rfl, rfl, rfl, rfl⟩, fun n => ⟨rfl, rfl, rfl⟩, fun n => rfl, rfl, rfl, rfl, rfl, hbyte, rfl, rfl⟩
  rw [hfe d]
  exact ⟨getElem_replicate_die 0 d, rfl, rfl, rfl, rfl, rfl, rfl⟩

/-! ### The turns of a step -/

/-- A word that begins decodes at its fetch: the attempt of its gang is what its instruction does. -/
theorem attempt_of_word {s z : State} {b g : Nat} {w : Word} {i : Instr} (hb : s.begin b g = .word w z) (hd : decode w = .ok i) :
    attempt s b g = exec i z := by
  simp only [attempt, hb, runWord, hd]

/-- A gang whose attempt makes progress is ready, with what the attempt answers. -/
theorem ready_of_progress {s t : State} {c : Cand} (h : attempt s c.b c.g = .next t) (hp : t.progress = true) :
    s.ready c = some (.next t) := by
  simp only [State.ready, h, hp, if_true]

/-- The word that begins has been fetched at the place of its fragment. -/
theorem beginWord_word {s z : State} {x : Block} {g : Nat} {y : Gang} {m : Word} {pc hpc : Va} {h w : Word} {nvl : Nat}
    (hb : beginWord s x g y m pc hpc h nvl = .word w z) :
    z = { s with focus := .gang x.id g m pc hpc h w nvl } ∧ s.fetchWord x pc = .ok w := by
  unfold beginWord at hb
  simp only at hb
  split at hb
  · simp at hb
  · split at hb
    · simp at hb
    · next w' hw =>
      simp only [Begin.word.injEq] at hb
      obtain ⟨rfl, rfl⟩ := hb
      exact ⟨rfl, hw⟩

theorem beginFirst_word {s z : State} {x : Block} {g : Nat} {y : Gang} {m : Word} {pc hpc : Va} {h w : Word} {nvl : Nat}
    (hb : beginFirst s x g y m pc hpc h nvl = .word w z) :
    z = { s with focus := .gang x.id g m pc hpc h w nvl } ∧ s.fetchWord x pc = .ok w := by
  unfold beginFirst at hb
  split at hb
  · split at hb <;> simp at hb
  · exact beginWord_word hb

/-- Where the lanes stand at a header, the word after it begins in the state in which they have passed it. -/
theorem beginHeader_word {s z : State} {x : Block} {g : Nat} {y : Gang} {m : Word} {pc : Va} {w : Word}
    (hb : beginHeader s x g y m pc = .word w z) :
    ∃ h y1, z = { s.setGang x.id g y1 with focus := .gang x.id g m (pc + 4) pc h w 0 } ∧ (s.setGang x.id g y1).fetchWord x (pc + 4) = .ok w := by
  unfold beginHeader at hb
  split at hb
  · simp at hb
  · next h hh =>
    split at hb
    · simp at hb
    · simp only at hb
      split at hb
      · simp at hb
      · exact ⟨h, _, beginFirst_word hb⟩

/-- A walk does not look at who has the focus. -/
theorem walkFrom_focus (s : State) (f : Focus) (d : Die) (key va fuel level node : Nat) :
    ({ s with focus := f } : State).walkFrom d key va fuel level node = s.walkFrom d key va fuel level node := by
  induction fuel generalizing level node with
  | zero => rfl
  | succ n ih =>
    have hfails : ∀ pa, ({ s with focus := f } : State).nodeFails d key va pa = s.nodeFails d key va pa := fun _ => rfl
    have hentry : ∀ pa, ({ s with focus := f } : State).nodeEntry d pa = s.nodeEntry d pa := fun _ => rfl
    have hbad : ∀ e, ({ s with focus := f } : State).teBad level e = s.teBad level e := fun _ => rfl
    simp only [State.walkFrom, hfails, hentry, hbad, ih]

theorem leafLoc_focus (s : State) (f : Focus) (ps : Option (BitVec 20)) (leaf : DWord) (page va : Nat) (acc : Access) :
    ({ s with focus := f } : State).leafLoc ps leaf page va acc = s.leafLoc ps leaf page va acc := by
  unfold State.leafLoc
  rfl

theorem tlbHit_focus (s : State) (f : Focus) (d : Die) (core : Option Nat) (slot va : Nat) :
    ({ s with focus := f } : State).tlbHit d core slot va = s.tlbHit d core slot va := rfl

theorem root_focus (s : State) (f : Focus) (n : Nat) : ({ s with focus := f } : State).root n = s.root n := rfl

theorem space_focus (s : State) (f : Focus) (n : Nat) : ({ s with focus := f } : State).space n = s.space n := rfl

theorem hbmEnd_focus (s : State) (f : Focus) : ({ s with focus := f } : State).hbmEnd = s.hbmEnd := rfl

theorem walk_focus (s : State) (f : Focus) (d : Die) (key slot va : Nat) : ({ s with focus := f } : State).walk d key slot va = s.walk d key slot va := by
  unfold State.walk
  simp only [root_focus, hbmEnd_focus, walkFrom_focus]

theorem translate_focus (s : State) (f : Focus) (d : Die) (core : Option Nat) (key slot va : Nat) (acc : Access) :
    ({ s with focus := f } : State).translate d core key slot va acc = s.translate d core key slot va acc := by
  unfold State.translate
  simp only [tlbHit_focus, leafLoc_focus, walk_focus, root_focus, space_focus]

theorem keyLabel_focus (s : State) (f : Focus) (slot : Nat) : ({ s with focus := f } : State).keyLabel slot = s.keyLabel slot := by
  rcases h : assocGet s.keys slot with _ | k
  · simp only [State.keyLabel, h]
  · simp only [State.keyLabel, h]

theorem badLine_focus (s : State) (f : Focus) (l : Loc) (c : BitVec 8) : ({ s with focus := f } : State).badLine l c = s.badLine l c := rfl

theorem poisoned_focus (s : State) (f : Focus) (l : Loc) : ({ s with focus := f } : State).poisoned l = s.poisoned l := rfl

theorem lease_focus (s : State) (f : Focus) (n : Nat) : ({ s with focus := f } : State).lease n = s.lease n := rfl

theorem lineCheck_focus (s : State) (f : Focus) (key : Nat) (l : Loc) (va : DWord) :
    ({ s with focus := f } : State).lineCheck key l va = s.lineCheck key l va := by
  unfold State.lineCheck
  simp only [badLine_focus, poisoned_focus, lease_focus, keyLabel_focus]

theorem readLoc_focus (s : State) (f : Focus) (l : Loc) (n : Nat) : ({ s with focus := f } : State).readLoc l n = s.readLoc l n := rfl

theorem readMain_focus (s : State) (f : Focus) (key : Nat) (l : Loc) (n : Nat) (va : DWord) :
    ({ s with focus := f } : State).readMain key l n va = s.readMain key l n va := by
  unfold State.readMain
  simp only [lineCheck_focus, readLoc_focus]

/-- A fetch does not look at who has the focus. -/
theorem fetchWord_focus (s : State) (f : Focus) (x : Block) (pc : Va) : ({ s with focus := f } : State).fetchWord x pc = s.fetchWord x pc := by
  unfold State.fetchWord State.translateFor
  simp only [translate_focus, space_focus, readMain_focus]

theorem begin_of_not_no {p : Prop} [Decidable p] {a : Begin} {s : State} {w : Word} (h : (if p then Begin.no else a) = .word w s) : a = .word w s := by
  split at h
  · exact absurd h (by simp)
  · exact h

/-- What an attempt that reaches a word has fetched: the word at the place of the fragment that has the focus then. -/
theorem begin_word {s z : State} {b g : Nat} {w : Word} (hb : s.begin b g = .word w z) :
    ∃ (x : Block) (m : Word) (pc hpc : Va) (h : Word) (nvl : Nat), s.block? b = some x ∧ z.focus = .gang b g m pc hpc h w nvl ∧ z.fetchWord x pc = .ok w := by
  unfold State.begin at hb
  rcases hg : s.gang? b g with _ | ⟨x, y0⟩
  · simp [hg] at hb
  simp only [hg] at hb
  obtain ⟨hx, hid, -⟩ := State.gang?_block hg
  have hb := begin_of_not_no hb
  split at hb
  · simp at hb
  split at hb
  · obtain ⟨h, y1, hz, hw⟩ := beginHeader_word hb
    exact ⟨x, _, _, _, h, 0, hx, by rw [hz, ← hid], by rw [hz, fetchWord_focus]; exact hw⟩
  · obtain ⟨hz, hw⟩ := beginFirst_word hb
    exact ⟨x, _, _, _, _, _, hx, by rw [hz, ← hid], by rw [hz, fetchWord_focus]; exact hw⟩

theorem step_cons {s : State} {t : Turn} {r : List Turn} (h : s.agenda = t :: r) : step s = ({ s with agenda := r } : State).take t := by
  simp only [step, h]

/-- A partition that has not issued in this cycle answers what the attempt of the chosen gang leaves, with its cycle taken. -/
theorem issueTurn_of_ready {s t : State} {d : Die} {core part : Nat} {c : Cand} (hpart : s.partDone d core part = false)
    (hpick : pickGang ((s.candidates d core part).filter fun k => (s.ready k).isSome) = some c) (hready : s.ready c = some (.next t)) :
    s.issueTurn d core part = .next (s.noteIssue t d core part) := by
  simp only [State.issueTurn, hpart, Bool.false_eq_true, if_false, hpick, hready]

/-- A device that has booted takes a device step of an instruction that has no encoding. -/
theorem eventTurn_of_next {s t : State} {i : Instr} {x : Input} (hi : encodeWord i = none) (hboot : s.mbox.bootfail = false) (hbooted : s.booted = true)
    (he : exec i { s with input := x } = .next t) : s.eventTurn i x = .next { t with input := .none, focus := .idle } := by
  unfold State.eventTurn
  rw [if_neg (by simp [hi, hboot, hbooted]), he]

/-- Settles O58: a turn of an issue is the attempt of the gang that is chosen, and an attempt that reaches a word is the word's instruction. -/
theorem stepRunsTheDecodedInstruction : Obligations.StepRunsTheDecodedInstruction := by
  unfold Obligations.StepRunsTheDecodedInstruction
  refine ⟨fun s t z d core part r c w i ha hpart => ?_, fun s z b g w => begin_word, fun s t i x r ha hi hboot hbooted he => ?_, fun s ha => ?_⟩
  · intro s0 hpick hbegin hdecode hexec hprogress
    have hready : s0.ready c = some (.next t) := ready_of_progress ((attempt_of_word hbegin hdecode).trans hexec) hprogress
    exact (step_cons ha).trans (issueTurn_of_ready (s := s0) hpart hpick hready)
  · exact (step_cons ha).trans (eventTurn_of_next (s := { s with agenda := r }) hi hboot hbooted he)
  · simp only [step, ha]

/-! ### What an issue adds to its effect (R7, R43, R63, R103) -/

/-- A charge leaves the records of the other entries. -/
theorem entry?_charge_of_ne (s : State) {n k : Nat} (cls amount : Nat) (h : k ≠ n) : (s.charge n cls amount).entry? k = s.entry? k := by
  unfold State.charge
  rcases he : s.entry? n with _ | e
  · rfl
  have hid := entry?_id he
  simp only [State.entry?, State.setEntry]
  generalize s.entries = l
  induction l with
  | nil => rfl
  | cons u r ih =>
    by_cases hu : u.id = n
    · have hk : u.id ≠ k := fun h' => h (h'.symm.trans hu)
      have hek : ¬(n = k) := fun h' => h h'.symm
      simpa [Entry.charge, hid, hu, hek] using ih
    · simp only [List.map_cons, Entry.charge, hid, hu, if_false, List.find?_cons]
      split
      · rfl
      · simpa [Entry.charge, hid] using ih

theorem issued_entry?_of_ne (s : State) (i : Info) (c : Ctx) (s2 : State) (next : Bool) {n : Nat} (hg : (s.gang? c.b c.g).map Prod.fst = some c.x)
    (h : n ≠ c.x.entry) : (s.issued i c s2 next).entry? n = s2.entry? n := by
  rcases hy : s.gang? c.b c.g with _ | ⟨x, y⟩
  · simp [hy] at hg
  simp only [hy, Option.map_some, Option.some.injEq] at hg
  subst hg
  simp only [State.issued, hy]
  rw [← entry?_charge_of_ne s2 0 1 h]
  simp [State.entry?]

/-- The device's own fields are no part of an issue's costs. -/
theorem issued_deviceKept (s : State) (i : Info) (c : Ctx) (s2 : State) (next : Bool) : DeviceKept s2 (s.issued i c s2 next) := by
  constructor <;> simp

theorem issued_focus {s : State} {i : Info} {c : Ctx} {z : State} (h : s.clears i = some (c, z)) (s2 : State) (next : Bool) :
    (s.issued i c s2 next).focus = .idle := by
  obtain ⟨_, y, _, hg, _⟩ := State.clears_ctx h
  simp only [State.issued, hg]

/-- Settles O53: the costs of an issue fall on its entry's budget and on the place, the clocks and the counts of its gang. -/
theorem anIssueAddsOnlyItsCosts : Obligations.AnIssueAddsOnlyItsCosts := by
  unfold Obligations.AnIssueAddsOnlyItsCosts
  intro s z s2 i c next y2 h h2 t
  obtain ⟨w, y, _, hg, _⟩ := State.clears_ctx h
  obtain ⟨y3, hy3, hsame⟩ := State.issued_gangAt next h h2
  refine ⟨⟨y3, hy3, ?_⟩, State.issued_readByte s i c s2 next, ⟨fun b' g' hne => State.issued_gang_ne s i c s2 next hne, State.issued_block s i c s2 next⟩,
    issued_deviceKept s i c s2 next, issued_focus h s2 next, fun e he => issued_entry? next h he,
    fun n hn => issued_entry?_of_ne s i c s2 next (by rw [hg]; rfl) hn⟩
  have hkept : GangKept y2 y3 [] [] [] := { hsame.kept with }
  have hlive : y3.live = y2.live := hkept.k 0 (List.not_mem_nil)
  obtain ⟨-, ⟨-, -, hcounters⟩, ⟨-, hflags, -, -, hx, -⟩, -, -, -, hpends⟩ := hsame
  exact ⟨hkept, hflags, hx, hcounters, by simp [hpends], hlive⟩

end Sys2Proof.Laws
end

section
/-! SUPPORT. What a word that does not get to its effect does, and the traps of a fragment (R110, R111, R336 to R339, R352). -/

namespace Sys2Proof.Laws

open Sys2Proof Sys2Proof.Machine

/-! ### Privilege (R111 row 6) -/

/-- A word that user mode may not run: a system word, or a CSR word that names a CSR from 0x200 to 0x3FF. -/
def Privileged (i : Info) : Prop := i.sysWord = true ∨ ∃ n wr, i.csr = some (n, wr) ∧ 0x200 ≤ n ∧ n ≤ 0x3FF

/-- R111 row 6: in a block of user mode the fate of a privileged word of class 6 is PRIV at the word. -/
theorem fate_of_privileged {i : Info} {x : Block} {hdr : Word} (hp : Privileged i) (hcls : i.cls = 6) (htransfer : i.transfer = false)
    (hap : i.apOnly = false) (hx : x.sys = false) (hc : hdrClass hdr = 6 ∨ hdrClass hdr = 7) (s : State) (pc hpc : Va) (w : Word) (nvl : Nat) :
    fate s i x pc hpc hdr w nvl = some ({ cause := 0x02, tval := w.setWidth 64 }, pc) := by
  have hrow3 : (decide (hdrClass hdr = 7) || decide (i.cls = hdrClass hdr) || i.nop || decide (i.cls = 4) && isLast pc hpc hdr) = true := by
    rcases hc with h | h <;> simp [h, hcls]
  rcases hp with hsys | ⟨n, wr, hcsr, h1, h2⟩
  · simp only [fate, hrow3, htransfer, hap, hx, hsys, Bool.not_true, Bool.not_false, Bool.true_and, Bool.false_and, Bool.true_or, Bool.false_eq_true,
      if_true, if_false]
    rfl
  · simp only [fate, hrow3, htransfer, hap, hx, hcsr, h1, h2, decide_true, Bool.not_true, Bool.not_false, Bool.true_and, Bool.false_and, Bool.or_true,
      Bool.false_eq_true, if_true, if_false]
    rfl

/-- A word with a fate takes its trap before it issues. -/
theorem issueWord_of_fate {s : State} {i : Info} {b g : Nat} {m : Word} {pc hpc : Va} {hdr w : Word} {nvl : Nat} {x : Block} {y : Gang} {t : Trap}
    {at_ : Va} (hf : s.focus = .gang b g m pc hpc hdr w nvl) (hg : s.gang? b g = some (x, y)) (h : fate s i x pc hpc hdr w nvl = some (t, at_))
    (eff : Ctx → State → Eff) :
    issueWord i eff s = .next { trapWord (s.setGang b g (y.takeUp m pc hpc hdr)) i b g m at_ t with focus := .idle, progress := true } := by
  simp only [issueWord, hf, hg, h, progressed]

/-- Settles O51: each of the words is issued with the attributes that make it privileged. -/
theorem privilegedWordsTrapInUserMode : Obligations.PrivilegedWordsTrapInUserMode := by
  unfold Obligations.PrivilegedWordsTrapInUserMode
  intro i info hi s b g m pc hpc hdr w nvl x y hf hg hx hc
  suffices h : Privileged info ∧ info.cls = 6 ∧ info.transfer = false ∧ info.apOnly = false ∧ ∃ eff, exec i s = issueWord info eff s by
    obtain ⟨hp, hcls, htransfer, hap, eff, he⟩ := h
    exact he.trans (issueWord_of_fate hf hg (fate_of_privileged hp hcls htransfer hap hx hc s pc hpc w nvl) eff)
  rcases hi with ⟨o, hi⟩ | ⟨o, hi⟩ | ⟨o, rfl, rfl⟩ | ⟨o, hn, hi⟩
  · simp only [List.mem_cons, List.not_mem_nil, or_false, Prod.mk.injEq] at hi
    rcases hi with ⟨rfl, rfl⟩ | ⟨rfl, rfl⟩ | ⟨rfl, rfl⟩
    · exact ⟨.inl rfl, rfl, rfl, rfl, _, (by unfold execRcas; rfl : execRcas o s = _)⟩
    · exact ⟨.inl rfl, rfl, rfl, rfl, _, (by unfold execRsnap; rfl : execRsnap o s = _)⟩
    · exact ⟨.inl rfl, rfl, rfl, rfl, _, (by unfold execSmove; rfl : execSmove o s = _)⟩
  · simp only [List.mem_cons, List.not_mem_nil, or_false, Prod.mk.injEq] at hi
    rcases hi with ⟨rfl, rfl⟩ | ⟨rfl, rfl⟩
    · exact ⟨.inl rfl, rfl, rfl, rfl, _, (by unfold execRfree; rfl : execRfree o s = _)⟩
    · exact ⟨.inl rfl, rfl, rfl, rfl, _, (by unfold execRpinq; rfl : execRpinq o s = _)⟩
  · exact ⟨.inl rfl, rfl, rfl, rfl, _, (by unfold execNdrop; rfl : execNdrop o s = _)⟩
  · have hlast : o.b.toNat * 32 + o.c.toNat ≤ 0x3FF := by have := o.b.isLt; have := o.c.isLt; omega
    simp only [List.mem_cons, List.not_mem_nil, or_false, Prod.mk.injEq] at hi
    rcases hi with ⟨rfl, rfl⟩ | ⟨rfl, rfl⟩ | ⟨rfl, rfl⟩ | ⟨rfl, rfl⟩
    · exact ⟨.inr ⟨_, _, rfl, hn, hlast⟩, rfl, rfl, rfl, _, (by unfold execCsrr aluWord; rfl : execCsrr o s = _)⟩
    · exact ⟨.inr ⟨_, _, rfl, hn, hlast⟩, rfl, rfl, rfl, _, (by unfold execCsrw csrChange; rfl : execCsrw o s = _)⟩
    · exact ⟨.inr ⟨_, _, rfl, hn, hlast⟩, rfl, rfl, rfl, _, (by unfold execCsrs csrChange; rfl : execCsrs o s = _)⟩
    · exact ⟨.inr ⟨_, _, rfl, hn, hlast⟩, rfl, rfl, rfl, _, (by unfold execCsrc csrChange; rfl : execCsrc o s = _)⟩

/-! ### Traps (R336 to R339) -/

/-- The memories and the blocks are those of `s` but for one gang, which is `z`. -/
structure GangSet (s u : State) (b g : Nat) (z : Gang) : Prop where
  blocks : u.blocks = (s.setGang b g z).blocks
  mem : u.hbm = s.hbm ∧ u.tun = s.tun ∧ u.lender = s.lender ∧ u.host = s.host

theorem gangSet_setGang (s : State) (b g : Nat) (z : Gang) : GangSet s (s.setGang b g z) b g z := ⟨rfl, by simp⟩

/-- A logged error leaves the memories and the blocks. -/
theorem GangSet.noteError {s u : State} {b g : Nat} {z : Gang} (h : GangSet s u b g z) (d : Die) (t : Trap) : GangSet s (u.noteError d t) b g z := by
  have hl := State.noteError_only u d t
  rw [OnlyLogged] at hl
  rw [hl]
  exact ⟨h.blocks, h.mem⟩

theorem GangSet.withNextId {s u : State} {b g : Nat} {z : Gang} (h : GangSet s u b g z) (n : Nat) : GangSet s { u with nextId := n } b g z := ⟨h.blocks, h.mem⟩

theorem GangSet.withDiscards {s u : State} {b g : Nat} {z : Gang} (h : GangSet s u b g z) (l : List (Nat × BitVec 8 × DWord)) :
    GangSet s { u with discards := l } b g z := ⟨h.blocks, h.mem⟩

theorem GangSet.gang {s u : State} {b g : Nat} {z y : Gang} {x : Block} (h : GangSet s u b g z) (hg : s.gang? b g = some (x, y)) :
    (u.gang? b g).map Prod.snd = some z := by
  rw [State.gang?_of_fields h.blocks, State.gang?_setGang_self z hg]; rfl

theorem GangSet.memKept {s u : State} {b g : Nat} {z : Gang} (h : GangSet s u b g z) : MemKept s u := by
  intro l
  obtain ⟨hbm, htun, hlender, hhost⟩ := h.mem
  rw [← State.readByte_setGang s b g z l]
  exact State.readByte_of_fields h.blocks (by simp [hbm]) (by simp [htun]) (by simp [hlender]) (by simp [hhost]) l

theorem GangSet.blocksKept {s u : State} {b g : Nat} {z : Gang} (h : GangSet s u b g z) : BlocksKept s u b g := by
  constructor
  · intro b' g' hne
    rw [State.gang?_of_fields h.blocks, State.gang?_setGang_ne hne]
  · intro b'
    rw [State.block?_of_fields h.blocks, State.block?_setGang_rest]

/-- Every register and call stack of a gang is as before. -/
def RegsKept (y z : Gang) : Prop :=
  z.calls = y.calls ∧ ∀ n, z.getV n = y.getV n ∧ z.getT n = y.getT n ∧ z.getS n = y.getS n ∧ z.getK n = y.getK n

theorem regsKept_of_fields {y z : Gang} (hcalls : z.calls = y.calls) (hv : z.v = y.v) (hvt : z.vt = y.vt) (hs : z.s = y.s) (hk : z.k = y.k) : RegsKept y z :=
  ⟨hcalls, fun n => by simp only [Gang.getV, Gang.getT, Gang.getS, Gang.getK, hv, hvt, hs, hk, and_self]⟩

theorem calls_of_lanes {y z : Gang} (h : z.lanes = y.lanes) : z.calls = y.calls := by simp only [Gang.calls, h]

theorem regsKept_suspendSys (y : Gang) (m : Word) (n kind : Nat) (tr : TrapRec) (halts : Bool) : RegsKept y (y.suspendSys m n kind tr halts) := by
  refine regsKept_of_fields ((calls_of_lanes ?_).trans (Gang.calls_mapLanes y m (fun _ l => { l with wait := .sysTrap n, hint := none }) fun _ _ => ⟨rfl, rfl⟩)) ?_ ?_ ?_ ?_ <;>
    simp only [Gang.suspendSys, Gang.mapLanes]

/-- A lane that enters the handler at `pc` (R338). -/
def intoHandler (y : Gang) (pc : Va) (l : Lane) : Lane :=
  { ({ l with pc := pc, pos := .header .transferred, wait := .none, hint := none, bpPass := false } : Lane).enter pc y.recN y.x with entered := false }

theorem regsKept_enterHandler (y : Gang) (m : Word) (tr : TrapRec) (handler : Va) : RegsKept y (y.enterHandler m tr handler) := by
  refine regsKept_of_fields ((calls_of_lanes ?_).trans (Gang.calls_mapLanes y m (fun _ l => intoHandler y handler l) fun _ _ => ⟨rfl, rfl⟩)) ?_ ?_ ?_ ?_ <;>
    simp only [Gang.enterHandler, Gang.mapLanes, intoHandler]

/-- The state after a fragment is suspended with a record of a kind in its context's ring (R339). -/
def suspended (s : State) (x : Block) (y : Gang) (b g : Nat) (m : Word) (kind : Nat) (tr : TrapRec) : State :=
  { s.setGang b g (y.suspendSys m s.nextId kind tr y.ghalt) with
    nextId := s.nextId + 1
    trapQ := s.trapQ ++ [{ die := x.die, ctx := x.ctx, kind := kind, block := b, gang := g, n := s.nextId, tr := tr, compl := 0 }] }

/-- The gang of a fragment whose record stays pending while siblings are in the handler (R338). -/
def waitsForHandler (y : Gang) (m : Word) (n : Nat) (tr : TrapRec) : Gang :=
  { y.mapLanes m (fun _ l => { l with wait := .userTrap n, hint := none }) with pendingUser := y.pendingUser ++ [(n, tr)] }

theorem regsKept_waitsForHandler (y : Gang) (m : Word) (n : Nat) (tr : TrapRec) : RegsKept y (waitsForHandler y m n tr) := by
  refine regsKept_of_fields ((calls_of_lanes ?_).trans (Gang.calls_mapLanes y m (fun _ l => { l with wait := .userTrap n, hint := none }) fun _ _ => ⟨rfl, rfl⟩)) ?_ ?_ ?_ ?_ <;>
    simp only [waitsForHandler, Gang.mapLanes]

/-- The record of a trap, with TCAUSE of its parts (R336). -/
def recordOf (y : Gang) (m : Word) (pc : Va) (t : Trap) (hwbp nested : Bool) (route : Route) : TrapRec :=
  y.trapRec m pc (tcauseOf nested route.code t.defer hwbp t.cause) t.tval

/-- A trap outside the handler, by its route (R337, R338). -/
def routed (s : State) (x : Block) (y : Gang) (b g : Nat) (m : Word) (pc : Va) (t : Trap) (hwbp : Bool) (r : Route) : State :=
  match r with
  | .system | .unrecoverable => suspended s x y b g m 1 (recordOf y m pc t hwbp false .system)
  | .debugger => suspended s x y b g m 3 (recordOf y m pc t hwbp false .debugger)
  | .user =>
    let tr := recordOf y m pc t hwbp false .user
    if x.lrec.handler = 0 then suspended s x y b g m 1 tr
    else if y.handler.isNone then s.setGang b g (y.enterHandler m tr (x.lrec.handler.setWidth 48))
    else { s.setGang b g (waitsForHandler y m s.nextId tr) with nextId := s.nextId + 1 }

section

variable {s : State} {b g : Nat} {m : Word} {pc : Va} {t : Trap} {hwbp : Bool} {x : Block} {y : Gang}

theorem takeTrap_of_outside (hg : s.gang? b g = some (x, y)) (hout : ∀ h, y.handler = some h → h.lanes &&& m = 0)
    (hr : causeRoute t.cause y.attached ≠ .unrecoverable) :
    s.takeTrap b g m pc t hwbp = routed s x y b g m pc t hwbp (causeRoute t.cause y.attached) := by
  rcases hh : y.handler with _ | h
  · simp only [State.takeTrap, hg, hr, hh, if_false, Bool.false_eq_true]
    rcases hc : causeRoute t.cause y.attached <;> simp only [routed, hh] <;> rfl
  · have hm := hout h hh
    simp only [State.takeTrap, hg, hr, hh, hm, ne_eq, not_true_eq_false, decide_false, if_false, Bool.false_eq_true]
    rcases hc : causeRoute t.cause y.attached <;> simp only [routed, hh] <;> rfl

/-- A trap of lanes in the handler takes the system route, NESTED (R338). -/
theorem takeTrap_of_nested (hg : s.gang? b g = some (x, y)) (hin : ¬∀ h, y.handler = some h → h.lanes &&& m = 0)
    (hr : causeRoute t.cause y.attached ≠ .unrecoverable) :
    s.takeTrap b g m pc t hwbp = suspended s x y b g m 1 (recordOf y m pc t hwbp true .system) := by
  simp only [not_forall] at hin
  obtain ⟨h, hh, hm⟩ := hin
  simp only [State.takeTrap, hg, hh, hr, hm, if_false, ne_eq, not_false_eq_true, decide_true, if_true]
  rfl

end

section

variable {s : State} {b g : Nat} {m : Word} {pc : Va} {t : Trap} {hwbp : Bool} {x : Block} {y : Gang}

theorem gangSet_suspended (kind : Nat) (tr : TrapRec) : GangSet s (suspended s x y b g m kind tr) b g (y.suspendSys m s.nextId kind tr y.ghalt) :=
  ⟨rfl, by simp [suspended]⟩

/-- R345: an unrecoverable cause suspends the fragment, and its context is to be discarded. -/
theorem takeTrap_of_unrecoverable (hg : s.gang? b g = some (x, y)) (hr : causeRoute t.cause y.attached = .unrecoverable) :
    ∃ z, GangSet s (s.takeTrap b g m pc t hwbp) b g z ∧ RegsKept y z := by
  simp only [State.takeTrap, hg, hr, if_true]
  split
  · exact ⟨_, ((gangSet_setGang s b g _).withNextId _).noteError _ _, regsKept_suspendSys _ _ _ _ _ _⟩
  · exact ⟨_, ((gangSet_suspended 1 _).noteError x.die t).withDiscards _, regsKept_suspendSys _ _ _ _ _ _⟩

/-- A trap changes one gang, whose registers and call stacks it keeps (R336). -/
theorem takeTrap_gangSet (hg : s.gang? b g = some (x, y)) : ∃ z, GangSet s (s.takeTrap b g m pc t hwbp) b g z ∧ RegsKept y z := by
  by_cases hr : causeRoute t.cause y.attached = .unrecoverable
  · exact takeTrap_of_unrecoverable hg hr
  by_cases hout : ∀ h, y.handler = some h → h.lanes &&& m = 0
  · rw [takeTrap_of_outside hg hout hr]
    unfold routed
    split
    · exact ⟨_, gangSet_suspended _ _, regsKept_suspendSys _ _ _ _ _ _⟩
    · exact ⟨_, gangSet_suspended _ _, regsKept_suspendSys _ _ _ _ _ _⟩
    · exact ⟨_, gangSet_suspended _ _, regsKept_suspendSys _ _ _ _ _ _⟩
    · simp only
      split
      · exact ⟨_, gangSet_suspended _ _, regsKept_suspendSys _ _ _ _ _ _⟩
      split
      · exact ⟨_, gangSet_setGang _ _ _ _, regsKept_enterHandler _ _ _ _⟩
      · exact ⟨_, ⟨rfl, by simp⟩, regsKept_waitsForHandler _ _ _ _⟩
  · rw [takeTrap_of_nested hg hout hr]
    exact ⟨_, gangSet_suspended _ _, regsKept_suspendSys _ _ _ _ _ _⟩

end

theorem lane_suspendSys (y : Gang) (m : Word) (n kind : Nat) (tr : TrapRec) (halts : Bool) {l : Nat} (hl : l < 32) :
    (y.suspendSys m n kind tr halts).lane l = if m.getLsbD l then { y.lane l with wait := .sysTrap n, hint := none } else y.lane l := by
  rw [← lane_mapLanes y m (fun _ l => { l with wait := .sysTrap n, hint := none }) hl]
  exact lane_of_lanes (by simp only [Gang.suspendSys, Gang.mapLanes]) l

theorem lane_waitsForHandler (y : Gang) (m : Word) (n : Nat) (tr : TrapRec) {l : Nat} (hl : l < 32) :
    (waitsForHandler y m n tr).lane l = if m.getLsbD l then { y.lane l with wait := .userTrap n, hint := none } else y.lane l := by
  rw [← lane_mapLanes y m (fun _ l => { l with wait := .userTrap n, hint := none }) hl]
  exact lane_of_lanes (by simp only [waitsForHandler, Gang.mapLanes]) l

theorem lane_enterHandler (y : Gang) (m : Word) (tr : TrapRec) (pc : Va) {l : Nat} (hl : l < 32) :
    (y.enterHandler m tr pc).lane l = if m.getLsbD l then intoHandler y pc (y.lane l) else y.lane l := by
  rw [← lane_mapLanes y m (fun _ l => intoHandler y pc l) hl]
  exact lane_of_lanes (by simp only [Gang.enterHandler, Gang.mapLanes, intoHandler]) l

/-- The records of R336, with the flags of TCAUSE beside its cause. -/
theorem recordOf_eq (y : Gang) (m : Word) (pc : Va) (t : Trap) (hwbp nested : Bool) (r : Route) {high : Nat}
    (h : high = (if nested then 2 ^ 15 else 0) + r.code * 2 ^ 10) : recordOf y m pc t hwbp nested r =
      { tcause := BitVec.ofNat 32 (high + (if t.defer then 2 ^ 9 else 0) + (if hwbp then 2 ^ 8 else 0) + t.cause.toNat), tpc := pc.setWidth 64
        treg := (y.lane ((lowest m).getD 0)).region.pc.setWidth 64, trec := (y.lane ((lowest m).getD 0)).region.recN, tmask := m, tsib := y.live &&& ~~~m
        tpar := (y.lane ((lowest m).getD 0)).tpar, tval := t.tval } := by
  subst h
  rfl

/-- Settles O52: by the route of the cause and whether the lanes are in the handler. -/
theorem trapsEnterTheHandlerOrTheRing : Obligations.TrapsEnterTheHandlerOrTheRing := by
  unfold Obligations.TrapsEnterTheHandlerOrTheRing
  intro s b g m pc t hwbp x y hg l0 tr u outside posted
  obtain ⟨z0, hz0, hregs⟩ := takeTrap_gangSet (m := m) (pc := pc) (t := t) (hwbp := hwbp) hg
  have hposted : ∀ r, u = suspended s x y b g m 1 r → posted r := by
    intro r hu
    refine ⟨by rw [hu]; rfl, _, by rw [hu]; exact (gangSet_suspended 1 r).gang hg, ?_, ?_, fun l hl => lane_suspendSys _ _ _ _ _ _ hl⟩
    · simp only [Gang.suspendSys, Gang.mapLanes]
    · simp only [Gang.suspendSys, Gang.mapLanes]
  have houter : outside → ∀ r, causeRoute t.cause y.attached = r → r ≠ .unrecoverable → u = routed s x y b g m pc t hwbp r :=
    fun ho r hr hne => (takeTrap_of_outside hg ho (hr ▸ hne)).trans (by rw [hr])
  refine ⟨⟨z0, hz0.gang hg, hregs⟩, hz0.memKept, hz0.blocksKept, fun ho hr hh hn => ?_, fun ho hr hh => ?_, fun ho hr hh hn => ?_, fun ho hr => ?_, fun ho hr => ?_⟩
  · have hu : u = s.setGang b g (y.enterHandler m (recordOf y m pc t hwbp false .user) (x.lrec.handler.setWidth 48)) := by
      rw [houter ho _ hr (by decide)]
      simp only [routed, hh, hn, if_false, Option.isNone_none, if_true]
    refine ⟨by rw [hu]; simp, _, _, by rw [hu]; exact (gangSet_setGang _ _ _ _).gang hg, recordOf_eq y m pc t hwbp false .user (by rfl), rfl, rfl, fun l hl => ?_⟩
    rw [lane_enterHandler _ _ _ _ hl]
    split
    · exact ⟨rfl, rfl, rfl⟩
    · rfl
  · refine hposted _ ((houter ho _ hr (by decide)).trans ?_)
    simp only [routed, hh, if_true, recordOf_eq y m pc t hwbp false .user (high := 0) (by rfl), tr, l0]
  · have hu : u = { s.setGang b g (waitsForHandler y m s.nextId (recordOf y m pc t hwbp false .user)) with nextId := s.nextId + 1 } := by
      rw [houter ho _ hr (by decide)]
      simp only [routed, hh, Option.isNone_eq_false_iff.2 hn, if_false, Bool.false_eq_true]
    have hset : GangSet s u b g (waitsForHandler y m s.nextId (recordOf y m pc t hwbp false .user)) := by
      rw [hu]
      exact ⟨rfl, by simp⟩
    refine ⟨by rw [hu]; simp, _, hset.gang hg, ?_, fun l hl => lane_waitsForHandler _ _ _ _ hl⟩
    simp only [waitsForHandler, recordOf_eq y m pc t hwbp false .user (high := 0) (by rfl), tr, l0]
  · refine hposted _ ((houter ho _ hr (by decide)).trans ?_)
    simp only [routed, recordOf_eq y m pc t hwbp false .system (high := 2 ^ 10) (by rfl), tr, l0]
  · refine hposted _ ((takeTrap_of_nested hg ho hr).trans ?_)
    simp only [recordOf_eq y m pc t hwbp true .system (high := 2 ^ 15 + 2 ^ 10) (by rfl), tr, l0]

end Sys2Proof.Laws
end

section
/-! SUPPORT. Records, notices, pins, walks and address programs (R74, R75, R87 to R89, R91, R213, R339, R340, R345), and the statement on them. -/

namespace Sys2Proof.Laws

open Sys2Proof Sys2Proof.Machine

/-! ### Words that come to rest -/

/-- An outcome that is a next state in which nobody has the focus. -/
def Rests (o : Host.Outcome State Fault Refusal) : Prop := ∃ t, o = .next t ∧ t.focus = .idle

theorem rests_progressed (s : State) : Rests (progressed s) := ⟨_, rfl, rfl⟩

theorem rests_notReady (s : State) : Rests (notReady s) := ⟨_, rfl, rfl⟩

/-- A word of a claimed queue's program comes to rest, whatever its effect. -/
theorem apWord_rests {s : State} {d : Die} {core q : Nat} {a : ApQueue} (ha : s.apq? d core q = some a) (eff : ApQueue → State → ApEff) :
    Rests (apWord d core q eff s) := by
  simp only [apWord, ha]
  split
  · exact rests_progressed _
  · exact rests_notReady _
  · split <;> exact rests_progressed _

section

variable {s : State} {d : Die} {core q : Nat} {w : Word} {a : ApQueue} (hf : s.focus = .ap d core q w) (ha : s.apq? d core q = some a)

include hf ha

theorem uniformWord_rests_in_program (i : Info) (ok : Bool) (f : (Nat → Word) → UOut) : Rests (uniformWord i ok f s) := by
  simp only [uniformWord, hf]
  exact apWord_rests ha _

theorem salu_rests_in_program (o : S3) (op : Word → Word → Word) : Rests (salu o op s) := by
  unfold salu
  exact uniformWord_rests_in_program hf ha _ _ _

theorem scmp_rests_in_program (cc : Cond) (o : S3) : Rests (scmp cc o s) := by
  unfold scmp
  exact uniformWord_rests_in_program hf ha _ _ _

/-- R213: a word of an address program comes to rest; one that it may not hold ends it. -/
theorem apExec_rests (i : Instr) : Rests (apExec i d core q s) := by
  unfold apExec
  split
  case h_20 o => simp only [execBra, hf]; exact apWord_rests ha _
  case h_21 o => simp only [execAqe, hf]; exact apWord_rests ha _
  case h_22 o => simp only [execAqend, hf]; exact apWord_rests ha _
  case h_23 => exact rests_progressed _
  case h_17 o => unfold execSaddi; exact uniformWord_rests_in_program hf ha _ _ _
  case h_18 o => unfold execSmovi; exact uniformWord_rests_in_program hf ha _ _ _
  case h_19 o => unfold execSlui; exact uniformWord_rests_in_program hf ha _ _ _
  case' h_1 o => unfold execSadd
  case' h_2 o => unfold execSsub
  case' h_3 o => unfold execSmul
  case' h_4 o => unfold execSand
  case' h_5 o => unfold execSor
  case' h_6 o => unfold execSxor
  case' h_7 o => unfold execSshl
  case' h_8 o => unfold execSshr
  case' h_9 o => unfold execScmpEq
  case' h_10 o => unfold execScmpNe
  case' h_11 o => unfold execScmpLt
  case' h_12 o => unfold execScmpLe
  case' h_13 o => unfold execScmpUlt
  case' h_14 o => unfold execScmpUle
  case' h_15 o => unfold execScmpTst
  case' h_16 o => unfold execScmpNtst
  all_goals first
    | exact salu_rests_in_program hf ha _ _
    | exact scmp_rests_in_program hf ha _ _

end

theorem apq?_setApq {s : State} {d : Die} {core q : Nat} {a : ApQueue} (h : s.apq? d core q = some a) (a' : ApQueue) :
    (s.setApq d core q a').apq? d core q = some a' := by
  simp only [State.apq?, State.setApq] at h ⊢
  generalize s.apq = l at h ⊢
  induction l with
  | nil => simp at h
  | cons p r ih =>
    by_cases hp : p.1 = (d.val * 96 + core, q)
    · simp [hp]
    · simp only [List.find?_cons, hp, decide_false] at h
      simp only [List.map_cons, hp, if_false, List.find?_cons, decide_false]
      exact ih h

/-- The word of a program's step, its clause known: the word runs, and a program that has ended completes. -/
theorem apStep_of_clause {s : State} {d : Die} {core q : Nat} {x : Block} {a : ApQueue} {c : Va × Word} {w : Word} {i : Instr} {t : State} (hc : a.clause = some c)
    (hw : s.apWordAt x (((s.op? a.op).bind (·.slot)).getD 0) a.pc = .word w) (hd : decodeLow w = .ok i) (hwf : i.wellFormed = true)
    (ht : apExec i d core q { s with focus := .ap d core q w } = .next t) : s.apStep d core q x a = .next (t.endProgram x q) := by
  simp only [State.apStep, hc, hw, hd, hwf, if_true]
  rw [ht]

/-- The word of a program's step that begins at a header. -/
theorem apStep_of_header {s : State} {d : Die} {core q : Nat} {x : Block} {a : ApQueue} {h w : Word} {i : Instr} {t : State} (hc : a.clause = none)
    (hh : s.apWordAt x (((s.op? a.op).bind (·.slot)).getD 0) a.pc = .word h) (hbad : hdrBad h = false)
    (hw : (s.setApq d core q { a with clause := some (a.pc, h), pc := a.pc + 4 }).apWordAt x (((s.op? a.op).bind (·.slot)).getD 0) (a.pc + 4) = .word w)
    (hd : decodeLow w = .ok i) (hwf : i.wellFormed = true)
    (ht : apExec i d core q { s.setApq d core q { a with clause := some (a.pc, h), pc := a.pc + 4 } with focus := .ap d core q w } = .next t) :
    s.apStep d core q x a = .next (t.endProgram x q) := by
  simp only [State.apStep, hc, hh, hbad, Bool.false_eq_true, if_false, hw, hd, hwf, if_true]
  rw [ht]

/-- A program that has neither ended nor faulted steps, its block being resident. -/
theorem addressProgramStep_of_ready {s : State} {d : Die} {core q : Nat} {x : Block} {a : ApQueue} (hx : s.input = .nat3 d.val core q)
    (ha : s.apq? d core q = some a) (hb : s.block? a.b = some x) (hres : x.residence = .resident) (hend : a.ended = none) (hfault : a.fault = false) :
    execAddressProgramStep s = s.apStep d core q x { a with held := false } := by
  simp only [execAddressProgramStep, hx, die_ofNat, ha, hb]
  exact if_neg (by simp [hres, hend, hfault])

/-- R87: a walk that succeeds at the second level, with room there, adds its entry. -/
theorem translationWalk_fills {s : State} {die : Die} {core slot key va level : Nat} {leaf : DWord} {s1 : State} {ent : TlbEnt}
    (hx : s.input = .nat5 die.val core slot key va) (hroot : (s.root slot).root < s.hbmEnd) (hva : va < 2 ^ 48) (husable : (s.root slot).usable = true)
    (hwalk : s.walk die key slot va = .ok (leaf, level)) (htier : teTier leaf ≠ 2) (hcore : 192 ≤ core)
    (hs1 : s1 = s.fillNodes die (s.walkPath die key va 4 0 (s.root slot).root))
    (hent : ent = { slot := slot, gen := (s.root slot).gen, page := va / 2 ^ pageBits level * 2 ^ pageBits level, size := 2 ^ pageBits level, leaf := leaf })
    (hcap : (s1.tlb.filter fun p => p.1 = die && p.2.1 = none).length < 131072) (hnew : ∀ p ∈ s1.tlb, p.1 = die → p.2.1 = none → p.2.2 ≠ ent) :
    execTranslationWalk s = .next { s1 with tlb := s1.tlb ++ [(die, none, ent)] } := by
  have hany : ((s1.tlb.filter fun p => decide (p.1 = die) && decide (p.2.1 = none)).any fun p => decide (p.2.2 = ent)) = false := by
    simp only [List.any_eq_false, List.mem_filter, Bool.and_eq_true, decide_eq_true_eq]
    exact fun p hp => hnew p hp.1 hp.2.1 hp.2.2
  simp only [execTranslationWalk, hx, die_ofNat, Nat.not_le.2 hroot, Nat.not_le.2 hva, husable, hwalk, Nat.not_lt.2 hcore, htier, ← hs1, ← hent, hany, hcap,
    decide_false, Bool.not_true, Bool.or_self, Bool.false_eq_true, if_false, if_true]

/-- Settles O47: by the effect of each step. -/
theorem recordsPinsWalksAndProgramsStep : Obligations.RecordsPinsWalksAndProgramsStep := by
  unfold Obligations.RecordsPinsWalksAndProgramsStep
  refine ⟨fun i p => ?_, fun id ctx d u p r => ?_, fun ctx cause tval rest => ?_, fun pa => ?_, fun d p rest => ?_, fun sp => ?_, fun slot => ⟨?_, ?_⟩,
    fun die core slot key va level leaf => ?_, fun id pa o => ?_, fun d core q a x hpc h t => ?_⟩
  · refine happens_of (f := execSystemTrapRecord) (fun _ => rfl) fun s hx h => ?_
    obtain ⟨hp, hfirst, hkind, hroom⟩ := h
    have hany : ((s.trapQ.take i).any fun q => decide (q.die = p.die) && decide (q.ctx = p.ctx)) = false := by
      simp only [List.any_eq_false, Bool.and_eq_true, decide_eq_true_eq, not_and]
      intro q hq hdie hctx
      rcases hfirst q hq with h | h
      · exact h hdie
      · exact h hctx
    simp only [execSystemTrapRecord, hx, hp, hany, hkind, Nat.not_le.2 hroom, decide_false, Bool.or_self, Bool.false_eq_true, if_false, if_true]
  · refine happens_of (f := execTrapResolution) (fun _ => rfl) fun s hx h => ?_
    obtain ⟨hu, hwho, hpend, hclosed⟩ := h
    simp only [execTrapResolution, hx, hu, hwho, hpend, hclosed, Bool.false_eq_true, if_false, State.takePush, List.tail_cons]
  · refine happens_of (f := execContextDiscard) (fun _ => rfl) fun s hx h => ?_
    obtain ⟨hd, hask⟩ := h
    simp only [execContextDiscard, hd]
    refine (if_neg ?_).trans rfl
    simp only [List.any_eq_true, Bool.and_eq_true, decide_eq_true_eq, not_exists, not_and]
    intro e he hctx hhalf
    have := hask e he hctx
    rcases hh : e.half <;> simp_all
  · exact happens_of (f := execDeviceFatal) (fun _ => rfl) fun s hx _ => by simp only [execDeviceFatal, hx]
  · refine happens_of (f := execNoticeRingPost) (fun _ => rfl) fun s hx h => ?_
    obtain ⟨htake, hroom⟩ := h
    have hr : s.fe[d].notices.room = true := decide_eq_true hroom
    simp only [execNoticeRingPost, hx, die_ofNat, htake, hr, Bool.not_true, Bool.false_eq_true, if_false, Ring.nextAt]
  · refine happens_of (f := execPinCurrent) (fun _ => rfl) fun s hx h => ?_
    obtain ⟨hn, hp⟩ := h
    simp only [execPinCurrent, hx, State.pinCurrent, hn, State.pin, maxPins, hp, Bool.false_eq_true, if_false, if_true]
  · refine happens_of (f := execPin) (fun _ => rfl) fun s hx h => ?_
    obtain ⟨hp, hlt⟩ := h
    simp only [execPin, hx, Nat.ne_of_gt hp, if_false, State.pin, maxPins, hlt, if_true, Option.getD_some]
  · refine happens_of (f := execUnpin) (fun _ => rfl) fun s hx h => ?_
    simp only [execUnpin, hx, Nat.not_le.2 h, if_false, State.unpin, Nat.ne_of_gt (Nat.lt_of_le_of_lt (Nat.zero_le _) h)]
  · refine happens_of (f := execTranslationWalk) (fun _ => rfl) fun s hx h => ?_
    obtain ⟨hroot, hva, husable, hwalk, htier, hcore, hcap, hnew⟩ := h
    exact translationWalk_fills hx hroot hva husable hwalk htier hcore rfl rfl hcap hnew
  · refine happens_of (f := execNdropComplete) (fun _ => rfl) fun s hx h => ?_
    obtain ⟨ho, hk⟩ := h
    simp only [execNdropComplete, hx, ho, hk]
  · intro ok
    refine ⟨?_, fun s w i hx ha hb hres hend hfault hdec hwf => ?_⟩
    · refine happens_of (f := execAddressProgramStep) (fun _ => rfl) fun s hx hh => ?_
      obtain ⟨⟨ha, hb, hres, hend, hfault, hc⟩, hw⟩ := hh
      rw [addressProgramStep_of_ready hx ha hb hres hend hfault]
      simp only [State.apStep, hc, hw]
    · have hstep : exec .addressProgramStep s = s.apStep d core q x { a with held := false } := addressProgramStep_of_ready hx ha hb hres hend hfault
      refine ⟨fun hc hw => ?_, fun hc hh hbad => ?_⟩
      · obtain ⟨t, ht, -⟩ := apExec_rests (s := { s with focus := .ap d core q w }) rfl ha i
        exact ⟨t, ht, hstep.trans (apStep_of_clause (a := { a with held := false }) hc hw hdec hwf ht)⟩
      · intro s1 hw
        obtain ⟨t, ht, -⟩ := apExec_rests (s := { s1 with focus := .ap d core q w }) rfl (apq?_setApq ha _) i
        exact ⟨t, ht, hstep.trans (apStep_of_header (a := { a with held := false }) hc hh hbad hw hdec hwf ht)⟩

end Sys2Proof.Laws
end

section
/-! SUPPORT. What the host, the peers, the lenders and the links do (R46, R72, R73, R95, R248, R371 to R382, R389), and the statement on it. -/

namespace Sys2Proof.Laws

open Sys2Proof Sys2Proof.Machine

/-! ### The configuration window -/

theorem registerWrite_of_window {s : State} {reg i : Nat} {data : List Byte} (hx : s.input = .bytes reg i data) (h : reg / 64 ≤ 1) :
    execRegisterWrite s = .next (s.writeWindow (reg % 64) i data) := by
  simp only [execRegisterWrite, hx, h, if_true]

/-- The fields of a value that is written to FEPCMD (R46). -/
theorem fepcmd_idle_fields {q idx amount cls op : Nat} (hq : q < 512) (hi : idx < 2 ^ 32) (ha : amount < 2 ^ 32) (hc : cls < 4) (ho : op < 4) :
    let v := (fepcmd amount idx q 0 cls op false).toNat
    nbits v 1 0 = op ∧ nbits v 5 4 = cls ∧ nbits v 127 96 = amount ∧ nbits v 56 48 = q ∧ nbits v 95 64 = idx := by
  have hv : (fepcmd amount idx q 0 cls op false).toNat = amount * 2 ^ 96 + idx * 2 ^ 64 + q * 2 ^ 48 + cls * 16 + op := by
    simp only [fepcmd, Bool.false_eq_true, if_false, BitVec.toNat_ofNat]
    omega
  simp only [hv, nbits]
  omega

/-- R46: a write to FEPCMD stores its fields, RESULT kept, and starts its command. -/
theorem writeCmd_of_idle {s : State} {d : Die} {q idx amount cls op : Nat} (hq : q < 512) (hi : idx < 2 ^ 32) (ha : amount < 2 ^ 32) (hc : cls < 4)
    (ho : op < 4) (h : s.fe[d].cmd.getLsbD 7 = false) :
    s.writeCmd d (fepcmd amount idx q 0 cls op false).toNat
      = s.modFe d fun f => { f with cmd := fepcmd amount idx q (s.fe[d].cmd.toNat / 2 ^ 40 % 256) cls op (op ≠ 0) } := by
  obtain ⟨hop, hcls, hamount, hq', hidx⟩ := fepcmd_idle_fields hq hi ha hc ho
  have hbusy : nbits s.fe[d].cmd.toNat 7 7 ≠ 1 := by
    rw [BitVec.getLsbD, Nat.testBit_eq_decide_div_mod_eq, decide_eq_false_iff_not] at h
    simpa [nbits] using h
  have hresult : nbits s.fe[d].cmd.toNat 47 40 = s.fe[d].cmd.toNat / 2 ^ 40 % 256 := rfl
  simp only [State.writeCmd, hbusy, if_false, hop, hcls, hamount, hq', hidx, hresult]

theorem writeCmd_of_busy {s : State} {d : Die} (v : Nat) (h : s.fe[d].cmd.getLsbD 7 = true) : s.writeCmd d v = s := by
  have hbusy : nbits s.fe[d].cmd.toNat 7 7 = 1 := by
    rw [BitVec.getLsbD, Nat.testBit_eq_decide_div_mod_eq, decide_eq_true_eq] at h
    simpa [nbits] using h
  simp only [State.writeCmd, hbusy, if_true]

/-- The command and the argument of a value that is written to MBCMD (R389). -/
theorem mbcmd_fields {v cmd b : Nat} (hv : v = cmd + b * 2 ^ 32) (hc : cmd < 2 ^ 32) (hb : b < 2 ^ 64) : nbits v 31 0 = cmd ∧ nbits v 95 32 = b := by
  subst hv
  simp only [nbits]
  omega

/-! ### The host link -/

/-- A function that is bound to a space other than 0 (R95, R380). -/
theorem hostBar2Write_of_locs {s s1 : State} {f va sp n : Nat} {data : List Byte} {ls : List Loc} (hx : s.input = .bytes f va data) (hf : f ≤ 32)
    (hbar : assocGet s.bar2 f = some sp) (hsp : sp ≠ 0) (hva : va + data.length ≤ 2 ^ 36) (hpin : s.pinCurrent sp = .slot n s1)
    (hls : s.requestLocs sp n va data.length .write = .ok ls) (hwrap : ∀ l ∈ ls, s.wrapped l = false) :
    execHostBar2Request s = .next { (s.performWrite (s.space sp).key ls data none).settle with reply := .ok [] } := by
  obtain ⟨sp, rfl⟩ := Nat.exists_eq_succ_of_ne_zero hsp
  have hmod : f % 64 = f := Nat.mod_eq_of_lt (by omega)
  have hread : ¬(64 ≤ f) := by omega
  have hfind : ((urun (BitVec.ofNat 64 va) data.length).zip ls).find? (fun p => s.wrapped p.2) = none := by
    rw [List.find?_eq_none]
    intro p hp
    rw [hwrap p.2 (List.of_mem_zip hp).2]
    decide
  simp only [execHostBar2Request, hx, hmod, hbar, Nat.not_lt.2 hf, Nat.not_lt.2 hva, hread, hpin, hls, hfind, decide_false, Bool.or_self, Bool.false_eq_true,
    if_false]

theorem hostBar2Read_of_locs {s s1 : State} {f va sp n : Nat} {data : List Byte} {ls : List Loc} (hx : s.input = .bytes (64 + f) va data) (hf : f ≤ 32)
    (hbar : assocGet s.bar2 f = some sp) (hsp : sp ≠ 0) (hva : va + data.length ≤ 2 ^ 36) (hpin : s.pinCurrent sp = .slot n s1)
    (hls : s.requestLocs sp n va data.length .read = .ok ls)
    (hfault : s.readFault (s.space sp).key (urun (BitVec.ofNat 64 va) data.length) ls = none) :
    execHostBar2Request s = .next { s with reply := .ok (ls.map s.readByte) } := by
  obtain ⟨sp, rfl⟩ := Nat.exists_eq_succ_of_ne_zero hsp
  have hmod : (64 + f) % 64 = f := by omega
  have hread : 64 ≤ 64 + f := by omega
  simp only [execHostBar2Request, hx, hmod, hbar, Nat.not_lt.2 hf, Nat.not_lt.2 hva, hread, hpin, hls, hfault, decide_false, decide_true, Bool.or_self,
    Bool.false_eq_true, if_false, if_true]

/-- R95: an invalidation of the host's translations completes after every request that uses one of them. -/
theorem atsInvalidation_of_idle {s : State} {pasid valid page : Nat} (hx : s.input = .nat3 pasid valid page)
    (h : s.hostBusy (if valid = 0 then none else some (BitVec.ofNat 20 pasid)) page = false) :
    execAtsInvalidation s = .next { s with ats := s.ats.filter (fun p => !(p.1 = (if valid = 0 then none else some (BitVec.ofNat 20 pasid)) && p.2 = page)), reply := .ok [] } := by
  simp only [execAtsInvalidation, hx, h, Bool.false_eq_true, if_false]

theorem atsInvalidation_of_busy {s : State} {pasid valid page : Nat} (hx : s.input = .nat3 pasid valid page)
    (h : s.hostBusy (if valid = 0 then none else some (BitVec.ofNat 20 pasid)) page = true) : execAtsInvalidation s = .next s := by
  simp only [execAtsInvalidation, hx, h, if_true]

/-! ### Keys -/

/-- Bytes of one length make one number only. -/
theorem leNat_injective {l k : List Byte} (hlen : l.length = k.length) (h : leNat l = leNat k) : l = k := by
  induction l generalizing k with
  | nil => exact (List.eq_nil_of_length_eq_zero hlen.symm).symm
  | cons a r ih =>
    obtain ⟨b, t, rfl⟩ := List.exists_cons_of_length_eq_add_one hlen.symm
    simp only [leNat] at h
    have ha := a.isLt
    have hb := b.isLt
    have hab : a = b := BitVec.eq_of_toNat_eq (by omega)
    rw [hab, ih (by simpa using hlen) (by omega)]

/-- R371: a key is loaded inside a secured session into a slot that no space names. -/
theorem keyload_of_free {s : State} {slot : Nat} {key : List Byte} (hx : s.input = .bytes slot 1 key) (h1 : 1 ≤ slot) (h2 : slot < 64)
    (hlen : key.length = 32) (hfree : ∀ n, n < 1024 → (s.space n).key ≠ slot) :
    execKeyload s = .next { s with keys := assocSet s.keys slot key, reply := .ok [] } := by
  have hnamed : ((List.range 1024).any fun n => decide ((s.space n).key = slot)) = false := by
    simp only [List.any_eq_false, List.mem_range, decide_eq_true_eq]
    exact hfree
  simp only [execKeyload, hx, hnamed, Nat.ne_of_gt h1, Nat.not_le.2 h2, hlen, ne_eq, not_true_eq_false, decide_false, Bool.or_self, Bool.false_eq_true,
    if_false]

theorem assocGet_assocSet_self {κ ν : Type} [DecidableEq κ] (l : List (κ × ν)) (k : κ) (v : ν) : assocGet (assocSet l k v) k = some v := by
  simp [assocGet, assocSet]

/-- R371: a line that was written under another key of its slot cannot be read. -/
theorem lineCheck_of_other_key {t : State} {slot pa : Nat} {old key : List Byte} {va : DWord} (hprot : t.prot = true) (hkey : assocGet t.keys slot = some key)
    (hline : assocGet t.lineKeys (lineOf (.hbm pa)) = some (leNat old)) (hlen : old.length = key.length) (hne : old ≠ key) :
    ∃ r, t.lineCheck slot (.hbm pa) va = some r := by
  have hlabel : leNat old ≠ t.keyLabel slot := by
    simp only [State.keyLabel, hkey]
    exact fun h => hne (leNat_injective hlen h)
  simp only [State.lineCheck, hprot, hline]
  split
  · exact ⟨_, rfl⟩
  · exact ⟨_, if_pos (by simp [hlabel])⟩

/-! ### Peers, leases and ports -/

/-- What a peer asks of a range lent to it, whose lines can be read (R374): reads and writes. -/
theorem peerRead_of_sound {s : State} {who pa : Nat} {data : List Byte} (hx : s.input = .bytes who pa data) (hw : who < 2 ^ 16)
    (hlent : s.lentTo who pa data.length = true) (hlost : s.lineLost (.hbm pa) data.length = false) :
    execPeerRequest s = .next { s with reply := .ok (s.readLoc (.hbm pa) data.length) } := by
  have hkind : who / 2 ^ 16 = 0 := Nat.div_eq_of_lt hw
  simp only [execPeerRequest, hx, hkind, Nat.mod_eq_of_lt hw, Nat.zero_lt_two, if_true, hlent, hlost, Bool.not_true, Bool.or_self, Bool.false_eq_true, if_false]

theorem peerWrite_of_sound {s : State} {who pa : Nat} {data : List Byte} (hx : s.input = .bytes (2 ^ 16 + who) pa data) (hw : who < 2 ^ 16)
    (hlent : s.lentTo who pa data.length = true) (hlost : s.lineLost (.hbm pa) data.length = false) :
    execPeerRequest s = .next { (((s.writeBytes ((Loc.hbm pa).run data.length) data).stampPeer who ((Loc.hbm pa).run data.length)).pushes
      ((Loc.hbm pa).run data.length)).settle with reply := .ok (s.readLoc (.hbm pa) data.length) } := by
  have hkind : (2 ^ 16 + who) / 2 ^ 16 = 1 := by omega
  have hmod : (2 ^ 16 + who) % 2 ^ 16 = who := by omega
  simp only [execPeerRequest, hx, hkind, hmod, Nat.one_lt_two, if_true, hlent, hlost, Bool.not_true, Bool.or_self, Bool.false_eq_true, if_false]

theorem peerRequest_of_unsound {s : State} {who pa : Nat} {data : List Byte} (hx : s.input = .bytes who pa data) (hw : who < 2 ^ 16)
    (h : s.lentTo who pa data.length = false ∨ s.lineLost (.hbm pa) data.length = true) : execPeerRequest s = .next { s with reply := .error } := by
  have hkind : who / 2 ^ 16 = 0 := Nat.div_eq_of_lt hw
  simp only [execPeerRequest, hx, hkind, Nat.mod_eq_of_lt hw, Nat.zero_lt_two, if_true]
  exact if_pos (by rcases h with h | h <;> simp [h])

/-- R375: at its grace end a lease that is being revoked is REVOKED. -/
theorem leaseGraceEnd_of_due {s : State} {i e : Nat} (hx : s.input = .nat i) (hst : (s.lease i).state = 2) (hend : (s.lease i).graceEnd = some e)
    (hle : e ≤ s.fcyc[(0 : Die)]) : execLeaseGraceEnd s = .next (s.revoked i (s.lease i)) := by
  simp only [execLeaseGraceEnd, hx, hend, hst, hle, decide_true, Bool.and_self, if_true]

/-- R375: a free entry of the lease table takes a new lease. -/
theorem leaseTableWrite_of_free {s : State} {i k : Nat} {data : List Byte} (hx : s.input = .bytes i k data) (hi : i < 256) (hfree : (s.lease i).state = 0)
    (hst : leNat data / 2 ^ 88 % 4 = 1) :
    execLeaseTableWrite s = .next ((s.refuseLease i).setLease i { (s.lease i).put (leNat data) with state := 1, graceEnd := none, fenced := false }) := by
  have hst' : nbits (leNat data) 89 88 = 1 := hst
  simp only [execLeaseTableWrite, hx, hst', Nat.not_le.2 hi, hfree, if_true, if_false, Nat.reduceEqDiff, Nat.zero_ne_one, Nat.one_ne_zero, decide_true, decide_false,
    Bool.or_self, Bool.or_false, Bool.and_self, Bool.and_false, Bool.not_true, Bool.false_and, Bool.false_eq_true]

/-- A state without a collective in progress has none whose link is down. -/
theorem linkDown_of_not_coll {s : State} {o : Op} (h : match o.kind with | .coll .. => False | _ => True) : s.linkDown o = false := by
  unfold State.linkDown
  split
  · next hk _ => rw [hk] at h; exact h.elim
  · rfl

theorem filter_linkDown_of_not_coll {s : State} (h : ∀ o ∈ s.ops, match o.kind with | .coll .. => False | _ => True) : s.ops.filter s.linkDown = [] := by
  rw [List.filter_eq_nil_iff]
  intro o ho
  rw [linkDown_of_not_coll (h o ho)]
  decide

/-- R382: the loss of a port that no collective uses is noted, and a notice posted. -/
theorem portLinkLoss_of_idle {s : State} {p : Nat} (hx : s.input = .nat p) (hp : p < 12) (hdown : s.downPorts.contains p = false)
    (hops : ∀ o ∈ s.ops, match o.kind with | .coll .. => False | _ => True) :
    execPortLinkLoss s = .next (({ s with downPorts := s.downPorts ++ [p] } : State).notice (natLe 2 6 ++ natLe 2 p ++ natLe 12 0)) := by
  unfold execPortLinkLoss
  split
  · next q hq =>
    obtain rfl : q = p := by rw [hx, Input.nat.injEq] at hq; exact hq.symm
    rw [if_neg (by simp only [Nat.not_le.2 hp, hdown, decide_false, Bool.or_self]; decide)]
    simp only [filter_linkDown_of_not_coll (s := ({ s with downPorts := s.downPorts ++ [q] } : State).notice _) hops, List.foldl_nil]
  · next hq => exact absurd hx (hq p)

/-- Settles O48: by the effect of each request where it is allowed. -/
theorem outsideRequestsActWhereAllowed : Obligations.OutsideRequestsActWhereAllowed := by
  unfold Obligations.OutsideRequestsActWhereAllowed
  refine ⟨fun i data => ⟨?_, ?_, ?_, ?_, fun f reg hf hreg => ?_, fun cmd a b hv hc hb => ⟨?_, ?_⟩⟩,
    fun d amount idx q cls op data hop hcls hamount hidx hq hv => ⟨?_, ?_⟩, fun f va sp n data ls s1 => ⟨?_, ?_⟩, fun pasid valid page => ?_, ?_, fun i m => ?_,
    fun slot key => ⟨?_, fun s t old pa va hx h1 h2 hlen hfree hprot hold holdlen hne hline he => ?_⟩, fun who pa data hw => ?_,
    fun i => ⟨?_, fun e => ?_, fun k data => ?_, fun l t => ⟨?_, fun k => ?_⟩⟩, fun who base => ?_, fun p => ?_, fun port pa data hport => ?_⟩
  · exact happens_of (f := execRegisterWrite) (fun _ => rfl) fun s hx _ => registerWrite_of_window hx (by decide)
  · refine happens_of (f := execRegisterWrite) (fun _ => rfl) fun s hx h => (registerWrite_of_window hx (by decide)).trans ?_
    obtain ⟨hi, hn⟩ := h
    simp only [State.writeWindow, hi, if_true, SpaceEnt.put, hn]
    rfl
  · refine happens_of (f := execRegisterWrite) (fun _ => rfl) fun s hx h => (registerWrite_of_window hx (by decide)).trans ?_
    obtain ⟨hi, hn⟩ := h
    simp only [State.writeWindow, hi, if_true, SpaceEnt.put, hn, Bool.false_eq_true, if_false]
  · refine happens_of (f := execRegisterWrite) (fun _ => rfl) fun s hx hi => (registerWrite_of_window hx (by decide)).trans ?_
    simp only [State.writeWindow, hi, if_true]
  · refine happens_of (f := execRegisterWrite) (fun _ => rfl) fun s hx _ => ?_
    have hreg' : ¬((64 * f + reg) / 64 ≤ 1) := by omega
    simp only [execRegisterWrite, hx, hreg', if_false]
  · refine happens_of (f := execRegisterWrite) (fun _ => rfl) fun s hx h => (registerWrite_of_window hx (by decide)).trans ?_
    obtain ⟨hcmd, harg⟩ := mbcmd_fields hv hc hb
    obtain ⟨hrun, h1, h4⟩ := h
    simp only [State.writeWindow, hcmd, harg, State.writeMbcmd, hrun, Option.isSome_none, Nat.ne_of_gt h1, Nat.not_lt.2 h4, decide_false, Bool.or_self,
      Bool.false_eq_true, if_false]
  · refine happens_of (f := execRegisterWrite) (fun _ => rfl) fun s hx h => (registerWrite_of_window hx (by decide)).trans ?_
    simp only [State.writeWindow, State.writeMbcmd, h, if_true]
  · refine happens_of (f := execRegisterWrite) (fun _ => rfl) fun s hx h => (registerWrite_of_window hx (by decide)).trans ?_
    simp only [State.writeWindow, die_ofNat, hv, writeCmd_of_idle hq hidx hamount hcls hop h]
  · refine happens_of (f := execRegisterWrite) (fun _ => rfl) fun s hx h => (registerWrite_of_window hx (by decide)).trans ?_
    simp only [State.writeWindow, die_ofNat, writeCmd_of_busy _ h]
  · refine happens_of (f := execHostBar2Request) (fun _ => rfl) fun s hx h => ?_
    obtain ⟨hf, hbar, hsp, hva, hpin, hls, hwrap⟩ := h
    exact hostBar2Write_of_locs hx hf hbar hsp hva hpin hls hwrap
  · refine happens_of (f := execHostBar2Request) (fun _ => rfl) fun s hx h => ?_
    obtain ⟨hf, hbar, hsp, hva, hpin, hls, hfault⟩ := h
    exact hostBar2Read_of_locs hx hf hbar hsp hva hpin hls hfault
  · intro k
    exact ⟨happens_of (f := execAtsInvalidation) (fun _ => rfl) fun s hx h => atsInvalidation_of_idle hx h,
      happens_of (f := execAtsInvalidation) (fun _ => rfl) fun s hx h => atsInvalidation_of_busy hx h⟩
  · exact happens_of (f := execSpdmRequest) (fun _ => rfl) fun s hx _ => by simp only [execSpdmRequest, hx]
  · exact happens_of (f := execSpdmRequest) (fun _ => rfl) fun s hx h => by simp only [execSpdmRequest, hx, h]
  · refine happens_of (f := execKeyload) (fun _ => rfl) fun s hx h => ?_
    obtain ⟨h1, h2, hlen, hfree⟩ := h
    exact keyload_of_free hx h1 h2 hlen hfree
  · have ht := ((rfl : exec .keyload s = execKeyload s).trans (keyload_of_free hx h1 h2 hlen hfree)).symm.trans he
    simp only [Host.Outcome.next.injEq] at ht
    subst ht
    exact lineCheck_of_other_key hprot (assocGet_assocSet_self _ _ _) hline (holdlen.trans hlen.symm) hne
  · intro sound
    exact ⟨happens_of (f := execPeerRequest) (fun _ => rfl) fun s hx h => peerRead_of_sound hx hw h.1 h.2,
      happens_of (f := execPeerRequest) (fun _ => rfl) fun s hx h => peerWrite_of_sound hx hw h.1 h.2,
      happens_of (f := execPeerRequest) (fun _ => rfl) fun s hx h => peerRequest_of_unsound hx hw h⟩
  · refine happens_of (f := execLeaseRevoke) (fun _ => rfl) fun s hx h => ?_
    obtain ⟨hi, hst⟩ := h
    refine (?_ : execLeaseRevoke s = _)
    simp only [execLeaseRevoke, hx]
    exact if_neg (by simp [hst, hi])
  · refine happens_of (f := execLeaseGraceEnd) (fun _ => rfl) fun s hx h => ?_
    obtain ⟨hst, hend, hle⟩ := h
    exact leaseGraceEnd_of_due hx hst hend hle
  · refine happens_of (f := execLeaseTableWrite) (fun _ => rfl) fun s hx h => ?_
    obtain ⟨hi, hfree, hst⟩ := h
    exact leaseTableWrite_of_free hx hi hfree hst
  · refine happens_of (f := execLenderGraceEnd) (fun _ => rfl) fun s hx h => ?_
    obtain ⟨hl, hfence, hlt⟩ := h
    simp only [execLenderGraceEnd, hx, hl, Option.bind_some, hfence, hlt, if_true]
  · exact happens_of (f := execLenderGraceEnd) (fun _ => rfl) fun s hx h => by simp only [execLenderGraceEnd, hx, Nat.not_le.2 h, if_false]
  · exact happens_of (f := execLeaseRelease) (fun _ => rfl) fun s hx _ => by simp only [execLeaseRelease, hx]
  · refine happens_of (f := execPortLinkLoss) (fun _ => rfl) fun s hx h => ?_
    obtain ⟨hp, hdown, hops⟩ := h
    exact portLinkLoss_of_idle hx hp hdown hops
  · refine happens_of (f := execNvmePortDmaWrite) (fun _ => rfl) fun s hx h => ?_
    obtain ⟨hend, hlent, hlent', hwrap⟩ := h
    have hany : ((Loc.hbm pa).run data.length).any s.wrapped = false := by
      rw [List.any_eq_false]
      intro l hl
      rw [hwrap l hl]
      decide
    simp only [execNvmePortDmaWrite, hx, Nat.not_le.2 hport, Nat.not_lt.2 hend, hlent, hlent', hany, decide_false, Bool.or_self, Bool.false_eq_true, if_false]

end Sys2Proof.Laws
end

section
/-! SUPPORT. Resets, the mailbox, firmware, quarantine, errors and temperature (R27, R345, R367, R370, R387 to R394), and the statement on them. -/

namespace Sys2Proof.Laws

open Sys2Proof Sys2Proof.Machine

/-! ### The mailbox -/

/-- The command in progress is served by its own step (R389). -/
theorem serve_of_running {s : State} {cmd a b : Nat} (h : s.mbox.running = some (cmd, a, b)) (f : Nat → Nat → State) : s.serve cmd none f = f a b := by
  simp only [State.serve, h, if_true]

theorem mbResync_of_running {s : State} {a b : Nat} (hx : s.input = .none) (h : s.mbox.running = some (1, a, b)) : execMbResync s = .next s.resync := by
  simp only [execMbResync, hx, serve_of_running h]

theorem mbBbread_of_running {s : State} {d : Die} {cursor : Nat} (hx : s.input = .none) (h : s.mbox.running = some (2, d.val, cursor)) :
    execMbBbread s = .next (s.respond 2 (s.bbox[d].from_ cursor)) := by
  simp only [execMbBbread, hx, pairOf, serve_of_running h, die_ofNat]

theorem mbErrlog_of_running {s : State} {d : Die} {clear : Nat} (hx : s.input = .none) (h : s.mbox.running = some (3, d.val, clear)) :
    execMbErrlog s = .next (s.errlog d clear) := by
  simp only [execMbErrlog, hx, pairOf, serve_of_running h, die_ofNat]

theorem mbWarmreset_of_running {s : State} {a b : Nat} (hx : s.input = .none) (h : s.mbox.running = some (4, a, b)) (hb : s.mbox.bootfail = false) :
    execMbWarmreset s = .next s.warmReset := by
  simp only [execMbWarmreset, hx, serve_of_running h, hb, Bool.false_eq_true, if_false]

/-! ### Firmware replacement (R388) -/

/-- The successor runs where the preserved-state table stands as it was written. -/
theorem firmwareReplacement_of_handover {s : State} {ok : Nat} {digest : List Byte} {h : Handover} (hx : s.input = .bytes 1 ok digest) (hh : s.handover = some h) :
    execFirmwareReplacement s
      = .next (if ok = 1 && s.tableStands h then { (s.setHold s.hot) with handover := none } else s.warmReset) := by
  simp only [execFirmwareReplacement, hx, hh]

/-! ### Quires and errors -/

/-- R387: the spare of a die takes the number of a quire that is quarantined and empty. -/
theorem quireSpareTakeover_of_empty {s : State} {d : Die} {q : Nat} (hx : s.input = .nat2 d.val q) (hq : q < 24)
    (hquar : ∀ c ∈ quireCores d.val q, c ∈ s.quarantined)
    (hempty : ∀ x ∈ s.blocks, x.residence = .evicted ∨ x.die.val * 96 + x.core ∉ quireCores d.val q) (hspare : s.spares[d] ≠ 0) :
    execQuireSpareTakeover s
      = .next { s with quarantined := s.quarantined.filter fun c => !(quireCores d.val q).contains c, spares := s.spares.set d (s.spares[d] - 1) } := by
  have hall : (quireCores d.val q).all s.quarantined.contains = true := by
    simpa only [List.all_eq_true, List.contains_iff_mem] using hquar
  have hany : (s.blocks.any fun x => decide (x.residence ≠ .evicted) && (quireCores d.val q).contains (x.die.val * 96 + x.core)) = false := by
    simp only [List.any_eq_false, Bool.and_eq_true, decide_eq_true_eq, List.contains_iff_mem, not_and]
    intro x hxm hres
    exact (hempty x hxm).resolve_left hres
  simp only [execQuireSpareTakeover, hx, die_ofNat, Nat.not_le.2 hq, hall, hany, hspare, decide_false, Bool.not_true, Bool.or_self, Bool.false_eq_true, if_false]

/-- R391 to R393: an error of a kind that the device can have is logged, and its lines fail. -/
theorem hardwareError_of_kind {s : State} {d : Die} {kind chan pa syn : Nat} (hx : s.input = .nat5 d.val kind chan pa syn) (h1 : 1 ≤ kind) (h7 : kind ≤ 7)
    (hprot : kind = 3 ∨ kind = 5 → s.prot = true) (hchan : kind ≤ 5 → s.elog[d].last ≤ chan) :
    execHardwareError s = .next (match errorCause kind pa with
      | some c => { s.logError d kind chan pa syn with
          faults := (s.logError d kind chan pa syn).faults ++ (errorLines kind (errorLoc d kind pa)).flatMap fun l => badHalves l c }
      | none => s.logError d kind chan pa syn) := by
  have hguard : (decide (kind = 0) || decide (7 < kind) || !s.prot && (decide (kind = 3) || decide (kind = 5))
      || decide (kind ≤ 5) && decide (chan < s.elog[d].last)) = false := by
    simp only [Bool.or_eq_false_iff, decide_eq_false_iff_not, Bool.and_eq_false_imp, Bool.not_eq_true', decide_eq_true_eq, Nat.not_lt]
    refine ⟨⟨⟨by omega, h7⟩, fun hp => ?_⟩, hchan⟩
    constructor
    · intro h3
      rw [hprot (.inl h3)] at hp
      cases hp
    · intro h5
      rw [hprot (.inr h5)] at hp
      cases hp
  simp only [execHardwareError, hx, die_ofNat, hguard, Bool.false_eq_true, if_false] <;> rfl

/-- Settles O49: by the effect of each step. -/
theorem resetsMailboxAndErrorsAct : Obligations.ResetsMailboxAndErrorsAct := by
  unfold Obligations.ResetsMailboxAndErrorsAct
  refine ⟨fun prot data => ?_, ?_, ?_, fun digest => ⟨?_, ?_, fun h => ⟨?_, ?_⟩, ?_⟩, fun d q => ?_, fun d kind chan pa syn => ?_, fun x => ⟨?_, ?_, ?_⟩⟩
  · intro started
    exact ⟨happens_of (f := execColdReset) (fun _ => rfl) fun s hx _ => by simp only [execColdReset, hx, started],
      happens_of (f := execColdReset) (fun _ => rfl) fun s hx _ => by simp only [execColdReset, hx, started],
      happens_of (f := execColdReset) (fun _ => rfl) fun s hx _ => by simp only [execColdReset, hx, started]⟩
  · intro restarted
    refine ⟨happens_of (f := execWarmReset) (fun _ => rfl) fun s hx _ => ?_, happens_of (f := execWarmReset) (fun _ => rfl) fun s hx _ => ?_, fun a b =>
      happens_of (f := execMbWarmreset) (fun _ => rfl) fun s hx h => mbWarmreset_of_running hx h.1 h.2⟩
    · simp only [execWarmReset, hx]
      rfl
    · simp only [execWarmReset, hx]
      rfl
  · intro answers asked
    refine ⟨fun a b => ?_, fun a b h => ?_, fun d cursor => ?_, fun d => ⟨?_, ?_⟩⟩
    · refine happens_of (f := execMbResync) (fun _ => rfl) fun s hx hh => (mbResync_of_running hx hh.1).trans ?_
      simp only [State.resync, hh.2]
      rfl
    · refine happens_of (f := execMbResync) (fun _ => rfl) fun s hx hh => (mbResync_of_running hx hh.1).trans ?_
      simp only [State.resync, hh.2]
      rfl
    · exact happens_of (f := execMbBbread) (fun _ => rfl) fun s hx hh => mbBbread_of_running hx hh
    · exact happens_of (f := execMbErrlog) (fun _ => rfl) fun s hx hh => mbErrlog_of_running hx hh
    · exact happens_of (f := execMbErrlog) (fun _ => rfl) fun s hx hh => mbErrlog_of_running hx hh
  · exact happens_of (f := execFirmwareReplacement) (fun _ => rfl) fun s hx _ => by simp only [execFirmwareReplacement, hx, ne_eq, not_true_eq_false, if_false]
  · exact happens_of (f := execFirmwareReplacement) (fun _ => rfl) fun s hx _ => by
      simp only [execFirmwareReplacement, hx, ne_eq, Nat.zero_ne_one, not_false_eq_true, if_true]
  · refine happens_of (f := execFirmwareReplacement) (fun _ => rfl) fun s hx hh => (firmwareReplacement_of_handover hx hh.1).trans ?_
    rw [if_pos (by simp [State.tableStands, hh.2])]
  · refine happens_of (f := execFirmwareReplacement) (fun _ => rfl) fun s hx hh => (firmwareReplacement_of_handover hx hh.1).trans ?_
    rw [if_neg (by simp [State.tableStands, hh.2])]
  · refine happens_of (f := execFirmwareReplacement) (fun _ => rfl) fun s hx hh => ?_
    obtain ⟨h, hh⟩ := Option.isSome_iff_exists.1 hh
    refine (firmwareReplacement_of_handover hx hh).trans ?_
    rw [if_neg (by simp)]
  · intro cores
    refine ⟨happens_of (f := execQuireQuarantine) (fun _ => rfl) fun s hx hq => ?_, happens_of (f := execQuireSpareTakeover) (fun _ => rfl) fun s hx h => ?_⟩
    · simp only [execQuireQuarantine, hx, Nat.not_le.2 hq, if_false]
      rfl
    · obtain ⟨hq, hquar, hempty, hspare⟩ := h
      exact quireSpareTakeover_of_empty hx hq hquar hempty hspare
  · refine happens_of (f := execHardwareError) (fun _ => rfl) fun s hx h => ?_
    obtain ⟨h1, h7, hprot, hchan⟩ := h
    exact hardwareError_of_kind hx h1 h7 hprot hchan
  · exact happens_of (f := execThermalHold) (fun _ => rfl) fun s _ h => by simp only [execThermalHold, h, Bool.false_eq_true, if_false]
  · exact happens_of (f := execThermalRelease) (fun _ => rfl) fun s _ h => by simp only [execThermalRelease, h, if_true]
  · exact happens_of (f := execThermalCritical) (fun _ => rfl) fun s _ _ => rfl

end Sys2Proof.Laws
end

section
/-! SUPPORT. The canonical form of the memories, and the operations of the state, the issue and the registry, which keep it. -/

namespace Sys2Proof.Laws

open Sys2Proof Sys2Proof.Machine

-- In turn, not in parallel: these many short proofs, each waiting for the equations of its own function, would take
-- more threads at a time than the memory holds stacks for.
set_option Elab.async false

/-! ### The form of the memories, field by field -/

/-- The canonical form, said of the five fields that hold memories. -/
def MemForm (hbm : Memory) (tun : Vector Memory 2) (lender host : Memory) (blocks : List Block) : Prop :=
  Memory.wf hbm = true ∧ Memory.wf tun[0] = true ∧ Memory.wf tun[1] = true ∧ Memory.wf lender = true ∧ Memory.wf host = true
    ∧ ∀ x ∈ blocks, Memory.wf x.mem = true

theorem memWf_iff (s : State) : s.memWf = true ↔ MemForm s.hbm s.tun s.lender s.host s.blocks := by
  simp only [State.memWf, MemForm, Bool.and_eq_true, List.all_eq_true, and_assoc]

/-- A state whose memories and blocks are those of another has their form. -/
theorem memWf_of_fields {s t : State} (h : s.memWf = true) (h1 : t.hbm = s.hbm := by rfl) (h2 : t.tun = s.tun := by rfl) (h3 : t.lender = s.lender := by rfl)
    (h4 : t.host = s.host := by rfl) (h5 : t.blocks = s.blocks := by rfl) : t.memWf = true := by
  rw [memWf_iff] at h ⊢
  rwa [h1, h2, h3, h4, h5]

/-- So has one whose blocks' memories have the form. -/
theorem memWf_of_blocks {s t : State} (h : s.memWf = true) (h1 : t.hbm = s.hbm) (h2 : t.tun = s.tun) (h3 : t.lender = s.lender) (h4 : t.host = s.host)
    (h5 : ∀ x ∈ t.blocks, Memory.wf x.mem = true) : t.memWf = true := by
  rw [memWf_iff] at h ⊢
  obtain ⟨a, b, c, d, e, -⟩ := h
  rw [h1, h2, h3, h4]
  exact ⟨a, b, c, d, e, h5⟩

/-- A change of other fields. -/
theorem memWf_update {s t : State} (h : s.memWf = true)
    (e : MemForm t.hbm t.tun t.lender t.host t.blocks = MemForm s.hbm s.tun s.lender s.host s.blocks) : t.memWf = true :=
  (memWf_iff t).2 (e ▸ (memWf_iff s).1 h)

theorem wf_of_mem {s : State} {x : Block} (h : s.memWf = true) (hx : x ∈ s.blocks) : Memory.wf x.mem = true :=
  ((memWf_iff s).1 h).2.2.2.2.2 x hx

theorem wf_of_block? {s : State} {b : Nat} {x : Block} (h : s.memWf = true) (hx : s.block? b = some x) : Memory.wf x.mem = true :=
  wf_of_mem h (State.block?_mem hx).1

theorem wf_of_gang? {s : State} {b g : Nat} {x : Block} {y : Gang} (h : s.memWf = true) (hx : s.gang? b g = some (x, y)) : Memory.wf x.mem = true :=
  wf_of_block? h (State.gang?_block hx).1

theorem memWf_setBlock {s : State} {x : Block} (h : s.memWf = true) (hx : Memory.wf x.mem = true) : (s.setBlock x).memWf = true :=
  State.memWf_setBlock s x h hx

theorem memWf_setGang {s : State} {b g : Nat} {y : Gang} (h : s.memWf = true) : (s.setGang b g y).memWf = true := by
  unfold State.setGang
  split
  · next x hx =>
    have hw := wf_of_block? h hx
    exact memWf_setBlock h hw
  · exact h

theorem memWf_foldl {α : Type} {f : State → α → State} {l : List α} {s : State} (hf : ∀ z a, z.memWf = true → (f z a).memWf = true) (h : s.memWf = true) :
    (l.foldl f s).memWf = true :=
  foldl_keeps (P := fun z => z.memWf = true) hf l s h

/-! ### Memories and their bytes -/

theorem memWf_writeByte {s : State} {l : Loc} {v : Byte} (h : s.memWf = true) : (State.writeByte s l v).memWf = true := by
  exact State.memWf_writeByte s l v h

theorem memWf_writeRaw {s : State} {l : Loc} {bs : List Byte} (h : s.memWf = true) : (State.writeRaw s l bs).memWf = true := by
  exact State.memWf_writeRaw s l bs h

/-! ### Errors -/

theorem memWf_blackBox {s : State} {d : Die} {sort ctx : Nat} (h : s.memWf = true) : (State.blackBox s d sort ctx).memWf = true := by
  unfold State.blackBox
  simp only
  repeat' split
  all_goals exact memWf_of_fields h

theorem memWf_logError {s : State} {d : Die} {kind chan pa syn : Nat} (h : s.memWf = true) : (State.logError s d kind chan pa syn).memWf = true :=
  memWf_blackBox (memWf_of_fields h)

theorem memWf_logFound {s : State} {d : Die} {kind : Nat} {at_ : Option Loc} (h : s.memWf = true) : (State.logFound s d kind at_).memWf = true := by
  unfold State.logFound
  simp only
  repeat' split
  all_goals exact memWf_logError (memWf_of_fields h)

/-! ### The operations on the state -/

theorem memWf_modGang {s : State} {b g : Nat} {f : Gang → Gang} (h : s.memWf = true) : (State.modGang s b g f).memWf = true := by
  unfold State.modGang
  repeat' split
  · exact memWf_setGang h
  · exact h

theorem memWf_modBlock {s : State} {b : Nat}
    {f : Block → Block} (h : s.memWf = true) (hf : ∀ x : Block, Memory.wf x.mem = true → Memory.wf (f x).mem = true) :
    (State.modBlock s b f).memWf = true := by
  unfold State.modBlock
  split
  · next x hx => exact memWf_setBlock h (hf x (wf_of_block? h hx))
  · exact h

theorem memWf_noteError {s : State} {d : Die} {t : Trap} (h : s.memWf = true) : (State.noteError s d t).memWf = true := by
  unfold State.noteError
  repeat' split
  · exact memWf_logFound h
  · exact h

theorem memWf_takeTrap {s : State} {b g : Nat} {m : Word} {pc : Va} {t : Trap} {hwbp : Bool} (h : s.memWf = true) :
    (State.takeTrap s b g m pc t hwbp).memWf = true := by
  unfold State.takeTrap
  split
  · exact h
  next x y hy =>
  extract_lets +onlyGivenNames nested r mk n post
  have hp : ∀ kind tr, (post kind tr).memWf = true := fun kind tr => memWf_update (memWf_setGang h) rfl
  clear_value post nested r
  simp only
  split
  · split
    · exact memWf_noteError (memWf_update (memWf_setGang h) rfl)
    · exact memWf_update (memWf_noteError (hp _ _)) rfl
  split
  · exact hp _ _
  split
  · exact hp _ _
  · exact hp _ _
  · exact hp _ _
  · split
    · exact hp _ _
    split
    · exact memWf_setGang h
    · exact memWf_update (memWf_setGang h) rfl

theorem memWf_strike {s0 : State} {x : Block} {g : Nat} {t : Trap} (h : s0.memWf = true) : (State.strike s0 x g t).memWf = true := by
  unfold State.strike
  simp only
  repeat' split
  · exact memWf_noteError h
  · exact memWf_update (memWf_noteError h) rfl

/-! ### Translation -/

theorem memWf_setSpace {s : State} {n : Nat} {e : SpaceEnt} (h : s.memWf = true) : (State.setSpace s n e).memWf = true := memWf_of_fields h

theorem memWf_setRoot {s : State} {n : Nat} {r : RootSlot} (h : s.memWf = true) : (State.setRoot s n r).memWf = true := memWf_of_fields h

/-! ### Results -/

theorem memWf_finishPend {s : State} {b g id : Nat} (h : s.memWf = true) : (State.finishPend s b g id).memWf = true := by
  unfold State.finishPend
  repeat' split
  · exact h
  · exact memWf_setGang h
  · exact h
  · exact h

/-! ### The issue of a word -/

theorem memWf_setEntry {s : State} {e : Entry} (h : s.memWf = true) : (State.setEntry s e).memWf = true := memWf_of_fields h

theorem memWf_charge {s : State} {ent cls n : Nat} (h : s.memWf = true) : (State.charge s ent cls n).memWf = true := by
  unfold State.charge
  repeat' split
  · exact memWf_setEntry h
  · exact h

theorem memWf_releaseHeld {s : State} {ent : Nat} {p : Nat → Bool} (h : s.memWf = true) : (State.releaseHeld s ent p).memWf = true := by
  refine memWf_of_blocks h rfl rfl rfl rfl fun x hx => ?_
  obtain ⟨z, hz, rfl⟩ := List.mem_map.1 hx
  have hw := wf_of_mem h hz
  split <;> exact hw

theorem memWf_demote {s : State} {ent : Nat} (h : s.memWf = true) : (State.demote s ent).memWf = true := by
  unfold State.demote
  split
  · next e _ =>
    have h1 : (State.releaseHeld (s.setEntry { e with deadline := none, demoted := true, rem := [none, none, none], overrun := none, overNext := [] }) ent
        fun _ => true).memWf = true := memWf_releaseHeld (memWf_setEntry h)
    refine memWf_of_blocks h1 rfl rfl rfl rfl fun x hx => ?_
    obtain ⟨z, hz, rfl⟩ := List.mem_map.1 hx
    have hw := wf_of_mem h1 hz
    split <;> exact hw
  · exact h

theorem memWf_raiseOverrun {s : State} {e : Entry} {cls short : Nat} (h : s.memWf = true) : (State.raiseOverrun s e cls short).memWf = true := by
  unfold State.raiseOverrun
  simp only
  split
  · rcases e.twin with _ | o
    · exact memWf_demote (memWf_setEntry h)
    · exact memWf_demote (memWf_demote (memWf_setEntry h))
  · split
    · exact memWf_of_fields h
    · exact memWf_of_fields h

theorem memWf_overrun {s : State} {ent cls short : Nat} (h : s.memWf = true) : (State.overrun s ent cls short).memWf = true := by
  unfold State.overrun
  repeat' split
  · exact h
  · exact memWf_raiseOverrun h
  · exact h
  · exact memWf_of_fields h
  · exact memWf_setEntry h

theorem memWf_nextOverrun {s : State} {ent : Nat} (h : s.memWf = true) : (State.nextOverrun s ent).memWf = true := by
  unfold State.nextOverrun
  repeat' split
  · exact h
  · exact h
  · exact memWf_raiseOverrun h

theorem memWf_setApq {s : State} {d : Die} {core q : Nat} {a : ApQueue} (h : s.memWf = true) : (State.setApq s d core q a).memWf = true :=
  memWf_of_fields h

theorem memWf_apMalformed {s : State} {d : Die} {core q : Nat} (h : s.memWf = true) : (State.apMalformed s d core q).memWf = true := by
  unfold State.apMalformed
  repeat' split
  · exact memWf_setApq h
  · exact h

theorem memWf_holdBudget {s : State} {b g : Nat} {m : Word} {ent cls short : Nat} (h : s.memWf = true) :
    (holdBudget s b g m ent cls short).memWf = true := memWf_overrun (memWf_modGang h)

theorem memWf_trapLanes {s : State} {i : Info} {b g : Nat} {m : Word} {pc : Va} {t : Trap} (h : s.memWf = true) :
    (trapLanes s i b g m pc t).memWf = true := memWf_takeTrap (memWf_modGang h)

theorem memWf_trapWord {s : State} {i : Info} {b g : Nat} {m : Word} {pc : Va} {t : Trap} (h : s.memWf = true) :
    (trapWord s i b g m pc t).memWf = true := memWf_modGang (memWf_trapLanes h)

/-! ### Pending words -/

theorem memWf_addPend {s : State} {c : Ctx} {p : Pend} (h : s.memWf = true) : (State.addPend s c p).memWf = true := by
  unfold State.addPend
  simp only
  repeat' split
  all_goals exact memWf_update (memWf_modGang h) rfl

/-! ### The registry -/

theorem memWf_noticeOn {s : State} {d : Die} {bs : List Byte} (h : s.memWf = true) : (State.noticeOn s d bs).memWf = true := memWf_of_fields h

theorem memWf_notice {s : State} {bs : List Byte} (h : s.memWf = true) : (State.notice s bs).memWf = true := memWf_noticeOn h

theorem memWf_postIfUnpinned {s : State} {slot : Nat} (h : s.memWf = true) : (State.postIfUnpinned s slot).memWf = true := by
  unfold State.postIfUnpinned
  simp only
  repeat' split
  · exact memWf_notice h
  · exact h

theorem memWf_pin {s t : State} {slot : Nat} (h : s.memWf = true) (ht : s.pin slot = some t) : t.memWf = true := by
  unfold State.pin at ht
  simp only at ht
  split at ht
  · obtain rfl := Option.some.inj ht
    exact memWf_setRoot h
  · cases ht

theorem memWf_unpin {s : State} {slot : Nat} (h : s.memWf = true) : (State.unpin s slot).memWf = true := by
  unfold State.unpin
  simp only
  repeat' split
  · exact h
  · exact memWf_postIfUnpinned (memWf_setRoot h)

theorem memWf_refresh {s : State} {b : Nat} (h : s.memWf = true) : (State.refresh s b).memWf = true := by
  unfold State.refresh
  split
  · exact h
  · next x hx =>
    have hw := wf_of_block? h hx
    simp only
    split
    · exact h
    · split
      · next s' hs => exact memWf_unpin (memWf_setBlock (memWf_pin h hs) hw)
      · exact h

theorem memWf_allocSlot {s : State} {n sp rootPa : Nat} (h : s.memWf = true) : (State.allocSlot s n sp rootPa).memWf = true := by
  unfold State.allocSlot
  simp only
  repeat' split
  · exact memWf_setRoot (memWf_of_fields h)
  · exact memWf_setRoot h

/-! ### Call stacks -/

theorem wf_spillWrites {x : Block} {gi : Nat} {y : Gang} {m : Word} {ret : DWord} (h : Memory.wf x.mem = true) :
    Memory.wf (spillWrites x gi y m ret) = true := by
  unfold spillWrites
  refine foldl_keeps (P := fun mem => Memory.wf mem = true) (fun mem l hm => ?_) _ _ h
  split
  · exact Memory.wf_write _ _ _ hm
  · exact hm

theorem memWf_pushAll {s : State} {c : Ctx} {act : Word} {ret : DWord} {f : Nat → Lane → Lane} (h : s.memWf = true) :
    (pushAll s c act ret f).memWf = true := by
  refine memWf_modBlock h fun x hx => ?_
  split
  · exact hx
  · exact wf_spillWrites hx

end Sys2Proof.Laws
end

section
/-! SUPPORT. The canonical form of the memories is kept by what reads and writes them, wakes lanes and performs atomics and barriers. -/

namespace Sys2Proof.Laws

open Sys2Proof Sys2Proof.Machine

-- In turn, not in parallel: these many short proofs, each waiting for the equations of its own function, would take
-- more threads at a time than the memory holds stacks for.
set_option Elab.async false

/-! ### Logs -/

theorem memWf_poisonFrame {s : State} {d : Die} {ctx : Nat} {l : Loc} (h : s.memWf = true) : (State.poisonFrame s d ctx l).memWf = true := by
  unfold State.poisonFrame
  simp only
  repeat' split
  · exact memWf_blackBox h
  · exact memWf_of_fields h
  · exact memWf_notice (memWf_of_fields h)
  · exact h

/-! ### Storage -/

theorem memWf_setSwz {s : State} {k : Nat × Nat} {code : BitVec 3} (h : s.memWf = true) : (State.setSwz s k code).memWf = true := by
  unfold State.setSwz
  repeat' split
  · exact h
  · exact memWf_of_fields h
  · exact memWf_of_fields h

theorem memWf_setTags {s : State} {x : Block} {f : Nat → BitVec 3} (h : s.memWf = true) : (State.setTags s x f).memWf = true := by
  unfold State.setTags
  exact memWf_foldl (fun z o hz => memWf_setSwz hz) h

theorem memWf_setSub {s : State} {u : Sub} (h : s.memWf = true) : (State.setSub s u).memWf = true := memWf_of_fields h

theorem memWf_freeRecord {s : State} {l : Loc} {size : Nat} (h : s.memWf = true) : (State.freeRecord s l size).memWf = true := by
  unfold State.freeRecord
  repeat' split
  · exact memWf_of_fields h
  · exact h

theorem memWf_closeSub {s : State} {u : Sub} {p : Push} (h : s.memWf = true) : (State.closeSub s u p).memWf = true := by
  unfold State.closeSub
  simp only
  repeat' split
  all_goals exact memWf_freeRecord (memWf_setSub h)

theorem memWf_closeUnread {s : State} {u : Sub} {moved : Bool} (h : s.memWf = true) : (State.closeUnread s u moved).memWf = true := by
  unfold State.closeUnread
  rcases s.lineCheck u.key u.word 0 with _ | t
  · exact memWf_blackBox (memWf_closeSub h)
  · exact memWf_blackBox (memWf_closeSub (memWf_noteError h))

theorem memWf_closePoison {s : State} {u : Sub} (h : s.memWf = true) : (State.closePoison s u).memWf = true := memWf_closeUnread h

theorem memWf_pushAgain {s : State} {u : Sub} (h : s.memWf = true) : (State.pushAgain s u).memWf = true := by
  unfold State.pushAgain
  repeat' split
  · exact memWf_closePoison h
  · exact memWf_setSub h

theorem memWf_sequence {s : State} {l : Loc} {size : Nat} (h : s.memWf = true) : (State.sequence s l size).memWf = true := by
  unfold State.sequence
  split
  · exact h
  · exact memWf_foldl (fun z u hz => memWf_closePoison hz) (memWf_of_fields h)

theorem memWf_pushes {s : State} {ls : List Loc} (h : s.memWf = true) : (State.pushes s ls).memWf = true := by
  unfold State.pushes
  refine memWf_foldl (fun z r hz => ?_) h
  split
  · exact memWf_sequence hz
  · exact hz

theorem memWf_stampLine {s : State} {key : Nat} {l : Loc} (h : s.memWf = true) : (State.stampLine s key l).memWf = true := by
  unfold State.stampLine
  simp only
  repeat' split
  all_goals exact memWf_of_fields h

theorem memWf_stampLines {s : State} {key : Nat} {ls : List Loc} (h : s.memWf = true) : (State.stampLines s key ls).memWf = true := by
  unfold State.stampLines
  split
  · exact h
  · exact memWf_foldl (fun z l hz => memWf_stampLine hz) h

theorem memWf_writeBytes {s : State} {ls : List Loc} {bs : List Byte} (h : s.memWf = true) : (State.writeBytes s ls bs).memWf = true := by
  induction ls generalizing s bs with
  | nil => exact h
  | cons l r ih =>
    cases bs with
    | nil => exact h
    | cons b q => exact ih (memWf_writeByte h)

theorem memWf_swizzleTags {s : State} {ls : List Loc} {code : BitVec 3} (h : s.memWf = true) : (State.swizzleTags s ls code).memWf = true := by
  unfold State.swizzleTags
  refine memWf_foldl (fun z l hz => ?_) h
  split
  · split
    · exact memWf_setSwz hz
    · exact hz
  · exact hz

theorem memWf_mend {s : State} {ls : List Loc} (h : s.memWf = true) : (State.mend s ls).memWf = true := by
  unfold State.mend
  repeat' split
  · exact h
  · exact memWf_of_fields h

theorem memWf_performWrite {s : State} {key : Nat} {ls : List Loc} {bs : List Byte} {swz : Option (BitVec 3)} (h : s.memWf = true) :
    (State.performWrite s key ls bs swz).memWf = true := by
  unfold State.performWrite
  split
  · exact h
  · have h1 : (((s.writeBytes ls bs).stampLines key ls).mend ls).memWf = true := memWf_mend (memWf_stampLines (memWf_writeBytes h))
    rcases swz with _ | c
    · exact memWf_pushes h1
    · exact memWf_pushes (memWf_swizzleTags h1)

theorem memWf_deviceWrite {s : State} {pa : Nat} {bs : List Byte} (h : s.memWf = true) : (State.deviceWrite s pa bs).memWf = true :=
  memWf_performWrite h

theorem memWf_setCtxField {s : State} {ctx off n v : Nat} (h : s.memWf = true) : (State.setCtxField s ctx off n v).memWf = true :=
  memWf_deviceWrite h

theorem memWf_updateLine {s : State} {core off : Nat} {b : Byte} (h : s.memWf = true) : (State.updateLine s core off b).memWf = true :=
  memWf_of_fields h

theorem memWf_dropLines {s : State} {core : Nat} {p : Nat → Bool} (h : s.memWf = true) : (State.dropLines s core p).memWf = true :=
  memWf_of_fields h

theorem memWf_dropWritten {s : State} {core : Nat} {ls : List Loc} (h : s.memWf = true) : (State.dropWritten s core ls).memWf = true :=
  memWf_dropLines h

theorem memWf_fillLine {s : State} {core : Nat} {d : Die} {off : Nat} (h : s.memWf = true) : (State.fillLine s core d off).memWf = true := by
  unfold State.fillLine
  simp only
  repeat' split
  · exact h
  · exact memWf_of_fields h
  · exact memWf_of_fields h
  · exact memWf_of_fields h

/-! ### Waking lanes -/

theorem memWf_putDword {s : State} {key : Nat} {l : Loc} {w : DWord} (h : s.memWf = true) : (State.putDword s key l w).memWf = true := by
  unfold State.putDword
  repeat' split
  · exact h
  · exact memWf_performWrite h

theorem memWf_lockAnswer {s : State} {w : LockWait} {v : Bool} (h : s.memWf = true) : (State.lockAnswer s w v).memWf = true := by
  unfold State.lockAnswer
  simp only
  repeat' split
  all_goals exact memWf_modGang h

theorem memWf_strikeOnce {s : State} {b g : Nat} {t : Trap} (h : s.memWf = true) : (State.strikeOnce s b g t).memWf = true := by
  unfold State.strikeOnce
  repeat' split
  · exact h
  · exact memWf_strike h
  · exact h

theorem memWf_tryWaiter {s : State} {w : LockWait} (h : s.memWf = true) : (State.tryWaiter s w).memWf = true := by
  unfold State.tryWaiter
  simp only
  repeat' split
  · exact h
  · exact memWf_strikeOnce h
  · exact h
  · exact memWf_strikeOnce h
  · exact memWf_lockAnswer (memWf_update (memWf_putDword h) rfl)

theorem memWf_retryLocks {s : State} (h : s.memWf = true) : (State.retryLocks s).memWf = true := by
  unfold State.retryLocks
  exact memWf_foldl (fun z w hz => memWf_tryWaiter hz) h

theorem memWf_dropWaiter {s : State} {w : LockWait} (h : s.memWf = true) : (State.dropWaiter s w).memWf = true := by
  unfold State.dropWaiter
  simp only
  repeat' split
  · exact memWf_strikeOnce h
  · exact memWf_lockAnswer (memWf_putDword (memWf_of_fields h))
  · exact memWf_lockAnswer (memWf_of_fields h)

theorem memWf_unpinOpt {s : State} {n : Option Nat} (h : s.memWf = true) : (State.unpinOpt s n).memWf = true := by
  unfold State.unpinOpt
  repeat' split
  · exact memWf_unpin h
  · exact h

theorem memWf_dropApq {s : State} {d : Die} {core q : Nat} (h : s.memWf = true) : (State.dropApq s d core q).memWf = true :=
  memWf_unpinOpt (memWf_of_fields h)

theorem memWf_releaseApq {s : State} {d : Die} {core q : Nat} (h : s.memWf = true) : (State.releaseApq s d core q).memWf = true := by
  unfold State.releaseApq
  repeat' split
  · exact memWf_dropApq h
  · exact h
  · exact h

/-- A wait that traps keeps its block's memory. -/
theorem mem_of_tbWait {x x' : Block} {off : Nat} {phase : BitVec 4} {kd : Option Nat} {t : Trap} (h : x.tbWait off phase kd = .trap t x') : x'.mem = x.mem := by
  unfold Block.tbWait Block.barCause at h
  simp only at h
  split at h
  · cases h
    rfl
  split at h
  · cases h
  split at h
  · next tr x1 hc =>
    cases h
    split at hc
    · cases hc
      rfl
    · split at hc <;> cases hc
      rfl
  · cases h

theorem mem_of_tagWait {x x' : Block} {m : DWord} {all : Bool} {t : Trap} (h : x.tagWait m all = .trap t x') : x'.mem = x.mem := by
  unfold Block.tagWait Block.tagCause at h
  split at h
  · split at h
    · next tr x1 hc =>
      cases h
      obtain ⟨i, -, hi⟩ := Option.bind_eq_some_iff.1 hc
      obtain ⟨c, -, hc'⟩ := Option.map_eq_some_iff.1 hi
      cases hc'
      rfl
    · cases h
  · cases h

theorem mem_of_testWait {s : State} {x x' : Block} {y : Gang} {l : Lane} {t : Trap} (h : s.testWait x y l = .trap t x') : x'.mem = x.mem := by
  unfold State.testWait at h
  split at h
  · exact mem_of_tbWait h
  · exact mem_of_tagWait h
  · split at h
    · cases h
      rfl
    · split at h <;> cases h
  · split at h <;> cases h
  · split at h <;> cases h
  · split at h <;> cases h
  · split at h <;> cases h
  · split at h
    · cases h
      rfl
    · split at h
      · cases h
      · split at h <;> cases h
        rfl
  · cases h

theorem memWf_wakeLane {s : State} {b g l : Nat} (h : s.memWf = true) : (State.wakeLane s b g l).memWf = true := by
  unfold State.wakeLane
  split
  · exact h
  · next x y hg =>
    have hw := wf_of_gang? h hg
    simp only
    split
    · exact h
    · split
      · exact h
      · exact memWf_setGang h
      · exact memWf_setGang h
      · exact memWf_setGang h
      · next t x' ht => exact memWf_takeTrap (memWf_setGang (memWf_setBlock h (by rw [mem_of_testWait ht]; exact hw)))
      · exact memWf_releaseApq (memWf_setGang (memWf_setApq h))

theorem memWf_wakeGang {s : State} {b g : Nat} (h : s.memWf = true) : (State.wakeGang s b g).memWf = true := by
  unfold State.wakeGang
  exact memWf_foldl (fun z l hz => memWf_wakeLane hz) h

theorem memWf_settle {s : State} (h : s.memWf = true) : (State.settle s).memWf = true := by
  unfold State.settle
  refine memWf_foldl (fun z x hz => ?_) (memWf_retryLocks h)
  split
  · refine memWf_foldl (fun w g hw => ?_) hz
    split
    · exact memWf_wakeGang hw
    · exact hw
  · exact hz

theorem memWf_parkLanding {s : State} {z : Block} {off : Nat} {n : Int} (h : s.memWf = true) : (State.parkLanding s z off n).memWf = true := by
  unfold State.parkLanding
  simp only
  refine memWf_modBlock ?_ fun x hx => hx
  split
  · split
    · exact memWf_strikeOnce h
    · exact memWf_performWrite (memWf_performWrite h)
  · exact h

theorem wf_setTb {x : Block} {off : Nat} {t : Tb} (h : Memory.wf x.mem = true) : Memory.wf (x.setTb off t).mem = true := Memory.wf_write _ _ _ h

theorem memWf_land {s : State} {x : Block} {c : Word} {n : Int} (h : s.memWf = true) : (State.land s x c n).memWf = true := by
  unfold State.land
  split
  · exact h
  · split
    · exact h
    · split
      · exact memWf_parkLanding h
      · exact memWf_modBlock h fun z hz => wf_setTb hz

theorem wf_addDeferred {x : Block} {e : Deferred} (h : Memory.wf x.mem = true) : Memory.wf (x.addDeferred e).mem = true := by
  unfold Block.addDeferred
  split <;> exact h

theorem memWf_complete {s : State} {x : Block} {c : Word} {remaining status : Nat} {detail : DWord}
    {cause : Option (BitVec 8 × DWord)} (h : s.memWf = true) :
    (State.complete s x c remaining status detail cause).memWf = true := by
  unfold State.complete
  split
  · have h1 : (if remaining = 0 then s else s.land x c remaining).memWf = true := by
      split
      · exact h
      · exact memWf_land h
    simp only
    split
    · exact memWf_modBlock h1 fun z hz => wf_addDeferred hz
    · exact h1
  · refine memWf_modBlock h fun z hz => ?_
    split
    · exact hz
    · exact hz

theorem memWf_dropOp {s : State} {id : Nat} (h : s.memWf = true) : (State.dropOp s id).memWf = true := by
  unfold State.dropOp
  simp only
  repeat' split
  · exact h
  · exact memWf_unpin (memWf_of_fields h)
  · exact memWf_of_fields h

theorem memWf_setOp {s : State} {o : Op} (h : s.memWf = true) : (State.setOp s o).memWf = true := memWf_of_fields h

/-! ### Fences and lines -/

theorem memWf_acquireDrop {s : State} {x : Block} {sc : Nat} {o : DWord} (h : s.memWf = true) : (State.acquireDrop s x sc o).memWf = true := by
  unfold State.acquireDrop
  repeat' split
  · exact h
  · exact memWf_dropLines h

theorem memWf_fullDrop {s : State} {x : Block} {sc : Nat} (h : s.memWf = true) : (State.fullDrop s x sc).memWf = true := by
  unfold State.fullDrop
  repeat' split
  · exact h
  · exact memWf_dropLines h

theorem memWf_pruneFences {s : State} {b g : Nat} (h : s.memWf = true) : (State.pruneFences s b g).memWf = true := memWf_modGang h

/-! ### Loads and stores -/

theorem memWf_completePend {s : State} {b g id : Nat} (h : s.memWf = true) : (State.completePend s b g id).memWf = true := by
  unfold State.completePend
  repeat' split
  · exact h
  · exact h
  · exact h
  · exact memWf_settle (memWf_update (memWf_setGang h) rfl)

theorem memWf_onBlock {s : State} {b : Nat} {f : State → State} (h : s.memWf = true) (hf : ∀ z : State, z.memWf = true → (f z).memWf = true) :
    (State.onBlock s b f).memWf = true := by
  unfold State.onBlock
  split
  · exact hf _ h
  · split
    · exact hf _ h
    · next x hx =>
      have h0 : (State.memWf { s with blocks := s.blocks ++ [{ x with mem := [] }], ended := s.ended.filter fun y => y.id ≠ b }) = true := by
        refine memWf_of_blocks h rfl rfl rfl rfl fun z hz => ?_
        rcases List.mem_append.1 hz with hz | hz
        · exact wf_of_mem h hz
        · rw [List.mem_singleton.1 hz]
          rfl
      have h1 := hf _ h0
      simp only
      split
      · exact h1
      · have h2 := memWf_of_blocks (t := { (f { s with blocks := s.blocks ++ [{ x with mem := [] }], ended := s.ended.filter fun y => y.id ≠ b }) with
            blocks := (f { s with blocks := s.blocks ++ [{ x with mem := [] }], ended := s.ended.filter fun y => y.id ≠ b }).blocks.filter fun z => z.id ≠ b })
          h1 rfl rfl rfl rfl fun z hz => wf_of_mem h1 (List.mem_filter.1 hz).1
        split
        · exact h2
        · exact memWf_of_fields h2

theorem memWf_storeBytes {s : State} {x : Block} {a : LaneAcc} {bs : List (Nat × Byte)} (h : s.memWf = true) :
    (State.storeBytes s x a bs).memWf = true := by
  unfold State.storeBytes
  simp only
  split
  · exact memWf_foldl (fun z q hz => memWf_updateLine hz) (memWf_performWrite h)
  · exact memWf_performWrite h

theorem memWf_storePerform {s : State} {b g id lane : Nat} {only : Option Nat} (h : s.memWf = true) :
    (State.storePerform s b g id lane only).memWf = true := by
  unfold State.storePerform
  split
  · exact h
  split
  · exact h
  split
  · exact h
  split
  · exact h
  split
  · exact memWf_strike h
  simp only
  split
  · exact memWf_settle (memWf_pruneFences (memWf_finishPend (memWf_storeBytes (memWf_setGang h))))
  · split
    · exact memWf_settle (memWf_storeBytes (memWf_setGang h))
    · exact h

theorem memWf_readBytes {s : State} {core : Nat} {cached : Bool} {a : LaneAcc} (h : s.memWf = true) : (s.readBytes core cached a).2.memWf = true := by
  unfold State.readBytes
  refine foldl_keeps (P := fun q : List Byte × State => q.2.memWf = true) (fun q i hq => ?_) _ _ h
  split
  · exact hq
  · split
    · exact memWf_fillLine hq
    · exact hq

theorem memWf_of_readBytes {s t : State} {core : Nat} {cached : Bool} {a : LaneAcc} {bs : List Byte} (h : s.memWf = true)
    (ht : s.readBytes core cached a = (bs, t)) : t.memWf = true := by
  have h1 := memWf_readBytes (core := core) (cached := cached) (a := a) h
  rwa [ht] at h1

theorem memWf_readPerform {s : State} {b g id lane : Nat} {only : Option Nat} (h : s.memWf = true) :
    (State.readPerform s b g id lane only).memWf = true := by
  unfold State.readPerform
  split
  · exact h
  split
  · exact h
  split
  · exact h
  split
  · exact h
  split
  · exact memWf_strike h
  · split
    next hr => exact memWf_pruneFences (memWf_setGang (memWf_of_readBytes h hr))
  · split
    · split
      next hr => exact memWf_setGang (memWf_of_readBytes h hr)
    · exact h

/-! ### Locks and barriers -/

theorem memWf_reportRelease {s : State} {a : Loc} (h : s.memWf = true) : (State.reportRelease s a).memWf = true := by
  refine memWf_of_blocks h rfl rfl rfl rfl fun x hx => ?_
  obtain ⟨z, hz, rfl⟩ := List.mem_map.1 hx
  have hw := wf_of_mem h hz
  split <;> exact hw

theorem memWf_releaseAnswer {s : State} {b g : Nat} {p : Pend} {lane : Nat} {v : Bool} (h : s.memWf = true) :
    (State.releaseAnswer s b g p lane v).memWf = true := by
  unfold State.releaseAnswer
  simp only
  repeat' split
  all_goals exact memWf_modGang h

theorem memWf_lockAt {s : State} {b g : Nat} {p : Pend} {a : LaneAcc} (h : s.memWf = true) : (State.lockAt s b g p a).memWf = true := by
  unfold State.lockAt
  simp only
  have lockHeld : ∀ w' : DWord, (s.putDword (s.keyOf b) a.loc w').memWf = true := fun w' => memWf_putDword h
  split
  · split
    · exact memWf_lockAnswer (lockHeld _)
    · split
      · exact memWf_lockAnswer h
      · split
        · exact memWf_of_fields (memWf_modGang (lockHeld _))
        · exact memWf_of_fields (memWf_modGang h)
  · split
    · exact memWf_lockAnswer (lockHeld _)
    · split
      · exact memWf_lockAnswer h
      · split
        · exact memWf_of_fields (memWf_modGang (lockHeld _))
        · exact memWf_of_fields (memWf_modGang h)
  · split
    · exact memWf_reportRelease (memWf_releaseAnswer (lockHeld _))
    · exact memWf_releaseAnswer h
  · split
    · exact memWf_reportRelease (memWf_releaseAnswer (lockHeld _))
    · exact memWf_releaseAnswer h
  · exact memWf_releaseAnswer (lockHeld _)

theorem memWf_atomAt {s : State} {x : Block} {p : Pend} {a : LaneAcc} (h : s.memWf = true) : (s.atomAt x p a).1.memWf = true := by
  unfold State.atomAt
  simp only
  split
  · exact memWf_dropWritten (memWf_performWrite h)
  · exact h

theorem memWf_refuseAt {s : State} {at_ : Loc → Bool} {b g id : Nat} (h : s.memWf = true) : (State.refuseAt s at_ b g id).memWf = true := by
  unfold State.refuseAt
  split
  · exact h
  split
  · exact h
  simp only
  split
  · exact h
  split
  · exact h
  split
  · exact memWf_setGang h
  · exact memWf_finishPend (memWf_takeTrap (memWf_of_fields (memWf_setGang h)))

theorem memWf_atomicRefused {s : State} {b g id : Nat} (h : s.memWf = true) : (State.atomicRefused s b g id).memWf = true := memWf_refuseAt h

theorem memWf_refuseLease {s : State} {i : Nat} (h : s.memWf = true) : (State.refuseLease s i).memWf = true := by
  unfold State.refuseLease
  refine memWf_foldl (fun z x hz => memWf_foldl (fun w q hw => memWf_foldl (fun v p hv => ?_) hw) hz) h
  exact memWf_onBlock hv fun u hu => memWf_refuseAt hu

theorem memWf_performAtom {s : State} {x : Block} {b g : Nat} {y : Gang} {p : Pend} {a : LaneAcc} (h : s.memWf = true) :
    (State.performAtom s x b g y p a).memWf = true := by
  unfold State.performAtom
  split
  · exact memWf_strike (memWf_setGang h)
  · simp only
    split
    · exact memWf_settle (memWf_pruneFences (memWf_finishPend (memWf_modGang (memWf_atomAt h))))
    · exact memWf_settle (memWf_pruneFences (memWf_finishPend (memWf_lockAt h)))

theorem memWf_atomicPerform {s : State} {b g id lane : Nat} (h : s.memWf = true) : (State.atomicPerform s b g id lane).memWf = true := by
  unfold State.atomicPerform
  simp only
  repeat' split
  · exact h
  · exact h
  · exact h
  · exact h
  · exact memWf_atomicRefused h
  · exact memWf_atomicRefused h
  · exact memWf_performAtom h
  · exact h
  · exact memWf_performAtom h

theorem memWf_setCbar {s : State} {c : CBar} (h : s.memWf = true) : (State.setCbar s c).memWf = true := memWf_of_fields h

theorem memWf_testCbar {s : State} {u fuel : Nat} (h : s.memWf = true) : (State.testCbar s u fuel).memWf = true := by
  induction fuel generalizing s with
  | zero => exact h
  | succ n ih =>
    unfold State.testCbar
    simp only
    split
    · exact ih (memWf_setCbar h)
    · exact h

theorem memWf_expire {s : State} {b g l : Nat} {isKind : Wait → Option Nat} (h : s.memWf = true) : (State.expire s b g l isKind).memWf = true := by
  unfold State.expire
  simp only
  repeat' split
  · exact h
  · exact h
  · exact h
  · exact memWf_settle (memWf_setGang h)

theorem memWf_inheritLink {s : State} {old : List (Nat × Nat × Int × Int)} (h : s.memWf = true) : (State.inheritLink s old).memWf = true := by
  refine memWf_of_blocks h rfl rfl rfl rfl fun x hx => ?_
  obtain ⟨z, hz, rfl⟩ := List.mem_map.1 hx
  have hw := wf_of_mem h hz
  exact hw

end Sys2Proof.Laws
end

section
/-! SUPPORT. The canonical form of the memories is kept by the steps of copies, the matrix engine, standing loads, address programs and collectives. -/

namespace Sys2Proof.Laws

open Sys2Proof Sys2Proof.Machine

-- In turn, not in parallel: these many short proofs, each waiting for the equations of its own function, would take
-- more threads at a time than the memory holds stacks for.
set_option Elab.async false

/-! ### Tags -/

theorem memWf_putBlock {s : State} {x : Block} (h : s.memWf = true) (hx : Memory.wf x.mem = true) : (State.putBlock s x).memWf = true := by
  unfold State.putBlock
  exact memWf_modBlock h fun z hz => hx

/-! ### Copies -/

theorem memWf_markTag {s : State} {x : Block} {c : Word} (h : s.memWf = true) : (State.markTag s x c).memWf = true := by
  unfold State.markTag
  split
  · exact h
  · exact memWf_modBlock h fun z hz => hz

theorem memWf_openOp {s t : State} {c : Ctx} {kind : OpKind} {compl : Word} {pin : Bool} {rd wr : List (DWord × Nat)} {point : Nat} (h : s.memWf = true)
    (ht : s.openOp c kind compl pin rd wr point = some t) : t.memWf = true := by
  unfold State.openOp at ht
  split at ht
  · cases ht
  · next s1 hs =>
    obtain rfl := Option.some.inj ht
    have h1 : s1.memWf = true := by
      split at hs
      · exact memWf_pin h hs
      · obtain rfl := Option.some.inj hs
        exact h
    exact memWf_of_fields (memWf_modGang (memWf_markTag (c := compl) (x := c.x) h1))

theorem memWf_endOp {s : State} {o : Op} {status : Nat} {detail : DWord} {cause : Option (BitVec 8 × DWord)} (h : s.memWf = true) :
    (State.endOp s o status detail cause).memWf = true := by
  unfold State.endOp
  split
  · exact memWf_dropOp h
  · exact memWf_settle (memWf_dropOp (memWf_complete h))

theorem memWf_fillEntry {s : State} {x : Block} {q id off : Nat} {bs : List Byte} {last : Bool} (h : s.memWf = true) :
    (State.fillEntry s x q id off bs last).memWf = true := by
  unfold State.fillEntry
  repeat' split
  · exact h
  · exact memWf_setApq h

theorem memWf_passPin {s : State} {x : Block} {q : Nat} {a : ApQueue} {o : Op} (h : s.memWf = true) : (State.passPin s x q a o).memWf = true := by
  unfold State.passPin
  repeat' split
  · exact memWf_setOp (memWf_setApq h)
  · exact h

theorem memWf_endPin {s : State} {x : Block} {q : Nat} {a : ApQueue} (h : s.memWf = true) : (State.endPin s x q a).memWf = true := by
  unfold State.endPin
  repeat' split
  · exact h
  · exact memWf_unpinOpt (memWf_setApq h)

theorem memWf_endProgram {s : State} {x : Block} {q : Nat} (h : s.memWf = true) : (State.endProgram s x q).memWf = true := by
  unfold State.endProgram
  split
  · exact h
  split
  · exact h
  split
  · exact h
  split
  · exact memWf_settle (memWf_releaseApq (memWf_endOp (memWf_passPin h)))
  · exact memWf_settle (memWf_releaseApq (memWf_endPin h))

theorem memWf_entryFault {s : State} {o : Op} {a : DWord} {c : BitVec 8} (h : s.memWf = true) : (State.entryFault s o a c).memWf = true :=
  memWf_endOp h

theorem memWf_sectorReadWith {s : State} {o : Op} {x : Block} {i : Nat} {f : List Loc → State} (h : s.memWf = true) (hf : ∀ ls, (f ls).memWf = true) :
    (State.sectorReadWith s o x i f).memWf = true := by
  unfold State.sectorReadWith
  simp only
  split
  · exact memWf_entryFault h
  split
  · split
    · exact h
    · exact memWf_strike h
  split
  · split
    · split
      · refine memWf_noteError (memWf_endOp ?_)
        split
        · exact memWf_poisonFrame h
        · exact h
      · exact memWf_strike h
    · exact memWf_strike h
  · exact hf _

theorem memWf_sectorRead {s : State} {o : Op} {x : Block} {i : Nat} (h : s.memWf = true) : (State.sectorRead s o x i).memWf = true := by
  exact memWf_sectorReadWith h fun ls => memWf_setOp h

theorem memWf_byteRead {s : State} {o : Op} {x : Block} {i j : Nat} (h : s.memWf = true) : (State.byteRead s o x i j).memWf = true := by
  unfold State.byteRead
  split
  · exact h
  · refine memWf_sectorReadWith h fun ls => ?_
    split
    · exact memWf_setOp h
    · exact h

theorem memWf_kvlAcquire {s : State} {x : Block} {k : OpKind} (h : s.memWf = true) : (State.kvlAcquire s x k).memWf = true := by
  unfold State.kvlAcquire
  split
  · exact memWf_foldl (fun z p hz => memWf_acquireDrop hz) h
  · exact h

theorem memWf_probeFault {s : State} {leased : State → Option Nat → Loc → Bool} {o : Op} {x : Block} {a : DWord} {c : BitVec 8} (h : s.memWf = true) :
    (State.probeFault s leased o x a c).memWf = true := by
  unfold State.probeFault
  simp only
  split
  · exact h
  · exact memWf_entryFault (memWf_kvlAcquire (memWf_dropWritten (memWf_performWrite h)))

theorem memWf_kvlRead {s : State} {leased : State → Option Nat → Loc → Bool} {o : Op} {x : Block} {i : Nat} (h : s.memWf = true) :
    (State.kvlRead s leased o x i).memWf = true := by
  unfold State.kvlRead
  simp only
  repeat' split
  · exact h
  · exact memWf_probeFault h
  · exact memWf_probeFault h
  · exact h
  · exact memWf_strike h
  · exact memWf_strike (memWf_endOp h)
  · exact memWf_setOp h
  · exact h

theorem memWf_sectorLanded {s : State} {o : Op} {x : Block} {i n : Nat} (h : s.memWf = true) : (State.sectorLanded s o x i n).memWf = true := by
  unfold State.sectorLanded
  simp only
  split
  · split
    · exact memWf_settle (memWf_endProgram (memWf_dropOp (memWf_fillEntry (memWf_setOp h))))
    · exact memWf_fillEntry (memWf_setOp h)
  · split
    · exact memWf_endOp (memWf_kvlAcquire (memWf_land (memWf_setOp h)))
    · exact memWf_settle (memWf_land (memWf_setOp h))

theorem memWf_sectorWriteWith {s : State} {leased : State → Option Nat → Loc → Bool} {o : Op} {x : Block} {i : Nat}
    {f : List (Loc × Byte) → State} (h : s.memWf = true) (hf : ∀ l, (f l).memWf = true) :
    (State.sectorWriteWith s leased o x i f).memWf = true := by
  unfold State.sectorWriteWith
  split
  · exact h
  split
  · exact memWf_entryFault h
  simp only
  split
  · split
    · exact h
    · exact memWf_strike h
  split
  · exact h
  split
  · split
    · exact memWf_logFound (memWf_endOp h)
    · exact memWf_strike h
  · exact hf _

theorem memWf_copyBytes {s : State} {o : Op} {x : Block} {l : List (Loc × Byte)} (h : s.memWf = true) : (State.copyBytes s o x l).memWf = true :=
  memWf_dropWritten (memWf_performWrite h)

theorem memWf_sectorWrite {s : State} {leased : State → Option Nat → Loc → Bool} {o : Op} {x : Block} {i : Nat} (h : s.memWf = true) :
    (State.sectorWrite s leased o x i).memWf = true := by
  exact memWf_sectorWriteWith h fun l => memWf_sectorLanded (memWf_copyBytes h)

theorem memWf_byteWrite {s : State} {leased : State → Option Nat → Loc → Bool} {o : Op} {x : Block} {i j : Nat} (h : s.memWf = true) :
    (State.byteWrite s leased o x i j).memWf = true := by
  unfold State.byteWrite
  split
  · exact h
  · refine memWf_sectorWriteWith h fun l => ?_
    split
    · exact memWf_settle (memWf_setOp (memWf_copyBytes h))
    · exact h

theorem memWf_copyFault {s : State} {o : Op} {x : Block} {t : Trap} (h : s.memWf = true) : (State.copyFault s o x t).memWf = true := by
  unfold State.copyFault
  extract_lets back s1 run tr
  have h1 : s1.memWf = true := by
    unfold s1
    split
    · exact h
    · split
      · exact memWf_land h
      · exact h
  exact memWf_of_fields (s := s1) h1

/-! ### The matrix engine -/

theorem memWf_accept {s : State} {b : Nat} {o : MatOp} (h : s.memWf = true) : (State.accept s b o).memWf = true := by
  unfold State.accept
  refine memWf_modBlock h fun z hz => ?_
  extract_lets x1
  split <;> exact hz

theorem memWf_openMat {s : State} {b g seq : Nat} {k : MatKind} {compl : Word} {slot cons : Option Nat} {charge point : Nat} (h : s.memWf = true) :
    (State.openMat s b g seq k compl slot cons charge point).memWf = true := by
  unfold State.openMat
  simp only
  repeat' split
  all_goals exact memWf_accept (memWf_update (memWf_modGang h) rfl)

theorem memWf_testCv {s : State} {b g n : Nat} (h : s.memWf = true) : (State.testCv s b g n).memWf = true := by
  unfold State.testCv
  split
  · exact h
  next x hx =>
  extract_lets +onlyGivenNames v
  split
  · next w sb tag _ _ =>
    extract_lets +onlyGivenNames s0
    have h0 : s0.memWf = true := by
      unfold s0
      split
      · exact memWf_overrun h
      · exact h
    split
    · exact h0
    · exact memWf_openMat (memWf_modBlock (memWf_charge h0) fun z hz => hz)
  · exact h

theorem memWf_testCvs {s : State} {b g : Nat} (h : s.memWf = true) : (State.testCvs s b g).memWf = true := by
  unfold State.testCvs
  exact memWf_foldl (fun z n hz => memWf_testCv hz) h

theorem memWf_retestCvs {s : State} {ent : Nat} (h : s.memWf = true) : (State.retestCvs s ent).memWf = true := by
  unfold State.retestCvs
  exact memWf_foldl (fun z x hz => memWf_foldl (fun w n hw => memWf_testCv hw) hz) h

theorem mem_setTile (x : Block) (z : Nat) (t : Tile) : (x.setTile z t).mem = x.mem := rfl

theorem mem_attResult (d : List Byte) (data : List (List Byte)) (x : Block) : (attResult d data x).mem = x.mem := by
  unfold attResult
  extract_lets +onlyGivenNames dim n q ks vs any
  refine foldl_keeps (P := fun z => z.mem = x.mem) (fun z r hz => ?_) _ x rfl
  split
  · exact hz
  · exact (mem_setTile _ _ _).trans (foldl_keeps (P := fun w => w.mem = x.mem) (fun w p hw => (mem_setTile _ _ _).trans hw) _ z hz)

theorem mem_result (o : MatOp) (x : Block) : (o.result x).mem = x.mem := by
  unfold MatOp.result
  extract_lets data
  split
  case h_7 => exact mem_attResult _ _ x
  all_goals rfl


theorem memWf_matComplete {s : State} {x : Block} {o : MatOp} (h : s.memWf = true) : (State.matComplete s x o).memWf = true := by
  unfold State.matComplete
  simp only
  have h1 := memWf_modBlock (b := x.id) (f := fun z => { o.result z with mops := z.mops.filter fun q => q.id ≠ o.id })
    (memWf_foldl (l := o.output x) (f := fun z p => z.performWrite 0 ((List.range p.2.length).map fun i => .loc x.id (uoff p.1 + i)) p.2 (some 0))
      (fun z p hz => memWf_performWrite hz) h) fun z hz => by rw [mem_result]; exact hz
  split
  · exact memWf_settle (memWf_dropOp h1)
  · exact memWf_settle (memWf_dropOp (memWf_complete h1))
  · exact h1

/-! ### Standing loads -/

theorem memWf_putLocal {s : State} {b off : Nat} {bs : List Byte} (h : s.memWf = true) : (State.putLocal s b off bs).memWf = true :=
  memWf_performWrite h

theorem memWf_subscribe {s : State} {u : Sub} (h : s.memWf = true) : (State.subscribe s u).memWf = true := by
  unfold State.subscribe
  simp only
  repeat' split
  · exact memWf_of_fields h
  · exact memWf_update (memWf_of_fields h) rfl

theorem memWf_closePlain {s : State} {u : Sub} (h : s.memWf = true) : (State.closePlain s u).memWf = true := by
  unfold State.closePlain
  repeat' split
  · exact memWf_closePoison h
  · exact memWf_closeSub h

theorem memWf_closeMoved {s : State} {u : Sub} (h : s.memWf = true) : (State.closeMoved s u).memWf = true := by
  unfold State.closeMoved
  repeat' split
  · exact memWf_closeUnread h
  · exact memWf_closeSub h

theorem memWf_finishOp {s : State} {o : Op} {status : Nat} (h : s.memWf = true) : (State.finishOp s o status).memWf = true := by
  unfold State.finishOp
  repeat' split
  · exact memWf_settle (memWf_dropOp h)
  · exact memWf_endOp h

theorem memWf_noteOldGill {s : State} {u : Sub} (h : s.memWf = true) : (State.noteOldGill s u).memWf = true := by
  unfold State.noteOldGill
  split
  · exact memWf_modBlock h fun z hz => hz
  · exact h

theorem memWf_delivered {s : State} {u : Sub} {p : Push} (h : s.memWf = true) : (State.delivered s u p).memWf = true := by
  unfold State.delivered
  extract_lets s1 s2 s3
  have h1 : s1.memWf = true := by
    unfold s1
    split
    · split
      · exact memWf_finishOp h
      · exact h
    · exact h
  have h3 : s3.memWf = true := by
    have h2 : s2.memWf = true := memWf_noteOldGill (memWf_of_fields h1)
    unfold s3
    split
    · exact memWf_unpin h2
    · exact h2
  split
  · exact h1
  · split
    · exact memWf_finishOp h3
    · exact h3

theorem memWf_deliverLocal {s : State} {u : Sub} {p : Push} {b base : Nat} (h : s.memWf = true) : (State.deliverLocal s u p b base).memWf = true := by
  unfold State.deliverLocal
  split
  · exact h
  · exact memWf_delivered (memWf_setSub (memWf_foldl (fun z w hz => memWf_putLocal hz) h))

theorem memWf_deliverLog {s : State} {u : Sub} {p : Push} {b : Nat} (h : s.memWf = true) : (State.deliverLog s u p b).memWf = true := by
  unfold State.deliverLog
  exact memWf_modBlock (memWf_setSub h) fun z hz => hz

theorem memWf_wakeDesc {s : State} {d : Die} {ctx tab : Nat} (h : s.memWf = true) : (State.wakeDesc s d ctx tab).memWf = true := by
  unfold State.wakeDesc
  simp only
  repeat' split
  · exact h
  · exact memWf_noticeOn (memWf_deviceWrite h)

theorem memWf_sendUsub {s : State} {b g seq : Nat} {compl : Word} {sub : Nat} (h : s.memWf = true) :
    (State.sendUsub s b g seq compl sub).memWf = true := memWf_of_fields h

theorem memWf_putBoth {s : State} {b off : Nat} {bs : List Byte} (h : s.memWf = true) : (State.putBoth s b off bs).memWf = true := by
  unfold State.putBoth
  simp only
  repeat' split
  · exact memWf_performWrite (memWf_putLocal h)
  · exact memWf_putLocal h
  · exact memWf_putLocal h

theorem memWf_cancelSld {s : State} {o : Op} {base : Nat} (h : s.memWf = true) : (State.cancelSld s o base).memWf = true :=
  memWf_putBoth (memWf_finishOp h)

theorem memWf_usub {s : State} {b g seq base : Nat} {compl : Word} (h : s.memWf = true) : (State.usub s b g seq base compl).memWf = true := by
  unfold State.usub
  simp only
  split
  · exact memWf_sendUsub h
  · split
    · exact memWf_sendUsub h
    · split
      · split
        · exact memWf_cancelSld h
        · exact memWf_settle (memWf_complete (memWf_cancelSld h))
      · exact memWf_cancelSld h
  · exact memWf_sendUsub h
  · split
    · split
      · exact h
      · exact memWf_settle (memWf_complete h)
    · exact h

/-! ### Address programs -/

theorem memWf_dropFetches {s : State} {b q : Nat} (h : s.memWf = true) : (State.dropFetches s b q).memWf = true := memWf_of_fields h

theorem memWf_stopProgram {s : State} {x : Block} {q : Nat} {a : ApQueue} {running : Nat} (h : s.memWf = true) :
    (State.stopProgram s x q a running).memWf = true := by
  unfold State.stopProgram
  simp only
  split
  · exact memWf_endOp (memWf_dropApq (memWf_dropFetches h))
  · exact memWf_dropApq (memWf_dropFetches h)

theorem memWf_apFault {s : State} {x : Block} {core q : Nat} {a : ApQueue} {t : Trap} (h : s.memWf = true) :
    (State.apFault s x core q a t).memWf = true := by
  unfold State.apFault
  simp only
  repeat' split
  · exact memWf_strike h
  · exact memWf_of_fields h

/-! ### Collectives -/

theorem memWf_countColl {s : State} {ent : Nat} (h : s.memWf = true) : (State.countColl s ent).memWf = true := by
  unfold State.countColl
  repeat' split
  · exact memWf_setEntry h
  · exact h

theorem memWf_freeBytes {s : State} {key : Nat} {ls : List Loc} (h : s.memWf = true) : (State.freeBytes s key ls).memWf = true :=
  memWf_update (memWf_performWrite h) rfl

theorem memWf_freeDst {s : State} {o : Op} {x : Block} (h : s.memWf = true) : (State.freeDst s o x).memWf = true := by
  unfold State.freeDst
  repeat' split
  · exact memWf_freeBytes h
  · exact h

theorem memWf_collDone {s : State} {o : Op} {x : Block} {others : List Byte} (h : s.memWf = true) : (State.collDone s o x others).memWf = true := by
  unfold State.collDone
  split
  · simp only
    split
    · exact h
    split
    · exact memWf_strike h
    · exact memWf_strike h
    · refine memWf_endOp (memWf_dropWritten ?_)
      split
      · exact memWf_freeBytes h
      · exact memWf_of_fields (memWf_performWrite h)
  · exact h

/-! ### The end of lanes -/

theorem memWf_implicitUsubs {s : State} {b g : Nat} (h : s.memWf = true) : (State.implicitUsubs s b g).memWf = true := by
  unfold State.implicitUsubs
  split
  · exact h
  · split
    · exact memWf_foldl (fun z base hz => memWf_usub hz) h
    · exact h

theorem memWf_testUnit {s : State} {x : Block} (h : s.memWf = true) : (State.testUnit s x).memWf = true := by
  unfold State.testUnit
  repeat' split
  · exact memWf_testCbar h
  · exact h

theorem memWf_afterExit {s : State} {x : Block} {g : Nat} (h : s.memWf = true) : (State.afterExit s x g).memWf = true := by
  exact memWf_settle (memWf_implicitUsubs (memWf_testUnit (memWf_modBlock (memWf_testCvs h) fun z hz => hz)))

/-! ### ENQR -/

theorem memWf_gather {s : State} {x : Block} {e : Entry} {nd : Node} {close : Bool} {rel : Nat} {data : List Byte} (h : s.memWf = true) :
    (State.gather s x e nd close rel data).memWf = true := by
  unfold State.gather
  simp only
  repeat' split
  all_goals exact memWf_setEntry (memWf_performWrite h)

end Sys2Proof.Laws
end

section
/-! SUPPORT. The canonical form of the memories is kept by the front end: records, walks, queues, entries, and the resolution of traps. -/

namespace Sys2Proof.Laws

open Sys2Proof Sys2Proof.Machine

-- In turn, not in parallel: these many short proofs, each waiting for the equations of its own function, would take
-- more threads at a time than the memory holds stacks for.
set_option Elab.async false

/-! ### The front end's accesses -/

theorem memWf_fePut {s : State} {space : Nat} {l : Loc} {bs : List Byte} (h : s.memWf = true) : (State.fePut s space l bs).memWf = true :=
  memWf_performWrite h

theorem memWf_strikeDue {s : State} {d : Die} {ctx : Nat} {t : Trap} (h : s.memWf = true) : (State.strikeDue s d ctx t).memWf = true := by
  unfold State.strikeDue
  simp only
  repeat' split
  · exact h
  · exact memWf_of_fields h

theorem memWf_strikeCtx {s : State} {d : Die} {ctx : Nat} {t : Trap} (h : s.memWf = true) : (State.strikeCtx s d ctx t).memWf = true :=
  memWf_strikeDue (memWf_noteError h)

theorem memWf_modFe {s : State} {d : Die} {f : FrontEnd → FrontEnd} (h : s.memWf = true) : (State.modFe s d f).memWf = true := memWf_of_fields h

theorem memWf_setQueue {s : State} {d : Die} {q : Nat} {x : Queue} (h : s.memWf = true) : (State.setQueue s d q x).memWf = true := memWf_modFe h

theorem memWf_setDescFlags {s : State} {ctx tab : Nat} {f : Byte} (h : s.memWf = true) : (State.setDescFlags s ctx tab f).memWf = true :=
  memWf_deviceWrite h

theorem memWf_postFault {s : State} {d : Die} {q : Nat} {cause : BitVec 8} (h : s.memWf = true) : (State.postFault s d q cause).memWf = true := by
  unfold State.postFault
  repeat' split
  · exact memWf_noticeOn (memWf_setQueue h)
  · exact h

theorem memWf_faultQueue {s : State} {d : Die} {q : Nat} {cause : BitVec 8} (h : s.memWf = true) : (State.faultQueue s d q cause).memWf = true := by
  unfold State.faultQueue
  repeat' split
  · exact h
  · exact memWf_postFault h

theorem memWf_faultQueueOf {s : State} {e : Entry} {cause : BitVec 8} (h : s.memWf = true) : (State.faultQueueOf s e cause).memWf = true := by
  unfold State.faultQueueOf
  repeat' split
  · exact memWf_postFault h
  · exact memWf_noticeOn (memWf_setDescFlags h)

theorem memWf_badWalk {s : State} {d : Die} {q ctx : Nat} {t : Trap} (h : s.memWf = true) : (State.badWalk s d q ctx t).memWf = true := by
  unfold State.badWalk
  repeat' split
  · exact memWf_strikeCtx (memWf_faultQueue h)
  · exact memWf_strikeCtx h

theorem memWf_feSubscribe {s : State} {d : Die} {ctx key : Nat} {who : SubWho} {l : Loc} {size : Nat} (h : s.memWf = true) :
    (State.feSubscribe s d ctx key who l size).memWf = true := by
  unfold State.feSubscribe
  simp only
  repeat' split
  · exact memWf_of_fields h
  · exact memWf_closePoison (memWf_subscribe (memWf_of_fields h))
  · exact memWf_subscribe (memWf_of_fields h)
  · exact memWf_subscribe (memWf_of_fields h)

theorem memWf_dropSub {s : State} {u : Sub} (h : s.memWf = true) : (State.dropSub s u).memWf = true := by
  unfold State.dropSub
  simp only
  repeat' split
  · exact memWf_freeRecord (memWf_unpin (memWf_of_fields h))
  · exact memWf_freeRecord (memWf_of_fields h)
  · exact memWf_unpin (memWf_of_fields h)
  · exact memWf_of_fields h

theorem memWf_takePush {s : State} {u : Sub} (h : s.memWf = true) : (State.takePush s u).memWf = true := memWf_setSub h

/-! ### Queues -/

theorem memWf_putDesc {s : State} {x : Queue} {mapped wake : Bool} (h : s.memWf = true) : (State.putDesc s x mapped wake).memWf = true :=
  memWf_deviceWrite (memWf_deviceWrite h)

theorem memWf_bindRing {s : State} {x : Queue} (h : s.memWf = true) : (State.bindRing s x).memWf = true := memWf_of_fields h

/-- A walk's answer that carries a state carries one of the canonical form. -/
theorem memWf_feWatch {s z : State} {d : Die} {ctx space : Nat} {who : SubWho} {a : DWord} {size : Nat} (h : s.memWf = true)
    (hz : s.feWatch d ctx space who a size = .ok z) : z.memWf = true := by
  unfold State.feWatch at hz
  split at hz
  · split at hz
    · obtain rfl := FeGet.ok.inj hz
      exact memWf_feSubscribe h
    · cases hz
  · cases hz
  · cases hz
  · cases hz


theorem memWf_watchIndex {s : State} {d : Die} {q : Nat} {x : Queue} (h : s.memWf = true) : (State.watchIndex s d q x).memWf = true := by
  unfold State.watchIndex
  split
  · exact memWf_pushAgain h
  · split
    · next z hz => exact memWf_feWatch h hz
    · exact memWf_faultQueue h
    · exact memWf_setQueue h
    · exact memWf_badWalk h

theorem memWf_watchWaitv {s : State} {d : Die} {q : Nat} {x : Queue} (h : s.memWf = true) : (State.watchWaitv s d q x).memWf = true := by
  unfold State.watchWaitv
  simp only
  repeat' split
  · exact memWf_pushAgain h
  · exact memWf_setSub h
  · exact h

theorem memWf_writeRidx {s : State} {d : Die} {q : Nat} (h : s.memWf = true) : (State.writeRidx s d q).memWf = true := by
  unfold State.writeRidx
  repeat' split
  · exact h
  · exact memWf_fePut h
  · exact memWf_faultQueue h
  · exact memWf_strikeCtx (memWf_faultQueue h)
  · exact h

theorem memWf_keepIndex {s : State} {d : Die} {q : Nat} (h : s.memWf = true) : (State.keepIndex s d q).memWf = true := by
  unfold State.keepIndex
  repeat' split
  · exact h
  · exact memWf_watchIndex h
  · exact h

theorem memWf_takeIndex {s : State} {d : Die} {q : Nat} {w : Word} (h : s.memWf = true) : (State.takeIndex s d q w).memWf = true := by
  unfold State.takeIndex
  simp only
  repeat' split
  · exact h
  · exact memWf_faultQueue (memWf_setQueue h)
  · exact memWf_setQueue h

/-! ### The end of an entry -/

theorem memWf_settleClass {s : State} {ctx cls n : Nat} (h : s.memWf = true) : (State.settleClass s ctx cls n).memWf = true :=
  memWf_setCtxField h

theorem memWf_settleEntry {s : State} {e : Entry} (h : s.memWf = true) : (State.settleEntry s e).memWf = true := by
  unfold State.settleEntry
  exact memWf_foldl (fun z c hz => memWf_settleClass hz) h

theorem memWf_dropEntry {s : State} {id : Nat} (h : s.memWf = true) : (State.dropEntry s id).memWf = true := memWf_of_fields h

theorem memWf_finishStep {s : State} {e : Entry} {w : DWord} (h : s.memWf = true) : (State.finishStep s e w).memWf = true := by
  unfold State.finishStep
  extract_lets s1 s2
  have h2 : s2.memWf = true := memWf_settleEntry (memWf_of_fields h)
  split
  · exact memWf_dropEntry h2
  · exact memWf_setEntry h2

theorem memWf_finish {s : State} {e : Entry} {cycle src code : Nat} (h : s.memWf = true) : (State.finish s e cycle src code).memWf = true := by
  unfold State.finish
  split
  · exact memWf_finishStep (memWf_dropEntry (memWf_settleEntry h))
  · exact memWf_finishStep h

/-- Some of the blocks of one state, in the place of those of another. -/
theorem memWf_filterBlocks {s t : State} {p : Block → Bool} (h : t.memWf = true) (hs : s.memWf = true) :
    State.memWf { t with blocks := s.blocks.filter p } = true :=
  memWf_of_blocks h rfl rfl rfl rfl fun _ hx => wf_of_mem hs (List.mem_filter.1 hx).1


theorem memWf_discardBlock {s : State} {x : Block} (h : s.memWf = true) : (State.discardBlock s x).memWf = true := by
  unfold State.discardBlock
  extract_lets +onlyGivenNames s1 s2 s3 pins s4 z s5
  have h1 : s1.memWf = true := memWf_foldl (fun z w hz => by
    split
    · exact memWf_putDword (memWf_of_fields hz)
    · exact memWf_of_fields hz) h
  have h2 : s2.memWf = true := memWf_foldl (fun z o hz => memWf_dropOp (memWf_freeDst hz)) h1
  have h3 : s3.memWf = true := memWf_foldl (fun z u hz => memWf_dropSub hz) h2
  have h4 : s4.memWf = true := memWf_foldl (fun z p hz => memWf_unpinOpt hz) (memWf_of_fields h3)
  clear_value s4
  have hz : z.memWf = true := memWf_unpin h4
  clear_value z
  have h5 : s5.memWf = true := memWf_filterBlocks hz h4
  clear_value s5
  split
  · exact h5
  · exact memWf_of_fields h5

theorem memWf_discardBlocks {s : State} {e : Entry} (h : s.memWf = true) : (State.discardBlocks s e).memWf = true := by
  unfold State.discardBlocks
  extract_lets +onlyGivenNames s1 s2
  have h2 : s2.memWf = true := memWf_foldl (fun z u hz => memWf_dropSub hz) (memWf_foldl (fun z x hz => memWf_discardBlock hz) h)
  split
  · exact memWf_setEntry h2
  · exact h2

theorem memWf_unwait {s : State} {e : Entry} (h : s.memWf = true) : (State.unwait s e).memWf = true := by
  unfold State.unwait
  repeat' split
  · exact memWf_setQueue h
  · exact h
  · exact memWf_setDescFlags h
  · exact h

theorem memWf_abortEntry {s : State} {id src code : Nat} (h : s.memWf = true) : (State.abortEntry s id src code).memWf = true := by
  unfold State.abortEntry
  split
  · exact h
  next e0 he =>
  extract_lets +onlyGivenNames e s1 s2
  have h1 : s1.memWf = true := by
    unfold s1
    split
    · exact memWf_discardBlocks h
    · exact h
  have h2 : s2.memWf = true := memWf_unwait (memWf_discardBlocks h1)
  split
  · exact h
  · split
    · exact memWf_settle (memWf_finish h2)
    · exact h2

theorem memWf_writeCmd {s : State} {d : Die} {v : Nat} (h : s.memWf = true) : (State.writeCmd s d v).memWf = true := by
  unfold State.writeCmd
  simp only
  repeat' split
  · exact h
  · exact memWf_modFe h

theorem memWf_grant {s : State} {e : Entry} {cls amount : Nat} (h : s.memWf = true) : (State.grant s e cls amount).memWf = true := by
  unfold State.grant
  exact memWf_retestCvs (memWf_releaseHeld (memWf_setEntry h))

theorem memWf_demoteNow {s : State} {ent : Nat} (h : s.memWf = true) : (State.demoteNow s ent).memWf = true := memWf_retestCvs (memWf_demote h)

theorem memWf_grantCmd {s : State} {e : Entry} {cls amount : Nat} (h : s.memWf = true) : (s.grantCmd e cls amount).1.memWf = true := by
  unfold State.grantCmd
  extract_lets hs
  split
  · exact h
  · split
    · exact h
    · exact memWf_foldl (fun z e hz => memWf_nextOverrun (memWf_grant hz)) h

theorem memWf_abortCmd {s : State} {e : Entry} (h : s.memWf = true) : (s.abortCmd e).1.memWf = true := by
  unfold State.abortCmd
  simp only
  split <;> exact memWf_abortEntry h


theorem memWf_command {s : State} {d : Die} {op : Nat} (h : s.memWf = true) : (State.command s d op).memWf = true := by
  unfold State.command
  extract_lets +onlyGivenNames c cls amount r
  have hr : r.1.memWf = true := by
    unfold r
    split
    · exact h
    · split
      · exact h
      · split
        · exact memWf_grantCmd h
        · exact memWf_foldl (fun z e hz => memWf_demoteNow hz) h
        · exact memWf_abortCmd h
  split
  · exact h
  · exact memWf_modFe hr

theorem memWf_commandNow {s : State} {d : Die} {q idx cls amount op : Nat} (h : s.memWf = true) :
    (State.commandNow s d q idx cls amount op).memWf = true := by
  unfold State.commandNow
  repeat' split
  · exact h
  · exact memWf_command (memWf_writeCmd h)

/-! ### Admission -/

theorem memWf_takeEntry {s : State} {d : Die} {q : Nat} (h : s.memWf = true) : (State.takeEntry s d q).memWf = true := by
  unfold State.takeEntry
  repeat' split
  · exact memWf_modFe (memWf_setQueue h)
  · exact h

theorem memWf_decideEntry {s : State} {d : Die} {q : Nat} {idx : Word} {code : Nat} (h : s.memWf = true) :
    (State.decideEntry s d q idx code).memWf = true := by
  unfold State.decideEntry
  split
  · exact h
  next x hx =>
  extract_lets +onlyGivenNames a s1
  have h1 : s1.memWf = true := by
    unfold s1
    split
    · exact memWf_fePut h
    · exact memWf_faultQueue h
    · exact memWf_strikeCtx (memWf_faultQueue h)
    · exact h
  split
  · exact memWf_writeRidx (memWf_setQueue h1)
  · exact h1

theorem memWf_addEntry {s : State} {e : Entry} (h : s.memWf = true) : (State.addEntry s e).memWf = true := memWf_of_fields h

theorem memWf_writeCompletion {s z : State} {e : Entry} {w : DWord} (h : s.memWf = true) (hz : s.writeCompletion e w = some z) : z.memWf = true := by
  unfold State.writeCompletion at hz
  split at hz
  · obtain rfl := Option.some.inj hz
    exact memWf_fePut h
  · obtain rfl := Option.some.inj hz
    exact memWf_noticeOn h
  · obtain rfl := Option.some.inj hz
    exact memWf_noticeOn (memWf_strikeCtx h)
  · cases hz

/-- An answer that may be missing, in place of which another state stands. -/
theorem memWf_getD {o : Option State} {s : State} (ho : ∀ z, o = some z → z.memWf = true) (h : s.memWf = true) : (o.getD s).memWf = true := by
  cases o with
  | none => exact h
  | some z => exact ho z rfl


theorem memWf_reject {s : State} {e : Entry} {code : Nat} (h : s.memWf = true) : (State.reject s e code).memWf = true := by
  unfold State.reject
  split
  · exact memWf_noticeOn h
  · extract_lets w
    split
    · exact h
    · exact memWf_getD (fun z hz => memWf_writeCompletion h hz) (memWf_addEntry h)

theorem memWf_finishNow {s : State} {e : Entry} {src code : Nat} (h : s.memWf = true) : (State.finishNow s e src code).memWf = true := by
  unfold State.finishNow
  repeat' split
  · exact h
  · exact memWf_addEntry h

theorem memWf_presentPlain {s : State} {d : Die} {q : Nat} {x : Queue} {e : Entry} {code : Nat}
    {f : State → State} (h : s.memWf = true) (hf : ∀ z : State, z.memWf = true → (f z).memWf = true) :
    (State.presentPlain s d q x e code f).memWf = true := by
  unfold State.presentPlain
  extract_lets s1
  have h1 : s1.memWf = true := memWf_decideEntry (memWf_takeEntry h)
  split
  · exact memWf_reject h1
  · exact hf s1 h1

theorem memWf_failWord {s : State} {e : Entry} {c : BitVec 8} (h : s.memWf = true) : (State.failWord s e c).memWf = true := by
  unfold State.failWord
  exact memWf_unwait (memWf_faultQueueOf (memWf_finish h))

theorem memWf_badWord {s : State} {e : Entry} {t : Trap} (h : s.memWf = true) : (State.badWord s e t).memWf = true := by
  unfold State.badWord
  repeat' split
  · exact memWf_strikeCtx (memWf_failWord h)
  · exact memWf_strikeCtx h

theorem memWf_fireWaitv {s : State} {u : Sub} {e : Entry} (h : s.memWf = true) : (State.fireWaitv s u e).memWf = true := by
  unfold State.fireWaitv
  extract_lets s1
  have h1 : s1.memWf = true := memWf_finish (memWf_unwait (memWf_dropSub h))
  split
  · exact memWf_wakeDesc h1
  · split
    · exact memWf_setQueue h1
    · exact h1
  · exact h1

theorem memWf_install {s : State} {ctx owner : Nat} {rows : List (List Byte)} (h : s.memWf = true) :
    (State.install s ctx owner rows).memWf = true := by
  unfold State.install
  refine memWf_foldl (fun z b hz => ?_) h
  split
  · exact memWf_of_fields hz
  · exact hz

theorem memWf_presentLaunch {s : State} {d : Die} {q : Nat} {x : Queue} {bs : List Byte} {node : Bool} (h : s.memWf = true) :
    (State.presentLaunch s d q x bs node).memWf = true := by
  unfold State.presentLaunch
  extract_lets +onlyGivenNames e0 refuse
  have hr : ∀ code, (refuse code).memWf = true := fun code => memWf_reject (memWf_decideEntry (memWf_takeEntry h))
  split
  · exact hr 9
  split
  · exact hr 7
  split
  · exact h
  · split
    · exact memWf_strikeCtx (hr 7)
    · exact memWf_strikeCtx h
  · exact hr 7
  · extract_lets
    split
    · exact memWf_addEntry (memWf_takeEntry h)
    split
    · exact hr _
    · exact memWf_install (memWf_addEntry (memWf_decideEntry (memWf_takeEntry h)))

/-! ### Before a word -/

theorem memWf_headerTrap {s : State} {x : Block} {g : Nat} {y : Gang} {m : Word} {pc : Va} {t : Trap} (h : s.memWf = true) :
    (headerTrap s x g y m pc t).memWf = true := by
  unfold headerTrap
  exact memWf_modGang (memWf_takeTrap (memWf_setGang h))

/-! ### Resolution of records -/

theorem memWf_readParam {s : State} {b : Nat} (h : s.memWf = true) : (State.readParam s b).memWf = true := by
  unfold State.readParam
  split
  · exact h
  next x hx =>
  have hw := wf_of_block? h hx
  split
  · exact h
  split
  · exact memWf_setBlock h (Memory.wf_write _ _ _ hw)
  · split
    · exact memWf_of_fields (s := s.setBlock { x with residence := .paramWait, param := some (s.nextId, false) }) (memWf_setBlock h hw)
    · exact memWf_strikeCtx (memWf_setBlock h hw)

theorem memWf_movePin {s : State} {o : Op} {slot : Nat} (h : s.memWf = true) : (State.movePin s o slot).memWf = true := by
  unfold State.movePin
  split
  · exact h
  split
  · exact h
  split
  · next s1 hs => exact memWf_unpin (memWf_setOp (memWf_pin h hs))
  · exact h

theorem memWf_moveQueuePin {s : State} {b q slot : Nat} (h : s.memWf = true) : (State.moveQueuePin s b q slot).memWf = true := by
  unfold State.moveQueuePin
  split
  · exact h
  split
  · exact h
  split
  · exact h
  split
  · next s1 hs => exact memWf_unpin (memWf_of_fields (memWf_pin h hs))
  · exact h

theorem memWf_replay {s : State} {id : Nat} (h : s.memWf = true) : (State.replay s id).memWf = true := by
  unfold State.replay
  simp only
  repeat' split
  · exact h
  · exact h
  · exact memWf_movePin (memWf_setOp h)

theorem memWf_failProgram {s : State} {x : Block} {q : Nat} {cause : BitVec 8} {va : DWord} (h : s.memWf = true) :
    (State.failProgram s x q cause va).memWf = true := by
  unfold State.failProgram
  split
  · exact h
  extract_lets s1
  have h1 : s1.memWf = true := memWf_dropApq (memWf_dropFetches h)
  split
  · exact memWf_endOp h1
  · exact h1

theorem memWf_resolveOp {s : State} {x : Block} {o : Op} {res : Nat} {cause : BitVec 8} (h : s.memWf = true) :
    (State.resolveOp s x o res cause).memWf = true := by
  unfold State.resolveOp
  extract_lets +onlyGivenNames s1
  have h1 : s1.memWf = true := memWf_refresh h
  split
  · split
    · exact h1
    · split
      · exact memWf_movePin (memWf_setApq h1)
      · exact memWf_failProgram h1
  · split
    · refine memWf_replay (memWf_moveQueuePin ?_)
      split
      · exact memWf_movePin h1
      · exact h1
    · exact memWf_failProgram h1
  · split
    · exact memWf_replay h1
    · exact memWf_endOp h1

theorem memWf_applyRes {s : State} {b n res : Nat} {cause : BitVec 8} (h : s.memWf = true) : (State.applyRes s b n res cause).memWf = true := by
  unfold State.applyRes
  split
  · exact h
  simp only
  split
  · split
    · exact memWf_abortEntry h
    · exact memWf_settle (memWf_modGang (memWf_refresh h))
  split
  · split
    · exact memWf_readParam (memWf_refresh h)
    · exact memWf_abortEntry h
  split
  · exact h
  split
  · exact memWf_settle (memWf_resolveOp h)
  · exact memWf_abortEntry h

theorem memWf_resolution {s : State} {b n res : Nat} {cause : BitVec 8} (h : s.memWf = true) : (State.resolution s b n res cause).memWf = true := by
  unfold State.resolution
  split
  · exact h
  next x hx =>
  split
  · have hw := wf_of_block? h hx
    exact memWf_setBlock h hw
  · exact memWf_applyRes h

theorem memWf_setTrapRing {s : State} {d : Die} {ctx : Nat} {r : TrapRing} (h : s.memWf = true) : (State.setTrapRing s d ctx r).memWf = true :=
  memWf_of_fields h

theorem memWf_watchRing {s : State} {d : Die} {ctx : Nat} (h : s.memWf = true) : (State.watchRing s d ctx).memWf = true := by
  unfold State.watchRing
  repeat' split
  · exact h
  · exact memWf_feSubscribe h

theorem memWf_handleRecords {s : State} {d : Die} {ctx : Nat} {upto : Word} {fuel : Nat} (h : s.memWf = true) :
    (State.handleRecords s d ctx upto fuel).memWf = true := by
  induction fuel generalizing s with
  | zero => exact h
  | succ k ih =>
    unfold State.handleRecords
    extract_lets +onlyGivenNames r
    split
    · exact h
    extract_lets +onlyGivenNames size res
    split
    · exact h
    extract_lets +onlyGivenNames s1 s2
    have h1 : s1.memWf = true := memWf_setTrapRing h
    refine ih ?_
    unfold s2
    split
    · exact memWf_onBlock h1 fun z hz => memWf_resolution hz
    · exact h1

end Sys2Proof.Laws
end

section
/-! SUPPORT. The canonical form of the memories is kept by placement and residency, by requests from outside, and by resets and the mailbox. -/

namespace Sys2Proof.Laws

open Sys2Proof Sys2Proof.Machine

-- In turn, not in parallel: these many short proofs, each waiting for the equations of its own function, would take
-- more threads at a time than the memory holds stacks for.
set_option Elab.async false

/-! ### Placement -/

theorem memWf_nodeLaunch {s : State} {id : Nat} {due : Entry → Node → Bool} (h : s.memWf = true) : (State.nodeLaunch s id due).memWf = true := by
  unfold State.nodeLaunch
  repeat' split
  · exact h
  · exact memWf_setEntry h
  · exact h
  · exact h

/-- A fresh block's memory has the canonical form. -/
theorem wf_startMem {r : LaunchRec} {recs : List (List Byte)} : Memory.wf (startMem r recs) = true :=
  foldl_keeps (P := fun m => Memory.wf m = true) (fun m _ hm => Memory.wf_write m _ _ hm) _ [] rfl

theorem memWf_pinCurrent {s z : State} {sp n : Nat} (h : s.memWf = true) (hz : s.pinCurrent sp = .slot n z) : z.memWf = true := by
  unfold State.pinCurrent at hz
  simp only at hz
  split at hz
  · cases hz
  split at hz
  · next t ht =>
    obtain ⟨-, rfl⟩ := PinAns.slot.inj hz
    exact memWf_pin h ht
  · cases hz

/-- One more block, whose memory has the canonical form. -/
theorem memWf_addBlock {s : State} {x : Block} (h : s.memWf = true) (hx : Memory.wf x.mem = true) : State.memWf { s with blocks := s.blocks ++ [x] } = true :=
  memWf_of_blocks h rfl rfl rfl rfl fun y hy => by
    rcases List.mem_append.1 hy with hy | hy
    · exact wf_of_mem h hy
    · obtain rfl := List.mem_singleton.1 hy
      exact hx

theorem memWf_placeBlocks {e : Entry} {l : List ((Occ × Nat) × (Nat × Option Nat × List Held))} {base : Nat} :
    ∀ {s z : State} {j : Nat}, s.memWf = true → s.placeBlocks e l base j = some z → z.memWf = true := by
  induction l with
  | nil =>
    intro s z j h hz
    obtain rfl := Option.some.inj hz
    exact h
  | cons p t ih =>
    intro s z j h hz
    unfold State.placeBlocks at hz
    split at hz
    · next n s1 hs =>
      obtain ⟨z', hz', rfl⟩ := Option.map_eq_some_iff.1 hz
      have h1 : s1.memWf = true := memWf_pinCurrent h hs
      refine memWf_readParam (ih ?_ hz')
      split
      · exact memWf_strikeCtx (memWf_setTags (memWf_addBlock h1 wf_startMem))
      · exact memWf_setTags (memWf_addBlock h1 wf_startMem)
    · cases hz

theorem memWf_placeEntries {es : List Entry} : ∀ {s z : State} {l : List (Occ × Nat)} {base : Nat},
    s.memWf = true → s.placeEntries es l base = some z → z.memWf = true := by
  induction es with
  | nil =>
    intro s z l base h hz
    obtain rfl := Option.some.inj hz
    exact h
  | cons e t ih =>
    intro s z l base h hz
    unfold State.placeEntries at hz
    simp only at hz
    split at hz
    · cases hz
    · next s2 hs => exact ih (memWf_placeBlocks (memWf_setEntry h) hs) hz


theorem memWf_placeAt {s : State} {e : Entry} {at_ : List (Nat × Nat)} (h : s.memWf = true) : (State.placeAt s e at_).memWf = true := by
  unfold State.placeAt
  extract_lets es is
  split
  · exact h
  split
  · exact h
  exact memWf_getD (fun z hz => memWf_placeEntries (memWf_of_fields h) hz) h

theorem memWf_endBlock {s : State} {x : Block} (h : s.memWf = true) : (State.endBlock s x).memWf = true := by
  unfold State.endBlock
  extract_lets s1
  have h1 : s1.memWf = true := memWf_discardBlock h
  clear_value s1
  split
  · exact h1
  · exact memWf_of_fields h1

/-! ### Residency -/

theorem memWf_refund {s : State} {ent cls n : Nat} (h : s.memWf = true) : (State.refund s ent cls n).memWf = true := by
  unfold State.refund
  repeat' split
  · exact h
  · exact memWf_setEntry h

theorem memWf_cancelCopy {s : State} {x : Block} {o : Op} (h : s.memWf = true) : (State.cancelCopy s x o).memWf = true := by
  unfold State.cancelCopy
  simp only
  repeat' split
  · exact memWf_setOp h
  · exact memWf_setOp (memWf_land h)
  · exact memWf_setOp h

theorem memWf_preemptBlock {s : State} {b : Nat} (h : s.memWf = true) : (State.preemptBlock s b).memWf = true := by
  unfold State.preemptBlock
  split
  · exact h
  next x hx =>
  have hw := wf_of_block? h hx
  extract_lets gs refund left mops copies mine s1 s2 s3
  have h1 : s1.memWf = true := memWf_setBlock h hw
  have h2 : s2.memWf = true := memWf_of_fields (s := s1) h1
  have h3 : s3.memWf = true := memWf_foldl (fun z o hz => memWf_cancelCopy hz) h2
  exact memWf_refund (memWf_refund h3)

theorem memWf_writeImage {s : State} {x : Block} {base : Nat} (h : s.memWf = true) : (State.writeImage s x base).memWf = true := by
  unfold State.writeImage
  extract_lets key put s1 s2 s3 s4
  have hp : ∀ {z : State} {off : Nat} {bs : List Byte}, z.memWf = true → (put z off bs).memWf = true := fun hz => memWf_performWrite hz
  have h2 : s2.memWf = true := memWf_foldl (fun z p hz => memWf_freeBytes (hp hz)) (hp h)
  have h4 : s4.memWf = true := memWf_foldl (fun z p hz => hp hz) (hp h2)
  exact memWf_freeBytes h4

theorem memWf_applyPushes {s : State} {b : Nat} {l : List Push} (h : s.memWf = true) : (State.applyPushes s b l).memWf = true := by
  induction l generalizing s with
  | nil => exact h
  | cons p t ih =>
    unfold State.applyPushes
    refine ih ?_
    split
    · split
      · split
        · exact memWf_deliverLocal h
        · exact h
      · exact h
    · exact h

theorem wf_applyArrival {x : Block} {a : Arrival} (h : Memory.wf x.mem = true) : Memory.wf (x.applyArrival a).mem = true := by
  unfold Block.applyArrival
  split
  · exact h
  · exact wf_setTb h


theorem memWf_applyLogs {s : State} {b : Nat} (h : s.memWf = true) : (State.applyLogs s b).memWf = true := by
  unfold State.applyLogs
  split
  · exact h
  next x hx =>
  have hw := wf_of_block? h hx
  extract_lets s1
  refine memWf_modBlock (memWf_applyPushes (memWf_setBlock h hw)) fun y hy => ?_
  exact foldl_keeps (P := fun z => Memory.wf z.mem = true) (fun z a hz => wf_applyArrival hz) _ y hy

theorem memWf_unparkBlock {s : State} {b : Nat} (h : s.memWf = true) : (State.unparkBlock s b).memWf = true := by
  unfold State.unparkBlock
  split
  · exact h
  next x hx =>
  have hw := wf_of_block? h hx
  extract_lets r
  exact memWf_of_fields (s := s.setBlock { x with gangs := r.1 }) (memWf_setBlock h hw)

theorem memWf_applied {s : State} {x : Block} (h : s.memWf = true) (hx : Memory.wf x.mem = true) : (State.applied s x).memWf = true := by
  unfold State.applied
  exact memWf_applyLogs (memWf_unparkBlock (memWf_setBlock h hx))

theorem memWf_expireAway {s : State} {b g : Nat} (h : s.memWf = true) : (State.expireAway s b g).memWf = true := by
  unfold State.expireAway
  refine memWf_foldl (fun z l hz => ?_) h
  split
  · exact hz
  extract_lets ln
  split
  · exact hz
  split
  · exact memWf_setGang hz
  · exact memWf_setGang hz
  · exact memWf_setGang hz
  · split
    · exact memWf_dropWaiter hz
    · exact hz
  · exact hz

theorem memWf_acceptAgain {s : State} {b : Nat} (h : s.memWf = true) : (State.acceptAgain s b).memWf = true := by
  unfold State.acceptAgain
  split
  · exact h
  next x hx =>
  have hw := wf_of_block? h hx
  extract_lets s1
  refine memWf_foldl (fun z o hz => ?_) (memWf_setBlock h hw)
  extract_lets z1
  have h1 : z1.memWf = true := memWf_charge (memWf_accept hz)
  split
  · exact memWf_movePin h1
  · exact h1

/-- A block's memory as it is loaded is written from nothing. -/
theorem wf_loadImage {s : State} {x : Block} {base : Nat} {o : Occ} {p0 : Nat} : Memory.wf (s.loadImage x base o p0).mem = true :=
  Memory.wf_write [] _ _ rfl


theorem memWf_restoreBlock {s : State} {x : Block} {base : Nat} {o : Occ} {p0 : Nat} (h : s.memWf = true) :
    (State.restoreBlock s x base o p0).memWf = true := by
  unfold State.restoreBlock
  extract_lets +onlyGivenNames y z s0 s1 s2 s3 s4 s5 s6
  have hy : Memory.wf y.mem = true := wf_loadImage
  clear_value y
  have h0 : s0.memWf = true := by
    have hz : z.memWf = true := memWf_setBlock h hy
    clear_value z
    exact memWf_of_fields hz
  clear_value s0
  have h2 : s2.memWf = true := by
    have h1 : s1.memWf = true := memWf_setTags h0
    exact memWf_foldl (fun z g hz => memWf_expireAway hz) h1
  clear_value s2
  have h3 : s3.memWf = true := memWf_modBlock (memWf_unparkBlock h2) fun z hz => hz
  clear_value s3
  have h4 : s4.memWf = true := memWf_applyLogs (memWf_dropLines h3)
  clear_value s4
  have h5 : s5.memWf = true := memWf_foldl (fun z r hz => memWf_applyRes hz) (memWf_modBlock h4 fun z hz => hz)
  clear_value s5
  refine memWf_foldl (fun z q hz => ?_) (memWf_acceptAgain h5)
  split
  · exact memWf_setOp hz
  · exact memWf_replay hz

theorem memWf_retest {s : State} {b : Nat} (h : s.memWf = true) : (State.retest s b).memWf = true := by
  unfold State.retest
  extract_lets s1
  have h1 : s1.memWf = true := memWf_modBlock h fun z hz => hz
  split
  · exact h1
  · exact memWf_testUnit (memWf_modBlock (memWf_retestCvs h1) fun z hz => hz)

/-! ### Requests from outside -/

theorem memWf_faultQueues {s : State} {ctx : Nat} (h : s.memWf = true) : (State.faultQueues s ctx).memWf = true := by
  unfold State.faultQueues
  extract_lets s1
  have h1 : s1.memWf = true := memWf_foldl (fun z d hz => memWf_modFe hz) h
  refine memWf_foldl (fun z t hz => ?_) h1
  split
  · exact hz
  · exact memWf_setDescFlags hz

theorem memWf_setHold {s : State} {p : Bool} (h : s.memWf = true) : (State.setHold s p).memWf = true := by
  unfold State.setHold
  exact memWf_foldl (fun z d hz => memWf_modFe hz) h

theorem memWf_goFatal {s : State} {pa : Nat} (h : s.memWf = true) : (State.goFatal s pa).memWf = true := by
  unfold State.goFatal
  extract_lets s1 s2
  have h1 : s1.memWf = true := memWf_foldl (fun z c hz => memWf_strikeDue hz) h
  clear_value s1
  have h2 : s2.memWf = true := memWf_setHold (memWf_blackBox (memWf_blackBox h1))
  clear_value s2
  exact memWf_of_fields h2

theorem memWf_send {s : State} {kind port peer base : Nat} (h : s.memWf = true) : (State.send s kind port peer base).memWf = true :=
  memWf_of_fields h

theorem memWf_sendRevoke {s : State} {i grace : Nat} (h : s.memWf = true) : (State.sendRevoke s i grace).memWf = true := by
  unfold State.sendRevoke
  repeat' split
  · exact h
  · exact memWf_of_fields h

theorem memWf_registryReply {r : State × Word} (h : r.1.memWf = true) : (registryReply r).memWf = true := by
  unfold registryReply
  exact memWf_of_fields h

theorem memWf_writeMbcmd {s : State} {cmd a b : Nat} (h : s.memWf = true) : (State.writeMbcmd s cmd a b).memWf = true := by
  unfold State.writeMbcmd
  repeat' split
  all_goals exact memWf_of_fields h

theorem memWf_rcas {s : State} {sp seq : Nat} {r : Option Nat} (h : s.memWf = true) : (s.rcas sp seq r).1.memWf = true := by
  unfold State.rcas
  extract_lets e
  split
  · exact h
  split
  · exact memWf_postIfUnpinned (memWf_setSpace (memWf_setRoot h))
  split
  · exact h
  · exact memWf_postIfUnpinned (memWf_setSpace (memWf_setRoot (memWf_allocSlot h)))

theorem memWf_rsnap {s : State} {sp pa : Nat} (h : s.memWf = true) : (s.rsnap sp pa).1.memWf = true := by
  unfold State.rsnap
  extract_lets e
  split
  · exact h
  split
  · exact h
  · exact memWf_setSpace (memWf_allocSlot h)

theorem memWf_rfree {s : State} {sp : Nat} (h : s.memWf = true) : (s.rfree sp).1.memWf = true := by
  unfold State.rfree
  extract_lets r
  split
  · exact memWf_setRoot h
  · exact h


theorem memWf_writeWindow {s : State} {reg i : Nat} {data : List Byte} (h : s.memWf = true) : (State.writeWindow s reg i data).memWf = true := by
  unfold State.writeWindow
  extract_lets v d
  split
  · exact memWf_of_fields h
  · exact memWf_modFe h
  · exact memWf_modFe h
  · split
    · exact memWf_setSpace h
    · exact h
  · split
    · exact memWf_of_fields h
    · exact h
  · split
    · exact h
    · exact memWf_of_fields h
  · exact memWf_sendRevoke h
  · exact memWf_of_fields h
  · split
    · split
      · exact memWf_registryReply (memWf_rcas h)
      · exact memWf_of_fields h
    · exact memWf_of_fields h
  · split
    · split
      · exact memWf_registryReply (memWf_rsnap h)
      · exact h
    · exact memWf_of_fields h
  · split
    · exact memWf_registryReply (memWf_rfree h)
    · exact h
  · exact memWf_writeCmd h
  · exact memWf_writeMbcmd h
  · exact h

theorem memWf_hostFault {s : State} {f va : Nat} {cause : BitVec 8} (h : s.memWf = true) : (State.hostFault s f va cause).memWf = true :=
  memWf_of_fields h

theorem memWf_stampPeer {s : State} {who : Nat} {ls : List Loc} (h : s.memWf = true) : (State.stampPeer s who ls).memWf = true := by
  unfold State.stampPeer
  repeat' split
  · exact memWf_of_fields h
  · exact h

theorem memWf_setLease {s : State} {i : Nat} {l : Lease} (h : s.memWf = true) : (State.setLease s i l).memWf = true := memWf_of_fields h

theorem memWf_revoked {s : State} {i : Nat} {l : Lease} (h : s.memWf = true) : (State.revoked s i l).memWf = true :=
  memWf_send (memWf_setLease h)

theorem memWf_thermalNotice {s : State} {level : Nat} (h : s.memWf = true) : (State.thermalNotice s level).memWf = true :=
  memWf_noticeOn (memWf_noticeOn h)

/-! ### Resets and the mailbox -/

theorem memWf_sparing {s : State} (h : s.memWf = true) : (State.sparing s).memWf = true := memWf_of_fields h

theorem memWf_reset : State.reset.memWf = true := by
  unfold State.reset
  exact (memWf_iff _).2 ⟨rfl, rfl, rfl, rfl, rfl, fun _ hx => absurd hx List.not_mem_nil⟩


theorem memWf_afterReset {s : State} (h : s.memWf = true) : (State.afterReset s).memWf = true := by
  unfold State.afterReset
  obtain ⟨h1, h2, h3, -, -, h6⟩ := (memWf_iff _).1 memWf_reset
  obtain ⟨-, -, -, h4, h5, -⟩ := (memWf_iff _).1 h
  exact memWf_sparing ((memWf_iff _).2 ⟨h1, h2, h3, h4, h5, h6⟩)

theorem memWf_inspect {s : State} {data : List Byte} (h : s.memWf = true) : (State.inspect s data).memWf = true := memWf_of_fields h

theorem memWf_warmReset {s : State} (h : s.memWf = true) : (State.warmReset s).memWf = true := by
  unfold State.warmReset
  obtain ⟨-, h2, h3, h4, h5, h6⟩ := (memWf_iff _).1 (memWf_afterReset h)
  exact (memWf_iff _).2 ⟨((memWf_iff _).1 h).1, h2, h3, h4, h5, h6⟩

theorem memWf_respond {s : State} {cmd : Nat} {resp : List Byte} (h : s.memWf = true) : (State.respond s cmd resp).memWf = true :=
  memWf_of_fields h

theorem memWf_serve {s : State} {cmd : Nat} {now : Option (Nat × Nat)}
    {f : Nat → Nat → State} (h : s.memWf = true) (hf : ∀ a b, (f a b).memWf = true) :
    (State.serve s cmd now f).memWf = true := by
  unfold State.serve
  split
  · split
    · exact hf _ _
    · exact h
  · exact hf _ _
  · exact memWf_writeMbcmd h
  · exact h

theorem memWf_resync {s : State} (h : s.memWf = true) : (State.resync s).memWf = true := by
  unfold State.resync
  repeat' split
  all_goals exact memWf_respond h

theorem memWf_errlog {s : State} {d : Die} {clear : Nat} (h : s.memWf = true) : (State.errlog s d clear).memWf = true := by
  unfold State.errlog
  simp only
  repeat' split
  · exact memWf_of_fields h
  · exact memWf_respond h

theorem memWf_withMeasures {s : State} {l : List (Nat × List Byte)} (h : s.memWf = true) : State.memWf { s with measures := l } = true :=
  memWf_of_fields h

theorem memWf_withHandover {s : State} {o : Option Handover} {n : Nat} (h : s.memWf = true) : State.memWf { s with handover := o, fresh := n } = true :=
  memWf_of_fields h


theorem memWf_beginHandover {s : State} {digest : List Byte} (h : s.memWf = true) : (State.beginHandover s digest).memWf = true := by
  unfold State.beginHandover
  simp only
  exact memWf_withHandover (memWf_deviceWrite (memWf_withMeasures (memWf_setHold h)))

/-! ### Registry words -/

theorem memWf_fillNodes {s : State} {d : Die} {pas : List Nat} (h : s.memWf = true) : (State.fillNodes s d pas).memWf = true := by
  unfold State.fillNodes
  refine memWf_foldl (fun z pa hz => ?_) h
  extract_lets hv nodes
  split
  · exact hz
  split
  · exact hz
  · exact memWf_of_fields hz

/-! ### Turns -/

theorem memWf_noteIssue {s t : State} {d : Die} {core part : Nat} (h : t.memWf = true) : (State.noteIssue s t d core part).memWf = true := by
  unfold State.noteIssue
  exact memWf_of_fields h

theorem mem_ageBlock (s : State) (x : Block) (n : Nat) : (s.ageBlock x n).mem = x.mem := by
  unfold State.ageBlock
  simp only
  split <;> rfl


theorem memWf_timeTurn {s : State} {n0 n1 : Nat} (h : s.memWf = true) : (State.timeTurn s n0 n1).memWf = true := by
  unfold State.timeTurn
  extract_lets +onlyGivenNames n
  have h1 : State.memWf { s with
      cyc := Vector.ofFn fun d => s.cyc[d] + n d
      fcyc := Vector.ofFn fun d => (s.fcyc[d] + n d) % 2 ^ 64
      blocks := s.blocks.map fun x => s.ageBlock x (n x.die)
      fe := Vector.ofFn fun d => if n d = 0 then s.fe[d] else { s.fe[d] with shown := [] }
      elog := Vector.ofFn fun d => if n d = 0 then s.elog[d] else { s.elog[d] with last := 0 }
      issuedIn := s.issuedIn.filter fun p => n p.1 = 0 } = true := by
    refine memWf_of_blocks h rfl rfl rfl rfl fun y hy => ?_
    obtain ⟨x, hx, rfl⟩ := List.mem_map.1 hy
    rw [mem_ageBlock]
    exact wf_of_mem h hx
  split
  · exact memWf_settle h1
  · exact h1

end Sys2Proof.Laws
end

section
/-! SUPPORT. What every word answers at its issue: a state at rest, with the canonical form of the memories kept (R60, R111, R234). -/

namespace Sys2Proof.Laws

open Sys2Proof Sys2Proof.Machine

-- In turn, not in parallel: these many short proofs, each waiting for the equations of its own function, would take
-- more threads at a time than the memory holds stacks for.
set_option Elab.async false

/-! ### What an answer keeps -/

/-- An answer from a state: a next state at rest, of the canonical form where the state has it. -/
def Answers (s : State) (o : Host.Outcome State Fault Refusal) : Prop :=
  ∃ t, o = .next t ∧ t.focus = .idle ∧ (s.memWf = true → t.memWf = true)

theorem answers_progressed {s z : State} (h : s.memWf = true → z.memWf = true) : Answers s (progressed z) :=
  ⟨_, rfl, rfl, fun hs => memWf_of_fields (h hs)⟩

theorem answers_notReady {s z : State} (h : s.memWf = true → z.memWf = true) : Answers s (notReady z) :=
  ⟨_, rfl, rfl, fun hs => memWf_of_fields (h hs)⟩

theorem answers_ite {s : State} {p : Prop} [Decidable p] {a b : Host.Outcome State Fault Refusal} (ha : Answers s a) (hb : Answers s b) :
    Answers s (if p then a else b) := by
  split
  · exact ha
  · exact hb

/-- The state that an effect carries, if it carries one, has the canonical form. -/
def EffWf : Eff → Prop
  | .done z _ => z.memWf = true
  | .asked z => z.memWf = true
  | _ => True

/-- A word is at issue: a gang that stands has the focus. -/
def AtWord (s : State) : Prop :=
  ∃ b g m pc hpc h w nvl p, s.focus = .gang b g m pc hpc h w nvl ∧ s.gang? b g = some p

/-- The issue of a word answers, and keeps the canonical form where its effect does. -/
theorem answers_issueWord {i : Info} {eff : Ctx → State → Eff} {s : State} (hs : AtWord s)
    (he : ∀ c z, z.memWf = true → Memory.wf c.x.mem = true → EffWf (eff c z)) : Answers s (issueWord i eff s) := by
  obtain ⟨b, g, m, pc, hpc, h, w, nvl, ⟨x, y⟩, hf, hy⟩ := hs
  unfold issueWord
  rw [hf]
  simp only [hy]
  split
  · exact answers_progressed fun hs => memWf_trapWord (memWf_setGang hs)
  split
  · exact answers_progressed fun hs => memWf_trapWord (memWf_setGang hs)
  refine answers_ite (answers_notReady id) (answers_ite (answers_notReady id) ?_)
  split
  · exact answers_progressed fun hs => memWf_holdBudget hs
  have hc : ∀ (y' : Gang) (n : Nat), s.memWf = true →
      EffWf (eff { b := b, g := g, m := m, pc := pc, hpc := hpc, hdr := h, nvl := nvl, x := x, y := y' }
        { s.setGang b g (y.takeUp m pc hpc h) with fresh := n }) := fun y' n hs =>
    he _ _ (memWf_of_fields (s := s.setGang b g (y.takeUp m pc hpc h)) (memWf_setGang hs)) (wf_of_gang? hs hy)
  split
  · exact answers_notReady id
  · next z heq => exact answers_progressed fun hs => (congrArg EffWf heq).mp (hc _ _ hs)
  · exact answers_progressed fun hs => memWf_holdBudget hs
  · exact answers_progressed fun hs => memWf_of_fields (memWf_modGang (memWf_trapLanes (memWf_modGang (memWf_charge (memWf_setGang hs)))))
  · next z n heq => exact answers_progressed fun hs => memWf_of_fields (memWf_modGang (memWf_charge ((congrArg EffWf heq).mp (hc _ _ hs))))

/-! ### Words of class ALU, control and memory -/

/-- An effect that a test decides. -/
theorem effWf_ite {p : Prop} [Decidable p] {a b : Eff} (ha : p → EffWf a) (hb : ¬ p → EffWf b) : EffWf (if p then a else b) := by
  split
  · exact ha ‹_›
  · exact hb ‹_›

theorem answers_aluWord {i : Info} {lat : Nat} {f : Ctx → Except Trap RegOut} {s : State} (hs : AtWord s) : Answers s (aluWord i lat f s) := by
  refine answers_issueWord hs fun c z hz _ => ?_
  unfold regEff
  repeat' split
  · trivial
  · trivial
  · exact memWf_modGang hz

theorem answers_direct {isCall : Bool} {o : Jf} {s : State} (hs : AtWord s) : Answers s (direct isCall o s) := by
  refine answers_issueWord hs fun c z hz _ => ?_
  extract_lets t move
  split
  · trivial
  split
  · split
    · trivial
    split
    · trivial
    · exact memWf_pushAll hz
  · exact memWf_modGang hz

theorem answers_indirect {isCall : Bool} {o : Jxr} {s : State} (hs : AtWord s) : Answers s (indirect isCall o s) := by
  refine answers_issueWord hs fun c z hz _ => ?_
  simp only
  split
  · trivial
  split
  · split
    · trivial
    · exact memWf_pushAll hz
  · exact memWf_modGang hz

theorem answers_ret {o : JxRet} {s : State} (hs : AtWord s) : Answers s (execRet o s) := by
  refine answers_issueWord hs fun c z hz _ => ?_
  simp only
  split
  · trivial
  split
  · trivial
  · exact memWf_modGang hz

theorem answers_meetSet {o : XA} {op : Word → Word → Word} {s : State} (hs : AtWord s) : Answers s (meetSet o op s) :=
  answers_issueWord hs fun _ _ hz _ => memWf_modGang hz

theorem answers_waitk {o : XA} {s : State} (hs : AtWord s) : Answers s (execWaitk o s) :=
  answers_issueWord hs fun _ _ hz _ => memWf_modGang hz

theorem answers_yield {o : X0} {s : State} (hs : AtWord s) : Answers s (execYield o s) :=
  answers_issueWord hs fun _ _ hz _ => memWf_modGang hz

theorem answers_brk {o : XBC} {s : State} (hs : AtWord s) : Answers s (execBrk o s) := answers_issueWord hs fun _ _ _ _ => trivial

theorem answers_trap {o : XBC} {s : State} (hs : AtWord s) : Answers s (execTrap o s) := answers_issueWord hs fun _ _ _ _ => trivial

theorem answers_nop {o : X0} {s : State} (hs : AtWord s) : Answers s (execNop o s) := answers_issueWord hs fun _ _ hz _ => hz

theorem answers_rref {o : XA} {s : State} (hs : AtWord s) : Answers s (execRref o s) :=
  answers_issueWord hs fun _ _ hz _ => memWf_modGang (memWf_refresh hz)

theorem answers_tretWord {mode : Nat} {o : X0} {s : State} (hs : AtWord s) : Answers s (tretWord mode o s) := by
  refine answers_issueWord hs fun c z hz _ => ?_
  refine effWf_ite (fun _ => ?_) fun _ => trivial
  exact memWf_modGang hz

theorem answers_fa1 {fn : Nat} {o : A2} {s : State} (hs : AtWord s) : Answers s (fa1 fn o s) := by
  refine answers_issueWord hs fun c z hz _ => ?_
  simp only
  split
  · trivial
  split
  · trivial
  · exact memWf_addPend (memWf_modGang hz)

/-! ### Loads, stores, atomics, fences and bindings -/

theorem answers_ld {o : Mem} {s : State} (hs : AtWord s) : Answers s (execLd o s) := by
  unfold execLd
  extract_lets
  refine answers_issueWord hs fun c z hz _ => ?_
  simp only
  split
  · trivial
  split
  · trivial
  · exact memWf_addPend hz

theorem answers_st {o : Mem} {s : State} (hs : AtWord s) : Answers s (execSt o s) := by
  unfold execSt
  extract_lets
  refine answers_issueWord hs fun c z hz _ => ?_
  simp only
  split
  · trivial
  · exact effWf_ite (fun _ => trivial) fun _ => memWf_addPend hz

theorem answers_mxld {o : Mem} {s : State} (hs : AtWord s) : Answers s (execMxld o s) := by
  unfold execMxld
  extract_lets
  refine answers_issueWord hs fun c z hz _ => ?_
  simp only
  split
  · trivial
  split
  · trivial
  · exact memWf_addPend hz

theorem answers_mxst {o : Mem} {s : State} (hs : AtWord s) : Answers s (execMxst o s) := by
  unfold execMxst
  extract_lets
  refine answers_issueWord hs fun c z hz _ => ?_
  simp only
  split
  · trivial
  split
  · trivial
  · exact memWf_addPend hz

theorem answers_atomic {wide : Bool} {op : Nat} {st sc : BitVec 2} {vd va vb : BitVec 6} {s : State} (hs : AtWord s) :
    Answers s (atomic wide op st sc vd va vb s) := by
  unfold atomic
  extract_lets
  refine answers_issueWord hs fun c z hz _ => ?_
  simp only
  split
  · trivial
  · exact effWf_ite (fun _ => trivial) fun _ => memWf_addPend hz

theorem answers_fence {st : BitVec 2} {pre suc : BitVec 4} {sc : BitVec 2} {dir : Nat} {obj : Option (BitVec 5)} {s : State} (hs : AtWord s) :
    Answers s (fence st pre suc sc dir obj s) := by
  unfold fence
  extract_lets n
  refine answers_issueWord hs fun c z hz _ => ?_
  extract_lets add
  have ha : ∀ fs, (add z fs).memWf = true := fun fs => memWf_modGang hz
  split
  · refine memWf_pruneFences ?_
    split
    · exact memWf_fullDrop (ha _)
    · exact ha _
  · extract_lets o
    split
    · trivial
    split
    · trivial
    split
    · exact memWf_pruneFences (ha _)
    · refine memWf_pruneFences ?_
      split
      · exact ha _
      · exact memWf_acquireDrop (ha _)

theorem memWf_bind {s : State} {ctx : Nat} {e : Binding} (h : s.memWf = true) : (s.bind ctx e).1.memWf = true := by
  unfold State.bind
  split
  · exact h
  split
  · exact memWf_of_fields h
  · exact h

theorem memWf_unbind {s : State} {ctx owner : Nat} {a : Word} (h : s.memWf = true) : (s.unbind ctx owner a).1.memWf = true := by
  unfold State.unbind
  split
  · exact memWf_of_fields h
  · exact h

theorem answers_bind {o : X4} {s : State} (hs : AtWord s) : Answers s (execBind o s) := by
  refine answers_issueWord hs fun c z hz _ => ?_
  simp only
  split
  · trivial
  · exact memWf_modGang (memWf_bind hz)

theorem answers_unbind {o : XABD} {s : State} (hs : AtWord s) : Answers s (execUnbind o s) :=
  answers_issueWord hs fun _ _ hz _ => memWf_modGang (memWf_unbind hz)

/-! ### Locks, barriers and tags -/

theorem answers_lockWord {op : Nat} {st sc : BitVec 2} {vd va vb : BitVec 6} {s : State} (hs : AtWord s) :
    Answers s (lockWord op st sc vd va vb s) := by
  unfold lockWord
  extract_lets n
  refine answers_issueWord hs fun c z hz _ => ?_
  simp only
  split
  · trivial
  split
  · trivial
  split
  · exact memWf_modGang (memWf_addPend hz)
  · exact memWf_addPend hz

theorem answers_barWord {o : XC} {wait : Bool} {s : State} (hs : AtWord s) : Answers s (barWord o wait s) := by
  refine answers_issueWord hs fun c z hz _ => ?_
  extract_lets ph s1
  split
  · trivial
  · have h1 : s1.memWf = true := memWf_modBlock hz fun x hx => by
      simp only
      split <;> exact hx
    exact memWf_settle (memWf_modBlock h1 fun x hx => hx)

theorem answers_cbarWord {st : BitVec 2} {wait : Bool} {s : State} (hs : AtWord s) : Answers s (cbarWord st wait s) := by
  refine answers_issueWord hs fun c z hz _ => ?_
  split
  · trivial
  split
  · trivial
  split
  · trivial
  · refine memWf_settle (memWf_testCbar ?_)
    split
    · exact memWf_modGang (memWf_setCbar hz)
    · exact memWf_setCbar hz

theorem answers_tryw {o : X4} {s : State} (hs : AtWord s) : Answers s (execTryw o s) := by
  refine answers_issueWord hs fun c z hz _ => ?_
  split
  · trivial
  split
  · trivial
  split
  · trivial
  split
  · exact memWf_modGang hz
  · exact memWf_modGang hz

theorem answers_tagWaitWord {o : X4} {all : Bool} {s : State} (hs : AtWord s) : Answers s (tagWaitWord o all s) := by
  refine answers_issueWord hs fun c z hz hx => ?_
  simp only
  split
  · trivial
  split
  · trivial
  split
  · next t x' h =>
    refine memWf_takeTrap (memWf_putBlock hz ?_)
    rw [mem_of_tagWait h]
    exact hx
  · exact hz
  · exact memWf_modGang hz

theorem answers_ffrdy {o : X4} {s : State} (hs : AtWord s) : Answers s (execFfrdy o s) := by
  refine answers_issueWord hs fun c z hz _ => ?_
  refine effWf_ite (fun _ => trivial) fun _ => memWf_modGang hz

theorem answers_tagclr {o : X4} {s : State} (hs : AtWord s) : Answers s (execTagclr o s) := by
  refine answers_issueWord hs fun c z hz _ => ?_
  refine effWf_ite (fun _ => trivial) fun _ => memWf_modBlock hz fun x hx => hx

theorem answers_tagrd {o : X4} {s : State} (hs : AtWord s) : Answers s (execTagrd o s) := by
  refine answers_issueWord hs fun c z hz _ => ?_
  refine effWf_ite (fun _ => trivial) fun _ => memWf_modGang hz

theorem answers_tbinit {o : TbInit} {s : State} (hs : AtWord s) : Answers s (execTbinit o s) := by
  refine answers_issueWord hs fun c z hz _ => ?_
  simp only
  split
  · trivial
  split
  · trivial
  split
  · trivial
  · exact memWf_settle (memWf_modBlock hz fun x hx => wf_setTb hx)

theorem answers_tbChange {o : TbArv} {f : Nat → Tb → Tb} {s : State} (hs : AtWord s) : Answers s (tbChange o f s) := by
  refine answers_issueWord hs fun c z hz _ => ?_
  extract_lets a n remote base acc tr off
  split
  · trivial
  split
  · trivial
  split
  · trivial
  split
  · exact memWf_settle (memWf_modBlock hz fun x hx => wf_setTb hx)
  split
  · trivial
  split
  · trivial
  · split
    · trivial
    · exact memWf_settle (memWf_modBlock hz fun x hx => wf_setTb hx)

theorem answers_tbWaitWord {st : BitVec 2} {ra rb : BitVec 5} {kd : Option (BitVec 5)} {rc : BitVec 5} {s : State} (hs : AtWord s) :
    Answers s (tbWaitWord st ra rb kd rc s) := by
  refine answers_issueWord hs fun c z hz hx => ?_
  extract_lets +onlyGivenNames a ph k
  clear_value k
  split
  · trivial
  split
  · trivial
  split
  · next t x' h =>
    refine memWf_takeTrap (memWf_putBlock hz ?_)
    rw [mem_of_tbWait h]
    exact hx
  · show State.memWf _ = true
    split
    · exact memWf_modGang hz
    · exact hz
  · exact memWf_modGang hz

theorem answers_tbrd {o : TbRd} {s : State} (hs : AtWord s) : Answers s (execTbrd o s) := by
  unfold execTbrd
  extract_lets v
  refine answers_issueWord hs fun c z hz _ => ?_
  simp only
  split
  · trivial
  split
  · trivial
  · exact memWf_addPend hz

/-! ### Copies and collectives -/

theorem effWf_startCopy {c : Ctx} {kind : OpKind} {compl : Word} {units : Nat} {rd wr : List (DWord × Nat)} {point : Nat} {s : State}
    (h : s.memWf = true) : EffWf (s.startCopy c kind compl units rd wr point) := by
  unfold State.startCopy
  simp only
  split
  · trivial
  split
  · trivial
  split
  · trivial
  next s1 hs =>
  have h2 : (s1.charge c.x.entry 2 units).memWf = true := memWf_charge (memWf_openOp h hs)
  split
  · split
    · exact memWf_endOp h2
    · exact h2
  · exact h2

theorem answers_cpy {o : X4} {s : State} (hs : AtWord s) : Answers s (execCpy o s) := by
  refine answers_issueWord hs fun c z hz _ => ?_
  extract_lets +onlyGivenNames d a w compl len mx unit al
  split
  · trivial
  · exact effWf_startCopy hz

theorem answers_cpy2d {o : XAD} {s : State} (hs : AtWord s) : Answers s (execCpy2d o s) := by
  refine answers_issueWord hs fun c z hz _ => ?_
  extract_lets +onlyGivenNames a compl
  split
  · trivial
  split
  · trivial
  simp only
  split
  · trivial
  · exact effWf_startCopy hz

theorem answers_listCopy {isGth : Bool} {o : X4} {s : State} (hs : AtWord s) : Answers s (listCopy isGth o s) := by
  refine answers_issueWord hs fun c z hz _ => ?_
  extract_lets +onlyGivenNames a list w compl n u e
  split
  · trivial
  · exact effWf_startCopy hz

theorem answers_cpyt {o : X4} {s : State} (hs : AtWord s) : Answers s (execCpyt o s) := by
  refine answers_issueWord hs fun c z hz _ => ?_
  extract_lets +onlyGivenNames pre d a w compl
  split
  · trivial
  · exact effWf_startCopy hz

theorem answers_kvl {o : XAD} {s : State} (hs : AtWord s) : Answers s (execKvl o s) := by
  refine answers_issueWord hs fun c z hz _ => ?_
  extract_lets +onlyGivenNames a compl
  split
  · trivial
  split
  · trivial
  simp only
  split
  · trivial
  · exact effWf_startCopy hz

theorem answers_coll {o : XAD} {s : State} (hs : AtWord s) : Answers s (execColl o s) := by
  refine answers_issueWord hs fun c z hz _ => ?_
  extract_lets +onlyGivenNames a compl
  split
  · trivial
  split
  · trivial
  split
  · trivial
  simp only
  split
  · trivial
  split
  · trivial
  split
  · trivial
  · next s1 h1 => exact memWf_of_fields (memWf_charge (memWf_countColl (memWf_openOp hz h1)))

/-! ### The matrix engine -/

theorem answers_cvset {o : XAB} {s : State} (hs : AtWord s) : Answers s (execCvset o s) := by
  refine answers_issueWord hs fun c z hz _ => ?_
  simp only
  split
  · trivial
  split
  · trivial
  · exact memWf_modBlock hz fun x hx => hx

theorem answers_cvclr {o : XA} {s : State} (hs : AtWord s) : Answers s (execCvclr o s) :=
  answers_issueWord hs fun _ _ hz _ => memWf_modBlock hz fun _ hx => hx

theorem effWf_sign {win : Bool} {o : MmaF} {c : Ctx} {s : State} (h : s.memWf = true) : EffWf (sign win o c s) := by
  unfold sign
  extract_lets +onlyGivenNames n v va sb
  split
  · trivial
  simp only
  split
  · trivial
  refine effWf_ite (fun _ => trivial) fun _ => ?_
  split
  · trivial
  split
  · trivial
  refine effWf_ite (fun _ => trivial) fun _ => ?_
  exact memWf_testCv (memWf_modGang (memWf_modBlock h fun x hx => hx))

theorem answers_sign {i : Info} {win : Bool} {o : MmaF} {s : State} (hs : AtWord s) : Answers s (issueWord i (sign win o) s) :=
  answers_issueWord hs fun _ _ hz _ => effWf_sign hz

theorem effWf_issueMat {c : Ctx} {k : MatKind} {compl : Word} {cons : Option Word} {units point : Nat} {s : State} (h : s.memWf = true) :
    EffWf (s.issueMat c k compl cons units point) := by
  unfold State.issueMat
  extract_lets +onlyGivenNames acc s0 s1 s2
  have h0 : s0.memWf = true := by
    unfold s0
    split
    · exact memWf_markTag (memWf_markTag h)
    · exact memWf_markTag h
  have h1 : s1.memWf = true := memWf_complete h0
  split
  · trivial
  split
  · refine memWf_settle ?_
    unfold s2
    split
    · exact memWf_complete h1
    · exact h1
  split
  · trivial
  split
  · trivial
  · next z hz => exact memWf_openMat (memWf_charge (memWf_pin h0 hz))

theorem answers_tileWord {sub : Nat} {o : XAD} {s : State} (hs : AtWord s) : Answers s (tileWord sub o s) := by
  refine answers_issueWord hs fun c z hz _ => ?_
  extract_lets +onlyGivenNames a compl
  split
  · trivial
  split
  · trivial
  simp only
  split
  · trivial
  · exact effWf_issueMat hz

theorem answers_attWord {fin : Bool} {o : XAD} {s : State} (hs : AtWord s) : Answers s (attWord fin o s) := by
  refine answers_issueWord hs fun c z hz _ => ?_
  extract_lets +onlyGivenNames a compl
  split
  · trivial
  split
  · trivial
  simp only
  split
  · trivial
  · exact effWf_issueMat hz

theorem answers_sigmk {o : XABD} {s : State} (hs : AtWord s) : Answers s (execSigmk o s) := by
  refine answers_issueWord hs fun c z hz _ => ?_
  extract_lets a off compl
  split
  · trivial
  · exact effWf_issueMat hz

theorem answers_sigf {o : X4} {s : State} (hs : AtWord s) : Answers s (execSigf o s) := by
  refine answers_issueWord hs fun c z hz _ => ?_
  extract_lets off r acc
  split
  · trivial
  · exact effWf_ite (fun _ => trivial) fun _ => memWf_modGang hz

/-! ### Standing loads -/

theorem answers_sld {o : X4} {s : State} (hs : AtWord s) : Answers s (execSld o s) := by
  refine answers_issueWord hs fun c z hz _ => ?_
  extract_lets +onlyGivenNames a base ctl compl
  split
  · trivial
  extract_lets +onlyGivenNames every r n s0 size kind refuse
  have h0 : s0.memWf = true := memWf_modBlock (memWf_putLocal hz) fun x hx => hx
  have hr : refuse.memWf = true := memWf_settle (memWf_complete (memWf_markTag h0))
  split
  · trivial
  split
  · exact hr
  split
  · exact hr
  · next z hz => exact memWf_settle (memWf_openOp h0 hz)

theorem answers_slwait {o : X4} {s : State} (hs : AtWord s) : Answers s (execSlwait o s) := by
  refine answers_issueWord hs fun c z hz _ => ?_
  extract_lets +onlyGivenNames a v off
  split
  · trivial
  split
  · trivial
  split
  · exact memWf_modGang hz
  · exact memWf_modGang hz

theorem answers_slack {o : XAB} {s : State} (hs : AtWord s) : Answers s (execSlack o s) := by
  refine answers_issueWord hs fun c z hz _ => ?_
  extract_lets +onlyGivenNames base n latest
  clear_value latest
  split
  · trivial
  split
  · trivial
  split
  · exact hz
  split
  · trivial
  extract_lets +onlyGivenNames ctl di ci
  split
  · trivial
  · exact memWf_settle (memWf_setSub (memWf_putLocal hz))

theorem answers_usub {o : XAD} {s : State} (hs : AtWord s) : Answers s (execUsub o s) := by
  refine answers_issueWord hs fun c z hz _ => ?_
  extract_lets base compl
  split
  · trivial
  · exact memWf_usub (memWf_markTag hz)

/-! ### Address programs, the end of lanes and ENQR -/

theorem answers_aprun {o : XABD} {s : State} (hs : AtWord s) : Answers s (execAprun o s) := by
  refine answers_issueWord hs fun c z hz _ => ?_
  extract_lets +onlyGivenNames entry qw compl q
  split
  · trivial
  split
  · trivial
  split
  · trivial
  · next s1 h1 => exact memWf_of_fields (memWf_openOp hz h1)

theorem answers_apstop {o : XA} {s : State} (hs : AtWord s) : Answers s (execApstop o s) := by
  refine answers_issueWord hs fun c z hz _ => ?_
  extract_lets q
  split
  · trivial
  · exact memWf_settle (memWf_stopProgram hz)

theorem answers_aqpop {o : Aqp} {s : State} (hs : AtWord s) : Answers s (execAqpop o s) := by
  refine answers_issueWord hs fun c z hz _ => ?_
  extract_lets +onlyGivenNames q src p
  split
  · trivial
  split
  · exact memWf_releaseApq (memWf_addPend (memWf_setApq hz))
  · exact effWf_ite (fun _ => trivial) fun _ => memWf_modGang (memWf_addPend hz)

theorem answers_apOnlyWord {st : BitVec 2} {s : State} (hs : AtWord s) : Answers s (apOnlyWord st s) := answers_issueWord hs fun _ _ hz _ => hz

theorem answers_exit {o : X0} {s : State} (hs : AtWord s) : Answers s (execExit o s) :=
  answers_issueWord hs fun _ _ hz _ => memWf_afterExit (memWf_modGang hz)

theorem effWf_enqrAnswered {c : Ctx} {a b rel compl : Word} {open_ : Bool} {recsz : Nat} {s : State} (h : s.memWf = true) :
    EffWf (enqrAnswered c a b rel compl open_ recsz s) := by
  unfold enqrAnswered
  extract_lets s0
  have h0 : s0.memWf = true := memWf_modGang h
  split
  · split
    · trivial
    split
    · trivial
    split
    · next z hz => exact memWf_openOp h0 hz
    · trivial
  · exact memWf_settle (memWf_complete (memWf_markTag h0))

theorem answers_enqr {o : X4} {s : State} (hs : AtWord s) : Answers s (execEnqr o s) := by
  refine answers_issueWord hs fun c z hz _ => ?_
  extract_lets a b d n
  split
  · trivial
  split
  · split
    · exact effWf_enqrAnswered hz
    · exact memWf_modGang hz
  · exact memWf_modGang hz

/-! ### CSR words and registry words -/

theorem answers_csrChange {o : XABC} {f : DWord → DWord → DWord} {s : State} (hs : AtWord s) : Answers s (csrChange o f s) := by
  unfold csrChange
  extract_lets n
  exact answers_issueWord hs fun _ _ hz _ => memWf_modGang hz

theorem answers_csrr {o : XABC} {s : State} (hs : AtWord s) : Answers s (execCsrr o s) := by
  unfold execCsrr
  extract_lets n
  exact answers_aluWord hs

theorem effWf_sysDone {c : Ctx} {a : BitVec 5} {r : State × Word} (h : r.1.memWf = true) : EffWf (sysDone c a r) := memWf_modGang h

theorem answers_rcas {o : XABC} {s : State} (hs : AtWord s) : Answers s (execRcas o s) := by
  refine answers_issueWord hs fun c z hz _ => ?_
  extract_lets b
  split
  · trivial
  split
  · trivial
  · exact effWf_ite (fun _ => trivial) fun _ => effWf_sysDone (memWf_rcas hz)

theorem answers_rsnap {o : XABC} {s : State} (hs : AtWord s) : Answers s (execRsnap o s) := by
  refine answers_issueWord hs fun c z hz _ => ?_
  extract_lets b
  split
  · trivial
  split
  · trivial
  · exact effWf_ite (fun _ => trivial) fun _ => effWf_sysDone (memWf_rsnap hz)

theorem answers_rfree {o : XAB} {s : State} (hs : AtWord s) : Answers s (execRfree o s) := by
  refine answers_issueWord hs fun c z hz _ => ?_
  exact effWf_ite (fun _ => trivial) fun _ => effWf_sysDone (memWf_rfree hz)

theorem answers_rpinq {o : XAB} {s : State} (hs : AtWord s) : Answers s (execRpinq o s) := by
  refine answers_issueWord hs fun c z hz _ => ?_
  exact effWf_ite (fun _ => trivial) fun _ => memWf_modGang hz

theorem memWf_smove {s : State} {pa : Nat} {clear : Bool} (h : s.memWf = true) : (s.smove pa clear).1.memWf = true := by
  unfold State.smove
  split
  · exact memWf_of_fields h
  extract_lets +onlyGivenNames marked s1
  have h1 : s1.memWf = true := memWf_foldl (fun z u hz => by
    split
    · split
      · split
        · exact memWf_closeMoved hz
        · exact hz
      · exact hz
    · exact hz) h
  split
  · exact h
  · show State.memWf (if marked then s1 else _) = true
    split
    · exact h1
    · exact memWf_of_fields h1

theorem answers_smove {o : XABC} {s : State} (hs : AtWord s) : Answers s (execSmove o s) := by
  refine answers_issueWord hs fun c z hz _ => ?_
  exact effWf_ite (fun _ => trivial) fun _ => effWf_sysDone (memWf_smove hz)

theorem answers_ndrop {o : XBD} {s : State} (hs : AtWord s) : Answers s (execNdrop o s) := by
  refine answers_issueWord hs fun c z hz _ => ?_
  extract_lets compl
  split
  · trivial
  split
  · trivial
  split
  · next s1 h1 => exact memWf_openOp hz h1
  · trivial

/-! ### Every word -/

/-- A uniform word that a gang issues is a word of class ALU (R166). -/
theorem answers_uniformWord {i : Info} {ok : Bool} {f : (Nat → Word) → UOut} {s : State} (hs : AtWord s) : Answers s (uniformWord i ok f s) := by
  unfold uniformWord
  split
  · next hf =>
    obtain ⟨_, _, _, _, _, _, _, _, _, hg, -⟩ := hs
    exact absurd (hf.symm.trans hg) nofun
  · exact answers_aluWord hs

theorem answers_salu {o : S3} {op : Word → Word → Word} {s : State} (hs : AtWord s) : Answers s (salu o op s) := answers_uniformWord hs

theorem answers_scmp {cc : Cond} {o : S3} {s : State} (hs : AtWord s) : Answers s (scmp cc o s) := answers_uniformWord hs

theorem answers_sshl {o : S3} {s : State} (hs : AtWord s) : Answers s (execSshl o s) := answers_salu hs

theorem answers_sshr {o : S3} {s : State} (hs : AtWord s) : Answers s (execSshr o s) := answers_salu hs

theorem answers_fenceOrd {o : FenceN} {s : State} (hs : AtWord s) : Answers s (execFenceOrd o s) := answers_fence hs

theorem answers_fenceRel {o : FenceO} {s : State} (hs : AtWord s) : Answers s (execFenceRel o s) := answers_fence hs

theorem answers_fenceAcq {o : FenceO} {s : State} (hs : AtWord s) : Answers s (execFenceAcq o s) := answers_fence hs

theorem answers_fenceBoth {o : FenceO} {s : State} (hs : AtWord s) : Answers s (execFenceBoth o s) := answers_fence hs

theorem answers_fenceFull {o : FenceN} {s : State} (hs : AtWord s) : Answers s (execFenceFull o s) := answers_fence hs

theorem answers_tbarv {o : TbArv} {s : State} (hs : AtWord s) : Answers s (execTbarv o s) := answers_tbChange hs

theorem answers_tbexp {o : TbArv} {s : State} (hs : AtWord s) : Answers s (execTbexp o s) := answers_tbChange hs

theorem answers_tbwait {o : XAB} {s : State} (hs : AtWord s) : Answers s (execTbwait o s) := answers_tbWaitWord hs

theorem answers_tbtry {o : X4} {s : State} (hs : AtWord s) : Answers s (execTbtry o s) := answers_tbWaitWord hs

theorem answers_leave {o : XA} {s : State} (hs : AtWord s) : Answers s (execLeave o s) := answers_meetSet hs

theorem answers_mtile {o : XAD} {s : State} (hs : AtWord s) : Answers s (execMtile o s) := answers_tileWord hs

theorem answers_mtilex {o : XAD} {s : State} (hs : AtWord s) : Answers s (execMtilex o s) := answers_tileWord hs

theorem answers_mzclr {o : XAD} {s : State} (hs : AtWord s) : Answers s (execMzclr o s) := answers_tileWord hs

theorem answers_mzld {o : XAD} {s : State} (hs : AtWord s) : Answers s (execMzld o s) := answers_tileWord hs

theorem answers_mzst {o : XAD} {s : State} (hs : AtWord s) : Answers s (execMzst o s) := answers_tileWord hs

theorem answers_mzscl {o : XAD} {s : State} (hs : AtWord s) : Answers s (execMzscl o s) := answers_tileWord hs

theorem answers_csrw {o : XABC} {s : State} (hs : AtWord s) : Answers s (execCsrw o s) := answers_csrChange hs

theorem answers_csrs {o : XABC} {s : State} (hs : AtWord s) : Answers s (execCsrs o s) := answers_csrChange hs

theorem answers_csrc {o : XABC} {s : State} (hs : AtWord s) : Answers s (execCsrc o s) := answers_csrChange hs

theorem answers_saddi {o : I12} {s : State} (hs : AtWord s) : Answers s (execSaddi o s) := answers_uniformWord hs

theorem answers_smovi {o : SU} {s : State} (hs : AtWord s) : Answers s (execSmovi o s) := answers_uniformWord hs

theorem answers_slui {o : SU} {s : State} (hs : AtWord s) : Answers s (execSlui o s) := answers_uniformWord hs

/-- BRA, AQE and AQEND have their meaning in address programs elsewhere: here a gang issues them. -/
theorem answers_bra {o : Jf} {s : State} (hs : AtWord s) : Answers s (execBra o s) := by
  unfold execBra
  split
  · next hf =>
    obtain ⟨_, _, _, _, _, _, _, _, _, hg, -⟩ := hs
    exact absurd (hf.symm.trans hg) nofun
  · exact answers_direct hs

theorem answers_aqe {o : XAB} {s : State} (hs : AtWord s) : Answers s (execAqe o s) := by
  unfold execAqe
  split
  · next hf =>
    obtain ⟨_, _, _, _, _, _, _, _, _, hg, -⟩ := hs
    exact absurd (hf.symm.trans hg) nofun
  · exact answers_apOnlyWord hs

theorem answers_aqend {o : X0} {s : State} (hs : AtWord s) : Answers s (execAqend o s) := by
  unfold execAqend
  split
  · next hf =>
    obtain ⟨_, _, _, _, _, _, _, _, _, hg, -⟩ := hs
    exact absurd (hf.symm.trans hg) nofun
  · exact answers_apOnlyWord hs

/-- Every word answers at its issue. -/
theorem answers_exec {i : Instr} {s : State} (hs : AtWord s) (he : (encodeWord i).isSome = true) : Answers s (exec i s) := by
  cases i
  case iadd o | isub o | imul o | imulh o | imulhu o | imin o | imax o | umin o | umax o | iabs o | ineg o | and o | or o | xor o | andn o | orn o |
      shl o | shr o | sar o | rol o | ror o | bfe o | bfi o | bfs o | popc o | clz o | ctz o | brev o | bswap o | prmt o | iadd64 o | isub64 o |
      icmpEq o | icmpNe o | icmpLt o | icmpLe o | icmpUlt o | icmpUle o | icmpTst o | icmpNtst o | imad o | sel o | shfl o | shflx o | shflup o |
      shfldn o | bcst o | laneid o | mov o | movs o | smov o | vpcr o | tagr o | retag o | iaddi o | andi o | ori o | xori o | shli o | shri o |
      sari o | roli o | icmpiEq o | icmpiNe o | icmpiLt o | icmpiLe o | icmpiUlt o | icmpiUle o | icmpiTst o | icmpiNtst o | lui o | movi o | fadd o |
      fsub o | fmul o | fmin o | fmax o | fabs o | fneg o | fcps o | fcmpEq o | fcmpNe o | fcmpLt o | fcmpLe o | fcmpUn o | fcmpOrd o | fcmpCls o |
      ffma o | ffms o | fdot o | cvt o | pack2 o | pack4 o | unpkl o | unpkh o | packn o | unpkn o | pk6 o | upk6 o | mxq o | mxdq o | mxsc o | kand o
      | kor o | kxor o | kandn o | knot o | kmov o | kpop o | kffs o | bal o | ktov o | kfroms o | ktos o | bget o => exact answers_aluWord hs
  case frcp o | frsq o | fsqrt o | fexp2 o | flog2 o | fsin o | fcos o | ftanh o => exact answers_fa1 hs
  case sadd o | ssub o | smul o | sand o | sor o | sxor o => exact answers_salu hs
  case sshl o => exact answers_sshl hs
  case sshr o => exact answers_sshr hs
  case saddi o => exact answers_saddi hs
  case smovi o => exact answers_smovi hs
  case slui o => exact answers_slui hs
  case scmpEq o | scmpNe o | scmpLt o | scmpLe o | scmpUlt o | scmpUle o | scmpTst o | scmpNtst o => exact answers_scmp hs
  case ld o => exact answers_ld hs
  case st o => exact answers_st hs
  case mxld o => exact answers_mxld hs
  case mxst o => exact answers_mxst hs
  case atomAdd o | atomSub o | atomMin o | atomMax o | atomUmin o | atomUmax o | atomAnd o | atomOr o | atomXor o | atomXchg o | atomCas o |
      atomIncw o | atomDecw o | atomFadd o | atomAld o | atomAst o | atom64Add o | atom64Sub o | atom64Min o | atom64Max o | atom64Umin o |
      atom64Umax o | atom64And o | atom64Or o | atom64Xor o | atom64Xchg o | atom64Cas o | atom64Incw o | atom64Decw o | atom64Fadd o | atom64Ald o |
      atom64Ast o => exact answers_atomic hs
  case fenceOrd o => exact answers_fenceOrd hs
  case fenceRel o => exact answers_fenceRel hs
  case fenceAcq o => exact answers_fenceAcq hs
  case fenceBoth o => exact answers_fenceBoth hs
  case fenceFull o => exact answers_fenceFull hs
  case bind o => exact answers_bind hs
  case unbind o => exact answers_unbind hs
  case lkr o | lkw o | ulr o | ulw o | lkinit o => exact answers_lockWord hs
  case sld o => exact answers_sld hs
  case slwait o => exact answers_slwait hs
  case slack o => exact answers_slack hs
  case usub o => exact answers_usub hs
  case cpy o => exact answers_cpy hs
  case cpy2d o => exact answers_cpy2d hs
  case gth o | sct o => exact answers_listCopy hs
  case cpyt o => exact answers_cpyt hs
  case kvl o => exact answers_kvl hs
  case coll o => exact answers_coll hs
  case wtany o | wtall o => exact answers_tagWaitWord hs
  case ffrdy o => exact answers_ffrdy hs
  case tagclr o => exact answers_tagclr hs
  case tagrd o => exact answers_tagrd hs
  case tbinit o => exact answers_tbinit hs
  case tbarv o => exact answers_tbarv hs
  case tbexp o => exact answers_tbexp hs
  case tbwait o => exact answers_tbwait hs
  case tbtry o => exact answers_tbtry hs
  case tbrd o => exact answers_tbrd hs
  case bar o | bararv o => exact answers_barWord hs
  case cbar o | bararvC o => exact answers_cbarWord hs
  case tryw o => exact answers_tryw hs
  case join o => exact answers_meetSet hs
  case leave o => exact answers_leave hs
  case waitk o => exact answers_waitk hs
  case aprun o => exact answers_aprun hs
  case aqe o => exact answers_aqe hs
  case aqend o => exact answers_aqend hs
  case apstop o => exact answers_apstop hs
  case aqpop o => exact answers_aqpop hs
  case mma o | mmac o => exact answers_sign hs
  case mtile o => exact answers_mtile hs
  case mtilex o => exact answers_mtilex hs
  case mzclr o => exact answers_mzclr hs
  case mzld o => exact answers_mzld hs
  case mzst o => exact answers_mzst hs
  case mzscl o => exact answers_mzscl hs
  case att o | attfin o => exact answers_attWord hs
  case sigf o => exact answers_sigf hs
  case sigmk o => exact answers_sigmk hs
  case cvset o => exact answers_cvset hs
  case cvclr o => exact answers_cvclr hs
  case bra o => exact answers_bra hs
  case call o => exact answers_direct hs
  case brx o | callx o => exact answers_indirect hs
  case ret o => exact answers_ret hs
  case exit o => exact answers_exit hs
  case yield o => exact answers_yield hs
  case brk o => exact answers_brk hs
  case trap o => exact answers_trap hs
  case nop o => exact answers_nop hs
  case rref o => exact answers_rref hs
  case enqr o => exact answers_enqr hs
  case tretRetry o | tretCont o | tretResume o => exact answers_tretWord hs
  case csrr o => exact answers_csrr hs
  case csrw o => exact answers_csrw hs
  case csrs o => exact answers_csrs hs
  case csrc o => exact answers_csrc hs
  case rcas o => exact answers_rcas hs
  case rsnap o => exact answers_rsnap hs
  case ndrop o => exact answers_ndrop hs
  case rpinq o => exact answers_rpinq hs
  case smove o => exact answers_smove hs
  case rfree o => exact answers_rfree hs
  all_goals cases he

end Sys2Proof.Laws
end

section
/-! SUPPORT. What comes before a word, the focus that the passing of time leaves alone, and the words of address programs. -/

namespace Sys2Proof.Laws

open Sys2Proof Sys2Proof.Machine

-- In turn, not in parallel: these many short proofs, each waiting for the equations of its own function, would take
-- more threads at a time than the memory holds stacks for.
set_option Elab.async false

/-! ### The passing of time leaves the focus alone -/

theorem focus_foldl {α : Type} {f : State → α → State} (hf : ∀ z a, (f z a).focus = z.focus) (l : List α) (s : State) : (l.foldl f s).focus = s.focus :=
  foldl_keeps (P := fun z => z.focus = s.focus) (fun z a hz => (hf z a).trans hz) l s rfl

@[simp] theorem focus_writeByte (s : State) (l : Loc) (v : Byte) : (State.writeByte s l v).focus = s.focus := by
  unfold State.writeByte
  repeat' split
  all_goals simp only [State.setBlock_focus]

@[simp] theorem focus_blackBox (s : State) (d : Die) (sort ctx : Nat) : (State.blackBox s d sort ctx).focus = s.focus := by
  rfl

@[simp] theorem focus_logError (s : State) (d : Die) (kind chan pa syn : Nat) : (State.logError s d kind chan pa syn).focus = s.focus := by
  unfold State.logError
  simp only [focus_blackBox]

@[simp] theorem focus_logFound (s : State) (d : Die) (kind : Nat) (at_ : Option Loc) : (State.logFound s d kind at_).focus = s.focus := by
  unfold State.logFound
  simp only
  repeat' split
  all_goals simp only [focus_logError]

@[simp] theorem focus_noteError (s : State) (d : Die) (t : Trap) : (State.noteError s d t).focus = s.focus := by
  unfold State.noteError
  repeat' split
  all_goals simp only [focus_logFound]

@[simp] theorem focus_takeTrap (s : State) (b g : Nat) (m : Word) (pc : Va) (t : Trap) (hwbp : Bool) : (State.takeTrap s b g m pc t hwbp).focus = s.focus := by
  unfold State.takeTrap
  simp only
  repeat' split
  all_goals simp only [focus_noteError, State.setGang_focus]

@[simp] theorem focus_strike (s0 : State) (x : Block) (g : Nat) (t : Trap) : (State.strike s0 x g t).focus = s0.focus := by
  unfold State.strike
  simp only
  repeat' split
  all_goals simp only [focus_noteError]

@[simp] theorem focus_setRoot (s : State) (n : Nat) (r : RootSlot) : (State.setRoot s n r).focus = s.focus := by
  rfl

@[simp] theorem focus_releaseHeld (s : State) (ent : Nat) (p : Nat → Bool) : (State.releaseHeld s ent p).focus = s.focus := by
  rfl

@[simp] theorem focus_demote (s : State) (ent : Nat) : (State.demote s ent).focus = s.focus := by
  unfold State.demote
  simp only
  repeat' split
  all_goals simp only [focus_releaseHeld, State.setEntry_focus]

@[simp] theorem focus_raiseOverrun (s : State) (e : Entry) (cls short : Nat) : (State.raiseOverrun s e cls short).focus = s.focus := by
  unfold State.raiseOverrun
  simp only
  repeat' split
  all_goals simp only [focus_demote, State.setEntry_focus]

@[simp] theorem focus_overrun (s : State) (ent cls short : Nat) : (State.overrun s ent cls short).focus = s.focus := by
  unfold State.overrun
  repeat' split
  all_goals simp only [focus_raiseOverrun, State.setEntry_focus]

@[simp] theorem focus_setApq (s : State) (d : Die) (core q : Nat) (a : ApQueue) : (State.setApq s d core q a).focus = s.focus := by
  rfl

@[simp] theorem focus_noticeOn (s : State) (d : Die) (bs : List Byte) : (State.noticeOn s d bs).focus = s.focus := by
  rfl

@[simp] theorem focus_notice (s : State) (bs : List Byte) : (State.notice s bs).focus = s.focus := by
  unfold State.notice
  simp only [focus_noticeOn]

@[simp] theorem focus_postIfUnpinned (s : State) (slot : Nat) : (State.postIfUnpinned s slot).focus = s.focus := by
  unfold State.postIfUnpinned
  simp only
  repeat' split
  all_goals simp only [focus_notice]

@[simp] theorem focus_unpin (s : State) (slot : Nat) : (State.unpin s slot).focus = s.focus := by
  unfold State.unpin
  simp only
  repeat' split
  all_goals simp only [focus_setRoot, focus_postIfUnpinned]

@[simp] theorem focus_setSwz (s : State) (k : Nat × Nat) (code : BitVec 3) : (State.setSwz s k code).focus = s.focus := by
  unfold State.setSwz
  repeat' split
  all_goals rfl

@[simp] theorem focus_setSub (s : State) (u : Sub) : (State.setSub s u).focus = s.focus := by
  rfl

@[simp] theorem focus_freeRecord (s : State) (l : Loc) (size : Nat) : (State.freeRecord s l size).focus = s.focus := by
  unfold State.freeRecord
  repeat' split
  all_goals rfl

@[simp] theorem focus_closeSub (s : State) (u : Sub) (p : Push) : (State.closeSub s u p).focus = s.focus := by
  unfold State.closeSub
  simp only
  repeat' split
  all_goals simp only [focus_setSub, focus_freeRecord]

@[simp] theorem focus_closeUnread (s : State) (u : Sub) (moved : Bool) : (State.closeUnread s u moved).focus = s.focus := by
  unfold State.closeUnread
  simp only
  repeat' split
  all_goals simp only [focus_blackBox, focus_noteError, focus_closeSub]

@[simp] theorem focus_closePoison (s : State) (u : Sub) : (State.closePoison s u).focus = s.focus := by
  unfold State.closePoison
  simp only [focus_closeUnread]

@[simp] theorem focus_sequence (s : State) (l : Loc) (size : Nat) : (State.sequence s l size).focus = s.focus := by
  unfold State.sequence
  split
  · rfl
  · exact focus_foldl (fun z u => focus_closePoison _ _) _ _

@[simp] theorem focus_pushes (s : State) (ls : List Loc) : (State.pushes s ls).focus = s.focus := by
  unfold State.pushes
  refine focus_foldl (fun z r => ?_) _ _
  split
  · exact focus_sequence _ _ _
  · rfl

@[simp] theorem focus_stampLine (s : State) (key : Nat) (l : Loc) : (State.stampLine s key l).focus = s.focus := by
  rfl

@[simp] theorem focus_stampLines (s : State) (key : Nat) (ls : List Loc) : (State.stampLines s key ls).focus = s.focus := by
  unfold State.stampLines
  split
  · rfl
  · exact focus_foldl (fun z l => focus_stampLine _ _ _) _ _

@[simp] theorem focus_writeBytes (s : State) (ls : List Loc) (bs : List Byte) : (State.writeBytes s ls bs).focus = s.focus := by
  induction ls generalizing s bs with
  | nil => rfl
  | cons l r ih =>
    cases bs with
    | nil => rfl
    | cons b q => exact (ih _ _).trans (focus_writeByte _ _ _)

@[simp] theorem focus_swizzleTags (s : State) (ls : List Loc) (code : BitVec 3) : (State.swizzleTags s ls code).focus = s.focus := by
  unfold State.swizzleTags
  refine focus_foldl (fun z l => ?_) _ _
  split
  · split
    · exact focus_setSwz _ _ _
    · rfl
  · rfl

@[simp] theorem focus_mend (s : State) (ls : List Loc) : (State.mend s ls).focus = s.focus := by
  unfold State.mend
  repeat' split
  all_goals rfl

@[simp] theorem focus_performWrite (s : State) (key : Nat) (ls : List Loc) (bs : List Byte) (swz : Option (BitVec 3)) : (State.performWrite s key ls bs swz).focus = s.focus := by
  unfold State.performWrite
  simp only
  repeat' split
  all_goals simp only [focus_pushes, focus_stampLines, focus_writeBytes, focus_swizzleTags, focus_mend]

@[simp] theorem focus_putDword (s : State) (key : Nat) (l : Loc) (w : DWord) : (State.putDword s key l w).focus = s.focus := by
  unfold State.putDword
  repeat' split
  all_goals simp only [focus_performWrite]

@[simp] theorem focus_lockAnswer (s : State) (w : LockWait) (v : Bool) : (State.lockAnswer s w v).focus = s.focus := by
  unfold State.lockAnswer
  simp only
  repeat' split
  all_goals simp only [State.modGang_focus]

@[simp] theorem focus_strikeOnce (s : State) (b g : Nat) (t : Trap) : (State.strikeOnce s b g t).focus = s.focus := by
  unfold State.strikeOnce
  repeat' split
  all_goals simp only [focus_strike]

@[simp] theorem focus_tryWaiter (s : State) (w : LockWait) : (State.tryWaiter s w).focus = s.focus := by
  unfold State.tryWaiter
  simp only
  repeat' split
  all_goals simp only [focus_putDword, focus_lockAnswer, focus_strikeOnce]

@[simp] theorem focus_retryLocks (s : State) : (State.retryLocks s).focus = s.focus := by
  unfold State.retryLocks
  exact focus_foldl (fun z w => focus_tryWaiter _ _) _ _

@[simp] theorem focus_unpinOpt (s : State) (n : Option Nat) : (State.unpinOpt s n).focus = s.focus := by
  unfold State.unpinOpt
  repeat' split
  all_goals simp only [focus_unpin]

@[simp] theorem focus_dropApq (s : State) (d : Die) (core q : Nat) : (State.dropApq s d core q).focus = s.focus := by
  unfold State.dropApq
  simp only [focus_unpinOpt]

@[simp] theorem focus_releaseApq (s : State) (d : Die) (core q : Nat) : (State.releaseApq s d core q).focus = s.focus := by
  unfold State.releaseApq
  repeat' split
  all_goals simp only [focus_dropApq]

@[simp] theorem focus_wakeLane (s : State) (b g l : Nat) : (State.wakeLane s b g l).focus = s.focus := by
  unfold State.wakeLane
  simp only
  repeat' split
  all_goals simp only [focus_takeTrap, focus_setApq, focus_releaseApq, State.setBlock_focus, State.setGang_focus]

@[simp] theorem focus_wakeGang (s : State) (b g : Nat) : (State.wakeGang s b g).focus = s.focus := by
  unfold State.wakeGang
  exact focus_foldl (fun z l => focus_wakeLane _ _ _ _) _ _

@[simp] theorem focus_settle (s : State) : (State.settle s).focus = s.focus := by
  unfold State.settle
  refine (focus_foldl (fun z x => ?_) _ _).trans (focus_retryLocks _)
  split
  · refine focus_foldl (fun w g => ?_) _ _
    split
    · exact focus_wakeGang _ _ _
    · rfl
  · rfl

@[simp] theorem focus_parkLanding (s : State) (z : Block) (off : Nat) (n : Int) : (State.parkLanding s z off n).focus = s.focus := by
  unfold State.parkLanding
  simp only
  repeat' split
  all_goals simp only [focus_performWrite, focus_strikeOnce, State.modBlock_focus]

@[simp] theorem focus_land (s : State) (x : Block) (c : Word) (n : Int) : (State.land s x c n).focus = s.focus := by
  unfold State.land
  repeat' split
  all_goals simp only [focus_parkLanding, State.modBlock_focus]

@[simp] theorem focus_complete (s : State) (x : Block) (c : Word) (remaining status : Nat) (detail : DWord) (cause : Option (BitVec 8 × DWord)) : (State.complete s x c remaining status detail cause).focus = s.focus := by
  unfold State.complete
  simp only
  repeat' split
  all_goals simp only [focus_land, State.modBlock_focus]

/-! ### Before a word -/

/-- What an attempt comes to keeps the canonical form of the state it was made from, and a word that is fetched is at issue. -/
def BeginKeeps (s : State) : Begin → Prop
  | .no => True
  | .ended z => s.memWf = true → z.memWf = true
  | .word _ z => AtWord z ∧ (s.memWf = true → z.memWf = true)

theorem beginKeeps_mono {s z : State} {r : Begin} (h : s.memWf = true → z.memWf = true) (hr : BeginKeeps z r) : BeginKeeps s r := by
  cases r with
  | no => trivial
  | ended t => exact fun hs => hr (h hs)
  | word w t => exact ⟨hr.1, fun hs => hr.2 (h hs)⟩

theorem beginWord_keeps {s : State} {x : Block} {g : Nat} {y : Gang} {m : Word} {pc hpc : Va} {h : Word} {nvl : Nat} {p : Block × Gang}
    (hg : s.gang? x.id g = some p) : BeginKeeps s (beginWord s x g y m pc hpc h nvl) := by
  unfold beginWord
  extract_lets up
  split
  · exact fun hs => memWf_modGang (memWf_takeTrap (memWf_setGang hs))
  split
  · exact fun hs => memWf_modGang (memWf_takeTrap (memWf_setGang hs))
  · exact ⟨⟨_, _, _, _, _, _, _, _, p, rfl, hg⟩, fun hs => memWf_of_fields hs⟩

theorem beginFirst_keeps {s : State} {x : Block} {g : Nat} {y : Gang} {m : Word} {pc hpc : Va} {h : Word} {nvl : Nat} {p : Block × Gang}
    (hg : s.gang? x.id g = some p) : BeginKeeps s (beginFirst s x g y m pc hpc h nvl) := by
  unfold beginFirst
  split
  · split
    · exact fun hs => memWf_setGang hs
    · trivial
  · exact beginWord_keeps hg

theorem beginHeader_keeps {s : State} {x z : Block} {g : Nat} {y y0 : Gang} {m : Word} {pc : Va} (hg : s.gang? x.id g = some (z, y0)) :
    BeginKeeps s (beginHeader s x g y m pc) := by
  unfold beginHeader
  split
  · exact fun hs => memWf_headerTrap hs
  split
  · exact fun hs => memWf_headerTrap hs
  · next w hw hb =>
    extract_lets y1
    have hk := beginKeeps_mono (s := s) (fun hs => memWf_setGang hs)
      (beginFirst_keeps (y := y1) (m := m) (pc := pc + 4) (hpc := pc) (h := w) (nvl := 0) (State.gang?_setGang_self y1 hg))
    split
    · next t ht =>
      rw [ht] at hk
      show s.memWf = true → State.memWf (if _ then _ else _) = true
      split
      · exact hk
      · exact fun hs => memWf_setGang hs
    · exact hk

theorem begin_keeps (s : State) (b g : Nat) : BeginKeeps s (s.begin b g) := by
  unfold State.begin
  split
  · trivial
  next x y0 hg =>
  extract_lets +onlyGivenNames asking y m
  clear_value asking
  split
  · trivial
  split
  · trivial
  next l0 hl =>
  extract_lets s1 l
  obtain ⟨hx, -⟩ := State.gang?_block hg
  obtain rfl : x.id = b := (State.block?_mem hx).2
  have h1 : s1.gang? x.id g = some _ := State.gang?_setGang_self y hg
  have hm : s.memWf = true → s1.memWf = true := fun hs => memWf_setGang hs
  split
  · exact beginKeeps_mono hm (beginHeader_keeps h1)
  · exact beginKeeps_mono hm (beginFirst_keeps h1)

/-- A word that decodes to nothing answers too. -/
theorem answers_illegalWord {w : Word} {s : State} (hs : AtWord s) : Answers s (illegalWord w s) := by
  obtain ⟨b, g, m, pc, hpc, h, w', nvl, p, hf, -⟩ := hs
  simp only [illegalWord, hf]
  exact answers_progressed fun hs => memWf_takeTrap (memWf_modGang hs)

theorem answers_runWord {w : Word} {s : State} (hs : AtWord s) : Answers s (runWord w s) := by
  unfold runWord
  split
  · next i hi => exact answers_exec hs (by rw [(encodeOfDecode w i hi).1]; rfl)
  · exact answers_illegalWord hs

theorem answers_attempt (s : State) (b g : Nat) : Answers s (attempt s b g) := by
  have hk := begin_keeps s b g
  unfold attempt
  split
  · exact answers_notReady id
  · next z hz =>
    rw [hz] at hk
    exact answers_progressed hk
  · next w z hz =>
    rw [hz] at hk
    obtain ⟨t, ht, hf, hm⟩ := answers_runWord (w := w) hk.1
    exact ⟨t, ht, hf, fun hs => hm (hk.2 hs)⟩

/-! ### A turn -/

/-- An outcome of a turn: a next state, at rest if the state was, of the canonical form if the state is. -/
def Keeps (s : State) (o : Host.Outcome State Fault Refusal) : Prop :=
  ∃ t, o = .next t ∧ (s.focus = .idle → t.focus = .idle) ∧ (s.memWf = true → t.memWf = true)

theorem keeps_self (s : State) : Keeps s (.next s) := ⟨s, rfl, id, id⟩

theorem keeps_issueTurn (s : State) (d : Die) (core part : Nat) : Keeps s (s.issueTurn d core part) := by
  unfold State.issueTurn
  extract_lets cs
  split
  · exact keeps_self s
  next c hc =>
  obtain ⟨t, ht, hf, hm⟩ := answers_attempt s c.b c.g
  unfold State.ready
  rw [ht]
  by_cases hp : t.progress = true
  · simp only [hp, if_true]
    exact ⟨_, rfl, fun _ => hf, fun hs => memWf_noteIssue (hm hs)⟩
  · simp only [hp, if_false, Bool.false_eq_true]
    exact keeps_self s

theorem focus_timeTurn (s : State) (n0 n1 : Nat) : (s.timeTurn n0 n1).focus = s.focus := by
  unfold State.timeTurn
  extract_lets n
  split
  · exact focus_settle _
  · rfl

theorem keeps_timeTurn (s : State) (n0 n1 : Nat) : Keeps s (.next (s.timeTurn n0 n1)) :=
  ⟨_, rfl, fun hs => (focus_timeTurn s n0 n1).trans hs, fun hs => memWf_timeTurn hs⟩

/-- A device step: it answers a next state, of the canonical form where the state is. -/
def Acts (s : State) (o : Host.Outcome State Fault Refusal) : Prop := ∃ t, o = .next t ∧ (s.memWf = true → t.memWf = true)

theorem acts_self (s : State) : Acts s (.next s) := ⟨s, rfl, id⟩

theorem acts_next {s t : State} (h : s.memWf = true → t.memWf = true) : Acts s (.next t) := ⟨t, rfl, h⟩

theorem acts_ite {s : State} {p : Prop} [Decidable p] {a b : Host.Outcome State Fault Refusal} (ha : Acts s a) (hb : Acts s b) :
    Acts s (if p then a else b) := by
  split
  · exact ha
  · exact hb

/-! ### Address programs -/

/-- A word of a claimed queue's program answers, and keeps the canonical form where its effect does. -/
theorem answers_apWord {s : State} {d : Die} {core q : Nat} {a : ApQueue} {eff : ApQueue → State → ApEff} (ha : s.apq? d core q = some a)
    (he : ∀ z a', eff a s = .done z a' → s.memWf = true → z.memWf = true) : Answers s (apWord d core q eff s) := by
  simp only [apWord, ha]
  split
  · exact answers_progressed fun hs => memWf_apMalformed hs
  · exact answers_notReady id
  · next z a' hz =>
    split
    · exact answers_progressed fun hs => memWf_overrun (memWf_setApq hs)
    · exact answers_progressed fun hs => memWf_setApq (memWf_charge (he z a' hz hs))

section

variable {s : State} {d : Die} {core q : Nat} {w : Word} {a : ApQueue} (hf : s.focus = .ap d core q w) (ha : s.apq? d core q = some a)

include hf ha

theorem answers_uniformWord_in_program {i : Info} {ok : Bool} {f : (Nat → Word) → UOut} : Answers s (uniformWord i ok f s) := by
  simp only [uniformWord, hf]
  refine answers_apWord ha fun z a' hz hs => ?_
  split at hz
  · obtain ⟨rfl, -⟩ := ApEff.done.inj hz
    exact hs
  · cases hz

theorem answers_salu_in_program {o : S3} {op : Word → Word → Word} : Answers s (salu o op s) := answers_uniformWord_in_program hf ha

theorem answers_scmp_in_program {cc : Cond} {o : S3} : Answers s (scmp cc o s) := answers_uniformWord_in_program hf ha

theorem answers_bra_in_program {o : Jf} : Answers s (execBra o s) := by
  simp only [execBra, hf]
  refine answers_apWord ha fun z a' hz hs => ?_
  split at hz
  · cases hz
  split at hz
  · cases hz
  split at hz
  · obtain ⟨rfl, -⟩ := ApEff.done.inj hz
    exact hs
  · obtain ⟨rfl, -⟩ := ApEff.done.inj hz
    exact hs

theorem answers_aqe_in_program {o : XAB} : Answers s (execAqe o s) := by
  simp only [execAqe, hf]
  refine answers_apWord ha fun z a' hz hs => ?_
  split at hz
  · cases hz
  split at hz
  · cases hz
  split at hz
  · cases hz
  · obtain ⟨rfl, -⟩ := ApEff.done.inj hz
    exact memWf_of_fields hs

theorem answers_aqend_in_program {o : X0} : Answers s (execAqend o s) := by
  simp only [execAqend, hf]
  refine answers_apWord ha fun z a' hz hs => ?_
  obtain ⟨rfl, -⟩ := ApEff.done.inj hz
  exact hs

/-- R213: a word of an address program answers; one that it may not hold ends it. -/
theorem answers_apExec (i : Instr) : Answers s (apExec i d core q s) := by
  unfold apExec
  split
  case h_17 o => exact answers_uniformWord_in_program hf ha
  case h_18 o => exact answers_uniformWord_in_program hf ha
  case h_19 o => exact answers_uniformWord_in_program hf ha
  case h_20 o => exact answers_bra_in_program hf ha
  case h_21 o => exact answers_aqe_in_program hf ha
  case h_22 o => exact answers_aqend_in_program hf ha
  case h_23 => exact answers_progressed fun hs => memWf_apMalformed hs
  case' h_7 o => unfold execSshl
  case' h_8 o => unfold execSshr
  case h_9 o | h_10 o | h_11 o | h_12 o | h_13 o | h_14 o | h_15 o | h_16 o => exact answers_scmp_in_program hf ha
  all_goals exact answers_salu_in_program hf ha

end

/-- The word of a step of a program, fetched: it answers, and the program that it ends is ended. -/
theorem acts_programWord {s : State} {d : Die} {core q : Nat} {a : ApQueue} {w : Word} {x : Block} (ha : s.apq? d core q = some a) :
    Acts s (match (match decodeLow w with
        | .ok i => if i.wellFormed then apExec i d core q { s with focus := .ap d core q w }
          else progressed (({ s with focus := .ap d core q w } : State).apMalformed d core q)
        | .error _ => progressed (({ s with focus := .ap d core q w } : State).apMalformed d core q)) with
      | .next s3 => .next (s3.endProgram x q)
      | r => r) := by
  have hm : s.memWf = true → State.memWf { s with focus := .ap d core q w } = true := fun hs => memWf_of_fields hs
  have key : Answers { s with focus := .ap d core q w } (match decodeLow w with
        | .ok i => if i.wellFormed then apExec i d core q { s with focus := .ap d core q w }
          else progressed (({ s with focus := .ap d core q w } : State).apMalformed d core q)
        | .error _ => progressed (({ s with focus := .ap d core q w } : State).apMalformed d core q)) := by
    have ha' : ({ s with focus := .ap d core q w } : State).apq? d core q = some a := ha
    split
    · exact answers_ite (answers_apExec rfl ha' _) (answers_progressed fun hs => memWf_apMalformed hs)
    · exact answers_progressed fun hs => memWf_apMalformed hs
  obtain ⟨t, ht, -, hk⟩ := key
  rw [ht]
  exact acts_next fun hs => memWf_endProgram (hk (hm hs))

theorem acts_mono {s z : State} {o : Host.Outcome State Fault Refusal} (h : s.memWf = true → z.memWf = true) (ho : Acts z o) : Acts s o := by
  obtain ⟨t, ht, hk⟩ := ho
  exact ⟨t, ht, fun hs => hk (h hs)⟩

theorem acts_apStep {s : State} {d : Die} {core q : Nat} {x : Block} {a a0 : ApQueue} (ha : s.apq? d core q = some a0) :
    Acts s (s.apStep d core q x a) := by
  unfold State.apStep
  simp only
  split
  · split
    · exact acts_next fun hs => memWf_apFault hs
    · exact acts_programWord ha
  · split
    · exact acts_next fun hs => memWf_apFault hs
    split
    · exact acts_next fun hs => memWf_endProgram (memWf_apMalformed hs)
    split
    · exact acts_next fun hs => memWf_apFault (memWf_setApq hs)
    · exact acts_mono (fun hs => memWf_setApq hs) (acts_programWord (apq?_setApq ha _))

theorem acts_addressProgramStep (s : State) : Acts s (execAddressProgramStep s) := by
  unfold execAddressProgramStep
  split
  · extract_lets die
    split
    · exact acts_self s
    next a ha =>
    split
    · exact acts_self s
    split
    · exact acts_self s
    · exact acts_apStep ha
  · exact acts_self s

end Sys2Proof.Laws
end

section
/-! SUPPORT. What every device step answers, with the canonical form of the memories kept. -/

namespace Sys2Proof.Laws

open Sys2Proof Sys2Proof.Machine

-- In turn, not in parallel: these many short proofs, each waiting for the equations of its own function, would take
-- more threads at a time than the memory holds stacks for.
set_option Elab.async false

theorem acts_entryFetch (s : State) : Acts s (execEntryFetch s) := by
  unfold execEntryFetch
  simp only
  repeat' split
  any_goals exact acts_self s
  · exact acts_next fun hs => memWf_watchIndex (memWf_setQueue hs)
  · exact acts_next fun hs => memWf_setQueue hs
  · exact acts_next fun hs => memWf_faultQueue hs
  · exact acts_next fun hs => memWf_badWalk hs

theorem acts_writeIndexPush (s : State) : Acts s (execWriteIndexPush s) := by
  unfold execWriteIndexPush
  split
  · split
    · exact acts_self s
    split
    · split
      · exact acts_self s
      split
      · exact acts_next fun hs => memWf_takeIndex (memWf_takePush hs)
      split
      · exact acts_next fun hs => memWf_faultQueue (memWf_dropSub hs)
      split
      · next z hz => exact acts_next fun hs => memWf_feWatch (memWf_dropSub hs) hz
      · exact acts_next fun hs => memWf_faultQueue (memWf_dropSub hs)
      · exact acts_self s
      · exact acts_next fun hs => memWf_badWalk (memWf_dropSub hs)
    · exact acts_self s
  · exact acts_self s

theorem acts_entryNop (s : State) : Acts s (execEntryNop s) := by
  unfold execEntryNop
  split
  · extract_lets +onlyGivenNames d
    split
    · exact acts_self s
    split
    · exact acts_self s
    extract_lets
    exact acts_next fun hs => memWf_presentPlain hs fun z hz => memWf_finishNow hz
  · exact acts_self s

theorem acts_entryLaunch (s : State) : Acts s (execEntryLaunch s) := by
  unfold execEntryLaunch
  simp only
  repeat' split
  any_goals exact acts_self s
  exact acts_next fun hs => memWf_presentLaunch hs

theorem acts_entryNode (s : State) : Acts s (execEntryNode s) := by
  unfold execEntryNode
  simp only
  repeat' split
  any_goals exact acts_self s
  exact acts_next fun hs => memWf_presentLaunch hs

theorem acts_entryFetchfence (s : State) : Acts s (execEntryFetchfence s) := by
  unfold execEntryFetchfence
  split
  · extract_lets +onlyGivenNames d
    split
    · exact acts_self s
    split
    · exact acts_self s
    extract_lets
    exact acts_next fun hs => memWf_presentPlain hs fun z hz => by
      refine memWf_finishNow ?_
      split
      · exact memWf_setQueue hz
      · exact hz
  · exact acts_self s

theorem acts_entrySignal (s : State) : Acts s (execEntrySignal s) := by
  unfold execEntrySignal
  split
  · extract_lets +onlyGivenNames d
    split
    · exact acts_self s
    split
    · exact acts_self s
    extract_lets
    exact acts_next fun hs => memWf_presentPlain hs fun z hz => memWf_addEntry hz
  · exact acts_self s

theorem acts_signalStore (s : State) : Acts s (execSignalStore s) := by
  unfold execSignalStore
  repeat' split
  any_goals exact acts_self s
  · exact acts_next fun hs => memWf_finish (memWf_fePut hs)
  · exact acts_next fun hs => memWf_failWord hs
  · exact acts_next fun hs => memWf_badWord hs

theorem acts_entryWaitv (s : State) : Acts s (execEntryWaitv s) := by
  unfold execEntryWaitv
  split
  · extract_lets +onlyGivenNames d
    split
    · exact acts_self s
    next x bs hx =>
    extract_lets e size bad word quota
    split
    · exact acts_self s
    refine acts_next fun hs => memWf_presentPlain hs fun z hz => ?_
    clear_value word
    split
    · split
      · refine memWf_feSubscribe ?_
        extract_lets
        split
        · exact memWf_setQueue (memWf_addEntry hz)
        · exact memWf_addEntry hz
      · exact memWf_postFault (memWf_finishNow hz)
    · exact memWf_postFault (memWf_finishNow hz)
    · exact memWf_badWord (memWf_addEntry hz)
    · exact hz
  · exact acts_self s

theorem acts_waitvPush (s : State) : Acts s (execWaitvPush s) := by
  unfold execWaitvPush
  split
  · split
    · exact acts_self s
    split
    · split
      · split
        · exact acts_next fun hs => memWf_fireWaitv hs
        · exact acts_next fun hs => memWf_takePush hs
      split
      · exact acts_next fun hs => memWf_failWord (memWf_dropSub hs)
      split
      · next z hz => exact acts_next fun hs => memWf_feWatch (memWf_dropSub hs) hz
      · exact acts_next fun hs => memWf_failWord (memWf_dropSub hs)
      · exact acts_self s
      · exact acts_next fun hs => memWf_badWord (memWf_dropSub hs)
    · exact acts_self s
  · exact acts_self s

theorem acts_splitHalfRequest (s : State) : Acts s (execSplitHalfRequest s) := by
  unfold execSplitHalfRequest
  split
  · split
    · exact acts_self s
    split
    · split
      · exact acts_self s
      extract_lets
      split
      · exact acts_next fun hs => memWf_reject (memWf_decideEntry (memWf_dropEntry hs))
      · exact acts_next fun hs => memWf_decideEntry (memWf_install (memWf_addEntry (memWf_of_fields (memWf_setEntry hs))))
    · exact acts_self s
  · exact acts_self s

theorem acts_splitHalfFinish (s : State) : Acts s (execSplitHalfFinish s) := by
  unfold execSplitHalfFinish
  repeat' split
  any_goals exact acts_self s
  exact acts_next fun hs => memWf_setEntry hs

theorem acts_queueMap (s : State) : Acts s (execQueueMap s) := by
  unfold execQueueMap
  split
  · extract_lets +onlyGivenNames d desc x0 valid w x s1 s2 s3
    split
    · exact acts_self s
    have h2 : s.memWf = true → s2.memWf = true := fun hs => by
      have h1 : s1.memWf = true := memWf_putDesc (memWf_modFe hs)
      unfold s2
      clear_value w
      split
      · exact memWf_setEntry h1
      · exact h1
    have h3 : s.memWf = true → s3.memWf = true := fun hs => memWf_watchWaitv (memWf_watchIndex (memWf_bindRing (h2 hs)))
    split
    · exact acts_next fun hs => memWf_faultQueue (h3 hs)
    · exact acts_next h3
  · exact acts_self s

theorem acts_queueUnmap (s : State) : Acts s (execQueueUnmap s) := by
  unfold execQueueUnmap
  split
  · extract_lets +onlyGivenNames d
    split
    · exact acts_self s
    next x hx =>
    extract_lets +onlyGivenNames x1 wake p s1 s2
    split
    · exact acts_next fun hs => memWf_setQueue hs
    have hp : s.memWf = true → p.memWf = true := fun hs => memWf_putDesc hs
    clear_value p
    have h2 : s.memWf = true → s2.memWf = true := fun hs => memWf_modFe (memWf_of_fields (hp hs))
    split
    · exact acts_next fun hs => memWf_noticeOn (h2 hs)
    · exact acts_next h2
  · exact acts_self s

theorem acts_queueFaultClear (s : State) : Acts s (execQueueFaultClear s) := by
  unfold execQueueFaultClear
  split
  · extract_lets d
    split
    · exact acts_self s
    split
    · exact acts_self s
    · exact acts_next fun hs => memWf_keepIndex (memWf_writeRidx (memWf_setQueue hs))
  · exact acts_self s

theorem acts_fecfgWrite (s : State) : Acts s (execFecfgWrite s) := by
  unfold execFecfgWrite
  repeat' split
  any_goals exact acts_self s
  all_goals exact acts_next fun hs => memWf_modFe hs

theorem acts_fepcmdGrant (s : State) : Acts s (execFepcmdGrant s) := by
  unfold execFepcmdGrant
  repeat' split
  any_goals exact acts_self s
  · exact acts_next fun hs => memWf_command hs
  · exact acts_next fun hs => memWf_commandNow hs

theorem acts_fepcmdDemote (s : State) : Acts s (execFepcmdDemote s) := by
  unfold execFepcmdDemote
  repeat' split
  any_goals exact acts_self s
  · exact acts_next fun hs => memWf_command hs
  · exact acts_next fun hs => memWf_commandNow hs

theorem acts_fepcmdAbort (s : State) : Acts s (execFepcmdAbort s) := by
  unfold execFepcmdAbort
  repeat' split
  any_goals exact acts_self s
  · exact acts_next fun hs => memWf_command hs
  · exact acts_next fun hs => memWf_commandNow hs

theorem acts_blockPlacement (s : State) : Acts s (execBlockPlacement s) := by
  unfold execBlockPlacement
  simp only
  repeat' split
  any_goals exact acts_self s
  exact acts_next fun hs => memWf_settle (memWf_placeAt hs)

theorem memWf_reserve {s z : State} {y : Block} (h : s.memWf = true) (hz : s.reserve y = some z) : z.memWf = true := by
  unfold State.reserve at hz
  split at hz
  · cases hz
  · obtain ⟨l, -, rfl⟩ := Option.map_eq_some_iff.1 hz
    exact memWf_modBlock (memWf_modBlock h fun x hx => hx) fun x hx => hx

/-- A choice of states, each of them of the canonical form. -/
def SomeWf (o : Option State) : Prop := ∀ z, o = some z → z.memWf = true

theorem memWf_preempt {s z : State} {x : Block} (h : s.memWf = true) (hz : s.preempt x = some z) : z.memWf = true := by
  unfold State.preempt at hz
  extract_lets ms here window at hz
  split at hz
  · cases hz
  · refine foldl_keeps (P := SomeWf) (fun a y ha => ?_) ms (some s) (fun t ht => Option.some.inj ht ▸ h) z hz
    intro t ht
    obtain ⟨u, hu, hr⟩ := Option.bind_eq_some_iff.1 ht
    obtain ⟨v, hv, rfl⟩ := Option.map_eq_some_iff.1 hr
    exact memWf_preemptBlock (memWf_reserve (ha u hu) hv)


theorem acts_preemptDecision (s : State) : Acts s (execPreemptDecision s) := by
  unfold execPreemptDecision
  split
  · split
    · exact acts_self s
    split
    · exact acts_self s
    · exact acts_next fun hs => memWf_getD (fun z hz => memWf_preempt hs hz) hs
  · exact acts_self s

theorem acts_saveImageDone (s : State) : Acts s (execSaveImageDone s) := by
  unfold execSaveImageDone
  split
  · split
    · exact acts_self s
    split
    · split
      · exact acts_self s
      split
      · split
        · exact acts_self s
        · exact acts_next fun hs => memWf_strikeCtx hs
      · exact acts_next fun hs => memWf_modBlock (memWf_writeImage hs) fun y hy => hy
    · exact acts_self s
  · exact acts_self s

theorem acts_blockRestore (s : State) : Acts s (execBlockRestore s) := by
  unfold execBlockRestore
  split
  · split
    · exact acts_self s
    next x hx =>
    extract_lets +onlyGivenNames ms ps ready
    clear_value ready
    split
    · exact acts_self s
    split
    · exact acts_self s
    split
    · split
      · exact acts_self s
      · exact acts_next fun hs => memWf_strikeCtx hs
    split
    · exact acts_next fun hs => memWf_foldl (fun z q hz => memWf_overrun hz) hs
    · refine acts_next fun hs => memWf_settle (memWf_foldl (fun z y hz => memWf_retest hz) (memWf_foldl (fun z p hz => ?_) hs))
      simp only
      split
      · exact memWf_restoreBlock hz
      · exact hz
  · exact acts_self s

theorem acts_blockEnd (s : State) : Acts s (execBlockEnd s) := by
  unfold execBlockEnd
  split
  · split
    · exact acts_self s
    next x hx =>
    extract_lets +onlyGivenNames subs s1 s2
    split
    · exact acts_self s
    refine acts_next fun hs => memWf_settle ?_
    have h1 : s1.memWf = true := memWf_endBlock hs
    unfold s2
    split
    · exact memWf_setEntry h1
    · exact h1
  · exact acts_self s

theorem acts_entryFinish (s : State) : Acts s (execEntryFinish s) := by
  unfold execEntryFinish
  repeat' split
  any_goals exact acts_self s
  · exact acts_next fun hs => memWf_update (memWf_abortEntry hs) rfl
  · exact acts_next fun hs => memWf_finish hs

theorem acts_completionWrite (s : State) : Acts s (execCompletionWrite s) := by
  unfold execCompletionWrite
  split
  · split
    · exact acts_self s
    split
    · exact acts_self s
    split
    · exact acts_self s
    split
    · next z hz => exact acts_next fun hs => memWf_dropEntry (memWf_writeCompletion hs hz)
    · exact acts_self s
  · exact acts_self s

/-- The blocks of a state, each changed beside its memory. -/
theorem memWf_mapBlocks {s : State} {f : Block → Block} (h : s.memWf = true) (hf : ∀ x, (f x).mem = x.mem) :
    State.memWf { s with blocks := s.blocks.map f } = true :=
  memWf_of_blocks h rfl rfl rfl rfl fun y hy => by
    obtain ⟨x, hx, rfl⟩ := List.mem_map.1 hy
    rw [hf]
    exact wf_of_mem h hx


theorem acts_deadlineInheritUpdate (s : State) : Acts s (execDeadlineInheritUpdate s) := by
  unfold execDeadlineInheritUpdate
  exact acts_next fun hs => memWf_foldl (fun z _ hz => memWf_inheritLink hz) (memWf_mapBlocks hs fun _ => rfl)

theorem acts_budgetReport (s : State) : Acts s (execBudgetReport s) := by
  unfold execBudgetReport
  split
  · split
    · exact acts_self s
    · refine acts_next fun hs => memWf_mapBlocks hs fun x => ?_
      split <;> rfl
  · exact acts_self s

theorem acts_enqrNodeAnswer (s : State) : Acts s (execEnqrNodeAnswer s) := by
  unfold execEnqrNodeAnswer
  repeat' split
  any_goals exact acts_self s
  exact acts_next fun hs => memWf_setGang hs

theorem acts_enqrAccept (s : State) : Acts s (execEnqrAccept s) := by
  unfold execEnqrAccept
  repeat' split
  any_goals exact acts_self s
  · exact acts_next fun hs => memWf_endOp hs
  · exact acts_next fun hs => memWf_endOp hs
  · exact acts_next fun hs => memWf_endOp (memWf_gather hs)

theorem acts_nodeBlockLaunch (s : State) : Acts s (execNodeBlockLaunch s) := by
  unfold execNodeBlockLaunch
  repeat' split
  any_goals exact acts_self s
  exact acts_next fun hs => memWf_nodeLaunch hs

theorem acts_nodeTimeout (s : State) : Acts s (execNodeTimeout s) := by
  unfold execNodeTimeout
  repeat' split
  any_goals exact acts_self s
  exact acts_next fun hs => memWf_nodeLaunch hs

theorem acts_nodeMarginReached (s : State) : Acts s (execNodeMarginReached s) := by
  unfold execNodeMarginReached
  repeat' split
  any_goals exact acts_self s
  exact acts_next fun hs => memWf_nodeLaunch hs

theorem acts_fairnessSweep (s : State) : Acts s (execFairnessSweep s) := by
  unfold execFairnessSweep
  repeat' split
  any_goals exact acts_self s
  exact acts_next fun hs => memWf_modGang hs

theorem acts_fairnessTurnEnd (s : State) : Acts s (execFairnessTurnEnd s) := by
  unfold execFairnessTurnEnd
  repeat' split
  any_goals exact acts_self s
  exact acts_next fun hs => memWf_modGang hs

theorem acts_variableLatencyComplete (s : State) : Acts s (execVariableLatencyComplete s) := by
  unfold execVariableLatencyComplete
  repeat' split
  any_goals exact acts_self s
  exact acts_next fun hs => memWf_completePend hs

theorem acts_fixedLatencyWrite (s : State) : Acts s (execFixedLatencyWrite s) := by
  unfold execFixedLatencyWrite
  split
  · exact acts_next fun hs => memWf_modGang hs
  · exact acts_self s

theorem acts_storePerform (s : State) : Acts s (execStorePerform s) := by
  unfold execStorePerform
  split
  · exact acts_next fun hs => memWf_onBlock hs fun z hz => memWf_storePerform hz
  · refine acts_next fun hs => memWf_onBlock hs fun z hz => ?_
    split
    · exact memWf_storePerform hz
    · exact hz
  · exact acts_self s

theorem acts_readPerform (s : State) : Acts s (execReadPerform s) := by
  unfold execReadPerform
  split
  · exact acts_next fun hs => memWf_onBlock hs fun z hz => memWf_readPerform hz
  · refine acts_next fun hs => memWf_onBlock hs fun z hz => ?_
    split
    · exact memWf_readPerform hz
    · exact hz
  · exact acts_self s

theorem acts_atomicPerform (s : State) : Acts s (execAtomicPerform s) := by
  unfold execAtomicPerform
  split
  · exact acts_next fun hs => memWf_onBlock hs fun z hz => memWf_atomicPerform hz
  · exact acts_next fun hs => memWf_onBlock hs fun z hz => memWf_atomicRefused hz
  · exact acts_self s

theorem acts_sectorPerform (s : State) : Acts s (execSectorPerform s) := by
  unfold execSectorPerform
  repeat' split
  any_goals exact acts_self s
  · exact acts_next fun hs => memWf_sectorWrite hs
  · exact acts_next fun hs => memWf_kvlRead hs
  · exact acts_next fun hs => memWf_sectorRead hs
  · exact acts_next fun hs => memWf_byteWrite hs
  · exact acts_next fun hs => memWf_byteRead hs

theorem acts_lineDrop (s : State) : Acts s (execLineDrop s) := by
  unfold execLineDrop
  repeat' split
  any_goals exact acts_self s
  exact acts_next fun hs => memWf_dropLines hs

theorem acts_pushDelivery (s : State) : Acts s (execPushDelivery s) := by
  unfold execPushDelivery
  repeat' split
  any_goals exact acts_self s
  · exact acts_next fun hs => memWf_settle (memWf_deliverLog hs)
  · exact acts_next fun hs => memWf_settle (memWf_deliverLocal hs)
  · exact acts_next fun hs => memWf_wakeDesc (memWf_setSub hs)

theorem acts_copyFault (s : State) : Acts s (execCopyFault s) := by
  unfold execCopyFault
  repeat' split
  any_goals exact acts_self s
  · exact acts_next fun hs => memWf_copyFault hs
  · exact acts_next fun hs => memWf_strike hs
  · exact acts_next fun hs => memWf_copyFault hs

theorem acts_lockHintExpiry (s : State) : Acts s (execLockHintExpiry s) := by
  unfold execLockHintExpiry
  repeat' split
  any_goals exact acts_self s
  exact acts_next fun hs => memWf_settle (memWf_dropWaiter hs)

theorem acts_trywHintExpiry (s : State) : Acts s (execTrywHintExpiry s) := by
  unfold execTrywHintExpiry
  repeat' split
  any_goals exact acts_self s
  exact acts_next fun hs => memWf_expire hs

theorem acts_tbtryHintExpiry (s : State) : Acts s (execTbtryHintExpiry s) := by
  unfold execTbtryHintExpiry
  repeat' split
  any_goals exact acts_self s
  exact acts_next fun hs => memWf_expire hs

theorem acts_slwaitHintExpiry (s : State) : Acts s (execSlwaitHintExpiry s) := by
  unfold execSlwaitHintExpiry
  repeat' split
  any_goals exact acts_self s
  exact acts_next fun hs => memWf_expire hs

theorem acts_sldHomeRequest (s : State) : Acts s (execSldHomeRequest s) := by
  unfold execSldHomeRequest
  split
  · split
    · exact acts_self s
    next id o ho =>
    split
    · next x hk hx hfault =>
      split
      · exact acts_self s
      extract_lets +onlyGivenNames key
      split
      · split
        · exact acts_self s
        · exact acts_next fun hs => memWf_strike hs
      · exact acts_next fun hs => memWf_endOp hs
      · exact acts_next fun hs => memWf_endOp hs
      · extract_lets +onlyGivenNames u
        split
        · exact acts_next fun hs => memWf_of_fields (s := s.setOp { o with slot := none }) (memWf_setOp hs)
        split
        · exact acts_next fun hs => memWf_endOp hs
        extract_lets +onlyGivenNames s1
        have h1 : s.memWf = true → s1.memWf = true := fun hs => memWf_subscribe (memWf_setOp hs)
        split
        · split
          · exact acts_next fun hs => memWf_closePoison (h1 hs)
          · exact acts_next h1
        · exact acts_next h1
    · exact acts_self s
  · exact acts_self s

theorem acts_creditReturn (s : State) : Acts s (execCreditReturn s) := by
  unfold execCreditReturn
  simp only
  repeat' split
  any_goals exact acts_self s
  all_goals exact acts_next fun hs => memWf_setSub hs

theorem acts_usubHome (s : State) : Acts s (execUsubHome s) := by
  unfold execUsubHome
  repeat' split
  any_goals exact acts_self s
  · exact acts_next fun hs => memWf_closePlain hs
  · exact acts_next fun hs => memWf_finishOp hs
  · exact acts_next fun hs => memWf_finishOp (memWf_cancelSld hs)

theorem acts_subscriptionPoison (s : State) : Acts s (execSubscriptionPoison s) := by
  unfold execSubscriptionPoison
  repeat' split
  any_goals exact acts_self s
  exact acts_next fun hs => memWf_closePoison hs

theorem acts_operandsConsumed (s : State) : Acts s (execOperandsConsumed s) := by
  unfold execOperandsConsumed
  split
  · split
    · exact acts_self s
    next x hx =>
    split
    · exact acts_self s
    next o ho =>
    split
    · exact acts_self s
    extract_lets +onlyGivenNames now z s1
    have hz : s.memWf = true → z.memWf = true := fun hs => memWf_modBlock hs fun y hy => hy
    clear_value z
    have h1 : s.memWf = true → s1.memWf = true := fun hs => memWf_of_fields (hz hs)
    split
    · exact acts_next fun hs => memWf_settle (memWf_complete (h1 hs))
    · exact acts_next h1
  · exact acts_self s

theorem acts_matrixOpComplete (s : State) : Acts s (execMatrixOpComplete s) := by
  unfold execMatrixOpComplete
  repeat' split
  any_goals exact acts_self s
  exact acts_next fun hs => memWf_matComplete hs

theorem acts_systemTrapRecord (s : State) : Acts s (execSystemTrapRecord s) := by
  unfold execSystemTrapRecord
  split
  · split
    · exact acts_self s
    extract_lets +onlyGivenNames r size
    split
    · exact acts_self s
    extract_lets +onlyGivenNames at_ s1 s2 s3 s4 s5
    refine acts_next fun hs => memWf_watchRing ?_
    have h3 : s3.memWf = true := memWf_setTrapRing (memWf_performWrite (memWf_performWrite hs))
    clear_value s3
    have h4 : s4.memWf = true := memWf_of_fields h3
    unfold s5
    split
    · exact h4
    · exact memWf_modGang h4
  · exact acts_self s

theorem acts_trapResolution (s : State) : Acts s (execTrapResolution s) := by
  unfold execTrapResolution
  repeat' split
  any_goals exact acts_self s
  · exact acts_next fun hs => memWf_watchRing (memWf_dropSub hs)
  · exact acts_next fun hs => memWf_handleRecords (memWf_takePush hs)

theorem acts_contextDiscard (s : State) : Acts s (execContextDiscard s) := by
  unfold execContextDiscard
  split
  · exact acts_self s
  split
  · exact acts_self s
  extract_lets +onlyGivenNames ids s1 s2
  refine acts_next fun hs => memWf_settle (memWf_blackBox (memWf_faultQueues ?_))
  have h1 : s1.memWf = true := memWf_foldl (fun z id hz => memWf_abortEntry hz) (memWf_of_fields hs)
  clear_value s1
  exact memWf_of_fields h1

theorem acts_deviceFatal (s : State) : Acts s (execDeviceFatal s) := by
  unfold execDeviceFatal
  split
  · exact acts_next fun hs => memWf_goFatal hs
  · exact acts_self s

theorem acts_pinCurrent (s : State) : Acts s (execPinCurrent s) := by
  unfold execPinCurrent
  split
  · split
    · next n z hz => exact acts_next fun hs => memWf_pinCurrent hs hz
    · exact acts_self s
  · exact acts_self s

theorem acts_pin (s : State) : Acts s (execPin s) := by
  unfold execPin
  split
  · split
    · exact acts_self s
    · exact acts_next fun hs => memWf_getD (fun z hz => memWf_pin hs hz) hs
  · exact acts_self s

theorem acts_unpin (s : State) : Acts s (execUnpin s) := by
  unfold execUnpin
  repeat' split
  any_goals exact acts_self s
  exact acts_next fun hs => memWf_unpin hs

theorem acts_noticeRingPost (s : State) : Acts s (execNoticeRingPost s) := by
  unfold execNoticeRingPost
  simp only
  repeat' split
  any_goals exact acts_self s
  all_goals exact acts_next fun hs => memWf_modFe (memWf_performWrite (memWf_of_fields hs))

theorem acts_translationWalk (s : State) : Acts s (execTranslationWalk s) := by
  unfold execTranslationWalk
  split
  · extract_lets +onlyGivenNames die r
    split
    · exact acts_self s
    split
    · exact acts_next fun hs => memWf_fillNodes hs
    extract_lets +onlyGivenNames s1 size ent who cap mine rest s2 k
    have h2 : s.memWf = true → s2.memWf = true := fun hs => by
      have h1 : s1.memWf = true := memWf_fillNodes hs
      clear_value s1
      unfold s2
      split
      · exact h1
      · exact memWf_of_fields h1
    clear_value s2
    split
    · refine acts_next fun hs => ?_
      split
      · exact h2 hs
      · exact memWf_of_fields (h2 hs)
    · exact acts_next h2
  · exact acts_self s

theorem acts_ndropComplete (s : State) : Acts s (execNdropComplete s) := by
  unfold execNdropComplete
  repeat' split
  any_goals exact acts_self s
  exact acts_next fun hs => memWf_endOp (memWf_of_fields hs)

theorem acts_registerWrite (s : State) : Acts s (execRegisterWrite s) := by
  unfold execRegisterWrite
  repeat' split
  any_goals exact acts_self s
  · exact acts_next fun hs => memWf_writeWindow hs
  · exact acts_next fun hs => memWf_of_fields hs

theorem acts_hostBar2Request (s : State) : Acts s (execHostBar2Request s) := by
  unfold execHostBar2Request
  simp only
  repeat' split
  any_goals exact acts_self s
  · exact acts_next fun hs => memWf_of_fields hs
  · exact acts_next fun hs => memWf_of_fields hs
  · exact acts_next fun hs => memWf_of_fields hs
  · exact acts_next fun hs => memWf_hostFault hs
  · exact acts_next fun hs => memWf_hostFault hs
  · exact acts_next fun hs => memWf_update (memWf_strikeCtx hs) rfl
  · exact acts_next fun hs => memWf_of_fields hs
  · exact acts_next fun hs => memWf_update (memWf_strikeCtx hs) rfl
  · exact acts_next fun hs => memWf_update (memWf_settle (memWf_performWrite hs)) rfl

theorem acts_atsInvalidation (s : State) : Acts s (execAtsInvalidation s) := by
  unfold execAtsInvalidation
  simp only
  repeat' split
  any_goals exact acts_self s
  all_goals exact acts_next fun hs => memWf_of_fields hs

theorem acts_spdmRequest (s : State) : Acts s (execSpdmRequest s) := by
  unfold execSpdmRequest
  repeat' split
  any_goals exact acts_self s
  all_goals exact acts_next fun hs => memWf_of_fields hs

theorem acts_keyload (s : State) : Acts s (execKeyload s) := by
  unfold execKeyload
  simp only
  repeat' split
  any_goals exact acts_self s
  all_goals exact acts_next fun hs => memWf_of_fields hs

theorem memWf_peerWrite {s : State} {who : Nat} {ls : List Loc} {bs : List Byte} {r : Reply} (h : s.memWf = true) :
    State.memWf { (((s.writeBytes ls bs).stampPeer who ls).pushes ls).settle with reply := r } = true := by
  have h1 : (((s.writeBytes ls bs).stampPeer who ls).pushes ls).settle.memWf = true :=
    memWf_settle (memWf_pushes (memWf_stampPeer (memWf_writeBytes h)))
  exact memWf_of_fields h1


theorem acts_peerRequest (s : State) : Acts s (execPeerRequest s) := by
  unfold execPeerRequest
  split
  · simp only
    refine acts_ite (acts_next fun hs => memWf_of_fields hs) ?_
    split
    · exact acts_next fun hs => memWf_of_fields hs
    · exact acts_next fun hs => memWf_peerWrite hs
    · split
      · exact acts_next fun hs => memWf_peerWrite hs
      · exact acts_next fun hs => memWf_of_fields hs
  · exact acts_self s

theorem acts_leaseRevoke (s : State) : Acts s (execLeaseRevoke s) := by
  unfold execLeaseRevoke
  simp only
  repeat' split
  any_goals exact acts_self s
  exact acts_next fun hs => memWf_notice (memWf_setLease hs)

theorem acts_leaseGraceEnd (s : State) : Acts s (execLeaseGraceEnd s) := by
  unfold execLeaseGraceEnd
  simp only
  repeat' split
  any_goals exact acts_self s
  exact acts_next fun hs => memWf_revoked hs

theorem acts_leaseTableWrite (s : State) : Acts s (execLeaseTableWrite s) := by
  unfold execLeaseTableWrite
  split
  · extract_lets +onlyGivenNames v l l1 st new l2 s1
    have h1 : s.memWf = true → s1.memWf = true := fun hs => memWf_setLease (by
      split
      · exact memWf_refuseLease hs
      · exact hs)
    clear_value s1
    split
    · exact acts_self s
    split
    · exact acts_next fun hs => memWf_setLease hs
    split
    · exact acts_next fun hs => memWf_revoked hs
    refine acts_next fun hs => ?_
    split
    · exact memWf_of_fields (h1 hs)
    · exact h1 hs
  · exact acts_self s

theorem acts_leaseRelease (s : State) : Acts s (execLeaseRelease s) := by
  unfold execLeaseRelease
  repeat' split
  any_goals exact acts_self s
  exact acts_next fun hs => memWf_of_fields hs

theorem acts_lenderGraceEnd (s : State) : Acts s (execLenderGraceEnd s) := by
  unfold execLenderGraceEnd
  repeat' split
  any_goals exact acts_self s
  · exact acts_next fun hs => memWf_of_fields hs
  · exact acts_next fun hs => memWf_setLease hs

theorem acts_portLinkLoss (s : State) : Acts s (execPortLinkLoss s) := by
  unfold execPortLinkLoss
  split
  · split
    · exact acts_self s
    extract_lets +onlyGivenNames s1
    refine acts_next fun hs => memWf_foldl (fun z o hz => ?_) (memWf_notice (memWf_of_fields hs))
    split
    · exact memWf_endOp (memWf_freeDst hz)
    · exact hz
  · exact acts_self s

theorem acts_collComplete (s : State) : Acts s (execCollComplete s) := by
  unfold execCollComplete
  simp only
  repeat' split
  any_goals exact acts_self s
  · exact acts_next fun hs => memWf_collDone hs
  · exact acts_next fun hs => memWf_collDone hs
  · exact acts_next fun hs => memWf_endOp hs
  · exact acts_next fun hs => memWf_endOp hs
  · exact acts_next fun hs => memWf_endOp (memWf_freeDst hs)
  · exact acts_next fun hs => memWf_endOp (memWf_freeDst hs)

theorem acts_coldReset (s : State) : Acts s (execColdReset s) := by
  unfold execColdReset
  split
  · extract_lets z s1
    have hz : s.memWf = true → z.memWf = true := fun hs => memWf_afterReset (memWf_inspect hs)
    clear_value z
    have h1 : s.memWf = true → s1.memWf = true := fun hs => memWf_of_fields (hz hs)
    clear_value s1
    refine acts_next fun hs => ?_
    split
    · exact h1 hs
    · exact memWf_of_fields (h1 hs)
    · exact memWf_of_fields (h1 hs)
  · exact acts_self s

theorem acts_warmReset (s : State) : Acts s (execWarmReset s) := by
  unfold execWarmReset
  split
  · exact acts_next fun hs => memWf_of_fields (memWf_warmReset hs)
  · exact acts_next fun hs => memWf_warmReset hs

theorem acts_mbResync (s : State) : Acts s (execMbResync s) := by
  exact acts_next fun hs => memWf_serve hs fun _ _ => memWf_resync hs

theorem acts_mbBbread (s : State) : Acts s (execMbBbread s) := by
  exact acts_next fun hs => memWf_serve hs fun _ _ => memWf_respond hs

theorem acts_mbErrlog (s : State) : Acts s (execMbErrlog s) := by
  exact acts_next fun hs => memWf_serve hs fun _ _ => memWf_errlog hs

theorem acts_mbWarmreset (s : State) : Acts s (execMbWarmreset s) := by
  refine acts_next fun hs => memWf_serve hs fun _ _ => ?_
  split
  · exact memWf_of_fields hs
  · exact memWf_warmReset hs

theorem acts_firmwareReplacement (s : State) : Acts s (execFirmwareReplacement s) := by
  unfold execFirmwareReplacement
  split
  · split
    · exact acts_self s
    · exact acts_next fun hs => memWf_beginHandover hs
  · split
    · exact acts_self s
    split
    · exact acts_next fun hs => memWf_of_fields (memWf_setHold (p := s.hot) hs)
    · exact acts_next fun hs => memWf_warmReset hs
  · exact acts_self s

theorem acts_quireQuarantine (s : State) : Acts s (execQuireQuarantine s) := by
  unfold execQuireQuarantine
  repeat' split
  any_goals exact acts_self s
  exact acts_next fun hs => memWf_of_fields hs

theorem acts_quireSpareTakeover (s : State) : Acts s (execQuireSpareTakeover s) := by
  unfold execQuireSpareTakeover
  simp only
  repeat' split
  any_goals exact acts_self s
  exact acts_next fun hs => memWf_of_fields hs

theorem acts_hardwareError (s : State) : Acts s (execHardwareError s) := by
  unfold execHardwareError
  split
  · extract_lets d s1
    split
    · exact acts_self s
    have h1 : s.memWf = true → s1.memWf = true := fun hs => memWf_logError hs
    clear_value s1
    refine acts_next fun hs => ?_
    split
    · exact memWf_of_fields (h1 hs)
    · exact h1 hs
  · exact acts_self s

theorem acts_thermalHold (s : State) : Acts s (execThermalHold s) := by
  unfold execThermalHold
  split
  · exact acts_self s
  · exact acts_next fun hs => memWf_thermalNotice (memWf_of_fields (memWf_setHold (p := true) hs))

theorem acts_thermalRelease (s : State) : Acts s (execThermalRelease s) := by
  unfold execThermalRelease
  split
  · exact acts_next fun hs => memWf_thermalNotice (memWf_of_fields (memWf_setHold (p := false) hs))
  · exact acts_self s

theorem acts_thermalCritical (s : State) : Acts s (execThermalCritical s) := by
  exact acts_next fun hs => memWf_goFatal hs

theorem acts_nvmePortDmaWrite (s : State) : Acts s (execNvmePortDmaWrite s) := by
  unfold execNvmePortDmaWrite
  repeat' split
  any_goals exact acts_self s
  · exact acts_next fun hs => memWf_of_fields hs
  · exact acts_next fun hs => memWf_of_fields hs
  · exact acts_next fun hs => memWf_update (memWf_settle (memWf_performWrite hs)) rfl

end Sys2Proof.Laws
end

section
/-! SUPPORT. Every step answers (O59), and every step keeps the canonical form of the memories (O60). -/

namespace Sys2Proof.Laws

open Sys2Proof Sys2Proof.Machine

-- In turn, not in parallel: these many short proofs, each waiting for the equations of its own function, would take
-- more threads at a time than the memory holds stacks for.
set_option Elab.async false

/-- Every device step acts. -/
theorem acts_exec {i : Instr} (s : State) (he : encodeWord i = none) : Acts s (exec i s) := by
  cases i
  case entryFetch => exact acts_entryFetch s
  case writeIndexPush => exact acts_writeIndexPush s
  case entryNop => exact acts_entryNop s
  case entryLaunch => exact acts_entryLaunch s
  case entryNode => exact acts_entryNode s
  case entryFetchfence => exact acts_entryFetchfence s
  case entrySignal => exact acts_entrySignal s
  case signalStore => exact acts_signalStore s
  case entryWaitv => exact acts_entryWaitv s
  case waitvPush => exact acts_waitvPush s
  case splitHalfRequest => exact acts_splitHalfRequest s
  case splitHalfFinish => exact acts_splitHalfFinish s
  case queueMap => exact acts_queueMap s
  case queueUnmap => exact acts_queueUnmap s
  case queueFaultClear => exact acts_queueFaultClear s
  case fecfgWrite => exact acts_fecfgWrite s
  case fepcmdGrant => exact acts_fepcmdGrant s
  case fepcmdDemote => exact acts_fepcmdDemote s
  case fepcmdAbort => exact acts_fepcmdAbort s
  case blockPlacement => exact acts_blockPlacement s
  case preemptDecision => exact acts_preemptDecision s
  case saveImageDone => exact acts_saveImageDone s
  case blockRestore => exact acts_blockRestore s
  case blockEnd => exact acts_blockEnd s
  case entryFinish => exact acts_entryFinish s
  case completionWrite => exact acts_completionWrite s
  case deadlineInheritUpdate => exact acts_deadlineInheritUpdate s
  case budgetReport => exact acts_budgetReport s
  case enqrNodeAnswer => exact acts_enqrNodeAnswer s
  case enqrAccept => exact acts_enqrAccept s
  case nodeBlockLaunch => exact acts_nodeBlockLaunch s
  case nodeTimeout => exact acts_nodeTimeout s
  case nodeMarginReached => exact acts_nodeMarginReached s
  case fairnessSweep => exact acts_fairnessSweep s
  case fairnessTurnEnd => exact acts_fairnessTurnEnd s
  case variableLatencyComplete => exact acts_variableLatencyComplete s
  case fixedLatencyWrite => exact acts_fixedLatencyWrite s
  case storePerform => exact acts_storePerform s
  case readPerform => exact acts_readPerform s
  case atomicPerform => exact acts_atomicPerform s
  case sectorPerform => exact acts_sectorPerform s
  case lineDrop => exact acts_lineDrop s
  case pushDelivery => exact acts_pushDelivery s
  case copyFault => exact acts_copyFault s
  case addressProgramStep => exact acts_addressProgramStep s
  case lockHintExpiry => exact acts_lockHintExpiry s
  case trywHintExpiry => exact acts_trywHintExpiry s
  case tbtryHintExpiry => exact acts_tbtryHintExpiry s
  case slwaitHintExpiry => exact acts_slwaitHintExpiry s
  case sldHomeRequest => exact acts_sldHomeRequest s
  case creditReturn => exact acts_creditReturn s
  case usubHome => exact acts_usubHome s
  case subscriptionPoison => exact acts_subscriptionPoison s
  case operandsConsumed => exact acts_operandsConsumed s
  case matrixOpComplete => exact acts_matrixOpComplete s
  case systemTrapRecord => exact acts_systemTrapRecord s
  case trapResolution => exact acts_trapResolution s
  case contextDiscard => exact acts_contextDiscard s
  case deviceFatal => exact acts_deviceFatal s
  case pinCurrent => exact acts_pinCurrent s
  case pin => exact acts_pin s
  case unpin => exact acts_unpin s
  case noticeRingPost => exact acts_noticeRingPost s
  case translationWalk => exact acts_translationWalk s
  case ndropComplete => exact acts_ndropComplete s
  case registerWrite => exact acts_registerWrite s
  case hostBar2Request => exact acts_hostBar2Request s
  case atsInvalidation => exact acts_atsInvalidation s
  case spdmRequest => exact acts_spdmRequest s
  case keyload => exact acts_keyload s
  case peerRequest => exact acts_peerRequest s
  case leaseRevoke => exact acts_leaseRevoke s
  case leaseGraceEnd => exact acts_leaseGraceEnd s
  case leaseTableWrite => exact acts_leaseTableWrite s
  case leaseRelease => exact acts_leaseRelease s
  case lenderGraceEnd => exact acts_lenderGraceEnd s
  case portLinkLoss => exact acts_portLinkLoss s
  case collComplete => exact acts_collComplete s
  case coldReset => exact acts_coldReset s
  case warmReset => exact acts_warmReset s
  case mbResync => exact acts_mbResync s
  case mbBbread => exact acts_mbBbread s
  case mbErrlog => exact acts_mbErrlog s
  case mbWarmreset => exact acts_mbWarmreset s
  case firmwareReplacement => exact acts_firmwareReplacement s
  case quireQuarantine => exact acts_quireQuarantine s
  case quireSpareTakeover => exact acts_quireSpareTakeover s
  case hardwareError => exact acts_hardwareError s
  case thermalHold => exact acts_thermalHold s
  case thermalRelease => exact acts_thermalRelease s
  case thermalCritical => exact acts_thermalCritical s
  case nvmePortDmaWrite => exact acts_nvmePortDmaWrite s
  all_goals cases he

theorem keeps_eventTurn (s : State) (i : Instr) (x : Input) : Keeps s (s.eventTurn i x) := by
  unfold State.eventTurn
  split
  · exact keeps_self s
  · next h =>
    have he : encodeWord i = none := by
      cases hw : encodeWord i with
      | none => rfl
      | some w => simp [hw] at h
    obtain ⟨t, ht, hm⟩ := acts_exec { s with input := x } he
    rw [ht]
    exact ⟨_, rfl, fun _ => rfl, fun hs => memWf_of_fields (hm (memWf_of_fields hs))⟩

theorem keeps_take (s : State) (t : Turn) : Keeps s (s.take t) := by
  cases t with
  | event i x => exact keeps_eventTurn s i x
  | issue d core part => exact keeps_issueTurn s d core part
  | time n0 n1 => exact keeps_timeTurn s n0 n1

theorem keeps_step (s : State) : Keeps s (step s) := by
  unfold step
  split
  · exact keeps_take s _
  · next t r _ =>
    obtain ⟨z, hz, hf, hm⟩ := keeps_take { s with agenda := r } t
    exact ⟨z, hz, hf, fun hs => hm (memWf_of_fields hs)⟩

/-- Settles O59: every turn answers, and leaves the focus to nobody. -/
theorem everyStepAnswersAStateAtRest : Obligations.EveryStepAnswersAStateAtRest := by
  unfold Obligations.EveryStepAnswersAStateAtRest
  intro s hs
  obtain ⟨t, ht, hf, -⟩ := keeps_step s
  exact ⟨t, ht, decide_eq_true (hf (of_decide_eq_true hs))⟩

/-- Settles O60: every turn keeps the canonical form of each memory that it writes. -/
theorem everyStepKeepsMemoryCanonical : Obligations.EveryStepKeepsMemoryCanonical := by
  unfold Obligations.EveryStepKeepsMemoryCanonical
  intro s t hs ht
  obtain ⟨z, hz, -, hm⟩ := keeps_step s
  obtain rfl : z = t := Host.Outcome.next.inj (hz.symm.trans ht)
  exact hm hs

end Sys2Proof.Laws
end
